-- ==== Sys2Proof/Word.lean ====
section
/-! DEFINITION. The word types of the machine, register banks, and the small closed types that instructions name. -/

namespace Sys2Proof

/-- One byte of memory. -/
abbrev Byte := BitVec 8
/-- One 32-bit instruction word, or one lane of a vector register. -/
abbrev Word := BitVec 32
/-- One 64-bit register. -/
abbrev DWord := BitVec 64
/-- A 48-bit virtual or physical address (R29, R268). -/
abbrev Addr := BitVec 48
/-- A core in the csr.core format (R31): bits 6:5 the die, bits 4:0 the core within it. -/
abbrev CoreId := BitVec 7
/-- A cluster of a core (R197). -/
abbrev ClusterId := BitVec 4
/-- A compute die (R1). -/
abbrev DieId := BitVec 2
/-- A partition (R248). -/
abbrev PartId := BitVec 4
/-- A format tag (R52). -/
abbrev Tag := BitVec 5

/-- `2^w` like things numbered by a `w`-bit field: a register file, the clusters of a core, the cores of the device. -/
abbrev Bank (w : Nat) (α : Type) := Vector α (2 ^ w)

/-- The entry numbered `i`. -/
def Bank.read {w : Nat} {α : Type} (b : Bank w α) (i : BitVec w) : α := b[i.toNat]'(i.isLt)

/-- The bank with entry `i` replaced. -/
def Bank.write {w : Nat} {α : Type} (b : Bank w α) (i : BitVec w) (x : α) : Bank w α := b.set i.toNat x i.isLt

/-- The bank with entry `i` changed by `f`. -/
def Bank.modify {w : Nat} {α : Type} (b : Bank w α) (i : BitVec w) (f : α → α) : Bank w α := b.write i (f (b.read i))

/-- The bank whose entry `i` is `f i`. -/
def Bank.ofFn {w : Nat} {α : Type} (f : BitVec w → α) : Bank w α :=
  ⟨⟨List.ofFn fun i : Fin (2 ^ w) => f (BitVec.ofFin i)⟩, by simp⟩

/-- The bank that holds `x` everywhere. -/
def Bank.fill {w : Nat} {α : Type} (x : α) : Bank w α := Vector.replicate (2 ^ w) x

/-- Every entry in order. -/
def Bank.list {w : Nat} {α : Type} (b : Bank w α) : List α := b.toList

@[simp] theorem Bank.read_write {w : Nat} {α : Type} (b : Bank w α) (i j : BitVec w) (x : α) :
    (b.write i x).read j = if i = j then x else b.read j := by
  unfold Bank.read Bank.write
  rw [Vector.getElem_set]
  simp only [BitVec.toNat_inj]

@[simp] theorem Bank.read_ofFn {w : Nat} {α : Type} (f : BitVec w → α) (i : BitVec w) :
    (Bank.ofFn f).read i = f i := by
  simp [Bank.read, Bank.ofFn, Vector.getElem_mk]

@[simp] theorem Bank.read_fill {w : Nat} {α : Type} (x : α) (i : BitVec w) :
    (Bank.fill x : Bank w α).read i = x := by
  simp [Bank.read, Bank.fill]

@[simp] theorem Bank.read_modify {w : Nat} {α : Type} (b : Bank w α) (i j : BitVec w) (f : α → α) :
    (b.modify i f).read j = if i = j then f (b.read i) else b.read j := by
  simp [Bank.modify]

/-- The eight slots of a bundle (R94). -/
inductive Slot where
  | A | B | C | D | E | F | G | H
  deriving DecidableEq, Repr

/-- The two kernel positions of a kernel engine (R207). -/
inductive KPos where
  | primary | secondary
  deriving DecidableEq, Repr

/-- What every slot operation carries: its slot, its guard field (R95) and, when its arrive-on-retire bit is set, the
kernel barrier it arrives at (R17, R237). -/
structure SlotHdr where
  slot : Slot
  guard : BitVec 4
  arrive : Option (BitVec 2)
  deriving DecidableEq, Repr

/-- An immediate of a slot operation that may own a long one (R18, R98). -/
inductive Imm where
  | short (v : BitVec 8)
  | long36 (v : BitVec 36)
  | long64 (v : BitVec 64)
  deriving DecidableEq, Repr

/-- The extension word of a slot G operation marked X (R98). -/
structure Ext where
  mode : Bool
  row : BitVec 11
  reg2 : BitVec 5
  low : BitVec 7
  deriving DecidableEq, Repr

/-- The operand source of MLOADB and the pushes (R175): kind in bits 9:8, x in bit 7, the low seven bits. -/
structure MatSrc where
  kind : BitVec 2
  x : Bool
  low : BitVec 7
  deriving DecidableEq, Repr

/-- The fields that every stream command has (R87). -/
structure CmdHdr where
  cls : BitVec 4
  scope : BitVec 2
  ntf : Bool
  cnt : Bool
  order : BitVec 2
  waitSm : BitVec 8
  threshold : BitVec 8
  signalSm : BitVec 8
  increment : BitVec 8
  deriving DecidableEq, Repr

/-- The ordering suffix fields of a synchronising control-core instruction (R84). -/
structure SyncSfx where
  cls : BitVec 4
  order : BitVec 2
  scope : BitVec 2
  deriving DecidableEq, Repr

/-- A link: a path of the die mesh (R395), a compute die's link to the I/O die (R394), a path of the fabric to a peer device (R401), the
Host Link (R415). -/
inductive Link where
  | mesh (src dst : DieId) (path : BitVec 3)
  | io (die : DieId)
  | fabric (peer : BitVec 16) (path : BitVec 4)
  | host
  deriving DecidableEq, Repr

/-- A die-link flit, field by field as R396 lays it out: its header (bytes 0 to 7), its payload (8 to 71), the transit CRC (72, 73),
the reserved bytes (74, 75) and the flit CRC (76 to 79). -/
structure Flit where
  type : BitVec 4
  path : BitVec 3
  src : DieId
  dst : DieId
  reserved : BitVec 5
  seq : BitVec 24
  cls : BitVec 4
  rtag : BitVec 20
  payload : BitVec 512
  transit : BitVec 16
  reserved2 : BitVec 16
  crc : BitVec 32
  deriving DecidableEq, Repr

/-- A transaction by its id, its group, and its number among those of a member on that group (R405, R411). -/
structure TxnName where
  id : BitVec 32
  group : BitVec 4
  seq : BitVec 32
  deriving DecidableEq, Repr

/-- The message a fabric packet carries. R401 lets only the messages of COLL and of transactions cross devices; the acknowledgement
of the transport's reliable delivery is `ack`, and `unsupported` stands for what R399 makes the device refuse. A message goes to one
member, and so to the partition of that member's core; of a transaction it names which of its core's it is (R405). -/
inductive FabMsg where
  | collIssue (dest : CoreId) (group : BitVec 4) (seq : BitVec 32) (rank : Nat) (op comb : BitVec 4) (n esize : Nat)
      (data : List (Byte × Bool))
  | xstore (dest : CoreId) (x : TxnName) (member target nth : Nat) (addr : DWord) (size : BitVec 2) (data : DWord)
  | vote (dest : CoreId) (x : TxnName) (member sent : Nat) (commit : Bool)
  | staged (dest : CoreId) (x : TxnName) (member target nth : Nat) (fault : Option (BitVec 8))
  | decision (dest : CoreId) (x : TxnName) (commit : Bool) (reason : BitVec 8)
  | applied (dest : CoreId) (x : TxnName) (member : Nat)
  | finished (dest : CoreId) (x : TxnName)
  | query (dest : CoreId) (x : TxnName)
  | ack (seq : BitVec 32)
  | unsupported
  deriving DecidableEq, Repr

/-- A packet of the fabric: the device it comes from, its path (an entropy value) and that path's packet sequence (R401). -/
structure Packet where
  peer : BitVec 16
  path : BitVec 4
  seq : BitVec 32
  msg : FabMsg
  deriving DecidableEq, Repr

/-- Who waits for the host to answer a read of host memory (R417). -/
inductive HostReader where
  | control (core : CoreId)
  | command (core : CoreId) (entry : BitVec 6)
  deriving DecidableEq, Repr

/-- Where an error lies (R386, R390); `context` is one of the contexts in the shadow storage of the core's die (R375), `link` what a link
carries (R384). -/
inductive EccPlace where
  | controlRegister
  | csr
  | kernelStore
  | cluster (pos : KPos) (cl : ClusterId)
  | context (n : Nat)
  | link (l : Link)
  deriving DecidableEq, Repr

/-- What a check finds in a block, a unit or a register: its ECC, or, of data that is written there, the transit CRC that came with it, which
does not hold (R282, R384, R386, R388). -/
inductive ScrubFinding where
  | clean
  | corrected (symbol : BitVec 64)
  | uncorrectable
  | transit
  deriving DecidableEq, Repr

/-- A cc of a core's bank units, with what ECC finds in the first unit of the request that it serves, or, where none waits, in the unit
that a bundle or a stream command reads there, or that data from the data path has been written to (R384). -/
structure BankCheck where
  core : CoreId
  found : ScrubFinding
  unit : Nat
  deriving DecidableEq, Repr

/-- A calendar slot of a pseudo-channel, with what ECC finds in the block that it reads: the block of the request that it serves, or,
where none waits, the block of the die that an access of the die's own reads or has written (R384). -/
structure SlotCheck where
  channel : BitVec 8
  found : ScrubFinding
  block : Nat
  deriving DecidableEq, Repr

/-- An error in protected state of a core (R386). -/
structure EccError where
  place : EccPlace
  found : ScrubFinding
  deriving DecidableEq, Repr

end Sys2Proof
end

