-- ==== Sys2Proof/Syntax.lean ====
section
/-! DEFINITION. The instructions, commands, slot operations and device events: one constructor per row of the opcode table. -/

namespace Sys2Proof

/-- One constructor per row of spec/opcode_table.json, in this order: the control-core words (R82), the stream commands
(R90), the slot operations of a kernel bundle (R100 to R103, R439), and the events of the device. Field names follow the
spec's: `d`, `a`, `b` are the register fields, `h` the fields every command or every slot operation has. -/
inductive Instr where
  -- control-core words
  /-- R106. Writes ga + gb into gd modulo 2^64. -/
  | add (d a b : BitVec 5)
  /-- R106. Writes ga − gb into gd modulo 2^64. -/
  | sub (d a b : BitVec 5)
  /-- R106. Writes the bitwise AND of ga and gb into gd. -/
  | and (d a b : BitVec 5)
  /-- R106. Writes the bitwise OR of ga and gb into gd. -/
  | or (d a b : BitVec 5)
  /-- R106. Writes the bitwise XOR of ga and gb into gd. -/
  | xor (d a b : BitVec 5)
  /-- R106. Shifts ga left by gb<5:0> into gd. -/
  | sll (d a b : BitVec 5)
  /-- R106. Shifts ga right by gb<5:0>, filling zeros, into gd. -/
  | srl (d a b : BitVec 5)
  /-- R106. Shifts ga right by gb<5:0>, filling copies of bit 63, into gd. -/
  | sra (d a b : BitVec 5)
  /-- R106. Writes 1 into gd when ga < gb as i64, else 0. -/
  | slt (d a b : BitVec 5)
  /-- R106. Writes 1 into gd when ga < gb as u64, else 0. -/
  | sltu (d a b : BitVec 5)
  /-- R106. Writes the lesser of ga and gb as i64 into gd. -/
  | min (d a b : BitVec 5)
  /-- R106. Writes the greater of ga and gb as i64 into gd. -/
  | max (d a b : BitVec 5)
  /-- R106. Writes the lesser of ga and gb as u64 into gd. -/
  | minu (d a b : BitVec 5)
  /-- R106. Writes the greater of ga and gb as u64 into gd. -/
  | maxu (d a b : BitVec 5)
  /-- R106. Sign-extends ga<7:0> into gd. -/
  | sextB (d a : BitVec 5)
  /-- R106. Sign-extends ga<15:0> into gd. -/
  | sextH (d a : BitVec 5)
  /-- R106. Sign-extends ga<31:0> into gd. -/
  | sextW (d a : BitVec 5)
  /-- R109. Writes the low 64 bits of the product of ga and gb into gd. -/
  | mul (d a b : BitVec 5)
  /-- R109. Writes the high 64 bits of the signed 128-bit product into gd. -/
  | mulh (d a b : BitVec 5)
  /-- R109. Writes the high 64 bits of the unsigned 128-bit product into gd. -/
  | mulhu (d a b : BitVec 5)
  /-- R110. Signed division truncated toward zero, with fixed edge results. -/
  | div (d a b : BitVec 5)
  /-- R110. Unsigned division, giving all ones for a zero divisor. -/
  | divu (d a b : BitVec 5)
  /-- R110. Signed remainder taking the dividend's sign. -/
  | rem (d a b : BitVec 5)
  /-- R110. Unsigned remainder, giving the dividend for a zero divisor. -/
  | remu (d a b : BitVec 5)
  /-- R111. Adds the sign-extended immediate to ga into gd. -/
  | addi (d a : BitVec 5) (imm : BitVec 16)
  /-- R111. ANDs ga with the zero-extended immediate into gd. -/
  | andi (d a : BitVec 5) (imm : BitVec 16)
  /-- R111. ORs ga with the zero-extended immediate into gd. -/
  | ori (d a : BitVec 5) (imm : BitVec 16)
  /-- R111. XORs ga with the zero-extended immediate into gd. -/
  | xori (d a : BitVec 5) (imm : BitVec 16)
  /-- R111. Sets gd when ga is less than the immediate as i64. -/
  | slti (d a : BitVec 5) (imm : BitVec 16)
  /-- R111. Sets gd when ga is less than the sign-extended immediate as u64. -/
  | sltiu (d a : BitVec 5) (imm : BitVec 16)
  /-- R112. Shifts ga left by an immediate count into gd. -/
  | slli (d a : BitVec 5) (n : BitVec 6)
  /-- R112. Shifts ga right logically by an immediate count into gd. -/
  | srli (d a : BitVec 5) (n : BitVec 6)
  /-- R112. Shifts ga right arithmetically by an immediate count into gd. -/
  | srai (d a : BitVec 5) (n : BitVec 6)
  /-- R113. Writes the sign-extended immediate shifted left by 16 into gd. -/
  | lui (d : BitVec 5) (imm : BitVec 16)
  /-- R113. Shifts ga left by 16 and places the immediate in the low bits of gd. -/
  | shori (d a : BitVec 5) (imm : BitVec 16)
  /-- R116. Loads one byte zero-extended into gd. -/
  | ldB (d a : BitVec 5) (cls : BitVec 4) (off : BitVec 12)
  /-- R116. Loads two bytes zero-extended into gd. -/
  | ldH (d a : BitVec 5) (cls : BitVec 4) (off : BitVec 12)
  /-- R116. Loads four bytes zero-extended into gd. -/
  | ldW (d a : BitVec 5) (cls : BitVec 4) (off : BitVec 12)
  /-- R116. Loads eight bytes into gd. -/
  | ldD (d a : BitVec 5) (cls : BitVec 4) (off : BitVec 12)
  /-- R117. Stores the low byte of gs. -/
  | stB (src a : BitVec 5) (cls : BitVec 4) (off : BitVec 12)
  /-- R117. Stores the low two bytes of gs. -/
  | stH (src a : BitVec 5) (cls : BitVec 4) (off : BitVec 12)
  /-- R117. Stores the low four bytes of gs. -/
  | stW (src a : BitVec 5) (cls : BitVec 4) (off : BitVec 12)
  /-- R117. Stores the eight bytes of gs. -/
  | stD (src a : BitVec 5) (cls : BitVec 4) (off : BitVec 12)
  /-- R122. Branches when ga equals gb. -/
  | beq (a b : BitVec 5) (off : BitVec 16)
  /-- R122. Branches when ga differs from gb. -/
  | bne (a b : BitVec 5) (off : BitVec 16)
  /-- R122. Branches when ga < gb as i64. -/
  | blt (a b : BitVec 5) (off : BitVec 16)
  /-- R122. Branches when ga ≥ gb as i64. -/
  | bge (a b : BitVec 5) (off : BitVec 16)
  /-- R122. Branches when ga < gb as u64. -/
  | bltu (a b : BitVec 5) (off : BitVec 16)
  /-- R122. Branches when ga ≥ gb as u64. -/
  | bgeu (a b : BitVec 5) (off : BitVec 16)
  /-- R123. Jumps to a PC-relative target and links in g1. -/
  | jal (off : BitVec 26)
  /-- R124. Jumps to ga plus a word offset and links in gd. -/
  | jalr (d a : BitVec 5) (imm : BitVec 16)
  /-- R46, R218. Waits for the task's commands, syncs, frees its handles and ends the task. -/
  | exit
  /-- R247. Suspends the task in state ready at the tail of its team's ready queue. -/
  | yield
  /-- R217. Creates a child task with private copies of the parent's views. -/
  | spawn (d a b : BitVec 5)
  /-- R221. Waits until every child since the last SYNC has merged and returns the status bits. -/
  | sync (d : BitVec 5)
  /-- R216. Declares a shared tile with one of the eight combine operators. -/
  | view (op : BitVec 3) (d a b : BitVec 5)
  /-- R216. Drops view ga<2:0> when the task has no unmerged children. -/
  | viewDrop (d a b : BitVec 5)
  /-- R230. Arrives at a quorum meeting with a contribution, at the record's Wellhead. -/
  | meet (sfx : SyncSfx) (d a b : BitVec 5)
  /-- R234. Initialises a meeting record from a template and makes its block live. -/
  | minit (d a b : BitVec 5)
  /-- R234. Reads word 4 of a live meeting record atomically. -/
  | mread (d a : BitVec 5)
  /-- R234. Clears a meeting block's hidden tag and wakes its waiters with NOTLIVE. -/
  | mfree (d a : BitVec 5)
  /-- R334. Suspends the task until a u64 counter reaches gb. -/
  | waitge (sfx : SyncSfx) (a b : BitVec 5)
  /-- R242. Suspends the task until an 8-byte word meets the mode's condition against gb. -/
  | waitaddr (mode : BitVec 2) (sfx : SyncSfx) (d a b : BitVec 5)
  /-- R244. Makes every core re-read the monitored and swept words of one block. -/
  | wake (a : BitVec 5)
  /-- R240. Takes an entry from a queue, blocking while it is open and empty. -/
  | qpop (d a : BitVec 5)
  /-- R240. Takes an entry from a queue, returning EMPTY instead of blocking. -/
  | qpopNb (d a : BitVec 5)
  /-- R240. Gives an entry to the first waiter or appends it to the ring. -/
  | qpush (d a b : BitVec 5)
  /-- R240. Closes a queue and wakes its waiters with TERM when it is empty. -/
  | qclose (d a : BitVec 5)
  /-- R246. Queues a launch record on the launch queue of its priority. -/
  | launch (d a : BitVec 5)
  /-- R298. Releases and acquires the masked classes at the given scope. -/
  | fence (scope : BitVec 2) (mask : BitVec 16)
  /-- R411. Opens a transaction with an id on a collective group. -/
  | xbegin (d a : BitVec 5)
  /-- R411. Sends a transactional write to the target rank's device for staging. -/
  | xstore (size : BitVec 2) (d a b : BitVec 5)
  /-- R412. Votes commit and suspends the task until the outcome is known. -/
  | xcommit (d : BitVec 5)
  /-- R412. Votes abort and closes the transaction on the task. -/
  | xabort (d : BitVec 5)
  /-- R267. Performs an indivisible 4-byte atomic operation at the word's Wellhead. -/
  | amoW (op : BitVec 3) (sfx : SyncSfx) (d a b : BitVec 5)
  /-- R267. Performs an indivisible 8-byte atomic operation at the word's Wellhead. -/
  | amoD (op : BitVec 3) (sfx : SyncSfx) (d a b : BitVec 5)
  /-- R299. Loads a value and acquires every class at its scope. -/
  | ldAcq (size : BitVec 2) (cls : BitVec 4) (scope : BitVec 2) (d a : BitVec 5)
  /-- R299. Releases every class at its scope and then stores. -/
  | stRel (size : BitVec 2) (cls : BitVec 4) (scope : BitVec 2) (a b : BitVec 5)
  /-- R125. Reads a CSR into gd. -/
  | csrr (d : BitVec 5) (csr : BitVec 12)
  /-- R125. Writes ga to a CSR and returns its old value. -/
  | csrw (d a : BitVec 5) (csr : BitVec 12)
  /-- R125. Sets the CSR bits marked in ga and returns the old value. -/
  | csrs (d a : BitVec 5) (csr : BitVec 12)
  /-- R125. Clears the CSR bits marked in ga and returns the old value. -/
  | csrc (d a : BitVec 5) (csr : BitVec 12)
  /-- R361. Raises a SOFT trap with its code. -/
  | trap (code : BitVec 16)
  /-- R360. Leaves system mode, returning to csr.tepc or to idle. -/
  | sysret
  /-- R337. Returns from a user interrupt handler to csr.uepc. -/
  | uiret
  /-- R368. Stops a core's kernel engine and writes its kind 1 snapshot image. -/
  | snapsave (d a b : BitVec 5)
  /-- R368. Restores a stopped kernel engine from a kind 1 snapshot image. -/
  | snapload (d a b : BitVec 5)
  /-- R378. Raises the software breakpoint trap BREAK. -/
  | brk
  /-- R379. Reads a breakpoint comparator word or a code word. -/
  | dbrd (d a : BitVec 5)
  /-- R379. Writes a breakpoint comparator word or a code word. -/
  | dbwr (a b : BitVec 5)
  /-- R381. Clears the hidden tag or the poison bit of one block. -/
  | untag (a : BitVec 5)
  -- stream commands
  /-- R315. Loads and checks a shape record into a shape register. -/
  | shape (h : CmdHdr) (addr : Word) (sh : BitVec 5) (ctr : BitVec 15)
  /-- R260. Reserves and zeroes a Cistern rectangle under a handle. -/
  | salloc (h : CmdHdr) (hnd : BitVec 6) (bank nbanks : BitVec 7) (row : BitVec 11) (nrows : BitVec 12)
  /-- R261. Releases a Cistern handle. -/
  | sfree (h : CmdHdr) (hnd : BitVec 6)
  /-- R321. Moves a stream from memory into a handle, optionally transposed. -/
  | sload (h : CmdHdr) (tmode : BitVec 2) (tag : Tag) (split : Bool) (addr : Word) (hnd : BitVec 6) (sh : BitVec 5) (ctr : BitVec 15)
  /-- R321. Moves a stream from a handle into memory. -/
  | sstore (h : CmdHdr) (tag : Tag) (split : Bool) (addr : Word) (hnd : BitVec 6) (sh : BitVec 5) (ctr : BitVec 15)
  /-- R322. Gathers memory elements named by an index list into a handle. -/
  | sgather (h : CmdHdr) (tag : Tag) (addr : Word) (hnd : BitVec 6) (sh : BitVec 5) (idx : BitVec 6) (ctr : BitVec 15)
  /-- R322. Scatters handle elements to memory at indexed addresses. -/
  | sscatter (h : CmdHdr) (tag : Tag) (addr : Word) (hnd : BitVec 6) (sh : BitVec 5) (idx : BitVec 6) (ctr : BitVec 15)
  /-- R324. Adds handle elements into memory at indexed addresses at the Wellheads. -/
  | sscadd (h : CmdHdr) (tag : Tag) (form : BitVec 2) (addr : Word) (hnd : BitVec 6) (sh : BitVec 5) (idx : BitVec 6) (ctr : BitVec 15)
  /-- R325. Copies memory to memory along a shape. -/
  | scopy (h : CmdHdr) (sh : BitVec 5) (dst src : Word)
  /-- R326. Lists the nonzero elements or rows of a Cistern stream and writes a mask and count. -/
  | scan (h : CmdHdr) (tag : Tag) (flush row : Bool) (src list : BitVec 6) (sh : BitVec 5) (mask : BitVec 6) (ctr : BitVec 15)
  /-- R327. Starts a kernel with declared input and output handles. -/
  | kernel (h : CmdHdr) (knl : BitVec 12) (sh : BitVec 5) (hA hB hC hD : BitVec 6) (ins outs : BitVec 4) (ctr : BitVec 15)
  /-- R328. Replaces the image behind a kernel handle in every core's kernel store. -/
  | kswap (h : CmdHdr) (knl : BitVec 12) (addr : Word) (ctr : BitVec 15)
  /-- R407. Runs an all-reduce collective over a group. -/
  | collAllred (h : CmdHdr) (addr : Word) (comb : BitVec 4) (sh : BitVec 5) (grp : BitVec 4) (ctr : BitVec 15)
  /-- R407. Runs a reduce-scatter collective over a group. -/
  | collRedsc (h : CmdHdr) (addr : Word) (comb : BitVec 4) (sh : BitVec 5) (grp : BitVec 4) (ctr : BitVec 15)
  /-- R407. Runs an all-gather collective over a group. -/
  | collAllgat (h : CmdHdr) (addr : Word) (comb : BitVec 4) (sh : BitVec 5) (grp : BitVec 4) (ctr : BitVec 15)
  /-- R407. Broadcasts rank 0's buffer over a group. -/
  | collBcast (h : CmdHdr) (addr : Word) (comb : BitVec 4) (sh : BitVec 5) (grp : BitVec 4) (ctr : BitVec 15)
  /-- R329. Waits, signals, counts and notifies, completing when it issues. -/
  | smark (h : CmdHdr) (ctr : BitVec 15)
  -- slot operations
  /-- R96. Occupied slot with no effect. -/
  | slotNop (h : SlotHdr)
  /-- R134. Transfers control to a bundle index of the kernel. -/
  | br (h : SlotHdr) (target : BitVec 12)
  /-- R135. Opens a hardware loop with a trip count from a register or the iteration shape. -/
  | loop (h : SlotHdr) (lvl : BitVec 3) (a : BitVec 5) (byShape : Bool) (len : BitVec 6)
  /-- R135. Opens a hardware loop with an immediate trip count. -/
  | loopi (h : SlotHdr) (lvl : BitVec 3) (trip : BitVec 7) (len : BitVec 6)
  /-- R137. Opens a software-pipelined loop with stage predicates and register rotation. -/
  | loopSw (h : SlotHdr) (lvl : BitVec 3) (a : BitVec 5) (byShape : Bool) (stages : BitVec 3) (ii : BitVec 4)
  /-- R137. Opens a software-pipelined loop with an immediate trip count. -/
  | loopiSw (h : SlotHdr) (lvl : BitVec 3) (trip : BitVec 6) (stages : BitVec 3) (ii : BitVec 4)
  /-- R139. Writes pa AND pb into one scalar predicate. -/
  | pand (h : SlotHdr) (pd pa pb : BitVec 4)
  /-- R139. Writes pa OR pb into one scalar predicate. -/
  | por (h : SlotHdr) (pd pa pb : BitVec 4)
  /-- R139. Writes pa XOR pb into one scalar predicate. -/
  | pxor (h : SlotHdr) (pd pa pb : BitVec 4)
  /-- R139. Writes pa AND NOT pb into one scalar predicate. -/
  | pandn (h : SlotHdr) (pd pa pb : BitVec 4)
  /-- R140. Compares two scalar registers and writes a predicate pair. -/
  | cmp (h : SlotHdr) (cc k : BitVec 3) (a b : BitVec 5)
  /-- R140. Compares a scalar register with an immediate and writes a predicate pair. -/
  | cmpi (h : SlotHdr) (cc k : BitVec 3) (a : BitVec 5) (imm : Imm)
  /-- R141. Writes a sign-extended or long immediate into a scalar register. -/
  | movi (h : SlotHdr) (d : BitVec 5) (imm : Imm)
  /-- R142. Freezes until at most n variable-latency requests remain outstanding. -/
  | lwait (h : SlotHdr) (n : BitVec 4)
  /-- R143, R262. Holds bank arbitration for up to six banks for n bundles. -/
  | lock (h : SlotHdr) (n : BitVec 4) (a : BitVec 5)
  /-- R144. Ends the kernel with a code and raises the KTRAP trap. -/
  | ktrap (h : SlotHdr) (code : BitVec 16)
  /-- R145. Ends the kernel once its writes and arrivals have performed. -/
  | halt (h : SlotHdr)
  /-- R146. Copies one scalar register to another. -/
  | sMov (h : SlotHdr) (d a : BitVec 5)
  /-- R146. Adds two scalar registers. -/
  | sAdd (h : SlotHdr) (d a b : BitVec 5)
  /-- R146. Subtracts two scalar registers. -/
  | sSub (h : SlotHdr) (d a b : BitVec 5)
  /-- R146. Bitwise AND of two scalar registers. -/
  | sAnd (h : SlotHdr) (d a b : BitVec 5)
  /-- R146. Bitwise OR of two scalar registers. -/
  | sOr (h : SlotHdr) (d a b : BitVec 5)
  /-- R146. Bitwise XOR of two scalar registers. -/
  | sXor (h : SlotHdr) (d a b : BitVec 5)
  /-- R146. Shifts a scalar register left by a register count. -/
  | sSll (h : SlotHdr) (d a b : BitVec 5)
  /-- R146. Shifts a scalar register right logically by a register count. -/
  | sSrl (h : SlotHdr) (d a b : BitVec 5)
  /-- R146. Shifts a scalar register right arithmetically by a register count. -/
  | sSra (h : SlotHdr) (d a b : BitVec 5)
  /-- R146. Writes the low 64 bits of a scalar product. -/
  | sMul (h : SlotHdr) (d a b : BitVec 5)
  /-- R146. Writes the high 64 bits of a signed scalar product. -/
  | sMulh (h : SlotHdr) (d a b : BitVec 5)
  /-- R146. Writes the lesser of two scalar registers as i64. -/
  | sMin (h : SlotHdr) (d a b : BitVec 5)
  /-- R146. Writes the greater of two scalar registers as i64. -/
  | sMax (h : SlotHdr) (d a b : BitVec 5)
  /-- R146. Writes the lesser of two scalar registers as u64. -/
  | sMinu (h : SlotHdr) (d a b : BitVec 5)
  /-- R146. Writes the greater of two scalar registers as u64. -/
  | sMaxu (h : SlotHdr) (d a b : BitVec 5)
  /-- R146. Adds an immediate to a scalar register. -/
  | sAddi (h : SlotHdr) (d : BitVec 5) (imm : Imm)
  /-- R146. ANDs a scalar register with an immediate. -/
  | sAndi (h : SlotHdr) (d : BitVec 5) (imm : Imm)
  /-- R146. ORs a scalar register with an immediate. -/
  | sOri (h : SlotHdr) (d : BitVec 5) (imm : Imm)
  /-- R146. XORs a scalar register with an immediate. -/
  | sXori (h : SlotHdr) (d : BitVec 5) (imm : Imm)
  /-- R146. Shifts a scalar register left by an immediate. -/
  | sSlli (h : SlotHdr) (d : BitVec 5) (n : BitVec 6)
  /-- R146. Shifts a scalar register right logically by an immediate. -/
  | sSrli (h : SlotHdr) (d : BitVec 5) (n : BitVec 6)
  /-- R146. Shifts a scalar register right arithmetically by an immediate. -/
  | sSrai (h : SlotHdr) (d : BitVec 5) (n : BitVec 6)
  /-- R147. Copies a loop counter into a scalar register. -/
  | rdlc (h : SlotHdr) (d : BitVec 5) (lvl : BitVec 3)
  /-- R147. Writes a field of the issuing task's work ID into a scalar register. -/
  | wfield (h : SlotHdr) (d : BitVec 5) (k : BitVec 3)
  /-- R153. Copies a vector register with its tag. -/
  | vmov (h : SlotHdr) (d a : BitVec 5)
  /-- R153. Selects each lane from one of two vectors by a lane predicate. -/
  | vsel (h : SlotHdr) (d a b : BitVec 5)
  /-- R153. Bitwise AND of two vectors. -/
  | vand (h : SlotHdr) (d a b : BitVec 5)
  /-- R153. Bitwise OR of two vectors. -/
  | vor (h : SlotHdr) (d a b : BitVec 5)
  /-- R153. Bitwise XOR of two vectors. -/
  | vxor (h : SlotHdr) (d a b : BitVec 5)
  /-- R153. Bitwise complement of a vector. -/
  | vnot (h : SlotHdr) (d a : BitVec 5)
  /-- R155. Funnel shift left of two 32-bit lanes by a per-lane count. -/
  | vfshl (h : SlotHdr) (d a b : BitVec 5)
  /-- R155. Funnel shift right of two 32-bit lanes by a per-lane count. -/
  | vfshr (h : SlotHdr) (d a b : BitVec 5)
  /-- R156. Permutes whole lanes by an index vector. -/
  | vperm (h : SlotHdr) (d a b : BitVec 5)
  /-- R160. Counts 1 bits per lane or nonzero elements. -/
  | vpopc (h : SlotHdr) (nz : Bool) (d a : BitVec 5)
  /-- R163. Selects the k largest elements of a row with their indices. -/
  | vtopk (h : SlotHdr) (nz : Bool) (d a k : BitVec 5)
  /-- R159. Moves between a lane predicate and a vector. -/
  | vqmov (h : SlotHdr) (dir : Bool) (v : BitVec 5) (q : BitVec 4)
  /-- R149. Adds two vectors elementwise, anchored for ANC. -/
  | vadd (h : SlotHdr) (f : BitVec 4) (d a b : BitVec 5)
  /-- R149. Subtracts two vectors elementwise. -/
  | vsub (h : SlotHdr) (f : BitVec 4) (d a b : BitVec 5)
  /-- R149. Multiplies two vectors elementwise. -/
  | vmul (h : SlotHdr) (f : BitVec 4) (d a b : BitVec 5)
  /-- R149. Fused multiply-add into the destination with one rounding. -/
  | vfma (h : SlotHdr) (f : BitVec 4) (d a b : BitVec 5)
  /-- R149. Divides two vectors elementwise. -/
  | vdiv (h : SlotHdr) (f : BitVec 4) (d a b : BitVec 5)
  /-- R149. Elementwise minimum of two vectors. -/
  | vmin (h : SlotHdr) (f : BitVec 4) (d a b : BitVec 5)
  /-- R149. Elementwise maximum of two vectors. -/
  | vmax (h : SlotHdr) (f : BitVec 4) (d a b : BitVec 5)
  /-- R149, R151. Elementwise absolute value. -/
  | vabs (h : SlotHdr) (f : BitVec 4) (d a : BitVec 5)
  /-- R149, R151. Elementwise negation. -/
  | vneg (h : SlotHdr) (f : BitVec 4) (d a : BitVec 5)
  /-- R149. Elementwise square root. -/
  | vsqrt (h : SlotHdr) (f : BitVec 4) (d a : BitVec 5)
  /-- R152. Compares two vectors and writes a lane predicate pair. -/
  | vcmp (h : SlotHdr) (f : BitVec 4) (cond k : BitVec 3) (a b : BitVec 5)
  /-- R158. Converts a vector into another format. -/
  | vcvt (h : SlotHdr) (f : BitVec 4) (d a b : BitVec 5)
  /-- R157. Copies scalar bits into every element of a vector. -/
  | vbcast (h : SlotHdr) (f : BitVec 4) (d a : BitVec 5)
  /-- R154. Shifts each element left by a per-element count. -/
  | vshl (h : SlotHdr) (f : BitVec 4) (d a b : BitVec 5)
  /-- R154. Shifts each element right by a per-element count. -/
  | vshr (h : SlotHdr) (f : BitVec 4) (d a b : BitVec 5)
  /-- R161. Reduces within lane groups and broadcasts the result. -/
  | vred (h : SlotHdr) (f : BitVec 4) (d a : BitVec 5) (op grp : BitVec 3)
  /-- R162. Writes prefix results within lane groups. -/
  | vscan (h : SlotHdr) (f : BitVec 4) (d a : BitVec 5) (op : BitVec 2) (excl : Bool) (grp : BitVec 3)
  /-- R178. Writes one shadow B column and exchanges the tiles at column 63. -/
  | mloadb (h : SlotHdr) (f : BitVec 4) (r : BitVec 6) (src : MatSrc)
  /-- R179. Pushes one A row against the resident B toward an accumulator row. -/
  | mpush (h : SlotHdr) (f : BitVec 4) (r : BitVec 6) (src : MatSrc)
  /-- R180. Scout push of integer B4 codes into an accumulator row. -/
  | mpushSc (h : SlotHdr) (r : BitVec 6) (src : MatSrc)
  /-- R439. MLOADB of an absent narrow format widened exactly, setting SUBST. -/
  | mloadbWide (h : SlotHdr) (f : BitVec 2) (r : BitVec 6) (src : MatSrc)
  /-- R439. MPUSH of an absent narrow format widened exactly, setting SUBST. -/
  | mpushWide (h : SlotHdr) (f : BitVec 2) (r : BitVec 6) (src : MatSrc)
  /-- R181. Sets the accumulate or overwrite policy of one or all rows. -/
  | macc (h : SlotHdr) (r : BitVec 6) (x pol allRows clr : Bool)
  /-- R183. Converts an accumulator row into a vector or tile destination. -/
  | mdrain (h : SlotHdr) (f : BitVec 4) (dest : BitVec 5) (r : BitVec 6) (x : Bool) (p : BitVec 2) (toTile : Bool)
  /-- R184. Writes one transposer row and advances the write pointer. -/
  | trin (h : SlotHdr) (f : BitVec 4) (v : BitVec 5) (p : BitVec 2)
  /-- R185. Emits one transposer column and advances the read pointer. -/
  | trout (h : SlotHdr) (dest : BitVec 5) (p : BitVec 2) (toTile : Bool)
  /-- R186. Clears the transposer and its pointers. -/
  | trclr (h : SlotHdr)
  /-- R188. Writes one scale table entry from an immediate. -/
  | stld (h : SlotHdr) (i : BitVec 4) (e : BitVec 8)
  /-- R188. Writes eight scale table entries from a register. -/
  | stlda (h : SlotHdr) (a : BitVec 5) (half : Bool)
  /-- R189. Sets the marked cfg bits. -/
  | cfgset (h : SlotHdr) (flags : BitVec 5) (low : BitVec 4)
  /-- R189. Clears the marked cfg bits. -/
  | cfgclr (h : SlotHdr) (flags : BitVec 5) (low : BitVec 4)
  /-- R189. Reads cfg into a scalar register. -/
  | cfgrd (h : SlotHdr) (d : BitVec 5)
  /-- R190. Writes the scout margin field of cfg. -/
  | margin (h : SlotHdr) (a : BitVec 5)
  /-- R182. Sets the anchor of one or all accumulator rows. -/
  | manchor (h : SlotHdr) (r : BitVec 6) (allRows x : Bool) (a : BitVec 5)
  /-- R193. Sets the threshold bound for one key block. -/
  | hbound (h : SlotHdr) (a : BitVec 5)
  /-- R194. Updates a row maximum and marks live key blocks in a tile mask. -/
  | tmark (h : SlotHdr) (r : BitVec 6) (x : Bool) (mode : BitVec 2) (mk : BitVec 3)
  /-- R195. Resets every threshold-unit row maximum to −∞. -/
  | tclr (h : SlotHdr)
  /-- R191. Writes a tile mask from a scalar register. -/
  | mset (h : SlotHdr) (mk : BitVec 3) (a : BitVec 5)
  /-- R191. Writes the AND of two tile masks. -/
  | mand (h : SlotHdr) (md ma mb : BitVec 3)
  /-- R191. Writes the OR of two tile masks. -/
  | mor (h : SlotHdr) (md ma mb : BitVec 3)
  /-- R191. Writes the complement of a tile mask. -/
  | mnot (h : SlotHdr) (md ma : BitVec 3)
  /-- R191. Copies a tile mask into a scalar register. -/
  | mmova (h : SlotHdr) (d : BitVec 5) (mk : BitVec 3)
  /-- R192. Changes a register's tag within an allowed group without changing bits. -/
  | retag (h : SlotHdr) (tile : Bool) (reg : BitVec 5) (tag : Tag)
  /-- R166. Loads one home-view vector row into a vector register. -/
  | cld (h : SlotHdr) (f : BitVec 4) (v : BitVec 5) (hnd : BitVec 6) (row : BitVec 5)
  /-- R166. Stores a vector register into one home-view row. -/
  | cst (h : SlotHdr) (v : BitVec 5) (hnd : BitVec 6) (row : BitVec 5)
  /-- R166. Loads a vector row from an unaligned home-view byte offset. -/
  | cldU (h : SlotHdr) (f : BitVec 4) (v : BitVec 5) (hnd : BitVec 6) (x : Ext)
  /-- R166. Stores a vector at an unaligned home-view byte offset. -/
  | cstU (h : SlotHdr) (v : BitVec 5) (hnd : BitVec 6) (x : Ext)
  /-- R166. Stores the bytes of a vector whose mask bits are set. -/
  | cstM (h : SlotHdr) (v : BitVec 5) (hnd : BitVec 6) (x : Ext)
  /-- R167. Requests one far-view row to land after k kc. -/
  | cldFar (h : SlotHdr) (f : BitVec 4) (v : BitVec 5) (hnd : BitVec 6) (x : Ext)
  /-- R263, R264. Atomically combines a vector with one home-view row. -/
  | catom (h : SlotHdr) (k : BitVec 4) (v : BitVec 5) (hnd : BitVec 6) (x : Ext)
  /-- R263, R265. Atomically combines a vector with one far-view row, locally or on a remote core. -/
  | catomFar (h : SlotHdr) (k : BitVec 4) (v : BitVec 5) (hnd : BitVec 6) (x : Ext)
  /-- R201. Pushes one vector quarter to a partner cluster over the switch. -/
  | swsend (h : SlotHdr) (d v : BitVec 5) (q : BitVec 2) (a : BitVec 4)
  /-- R201. Pulls one vector quarter from a partner cluster. -/
  | swrecv (h : SlotHdr) (d v : BitVec 5) (q : BitVec 2) (a : BitVec 4)
  /-- R201. Pulls one vector quarter from one source into every cluster. -/
  | swbcast (h : SlotHdr) (d v : BitVec 5) (q : BitVec 2) (cl : ClusterId)
  -- events of the device
  /-- R208. The kernel engine issues the primary's next bundle and merges the secondary's when their masks do not collide. -/
  | kernelBundleIssue (c : CoreId)
  /-- R209. After 255 blocked cc the primary freezes and the secondary issues alone. -/
  | secondaryFairnessIssue (c : CoreId)
  /-- R259. A bank serves one waiting request in service order. -/
  | bankRequestService (x : BankCheck)
  /-- R142. Far data or an atomic reply arrives into the landing buffer. -/
  | landingArrival (c : CoreId) (cl : ClusterId)
  /-- R44. A kernel ends once its halting bundle's writes have performed. -/
  | kernelEnd (c : CoreId) (pos : KPos)
  /-- R265. A remote atomic is served at the target core and its reply is sent. -/
  | remoteAtomicMessage (c : CoreId)
  /-- R308. The dependency table issues a ready command to its engine. -/
  | commandIssue (c : CoreId) (entry : BitVec 6)
  /-- R311. An engine reads or writes one element of a command's stream. -/
  | engineElementAccess (c : CoreId) (entry : BitVec 6)
  /-- R324. A Wellhead adds a combined scatter-add element into memory. -/
  | wellheadScatterAdd (c : CoreId) (entry : BitVec 6)
  /-- R312. A command completes with its counter-add, signal and notify. -/
  | commandCompletion (c : CoreId) (entry : BitVec 6)
  /-- R309. An .acq command not issued within 64 cc suspends its task. -/
  | acqCommandTimeout (c : CoreId)
  /-- R37. An idle control core picks up the first eligible ready record. -/
  | taskPickup (c : CoreId)
  /-- R243. A write to a monitored block makes the core re-read the waited word. -/
  | monitorReread (c : CoreId) (n : BitVec 6)
  /-- R243. Every 4,096 cc the core re-reads the words on its sweep list. -/
  | sweepReread (c : CoreId)
  /-- R336. The oldest queued notification enters the user handler. -/
  | userInterruptDelivery (c : CoreId)
  /-- R359. A pending asynchronous trap is taken at an instruction boundary or on an idle core. -/
  | asyncTrapTake (c : CoreId)
  /-- R220. A parked child's views are merged into its parent in spawn order. -/
  | childMerge (p : PartId) (child : Addr)
  /-- R225. A poisoned child's turn poisons the parent's working tiles. -/
  | poisonedMerge (p : PartId) (child : Addr)
  /-- R250. The team placer admits or refuses the head launch of a queue. -/
  | launchAdmission (p : PartId) (prefer : List CoreId)
  /-- R251. A team's quantum ends by time or by idleness. -/
  | quantumEnd (p : PartId) (rec : Addr) (team : BitVec 32) (prefer : List CoreId)
  /-- R373. A saved context is restored onto newly bound cores. -/
  | swapIn (p : PartId) (rec : Addr) (team : BitVec 32) (prefer : List CoreId)
  /-- R85. The control core meets a word that is no instruction or command (reserved or unassigned major, unlisted func or opcode, non-zero zero field) and takes a precise ILLEGAL trap. -/
  | illegalInstruction (c : CoreId) (word : Word)
  /-- R105. An instruction fetch from an address with no instruction, or one that fails translation, X permission or poison, traps at that address before any word is decoded. -/
  | fetchFault (c : CoreId)
  /-- R414. A target stages an incoming transactional write. -/
  | xstoreStage (p : PartId)
  /-- R413. The coordinator decides commit or abort once. -/
  | transactionDecision (p : PartId) (id : BitVec 32)
  /-- R414. A target applies a committed transaction's staging in order. -/
  | transactionApply (p : PartId) (id : BitVec 32)
  /-- R417. The host answers a device access to host memory over the Host Link, with data or with a failure report that delivers the bytes poisoned. -/
  | hostMemoryReply (r : HostReader) (bytes : List Byte) (failed : Bool)
  /-- R370. The placer halts a team and saves its core contexts. -/
  | swapOut (p : PartId) (rec : Addr) (team : BitVec 32)
  /-- R432. The loader chooses an image, relocates, places and stores a code object: where it lies, where its common block and its
  frame areas go, and the block offsets of its meeting records, which the code object does not list (R26; log 26). -/
  | codeObjectLoad (p : PartId) (obj base frames : Addr) (meetings : List Word)
  /-- R48. A result from the writeback buffer is written at kc n + L. -/
  | resultWriteback (c : CoreId) (pos : KPos)
  /-- R179. A push's products are added into its accumulator row at n + 68. -/
  | mpushContribution (c : CoreId) (pos : KPos)
  /-- R51. A variable-latency request delivers at kc n + k. -/
  | landingDelivery (c : CoreId) (pos : KPos)
  /-- R262. A bank lock ends after n bundles or 64 cc. -/
  | lockHoldEnd (c : CoreId) (pos : KPos)
  /-- R279. A pseudo-channel calendar slot serves one block request. -/
  | wellheadSlotService (d : DieId) (x : SlotCheck)
  /-- R284. A stack's activation-count alert triggers refreshes and slot skips. -/
  | activationAlert (d : DieId) (wellhead : BitVec 7) (bank : BitVec 8)
  /-- R388. The patrol scrubber reads one block and corrects or poisons it. -/
  | scrubRead (d : DieId) (block : Nat) (found : ScrubFinding)
  /-- R388. A scrub period ends and its progress is reported. -/
  | scrubPeriodEnd (d : DieId)
  /-- R389. Aging monitors move a die's voltage guardband by 5 mV. -/
  | guardbandStep (d : DieId) (up : Bool) (pathMargin : DWord)
  /-- R390. Every 2^24 cc a core with freezes writes a kind 1 record. -/
  | freezeTelemetryReport (c : CoreId)
  /-- R390. Every 2^24 cc with replays a link writes a kind 6 record. -/
  | linkReplayReport (l : Link)
  /-- R424. A die over csr.pcap freezes its cores in whole cc. -/
  | powerLimitFreeze (d : DieId)
  /-- R424. At 105 °C junction the die freezes its cores. -/
  | thermalFreeze (d : DieId)
  /-- R424. At 115 °C junction the die stops its cores. -/
  | thermalStop (d : DieId)
  /-- R386. An uncorrectable register or CSR error poisons the task or ends the kernel. -/
  | registerEccError (c : CoreId) (x : EccError)
  /-- R396. A die-link read request arrives. -/
  | readRequestFlit (f : Flit)
  /-- R396. A die-link read data flit arrives. -/
  | readDataFlit (f : Flit)
  /-- R396. A die-link write arrives for its home. -/
  | writeFlit (f : Flit)
  /-- R396. A die-link atomic or message flit arrives. -/
  | atomicMessageFlit (f : Flit)
  /-- R402. A flush marker arrives trailing its path. -/
  | flushMarkerFlit (f : Flit)
  /-- R396. A die-link acknowledge by sequence arrives. -/
  | acknowledgeFlit (f : Flit)
  /-- R385. A replay request makes the sender replay a failed flit. -/
  | replayRequestFlit (f : Flit)
  /-- R403. A destination gathers a marker once all earlier flits are applied. -/
  | flushMarkerGather (d : DieId)
  /-- R399. A UET packet arrives on a fabric port. -/
  | fabricPacketReceive (k : Packet)
  /-- R401. An unacknowledged packet is retransmitted, retiring its path after 8. -/
  | packetRetransmit (peer : BitVec 16) (path : BitVec 4) (seq : BitVec 32)
  /-- R413. Missing votes after csr.xtimeout abort the transaction. -/
  | transactionTimeout (p : PartId) (id : BitVec 32)
  /-- R413. A target without a decision asks the coordinator every 1 ms. -/
  | decisionQuery (p : PartId) (id : BitVec 32)
  /-- R416. A host read through a window reads device memory. -/
  | hostMemoryRead (off : DWord) (len : Nat)
  /-- R416. A host write through a window writes device memory. -/
  | hostMemoryWrite (off : DWord) (bytes : List Byte)
  /-- R419. A write to hl.door_p queues a launch for partition p. -/
  | hostDoorbell (p : PartId) (va : DWord)
  /-- R418. A host write clears hl.istat bits. -/
  | hostIstatClear (v : DWord)
  /-- R422. Writing hl.reset bit 0 resets the device. -/
  | hostReset
  /-- R422. Power-on resets the device and runs the boot. -/
  | powerOn
  /-- R421. hl.rctl bit 0 verifies a recovery image and writes flash. -/
  | recoveryImageCommit
  /-- R421. hl.attest bit 0 makes the device write a signed report. -/
  | attestationRequest
  /-- R248. A host write to hl.pmap changes partition maps or is refused. -/
  | hostPmapWrite (n : BitVec 5) (v : DWord)
  /-- R126. A write to csr.kstat clears W1C flags. -/
  | kstatFlagClear (c : CoreId) (v : DWord)
  /-- R332. A write to csr.cerr clears its bits. -/
  | cerrClear (c : CoreId) (v : DWord)
  /-- R335. A write to csr.uctl sets UIE and clears OVF. -/
  | uctlWrite (c : CoreId) (v : DWord)
  /-- R236. A write to csr.kbN configures a kernel barrier and clears its counts. -/
  | kbWrite (c : CoreId) (n : BitVec 2) (v : DWord)
  /-- R248. A write to csr.pmap changes partition membership or is refused. -/
  | pmapWrite (c : CoreId) (n : BitVec 5) (v : DWord)
  /-- R273. A write to csr.tlbinv drops TLB entries across the partition. -/
  | tlbInvalidate (c : CoreId) (v : DWord)
  /-- R274. A write to csr.snap marks ranges and pages snapped. -/
  | snapStart (c : CoreId) (v : DWord)
  /-- R276. A write to csr.pool sets the frame pool and retries held copies. -/
  | poolWrite (c : CoreId) (v : DWord)
  /-- R400. A write to csr.cgroup sets the group table and resets sequences. -/
  | cgroupWrite (c : CoreId) (v : DWord)
  /-- R283. A write to csr.refctl sets k and seeds test mode. -/
  | refctlWrite (c : CoreId) (v : DWord)
  /-- R363. csr.resume kind 1 resumes a stopped engine command. -/
  | resumeEngineCommand (c : CoreId) (v : DWord)
  /-- R363. csr.resume kind 2 resumes a merge-faulted merge. -/
  | resumeMerge (c : CoreId) (v : DWord)
  /-- R363. csr.resume kind 3 resumes a stopped kernel engine. -/
  | resumeKernelEngine (c : CoreId) (v : DWord)
  /-- R374. csr.resume kind 4 retries a failed team save. -/
  | retryTeamSave (c : CoreId) (v : DWord)
  /-- R374. csr.resume kind 5 lets a halted team run on. -/
  | releaseHaltedTeam (c : CoreId) (v : DWord)
  /-- R125. A write to a register that has no behaviour of its own. -/
  | registerWrite (c : CoreId) (n : BitVec 12) (v : DWord)
  /-- R385. A flit that fails its CRC, or carries an unassigned type or a non-zero reserved field, arrives on a die link or the Host Link and is answered with a replay request. -/
  | flitCrcFailure (l : Link) (seq : BitVec 24)
  deriving DecidableEq, Repr

end Sys2Proof
end

