-- ==== Sys2Proof/WellFormed.lean ====
section
/-! DEFINITION. Which instructions have an encoding: the field values that chapters 04 to 07 and 21 list as assigned. -/

namespace Sys2Proof

/-- The formats held in an even and odd pair of vector registers: I64, FP64, ANC (R54). -/
def pairFormat (f : BitVec 4) : Bool := f == 5 || f == 9 || f == 13

/-- I8, U8, I16, I32, I64. -/
def intFormat (f : BitVec 4) : Bool := 1 ≤ f.toNat && f.toNat ≤ 5
/-- FP16, BF16, FP32, FP64. -/
def ieeeFormat (f : BitVec 4) : Bool := 6 ≤ f.toNat && f.toNat ≤ 9
/-- The formats of a matrix operand (R102). -/
def matrixFormat (f : BitVec 4) : Bool := f == 1 || f == 2 || f == 6 || f == 7 || f == 10 || f == 11 || f == 12
/-- Elements of one byte. -/
def byteFormat (f : BitVec 4) : Bool := f == 1 || f == 2 || f == 10 || f == 11
/-- Elements of two bytes. -/
def halfFormat (f : BitVec 4) : Bool := f == 3 || f == 6 || f == 7

/-- A register number that a pair format may name (R132). -/
def even {w : Nat} (r : BitVec w) : Bool := !r.getLsbD 0

/-- Every register of the list is even when the format is a pair format (R132). -/
def pairOk (f : BitVec 4) (rs : List (BitVec 5)) : Bool := !pairFormat f || rs.all even

/-- The operand of MLOADB and the pushes (R175): MLOADB alone takes kind 11, and B4 has two quarters. -/
def MatSrc.ok (s : MatSrc) (b4 zeroKind : Bool) : Bool :=
  match s.kind with
  | 0#2 => s.low.extractLsb' 0 4 == 0
  | 1#2 => !b4 || !s.low.getLsbD 1
  | 2#2 => even (s.low.extractLsb' 2 5) && s.low.extractLsb' 0 2 == 0
  | _ => zeroKind && s.low == 0

/-- The row field of the extension word: mode 1 names a register and leaves bits 26:21 zero (R98). -/
def Ext.rowOk (x : Ext) : Bool := !x.mode || x.row.extractLsb' 5 6 == 0

/-- Which part `p` of a destination 64 elements of a width may fill (R183, R184). -/
def partOk (f : BitVec 4) (p : BitVec 2) : Bool :=
  byteFormat f || (halfFormat f && !p.getLsbD 1) || p == 0

/-- The fields that R87, R89 and R93 ask of every command: no wait or signal value under semaphore 0. -/
def CmdHdr.ok (h : CmdHdr) : Bool :=
  (h.waitSm != 0 || h.threshold == 0) && (h.signalSm != 0 || h.increment == 0)

/-- A counter field: zero without CNT, and in register mode bits 13:5 are zero (R89). -/
def CmdHdr.ctrOk (h : CmdHdr) (ctr : BitVec 15) : Bool :=
  (h.cnt || ctr == 0) && (!ctr.getLsbD 14 || ctr.extractLsb' 5 9 == 0)

/-- KERNEL's handles (R91, R93): each declared one is an input or an output, an unused field is zero, one is declared. -/
def kernelOk (hs : List (BitVec 6)) (ins outs : BitVec 4) : Bool :=
  ins ||| outs != 0 &&
    (List.range 4).all fun n => (ins.getLsbD n || outs.getLsbD n) || hs[n]? == some 0

/-- The combine of a collective (R91). -/
def combineOk (comb : BitVec 4) : Bool := comb.toNat ≤ 5

def SlotHdr.at (h : SlotHdr) (ss : List Slot) : Bool := ss.contains h.slot

/-- Everything about an instruction's fields but the landing minimum, which R99 checks later (cause 7). -/
def Instr.fieldsOk : Instr → Bool
  | .add _ _ _ | .sub _ _ _ | .and _ _ _ | .or _ _ _ | .xor _ _ _ | .sll _ _ _ | .srl _ _ _ | .sra _ _ _
  | .slt _ _ _ | .sltu _ _ _ | .min _ _ _ | .max _ _ _ | .minu _ _ _ | .maxu _ _ _
  | .sextB _ _ | .sextH _ _ | .sextW _ _ | .mul _ _ _ | .mulh _ _ _ | .mulhu _ _ _
  | .div _ _ _ | .divu _ _ _ | .rem _ _ _ | .remu _ _ _
  | .addi _ _ _ | .andi _ _ _ | .ori _ _ _ | .xori _ _ _ | .slti _ _ _ | .sltiu _ _ _
  | .slli _ _ _ | .srli _ _ _ | .srai _ _ _ | .lui _ _ | .shori _ _ _
  | .ldB _ _ _ _ | .ldH _ _ _ _ | .ldW _ _ _ _ | .ldD _ _ _ _
  | .stB _ _ _ _ | .stH _ _ _ _ | .stW _ _ _ _ | .stD _ _ _ _
  | .beq _ _ _ | .bne _ _ _ | .blt _ _ _ | .bge _ _ _ | .bltu _ _ _ | .bgeu _ _ _
  | .jal _ | .jalr _ _ _ | .exit | .yield | .spawn _ _ _ | .sync _ | .view _ _ _ _ | .viewDrop _ _ _
  | .meet _ _ _ _ | .minit _ _ _ | .mread _ _ | .mfree _ _ | .wake _ | .qpop _ _ | .qpopNb _ _ | .qpush _ _ _
  | .qclose _ _ | .launch _ _ | .xbegin _ _ | .xstore _ _ _ _ | .xcommit _ | .xabort _
  | .amoW _ _ _ _ _ | .amoD _ _ _ _ _ | .ldAcq _ _ _ _ _ | .stRel _ _ _ _ _
  | .csrr _ _ | .csrw _ _ _ | .csrs _ _ _ | .csrc _ _ _ | .trap _ | .sysret | .uiret
  | .snapsave _ _ _ | .snapload _ _ _ | .brk | .dbrd _ _ | .dbwr _ _ | .untag _ => true
  | .waitge sfx _ _ | .waitaddr _ sfx _ _ _ => !sfx.order.getLsbD 1
  | .fence _ mask => mask != 0
  | .shape h _ _ ctr | .smark h ctr | .kswap h _ _ ctr => h.ok && h.ctrOk ctr
  | .sload h tmode _ _ _ _ _ ctr => h.ok && h.ctrOk ctr && tmode != 3
  | .sstore h _ _ _ _ _ ctr | .sgather h _ _ _ _ _ ctr | .sscatter h _ _ _ _ _ ctr
  | .scan h _ _ _ _ _ _ _ ctr => h.ok && h.ctrOk ctr
  | .sscadd h _ form _ _ _ _ ctr => h.ok && h.ctrOk ctr && form != 3
  | .salloc h _ _ nb _ nr => h.ok && !h.cnt && nb != 0 && nr != 0
  | .sfree h _ | .scopy h _ _ _ => h.ok && !h.cnt
  | .kernel h _ _ hA hB hC hD ins outs ctr => h.ok && h.ctrOk ctr && kernelOk [hA, hB, hC, hD] ins outs
  | .collAllred h _ comb _ _ ctr | .collRedsc h _ comb _ _ ctr | .collAllgat h _ comb _ _ ctr
  | .collBcast h _ comb _ _ ctr => h.ok && h.ctrOk ctr && combineOk comb
  | .slotNop h => h.guard == 0
  | .br h _ | .lwait h _ | .ktrap h _ | .halt h | .pand h _ _ _ | .por h _ _ _ | .pxor h _ _ _ | .pandn h _ _ _ =>
    h.at [.A]
  | .loop h lvl _ _ _ | .loopi h lvl _ _ | .loopSw h lvl _ _ _ _ | .loopiSw h lvl _ _ _ => h.at [.A] && lvl.toNat ≤ 5
  | .lock h n _ => h.at [.A] && n != 0
  | .cmp h _ _ _ _ | .cmpi h _ _ _ _ | .movi h _ _ => h.at [.A, .B]
  | .sMov h _ _ | .sAdd h _ _ _ | .sSub h _ _ _ | .sAnd h _ _ _ | .sOr h _ _ _ | .sXor h _ _ _ | .sSll h _ _ _
  | .sSrl h _ _ _ | .sSra h _ _ _ | .sMul h _ _ _ | .sMulh h _ _ _ | .sMin h _ _ _ | .sMax h _ _ _ | .sMinu h _ _ _
  | .sMaxu h _ _ _ | .sAddi h _ _ | .sAndi h _ _ | .sOri h _ _ | .sXori h _ _ | .sSlli h _ _ | .sSrli h _ _
  | .sSrai h _ _ => h.at [.B]
  | .rdlc h _ k | .wfield h _ k => h.at [.B] && k.toNat ≤ 5
  | .vmov h _ _ | .vsel h _ _ _ | .vand h _ _ _ | .vor h _ _ _ | .vxor h _ _ _ | .vnot h _ _ | .vfshl h _ _ _
  | .vfshr h _ _ _ | .vperm h _ _ _ => h.at [.C, .D]
  | .vpopc h _ _ _ => h.at [.D]
  | .vtopk h _ d _ _ => h.at [.D] && even d
  | .vqmov h dir _ q => h.at [.C, .D] && (!dir || even q)
  | .vadd h f d a b => h.at [.C, .D] && (intFormat f || ieeeFormat f || f == 13) && pairOk f [d, a, b]
  | .vsub h f d a b | .vmul h f d a b => h.at [.C, .D] && (intFormat f || ieeeFormat f) && pairOk f [d, a, b]
  | .vfma h f d a b | .vdiv h f d a b => h.at [.C, .D] && ieeeFormat f && pairOk f [d, a, b]
  | .vmin h f d a b | .vmax h f d a b =>
    h.at [.C, .D] && (intFormat f || ieeeFormat f || f == 14) && pairOk f [d, a, b]
  | .vabs h f d a | .vneg h f d a =>
    h.at [.C, .D] && ((intFormat f && f != 2) || ieeeFormat f) && pairOk f [d, a]
  | .vsqrt h f d a => h.at [.C, .D] && ieeeFormat f && pairOk f [d, a]
  | .vcmp h f _ _ a b => h.at [.C, .D] && (intFormat f || ieeeFormat f || f == 14) && pairOk f [a, b]
  | .vcvt h f d a b =>
    h.at [.C, .D] && f != 0 && pairOk f [d, a] &&
      (f == 5 || f == 8 || f == 9 || f == 12 || f == 13 || b.extractLsb' 2 3 == 0)
  | .vbcast h f d _ => h.at [.C, .D] && f != 0 && f != 12 && pairOk f [d]
  | .vshl h f d a b | .vshr h f d a b => h.at [.C, .D] && (intFormat f || f == 15) && pairOk f [d, a, b]
  | .vred h f d a op grp =>
    h.at [.C, .D] && (intFormat f || ieeeFormat f || f == 14 || f == 13) && pairOk f [d, a] && op.toNat ≤ 4 &&
      grp != 0 && grp != 7 && (op.toNat ≤ 2 || intFormat f || f == 14) && (f != 13 || op == 0)
  | .vscan h f d a op _ grp =>
    h.at [.D] && (f == 4 || f == 5 || f == 8 || f == 9 || f == 14 || f == 13) && pairOk f [d, a] && op != 3 &&
      grp != 0 && grp != 7 && (f != 13 || op == 0)
  | .mloadb h f _ src => h.at [.E] && matrixFormat f && src.ok (f == 12) true
  | .mpush h f _ src => h.at [.E] && matrixFormat f && src.ok (f == 12) false
  | .mpushSc h _ src => h.at [.E] && src.ok true false
  | .mloadbWide h _ _ src => h.at [.E] && src.ok false true
  | .mpushWide h _ _ src => h.at [.E] && src.ok false false
  | .macc h _ _ _ _ _ => h.at [.E]
  | .mdrain h f dest _ _ p toTile =>
    h.at [.E] && (byteFormat f || halfFormat f || f == 4 || f == 8 || f == 13) && partOk f p &&
      (if toTile then (byteFormat f && p == 0 || halfFormat f) && dest.extractLsb' 3 2 == 0 else pairOk f [dest])
  | .trin h f _ p => h.at [.F] && (byteFormat f || halfFormat f || f == 4 || f == 8 || f == 15) && partOk f p
  | .trout h dest _ toTile => h.at [.F] && (!toTile || dest.extractLsb' 3 2 == 0)
  | .trclr h => h.at [.F]
  | .stld h _ _ | .stlda h _ _ | .cfgset h _ _ | .cfgclr h _ _ | .cfgrd h _ | .margin h _ | .manchor h _ _ _ _
  | .hbound h _ | .tclr h | .mset h _ _ | .mand h _ _ _ | .mor h _ _ _ | .mnot h _ _ | .mmova h _ _ => h.at [.H]
  | .tmark h _ _ mode _ => h.at [.H] && mode != 0
  | .retag h tile reg tag =>
    h.at [.H] && tag != 0 && !tag.getLsbD 4 &&
      (if tile then reg.extractLsb' 3 2 == 0 else pairOk (tag.extractLsb' 0 4) [reg])
  | .cld h f v _ _ => h.at [.G] && f != 0 && pairOk f [v]
  | .cst h _ _ _ => h.at [.G]
  | .cldU h f v _ x =>
    h.at [.G] && f != 0 && pairOk f [v] && x.rowOk && x.reg2 == 0 && !x.low.getLsbD 6
  | .cstU h _ _ x => h.at [.G] && x.rowOk && x.reg2 == 0 && !x.low.getLsbD 6
  | .cstM h _ _ x => h.at [.G] && x.rowOk && x.low == 0
  | .cldFar h f v _ x => h.at [.G] && f != 0 && pairOk f [v] && x.rowOk && x.reg2 == 0
  | .catom h k v _ x | .catomFar h k v _ x =>
    h.at [.G] && k.toNat ≤ 12 && x.rowOk && (k != 2 || even v && even x.reg2)
  | .swsend h _ _ _ _ | .swrecv h _ _ _ _ | .swbcast h _ _ _ _ => h.at [.G]
  | .kernelBundleIssue _ | .secondaryFairnessIssue _ | .resultWriteback _ _ | .mpushContribution _ _
  | .bankRequestService _ | .landingArrival _ _ | .landingDelivery _ _ | .lockHoldEnd _ _ | .kernelEnd _ _
  | .remoteAtomicMessage _ | .commandIssue _ _ | .engineElementAccess _ _ | .wellheadScatterAdd _ _
  | .commandCompletion _ _ | .acqCommandTimeout _ | .taskPickup _ | .monitorReread _ _ | .sweepReread _
  | .userInterruptDelivery _ | .asyncTrapTake _ | .childMerge _ _ | .poisonedMerge _ _ | .launchAdmission _ _
  | .quantumEnd _ _ _ _ | .swapOut _ _ _ | .swapIn _ _ _ _ | .wellheadSlotService _ _ | .activationAlert _ _ _
  | .scrubRead _ _ _ | .scrubPeriodEnd _ | .guardbandStep _ _ _ | .freezeTelemetryReport _ | .linkReplayReport _
  | .powerLimitFreeze _ | .thermalFreeze _ | .thermalStop _ | .registerEccError _ _ | .readRequestFlit _
  | .readDataFlit _ | .writeFlit _ | .atomicMessageFlit _ | .flushMarkerFlit _ | .acknowledgeFlit _
  | .replayRequestFlit _ | .flushMarkerGather _ | .fabricPacketReceive _ | .packetRetransmit _ _ _ | .xstoreStage _
  | .transactionDecision _ _ | .transactionTimeout _ _ | .transactionApply _ _ | .decisionQuery _ _
  | .hostMemoryRead _ _ | .hostMemoryWrite _ _ | .hostDoorbell _ _ | .hostIstatClear _ | .hostReset | .powerOn
  | .recoveryImageCommit | .attestationRequest | .hostPmapWrite _ _ | .kstatFlagClear _ _ | .cerrClear _ _
  | .uctlWrite _ _ | .kbWrite _ _ _ | .pmapWrite _ _ _ | .tlbInvalidate _ _ | .snapStart _ _ | .poolWrite _ _
  | .cgroupWrite _ _ | .refctlWrite _ _ | .resumeEngineCommand _ _ | .resumeMerge _ _ | .resumeKernelEngine _ _
  | .retryTeamSave _ _ | .releaseHaltedTeam _ _ | .registerWrite _ _ _ | .codeObjectLoad _ _ _ _ _
  | .illegalInstruction _ _ | .fetchFault _ | .flitCrcFailure _ _ | .hostMemoryReply _ _ _ => true

/-- The landing of a request is at least its minimum: 12 for far reads and far atomics, 8 for CATOM (R167, R263). -/
def Instr.landingOk : Instr → Bool
  | .cldFar _ _ _ _ x | .catomFar _ _ _ _ x => 12 ≤ x.low.toNat
  | .catom _ _ _ _ x => 8 ≤ x.low.toNat
  | _ => true

/-- The instruction has an encoding that the hardware accepts. -/
def Instr.wf (i : Instr) : Bool := i.fieldsOk && i.landingOk

end Sys2Proof
end

