-- ==== Sys2Proof/Decode.lean ====
section
/-! DEFINITION. Decoding of the three instruction words (R80 to R103, R133, R175, R187, R439) and the encoder. -/

namespace Sys2Proof

/-- Why bytes are no instruction: the cases of R85, of R93, and the bundle faults of R99 with their cause and slot. -/
inductive Reject where
  | reservedMajor
  | unassignedMajor
  | unlistedFunc
  | zeroField
  | order
  | fenceMask
  | opcode
  | cflags
  | semaphore
  | counter
  | layout
  | shortInput
  | bundle (cause : Byte) (slot : BitVec 3)
  deriving DecidableEq, Repr

/-- The instruction when the check holds, the reason otherwise. -/
def need (ok : Bool) (r : Reject) (i : Instr) : Except Reject Instr := if ok then .ok i else .error r

/-! ### Control-core words -/

/-- Major 0x00 (R83). -/
def decodeAlu (d a b : BitVec 5) (func : BitVec 11) : Except Reject Instr :=
  match func with
  | 0x000#11 => .ok (.add d a b)
  | 0x001#11 => .ok (.sub d a b)
  | 0x002#11 => .ok (.and d a b)
  | 0x003#11 => .ok (.or d a b)
  | 0x004#11 => .ok (.xor d a b)
  | 0x008#11 => .ok (.sll d a b)
  | 0x009#11 => .ok (.srl d a b)
  | 0x00A#11 => .ok (.sra d a b)
  | 0x010#11 => .ok (.slt d a b)
  | 0x011#11 => .ok (.sltu d a b)
  | 0x012#11 => .ok (.min d a b)
  | 0x013#11 => .ok (.max d a b)
  | 0x014#11 => .ok (.minu d a b)
  | 0x015#11 => .ok (.maxu d a b)
  | 0x018#11 => need (b == 0) .zeroField (.sextB d a)
  | 0x019#11 => need (b == 0) .zeroField (.sextH d a)
  | 0x01A#11 => need (b == 0) .zeroField (.sextW d a)
  | 0x020#11 => .ok (.mul d a b)
  | 0x021#11 => .ok (.mulh d a b)
  | 0x022#11 => .ok (.mulhu d a b)
  | 0x024#11 => .ok (.div d a b)
  | 0x025#11 => .ok (.divu d a b)
  | 0x026#11 => .ok (.rem d a b)
  | 0x027#11 => .ok (.remu d a b)
  | _ => .error .unlistedFunc

/-- The suffix fields of func (R84). -/
def sfxOf (func : BitVec 11) : SyncSfx :=
  ⟨func.extractLsb' 4 4, func.extractLsb' 2 2, func.extractLsb' 0 2⟩

/-- A control-core word whose major is not 0x3E (R80 to R85). A field that the form does not use must be zero, gb of MREAD, MFREE, QPOP,
QPOP.NB and QCLOSE with it: the model's choice (log 69). -/
def decodeWord (w : Word) : Except Reject Instr :=
  let d := w.extractLsb' 21 5
  let a := w.extractLsb' 16 5
  let b := w.extractLsb' 11 5
  let func := w.extractLsb' 0 11
  let imm := w.extractLsb' 0 16
  let cls := w.extractLsb' 12 4
  let off := w.extractLsb' 0 12
  let none (r : BitVec 5) : Bool := r == 0
  match w.extractLsb' 26 6 with
  | 0x00#6 => decodeAlu d a b func
  | 0x01#6 => .ok (.addi d a imm)
  | 0x02#6 => .ok (.andi d a imm)
  | 0x03#6 => .ok (.ori d a imm)
  | 0x04#6 => .ok (.xori d a imm)
  | 0x05#6 => .ok (.slti d a imm)
  | 0x06#6 => .ok (.sltiu d a imm)
  | 0x07#6 => need (w.extractLsb' 6 10 == 0) .zeroField (.slli d a (w.extractLsb' 0 6))
  | 0x08#6 => need (w.extractLsb' 6 10 == 0) .zeroField (.srli d a (w.extractLsb' 0 6))
  | 0x09#6 => need (w.extractLsb' 6 10 == 0) .zeroField (.srai d a (w.extractLsb' 0 6))
  | 0x0A#6 => need (none a) .zeroField (.lui d imm)
  | 0x0B#6 => .ok (.shori d a imm)
  | 0x10#6 => .ok (.ldB d a cls off)
  | 0x11#6 => .ok (.ldH d a cls off)
  | 0x12#6 => .ok (.ldW d a cls off)
  | 0x13#6 => .ok (.ldD d a cls off)
  | 0x14#6 => .ok (.stB d a cls off)
  | 0x15#6 => .ok (.stH d a cls off)
  | 0x16#6 => .ok (.stW d a cls off)
  | 0x17#6 => .ok (.stD d a cls off)
  | 0x18#6 => .ok (.beq d a imm)
  | 0x19#6 => .ok (.bne d a imm)
  | 0x1A#6 => .ok (.blt d a imm)
  | 0x1B#6 => .ok (.bge d a imm)
  | 0x1C#6 => .ok (.bltu d a imm)
  | 0x1D#6 => .ok (.bgeu d a imm)
  | 0x1E#6 => .ok (.jal (w.extractLsb' 0 26))
  | 0x1F#6 => .ok (.jalr d a imm)
  | 0x20#6 =>
    match func with
    | 0x000#11 => need (none d && none a && none b) .zeroField .exit
    | 0x001#11 => need (none d && none a && none b) .zeroField .yield
    | _ => .error .unlistedFunc
  | 0x21#6 => need (func == 0) .zeroField (.spawn d a b)
  | 0x22#6 => need (none a && none b && func == 0) .zeroField (.sync d)
  | 0x23#6 =>
    if func == 15 then .ok (.viewDrop d a b)
    else if func.extractLsb' 4 7 != 0 then .error .zeroField
    else need (!func.getLsbD 3) .unlistedFunc (.view (func.extractLsb' 0 3) d a b)
  | 0x24#6 => need (func.extractLsb' 8 3 == 0) .zeroField (.meet (sfxOf func) d a b)
  | 0x25#6 =>
    if func.extractLsb' 0 9 != 0 then .error .zeroField
    else match func.extractLsb' 9 2 with
      | 0#2 => .ok (.minit d a b)
      | 1#2 => need (none b) .zeroField (.mread d a)
      | 2#2 => need (none b) .zeroField (.mfree d a)
      | _ => .error .unlistedFunc
  | 0x26#6 =>
    if func.extractLsb' 8 3 != 0 || d != 0 then .error .zeroField
    else need (!func.getLsbD 3) .order (.waitge (sfxOf func) a b)
  | 0x27#6 =>
    if func.getLsbD 10 then need (none d && none b && func.extractLsb' 0 10 == 0) .zeroField (.wake a)
    else need (!func.getLsbD 3) .order (.waitaddr (func.extractLsb' 8 2) (sfxOf func) d a b)
  | 0x28#6 =>
    if func.extractLsb' 0 9 != 0 then .error .zeroField
    else match func.extractLsb' 9 2 with
      | 0#2 => need (none b) .zeroField (.qpop d a)
      | 1#2 => need (none b) .zeroField (.qpopNb d a)
      | 2#2 => .ok (.qpush d a b)
      | _ => need (none b) .zeroField (.qclose d a)
  | 0x29#6 => need (none b && func == 0) .zeroField (.launch d a)
  | 0x2A#6 =>
    if d.extractLsb' 2 3 != 0 || a != 0 then .error .zeroField
    else need (imm != 0) .fenceMask (.fence (d.extractLsb' 0 2) imm)
  | 0x2B#6 =>
    if func.extractLsb' 2 7 != 0 then .error .zeroField
    else match func.extractLsb' 9 2 with
      | 0#2 => need (none b && func.extractLsb' 0 2 == 0) .zeroField (.xbegin d a)
      | 1#2 => .ok (.xstore (func.extractLsb' 0 2) d a b)
      | 2#2 => need (none a && none b && func.extractLsb' 0 2 == 0) .zeroField (.xcommit d)
      | _ => need (none a && none b && func.extractLsb' 0 2 == 0) .zeroField (.xabort d)
  | 0x2C#6 => .ok (.amoW (func.extractLsb' 8 3) (sfxOf func) d a b)
  | 0x2D#6 => .ok (.amoD (func.extractLsb' 8 3) (sfxOf func) d a b)
  | 0x2E#6 =>
    if func.extractLsb' 2 2 != 0 then .error .zeroField
    else if func.getLsbD 10 then
      need (none d) .zeroField (.stRel (func.extractLsb' 8 2) (func.extractLsb' 4 4) (func.extractLsb' 0 2) a b)
    else need (none b) .zeroField (.ldAcq (func.extractLsb' 8 2) (func.extractLsb' 4 4) (func.extractLsb' 0 2) d a)
  | 0x30#6 =>
    match cls with
    | 0#4 => need (none a) .zeroField (.csrr d off)
    | 1#4 => .ok (.csrw d a off)
    | 2#4 => .ok (.csrs d a off)
    | 3#4 => .ok (.csrc d a off)
    | _ => .error .unlistedFunc
  | 0x31#6 => need (none d && none a) .zeroField (.trap imm)
  | 0x32#6 => need (w.extractLsb' 0 26 == 0) .zeroField .sysret
  | 0x33#6 => need (w.extractLsb' 0 26 == 0) .zeroField .uiret
  | 0x34#6 =>
    match func with
    | 0#11 => .ok (.snapsave d a b)
    | 1#11 => .ok (.snapload d a b)
    | _ => .error .unlistedFunc
  | 0x35#6 =>
    match func with
    | 0#11 => need (none d && none a && none b) .zeroField .brk
    | 1#11 => need (none b) .zeroField (.dbrd d a)
    | 2#11 => need (none d) .zeroField (.dbwr a b)
    | _ => .error .unlistedFunc
  | 0x36#6 => need (none d && none b && func == 0) .zeroField (.untag a)
  | 0x38#6 | 0x39#6 | 0x3A#6 | 0x3B#6 | 0x3C#6 | 0x3D#6 | 0x3F#6 => .error .reservedMajor
  | _ => .error .unassignedMajor

/-! ### Stream commands -/

/-- Words 0 and 1 of a command (R87). -/
def cmdHdrOf (w0 w1 : Word) : CmdHdr where
  cls := w0.extractLsb' 16 4
  scope := w0.extractLsb' 14 2
  ntf := w0.getLsbD 13
  cnt := w0.getLsbD 12
  order := w0.extractLsb' 10 2
  waitSm := w1.extractLsb' 24 8
  threshold := w1.extractLsb' 16 8
  signalSm := w1.extractLsb' 8 8
  increment := w1.extractLsb' 0 8

/-- The four words of a command, word 0 with major 0x3E (R86 to R93). -/
def decodeCommand (w0 w1 w2 w3 : Word) : Except Reject Instr :=
  let h := cmdHdrOf w0 w1
  let cf := w0.extractLsb' 0 10
  let tag := cf.extractLsb' 3 5
  let ctr2 := w2.extractLsb' 0 15
  let ctr := w3.extractLsb' 0 15
  let hnd := w3.extractLsb' 26 6
  let sh := w3.extractLsb' 21 5
  let idx := w3.extractLsb' 15 6
  let split := cf.getLsbD 2
  let lowZero := cf.extractLsb' 0 2 == 0
  let finish (zeros : Bool) (i : Instr) : Except Reject Instr :=
    if !zeros then .error .cflags
    else if !h.ok then .error .semaphore
    else need i.fieldsOk .layout i
  match w0.extractLsb' 20 6 with
  | 0x01#6 => finish (cf == 0 && w3.extractLsb' 15 12 == 0) (.shape h w2 (w3.extractLsb' 27 5) ctr)
  | 0x02#6 =>
    finish (cf == 0 && w2.extractLsb' 0 12 == 0 && w3.extractLsb' 0 9 == 0)
      (.salloc h (w2.extractLsb' 26 6) (w2.extractLsb' 19 7) (w2.extractLsb' 12 7) (w3.extractLsb' 21 11)
        (w3.extractLsb' 9 12))
  | 0x03#6 => finish (cf == 0 && w2.extractLsb' 0 26 == 0 && w3 == 0) (.sfree h (w2.extractLsb' 26 6))
  | 0x04#6 => finish (lowZero && idx == 0) (.sload h (cf.extractLsb' 8 2) tag split w2 hnd sh ctr)
  | 0x05#6 => finish (lowZero && cf.extractLsb' 8 2 == 0 && idx == 0) (.sstore h tag split w2 hnd sh ctr)
  | 0x06#6 => finish (cf.extractLsb' 8 2 == 0 && cf.extractLsb' 0 3 == 0) (.sgather h tag w2 hnd sh idx ctr)
  | 0x07#6 => finish (cf.extractLsb' 8 2 == 0 && cf.extractLsb' 0 3 == 0) (.sscatter h tag w2 hnd sh idx ctr)
  | 0x08#6 => finish (cf.extractLsb' 8 2 == 0 && !split) (.sscadd h tag (cf.extractLsb' 0 2) w2 hnd sh idx ctr)
  | 0x09#6 => finish (cf.extractLsb' 5 5 == 0) (.scopy h (cf.extractLsb' 0 5) w2 w3)
  | 0x0A#6 =>
    finish (cf.extractLsb' 8 2 == 0 && !split && w3.extractLsb' 0 26 == 0)
      (.scan h tag (cf.getLsbD 1) (cf.getLsbD 0) (w2.extractLsb' 26 6) (w2.extractLsb' 20 6) (w2.extractLsb' 15 5) hnd
        ctr2)
  | 0x0B#6 =>
    finish (cf == 0)
      (.kernel h (w2.extractLsb' 20 12) (w2.extractLsb' 15 5) hnd (w3.extractLsb' 20 6) (w3.extractLsb' 14 6)
        (w3.extractLsb' 8 6) (w3.extractLsb' 4 4) (w3.extractLsb' 0 4) ctr2)
  | 0x0C#6 => finish (cf == 0 && w2.extractLsb' 15 5 == 0) (.kswap h (w2.extractLsb' 20 12) w3 ctr2)
  | 0x0D#6 =>
    let comb := w3.extractLsb' 24 4
    let csh := w3.extractLsb' 19 5
    let grp := w3.extractLsb' 15 4
    match w3.extractLsb' 28 4 with
    | 0#4 => finish (cf == 0) (.collAllred h w2 comb csh grp ctr)
    | 1#4 => finish (cf == 0) (.collRedsc h w2 comb csh grp ctr)
    | 2#4 => finish (cf == 0) (.collAllgat h w2 comb csh grp ctr)
    | 3#4 => finish (cf == 0) (.collBcast h w2 comb csh grp ctr)
    | _ => .error .layout
  | 0x0E#6 => finish (cf == 0 && w2.extractLsb' 15 17 == 0 && w3 == 0) (.smark h ctr2)
  | _ => .error .opcode

/-- The words at the pc: a command when major 0x3E stands in the first (R86), else one control-core word. -/
def decode (w0 w1 w2 w3 : Word) : Except Reject Instr :=
  if w0.extractLsb' 26 6 == 0x3E then decodeCommand w0 w1 w2 w3 else decodeWord w0

/-- The four bytes of a word, byte 0 at the lowest address (R3, R80). -/
def wordOfBytes (b0 b1 b2 b3 : Byte) : Word := b3 ++ b2 ++ b1 ++ b0

/-- The instruction that a list of bytes begins with, and the bytes after it. -/
def decodeBytes : List Byte → Except Reject (Instr × List Byte)
  | b0 :: b1 :: b2 :: b3 :: rest =>
    let w0 := wordOfBytes b0 b1 b2 b3
    if w0.extractLsb' 26 6 == 0x3E then
      match rest with
      | c0 :: c1 :: c2 :: c3 :: d0 :: d1 :: d2 :: d3 :: e0 :: e1 :: e2 :: e3 :: more =>
        (decodeCommand w0 (wordOfBytes c0 c1 c2 c3) (wordOfBytes d0 d1 d2 d3) (wordOfBytes e0 e1 e2 e3)).map (·, more)
      | _ => .error .shortInput
    else (decodeWord w0).map (·, rest)
  | _ => .error .shortInput

/-! ### Kernel bundles -/

/-- A slot's number, A to H (R94). -/
def Slot.num : Slot → BitVec 3
  | .A => 0 | .B => 1 | .C => 2 | .D => 3 | .E => 4 | .F => 5 | .G => 6 | .H => 7

def Slot.all : List Slot := [.A, .B, .C, .D, .E, .F, .G, .H]

/-- The 28 bits of a slot (R94): slot A at bits 223:196, each next slot 28 bits lower. -/
def slotBody (x : BitVec 256) (s : Slot) : BitVec 28 :=
  match s with
  | .A => x.extractLsb' 196 28 | .B => x.extractLsb' 168 28 | .C => x.extractLsb' 140 28 | .D => x.extractLsb' 112 28
  | .E => x.extractLsb' 84 28 | .F => x.extractLsb' 56 28 | .G => x.extractLsb' 28 28 | .H => x.extractLsb' 0 28

/-- The bit of an eight-bit header mask for a slot: bit 7 is slot A (R17). -/
def slotBit (m : Byte) (s : Slot) : Bool := m.getLsbD (7 - s.num.toNat)

/-- The extension word of an X operation (R98); `none` when its reserved bits 10:7 are set. -/
def extOf (x : BitVec 28) : Option Ext :=
  if x.extractLsb' 7 4 == 0 then
    some ⟨x.getLsbD 27, x.extractLsb' 16 11, x.extractLsb' 11 5, x.extractLsb' 0 7⟩
  else none

/-- A short or long immediate (R18): the short field and the bodies of the surrendered slots to the right. -/
def immOf (v : BitVec 8) : List (BitVec 28) → Imm
  | [] => .short v
  | [x] => .long36 (x ++ v)
  | x :: y :: _ => .long64 (y ++ x ++ v)

/-- The operand source of the array operations (R175). -/
def matSrcOf (x : BitVec 16) : MatSrc := ⟨x.extractLsb' 8 2, x.getLsbD 7, x.extractLsb' 0 7⟩

/-- The operation only when the slot's own zero fields are zero. -/
def zeros (ok : Bool) (i : Instr) : Option Instr := if ok then some i else none

/-- Slots A and B (R100, R133, R140, R146, R147). In the shape form of LOOP and LOOP.SW the count-register field, bits 12:8, which that form
does not use, may hold anything: DESIGN CHOICE, log 99. -/
def decodeSlotAB (h : SlotHdr) (op : Byte) (x : BitVec 16) (ext : List (BitVec 28)) : Option Instr :=
  let d := x.extractLsb' 11 5
  let a := x.extractLsb' 6 5
  let b := x.extractLsb' 1 5
  let r := x.extractLsb' 8 5
  let k := x.extractLsb' 13 3
  let imm := immOf (x.extractLsb' 0 8) ext
  let x0 := !x.getLsbD 0
  let mod0 := x.extractLsb' 8 3 == 0
  let cc := op.extractLsb' 0 3
  if op.extractLsb' 3 5 == 2 then zeros (x.extractLsb' 0 3 == 0) (.cmp h cc k r (x.extractLsb' 3 5))
  else if op.extractLsb' 3 5 == 3 then some (.cmpi h cc k r imm)
  else if op == 0x20 then zeros mod0 (.movi h d imm)
  else if h.slot == .A then
    match op with
    | 0x01#8 => zeros (x.extractLsb' 12 4 == 0) (.br h (x.extractLsb' 0 12))
    | 0x02#8 => zeros (!x.getLsbD 6) (.loop h k r (x.getLsbD 7) (x.extractLsb' 0 6))
    | 0x03#8 => some (.loopi h k (x.extractLsb' 6 7) (x.extractLsb' 0 6))
    | 0x04#8 => some (.loopSw h k r (x.getLsbD 7) (x.extractLsb' 4 3) (x.extractLsb' 0 4))
    | 0x05#8 => some (.loopiSw h k (x.extractLsb' 7 6) (x.extractLsb' 4 3) (x.extractLsb' 0 4))
    | 0x08#8 => zeros (x.extractLsb' 0 4 == 0) (.pand h (x.extractLsb' 12 4) (x.extractLsb' 8 4) (x.extractLsb' 4 4))
    | 0x09#8 => zeros (x.extractLsb' 0 4 == 0) (.por h (x.extractLsb' 12 4) (x.extractLsb' 8 4) (x.extractLsb' 4 4))
    | 0x0A#8 => zeros (x.extractLsb' 0 4 == 0) (.pxor h (x.extractLsb' 12 4) (x.extractLsb' 8 4) (x.extractLsb' 4 4))
    | 0x0B#8 => zeros (x.extractLsb' 0 4 == 0) (.pandn h (x.extractLsb' 12 4) (x.extractLsb' 8 4) (x.extractLsb' 4 4))
    | 0x28#8 => zeros (x.extractLsb' 4 12 == 0) (.lwait h (x.extractLsb' 0 4))
    | 0x30#8 => zeros (x.extractLsb' 0 7 == 0) (.lock h (x.extractLsb' 12 4) (x.extractLsb' 7 5))
    | 0x38#8 => some (.ktrap h x)
    | 0x39#8 => zeros (x == 0) (.halt h)
    | _ => none
  else
    match op with
    | 0x21#8 => zeros (x0 && b == 0) (.sMov h d a)
    | 0x22#8 => zeros x0 (.sAdd h d a b)
    | 0x23#8 => zeros x0 (.sSub h d a b)
    | 0x24#8 => zeros x0 (.sAnd h d a b)
    | 0x25#8 => zeros x0 (.sOr h d a b)
    | 0x26#8 => zeros x0 (.sXor h d a b)
    | 0x27#8 => zeros x0 (.sSll h d a b)
    | 0x28#8 => zeros x0 (.sSrl h d a b)
    | 0x29#8 => zeros x0 (.sSra h d a b)
    | 0x2A#8 => zeros x0 (.sMul h d a b)
    | 0x2B#8 => zeros x0 (.sMulh h d a b)
    | 0x2C#8 => zeros x0 (.sMin h d a b)
    | 0x2D#8 => zeros x0 (.sMax h d a b)
    | 0x2E#8 => zeros x0 (.sMinu h d a b)
    | 0x2F#8 => zeros x0 (.sMaxu h d a b)
    | 0x30#8 => zeros mod0 (.sAddi h d imm)
    | 0x31#8 => zeros mod0 (.sAndi h d imm)
    | 0x32#8 => zeros mod0 (.sOri h d imm)
    | 0x33#8 => zeros mod0 (.sXori h d imm)
    | 0x34#8 => zeros (x.extractLsb' 6 5 == 0) (.sSlli h d (x.extractLsb' 0 6))
    | 0x35#8 => zeros (x.extractLsb' 6 5 == 0) (.sSrli h d (x.extractLsb' 0 6))
    | 0x36#8 => zeros (x.extractLsb' 6 5 == 0) (.sSrai h d (x.extractLsb' 0 6))
    | 0x38#8 => zeros (x.extractLsb' 0 8 == 0) (.rdlc h d (x.extractLsb' 8 3))
    | 0x39#8 => zeros (x.extractLsb' 0 8 == 0) (.wfield h d (x.extractLsb' 8 3))
    | _ => none

/-- Slots C and D (R101, R133). -/
def decodeSlotCD (h : SlotHdr) (op : Byte) (x : BitVec 16) : Option Instr :=
  let d := x.extractLsb' 11 5
  let a := x.extractLsb' 6 5
  let b := x.extractLsb' 1 5
  let xf := x.getLsbD 0
  let f := op.extractLsb' 0 4
  let r := x.extractLsb' 8 5
  match op.extractLsb' 4 4 with
  | 0x0#4 =>
    match f with
    | 0x1#4 => zeros (b == 0 && !xf) (.vmov h d a)
    | 0x2#4 => zeros (!xf) (.vsel h d a b)
    | 0x3#4 => zeros (!xf) (.vand h d a b)
    | 0x4#4 => zeros (!xf) (.vor h d a b)
    | 0x5#4 => zeros (!xf) (.vxor h d a b)
    | 0x6#4 => zeros (b == 0 && !xf) (.vnot h d a)
    | 0x7#4 => zeros (!xf) (.vfshl h d a b)
    | 0x8#4 => zeros (!xf) (.vfshr h d a b)
    | 0x9#4 => zeros (!xf) (.vperm h d a b)
    | 0xA#4 => zeros (b == 0) (.vpopc h xf d a)
    | 0xB#4 => some (.vtopk h xf d a b)
    | 0xC#4 => zeros (x.extractLsb' 0 6 == 0) (.vqmov h (x.getLsbD 6) d (x.extractLsb' 7 4))
    | _ => none
  | 0x1#4 => zeros (!xf) (.vadd h f d a b)
  | 0x2#4 => zeros (!xf) (.vsub h f d a b)
  | 0x3#4 => zeros (!xf) (.vmul h f d a b)
  | 0x4#4 => zeros (!xf) (.vfma h f d a b)
  | 0x5#4 => zeros (!xf) (.vmin h f d a b)
  | 0x6#4 => zeros (!xf) (.vmax h f d a b)
  | 0x7#4 => some (.vcmp h f (x.extractLsb' 0 3) (x.extractLsb' 13 3) r (x.extractLsb' 3 5))
  | 0x8#4 => zeros (!xf) (.vcvt h f d a b)
  | 0x9#4 => zeros (b == 0 && !xf) (.vbcast h f d a)
  | 0xA#4 => zeros (!xf) (.vdiv h f d a b)
  | 0xB#4 =>
    match b with
    | 0#5 => zeros (!xf) (.vabs h f d a)
    | 1#5 => zeros (!xf) (.vneg h f d a)
    | 2#5 => zeros (!xf) (.vsqrt h f d a)
    | _ => none
  | 0xC#4 => zeros (!xf) (.vshl h f d a b)
  | 0xD#4 => zeros (!xf) (.vshr h f d a b)
  | 0xE#4 => some (.vred h f d a (x.extractLsb' 3 3) (x.extractLsb' 0 3))
  | _ => some (.vscan h f d a (x.extractLsb' 4 2) (x.getLsbD 3) (x.extractLsb' 0 3))

/-- Slot E (R102, R175, R439). -/
def decodeSlotE (h : SlotHdr) (op : Byte) (x : BitVec 16) : Option Instr :=
  let f := op.extractLsb' 0 4
  let r := x.extractLsb' 10 6
  let src := matSrcOf x
  match op.extractLsb' 4 4 with
  | 0x1#4 => some (.mloadb h f r src)
  | 0x2#4 => some (.mpush h f r src)
  | 0x3#4 => zeros (f == 0) (.mpushSc h r src)
  | 0x4#4 =>
    zeros (f == 0 && x.extractLsb' 0 6 == 0) (.macc h r (x.getLsbD 9) (x.getLsbD 8) (x.getLsbD 7) (x.getLsbD 6))
  | 0x5#4 =>
    zeros (!x.getLsbD 0)
      (.mdrain h f (x.extractLsb' 11 5) (x.extractLsb' 5 6) (x.getLsbD 4) (x.extractLsb' 2 2) (x.getLsbD 1))
  | 0x6#4 => zeros (f.extractLsb' 2 2 == 0) (.mloadbWide h (f.extractLsb' 0 2) r src)
  | 0x7#4 => zeros (f.extractLsb' 2 2 == 0) (.mpushWide h (f.extractLsb' 0 2) r src)
  | _ => none

/-- Slot F (R102, R184 to R186). -/
def decodeSlotF (h : SlotHdr) (op : Byte) (x : BitVec 16) : Option Instr :=
  let v := x.extractLsb' 11 5
  let p := x.extractLsb' 9 2
  if op.extractLsb' 4 4 == 1 then zeros (x.extractLsb' 0 9 == 0) (.trin h (op.extractLsb' 0 4) v p)
  else if op == 0x20 then zeros (x.extractLsb' 0 8 == 0) (.trout h v p (x.getLsbD 8))
  else if op == 0x30 then zeros (x == 0) (.trclr h)
  else none

/-- Slot H (R102, R187). -/
def decodeSlotH (h : SlotHdr) (op : Byte) (x : BitVec 16) : Option Instr :=
  let a := x.extractLsb' 11 5
  let m := x.extractLsb' 13 3
  match op with
  | 0x01#8 => zeros (x.extractLsb' 8 4 == 0) (.stld h (x.extractLsb' 12 4) (x.extractLsb' 0 8))
  | 0x02#8 => zeros (x.extractLsb' 0 10 == 0) (.stlda h a (x.getLsbD 10))
  | 0x08#8 =>
    zeros (x.extractLsb' 13 3 == 0 && x.extractLsb' 4 4 == 0) (.cfgset h (x.extractLsb' 8 5) (x.extractLsb' 0 4))
  | 0x09#8 =>
    zeros (x.extractLsb' 13 3 == 0 && x.extractLsb' 4 4 == 0) (.cfgclr h (x.extractLsb' 8 5) (x.extractLsb' 0 4))
  | 0x0A#8 => zeros (x.extractLsb' 0 11 == 0) (.cfgrd h a)
  | 0x0B#8 => zeros (x.extractLsb' 0 11 == 0) (.margin h a)
  | 0x10#8 =>
    zeros (x.extractLsb' 0 3 == 0)
      (.manchor h (x.extractLsb' 10 6) (x.getLsbD 9) (x.getLsbD 8) (x.extractLsb' 3 5))
  | 0x18#8 => zeros (x.extractLsb' 0 11 == 0) (.hbound h a)
  | 0x19#8 =>
    zeros (x.extractLsb' 0 4 == 0)
      (.tmark h (x.extractLsb' 10 6) (x.getLsbD 9) (x.extractLsb' 7 2) (x.extractLsb' 4 3))
  | 0x1A#8 => zeros (x == 0) (.tclr h)
  | 0x20#8 => zeros (x.extractLsb' 0 8 == 0) (.mset h m (x.extractLsb' 8 5))
  | 0x21#8 => zeros (x.extractLsb' 0 7 == 0) (.mand h m (x.extractLsb' 10 3) (x.extractLsb' 7 3))
  | 0x22#8 => zeros (x.extractLsb' 0 7 == 0) (.mor h m (x.extractLsb' 10 3) (x.extractLsb' 7 3))
  | 0x23#8 => zeros (x.extractLsb' 0 10 == 0) (.mnot h m (x.extractLsb' 10 3))
  | 0x24#8 => zeros (x.extractLsb' 0 8 == 0) (.mmova h a (x.extractLsb' 8 3))
  | 0x28#8 => zeros (x.extractLsb' 0 5 == 0) (.retag h (x.getLsbD 15) (x.extractLsb' 10 5) (x.extractLsb' 5 5))
  | _ => none

/-- Slot G (R103, R133, R164, R200, R263). `ext` is the body of slot H when G owns it. -/
def decodeSlotG (h : SlotHdr) (op : Byte) (x : BitVec 16) (ext : BitVec 28) : Option Instr :=
  let f := op.extractLsb' 0 4
  let v := x.extractLsb' 11 5
  let hnd := x.extractLsb' 5 6
  let row := x.extractLsb' 0 5
  let withExt (make : Ext → Instr) : Option Instr :=
    match extOf ext with
    | some e => zeros (row == 0) (make e)
    | none => none
  match op.extractLsb' 4 4 with
  | 0x1#4 => some (.cld h f v hnd row)
  | 0x2#4 => withExt (.cldFar h f v hnd)
  | 0x3#4 =>
    match f with
    | 0#4 => some (.cst h v hnd row)
    | 1#4 => withExt (.cstM h v hnd)
    | 2#4 => withExt (.cstU h v hnd)
    | _ => none
  | 0x4#4 => withExt (.cldU h f v hnd)
  | 0x5#4 => withExt (.catom h f v hnd)
  | 0x6#4 => withExt (.catomFar h f v hnd)
  | 0x7#4 =>
    let vs := x.extractLsb' 6 5
    let q := x.extractLsb' 4 2
    let n := x.extractLsb' 0 4
    match f with
    | 0#4 => some (.swsend h v vs q n)
    | 1#4 => some (.swrecv h v vs q n)
    | 2#4 => some (.swbcast h v vs q n)
    | _ => none
  | _ => none

/-- One occupied slot, `none` where R99 finds cause 5. `ext` holds the bodies of the surrendered slots it owns. -/
def decodeSlot (h : SlotHdr) (op : Byte) (x : BitVec 16) (ext : List (BitVec 28)) : Option Instr :=
  let found :=
    if op == 0 then zeros (x == 0) (.slotNop h)
    else match h.slot with
      | .A | .B => decodeSlotAB h op x ext
      | .C | .D => decodeSlotCD h op x
      | .E => decodeSlotE h op x
      | .F => decodeSlotF h op x
      | .G => decodeSlotG h op x (ext.headD 0)
      | .H => decodeSlotH h op x
  match found with
  | some i => if i.fieldsOk then some i else none
  | none => none

/-- The operations marked L, which may own a long immediate (R98, R100). -/
def Instr.ownsLong : Instr → Bool
  | .cmpi _ _ _ _ _ | .movi _ _ _ | .sAddi _ _ _ | .sAndi _ _ _ | .sOri _ _ _ | .sXori _ _ _ => true
  | _ => false

/-- The operations marked X, which own slot H (R103). -/
def Instr.ownsExt : Instr → Bool
  | .cldFar _ _ _ _ _ | .cstM _ _ _ _ | .cstU _ _ _ _ | .cldU _ _ _ _ _ | .catom _ _ _ _ _ | .catomFar _ _ _ _ _ => true
  | _ => false

/-- The first slot of a list that fails a check. -/
def firstSlot (p : Slot → Bool) : List Slot → Option Slot
  | [] => none
  | s :: ss => if p s then some s else firstSlot p ss

/-- The surrendered slots just after a slot, at most the three that the chain check looks at. -/
def surrenderedAfter (ext : Byte) (s : Slot) : List Slot :=
  ((Slot.all.drop (s.num.toNat + 1)).takeWhile (slotBit ext)).take 3

/-- A bundle's fields: the header's masks and the slot bodies (R17, R94). -/
structure BundleHdr where
  occ : Byte
  ext : Byte
  arr : Byte
  kb : BitVec 2
  low : BitVec 6
  deriving DecidableEq, Repr

def bundleHdr (x : BitVec 256) : BundleHdr :=
  ⟨x.extractLsb' 248 8, x.extractLsb' 240 8, x.extractLsb' 232 8, x.extractLsb' 230 2, x.extractLsb' 224 6⟩

/-- What slot `s` of a bundle holds; `none` is cause 5. -/
def bundleSlot (x : BitVec 256) (s : Slot) : Option Instr :=
  let h := bundleHdr x
  let body := slotBody x s
  let hdr : SlotHdr := ⟨s, body.extractLsb' 24 4, if slotBit h.arr s then some h.kb else none⟩
  decodeSlot hdr (body.extractLsb' 16 8) (body.extractLsb' 0 16) ((surrenderedAfter h.ext s).map (slotBody x))

/-- The slots that hold an operation of their own. -/
def activeSlots (h : BundleHdr) : List Slot := Slot.all.filter fun s => slotBit h.occ s && !slotBit h.ext s

/-- The owner of a surrendered slot: the nearest slot to its left that is not surrendered. -/
def ownerOf (h : BundleHdr) (s : Slot) : Option Slot :=
  ((Slot.all.take s.num.toNat).filter fun o => !slotBit h.ext o).getLast?

/-- Cause 6 of R99 at a slot; the slot reported is the surrendered one, not its owner: the model's choice (log 70). -/
def ownershipBad (x : BitVec 256) (s : Slot) : Bool :=
  let h := bundleHdr x
  if slotBit h.ext s then
    match ownerOf h s with
    | none => true
    | some o =>
      if slotBit h.occ o then
        match bundleSlot x o with
        | some i =>
          let n := s.num.toNat - o.num.toNat
          !(i.ownsLong && n ≤ 2 || i.ownsExt && n ≤ 1)
        | none => true
      else true
  else
    slotBit h.occ s &&
      match bundleSlot x s with
      | some i => i.ownsExt && !slotBit h.ext .H
      | none => false

/-- The operations of a bundle in slot order, or the first failure of R99's checks 1 to 7. R99 names no slot for the header's check
(the model reports slot A) nor for a bad field of an X operation's extension word (the model reports slot G, which owns it): log 70. -/
def decodeBundle (x : BitVec 256) : Except Reject (List Instr) :=
  let h := bundleHdr x
  let fail (cause : Byte) (s : Slot) : Except Reject (List Instr) := .error (.bundle cause s.num)
  if h.low != 0 then fail 1 .A
  else match firstSlot (fun s => slotBit h.ext s && (s == .A || !slotBit h.occ s)) Slot.all with
  | some s => fail 2 s
  | none =>
  match firstSlot (fun s => slotBit h.arr s && (!slotBit h.occ s || slotBit h.ext s)) Slot.all with
  | some s => fail 3 s
  | none =>
  match firstSlot (fun s => !slotBit h.occ s && slotBody x s != 0) Slot.all with
  | some s => fail 4 s
  | none =>
  match firstSlot (fun s => (bundleSlot x s).isNone) (activeSlots h) with
  | some s => fail 5 s
  | none =>
  match firstSlot (ownershipBad x) Slot.all with
  | some s => fail 6 s
  | none =>
  match firstSlot (fun s => (bundleSlot x s).any fun i => !i.landingOk) (activeSlots h) with
  | some s => fail 7 s
  | none => .ok ((activeSlots h).filterMap (bundleSlot x))

/-! ### The encoder -/

/-- The five control-core forms (R80). -/
def formR (m : BitVec 6) (d a b : BitVec 5) (func : BitVec 11) : Word := m ++ d ++ a ++ b ++ func
def formI (m : BitVec 6) (d a : BitVec 5) (imm : BitVec 16) : Word := m ++ d ++ a ++ imm
def formM (m : BitVec 6) (d a : BitVec 5) (cls : BitVec 4) (off : BitVec 12) : Word := m ++ d ++ a ++ cls ++ off
def formJ (m : BitVec 6) (off : BitVec 26) : Word := m ++ off

/-- The suffix fields in func (R84); `hi` is bits 10:8. -/
def funcSfx (hi : BitVec 3) (s : SyncSfx) : BitVec 11 := hi ++ s.cls ++ s.order ++ s.scope

/-- The word of a control-core instruction; `none` for anything else. -/
def encodeWord : Instr → Option Word
  | .add d a b => some (formR 0x00 d a b 0x000)
  | .sub d a b => some (formR 0x00 d a b 0x001)
  | .and d a b => some (formR 0x00 d a b 0x002)
  | .or d a b => some (formR 0x00 d a b 0x003)
  | .xor d a b => some (formR 0x00 d a b 0x004)
  | .sll d a b => some (formR 0x00 d a b 0x008)
  | .srl d a b => some (formR 0x00 d a b 0x009)
  | .sra d a b => some (formR 0x00 d a b 0x00A)
  | .slt d a b => some (formR 0x00 d a b 0x010)
  | .sltu d a b => some (formR 0x00 d a b 0x011)
  | .min d a b => some (formR 0x00 d a b 0x012)
  | .max d a b => some (formR 0x00 d a b 0x013)
  | .minu d a b => some (formR 0x00 d a b 0x014)
  | .maxu d a b => some (formR 0x00 d a b 0x015)
  | .sextB d a => some (formR 0x00 d a 0 0x018)
  | .sextH d a => some (formR 0x00 d a 0 0x019)
  | .sextW d a => some (formR 0x00 d a 0 0x01A)
  | .mul d a b => some (formR 0x00 d a b 0x020)
  | .mulh d a b => some (formR 0x00 d a b 0x021)
  | .mulhu d a b => some (formR 0x00 d a b 0x022)
  | .div d a b => some (formR 0x00 d a b 0x024)
  | .divu d a b => some (formR 0x00 d a b 0x025)
  | .rem d a b => some (formR 0x00 d a b 0x026)
  | .remu d a b => some (formR 0x00 d a b 0x027)
  | .addi d a imm => some (formI 0x01 d a imm)
  | .andi d a imm => some (formI 0x02 d a imm)
  | .ori d a imm => some (formI 0x03 d a imm)
  | .xori d a imm => some (formI 0x04 d a imm)
  | .slti d a imm => some (formI 0x05 d a imm)
  | .sltiu d a imm => some (formI 0x06 d a imm)
  | .slli d a n => some (formI 0x07 d a ((0 : BitVec 10) ++ n))
  | .srli d a n => some (formI 0x08 d a ((0 : BitVec 10) ++ n))
  | .srai d a n => some (formI 0x09 d a ((0 : BitVec 10) ++ n))
  | .lui d imm => some (formI 0x0A d 0 imm)
  | .shori d a imm => some (formI 0x0B d a imm)
  | .ldB d a cls off => some (formM 0x10 d a cls off)
  | .ldH d a cls off => some (formM 0x11 d a cls off)
  | .ldW d a cls off => some (formM 0x12 d a cls off)
  | .ldD d a cls off => some (formM 0x13 d a cls off)
  | .stB src a cls off => some (formM 0x14 src a cls off)
  | .stH src a cls off => some (formM 0x15 src a cls off)
  | .stW src a cls off => some (formM 0x16 src a cls off)
  | .stD src a cls off => some (formM 0x17 src a cls off)
  | .beq a b off => some (formI 0x18 a b off)
  | .bne a b off => some (formI 0x19 a b off)
  | .blt a b off => some (formI 0x1A a b off)
  | .bge a b off => some (formI 0x1B a b off)
  | .bltu a b off => some (formI 0x1C a b off)
  | .bgeu a b off => some (formI 0x1D a b off)
  | .jal off => some (formJ 0x1E off)
  | .jalr d a imm => some (formI 0x1F d a imm)
  | .exit => some (formR 0x20 0 0 0 0)
  | .yield => some (formR 0x20 0 0 0 1)
  | .spawn d a b => some (formR 0x21 d a b 0)
  | .sync d => some (formR 0x22 d 0 0 0)
  | .view op d a b => some (formR 0x23 d a b ((0 : BitVec 8) ++ op))
  | .viewDrop d a b => some (formR 0x23 d a b 15)
  | .meet s d a b => some (formR 0x24 d a b (funcSfx 0 s))
  | .minit d a b => some (formR 0x25 d a b 0)
  | .mread d a => some (formR 0x25 d a 0 0x200)
  | .mfree d a => some (formR 0x25 d a 0 0x400)
  | .waitge s a b => some (formR 0x26 0 a b (funcSfx 0 s))
  | .waitaddr mode s d a b => some (formR 0x27 d a b (funcSfx ((0 : BitVec 1) ++ mode) s))
  | .wake a => some (formR 0x27 0 a 0 0x400)
  | .qpop d a => some (formR 0x28 d a 0 0)
  | .qpopNb d a => some (formR 0x28 d a 0 0x200)
  | .qpush d a b => some (formR 0x28 d a b 0x400)
  | .qclose d a => some (formR 0x28 d a 0 0x600)
  | .launch d a => some (formR 0x29 d a 0 0)
  | .fence scope mask => some (formI 0x2A ((0 : BitVec 3) ++ scope) 0 mask)
  | .xbegin d a => some (formR 0x2B d a 0 0)
  | .xstore size d a b => some (formR 0x2B d a b ((0x080 : BitVec 9) ++ size))
  | .xcommit d => some (formR 0x2B d 0 0 0x400)
  | .xabort d => some (formR 0x2B d 0 0 0x600)
  | .amoW op s d a b => some (formR 0x2C d a b (funcSfx op s))
  | .amoD op s d a b => some (formR 0x2D d a b (funcSfx op s))
  | .ldAcq size cls scope d a => some (formR 0x2E d a 0 (funcSfx ((0 : BitVec 1) ++ size) ⟨cls, 0, scope⟩))
  | .stRel size cls scope a b => some (formR 0x2E 0 a b (funcSfx ((1 : BitVec 1) ++ size) ⟨cls, 0, scope⟩))
  | .csrr d n => some (formM 0x30 d 0 0 n)
  | .csrw d a n => some (formM 0x30 d a 1 n)
  | .csrs d a n => some (formM 0x30 d a 2 n)
  | .csrc d a n => some (formM 0x30 d a 3 n)
  | .trap code => some (formI 0x31 0 0 code)
  | .sysret => some (formR 0x32 0 0 0 0)
  | .uiret => some (formR 0x33 0 0 0 0)
  | .snapsave d a b => some (formR 0x34 d a b 0)
  | .snapload d a b => some (formR 0x34 d a b 1)
  | .brk => some (formR 0x35 0 0 0 0)
  | .dbrd d a => some (formR 0x35 d a 0 1)
  | .dbwr a b => some (formR 0x35 0 a b 2)
  | .untag a => some (formR 0x36 0 a 0 0)
  | _ => none

/-- Words 0 and 1 of a command (R87). -/
def cmdWord0 (op : BitVec 6) (h : CmdHdr) (cf : BitVec 10) : Word :=
  (0x3E : BitVec 6) ++ op ++ h.cls ++ h.scope ++ BitVec.ofBool h.ntf ++ BitVec.ofBool h.cnt ++ h.order ++ cf
def cmdWord1 (h : CmdHdr) : Word := h.waitSm ++ h.threshold ++ h.signalSm ++ h.increment

/-- cflags of the stream moves (R92): bits 9:8, the tag, bit 2 and bits 1:0. -/
def cflagsOf (hi : BitVec 2) (tag : Tag) (bit2 : Bool) (lo : BitVec 2) : BitVec 10 := hi ++ tag ++ BitVec.ofBool bit2 ++ lo

/-- The opcode, the cflags and words 2 and 3 of a command (R90 to R92). -/
def commandParts : Instr → Option (CmdHdr × BitVec 6 × BitVec 10 × Word × Word)
  | .shape h addr sh ctr => some (h, 0x01, 0, addr, sh ++ (0 : BitVec 12) ++ ctr)
  | .salloc h hnd bank nbanks row nrows =>
    some (h, 0x02, 0, hnd ++ bank ++ nbanks ++ (0 : BitVec 12), row ++ nrows ++ (0 : BitVec 9))
  | .sfree h hnd => some (h, 0x03, 0, hnd ++ (0 : BitVec 26), 0)
  | .sload h tmode tag split addr hnd sh ctr =>
    some (h, 0x04, cflagsOf tmode tag split 0, addr, hnd ++ sh ++ (0 : BitVec 6) ++ ctr)
  | .sstore h tag split addr hnd sh ctr =>
    some (h, 0x05, cflagsOf 0 tag split 0, addr, hnd ++ sh ++ (0 : BitVec 6) ++ ctr)
  | .sgather h tag addr hnd sh idx ctr => some (h, 0x06, cflagsOf 0 tag false 0, addr, hnd ++ sh ++ idx ++ ctr)
  | .sscatter h tag addr hnd sh idx ctr => some (h, 0x07, cflagsOf 0 tag false 0, addr, hnd ++ sh ++ idx ++ ctr)
  | .sscadd h tag form addr hnd sh idx ctr => some (h, 0x08, cflagsOf 0 tag false form, addr, hnd ++ sh ++ idx ++ ctr)
  | .scopy h sh dst src => some (h, 0x09, (0 : BitVec 5) ++ sh, dst, src)
  | .scan h tag flush row src list sh mask ctr =>
    some (h, 0x0A, cflagsOf 0 tag false (BitVec.ofBool flush ++ BitVec.ofBool row), src ++ list ++ sh ++ ctr,
      mask ++ (0 : BitVec 26))
  | .kernel h knl sh hA hB hC hD ins outs ctr => some (h, 0x0B, 0, knl ++ sh ++ ctr, hA ++ hB ++ hC ++ hD ++ ins ++ outs)
  | .kswap h knl addr ctr => some (h, 0x0C, 0, knl ++ (0 : BitVec 5) ++ ctr, addr)
  | .collAllred h addr comb sh grp ctr => some (h, 0x0D, 0, addr, (0 : BitVec 4) ++ comb ++ sh ++ grp ++ ctr)
  | .collRedsc h addr comb sh grp ctr => some (h, 0x0D, 0, addr, (1 : BitVec 4) ++ comb ++ sh ++ grp ++ ctr)
  | .collAllgat h addr comb sh grp ctr => some (h, 0x0D, 0, addr, (2 : BitVec 4) ++ comb ++ sh ++ grp ++ ctr)
  | .collBcast h addr comb sh grp ctr => some (h, 0x0D, 0, addr, (3 : BitVec 4) ++ comb ++ sh ++ grp ++ ctr)
  | .smark h ctr => some (h, 0x0E, 0, (0 : BitVec 17) ++ ctr, 0)
  | _ => none

/-- The four words of a command; `none` for anything else. -/
def encodeCommand (i : Instr) : Option (Word × Word × Word × Word) :=
  (commandParts i).map fun (h, op, cf, w2, w3) => (cmdWord0 op h cf, cmdWord1 h, w2, w3)

/-- A slot operation's header, opcode, operands and the bodies of the slots it owns. -/
structure SlotCode where
  h : SlotHdr
  op : Byte
  x : BitVec 16
  ext : List (BitVec 28)
  deriving DecidableEq, Repr

def layL3 (d a b : BitVec 5) (x : Bool) : BitVec 16 := d ++ a ++ b ++ BitVec.ofBool x
def layLP (k : BitVec 3) (a b : BitVec 5) (cond : BitVec 3) : BitVec 16 := k ++ a ++ b ++ cond

/-- The short field of an immediate and the bodies that hold the rest (R18). -/
def Imm.low : Imm → Byte
  | .short v => v
  | .long36 v => v.extractLsb' 0 8
  | .long64 v => v.extractLsb' 0 8
def Imm.ext : Imm → List (BitVec 28)
  | .short _ => []
  | .long36 v => [v.extractLsb' 8 28]
  | .long64 v => [v.extractLsb' 8 28, v.extractLsb' 36 28]

def layLI (d : BitVec 5) (i : Imm) : BitVec 16 := d ++ (0 : BitVec 3) ++ i.low
def layLK (k : BitVec 3) (a : BitVec 5) (i : Imm) : BitVec 16 := k ++ a ++ i.low
def layP (pd pa pb : BitVec 4) : BitVec 16 := pd ++ pa ++ pb ++ (0 : BitVec 4)
def layM (r : BitVec 6) (s : MatSrc) : BitVec 16 := r ++ s.kind ++ BitVec.ofBool s.x ++ s.low
def layG (v : BitVec 5) (hnd : BitVec 6) (row : BitVec 5) : BitVec 16 := v ++ hnd ++ row
def extBits (e : Ext) : BitVec 28 := BitVec.ofBool e.mode ++ e.row ++ e.reg2 ++ (0 : BitVec 4) ++ e.low

/-- A slot operation's code (R97 to R103, R133, R175, R187, R200); `none` for anything else. -/
def slotCode : Instr → Option SlotCode
  | .slotNop h => some ⟨h, 0x00, 0, []⟩
  | .br h target => some ⟨h, 0x01, (0 : BitVec 4) ++ target, []⟩
  | .loop h lvl a byShape len => some ⟨h, 0x02, lvl ++ a ++ BitVec.ofBool byShape ++ (0 : BitVec 1) ++ len, []⟩
  | .loopi h lvl trip len => some ⟨h, 0x03, lvl ++ trip ++ len, []⟩
  | .loopSw h lvl a byShape stages ii => some ⟨h, 0x04, lvl ++ a ++ BitVec.ofBool byShape ++ stages ++ ii, []⟩
  | .loopiSw h lvl trip stages ii => some ⟨h, 0x05, lvl ++ trip ++ stages ++ ii, []⟩
  | .pand h pd pa pb => some ⟨h, 0x08, layP pd pa pb, []⟩
  | .por h pd pa pb => some ⟨h, 0x09, layP pd pa pb, []⟩
  | .pxor h pd pa pb => some ⟨h, 0x0A, layP pd pa pb, []⟩
  | .pandn h pd pa pb => some ⟨h, 0x0B, layP pd pa pb, []⟩
  | .cmp h cc k a b => some ⟨h, (2 : BitVec 5) ++ cc, layLP k a b 0, []⟩
  | .cmpi h cc k a imm => some ⟨h, (3 : BitVec 5) ++ cc, layLK k a imm, imm.ext⟩
  | .movi h d imm => some ⟨h, 0x20, layLI d imm, imm.ext⟩
  | .lwait h n => some ⟨h, 0x28, (0 : BitVec 12) ++ n, []⟩
  | .lock h n a => some ⟨h, 0x30, n ++ a ++ (0 : BitVec 7), []⟩
  | .ktrap h code => some ⟨h, 0x38, code, []⟩
  | .halt h => some ⟨h, 0x39, 0, []⟩
  | .sMov h d a => some ⟨h, 0x21, layL3 d a 0 false, []⟩
  | .sAdd h d a b => some ⟨h, 0x22, layL3 d a b false, []⟩
  | .sSub h d a b => some ⟨h, 0x23, layL3 d a b false, []⟩
  | .sAnd h d a b => some ⟨h, 0x24, layL3 d a b false, []⟩
  | .sOr h d a b => some ⟨h, 0x25, layL3 d a b false, []⟩
  | .sXor h d a b => some ⟨h, 0x26, layL3 d a b false, []⟩
  | .sSll h d a b => some ⟨h, 0x27, layL3 d a b false, []⟩
  | .sSrl h d a b => some ⟨h, 0x28, layL3 d a b false, []⟩
  | .sSra h d a b => some ⟨h, 0x29, layL3 d a b false, []⟩
  | .sMul h d a b => some ⟨h, 0x2A, layL3 d a b false, []⟩
  | .sMulh h d a b => some ⟨h, 0x2B, layL3 d a b false, []⟩
  | .sMin h d a b => some ⟨h, 0x2C, layL3 d a b false, []⟩
  | .sMax h d a b => some ⟨h, 0x2D, layL3 d a b false, []⟩
  | .sMinu h d a b => some ⟨h, 0x2E, layL3 d a b false, []⟩
  | .sMaxu h d a b => some ⟨h, 0x2F, layL3 d a b false, []⟩
  | .sAddi h d imm => some ⟨h, 0x30, layLI d imm, imm.ext⟩
  | .sAndi h d imm => some ⟨h, 0x31, layLI d imm, imm.ext⟩
  | .sOri h d imm => some ⟨h, 0x32, layLI d imm, imm.ext⟩
  | .sXori h d imm => some ⟨h, 0x33, layLI d imm, imm.ext⟩
  | .sSlli h d n => some ⟨h, 0x34, d ++ (0 : BitVec 5) ++ n, []⟩
  | .sSrli h d n => some ⟨h, 0x35, d ++ (0 : BitVec 5) ++ n, []⟩
  | .sSrai h d n => some ⟨h, 0x36, d ++ (0 : BitVec 5) ++ n, []⟩
  | .rdlc h d lvl => some ⟨h, 0x38, d ++ lvl ++ (0 : BitVec 8), []⟩
  | .wfield h d k => some ⟨h, 0x39, d ++ k ++ (0 : BitVec 8), []⟩
  | .vmov h d a => some ⟨h, 0x01, layL3 d a 0 false, []⟩
  | .vsel h d a b => some ⟨h, 0x02, layL3 d a b false, []⟩
  | .vand h d a b => some ⟨h, 0x03, layL3 d a b false, []⟩
  | .vor h d a b => some ⟨h, 0x04, layL3 d a b false, []⟩
  | .vxor h d a b => some ⟨h, 0x05, layL3 d a b false, []⟩
  | .vnot h d a => some ⟨h, 0x06, layL3 d a 0 false, []⟩
  | .vfshl h d a b => some ⟨h, 0x07, layL3 d a b false, []⟩
  | .vfshr h d a b => some ⟨h, 0x08, layL3 d a b false, []⟩
  | .vperm h d a b => some ⟨h, 0x09, layL3 d a b false, []⟩
  | .vpopc h nz d a => some ⟨h, 0x0A, layL3 d a 0 nz, []⟩
  | .vtopk h nz d a k => some ⟨h, 0x0B, layL3 d a k nz, []⟩
  | .vqmov h dir v q => some ⟨h, 0x0C, v ++ q ++ BitVec.ofBool dir ++ (0 : BitVec 6), []⟩
  | .vadd h f d a b => some ⟨h, (0x1 : BitVec 4) ++ f, layL3 d a b false, []⟩
  | .vsub h f d a b => some ⟨h, (0x2 : BitVec 4) ++ f, layL3 d a b false, []⟩
  | .vmul h f d a b => some ⟨h, (0x3 : BitVec 4) ++ f, layL3 d a b false, []⟩
  | .vfma h f d a b => some ⟨h, (0x4 : BitVec 4) ++ f, layL3 d a b false, []⟩
  | .vmin h f d a b => some ⟨h, (0x5 : BitVec 4) ++ f, layL3 d a b false, []⟩
  | .vmax h f d a b => some ⟨h, (0x6 : BitVec 4) ++ f, layL3 d a b false, []⟩
  | .vcmp h f cond k a b => some ⟨h, (0x7 : BitVec 4) ++ f, layLP k a b cond, []⟩
  | .vcvt h f d a b => some ⟨h, (0x8 : BitVec 4) ++ f, layL3 d a b false, []⟩
  | .vbcast h f d a => some ⟨h, (0x9 : BitVec 4) ++ f, layL3 d a 0 false, []⟩
  | .vdiv h f d a b => some ⟨h, (0xA : BitVec 4) ++ f, layL3 d a b false, []⟩
  | .vabs h f d a => some ⟨h, (0xB : BitVec 4) ++ f, layL3 d a 0 false, []⟩
  | .vneg h f d a => some ⟨h, (0xB : BitVec 4) ++ f, layL3 d a 1 false, []⟩
  | .vsqrt h f d a => some ⟨h, (0xB : BitVec 4) ++ f, layL3 d a 2 false, []⟩
  | .vshl h f d a b => some ⟨h, (0xC : BitVec 4) ++ f, layL3 d a b false, []⟩
  | .vshr h f d a b => some ⟨h, (0xD : BitVec 4) ++ f, layL3 d a b false, []⟩
  | .vred h f d a op grp => some ⟨h, (0xE : BitVec 4) ++ f, d ++ a ++ op ++ grp, []⟩
  | .vscan h f d a op excl grp => some ⟨h, (0xF : BitVec 4) ++ f, d ++ a ++ op ++ BitVec.ofBool excl ++ grp, []⟩
  | .mloadb h f r src => some ⟨h, (0x1 : BitVec 4) ++ f, layM r src, []⟩
  | .mpush h f r src => some ⟨h, (0x2 : BitVec 4) ++ f, layM r src, []⟩
  | .mpushSc h r src => some ⟨h, 0x30, layM r src, []⟩
  | .mloadbWide h f r src => some ⟨h, (0x18 : BitVec 6) ++ f, layM r src, []⟩
  | .mpushWide h f r src => some ⟨h, (0x1C : BitVec 6) ++ f, layM r src, []⟩
  | .macc h r x pol allRows clr =>
    some ⟨h, 0x40, r ++ BitVec.ofBool x ++ BitVec.ofBool pol ++ BitVec.ofBool allRows ++ BitVec.ofBool clr ++ (0 : BitVec 6), []⟩
  | .mdrain h f dest r x p toTile =>
    some ⟨h, (0x5 : BitVec 4) ++ f, dest ++ r ++ BitVec.ofBool x ++ p ++ BitVec.ofBool toTile ++ (0 : BitVec 1), []⟩
  | .trin h f v p => some ⟨h, (0x1 : BitVec 4) ++ f, v ++ p ++ (0 : BitVec 9), []⟩
  | .trout h dest p toTile => some ⟨h, 0x20, dest ++ p ++ BitVec.ofBool toTile ++ (0 : BitVec 8), []⟩
  | .trclr h => some ⟨h, 0x30, 0, []⟩
  | .stld h i e => some ⟨h, 0x01, i ++ (0 : BitVec 4) ++ e, []⟩
  | .stlda h a half => some ⟨h, 0x02, a ++ BitVec.ofBool half ++ (0 : BitVec 10), []⟩
  | .cfgset h flags low => some ⟨h, 0x08, (0 : BitVec 3) ++ flags ++ (0 : BitVec 4) ++ low, []⟩
  | .cfgclr h flags low => some ⟨h, 0x09, (0 : BitVec 3) ++ flags ++ (0 : BitVec 4) ++ low, []⟩
  | .cfgrd h d => some ⟨h, 0x0A, d ++ (0 : BitVec 11), []⟩
  | .margin h a => some ⟨h, 0x0B, a ++ (0 : BitVec 11), []⟩
  | .manchor h r allRows x a => some ⟨h, 0x10, r ++ BitVec.ofBool allRows ++ BitVec.ofBool x ++ a ++ (0 : BitVec 3), []⟩
  | .hbound h a => some ⟨h, 0x18, a ++ (0 : BitVec 11), []⟩
  | .tmark h r x mode mk => some ⟨h, 0x19, r ++ BitVec.ofBool x ++ mode ++ mk ++ (0 : BitVec 4), []⟩
  | .tclr h => some ⟨h, 0x1A, 0, []⟩
  | .mset h mk a => some ⟨h, 0x20, mk ++ a ++ (0 : BitVec 8), []⟩
  | .mand h md ma mb => some ⟨h, 0x21, md ++ ma ++ mb ++ (0 : BitVec 7), []⟩
  | .mor h md ma mb => some ⟨h, 0x22, md ++ ma ++ mb ++ (0 : BitVec 7), []⟩
  | .mnot h md ma => some ⟨h, 0x23, md ++ ma ++ (0 : BitVec 10), []⟩
  | .mmova h d mk => some ⟨h, 0x24, d ++ mk ++ (0 : BitVec 8), []⟩
  | .retag h tile reg tag => some ⟨h, 0x28, BitVec.ofBool tile ++ reg ++ tag ++ (0 : BitVec 5), []⟩
  | .cld h f v hnd row => some ⟨h, (0x1 : BitVec 4) ++ f, layG v hnd row, []⟩
  | .cst h v hnd row => some ⟨h, 0x30, layG v hnd row, []⟩
  | .cldU h f v hnd x => some ⟨h, (0x4 : BitVec 4) ++ f, layG v hnd 0, [extBits x]⟩
  | .cstU h v hnd x => some ⟨h, 0x32, layG v hnd 0, [extBits x]⟩
  | .cstM h v hnd x => some ⟨h, 0x31, layG v hnd 0, [extBits x]⟩
  | .cldFar h f v hnd x => some ⟨h, (0x2 : BitVec 4) ++ f, layG v hnd 0, [extBits x]⟩
  | .catom h k v hnd x => some ⟨h, (0x5 : BitVec 4) ++ k, layG v hnd 0, [extBits x]⟩
  | .catomFar h k v hnd x => some ⟨h, (0x6 : BitVec 4) ++ k, layG v hnd 0, [extBits x]⟩
  | .swsend h d v q a => some ⟨h, 0x70, d ++ v ++ q ++ a, []⟩
  | .swrecv h d v q a => some ⟨h, 0x71, d ++ v ++ q ++ a, []⟩
  | .swbcast h d v q cl => some ⟨h, 0x72, d ++ v ++ q ++ cl, []⟩
  | _ => none

/-- The mask with one slot's bit set (R17). -/
def slotMask (s : Slot) : Byte := (0x80 : Byte) >>> s.num.toNat

/-- The body of slot `t` in the bundle that holds one operation alone. -/
def soloBody (c : SlotCode) (t : Slot) : BitVec 28 :=
  if t = c.h.slot then c.h.guard ++ c.op ++ c.x
  else if t.num.toNat ≤ c.h.slot.num.toNat then 0
  else (c.ext[t.num.toNat - c.h.slot.num.toNat - 1]?).getD 0

/-- The bundle that holds one slot operation and nothing else (R17, R94). -/
def soloBundle (c : SlotCode) : BitVec 256 :=
  let owned : Byte := ((Slot.all.drop (c.h.slot.num.toNat + 1)).take c.ext.length).foldl (fun m s => m ||| slotMask s) 0
  let arr : Byte := if c.h.arrive.isSome then slotMask c.h.slot else 0
  (slotMask c.h.slot ||| owned) ++ owned ++ arr ++ c.h.arrive.getD 0 ++ (0 : BitVec 6) ++ soloBody c .A ++ soloBody c .B ++
    soloBody c .C ++ soloBody c .D ++ soloBody c .E ++ soloBody c .F ++ soloBody c .G ++ soloBody c .H

/-- The words of a well-formed instruction, word 0 at the lowest address: one for a control-core word, four for a command,
the eight of a bundle that holds it alone for a slot operation, none for an event, which has no encoding. -/
def encode (i : Instr) : List Word :=
  match encodeWord i with
  | some w => [w]
  | none =>
    match encodeCommand i with
    | some (w0, w1, w2, w3) => [w0, w1, w2, w3]
    | none =>
      match slotCode i with
      | some c => (List.range 8).map fun n => (soloBundle c).extractLsb' (32 * n) 32
      | none => []

/-! ### The host's table words -/

/-- The instruction that the decoder reads from a table word: `w` holds the first word in bits 31:0, the next in 63:32, and
so on; what lies above `nbits` is zero. -/
def decodeTableWord (nbits w : Nat) : Option Instr :=
  let x : BitVec 128 := BitVec.ofNat 128 (w % 2 ^ nbits)
  match decode (x.extractLsb' 0 32) (x.extractLsb' 32 32) (x.extractLsb' 64 32) (x.extractLsb' 96 32) with
  | .ok i => some i
  | .error _ => none

end Sys2Proof
end

