-- ==== Sys2Proof/Machine/Num.lean ====
section
/-! DEFINITION. Bit fields, extensions, byte order, exact integers and their narrowing. -/

namespace Sys2Proof.Machine

/-- `sign_extend` and `zero_extend` of R27, to 64 bits. -/
def sext {n : Nat} (x : BitVec n) : DWord := x.signExtend 64
def zext {n : Nat} (x : BitVec n) : DWord := x.setWidth 64

/-- Bits `lo + w − 1` down to `lo` of a number. -/
def field (x lo w : Nat) : Nat := (x >>> lo) % 2 ^ w

/-- Bit `n` of a number. -/
def bitOf (x n : Nat) : Bool := x.testBit n

/-- The two's complement reading of the low `w` bits. -/
def toSigned (w x : Nat) : Int := if bitOf x (w - 1) then (x % 2 ^ w : Nat) - (2 ^ w : Nat) else (x % 2 ^ w : Nat)

/-- The low `w` bits of an integer. -/
def wrap (w : Nat) (x : Int) : Nat := (x % (2 ^ w : Nat)).toNat

/-- `saturate` of R27, with whether it clamped. -/
def saturate (x lo hi : Int) : Int × Bool := if x < lo then (lo, true) else if hi < x then (hi, true) else (x, false)

/-- The bytes of a number, lowest first (R3). -/
def bytesLE : Nat → Nat → List Byte
  | 0, _ => []
  | n + 1, x => BitVec.ofNat 8 x :: bytesLE n (x / 256)

/-- The number that bytes spell, lowest first (R3). -/
def ofBytesLE : List Byte → Nat
  | [] => 0
  | b :: bs => b.toNat + 256 * ofBytesLE bs

/-- Truncating division toward zero by a power of two: the quotient and whether bits were dropped. -/
def truncShift (m : Nat) (e : Int) : Nat × Bool :=
  if 0 ≤ e then (m * 2 ^ e.toNat, false) else (m / 2 ^ (-e).toNat, m % 2 ^ (-e).toNat != 0)

/-- The number of one bits among the low `n` bits. -/
def popCount : Nat → Nat → Nat
  | 0, _ => 0
  | n + 1, x => x % 2 + popCount n (x / 2)

/-- How many bits a number takes. -/
def bitLength (x : Nat) : Nat := if x = 0 then 0 else Nat.log2 x + 1

/-- The integer square root, by bits from `2 ^ n` down. -/
def isqrt : Nat → Nat → Nat → Nat
  | 0, r, x => if (r + 1) * (r + 1) ≤ x then r + 1 else r
  | n + 1, r, x => let t := r + 2 ^ (n + 1); isqrt n (if t * t ≤ x then t else r) x

/-- The n-th entry of a list. -/
def nth {α : Type} (xs : List α) (n : Nat) (d : α) : α := (xs[n]?).getD d

/-- Replace the first element that satisfies a test. -/
def replaceFirst {α : Type} (p : α → Bool) (f : α → α) : List α → List α
  | [] => []
  | x :: xs => if p x then f x :: xs else x :: replaceFirst p f xs

/-- Remove the first element that satisfies a test. -/
def removeFirst {α : Type} (p : α → Bool) : List α → List α
  | [] => []
  | x :: xs => if p x then xs else x :: removeFirst p xs

end Sys2Proof.Machine
end

