-- ==== Sys2Proof/Config.lean ====
section
/-! DEFINITION. What the device fixes (the figures of R2 and R425) and the free values that the spec leaves open. -/

namespace Sys2Proof.Config

/-- The value drawn for the `n`-th open point of a run: nothing is known of it (log 2). -/
opaque freeValue : Nat → BitVec 64
/-- A block whose bytes are open: the payload of a flit that R396 does not lay out (log 23). -/
opaque freeBlock : Nat → BitVec 512
/-- The check bits of a block's side-band over its data and bits 3:0; R282 says what the code corrects and not what it is (log 63). -/
opaque ecc : BitVec 512 → BitVec 4 → BitVec 56
/-- The cc that pass in the `n`-th step; R104 makes it no part of the architecture (log 2). -/
opaque elapsed : Nat → Nat
/-- E mod 128 of a die's calendars after the `n`-th reset: fixed at reset, not otherwise specified, and not the same for every die
or reset (R278; log 2). -/
opaque epoch : Nat → BitVec 2 → BitVec 7
/-- Which two partial results of a collective join next, by step, element and joining: R408 has it follow paths and arrival
(log 44). -/
opaque grouping : Nat → Nat → Nat → Nat
/-- The seed of the device's identity key, drawn from the entropy source at manufacture (R421; log 15). -/
opaque identitySeed : List (BitVec 8)
/-- The hash of the firmware key, fused at manufacture (R420; log 15). -/
opaque fusedKeyHash : BitVec 256
/-- The fused minimum firmware version (R420; log 15). -/
opaque fusedMinVersion : BitVec 32

/-- The firmware image that the flash holds from manufacture; R420 does not give its bytes (log 24). -/
opaque factoryImage : List (BitVec 8)

/-- The native bundles of a Frazin image with a bundle for which R436 gives the translator no form, with its spill bytes per cluster
(log 20). -/
opaque frazinSpill : Nat → List (BitVec 8) → Option (Nat × List (BitVec 256))

/-- Virtual and physical addresses have 48 bits (R29, R268). -/
def addrSpace : Nat := 2 ^ 48
/-- The first physical address beyond device memory (R268). -/
def deviceMemEnd : Nat := 0x00C000000000
/-- The first physical address of host memory (R268). -/
def hostMemBase : Nat := 0x800000000000
/-- Bytes of device memory on one die (R268). -/
def dieBytes : Nat := 0x3000000000
/-- Banks of a core's Cistern (R258). -/
def banks : Nat := 96
/-- Home banks of a cluster (R258). -/
def homeBanks : Nat := 6
/-- Rows of a bank (R258). -/
def bankRows : Nat := 2048
/-- Bytes of one Cistern unit and of one memory block (R258). -/
def unitBytes : Nat := 64
/-- Bundles of the kernel store (R94). -/
def kstore : Nat := 4096
/-- Bundles of the loop buffer (R135). -/
def loopBuf : Nat := 64
/-- Dependency-table entries of a core (R254). -/
def depTable : Nat := 64
/-- Monitor-table entries of a core (R243). -/
def monitors : Nat := 64
/-- Queued notifications of a core (R335). -/
def notifications : Nat := 64
/-- Landing-buffer entries of a cluster (R142). -/
def landingBuf : Nat := 16
/-- Blocked cc after which the secondary issues alone (R209). -/
def fairness : Nat := 255
/-- Bytes of shadow storage on one die (R2, R371). -/
def shadowBytes : Nat := 134217728
/-- Bytes of the fixed part of a kind 2 image (R366). -/
def contextFixed : Nat := 0x1AE000
/-- The device's revision K_REV (R425). -/
def revision : BitVec 16 := 0x0201

/-- The discovery pairs in ascending key order (R425). -/
def discovery : List (BitVec 16 × BitVec 48) :=
  [(0x0001, 0x0201), (0x0010, 4), (0x0011, 32), (0x0012, 16), (0x0020, 32), (0x0021, 32), (0x0022, 8), (0x0023, 64),
   (0x0024, 64), (0x0030, 12582912), (0x0031, 96), (0x0032, 6), (0x0033, 2048), (0x0034, 4096), (0x0035, 64)] ++
  [(0x0040, 128), (0x0041, 64), (0x0042, 32), (0x0043, 0x1CC6), (0x0044, 0x000F), (0x0050, 68), (0x0051, 6),
   (0x0052, 12), (0x0053, 66), (0x0060, 824633720832), (0x0061, 134217728), (0x0062, 0x001040211000), (0x0063, 64)] ++
  [(0x0070, 16), (0x0071, 3), (0x0072, 1300000), (0x0073, 64)]

end Sys2Proof.Config
end

