-- ==== Sys2Proof/Machine/State.lean ====
section
/-! DEFINITION. The state of the device as plain data, the reasons a step can stop, and the state after reset. -/

namespace Sys2Proof.Machine

/-! ### Memory -/

/-- Bytes by address in one canonical form: addresses strictly rising, no entry equal to 0, which is what an unlisted
address reads as (device memory is zero before the first launch, R420; the Cistern at power-on, R258). -/
structure Memory where
  cells : List Host.Cell
  deriving DecidableEq, Repr

/-! ### Clusters (R40, R61, R171) -/

/-- A physical vector register: 64 lanes of 32 bits and a tag (R40, R52). -/
structure VReg where
  lanes : Bank 6 Word
  tag : Tag
  deriving DecidableEq, Repr

/-- A tile register: 64 rows of 64 bytes, the scale plane (R61) and a tag. -/
structure TReg where
  rows : Bank 6 (BitVec 512)
  scales : Bank 6 DWord
  tag : Tag
  deriving DecidableEq, Repr

/-- The special state of an accumulator element (R67). -/
inductive Special where
  | finite | posInf | negInf | nan
  deriving DecidableEq, Repr

/-- An accumulator element: its i64 sum and its special state (R67). -/
structure AccElem where
  sum : DWord
  state : Special
  deriving DecidableEq, Repr

/-- An accumulator row with its anchor, policy, flags and the threshold unit's row maximum (R40). -/
structure AccRow where
  elems : Bank 6 AccElem
  anchor : BitVec 16
  overwrite : Bool
  inexact : Bool
  sat : Bool
  max : Word
  deriving DecidableEq, Repr

/-- A column of the resident or shadow B (R171). -/
structure BCol where
  codes : BitVec 512
  scales : DWord
  tag : Tag
  deriving DecidableEq, Repr

/-- The transposer: 64 rows of 64 elements of up to 32 bits, one tag, two pointers (R171). -/
structure Transposer where
  rows : Bank 6 (Bank 6 Word)
  tag : Tag
  wp : BitVec 6
  cp : BitVec 6
  deriving DecidableEq, Repr

/-- The threshold bound (R171, R193). -/
structure Bound where
  e : BitVec 16
  nan : Bool
  beta : Word
  j : BitVec 6
  deriving DecidableEq, Repr

/-- The registers of one cluster (R40, R171). -/
structure Cluster where
  a : Bank 5 DWord
  v : Bank 5 VReg
  t : Bank 3 TReg
  acc : Bank 6 AccRow
  p : Bank 4 Bool
  q : Bank 4 DWord
  m : Bank 3 DWord
  lc : Vector Word 6
  st : Bank 4 Byte
  cfg : DWord
  resident : Bank 6 BCol
  shadow : Bank 6 BCol
  tr : Transposer
  tb : Bound
  deriving DecidableEq, Repr

/-! ### Kernels in flight (R43 to R51, R135 to R138, R207 to R212) -/

/-- One product of a push on its anchor grid (R70): the truncated integer and whether it was exact, or a special. -/
inductive Product where
  | fin (q : Int) (exact : Bool)
  | special (s : Special)
  deriving DecidableEq, Repr

/-- What a result writes when it falls due (R48). Vector and predicate writes carry the bits they write; a contribution whose
columns an image has already summed carries whether a sum clamped (R367). -/
inductive RegWrite where
  | scalar (r : BitVec 5) (x : DWord)
  | pred (r : BitVec 4) (b : Bool)
  | vec (r : BitVec 5) (mask data : Bank 6 Word) (tag : Tag)
  | quarter (r : BitVec 5) (q : BitVec 2) (data : Bank 4 Word) (tag : Tag)
  | lanePred (r : BitVec 4) (mask data : DWord)
  | tileRow (t : BitVec 3) (row : BitVec 6) (codes : BitVec 512) (scales : DWord) (tag : Tag)
  | vecTag (r : BitVec 5) (tag : Tag)
  | tileTag (t : BitVec 3) (tag : Tag) (clearScales : Bool)
  | tileMask (k : BitVec 3) (x : DWord)
  | tileMaskBit (k : BitVec 3) (j : BitVec 6)
  | scale (i : BitVec 4) (e : Byte)
  | cfgBits (setMask clearMask : DWord)
  | margin (x : Word)
  | anchor (r : BitVec 6) (a : BitVec 16)
  | policy (r : BitVec 6) (overwrite clr : Bool)
  | bound (b : Bound)
  | rowMax (r : BitVec 6) (x : Word)
  | clearMaxes
  | clearTransposer
  | contribution (row : BitVec 6) (overwrite : Bool) (cols : Bank 6 (List Product)) (sat : Bool)
  | nothing
  deriving DecidableEq, Repr

/-- A result in the writeback buffer: the stamp of its issue (`Engine.stamp`), the kc at which it is due, its cluster, and the barrier
its retirement arrives at (R48, R49, R237). -/
structure InFlight where
  issued : Nat
  due : Nat
  cluster : ClusterId
  what : RegWrite
  arrive : Option (BitVec 2)
  deriving DecidableEq, Repr

/-- A live allocation: a rectangle of bank-rows, its holder and its launch (R258, R260). -/
structure Alloc where
  bank : Nat
  nbanks : Nat
  row : Nat
  nrows : Nat
  holder : Addr
  launch : Addr
  deriving DecidableEq, Repr

/-- What a variable-latency request does in the bank units: a far read, or an atomic of a kind with its operands
`x` (vb) and `c` (vd as read at issue) (R167, R263, R264). -/
inductive FarOp where
  | load
  | atomic (kind : BitVec 4) (x c : Bank 6 DWord)
  deriving DecidableEq, Repr

/-- How far a variable-latency request has come (R51, R142, R259, R265). `failed` is a remote error of R265. -/
inductive FarPhase where
  | waiting
  | remote
  | served (data : Bank 6 DWord) (poisoned : Bool)
  | landed (data : Bank 6 DWord) (poisoned : Bool)
  | failed
  deriving DecidableEq, Repr

/-- A variable-latency request of a kernel: view (`home` of its cluster or far), row, destination (physical register),
tag and due kc. -/
structure FarReq where
  issued : Nat
  cluster : ClusterId
  due : Nat
  op : FarOp
  home : Bool
  alloc : Alloc
  row : Nat
  dest : BitVec 5
  tag : Tag
  arrive : Option (BitVec 2)
  phase : FarPhase
  deriving DecidableEq, Repr

/-- An active hardware loop (R135, R137): the trip count it loops to, and for a .SW loop its real trip count and stages. -/
structure LoopSt where
  level : BitVec 3
  first : Nat
  last : Nat
  count : Nat
  sw : Bool
  trip : Nat
  stages : Nat
  deriving DecidableEq, Repr

/-- The move of a spilled scalar or tile register between a staging register and its place in the home view, `off` bytes from its start;
or a staging register's value at kernel start (R436; log 20). -/
inductive SpillMove where
  | loadA (r : BitVec 5) (off : Nat)
  | storeA (r : BitVec 5) (off : Nat)
  | loadT (t : BitVec 3) (tag : Tag) (off : Nat)
  | storeT (t : BitVec 3) (off : Nat)
  | resetA (r : BitVec 5)
  | resetV (v : BitVec 5)
  | resetT (t : BitVec 3)
  deriving DecidableEq, Repr

/-- A kernel image in the kernel store: footprint (R207, R429), spill bytes (R437), bundles, which of them are corrupt (R382), and the moves
of spilled registers that bundles of a translated image make (R436). -/
structure KImage where
  amask : DWord
  vmask : DWord
  accmask : DWord
  pmask : BitVec 16
  qmask : BitVec 16
  mmask : Byte
  lcmask : BitVec 6
  tmask : BitVec 16
  sw : Bool
  spill : Nat
  bundles : List (BitVec 256)
  corrupt : List Nat
  moves : List (Nat × SpillMove)
  deriving DecidableEq, Repr

/-- Why a kernel ends (R44), with the fields of KFAULT's csr.tval (R362). -/
inductive KEnd where
  | halted
  | ktrap (code : BitVec 16)
  | fault (kind bcause : Byte) (slot : BitVec 3) (bundle : BitVec 12)
  deriving DecidableEq, Repr

/-- A bank lock: the banks held, the bundles left, and the cc of the engine's clock at which it ends (R262). -/
structure LockHold where
  banks : List Nat
  bundles : Nat
  ends : Nat
  deriving DecidableEq, Repr

/-- A kernel in one position of the engine. -/
structure KernelRun where
  handle : BitVec 12
  image : KImage
  idx : Nat
  kc : Nat
  loops : List LoopSt
  rb : BitVec 4
  entry : BitVec 6
  word0 : DWord
  task : Addr
  launch : Addr
  ins : List (BitVec 6)
  outs : List (BitVec 6)
  counts : List Nat
  wid : DWord
  widths : DWord
  inflight : List InFlight
  far : List FarReq
  lock : Option LockHold
  ending : Option KEnd
  noSnap : Bool
  skipMatch : Bool
  merge : Option (Addr × BitVec 3)
  clamp : Bool
  overflow : Bool
  deriving DecidableEq, Repr

/-- Frozen cc of a core since its previous kind 1 record, by cause (R390). -/
structure FreezeCounts where
  landing : Nat
  bank : Nat
  fairness : Nat
  power : Nat
  deriving DecidableEq, Repr

/-- A party of level 3 or 4 at the banks: a command's element, or a remote atomic message (R259, R262). -/
inductive BankParty where
  | command (entry : BitVec 6)
  | remote (src : CoreId) (pos : KPos) (cluster : ClusterId) (due : Nat)
  deriving DecidableEq, Repr

/-- The kernel engine of a core (R197, R207 to R212, R364). `clock` counts its cc, frozen ones too; `issued` the cc in which the
primary is not frozen and `fair` the fairness cc, for the rate limits of R129; `rates` holds, for each slot and rate group, `issued` and
`issued + fair` at its last counted operation (log 13); `waiting` the requests of levels 3 and 4 that wait at banks, oldest first
(R259), and `owed` those that queued while a LOCK held the bank and are still to be served (R262); `left` holds that kernels left as they
ended (R262). -/
structure Engine where
  primary : Option KernelRun
  secondary : Option KernelRun
  blocked : Nat
  stopped : Option (BitVec 4)
  stopcc : Nat
  clock : Nat
  issued : Nat
  fair : Nat
  rates : List ((Slot × BitVec 2) × Nat × Nat)
  freezes : FreezeCounts
  waiting : List (Nat × BankParty)
  owed : List (Nat × BankParty)
  left : List LockHold
  deriving DecidableEq, Repr

/-- A merge kernel at its faulting bundle, as the device keeps it in shadow storage (R369), with the cluster whose section an
uncorrectable error has poisoned (R386). -/
structure MergeImage where
  run : KernelRun
  clusters : Bank 4 Cluster
  spoilt : Option ClusterId
  deriving DecidableEq, Repr

/-! ### Commands (R304 to R333) -/

/-- A shape register (R314). -/
structure Shape where
  sdisp : BitVec 32
  dyn : BitVec 3
  place : BitVec 2
  wbase : BitVec 18
  esize : BitVec 4
  counts : Vector (BitVec 24) 6
  strides : Vector (BitVec 40) 6
  cscale : BitVec 32
  cbase : BitVec 32
  deriving DecidableEq, Repr

/-- Where a command stands between its entry and its completion (R305, R308, R312, R272). -/
inductive CmdPhase where
  | waiting
  | active
  | moved
  | stopped (sub : Byte) (va : DWord)
  | hostWait
  deriving DecidableEq, Repr

/-- A TLB entry: its partition, the range or page that it holds (`base` to `limit`), the addresses that it serves (the 64 KiB
sub-page for which it was made, where no lower range lies in between), the physical offset, its permissions (R270, R273). -/
structure TlbEntry where
  part : PartId
  base : Nat
  limit : Nat
  lo : Nat
  hi : Nat
  offset : Nat
  r : Bool
  w : Bool
  x : Bool
  deriving DecidableEq, Repr

/-- A piece of what a command reads: bytes as they were read, with their poison, or bytes that the host has still to answer (R417). -/
inductive Piece where
  | data (bytes : List Byte) (bad : Bool)
  | host (pa n : Nat)
  deriving DecidableEq, Repr

/-- A command in the dependency table: its entry number, the command itself, what was read at its entry (R305), what was
fixed at its issue with the translations made then (R270), the rank of its core in a collective's group (R407), the pieces of the element that waits for the host, the bytes gathered so
far by a KSWAP, and what its status will report (R330). -/
structure Cmd where
  entry : BitVec 6
  op : Instr
  word0 : DWord
  task : Addr
  wid : DWord
  launch : Addr
  addr1 : DWord
  addr2 : DWord
  ctr : DWord
  phase : CmdPhase
  engine : Option Nat
  shape : Option Shape
  counts : List Nat
  total : Nat
  pos : Nat
  windows : List TlbEntry
  rank : Option Nat
  live : List Nat
  asked : List Piece
  buffer : List (Byte × Bool)
  errors : Nat
  firstErr : Nat
  cause : Byte
  sat : Bool
  code : BitVec 16
  kend : BitVec 4
  seq : BitVec 32
  deriving DecidableEq, Repr

/-- A queued notification (R335). -/
structure Notif where
  task : Addr
  word0 : DWord
  stat : DWord
  deriving DecidableEq, Repr

/-- A monitored or swept word (R242, R243, R334): the mode is the wait's condition; `dirty` says that its block has been
written, so that a re-read is due. -/
structure Monitor where
  task : Addr
  va : DWord
  pa : Nat
  mode : BitVec 2
  cmp : DWord
  counter : Bool
  dirty : Bool
  deriving DecidableEq, Repr

/-- A pending asynchronous trap (R357, R359). -/
structure Trap where
  cause : Byte
  sub : Byte
  entry : BitVec 6
  noSnap : Bool
  val : DWord
  val2 : DWord
  task : Addr
  deriving DecidableEq, Repr

/-- An open transaction of a task (R411): its own rank, that of the core on which it began it; the target ranks of the writes that it has
sent; `voted` once XCOMMIT waits. -/
structure OpenTxn where
  task : Addr
  name : TxnName
  rank : Nat
  sent : List Nat
  voted : Bool
  deriving DecidableEq, Repr

/-- A code word that a core has stored to since its last FENCE of the store's class: its fetch may still return what stood there
(R121). -/
structure StaleWord where
  pa : Nat
  cls : BitVec 4
  word : Word
  deriving DecidableEq, Repr

/-- A load of host memory that holds its control core until the host answers (R417). -/
structure HostLoad where
  pa : Nat
  size : Nat
  dest : BitVec 5
  va : DWord
  deriving DecidableEq, Repr

/-- A remote atomic on its way to, or waiting at, its target core (R265). -/
structure RemoteAtomic where
  src : CoreId
  target : CoreId
  pos : KPos
  cluster : ClusterId
  due : Nat
  handle : BitVec 6
  row : Nat
  kind : BitVec 4
  x : Bank 6 DWord
  c : Bank 6 DWord
  dest : BitVec 5
  deriving DecidableEq, Repr

/-- Which team position a core is bound to (R203). -/
structure Binding where
  part : PartId
  launch : Addr
  team : BitVec 32
  pos : Nat
  deriving DecidableEq, Repr

/-! ### A core -/

/-- One core: its control core, its per-core units, its kernel engine, its clusters and its Cistern. `remoteQ` holds the remote atomics that
have reached it, `heldRemotes` its own that wait for an earlier one of their party (R265, R294). -/
structure CoreSt where
  pc : DWord
  g : Bank 5 DWord
  shadowG : Bank 3 DWord
  running : Option Addr
  wid : DWord
  widths : DWord
  widthsOf : Option (PartId × Addr)
  sys : Bool
  skip : Bool
  idle : Bool
  skipArmed : Bool
  tvec : DWord
  tepc : DWord
  tcause : DWord
  tval : DWord
  tval2 : DWord
  tscratch : DWord
  trec : DWord
  ksnap : DWord
  pending : List Trap
  halt : Option (BitVec 2)
  uvec : DWord
  uepc : DWord
  ucause : DWord
  ustat : DWord
  uie : Bool
  inHandler : Bool
  ovf : Bool
  notifs : List Notif
  kcycle : Nat
  freeze : Nat
  kstat : DWord
  kstat2 : DWord
  cerr : DWord
  kb : Bank 2 DWord
  discidx : Byte
  hold : Option (BitVec 6)
  holdSys : Option (BitVec 6)
  stale : List StaleWord
  hostHold : Option HostLoad
  txns : List OpenTxn
  groupSeq : Bank 4 (BitVec 32)
  txnSeq : Bank 4 (BitVec 32)
  monitors : List Monitor
  sweep : List Monitor
  comparators : Bank 3 (DWord × DWord)
  tlb : List TlbEntry
  engTlb : List TlbEntry
  bound : Option Binding
  swapHalted : Bool
  sem : Bank 8 (BitVec 16)
  shapes : Bank 5 (Option Shape)
  handles : Bank 6 (Option Alloc)
  table : List Cmd
  cistern : Memory
  cisPoison : List Nat
  remoteQ : List RemoteAtomic
  heldRemotes : List RemoteAtomic
  store : List (BitVec 12 × KImage)
  storePending : List (BitVec 12 × KImage)
  mergeImages : List MergeImage
  eng : Engine
  clusters : Bank 4 Cluster
  deriving DecidableEq, Repr

/-! ### Teams, launches, partitions -/

/-- A live task of a team: its record, its share (R256), the register that the value it waits for goes to, and, while it
merges into its parent, the view and the block or row at which its merge goes on, the receiving blocks that its merge
poisoned itself, and whether it is held on POOL (R219, R223, R224, R276); the pool slots of its private copies until its merge is
complete, each with the team position whose Cistern it lies in and its pool (R217, R218); whether its share's counter has counted it as
ended (R225, R256). -/
structure TaskInfo where
  task : Addr
  pos : Nat
  dest : BitVec 5
  view : Nat
  unit : Nat
  spoilt : List DWord
  held : Bool
  slots : List (Nat × BitVec 6 × Nat)
  counted : Bool
  deriving DecidableEq, Repr

/-- Where a saved context lies (R371). -/
inductive SavePlace where
  | shadow (die : DieId)
  | slot (n : Nat)
  deriving DecidableEq, Repr

/-- A saved core context (R371). -/
structure Context where
  pos : Nat
  oldCore : CoreId
  place : SavePlace
  bytes : Nat
  core : CoreSt
  deriving DecidableEq, Repr

/-- An admitted team (R203, R250, R251); `joined` when it was admitted into the period that runs (R252). -/
structure Team where
  part : PartId
  launch : Addr
  index : BitVec 32
  prio : BitVec 4
  age : Nat
  size : Nat
  bound : List CoreId
  everBound : Bool
  running : Bool
  halted : Bool
  inPeriod : Bool
  joined : Bool
  hadQuantum : Bool
  ready : List Addr
  tasks : List TaskInfo
  dies : List DieId
  saved : List Context
  deriving DecidableEq, Repr

/-- An admitted launch with its completion-tree records (R256, R257): indices into the partition's area. -/
structure Admitted where
  part : PartId
  launch : Addr
  header : Nat
  positions : List Nat
  teams : Nat
  cores : Nat
  deriving DecidableEq, Repr

/-- A transactional write at its target (R414): the `nth` of its member to this target. -/
structure Staged where
  name : TxnName
  member : Nat
  target : Nat
  nth : Nat
  addr : DWord
  size : BitVec 2
  data : DWord
  deriving DecidableEq, Repr

/-- What a partition knows of a transaction (R410, R413, R414). At the coordinator's: the votes, each with the number of writes its
member sent, the writes acknowledged, and the members whose targets have applied or discarded. At every one: what dooms it, its
decision and that decision's place among those that reached the partition, the writes taken here (member and target), and the paths
and links that have carried it. A write counts as acknowledged once: by its member, its target and its place among that member's there. -/
structure TxnSt where
  name : TxnName
  votes : List (Nat × Nat)
  acked : List (Nat × Nat × Nat)
  doom : Option Byte
  decision : Option Bool
  order : Nat
  taken : List (Nat × Nat)
  done : List Nat
  finished : Bool
  paths : List (BitVec 16 × BitVec 4)
  links : List Link
  deriving DecidableEq, Repr

/-- A write of the device itself that waits for a frame (R276): bytes at a virtual address, in a live record or not, or the add to the
completion counter at an address, with its launch (R256). -/
inductive HeldWrite where
  | bytes (va : Nat) (bs : List Byte) (live : Bool)
  | count (va : Nat) (launch : Addr)
  deriving DecidableEq, Repr

/-- The registers of one partition (R248, R253, R257, R273, R356, R400) with its launch queues and staging area; `begun` and
`joined` count the teams that its swap period began with and those admitted into it since (R252), `decided` the decisions that
have reached it (R414), `held` the device's own writes that wait for a frame, oldest first (R276). -/
structure PartSt where
  ptroot : DWord
  rtbase : DWord
  pool : DWord
  snapStatus : DWord
  pctl : DWord
  quantum : DWord
  ctbase : DWord
  ctsize : DWord
  swapbase : DWord
  swapslots : DWord
  cgroup : DWord
  xstage : DWord
  xlimit : DWord
  xtimeout : DWord
  begun : Nat
  joined : Nat
  queues : Bank 4 (List Addr)
  ctUsed : List Nat
  incoming : List Staged
  staging : List Staged
  txns : List TxnSt
  decided : Nat
  held : List HeldWrite
  deriving DecidableEq, Repr

/-! ### Dies, links, fabric, host -/

/-- A request of another die that waits at a Wellhead for a calendar slot (R279, R397): its block of the die, and its flit. -/
structure WellReq where
  block : Nat
  write : Bool
  flit : Flit
  deriving DecidableEq, Repr

/-- The registers and background state of one die (R283, R388 to R390, R400). -/
structure DieSt where
  refctl : DWord
  refX : Bank 7 Word
  owed : List (BitVec 7)
  telbase : DWord
  telhead : DWord
  scrub : DWord
  scrubRead : Nat
  scrubFixed : Nat
  scrubBad : Nat
  scrubPeriod : Nat
  guardband : Int
  pcap : DWord
  queue : List WellReq
  ports : List (BitVec 20 × BitVec 512 × Bool)
  deriving DecidableEq, Repr

/-- What a flit is to the sequence of its path: one of the numbered flits, an acknowledge or a replay request, whose sequence is that of the
flit it answers, or a marker, whose sequence is that of the flit before it (R396). -/
inductive FlitKind where
  | data | answer | marker
  deriving DecidableEq, Repr

/-- A flit that has failed its CRC and has not been taken since: its sequence, its class, its kind, and its place among those that have
failed (R302, R385). -/
structure FailedFlit where
  seq : BitVec 24
  cls : BitVec 4
  kind : FlitKind
  since : Nat
  deriving DecidableEq, Repr

/-- One link: the sender's next sequence number and replay buffer; the last sequence received; the flits that have failed and how
many replays have failed; replays since the last report; the markers it holds; the acknowledges and replay requests sent on it, oldest
first (R385, R395, R396, R402). -/
structure LinkSt where
  link : Link
  nextSeq : BitVec 24
  received : BitVec 24
  buffer : List Flit
  failing : List FailedFlit
  fails : Nat
  retired : Bool
  replays : Nat
  markers : List Flit
  answers : List Flit
  deriving DecidableEq, Repr

/-- One path to a peer device (R401): each unacknowledged packet with the retransmissions it has had. -/
structure PathSt where
  peer : BitVec 16
  path : BitVec 4
  nextSeq : BitVec 32
  got : List (BitVec 32)
  unacked : List (Packet × Nat)
  replays : Nat
  retired : Bool
  deriving DecidableEq, Repr

/-- A collective in progress (R407, R409): the contributions read so far, by rank. -/
structure CollSt where
  part : PartId
  group : BitVec 4
  seq : BitVec 32
  op : BitVec 4
  comb : BitVec 4
  n : Nat
  esize : Nat
  members : Nat
  given : List (Nat × List (Byte × Bool))
  mismatch : Bool
  unreachable : Bool
  deriving DecidableEq, Repr

/-- What the device sends to the host: a store to host memory, a read request, an answer to a host read or its failure, an interrupt, the
loader's report to the party that asked for a load (R432). -/
inductive HostMsg where
  | store (pa : Nat) (bytes : List Byte)
  | readRequest (who : HostReader) (pa : Nat) (len : Nat)
  | readAnswer (off : DWord) (bytes : List Byte) (failed : Bool)
  | interrupt (bit : Nat)
  | loadFailed (part : PartId) (object : Addr)
  deriving DecidableEq, Repr

/-- The Host Link's registers (R416, R418), the recovery state (R421), and the flash (R420): none is the image written at
manufacture. -/
structure HostSt where
  dstat : Bank 4 DWord
  istat : DWord
  ien : DWord
  rctl : DWord
  attest : DWord
  nonce : BitVec 256
  report : List Byte
  sig : List Byte
  recovery : Bool
  recBuf : Memory
  flash : Option (List Byte)
  hwin : Bank 4 DWord
  devid : DWord
  fabtab : DWord
  out : List HostMsg
  deriving DecidableEq, Repr

/-! ### Turns -/

/-- Who moves next: a control core executes its next instruction, an event of the device happens, a TLB takes or drops an
entry (R273). The turns are the model's own (log 1). -/
inductive Turn where
  | control (c : CoreId)
  | event (i : Instr)
  | tlbFill (c : CoreId) (engine : Bool) (va : Addr)
  | tlbDrop (c : CoreId) (engine : Bool) (n : Nat)
  deriving DecidableEq, Repr

/-- The whole device. `agenda`, `tick` and `active` are the model's own (log 1, log 2): the turns to come, the counter of
free values, and the core whose turn it is; `resets` counts the device's resets, on which its epochs depend (R278). `tags`, `poison`
and `sizes` are the side-bands of memory blocks (R282),
`meshMsgs` the remote atomics between dies, `cycle` the one clock of R2 that csr.cycle shows. -/
structure State where
  mem : Memory
  tags : List Nat
  poison : List Nat
  sizes : List (Nat × BitVec 2)
  cores : Bank 7 CoreSt
  parts : Bank 4 PartSt
  pmaps : Bank 5 DWord
  dies : Bank 2 DieSt
  teams : List Team
  launches : List Admitted
  links : List LinkSt
  meshMsgs : List RemoteAtomic
  paths : List PathSt
  fabOut : List Packet
  colls : List CollSt
  host : HostSt
  cycle : Nat
  resets : Nat
  agenda : List Turn
  tick : Nat
  active : CoreId
  deriving DecidableEq, Repr

/-- Why a step stops. -/
inductive Fault where
  /-- Raised by no meaning: the spec gives every instruction and event an effect or a trap, and the model takes it. Safe. -/
  | unreachable
  deriving DecidableEq, Repr

/-- Why an instruction has no meaning. -/
inductive Refusal where
  /-- Raised only by an arm of exec for an instruction the model gives no meaning to; none is left. Safe. -/
  | notModelled (mnemonic : String)
  deriving DecidableEq, Repr

/-! ### Reset -/

def VReg.reset : VReg := ⟨Bank.fill 0, 0⟩
def TReg.reset : TReg := ⟨Bank.fill 0, Bank.fill 0, 0⟩
def AccRow.reset : AccRow := ⟨Bank.fill ⟨0, .finite⟩, -32, false, false, false, 0xFF800000⟩
def BCol.reset : BCol := ⟨0, 0, 0⟩
def Transposer.reset : Transposer := ⟨Bank.fill (Bank.fill 0), 0, 0, 0⟩
def Bound.reset : Bound := ⟨0, false, 0x7F800000, 0⟩

/-- A cluster with the kernel-start values of R40 and R171 (less a0 and a1) and the reset values of R41 and R42. -/
def Cluster.reset : Cluster where
  a := Bank.fill 0
  v := Bank.fill VReg.reset
  t := Bank.fill TReg.reset
  acc := Bank.fill AccRow.reset
  p := (Bank.fill false).write 0 true
  q := (Bank.fill 0).write 0 (-1)
  m := Bank.fill (-1)
  lc := Vector.replicate 6 0
  st := Bank.fill 0x7F
  cfg := 0x7F80000000000004
  resident := Bank.fill BCol.reset
  shadow := Bank.fill BCol.reset
  tr := Transposer.reset
  tb := Bound.reset

def Engine.reset : Engine := ⟨none, none, 0, none, 0, 0, 0, 0, [], ⟨0, 0, 0, 0⟩, [], [], []⟩

/-- A core after reset (R31, R356, R422): no task, every CSR at its reset value. -/
def CoreSt.reset : CoreSt where
  pc := 0
  g := Bank.fill 0
  shadowG := Bank.fill 0
  running := none
  wid := 0
  widths := 0
  widthsOf := none
  sys := false
  skip := false
  idle := false
  skipArmed := false
  tvec := 0
  tepc := 0
  tcause := 0
  tval := 0
  tval2 := 0
  tscratch := 0
  trec := 0
  ksnap := 0
  pending := []
  halt := none
  uvec := 0
  uepc := 0
  ucause := 0
  ustat := 0
  uie := false
  inHandler := false
  ovf := false
  notifs := []
  kcycle := 0
  freeze := 0
  kstat := 0
  kstat2 := 0
  cerr := 0
  kb := Bank.fill 0
  discidx := 0
  hold := none
  holdSys := none
  stale := []
  hostHold := none
  txns := []
  groupSeq := Bank.fill 0
  txnSeq := Bank.fill 0
  monitors := []
  sweep := []
  comparators := Bank.fill (0, 0)
  tlb := []
  engTlb := []
  bound := none
  swapHalted := false
  sem := Bank.fill 0
  shapes := Bank.fill none
  handles := Bank.fill none
  table := []
  cistern := ⟨[]⟩
  cisPoison := []
  remoteQ := []
  heldRemotes := []
  store := []
  storePending := []
  mergeImages := []
  eng := Engine.reset
  clusters := Bank.fill Cluster.reset

/-- A partition's registers after reset. -/
def PartSt.reset : PartSt where
  ptroot := 0
  rtbase := 0
  pool := 0
  snapStatus := 0
  pctl := 16
  quantum := 0x0027AC40
  ctbase := 0
  ctsize := 0
  swapbase := 0
  swapslots := 0
  cgroup := 0
  xstage := 0
  xlimit := 0
  xtimeout := 0x00C65D40
  begun := 0
  joined := 0
  queues := Bank.fill []
  ctUsed := []
  incoming := []
  staging := []
  txns := []
  decided := 0
  held := []

/-- A die's registers after reset (R283, R390). -/
def DieSt.reset : DieSt where
  refctl := 10
  refX := Bank.fill 0
  owed := []
  telbase := 0
  telhead := 0
  scrub := 86400
  scrubRead := 0
  scrubFixed := 0
  scrubBad := 0
  scrubPeriod := 0
  guardband := 0
  pcap := 0
  queue := []
  ports := []

/-- The host page, windows and flash after reset (R416, R418). -/
def HostSt.reset : HostSt where
  dstat := Bank.fill 0
  istat := 0
  ien := 0
  rctl := 0
  attest := 0
  nonce := 0
  report := List.replicate 96 0
  sig := List.replicate 2420 0
  recovery := false
  recBuf := ⟨[]⟩
  flash := none
  hwin := Bank.fill 0
  devid := 0
  fabtab := 0
  out := []

/-- The device right after reset (R422), ready for a first launch: memory zero (R420), every core idle in partition 0 (R248). -/
def State.reset : State where
  mem := ⟨[]⟩
  tags := []
  poison := []
  sizes := []
  cores := Bank.fill CoreSt.reset
  parts := Bank.fill PartSt.reset
  pmaps := ((Bank.fill 0).write 0 (-1)).write 1 (-1)
  dies := Bank.fill DieSt.reset
  teams := []
  launches := []
  links := []
  meshMsgs := []
  paths := []
  fabOut := []
  colls := []
  host := HostSt.reset
  cycle := 0
  resets := 0
  agenda := []
  tick := 0
  active := 0

end Sys2Proof.Machine
end

