-- ==== Sys2Proof/Machine/Fp.lean ====
section
/-! DEFINITION. Exact reals, the floating-point formats, rounding and flags (R56 to R59, R74, R75), B4 codes (R62 to R64),
anchored accumulation (R67 to R73). -/

namespace Sys2Proof.Machine

/-- The value of an element: NaN (signalling or quiet), an infinity, or (−1)^neg × m × 2^e with signed zeros. -/
inductive Fv where
  | nan (signalling : Bool)
  | inf (neg : Bool)
  | num (neg : Bool) (m : Nat) (e : Int)
  deriving DecidableEq, Repr

/-- A floating-point format (R56): field widths, bias, whether it has infinities. -/
structure Fmt where
  ebits : Nat
  fbits : Nat
  bias : Nat
  hasInf : Bool
  deriving DecidableEq, Repr

def Fmt.fp16 : Fmt := ⟨5, 10, 15, true⟩
def Fmt.bf16 : Fmt := ⟨8, 7, 127, true⟩
def Fmt.fp32 : Fmt := ⟨8, 23, 127, true⟩
def Fmt.fp64 : Fmt := ⟨11, 52, 1023, true⟩
def Fmt.e4m3 : Fmt := ⟨4, 3, 7, false⟩
def Fmt.e5m2 : Fmt := ⟨5, 2, 15, true⟩

/-- The floating-point format that a tag names (R52). -/
def Fmt.ofTag (t : Tag) : Option Fmt :=
  match t with
  | 6#5 => some .fp16
  | 7#5 => some .bf16
  | 8#5 => some .fp32
  | 9#5 => some .fp64
  | 10#5 => some .e4m3
  | 11#5 => some .e5m2
  | _ => none

def Fmt.width (f : Fmt) : Nat := 1 + f.ebits + f.fbits
/-- The greatest biased exponent that holds finite values. -/
def Fmt.maxExp (f : Fmt) : Nat := if f.hasInf then 2 ^ f.ebits - 2 else 2 ^ f.ebits - 1
/-- The largest finite magnitude (R56): E4M3 gives its all-ones pattern to NaN (R57). -/
def Fmt.maxFinite (f : Fmt) : Nat := f.maxExp * 2 ^ f.fbits + (2 ^ f.fbits - (if f.hasInf then 1 else 2))
def Fmt.signBit (f : Fmt) (neg : Bool) : Nat := if neg then 2 ^ (f.ebits + f.fbits) else 0
/-- Infinity of a sign; in E4M3, which has none, the NaN pattern. -/
def Fmt.infinity (f : Fmt) (neg : Bool) : Nat :=
  if f.hasInf then f.signBit neg + (2 ^ f.ebits - 1) * 2 ^ f.fbits else 0x7F
/-- The NaN that the device writes (R56, R59). -/
def Fmt.nan (f : Fmt) : Nat :=
  if f.hasInf then (2 ^ f.ebits - 1) * 2 ^ f.fbits + 2 ^ (f.fbits - 1) else 0x7F

/-- `to_real` of R27 on a bit pattern: under flush a subnormal reads as zero of its sign (R75). -/
def Fmt.read (f : Fmt) (ftz : Bool) (x : Nat) : Fv :=
  let neg := bitOf x (f.ebits + f.fbits)
  let e := field x f.fbits f.ebits
  let m := field x 0 f.fbits
  if f.hasInf && e == 2 ^ f.ebits - 1 then
    if m == 0 then .inf neg else .nan (!bitOf m (f.fbits - 1))
  else if !f.hasInf && e == 2 ^ f.ebits - 1 && m == 2 ^ f.fbits - 1 then .nan false
  else if e == 0 then .num neg (if ftz then 0 else m) (1 - (f.bias + f.fbits : Int))
  else .num neg (2 ^ f.fbits + m) (e - (f.bias + f.fbits : Int))

/-- The sticky flags that arithmetic raises: the five of R41, and SAT and INEXACT of R33. -/
structure FpFlags where
  nv : Bool := false
  dz : Bool := false
  of : Bool := false
  uf : Bool := false
  nx : Bool := false
  sat : Bool := false
  inexact : Bool := false
  deriving DecidableEq, Repr

def FpFlags.or (a b : FpFlags) : FpFlags :=
  ⟨a.nv || b.nv, a.dz || b.dz, a.of || b.of, a.uf || b.uf, a.nx || b.nx, a.sat || b.sat, a.inexact || b.inexact⟩

/-- cfg<20:16>: NV DZ OF UF NX (R41). -/
def FpFlags.cfgBits (f : FpFlags) : BitVec 5 :=
  BitVec.ofBool f.nv ++ BitVec.ofBool f.dz ++ BitVec.ofBool f.of ++ BitVec.ofBool f.uf ++ BitVec.ofBool f.nx

/-- csr.kstat<39:33>: the five, then SAT, INEXACT (R33). -/
def FpFlags.kstatBits (f : FpFlags) : BitVec 7 := f.cfgBits ++ BitVec.ofBool f.sat ++ BitVec.ofBool f.inexact

/-- A rounding mode of cfg.rm: 00 RNE, 01 RTZ, 10 RUP, 11 RDN (R41). -/
abbrev Rm := BitVec 2

/-- Whether a magnitude `n + rest` is rounded away from zero. `rest` stands against `half` of a unit. -/
def roundAway (rm : Rm) (neg : Bool) (n rest half : Nat) : Bool :=
  match rm with
  | 0#2 => half < rest || (rest == half && n % 2 == 1 && rest != 0)
  | 1#2 => false
  | 2#2 => !neg && rest != 0
  | _ => neg && rest != 0

/-- (−1)^neg × m × 2^e as an integer by the mode, and whether it was inexact. -/
def roundInt (rm : Rm) (neg : Bool) (m : Nat) (e : Int) : Int × Bool :=
  if 0 ≤ e then
    let n : Nat := m * 2 ^ e.toNat
    (if neg then -(n : Int) else n, false)
  else
    let k := (-e).toNat
    let n := m / 2 ^ k
    let rest := m % 2 ^ k
    let r := if roundAway rm neg n rest (2 ^ (k - 1)) then n + 1 else n
    (if neg then -(r : Int) else r, rest != 0)

/-- How a rounding comes out: the magnitude's bits (no sign), or beyond the format toward ∞ or toward the largest finite. -/
inductive Rounded where
  | mag (x : Nat)
  | over (toInf : Bool)
  deriving DecidableEq, Repr

/-- Round m × 2^e (m ≠ 0) to format `f` (R27, R74): the outcome and the flags UF, NX, OF; flush as R75. -/
def Fmt.roundMag (f : Fmt) (rm : Rm) (ftz neg : Bool) (m : Nat) (e : Int) : Rounded × FpFlags :=
  let top : Int := e + (bitLength m : Int) - 1
  let emin : Int := 1 - (f.bias : Int)
  let unit (q : Int) : Nat × Bool :=
    let d := q - e
    if d ≤ 0 then (m * 2 ^ (-d).toNat, false)
    else
      let k := d.toNat
      let n := m / 2 ^ k
      let rest := m % 2 ^ k
      (if roundAway rm neg n rest (2 ^ (k - 1)) then n + 1 else n, rest != 0)
  let q := max (top - f.fbits) (emin - f.fbits)
  let (n, inexact) := unit q
  let tiny := top < emin && (unit (top - f.fbits)).1 < 2 ^ (f.fbits + (emin - top).toNat)
  -- n × 2^q as a biased exponent and fraction: adding them carries a rounded-up significand into the exponent
  let mag := if q = emin - f.fbits then n else ((q + f.bias + f.fbits - 1) * (2 ^ f.fbits : Nat) + n).toNat
  if f.maxFinite < mag then
    let toInf := match rm with
      | 0#2 => true
      | 1#2 => false
      | 2#2 => !neg
      | _ => neg
    (.over toInf, { of := true, nx := true })
  else if ftz && n < 2 ^ f.fbits && q = emin - f.fbits then
    (.mag 0, { uf := true, nx := true })
  else (.mag mag, { nx := inexact, uf := tiny && inexact })

/-- `round_fp` of R27 as vector arithmetic delivers it (R74): overflow gives ∞ or the largest finite value. -/
def Fmt.write (f : Fmt) (rm : Rm) (ftz : Bool) : Fv → Nat × FpFlags
  | .nan _ => (f.nan, {})
  | .inf neg => (f.infinity neg, {})
  | .num neg m e =>
    if m = 0 then (f.signBit neg, {})
    else
      match f.roundMag rm ftz neg m e with
      | (.mag x, fl) => (f.signBit neg + x, fl)
      | (.over toInf, fl) => (if toInf then f.infinity neg else f.signBit neg + f.maxFinite, fl)

/-- A drain or conversion into a format (R72, R76): with `sat` an overflow or an infinity becomes the largest finite, and
SAT is set. -/
def Fmt.convert (f : Fmt) (rm : Rm) (ftz sat : Bool) : Fv → Nat × FpFlags
  | .nan sig => (f.nan, { nv := sig })
  | .inf neg => if sat then (f.signBit neg + f.maxFinite, { sat := true }) else (f.infinity neg, {})
  | .num neg m e =>
    if m = 0 then (f.signBit neg, {})
    else
      match f.roundMag rm ftz neg m e with
      | (.mag x, fl) => (f.signBit neg + x, fl)
      | (.over toInf, fl) =>
        if sat then (f.signBit neg + f.maxFinite, { fl with sat := true })
        else (if toInf then f.infinity neg else f.signBit neg + f.maxFinite, fl)

/-! ### Exact operations -/

def Fv.neg : Fv → Fv
  | .nan s => .nan s
  | .inf n => .inf (!n)
  | .num n m e => .num (!n) m e

/-- The value times 2^k. -/
def Fv.scale (k : Int) : Fv → Fv
  | .num n m e => .num n m (e + k)
  | v => v

def Fv.isNan : Fv → Bool
  | .nan _ => true
  | _ => false
def Fv.isSig : Fv → Bool
  | .nan s => s
  | _ => false

/-- The signed integer m at exponent `e`, for a common exponent at or below the value's own. -/
def alignTo (neg : Bool) (m : Nat) (e c : Int) : Int :=
  let n : Nat := m * 2 ^ (e - c).toNat
  if neg then -(n : Int) else n

/-- The value of an integer at an exponent. -/
def Fv.ofInt (x : Int) (e : Int) : Fv := .num (decide (x < 0)) x.natAbs e

/-- a + b, exact; the sign of an exact zero sum is + except under RDN (IEEE 754). -/
def Fv.add (rm : Rm) : Fv → Fv → Fv × FpFlags
  | .nan s, b => (.nan false, { nv := s || b.isSig })
  | a, .nan s => (.nan false, { nv := s || a.isSig })
  | .inf s, .inf t => if s == t then (.inf s, {}) else (.nan false, { nv := true })
  | .inf s, .num _ _ _ => (.inf s, {})
  | .num _ _ _, .inf t => (.inf t, {})
  | .num s m e, .num t n f =>
    if m = 0 && n = 0 then (.num (if s == t then s else rm == 3) 0 0, {})
    else
      let c := min e f
      let x := alignTo s m e c + alignTo t n f c
      (if x = 0 then .num (rm == 3) 0 0 else .ofInt x c, {})

/-- a × b, exact. -/
def Fv.mul : Fv → Fv → Fv × FpFlags
  | .nan s, b => (.nan false, { nv := s || b.isSig })
  | a, .nan s => (.nan false, { nv := s || a.isSig })
  | .inf s, .inf t => (.inf (s != t), {})
  | .inf s, .num t n _ => if n = 0 then (.nan false, { nv := true }) else (.inf (s != t), {})
  | .num s m _, .inf t => if m = 0 then (.nan false, { nv := true }) else (.inf (s != t), {})
  | .num s m e, .num t n f => (.num (s != t) (m * n) (e + f), {})

/-- a × b + d with one rounding to come (R149). A signalling NaN anywhere raises NV. -/
def Fv.fma (rm : Rm) (a b d : Fv) : Fv × FpFlags :=
  let (p, f1) := a.mul b
  let (r, f2) := p.add rm d
  (r, f1.or f2)

/-- a / b (R149), jammed: the quotient has more bits than any format keeps, its last bit sticky. -/
def Fv.div : Fv → Fv → Fv × FpFlags
  | .nan s, b => (.nan false, { nv := s || b.isSig })
  | a, .nan s => (.nan false, { nv := s || a.isSig })
  | .inf _, .inf _ => (.nan false, { nv := true })
  | .inf s, .num t _ _ => (.inf (s != t), {})
  | .num s _ _, .inf t => (.num (s != t) 0 0, {})
  | .num s m e, .num t n f =>
    if n = 0 then
      if m = 0 then (.nan false, { nv := true }) else (.inf (s != t), { dz := true })
    else
      let k : Nat := 128
      let x := m * 2 ^ k
      (.num (s != t) (2 * (x / n) + (if x % n = 0 then 0 else 1)) (e - f - (k : Int) - 1), {})

/-- √a (R149), jammed as for division. -/
def Fv.sqrt : Fv → Fv × FpFlags
  | .nan s => (.nan false, { nv := s })
  | .inf neg => if neg then (.nan false, { nv := true }) else (.inf false, {})
  | .num neg m e =>
    if m = 0 then (.num neg 0 0, {})
    else if neg then (.nan false, { nv := true })
    else
      let (m, e) := if e % 2 = 0 then (m, e) else (2 * m, e - 1)
      let k : Nat := 64
      let x := m * 2 ^ (2 * k)
      let r := isqrt 100 0 x
      (.num false (2 * r + (if r * r = x then 0 else 1)) (e / 2 - (k : Int) - 1), {})

/-- The order of two values that are not NaN. -/
def Fv.compare : Fv → Fv → Ordering
  | .inf s, .inf t => if s == t then .eq else if s then .lt else .gt
  | .inf s, _ => if s then .lt else .gt
  | _, .inf t => if t then .gt else .lt
  | .num s m e, .num t n f => let c := min e f; Ord.compare (alignTo s m e c) (alignTo t n f c)
  | _, _ => .eq

def Fv.lt (a b : Fv) : Bool := a.compare b == .lt
def Fv.le (a b : Fv) : Bool := a.compare b != .gt

/-- VMIN and VMAX (R149, R150): a NaN operand gives NaN, and −0 is less than +0. -/
def Fv.minmax (isMax : Bool) (a b : Fv) : Fv × FpFlags :=
  if a.isNan || b.isNan then (.nan false, { nv := a.isSig || b.isSig })
  else
    let less := match a.compare b with
      | .lt => true
      | .gt => false
      | .eq => match a, b with
        | .num s _ _, .num t _ _ => s && !t
        | _, _ => false
    (if less == isMax then b else a, {})

/-! ### The 4-bit block family -/

/-- Eight times a code's value (R63), by type. -/
def codeTimes8 (type : BitVec 2) (code : Nat) : Int :=
  let mag : List Nat := match type with
    | 1#2 => [0, 4, 8, 12, 16, 24, 32, 48]
    | 2#2 => [0, 1, 2, 4, 8, 16, 32, 64]
    | _ => [0, 8, 16, 24, 32, 48, 64, 96]
  if type = 0 then 8 * toSigned 4 code
  else
    let m : Int := ((nth mag (code % 8) 0 : Nat) : Int)
    if code % 16 < 8 then m else -m

/-- The element of a block (R64): code value × 2^(st[idx] − 127) × 2^−sub; a scale of 0xFF is NaN. Under flush an element
below 2^−126 reads as zero of its sign (R75). -/
def b4Value (st : Bank 4 Byte) (ftz : Bool) (scale : Byte) (code : Nat) : Fv :=
  let s := st.read (scale.extractLsb' 2 4)
  if s == 0xFF then .nan false
  else
    let x := codeTimes8 (scale.extractLsb' 6 2) code
    let e : Int := (s.toNat : Int) - 127 - (scale.extractLsb' 0 2).toNat - 3
    if ftz && x ≠ 0 && (bitLength x.natAbs : Int) + e ≤ -126 then .num (decide (x < 0)) 0 0
    else .ofInt x e

/-! ### Anchored accumulation -/

/-- The largest finite sum, 2^63 − 2 (R67). -/
def ancMax : Int := 2 ^ 63 - 2

/-- The join of special states (R69). -/
def Special.join : Special → Special → Special
  | .finite, y => y
  | x, .finite => x
  | .posInf, .posInf => .posInf
  | .negInf, .negInf => .negInf
  | _, _ => .nan

/-- The ANC form of an element (R68). -/
def AccElem.anc (x : AccElem) : DWord :=
  match x.state with
  | .finite => x.sum
  | .posInf => 0x7FFFFFFFFFFFFFFF
  | .negInf => 0x8000000000000001
  | .nan => 0x8000000000000000

/-- The element that an ANC value stands for (R68); a special value carries no sum. -/
def ofAnc (x : DWord) : AccElem :=
  if x == 0x8000000000000000 then ⟨0, .nan⟩
  else if x == 0x8000000000000001 then ⟨0, .negInf⟩
  else if x == 0x7FFFFFFFFFFFFFFF then ⟨0, .posInf⟩
  else ⟨x, .finite⟩

/-- Add an exact integer into an element's sum, clamping (R70). -/
def AccElem.addInt (x : AccElem) (q : Int) : AccElem × Bool :=
  let (s, sat) := saturate (x.sum.toInt + q) (-ancMax) ancMax
  (⟨BitVec.ofInt 64 s, x.state⟩, sat)

/-- Anchored addition of one element into another (R70, last paragraph); whether it clamped. -/
def AccElem.add (x y : AccElem) : AccElem × Bool :=
  match y.state with
  | .finite => x.addInt y.sum.toInt
  | s => (⟨x.sum, x.state.join s⟩, false)

/-- The anchored add of two ANC values, as atomics, scatter-add, collectives and meetings use it (R70). -/
def ancAdd (x y : DWord) : DWord × Bool :=
  let (r, sat) := (ofAnc x).add (ofAnc y)
  (r.anc, sat)

/-- A product on the anchor grid (R70): truncated toward zero, and whether it was exact. -/
def Fv.onGrid (anchor : Int) : Fv → Product
  | .nan _ => .special .nan
  | .inf neg => .special (if neg then .negInf else .posInf)
  | .num neg m e =>
    let (q, dropped) := truncShift m (e - anchor)
    .fin (if neg then -(q : Int) else q) (!dropped)

/-- Add one product into an element (R70): the element, INEXACT, SAT. -/
def AccElem.addProduct (x : AccElem) : Product → AccElem × Bool × Bool
  | .special s => (⟨x.sum, x.state.join s⟩, false, false)
  | .fin q exact => let (y, sat) := x.addInt q; (y, !exact, sat)

/-- The value of an element under an anchor (R67). -/
def AccElem.value (x : AccElem) (anchor : Int) : Fv :=
  match x.state with
  | .finite => .ofInt x.sum.toInt anchor
  | .posInf => .inf false
  | .negInf => .inf true
  | .nan => .nan false

/-- The range of an integer format: I8, U8, I16, I32, I64 (R55). -/
def intRange (t : Tag) : Int × Int :=
  match t with
  | 1#5 => (-128, 127)
  | 2#5 => (0, 255)
  | 3#5 => (-32768, 32767)
  | 4#5 => (-2147483648, 2147483647)
  | _ => (-9223372036854775808, 9223372036854775807)

/-- A drain (R72, R73): the bits, and the flags with `sat` for the row's SAT. -/
def AccElem.drain (x : AccElem) (anchor : Int) (t : Tag) (rm : Rm) (ftz sat : Bool) : Nat × FpFlags :=
  match Fmt.ofTag t with
  | some f =>
    match x.state, x.sum with
    | .finite, 0#64 => (0, {})
    | _, _ => f.convert rm ftz sat (x.value anchor)
  | none =>
    if t == 13 then (x.anc.toNat, {})
    else
      let (lo, hi) := intRange t
      let w := if t == 1 || t == 2 then 8 else if t == 3 then 16 else 32
      match x.value anchor with
      | .nan _ => (0, { nv := true })
      | .inf neg => (wrap w (if neg then lo else hi), { sat := true })
      | .num neg m e =>
        let (n, inexact) := roundInt rm neg m e
        let (n, clamped) := saturate n lo hi
        (wrap w n, { nx := inexact, sat := clamped })

end Sys2Proof.Machine
end

