-- ==== Sys2Proof/Machine/Mem.lean ====
section
/-! DEFINITION. Bytes by address: the one place where a memory is read and written. -/

namespace Sys2Proof.Machine

/-- The byte at an address in a list of cells; an unlisted address reads as 0. -/
def readCells : List Host.Cell → Nat → Byte
  | [], _ => 0
  | (k, x) :: rest, a => if k = a then x else readCells rest a

/-- The cells with one byte replaced, addresses kept rising and no zero listed. -/
def writeCells : List Host.Cell → Nat → Byte → List Host.Cell
  | [], a, x => if x = 0 then [] else [(a, x)]
  | (k, y) :: rest, a, x =>
    if k = a then (if x = 0 then writeCells rest a 0 else (a, x) :: rest)
    else if x ≠ 0 ∧ a < k then (a, x) :: (k, y) :: rest
    else (k, y) :: writeCells rest a x

/-- Addresses strictly rising from a bound on, and no listed zero. -/
def cellsOk : Nat → List Host.Cell → Bool
  | _, [] => true
  | lo, (k, x) :: rest => decide (lo ≤ k) && x != 0 && cellsOk (k + 1) rest

/-- The canonical form of a memory. -/
def Memory.wf (m : Memory) : Bool := cellsOk 0 m.cells

def Memory.readByte (m : Memory) (a : Nat) : Byte := readCells m.cells a
def Memory.writeByte (m : Memory) (a : Nat) (x : Byte) : Memory := ⟨writeCells m.cells a x⟩

/-- `n` bytes from an address up. -/
def Memory.read (m : Memory) (a : Nat) : Nat → List Byte
  | 0 => []
  | n + 1 => m.readByte a :: m.read (a + 1) n

/-- Bytes written from an address up. -/
def Memory.write (m : Memory) (a : Nat) : List Byte → Memory
  | [] => m
  | x :: xs => (m.writeByte a x).write (a + 1) xs

/-- A little-endian number of `n` bytes (R3). -/
def Memory.readNat (m : Memory) (a n : Nat) : Nat := ofBytesLE (m.read a n)
def Memory.writeNat (m : Memory) (a n x : Nat) : Memory := m.write a (bytesLE n x)

/-- A sorted list of block or unit numbers without repeats. -/
def insertNat (x : Nat) : List Nat → List Nat
  | [] => [x]
  | y :: ys => if x < y then x :: y :: ys else if x = y then y :: ys else y :: insertNat x ys

def removeNat (x : Nat) (xs : List Nat) : List Nat := xs.filter (· != x)

/-- A set of blocks with one put in or taken out. -/
def setNat (x : Nat) (on : Bool) (xs : List Nat) : List Nat := if on then insertNat x xs else removeNat x xs

end Sys2Proof.Machine
end

