-- ==== Sys2Proof/Machine/Operands.lean ====
section
/-! DEFINITION. Operands of slot operations: predicates, scalar and vector registers with their tags, elements, Cistern
views, and the record of what a slot operation does when it issues. -/

namespace Sys2Proof.Machine

/-- The kinds of kernel fault (R362). -/
def kFormat : Byte := 1
def kCistern : Byte := 2
def kLoop : Byte := 3
def kRate : Byte := 4
def kBundle : Byte := 5
def kDiverge : Byte := 6
def kSwitch : Byte := 7
def kPoison : Byte := 8
def kRegErr : Byte := 9

/-- A result that falls due `lat` kc after the issue; `slot` is the number of the slot that gives it. -/
structure Eff where
  lat : Nat
  cluster : ClusterId
  what : RegWrite
  arrive : Option (BitVec 2) := none
  slot : BitVec 3 := 0

/-- A write of one Cistern unit at issue: the bytes that the mask marks. -/
structure CisWrite where
  unit : Nat
  mask : BitVec 64
  data : BitVec 512

/-- How a slot A operation steers the kernel. -/
inductive Ctl where
  | branch (target : Nat)
  | loop (level : BitVec 3) (trip len stages : Nat)
  | lock (banks : List Nat) (bundles : Nat)
  | halt
  | ktrap (code : BitVec 16)

/-- What one slot operation does when its bundle issues: results to come, changes made at once, Cistern writes,
variable-latency requests, flags by cluster, rate groups used, home units accessed, control. `wait` is LWAIT's limit. -/
structure Issue where
  effs : List Eff := []
  now : List (ClusterId × (Cluster → Cluster)) := []
  cis : List CisWrite := []
  far : List FarReq := []
  remote : List RemoteAtomic := []
  flags : List (ClusterId × FpFlags) := []
  rates : List (Slot × BitVec 2) := []
  units : List Nat := []
  ctl : List Ctl := []
  wait : Option Nat := none
  clamp : Bool := false
  subst : Bool := false

/-- What an operation does, as its slot's. -/
def Issue.inSlot (x : Issue) (n : BitVec 3) : Issue := { x with effs := x.effs.map fun e => { e with slot := n } }

def Issue.add (x y : Issue) : Issue where
  effs := x.effs ++ y.effs
  now := x.now ++ y.now
  cis := x.cis ++ y.cis
  far := x.far ++ y.far
  remote := x.remote ++ y.remote
  flags := x.flags ++ y.flags
  rates := x.rates ++ y.rates
  units := x.units ++ y.units
  ctl := x.ctl ++ y.ctl
  wait := match x.wait with
    | some n => some n
    | none => y.wait
  clamp := x.clamp || y.clamp
  subst := x.subst || y.subst

/-- What a slot operation sees: its core as every write due by now has left it, its kernel, its header fields, the core's
number, the cores of its partition and the clock of its rate limits. -/
structure Ctx where
  core : CoreSt
  run : KernelRun
  pos : KPos
  h : SlotHdr
  me : CoreId
  peers : List CoreId
  clock : Nat

/-- When a slot issues in a cc: later cc and later slots have larger stamps (R49, R211). -/
def Engine.stamp (g : Engine) (slot : BitVec 3) : Nat := 8 * g.clock + slot.toNat
def Ctx.stamp (x : Ctx) : Nat := x.core.eng.stamp x.h.slot.num

/-- The outcome of a slot operation: what it does, or the kind of kernel fault (R130). -/
abbrev SlotResult := Except Byte Issue

/-- The 16 clusters in order. -/
def allClusters : List ClusterId := (List.range 16).map (BitVec.ofNat 4)

def Ctx.cluster (x : Ctx) (c : ClusterId) : Cluster := x.core.clusters.read c

/-- p0 reads true and p1 false; q0 reads all ones and q1 zero (R41). -/
def Cluster.pred (k : Cluster) (i : BitVec 4) : Bool := if i == 0 then true else if i == 1 then false else k.p.read i
def Cluster.lanePred (k : Cluster) (i : BitVec 4) : DWord := if i == 0 then -1 else if i == 1 then 0 else k.q.read i

/-- The guard of a cluster in slots A, B and E to H (R95). -/
def Ctx.on (x : Ctx) (c : ClusterId) : Bool := (x.cluster c).pred x.h.guard
/-- The lanes that are on in slots C and D (R95). -/
def Ctx.lanes (x : Ctx) (c : ClusterId) : DWord := (x.cluster c).lanePred x.h.guard

/-- Join what a list of clusters does, the first fault winning. -/
def joinClusters (f : ClusterId → SlotResult) : List ClusterId → SlotResult
  | [] => .ok {}
  | c :: cs =>
    match f c with
    | .error k => .error k
    | .ok a =>
      match joinClusters f cs with
      | .error k => .error k
      | .ok b => .ok (a.add b)

/-- The arrival of an operation that performed in cluster `c`, `lat` kc after its issue (R237). -/
def Ctx.arrival (x : Ctx) (lat : Nat) (c : ClusterId) : List Eff :=
  match x.h.arrive with
  | some n => [{ lat := lat, cluster := c, what := .nothing, arrive := some n }]
  | none => []

/-- Act in every cluster whose scalar guard is true; each such cluster arrives at `retire` (R131, R237). A push or MLOADB that its tile mask
turns off retires (R177), and arrives too: DESIGN CHOICE, log 94. -/
def Ctx.guarded (x : Ctx) (retire : Nat) (f : ClusterId → Cluster → SlotResult) : SlotResult :=
  joinClusters (fun c =>
    if x.on c then
      match f c (x.cluster c) with
      | .error k => .error k
      | .ok i => .ok (i.add { effs := x.arrival retire c })
    else .ok {}) allClusters

/-- As `guarded`, for requests that carry their own arrival (R51). -/
def Ctx.guardedFar (x : Ctx) (f : ClusterId → Cluster → SlotResult) : SlotResult :=
  joinClusters (fun c => if x.on c then f c (x.cluster c) else .ok {}) allClusters

/-- Act in every cluster with at least one lane on (R131). -/
def Ctx.laned (x : Ctx) (retire : Nat) (f : ClusterId → Cluster → DWord → SlotResult) : SlotResult :=
  joinClusters (fun c =>
    if x.lanes c == 0 then .ok {}
    else
      match f c (x.cluster c) (x.lanes c) with
      | .error k => .error k
      | .ok i => .ok (i.add { effs := x.arrival retire c })) allClusters

/-! ### Scalar registers and immediates -/

/-- A scalar result with latency 1 (R129, R146). -/
def Ctx.scalar (x : Ctx) (d : BitVec 5) (f : ClusterId → Cluster → DWord) : SlotResult :=
  x.guarded 1 fun c k => .ok { effs := [{ lat := 1, cluster := c, what := .scalar d (f c k) }] }

/-- An immediate's value: short and 36-bit ones sign-extended, a 64-bit one as it stands (R18). -/
def immValue : Imm → DWord
  | .short v => sext v
  | .long36 v => sext v
  | .long64 v => v

/-! ### Vector registers (R52 to R60, R132, R138) -/

/-- The physical register that a name stands for (R138). -/
def physV (rb : BitVec 4) (r : BitVec 5) : BitVec 5 :=
  if r.getLsbD 4 then (1 : BitVec 1) ++ (r.extractLsb' 0 4 + rb) else r

/-- Codes 1 to 15, the tags a register may hold when it is read (R53). -/
def tagValid (t : Tag) : Bool := t != 0 && !t.getLsbD 4
def tagPair (t : Tag) : Bool := t == 5 || t == 9 || t == 13
/-- The tags of 32 bits or narrower. -/
def tagNarrow (t : Tag) : Bool := tagValid t && !tagPair t
/-- Bits of an element; B4's elements are blocks and have no width here. -/
def tagWidth (t : Tag) : Nat :=
  if t == 1 || t == 2 || t == 10 || t == 11 then 8
  else if t == 3 || t == 6 || t == 7 then 16
  else if tagPair t then 64
  else 32

/-- A vector operand: the low and the high half of its lanes (the high half of a single register is unused), its tag. -/
structure VOp where
  lo : Bank 6 Word
  hi : Bank 6 Word
  tag : Tag

/-- Read a vector operand with its tag check (R53, R54): a pair-tagged one is named by an even field and has equal tags. -/
def readVec (k : Cluster) (rb : BitVec 4) (accept : Tag → Bool) (r : BitVec 5) : Except Byte VOp :=
  let a := k.v.read (physV rb r)
  if !tagValid a.tag || !accept a.tag then .error kFormat
  else if tagPair a.tag then
    let b := k.v.read (physV rb (r + 1))
    if r.getLsbD 0 || b.tag != a.tag then .error kFormat else .ok ⟨a.lanes, b.lanes, a.tag⟩
  else .ok ⟨a.lanes, a.lanes, a.tag⟩

/-- The elements of one lane, lowest first (R60). -/
def laneElems (w : Nat) (lo hi : Word) : List Nat :=
  if w = 8 then (List.range 4).map fun n => field lo.toNat (8 * n) 8
  else if w = 16 then (List.range 2).map fun n => field lo.toNat (16 * n) 16
  else if w = 64 then [lo.toNat + 2 ^ 32 * hi.toNat]
  else [lo.toNat]

/-- The number that elements of width `w` spell, lowest first. -/
def packNat (w : Nat) : List Nat → Nat
  | [] => 0
  | x :: xs => x % 2 ^ w + 2 ^ w * packNat w xs

/-- A lane's low and high words from its elements. -/
def packLane (w : Nat) (xs : List Nat) : Word × Word :=
  let n := packNat w xs
  (BitVec.ofNat 32 n, BitVec.ofNat 32 (n / 2 ^ 32))

/-- Every element of an operand in order (R60). -/
def VOp.elems (v : VOp) : List Nat :=
  (List.range 64).flatMap fun l =>
    laneElems (tagWidth v.tag) (v.lo.read (BitVec.ofNat 6 l)) (v.hi.read (BitVec.ofNat 6 l))

/-- Bytes of a register in order (R60). -/
def regBytes (lanes : Bank 6 Word) : List Byte := (List.range 64).flatMap fun l => bytesLE 4 (lanes.read (BitVec.ofNat 6 l)).toNat

/-- Lanes from 256 bytes. -/
def lanesOfBytes (bs : List Byte) : Bank 6 Word :=
  Bank.ofFn fun l => BitVec.ofNat 32 (ofBytesLE ((bs.drop (4 * l.toNat)).take 4))

/-- A number's list of parts cut into lanes: `n` elements each. -/
def chunks {α : Type} (n : Nat) : Nat → List α → List (List α)
  | 0, _ => []
  | k + 1, xs => xs.take n :: chunks n k (xs.drop n)

/-- Lanes (low and high halves) from all elements in order. -/
def lanesOfElems (t : Tag) (xs : List Nat) : Bank 6 Word × Bank 6 Word :=
  let w := tagWidth t
  let rows := (chunks (max 1 (32 / w)) 64 xs).map (packLane w)
  (Bank.ofFn fun l => (nth rows l.toNat (0, 0)).1, Bank.ofFn fun l => (nth rows l.toNat (0, 0)).2)

/-- All bits of the lanes that a lane mask marks. -/
def laneMask (m : DWord) : Bank 6 Word := Bank.ofFn fun l => if m.getLsbD l.toNat then -1 else 0

/-- Write a vector result with its tag: one register, or both of a pair (R53, R54). -/
def writeVec (rb : BitVec 4) (lat : Nat) (c : ClusterId) (r : BitVec 5) (t : Tag) (mask lo hi : Bank 6 Word) : List Eff :=
  let one (r : BitVec 5) (x : Bank 6 Word) : Eff :=
    { lat := lat, cluster := c, what := .vec (physV rb r) mask x t }
  if tagPair t then [one r lo, one (r + 1) hi] else [one r lo]

/-- Apply an element function in every lane that is on: result lanes and the flags of those lanes (R131). -/
def mapLanes (m : DWord) (f : BitVec 6 → (Word × Word) × FpFlags) : Bank 6 Word × Bank 6 Word × FpFlags :=
  let r : Bank 6 ((Word × Word) × FpFlags) :=
    Bank.ofFn fun l => if m.getLsbD l.toNat then f l else ((0, 0), {})
  (Bank.ofFn fun l => (r.read l).1.1, Bank.ofFn fun l => (r.read l).1.2, r.list.foldl (fun a x => a.or x.2) {})

/-- Combine the elements of lane `l` of several operands of one width. -/
def zipElems (f : Nat → Nat → Nat × FpFlags) : List Nat → List Nat → List Nat × FpFlags
  | x :: xs, y :: ys =>
    let (r, g) := f x y
    let (rs, gs) := zipElems f xs ys
    (r :: rs, g.or gs)
  | _, _ => ([], {})

/-! ### cfg fields (R41) -/

def Cluster.rm (k : Cluster) : Rm := k.cfg.extractLsb' 0 2
def Cluster.ftz (k : Cluster) : Bool := k.cfg.getLsbD 2
def Cluster.satBit (k : Cluster) : Bool := k.cfg.getLsbD 3

/-! ### The Cistern (R165, R258) -/

/-- The number of a bank-row among the units of a core's Cistern. -/
def unitIndex (bank row : Nat) : Nat := bank * Config.bankRows + row

/-- A run of units: how many, and which unit each is (R165). -/
structure View where
  count : Nat
  unit : Nat → Nat

/-- The home view of a cluster over an allocation (R165). -/
def homeView (a : Alloc) (c : ClusterId) : View :=
  let first := max a.bank (Config.homeBanks * c.toNat)
  let last := min (a.bank + a.nbanks) (Config.homeBanks * c.toNat + Config.homeBanks)
  let hb := last - first
  ⟨hb * a.nrows, fun u => unitIndex (first + u % hb) (a.row + u / hb)⟩

/-- The number of home banks of an allocation in a cluster. -/
def homeBankCount (a : Alloc) (c : ClusterId) : Nat :=
  min (a.bank + a.nbanks) (Config.homeBanks * c.toNat + Config.homeBanks) - max a.bank (Config.homeBanks * c.toNat)

/-- The far view (R165). -/
def farView (a : Alloc) : View :=
  ⟨a.nbanks * a.nrows, fun u => unitIndex (a.bank + u % a.nbanks) (a.row + u / a.nbanks)⟩

/-- The units that `n` bytes from byte `off` of a view lie in. -/
def View.units (v : View) (off n : Nat) : List Nat :=
  if n = 0 then [] else (List.range ((off + n - 1) / 64 - off / 64 + 1)).map fun i => v.unit (off / 64 + i)

/-- Whether the bytes lie inside the view. -/
def View.holds (v : View) (off n : Nat) : Bool := off + n ≤ 64 * v.count

/-- Bytes of a view. -/
def View.read (v : View) (m : Memory) (off n : Nat) : List Byte :=
  (List.range n).map fun i => m.readByte (64 * v.unit ((off + i) / 64) + (off + i) % 64)

/-- Whether some unit of a list holds poison. -/
def anyPoison (bad : List Nat) (us : List Nat) : Bool := us.any bad.contains

/-- The unit writes that put bytes at byte `off` of a view; `keep i` says whether byte `i` is written. -/
def View.writes (v : View) (off : Nat) (bs : List Byte) (keep : Nat → Bool) : List CisWrite :=
  if bs.isEmpty then []
  else (List.range ((off + bs.length - 1) / 64 - off / 64 + 1)).map fun i =>
    let base := 64 * (off / 64 + i)
    -- the byte of the operand that stands at byte `j` of this unit
    let at_ (j : Nat) : Option Byte := if base + j < off then none else bs[base + j - off]?
    let on (j : Nat) : Bool := (at_ j).isSome && keep (base + j - off)
    { unit := v.unit (off / 64 + i)
      mask := BitVec.ofNat 64 (packNat 1 ((List.range 64).map fun j => if on j then 1 else 0))
      data := BitVec.ofNat 512 (packNat 8 ((List.range 64).map fun j => ((at_ j).getD 0).toNat)) }

/-- Put a unit write into a Cistern memory. -/
def putUnit (m : Memory) (w : CisWrite) : Memory :=
  (List.range 64).foldl (fun m j =>
    if w.mask.getLsbD j then m.writeByte (64 * w.unit + j) (w.data.extractLsb' (8 * j) 8) else m) m

/-- The live allocation behind a handle that the kernel declared (R168): `outs` for stores, either for loads, both for
atomics. -/
def Ctx.handle (x : Ctx) (hnd : BitVec 6) (load store : Bool) : Except Byte Alloc :=
  match x.core.handles.read hnd with
  | none => .error kCistern
  | some a =>
    let isIn := x.run.ins.contains hnd
    let isOut := x.run.outs.contains hnd
    let ok := if load && store then isIn && isOut else if load then isIn || isOut else isOut
    if ok then .ok a else .error kCistern

end Sys2Proof.Machine
end

