-- ==== Sys2Proof/Machine/Scalar.lean ====
section
/-! DEFINITION. Slot A (control) and slot B (scalar): R134 to R147, R198. -/

namespace Sys2Proof.Machine

/-! ### Shared arithmetic of 64-bit registers -/

/-- The high 64 bits of a signed and of an unsigned product. -/
def mulHigh (x y : DWord) : DWord := BitVec.ofInt 64 ((x.toInt * y.toInt) / 2 ^ 64)
def mulHighU (x y : DWord) : DWord := BitVec.ofNat 64 ((x.toNat * y.toNat) / 2 ^ 64)

/-- Shifts by the low six bits of a count. -/
def shiftLeft (x y : DWord) : DWord := x <<< (y.toNat % 64)
def shiftRight (x y : DWord) : DWord := x >>> (y.toNat % 64)
def shiftRightA (x y : DWord) : DWord := x.sshiftRight (y.toNat % 64)

def minS (x y : DWord) : DWord := if x.slt y then x else y
def maxS (x y : DWord) : DWord := if x.slt y then y else x
def minU (x y : DWord) : DWord := if x.ult y then x else y
def maxU (x y : DWord) : DWord := if x.ult y then y else x

/-- Condition codes of CMP and CMPI (R97, R140). -/
def condition (cc : BitVec 3) (x y : DWord) : Bool :=
  match cc with
  | 0#3 => x == y
  | 1#3 => x != y
  | 2#3 => x.slt y
  | 3#3 => !x.slt y
  | 4#3 => y.slt x
  | 5#3 => !y.slt x
  | 6#3 => x.ult y
  | _ => !x.ult y

/-! ### Slot B (R146, R147) -/

/-- An operation on two scalar registers, and one on a register and an extended immediate. -/
def slotScalar2 (op : DWord → DWord → DWord) (d a b : BitVec 5) (x : Ctx) : SlotResult :=
  x.scalar d fun _ k => op (k.a.read a) (k.a.read b)
def slotScalarI (op : DWord → DWord → DWord) (d : BitVec 5) (imm : Imm) (x : Ctx) : SlotResult :=
  x.scalar d fun _ k => op (k.a.read d) (immValue imm)

def slotMovi (d : BitVec 5) (imm : Imm) (x : Ctx) : SlotResult := x.scalar d fun _ _ => (immValue imm)
def slotMov (d a : BitVec 5) (x : Ctx) : SlotResult := x.scalar d fun _ k => k.a.read a

/-- RDLC (R147). -/
def slotRdlc (d : BitVec 5) (lvl : BitVec 3) (x : Ctx) : SlotResult :=
  x.scalar d fun _ k => zext (nth k.lc.toList lvl.toNat 0)

/-- Width k of a widths word, and field k of a work ID (R32, R38). -/
def widthOf (widths : DWord) (k : Nat) : Nat := field widths.toNat (6 * k) 6
def workField (widths id : DWord) (k : Nat) : Nat :=
  let lo := ((List.range k).map (widthOf widths)).sum
  field id.toNat lo (widthOf widths k)

/-- WFIELD (R147): a field of the work ID of the task that issued the kernel. -/
def slotWfield (d : BitVec 5) (n : BitVec 3) (x : Ctx) : SlotResult :=
  x.scalar d fun _ _ => BitVec.ofNat 64 (workField x.run.widths x.run.wid n.toNat)

/-! ### Predicates (R139, R140) -/

def slotPred (op : Bool → Bool → Bool) (pd pa pb : BitVec 4) (x : Ctx) : SlotResult :=
  x.guarded 1 fun c k =>
    .ok { effs := [{ lat := 1, cluster := c, what := .pred pd (op (k.pred pa) (k.pred pb)) }] }

/-- The pair p2k and p2k+1 as result and complement. -/
def predPair (n : BitVec 3) (c : ClusterId) (r : Bool) : List Eff :=
  [{ lat := 1, cluster := c, what := .pred (n ++ (0 : BitVec 1)) r },
   { lat := 1, cluster := c, what := .pred (n ++ (1 : BitVec 1)) (!r) }]

def slotCmp (cc n : BitVec 3) (a b : BitVec 5) (x : Ctx) : SlotResult :=
  x.guarded 1 fun c k => .ok { effs := predPair n c (condition cc (k.a.read a) (k.a.read b)) }
def slotCmpi (cc n : BitVec 3) (a : BitVec 5) (imm : Imm) (x : Ctx) : SlotResult :=
  x.guarded 1 fun c k => .ok { effs := predPair n c (condition cc (k.a.read a) (immValue imm)) }

/-! ### Steering (R134 to R137, R142 to R145, R198) -/

/-- Whether a property is equal in all 16 clusters. -/
def agree {α : Type} [DecidableEq α] (f : ClusterId → α) : Bool := allClusters.all fun c => f c == f 0

/-- A steering operation: the guard must agree in all clusters, and so must what it reads (R198). -/
def Ctx.steer (x : Ctx) (same : Bool) (act : SlotResult) : SlotResult :=
  if !agree x.on then .error kDiverge
  else if !x.on 0 then .ok {}
  else if !same then .error kDiverge
  else
    match act, x.guarded 1 (fun _ _ => .ok {}) with
    | .ok i, .ok j => .ok (i.add j)
    | .error k, _ => .error k
    | .ok i, .error _ => .ok i

def slotBr (target : BitVec 12) (x : Ctx) : SlotResult := x.steer true (.ok { ctl := [.branch target.toNat] })

/-- The checks and the effect of a loop operation (R135, R136); `stages` is 0 for a plain loop. -/
def openLoop (lvl : BitVec 3) (trip len stages : Nat) (x : Ctx) : SlotResult :=
  let first := x.run.idx + 1
  let last := x.run.idx + len
  if 2 ^ 32 ≤ trip then .error kLoop
  else if x.run.loops.any (fun l => l.level == lvl) then .error kLoop
  else if x.run.loops.any (fun l => l.sw || first < l.first || l.last < last) then .error kLoop
  else .ok { ctl := [.loop lvl trip len stages] }

/-- The trip count of the register and shape forms (R135). -/
def tripOf (lvl : BitVec 3) (a : BitVec 5) (byShape : Bool) (x : Ctx) : Nat :=
  if byShape then nth x.run.counts lvl.toNat 1 else ((x.cluster 0).a.read a).toNat
def tripAgrees (a : BitVec 5) (byShape : Bool) (x : Ctx) : Bool := byShape || agree fun c => (x.cluster c).a.read a

def slotLoop (lvl : BitVec 3) (a : BitVec 5) (byShape : Bool) (len : BitVec 6) (x : Ctx) : SlotResult :=
  x.steer (tripAgrees a byShape x) (openLoop lvl (tripOf lvl a byShape x) (len.toNat + 1) 0 x)
def slotLoopi (lvl : BitVec 3) (trip : BitVec 7) (len : BitVec 6) (x : Ctx) : SlotResult :=
  x.steer true (openLoop lvl trip.toNat (len.toNat + 1) 0 x)
def slotLoopSw (lvl : BitVec 3) (a : BitVec 5) (byShape : Bool) (stages : BitVec 3) (ii : BitVec 4) (x : Ctx) : SlotResult :=
  x.steer (tripAgrees a byShape x) (openLoop lvl (tripOf lvl a byShape x) (ii.toNat + 1) (stages.toNat + 1) x)
def slotLoopiSw (lvl : BitVec 3) (trip : BitVec 6) (stages : BitVec 3) (ii : BitVec 4) (x : Ctx) : SlotResult :=
  x.steer true (openLoop lvl trip.toNat (ii.toNat + 1) (stages.toNat + 1) x)

def slotLwait (n : BitVec 4) (x : Ctx) : SlotResult := x.steer true (.ok { wait := some n.toNat })

/-- The banks that LOCK's register names, 0x7F standing for none (R143). -/
def lockBanks (r : DWord) : List Nat := ((List.range 6).map fun j => field r.toNat (7 * j) 7).filter (· != 0x7F)

def slotLock (n : BitVec 4) (a : BitVec 5) (x : Ctx) : SlotResult :=
  let banks := lockBanks ((x.cluster 0).a.read a)
  x.steer (agree fun c => ((x.cluster c).a.read a).extractLsb' 0 42)
    (if banks.any (fun b => Config.banks ≤ b) then .error kCistern else .ok { ctl := [.lock banks n.toNat] })

def slotKtrap (code : BitVec 16) (x : Ctx) : SlotResult := x.steer true (.ok { ctl := [.ktrap code] })
def slotHalt (x : Ctx) : SlotResult := x.steer true (.ok { ctl := [.halt] })

/-- NOP has no effect (R96). -/
def slotNop (_ : Ctx) : SlotResult := .ok {}

end Sys2Proof.Machine
end

