-- ==== Sys2Proof/Machine/Vector.lean ====
section
/-! DEFINITION. Slots C and D: vector arithmetic, moves, conversions, reductions, scans and top-k (R148 to R163). -/

namespace Sys2Proof.Machine

/-- The tag that an opcode's format field names (R52, R101). -/
def tagOf (f : BitVec 4) : Tag := f.setWidth 5

/-- Whether a tag is one of the four IEEE formats; U8 and IDX read unsigned, the other integer formats signed (R55). -/
def tagIeee (t : Tag) : Bool := t == 6 || t == 7 || t == 8 || t == 9
def tagInt (t : Tag) : Bool := t == 1 || t == 2 || t == 3 || t == 4 || t == 5
def tagUnsigned (t : Tag) : Bool := t == 2 || t == 14 || t == 15

/-- The integer that an element of an integer format or IDX stands for. -/
def intOf (t : Tag) (x : Nat) : Int := if tagUnsigned t then x else toSigned (tagWidth t) x

/-! ### Element functions -/

/-- The two-operand operations of R149. -/
inductive VecOp where
  | add | sub | mul | div | min | max
  deriving DecidableEq, Repr

/-- An operation on two exact values. -/
def VecOp.real (op : VecOp) (rm : Rm) (a b : Fv) : Fv × FpFlags :=
  match op with
  | .add => a.add rm b
  | .sub => a.add rm b.neg
  | .mul => a.mul b
  | .div => a.div b
  | .min => a.minmax false b
  | .max => a.minmax true b

/-- An operation on two integers; division is in no integer format. -/
def VecOp.int (op : VecOp) (a b : Int) : Int :=
  match op with
  | .add => a + b
  | .sub => a - b
  | .mul => a * b
  | .div => 0
  | .min => if a ≤ b then a else b
  | .max => if a ≤ b then b else a

/-- Read two elements, operate exactly, round to the format (R148, R149). -/
def fpElem2 (f : Fmt) (k : Cluster) (op : Fv → Fv → Fv × FpFlags) (x y : Nat) : Nat × FpFlags :=
  let (v, g) := op (f.read k.ftz x) (f.read k.ftz y)
  let (r, h) := f.write k.rm k.ftz v
  (r, g.or h)

/-- One element of a two-operand operation in the format that a tag names (R149, R70 for ANC). -/
def vecElem (k : Cluster) (t : Tag) (op : VecOp) (x y : Nat) : Nat × FpFlags :=
  if tagIeee t then
    match Fmt.ofTag t with
    | some f => fpElem2 f k (op.real k.rm) x y
    | none => (0, {})
  else if t == 13 then
    let (r, sat) := ancAdd (BitVec.ofNat 64 x) (BitVec.ofNat 64 y)
    (r.toNat, { sat := sat })
  else (wrap (tagWidth t) (op.int (intOf t x) (intOf t y)), {})

/-- The latency of an operation that is vector FP in IEEE formats and vector integer otherwise (R129). -/
def vecLat (t : Tag) : Nat := if tagIeee t then 4 else 2

/-! ### Rates (R129) -/

/-- The rate groups: 0 FP64 arithmetic, 1 division and root in the narrower formats, 2 in FP64; the kc each asks for. -/
def rateGap (g : BitVec 2) : Nat := if g == 2 then 16 else 4

/-- Which of the two counts of a rate group's last operation a kernel measures its gap from: a fairness cc is none of the primary's
(R129, R209; log 13). -/
def rateClock (pos : KPos) (at_ : Nat × Nat) : Nat :=
  match pos with
  | .primary => at_.1
  | .secondary => at_.2

/-- A rate limit on an operation that has passed its other checks and has a lane on. -/
def Ctx.rate (x : Ctx) (g : Option (BitVec 2)) (r : SlotResult) : SlotResult :=
  match g, r with
  | some g, .ok i =>
    if allClusters.all fun c => x.lanes c == 0 then .ok i
    else
      match x.core.eng.rates.find? fun e => e.1 == (x.h.slot, g) with
      | some e => if x.clock < rateClock x.pos e.2 + rateGap g then .error kRate else .ok { i with rates := (x.h.slot, g) :: i.rates }
      | none => .ok { i with rates := (x.h.slot, g) :: i.rates }
  | _, r => r

def rateFp64 (t : Tag) : Option (BitVec 2) := if t == 9 then some 0 else none
def rateDiv (t : Tag) : Option (BitVec 2) := if t == 9 then some 2 else some 1

/-! ### Arithmetic (R149 to R151) -/

/-- The result of a lane-guarded operation on whole lanes. -/
def vecResult (x : Ctx) (lat : Nat) (c : ClusterId) (d : BitVec 5) (t : Tag) (m : DWord)
    (r : Bank 6 Word × Bank 6 Word × FpFlags) : Issue :=
  { effs := writeVec x.run.rb lat c d t (laneMask m) r.1 r.2.1, flags := [(c, r.2.2)] }

/-- Combine the lanes of two operands element by element. -/
def lanes2 (t : Tag) (m : DWord) (a b : VOp) (f : Nat → Nat → Nat × FpFlags) : Bank 6 Word × Bank 6 Word × FpFlags :=
  let w := tagWidth t
  mapLanes m fun l =>
    let (es, g) := zipElems f (laneElems w (a.lo.read l) (a.hi.read l)) (laneElems w (b.lo.read l) (b.hi.read l))
    (packLane w es, g)

/-- Change the lanes of one operand element by element. -/
def lanes1 (t : Tag) (m : DWord) (a : VOp) (f : Nat → Nat × FpFlags) : Bank 6 Word × Bank 6 Word × FpFlags :=
  lanes2 t m a a fun x _ => f x

/-- VADD, VSUB, VMUL, VDIV, VMIN, VMAX. -/
def slotVec2 (op : VecOp) (f : BitVec 4) (d a b : BitVec 5) (x : Ctx) : SlotResult :=
  let t := tagOf f
  let lat := if op == .div then 4 else vecLat t
  x.rate (if op == .div then rateDiv t else rateFp64 t) <|
    x.laned lat fun c k m => do
      let va ← readVec k x.run.rb (· == t) a
      let vb ← readVec k x.run.rb (· == t) b
      return vecResult x lat c d t m (lanes2 t m va vb (vecElem k t op))

/-- VFMA: a × b + d with one rounding; d is read (R149). -/
def slotVfma (f : BitVec 4) (d a b : BitVec 5) (x : Ctx) : SlotResult :=
  let t := tagOf f
  x.rate (rateFp64 t) <|
    x.laned 4 fun c k m => do
      let va ← readVec k x.run.rb (· == t) a
      let vb ← readVec k x.run.rb (· == t) b
      let vd ← readVec k x.run.rb (· == t) d
      let w := tagWidth t
      let elem (x y z : Nat) : Nat × FpFlags :=
        match Fmt.ofTag t with
        | some fm =>
          let (v, g) := (fm.read k.ftz x).fma k.rm (fm.read k.ftz y) (fm.read k.ftz z)
          let (r, h) := fm.write k.rm k.ftz v
          (r, g.or h)
        | none => (0, {})
      let r := mapLanes m fun l =>
        let rs := ((laneElems w (va.lo.read l) (va.hi.read l)).zip
          ((laneElems w (vb.lo.read l) (vb.hi.read l)).zip (laneElems w (vd.lo.read l) (vd.hi.read l)))).map
            fun e => elem e.1 e.2.1 e.2.2
        (packLane w (rs.map (·.1)), rs.foldl (fun g e => g.or e.2) {})
      return vecResult x 4 c d t m r

/-- VABS and VNEG (R149, R151): in IEEE formats only the sign bit changes. -/
def signElem (isAbs : Bool) (t : Tag) (x : Nat) : Nat × FpFlags :=
  let w := tagWidth t
  if tagIeee t then
    (if isAbs then x % 2 ^ (w - 1) else if bitOf x (w - 1) then x % 2 ^ (w - 1) else x + 2 ^ (w - 1), {})
  else
    let v := toSigned w x
    (wrap w (if isAbs then v.natAbs else -v), {})

def slotSign (isAbs : Bool) (f : BitVec 4) (d a : BitVec 5) (x : Ctx) : SlotResult :=
  let t := tagOf f
  x.laned 2 fun c k m => do
    let va ← readVec k x.run.rb (· == t) a
    return vecResult x 2 c d t m (lanes1 t m va (signElem isAbs t))

/-- VSQRT (R149). -/
def slotVsqrt (f : BitVec 4) (d a : BitVec 5) (x : Ctx) : SlotResult :=
  let t := tagOf f
  x.rate (rateDiv t) <|
    x.laned 4 fun c k m => do
      let va ← readVec k x.run.rb (· == t) a
      let elem (x : Nat) : Nat × FpFlags :=
        match Fmt.ofTag t with
        | some fm => fpElem2 fm k (fun v _ => v.sqrt) x x
        | none => (0, {})
      return vecResult x 4 c d t m (lanes1 t m va elem)

/-! ### Compare (R152) -/

def vecCompare (k : Cluster) (t : Tag) (cond : BitVec 3) (x y : Nat) : Bool × Bool :=
  let ordered (o : Ordering) : Bool :=
    match cond with
    | 0#3 => o == .eq
    | 1#3 => o != .eq
    | 2#3 => o == .lt
    | 3#3 => o != .lt
    | 4#3 => o == .gt
    | 5#3 => o != .gt
    | 6#3 => false
    | _ => true
  match (if tagIeee t then Fmt.ofTag t else none) with
  | some f =>
    let a := f.read k.ftz x
    let b := f.read k.ftz y
    if a.isNan || b.isNan then
      (cond == 1 || cond == 6, a.isSig || b.isSig || (2 ≤ cond.toNat && cond.toNat ≤ 5))
    else (ordered (a.compare b), false)
  | none => (ordered (Ord.compare (intOf t x) (intOf t y)), false)

/-- The pair q2k and q2k+1 as result and complement, in the lanes that are on (R152, R159). -/
def lanePair (n : BitVec 3) (c : ClusterId) (lat : Nat) (m r : DWord) : List Eff :=
  [{ lat := lat, cluster := c, what := .lanePred (n ++ (0 : BitVec 1)) m r },
   { lat := lat, cluster := c, what := .lanePred (n ++ (1 : BitVec 1)) m (~~~r) }]

/-- A word with bit `l` set where a test holds. -/
def bitsOf (p : Nat → Bool) : DWord :=
  BitVec.ofNat 64 (packNat 1 ((List.range 64).map fun l => if p l then 1 else 0))

def slotVcmp (f : BitVec 4) (cond n : BitVec 3) (a b : BitVec 5) (x : Ctx) : SlotResult :=
  let t := tagOf f
  let lat := vecLat t
  x.rate (rateFp64 t) <|
    x.laned lat fun c k m => do
      let va ← readVec k x.run.rb (· == t) a
      let vb ← readVec k x.run.rb (· == t) b
      let w := tagWidth t
      let lane (l : Nat) : List (Bool × Bool) :=
        let i := BitVec.ofNat 6 l
        ((laneElems w (va.lo.read i) (va.hi.read i)).zip (laneElems w (vb.lo.read i) (vb.hi.read i))).map
          fun e => vecCompare k t cond e.1 e.2
      let nv := (List.range 64).any fun l => m.getLsbD l && (lane l).any (·.2)
      return { effs := lanePair n c lat m (bitsOf fun l => (lane l).all (·.1)), flags := [(c, { nv := nv })] }

/-! ### Moves and bitwise operations (R153, R155, R156, R159, R160) -/

/-- What a lane guard lets a B4 result write (R53): blocks whose two lanes are on, their scale bytes, and zeros above. -/
def blockOn (m : DWord) (b : Nat) : Bool := m.getLsbD (2 * b) && m.getLsbD (2 * b + 1)
def blockMask (m : DWord) : Bank 6 Word :=
  Bank.ofFn fun l =>
    if l.toNat < 32 then (if blockOn m (l.toNat / 2) then -1 else 0)
    else if l.toNat < 36 then
      BitVec.ofNat 32 (packNat 8 ((List.range 4).map fun n => if blockOn m (4 * (l.toNat - 32) + n) then 255 else 0))
    else -1

/-- A result whose format is that of a source tag: guarded per block when that is B4 (R53), else per lane; a pair result
has an even destination (R132). -/
def sourceResult (x : Ctx) (c : ClusterId) (d : BitVec 5) (t : Tag) (m : DWord) (lo hi : Bank 6 Word) : SlotResult :=
  if tagPair t && d.getLsbD 0 then .error kFormat
  else if t == 12 then
    if (List.range 16).any (blockOn m) then
      let data : Bank 6 Word := Bank.ofFn fun l => if l.toNat < 36 then lo.read l else 0
      .ok { effs := writeVec x.run.rb 2 c d t (blockMask m) data data }
    else .ok {}
  else .ok { effs := writeVec x.run.rb 2 c d t (laneMask m) lo hi }

def mapBank (f : Word → Word) (a : Bank 6 Word) : Bank 6 Word := Bank.ofFn fun l => f (a.read l)
def zipBank (f : Word → Word → Word) (a b : Bank 6 Word) : Bank 6 Word := Bank.ofFn fun l => f (a.read l) (b.read l)

/-- VMOV and VNOT. -/
def slotMove (f : Word → Word) (d a : BitVec 5) (x : Ctx) : SlotResult :=
  x.laned 2 fun c k m => do
    let va ← readVec k x.run.rb (fun _ => true) a
    sourceResult x c d va.tag m (mapBank f va.lo) (mapBank f va.hi)

/-- VAND, VOR, VXOR: the source tags are equal (R148). -/
def slotBitwise (f : Word → Word → Word) (d a b : BitVec 5) (x : Ctx) : SlotResult :=
  x.laned 2 fun c k m => do
    let va ← readVec k x.run.rb (fun _ => true) a
    let vb ← readVec k x.run.rb (· == va.tag) b
    sourceResult x c d va.tag m (zipBank f va.lo vb.lo) (zipBank f va.hi vb.hi)

/-- VSEL: the guard field is the selector, and every lane of every cluster is written (R95, R153). -/
def slotVsel (d a b : BitVec 5) (x : Ctx) : SlotResult :=
  joinClusters (fun c => do
    let k := x.cluster c
    let va ← readVec k x.run.rb (fun _ => true) a
    let vb ← readVec k x.run.rb (· == va.tag) b
    let sel := x.lanes c
    let pick (p q : Bank 6 Word) : Bank 6 Word := Bank.ofFn fun l => if sel.getLsbD l.toNat then p.read l else q.read l
    let i ← sourceResult x c d va.tag (-1) (pick va.lo vb.lo) (pick va.hi vb.hi)
    return i.add { effs := x.arrival 2 c }) allClusters

/-- VFSHL and VFSHR (R155). -/
def slotFunnel (left : Bool) (d a b : BitVec 5) (x : Ctx) : SlotResult :=
  x.laned 2 fun c k m => do
    let va ← readVec k x.run.rb (fun t => t == 4 || t == 14 || t == 15) a
    let vb ← readVec k x.run.rb (fun t => t == 4 || t == 14 || t == 15) b
    let vd ← readVec k x.run.rb (fun t => t == 4 || t == 15) d
    let lane (l : BitVec 6) : Word :=
      let pair : DWord := va.lo.read l ++ vb.lo.read l
      let n := (vd.lo.read l).toNat % 64
      if left then (pair <<< n).extractLsb' 32 32 else (pair >>> n).extractLsb' 0 32
    let r : Bank 6 Word := Bank.ofFn lane
    return { effs := writeVec x.run.rb 2 c d 15 (laneMask m) r r }

/-- VPERM (R156). -/
def slotVperm (d a b : BitVec 5) (x : Ctx) : SlotResult :=
  x.laned 2 fun c k m => do
    let va ← readVec k x.run.rb (fun _ => true) a
    let vb ← readVec k x.run.rb (fun t => t == 14 || t == 4) b
    let move (p : Bank 6 Word) : Bank 6 Word :=
      Bank.ofFn fun l => let i := (vb.lo.read l).toNat; if i < 64 then p.read (BitVec.ofNat 6 i) else 0
    sourceResult x c d va.tag m (move va.lo) (move va.hi)

/-- VQMOV (R159). -/
def slotVqmov (dir : Bool) (v : BitVec 5) (q : BitVec 4) (x : Ctx) : SlotResult :=
  x.laned 2 fun c k m =>
    if dir then do
      let va ← readVec k x.run.rb tagNarrow v
      return { effs := lanePair (q.extractLsb' 1 3) c 2 m (bitsOf fun l => va.lo.read (BitVec.ofNat 6 l) != 0) }
    else
      let sel := k.lanePred q
      let r : Bank 6 Word := laneMask sel
      .ok { effs := writeVec x.run.rb 2 c v 15 (laneMask m) r r }

/-- Whether an element counts as nonzero (R79), for every tag but B4. -/
def elemNonzero (t : Tag) (ftz : Bool) (x : Nat) : Bool :=
  match Fmt.ofTag t with
  | some f =>
    match f.read ftz x with
    | .num _ m _ => m != 0
    | _ => true
  | none => x != 0

/-- Whether a B4 code counts as nonzero against its scale byte (R79). -/
def codeNonzero (st : Bank 4 Byte) (ftz : Bool) (scale : Byte) (code : Nat) : Bool :=
  match b4Value st ftz scale code with
  | .num _ m _ => m != 0
  | _ => true

/-- The nonzero elements of a register in the lanes that are on (R160). -/
def countNonzero (k : Cluster) (m : DWord) (v : VOp) : Nat :=
  let on (l : Nat) : Bool := m.getLsbD l
  if v.tag == 12 then
    let bs := regBytes v.lo
    ((List.range 256).filter fun j =>
      on (j / 8) && codeNonzero k.st k.ftz (nth bs (128 + j / 16) 0) (field (nth bs (j / 2) 0).toNat (4 * (j % 2)) 4)).length
  else
    ((List.range 64).map fun l =>
      if on l then
        ((laneElems (tagWidth v.tag) (v.lo.read (BitVec.ofNat 6 l)) (v.hi.read (BitVec.ofNat 6 l))).filter
          (elemNonzero v.tag k.ftz)).length
      else 0).sum

/-- VPOPC (R160). -/
def slotVpopc (nz : Bool) (d a : BitVec 5) (x : Ctx) : SlotResult :=
  x.laned 2 fun c k m => do
    let va ← readVec k x.run.rb (fun t => nz || tagNarrow t) a
    let r : Bank 6 Word :=
      if nz then Bank.fill (BitVec.ofNat 32 (countNonzero k m va))
      else Bank.ofFn fun l => BitVec.ofNat 32 (popCount 32 (va.lo.read l).toNat)
    return { effs := writeVec x.run.rb 2 c d 4 (laneMask m) r r }

/-- VBCAST (R157). -/
def slotVbcast (f : BitVec 4) (d a : BitVec 5) (x : Ctx) : SlotResult :=
  let t := tagOf f
  x.laned 2 fun c k m =>
    let w := tagWidth t
    let v := (k.a.read a).toNat
    let (lo, hi) := packLane w (List.replicate (max 1 (32 / w)) v)
    .ok { effs := writeVec x.run.rb 2 c d t (laneMask m) (Bank.fill lo) (Bank.fill hi) }

/-- VSHL and VSHR (R154). -/
def shiftElem (left : Bool) (t : Tag) (x n : Nat) : Nat × FpFlags :=
  let w := tagWidth t
  let n := min n w
  if left then (x * 2 ^ n % 2 ^ w, {})
  else (wrap w ((if tagUnsigned t then (x : Int) else toSigned w x) / (2 ^ n : Nat)), {})

def slotShift (left : Bool) (f : BitVec 4) (d a b : BitVec 5) (x : Ctx) : SlotResult :=
  let t := tagOf f
  x.laned 2 fun c k m => do
    let va ← readVec k x.run.rb (· == t) a
    let vb ← readVec k x.run.rb (· == t) b
    return vecResult x 2 c d t m (lanes2 t m va vb (shiftElem left t))

/-! ### Conversions (R76 to R78, R158) -/

/-- The pairs that VCVT accepts, source first (R158). -/
def cvtPair (s t : Tag) : Bool :=
  if tagIeee s then tagIeee t || tagInt t || t == 10 || t == 11 || t == 13 || (s == 8 && (t == 12 || t == 15))
  else if s == 10 || s == 11 then t == 6 || t == 7 || t == 8
  else if s == 12 then t == 8
  else if tagInt s then tagInt t || tagIeee t || t == 14 || (s == 4 && t == 15) || (s == 5 && t == 13)
  else if s == 14 then t == 4 || t == 5 || t == 15
  else if s == 15 then t == 15 || t == 4 || t == 14
  else if s == 13 then t == 8 || t == 9 || t == 5
  else false

/-- A real into an integer format (R76). -/
def realToInt (t : Tag) (rm : Rm) : Fv → Nat × FpFlags
  | .nan _ => (0, { nv := true, sat := true })
  | .inf neg => (wrap (tagWidth t) (if neg then (intRange t).1 else (intRange t).2), { nv := true, sat := true })
  | .num neg m e =>
    let (n, inexact) := roundInt rm neg m e
    let (r, clamped) := saturate n (intRange t).1 (intRange t).2
    (wrap (tagWidth t) r, if clamped then { nv := true, sat := true } else { nx := inexact })

/-- One element of a conversion, for every pair but those with B4 (R76, R78). An integer out of range of an integer format that is
not narrower clamps with NV and SAT, and of a narrower one, or of IDX, with SAT alone (R76; log 67 for I64 to IDX). -/
def cvtElem (k : Cluster) (s t : Tag) (anchor : Int) (x : Nat) : Nat × FpFlags :=
  match Fmt.ofTag s, Fmt.ofTag t with
  | some f, some g => g.convert k.rm k.ftz k.satBit (f.read k.ftz x)
  | some f, none =>
    if t == 13 then
      match f.read k.ftz x with
      | .nan sig => ((AccElem.anc ⟨0, .nan⟩).toNat, { nv := sig })
      | v =>
        let (y, inexact, sat) := (AccElem.mk 0 .finite).addProduct (v.onGrid anchor)
        (y.anc.toNat, { inexact := inexact, sat := sat })
    else if t == 15 then (x, {})
    else realToInt t k.rm (f.read k.ftz x)
  | none, some g =>
    if s == 13 then (ofAnc (BitVec.ofNat 64 x)).drain anchor t k.rm k.ftz k.satBit
    else g.convert k.rm k.ftz k.satBit (.ofInt (intOf s x) 0)
  | none, none =>
    if s == 13 || t == 13 || s == 15 || t == 15 then (x, {})
    else if t == 14 then
      let v := intOf s x
      if v < 0 || 0xFFFFFFFE < v then (0xFFFFFFFF, { sat := true }) else (v.toNat, {})
    else
      let (r, clamped) := saturate (intOf s x) (intRange t).1 (intRange t).2
      (wrap (tagWidth t) r, { nv := clamped && decide (tagWidth s ≤ tagWidth t), sat := clamped })

/-- The code of a type nearest to num/den eighths under the mode (R77); codes are tried from the list. -/
def pickCode (type : BitVec 2) (rm : Rm) (num : Int) (den : Nat) : Nat × Bool :=
  -- code 0x8 of the signed types would be a second zero
  let codes := (List.range 16).filter fun c => type == 0 || c != 8
  let value (c : Nat) : Int := codeTimes8 type c * den
  let exact := codes.find? fun c => value c == num
  let best (better : Nat → Nat → Bool) (ok : Nat → Bool) : Nat :=
    (codes.filter ok).foldl (fun r c => if ok r && !better c r then r else c) (nth (codes.filter ok) 0 0)
  match exact with
  | some c => (c, false)
  | none =>
    let dist (c : Nat) : Nat := (value c - num).natAbs
    let c :=
      match rm with
      | 0#2 => best (fun c r => dist c < dist r || (dist c == dist r && c % 2 == 0)) fun _ => true
      | 1#2 => best (fun c r => dist c < dist r) fun c => if num < 0 then num < value c && value c ≤ 0 else value c < num && 0 ≤ value c
      | 2#2 => best (fun c r => dist c < dist r) fun c => num < value c
      | _ => best (fun c r => dist c < dist r) fun c => value c < num
    (c, true)

/-- One value into a code of a block (R77), the scale's exponent given. What R77 leaves open, the model settles (log 66): for type int
a quotient above +7 saturates with SAT, for +7 is its largest positive code; an infinite source raises SAT alone. -/
def toCode (type : BitVec 2) (rm : Rm) (scaleExp : Int) : Fv → Nat × FpFlags
  | .nan _ => (0, { nv := true })
  | .inf neg => (if neg then (if type == 0 then 8 else 15) else 7, { sat := true })
  | .num neg m e =>
    let sh := e - scaleExp + 3
    let num : Int := if neg then -((m * 2 ^ sh.toNat : Nat) : Int) else (m * 2 ^ sh.toNat : Nat)
    let den : Nat := 2 ^ (-sh).toNat
    let top : Int := codeTimes8 type 7 * den
    let bottom : Int := (if type == 0 then -64 else codeTimes8 type 15) * den
    if top < num then (7, { sat := true, nx := true })
    else if num < bottom then (if type == 0 then 8 else 15, { sat := true, nx := true })
    else
      let (c, inexact) := pickCode type rm num den
      (c, { nx := inexact })

/-- Sixteen values into a block's code bytes (R77). -/
def toBlock (k : Cluster) (scale : Byte) (vs : List Fv) : List Byte × FpFlags :=
  let s := k.st.read (scale.extractLsb' 2 4)
  if s == 0xFF then (List.replicate 8 0, { nv := true })
  else
    let e : Int := (s.toNat : Int) - 127 - (scale.extractLsb' 0 2).toNat
    let r := vs.map (toCode (scale.extractLsb' 6 2) k.rm e)
    (bytesLE 8 (packNat 4 (r.map (·.1))), r.foldl (fun g x => g.or x.2) {})

/-- Elements in a register of a tag (R158). -/
def elemCount (t : Tag) : Nat := if t == 12 then 256 else if tagPair t then 64 else 2048 / tagWidth t

/-- VCVT from FP32 into B4 (R158): elements 16m to 16m + 15 become block 4p + m. -/
def cvtToB4 (x : Ctx) (c : ClusterId) (k : Cluster) (m : DWord) (d : BitVec 5) (va : VOp) (ab : DWord) : SlotResult :=
  let p := field ab.toNat 8 2
  let scale : Byte := ab.extractLsb' 0 8
  let inPart (b : Nat) : Bool := b / 4 == p
  let vs := va.elems.map (Fmt.fp32.read k.ftz)
  let block (b : Nat) : List Byte × FpFlags := toBlock k scale ((vs.drop (16 * (b % 4))).take 16)
  let on (b : Nat) : Bool := inPart b && blockOn m b
  let written := (List.range 16).filter on
  if written.isEmpty then .ok {}
  else
    let bytes := ((List.range 16).flatMap fun b => if inPart b then (block b).1 else List.replicate 8 0) ++
      ((List.range 16).map fun b => if inPart b then scale else 0)
    let mask := blockMask (bitsOf fun l => l < 32 && on (l / 2))
    let data := lanesOfBytes bytes
    .ok { effs := writeVec x.run.rb 4 c d 12 mask data data
          flags := [(c, written.foldl (fun g b => g.or (block b).2) {})] }

/-- VCVT (R158). A part that the pair does not have is FORMAT at issue where the decoder, which knows no source tag (R133), cannot refuse
it: the model's choice (log 68). -/
def slotVcvt (f : BitVec 4) (d a b : BitVec 5) (x : Ctx) : SlotResult :=
  let t := tagOf f
  x.laned 4 fun c k m => do
    let va ← readVec k x.run.rb (fun s => cvtPair s t) a
    let ab := k.a.read b
    let anc := va.tag == 13 || t == 13
    if t == 12 then cvtToB4 x c k m d va ab
    else
      let p := if anc then field ab.toNat 10 2 else b.toNat
      let ns := elemCount va.tag
      let nd := elemCount t
      if max (ns / nd) (nd / ns) ≤ p then .error kFormat
      else
        let anchor : Int := (ab.extractLsb' 0 10).toInt
        let src : List (Nat × FpFlags) :=
          if va.tag == 12 then
            let bs := regBytes va.lo
            (List.range 256).map fun j =>
              Fmt.fp32.convert k.rm k.ftz k.satBit
                (b4Value k.st k.ftz (nth bs (128 + j / 16) 0) (field (nth bs (j / 2) 0).toNat (4 * (j % 2)) 4))
          else va.elems.map (cvtElem k va.tag t anchor)
        let per := max 1 (nd / 64)
        -- the elements of vd that the conversion produces, in place
        let placed : List (Nat × FpFlags) :=
          if nd ≤ ns then (src.drop (p * nd)).take nd
          else List.replicate (p * ns) (0, {}) ++ src ++ List.replicate (nd - (p + 1) * ns) (0, {})
        let cover (l : Nat) : Bool := nd ≤ ns || (p * ns ≤ l * per && l * per < (p + 1) * ns)
        let wm := bitsOf fun l => m.getLsbD l && cover l
        let (lo, hi) := lanesOfElems t (placed.map (·.1))
        let fl := (List.range nd).foldl (fun g j =>
          if wm.getLsbD (j / per) then g.or (nth placed j (0, {})).2 else g) {}
        return { effs := writeVec x.run.rb 4 c d t (laneMask wm) lo hi, flags := [(c, fl)] }

/-! ### Reductions and scans (R161, R162) -/

/-- The op codes of VRED: 0 sum, 1 min, 2 max, 3 or, 4 and. -/
def redElem (k : Cluster) (t : Tag) (op : BitVec 3) (x y : Nat) : Nat × FpFlags :=
  match op with
  | 0#3 => vecElem k t .add x y
  | 1#3 => vecElem k t .min x y
  | 2#3 => vecElem k t .max x y
  | 3#3 => (x ||| y, {})
  | _ => (x &&& y, {})

/-- The identities of R161. -/
def redIdentity (t : Tag) (op : BitVec 3) : Nat :=
  let w := tagWidth t
  match op with
  | 0#3 => 0
  | 1#3 =>
    match Fmt.ofTag t with
    | some f => f.infinity false
    | none => if tagUnsigned t then 2 ^ w - 1 else 2 ^ (w - 1) - 1
  | 2#3 =>
    match Fmt.ofTag t with
    | some f => f.infinity true
    | none => if tagUnsigned t then 0 else 2 ^ (w - 1)
  | 3#3 => 0
  | _ => 2 ^ w - 1

/-- One level of the fixed binary tree of R161: elements 2i and 2i+1 are combined. -/
def pairUp (f : Nat → Nat → Nat × FpFlags) : List Nat → List Nat × FpFlags
  | x :: y :: rest =>
    let (r, g) := f x y
    let (rs, gs) := pairUp f rest
    (r :: rs, g.or gs)
  | xs => (xs, {})

/-- The tree over a list of 2^n elements. -/
def tree (f : Nat → Nat → Nat × FpFlags) : Nat → List Nat → Nat × FpFlags
  | 0, xs => (nth xs 0 0, {})
  | n + 1, xs =>
    let (ys, g) := pairUp f xs
    let (r, h) := tree f n ys
    (r, g.or h)

/-- VRED (R161). -/
def slotVred (f : BitVec 4) (d a : BitVec 5) (op grp : BitVec 3) (x : Ctx) : SlotResult :=
  let t := tagOf f
  let lat := vecLat t
  x.rate (rateFp64 t) <|
    x.laned lat fun c k m => do
      let va ← readVec k x.run.rb (· == t) a
      let w := tagWidth t
      let size := 2 ^ grp.toNat
      let per := max 1 (32 / w)
      let es := va.elems
      let elem (j : Nat) : Nat := if m.getLsbD (j / per) then nth es j 0 else redIdentity t op
      let group (g : Nat) : Nat × FpFlags :=
        if (List.range size).any fun l => m.getLsbD (g * size + l) then
          tree (redElem k t op) 8 ((List.range (size * per)).map fun j => elem (g * size * per + j))
        else (0, {})
      let results := (List.range (64 / size)).map group
      let lane (l : BitVec 6) : Word × Word := packLane w (List.replicate per (nth results (l.toNat / size) (0, {})).1)
      return { effs := writeVec x.run.rb lat c d t (laneMask m) (Bank.ofFn fun l => (lane l).1) (Bank.ofFn fun l => (lane l).2)
               flags := [(c, results.foldl (fun g r => g.or r.2) {})] }

/-- The chain of R162 from a start value: the value before and after each element. -/
def chain (f : Nat → Nat → Nat × FpFlags) : Nat → List Nat → List (Nat × Nat) × FpFlags
  | _, [] => ([], {})
  | acc, x :: xs =>
    let (r, g) := f acc x
    let (rest, h) := chain f r xs
    ((acc, r) :: rest, g.or h)

/-- The op codes of VSCAN (0 sum, 1 max, 2 min) as those of VRED. -/
def scanOp (op : BitVec 2) : BitVec 3 := if op == 1 then 2 else if op == 2 then 1 else 0

/-- VSCAN (R162). In the exclusive form the last step of a group's chain, whose result no element receives, raises its flags: DESIGN CHOICE,
log 81. -/
def slotVscan (f : BitVec 4) (d a : BitVec 5) (op : BitVec 2) (excl : Bool) (grp : BitVec 3) (x : Ctx) : SlotResult :=
  let t := tagOf f
  let lat := vecLat t
  let rop := scanOp op
  x.rate (rateFp64 t) <|
    x.laned lat fun c k m => do
      let va ← readVec k x.run.rb (· == t) a
      let size := 2 ^ grp.toNat
      let es := va.elems
      let elem (l : Nat) : Nat := if m.getLsbD l then nth es l 0 else redIdentity t rop
      let groups := (List.range (64 / size)).map fun g =>
        chain (redElem k t rop) (redIdentity t rop) ((List.range size).map fun l => elem (g * size + l))
      let vals := groups.flatMap (·.1)
      let (lo, hi) := lanesOfElems t (vals.map fun v => if excl then v.1 else v.2)
      return { effs := writeVec x.run.rb lat c d t (laneMask m) lo hi
               flags := [(c, groups.foldl (fun g r => g.or r.2) {})] }

/-! ### VTOPK (R163) -/

/-- Whether the first value ranks strictly above the second: NaN above +∞, −0 equal to +0. -/
def ranksAbove (k : Cluster) (t : Tag) (x y : Nat) : Bool :=
  if t == 4 then toSigned 32 y < toSigned 32 x
  else
    let a := Fmt.fp32.read k.ftz x
    let b := Fmt.fp32.read k.ftz y
    if a.isNan then !b.isNan else !b.isNan && b.lt a

/-- Put a candidate in its place; later ones of equal rank come after (R163). -/
def insertRanked (above : Nat → Nat → Bool) (c : Nat × Nat) : List (Nat × Nat) → List (Nat × Nat)
  | [] => [c]
  | y :: ys => if above c.1 y.1 then c :: y :: ys else y :: insertRanked above c ys

/-- The value that VTOPK writes of a candidate, and NV of a signalling one: FP32 is read and written as by every vector
operation (R59, R75, R148; log 54). -/
def topkValue (k : Cluster) (t : Tag) (x : Nat) : Nat × FpFlags :=
  if t == 8 then
    let v := Fmt.fp32.read k.ftz x
    ((Fmt.fp32.write k.rm k.ftz v).1, { nv := v.isSig })
  else (x, {})

/-- VTOPK (R163): values to vd, indices to vd+1, the count to the count register. -/
def slotVtopk (nz : Bool) (d a n : BitVec 5) (x : Ctx) : SlotResult :=
  x.laned 4 fun c k _ => do
    let va ← readVec k x.run.rb (fun t => t == 4 || t == 8) a
    let ak := (k.a.read n).toNat
    let rowLen := min (field ak 8 7) 64
    let want := field ak 0 7
    let es := va.elems
    let cand := ((List.range rowLen).map fun j => (nth es j 0, j)).filter fun e => !nz || elemNonzero va.tag k.ftz e.1
    let ranked := cand.foldl (fun r e => insertRanked (ranksAbove k va.tag) e r) []
    let least : Nat := if nz then 0 else if va.tag == 8 then 0xFF800000 else 0x80000000
    let out (l : Nat) : Nat × Nat := match ranked[l]? with
      | some e => ((topkValue k va.tag e.1).1, e.2)
      | none => (least, 0xFFFFFFFF)
    let mask := laneMask (bitsOf fun l => l < min want 64)
    let vals : Bank 6 Word := Bank.ofFn fun l => BitVec.ofNat 32 (out l.toNat).1
    let idxs : Bank 6 Word := Bank.ofFn fun l => BitVec.ofNat 32 (out l.toNat).2
    return {
      effs := writeVec x.run.rb 4 c d va.tag mask vals vals ++ writeVec x.run.rb 4 c (d + 1) 14 mask idxs idxs ++
        [{ lat := 4, cluster := c, what := .scalar n (BitVec.ofNat 64 (min want cand.length)) }]
      flags := [(c, cand.foldl (fun g e => g.or (topkValue k va.tag e.1).2) {})]
      clamp := rowLen < want }

end Sys2Proof.Machine
end

