-- ==== Sys2Proof/Machine/Matrix.lean ====
section
/-! DEFINITION. Slots E and F: the array and the transposer (R170 to R186, R438, R439). -/

namespace Sys2Proof.Machine

/-! ### Operands of the array (R172, R175 to R177) -/

/-- The index an operation uses: (r + x × lc0) mod 64, lc0 read at issue (R175). -/
def rowIndex (k : Cluster) (r : BitVec 6) (x : Bool) : BitVec 6 :=
  if x then r + (nth k.lc.toList 0 0).extractLsb' 0 6 else r

/-- A number spelled by a list of bytes, as 512 bits. -/
def bits512 (bs : List Byte) : BitVec 512 := BitVec.ofNat 512 (ofBytesLE bs)

/-- The K elements of an operand as 64 bytes, and for B4 the eight scale bytes. -/
structure MatRow where
  codes : BitVec 512
  scales : DWord

/-- The view bytes of a Cistern operand (R176): the geometry's row, rotated by ρ along its row of home banks. -/
def operandUnit (a : Alloc) (c : ClusterId) (base geo i : Nat) : Nat :=
  let off := field base 0 32 + field geo 36 6 * field geo 16 16 + i * field geo 0 16
  let u := off / 64
  let hb := homeBankCount a c
  (u - u % hb) + (u % hb + field geo 32 4) % hb

/-- A Cistern operand (R176, R177): `none` when its tile-mask bit turns it off, else the row and the units read. That sbase is a multiple of 8
is checked for B4 alone: DEDUCED, log 82, from the field's row, for the fault's line names no format. -/
def cisternOperand (x : Ctx) (c : ClusterId) (k : Cluster) (n : BitVec 5) (b4 : Bool) (i : BitVec 6) :
    Except Byte (Option (MatRow × List Nat)) :=
  let base := (k.a.read n).toNat
  let geo := (k.a.read (n + 1)).toNat
  if bitOf geo 45 && !(k.m.read (BitVec.ofNat 3 (field geo 42 3))).getLsbD (field geo 36 6) then .ok none
  else do
    let a ←
      match x.core.handles.read (BitVec.ofNat 6 (field base 32 6)) with
      | some a => if x.run.ins.contains (BitVec.ofNat 6 (field base 32 6)) then Except.ok a else .error kCistern
      | none => .error kCistern
    let v := homeView a c
    let sbase := field base 40 24
    let soff := sbase + 8 * (64 * field geo 36 6 + i.toNat)
    if v.count = 0 || field base 0 32 % 64 != 0 || field geo 16 16 % 64 != 0 || field geo 0 16 % 64 != 0 then .error kCistern
    else if b4 && (sbase % 8 != 0 || !v.holds soff 8) then .error kCistern
    else
      let u := operandUnit a c base geo i.toNat
      if v.count ≤ u then .error kCistern
      else
        let units := v.unit u :: (if b4 then v.units soff 8 else [])
        if anyPoison x.core.cisPoison units then .error kPoison
        else
          let scales := if b4 then BitVec.ofNat 64 (ofBytesLE (v.read x.core.cistern soff 8)) else 0
          .ok (some (⟨bits512 (v.read x.core.cistern (64 * u) 64), scales⟩, units))

/-- The operand that a source names (R175): `none` when R177 turns the operation off. The tag is checked of tiles and
vectors only. -/
def matOperand (x : Ctx) (c : ClusterId) (k : Cluster) (src : MatSrc) (t check : Tag) (i : BitVec 6) :
    Except Byte (Option (MatRow × List Nat)) :=
  match src.kind with
  | 0#2 =>
    let r := k.t.read (src.low.extractLsb' 4 3)
    if r.tag == check then .ok (some (⟨r.rows.read i, r.scales.read i⟩, [])) else .error kFormat
  | 1#2 => do
    let v ← readVec k x.run.rb (· == check) (src.low.extractLsb' 2 5)
    let bs := regBytes v.lo
    let q := (src.low.extractLsb' 0 2).toNat
    .ok (some (⟨bits512 ((bs.drop (64 * q)).take 64),
      if t == 12 then BitVec.ofNat 64 (ofBytesLE ((bs.drop (128 + 8 * q)).take 8)) else 0⟩, []))
  | 2#2 => cisternOperand x c k (src.low.extractLsb' 2 5) (t == 12) i
  | _ => .ok (some (⟨0, 0⟩, []))

/-- The elements of 64 bytes in a matrix format (R60, R172), read with to_real under cfg.ftz (R179). -/
def matElems (k : Cluster) (t : Tag) (r : MatRow) : List Fv :=
  if t == 12 then
    (List.range 128).map fun j =>
      b4Value k.st k.ftz (r.scales.extractLsb' (8 * (j / 16)) 8) (r.codes.extractLsb' (4 * j) 4).toNat
  else
    let w := tagWidth t
    (List.range (512 / w)).map fun j =>
      let e := field r.codes.toNat (w * j) w
      match Fmt.ofTag t with
      | some f => f.read k.ftz e
      | none => .ofInt (intOf t e) 0

/-- The width class of a matrix format (R172): 8 bits, 16 bits, or B4; NONE and other tags are in none. -/
def matClass (t : Tag) : Nat :=
  if t == 1 || t == 2 || t == 10 || t == 11 then 1 else if t == 6 || t == 7 then 2 else if t == 12 then 3 else 0

/-! ### Widened formats (R438, R439) -/

/-- The format that tag 16 + f is widened to. -/
def wideTag (f : BitVec 2) : Tag := if f == 0 || f == 1 then 10 else if f == 2 then 1 else 2

/-- One byte of an absent format, converted exactly. -/
def widenByte (f : BitVec 2) (b : Byte) : Byte :=
  let x := b.toNat
  let e4m3 (e m ebias mbits : Nat) : Byte :=
    let v : Fv := if e = 0 then .num (bitOf x 5) m (1 - (ebias + mbits : Int))
      else .num (bitOf x 5) (2 ^ mbits + m) (e - (ebias + mbits : Int))
    BitVec.ofNat 8 (Fmt.e4m3.write 0 false v).1
  match f with
  | 0#2 => e4m3 (field x 3 2) (field x 0 3) 1 3
  | 1#2 => e4m3 (field x 2 3) (field x 0 2) 3 2
  | 2#2 => BitVec.ofInt 8 (toSigned 4 x)
  | _ => BitVec.ofNat 8 (x % 16)

def widenRow (f : BitVec 2) (r : MatRow) : MatRow :=
  ⟨bits512 ((List.range 64).map fun j => widenByte f (r.codes.extractLsb' (8 * j) 8)), r.scales⟩

/-! ### MLOADB and the pushes (R178 to R180) -/

/-- Write a shadow column; column 63 exchanges the tiles (R178). -/
def loadColumn (col : BitVec 6) (r : MatRow) (t : Tag) (k : Cluster) : Cluster :=
  let shadow := k.shadow.write col ⟨r.codes, r.scales, t⟩
  if col == 63 then { k with resident := shadow, shadow := k.resident } else { k with shadow := shadow }

/-- MLOADB of format `t`, its source tagged `check` and read through `conv`. -/
def loadB (t check : Tag) (conv : MatRow → MatRow) (r : BitVec 6) (src : MatSrc) (x : Ctx) : SlotResult :=
  x.guarded 0 fun c k => do
    let col := rowIndex k r src.x
    let o ← matOperand x c k src t check col
    match o with
    | none => .ok {}
    | some (row, units) => .ok { now := [(c, loadColumn col (conv row) t)], units := units }

/-- The contribution of a push (R179): every product truncated on the anchor grid, column by column. -/
def products (k : Cluster) (t : Tag) (row : MatRow) (anchor : Int) : Bank 6 (List Product) :=
  let a := matElems k t row
  Bank.ofFn fun col =>
    let b := k.resident.read col
    (a.zip (matElems k b.tag ⟨b.codes, b.scales⟩)).map fun e => (e.1.mul e.2).1.onGrid anchor

/-- MPUSH of format `t`. -/
def push (t check : Tag) (conv : MatRow → MatRow) (r : BitVec 6) (src : MatSrc) (x : Ctx) : SlotResult :=
  x.guarded 68 fun c k => do
    let i := rowIndex k r src.x
    let o ← matOperand x c k src t check i
    match o with
    | none => .ok {}
    | some (row, units) =>
      if k.resident.list.any fun b => matClass b.tag != matClass t then .error kFormat
      else
        let row' := k.acc.read i
        let w := RegWrite.contribution i row'.overwrite (products k t (conv row) row'.anchor.toInt) false
        .ok { effs := [{ lat := 68, cluster := c, what := w }], units := units }

def slotMloadb (f : BitVec 4) (r : BitVec 6) (src : MatSrc) (x : Ctx) : SlotResult :=
  loadB (tagOf f) (tagOf f) id r src x
def slotMpush (f : BitVec 4) (r : BitVec 6) (src : MatSrc) (x : Ctx) : SlotResult :=
  push (tagOf f) (tagOf f) id r src x

/-- Some cluster's guard is true (R439). -/
def Ctx.anyOn (x : Ctx) : Bool := allClusters.any x.on

/-- MLOADB and MPUSH of a widened format (R439): sources are tagged U8, and SUBST is set. -/
def slotMloadbWide (f : BitVec 2) (r : BitVec 6) (src : MatSrc) (x : Ctx) : SlotResult := do
  let i ← loadB (wideTag f) 2 (widenRow f) r src x
  return { i with subst := x.anyOn }
def slotMpushWide (f : BitVec 2) (r : BitVec 6) (src : MatSrc) (x : Ctx) : SlotResult := do
  let i ← push (wideTag f) 2 (widenRow f) r src x
  return { i with subst := x.anyOn }

/-- All eight blocks of a row have type int. -/
def allInt (scales : DWord) : Bool := (List.range 8).all fun b => scales.extractLsb' (8 * b + 6) 2 == 0

/-- MPUSH.SC (R180): exact integer sums of code products, whatever the scales, the anchor and cfg.ftz. -/
def slotMpushSc (r : BitVec 6) (src : MatSrc) (x : Ctx) : SlotResult :=
  x.guarded 68 fun c k => do
    let i := rowIndex k r src.x
    let o ← matOperand x c k src 12 12 i
    match o with
    | none => .ok {}
    | some (row, units) =>
      if !allInt row.scales || k.resident.list.any (fun b => b.tag != 12 || !allInt b.scales) then .error kFormat
      else
        let code (z : BitVec 512) (j : Nat) : Int := toSigned 4 (z.extractLsb' (4 * j) 4).toNat
        let cols : Bank 6 (List Product) := Bank.ofFn fun col =>
          [.fin ((List.range 128).map fun j => code row.codes j * code (k.resident.read col).codes j).sum true]
        .ok { effs := [{ lat := 68, cluster := c, what := .contribution i (k.acc.read i).overwrite cols false }], units := units }

/-- Every accumulator row. -/
def allRowNumbers : List (BitVec 6) := (List.range 64).map (BitVec.ofNat 6)

/-- MACC (R181). -/
def slotMacc (r : BitVec 6) (x pol allRows clr : Bool) (ctx : Ctx) : SlotResult :=
  ctx.guarded 1 fun c k =>
    let rows := if allRows then allRowNumbers else [rowIndex k r x]
    .ok { effs := rows.map fun i => { lat := 1, cluster := c, what := .policy i pol clr } }

/-! ### Drains (R72, R73, R183) -/

/-- Lanes for 64 elements of width `w` placed as part `p` of a register: the mask and the lanes. -/
def partLanes (t : Tag) (p : Nat) (es : List Nat) : DWord × Bank 6 Word × Bank 6 Word :=
  let per := max 1 (32 / tagWidth t)
  let first := 64 * p / per
  let (lo, hi) := lanesOfElems t (List.replicate (64 * p) 0 ++ es)
  (bitsOf fun l => first ≤ l && l < first + 64 / per, lo, hi)

/-- Mark a row saturated. -/
def setRowSat (i : BitVec 6) (k : Cluster) : Cluster := { k with acc := k.acc.modify i fun r => { r with sat := true } }

/-- MDRAIN (R183). A 16-bit drain to a tile raises the flags and SAT of all 64 elements, the 32 that it does not write too: DESIGN CHOICE,
log 84. -/
def slotMdrain (f : BitVec 4) (dest : BitVec 5) (r : BitVec 6) (x : Bool) (p : BitVec 2) (toTile : Bool) (ctx : Ctx) : SlotResult :=
  let t := tagOf f
  ctx.guarded 4 fun c k =>
    let i := rowIndex k r x
    let row := k.acc.read i
    let es := row.elems.list.map fun e => e.drain row.anchor.toInt t k.rm k.ftz k.satBit
    let fl := es.foldl (fun g e => g.or e.2) {}
    let vals := es.map (·.1)
    let effs : List Eff :=
      if toTile then
        let n := 512 / tagWidth t
        let codes : BitVec 512 := BitVec.ofNat 512 (packNat (tagWidth t) ((vals.drop (n * p.toNat)).take n))
        [{ lat := 4, cluster := c, what := .tileRow (dest.extractLsb' 0 3) i codes 0 t }]
      else
        let (m, lo, hi) := partLanes t p.toNat vals
        writeVec ctx.run.rb 4 c dest t (laneMask m) lo hi
    .ok { effs := effs, flags := [(c, fl)], now := if fl.sat then [(c, setRowSat i)] else [] }

/-! ### The transposer (R184 to R186) -/

/-- TRIN (R184). -/
def slotTrin (f : BitVec 4) (v : BitVec 5) (p : BitVec 2) (x : Ctx) : SlotResult :=
  let t := tagOf f
  x.guarded 0 fun c k => do
    let va ← readVec k x.run.rb (· == t) v
    if k.tr.wp != 0 && k.tr.tag != t then .error kFormat
    else
      let es := (va.elems.drop (64 * p.toNat)).take 64
      let row : Bank 6 Word := Bank.ofFn fun j => BitVec.ofNat 32 (nth es j.toNat 0)
      let put (k : Cluster) : Cluster :=
        { k with tr := { k.tr with
            rows := k.tr.rows.write k.tr.wp row
            tag := if k.tr.wp == 0 then t else k.tr.tag
            wp := k.tr.wp + 1 } }
      .ok { now := [(c, put)] }

/-- TROUT (R185). To a tile the part p is not looked at beyond what the width allows: DESIGN CHOICE, log 83, for R185 gives it no range there. -/
def slotTrout (dest : BitVec 5) (p : BitVec 2) (toTile : Bool) (x : Ctx) : SlotResult :=
  x.guarded 2 fun c k =>
    let t := k.tr.tag
    let w := tagWidth t
    if !tagValid t || 32 / w ≤ p.toNat || (toTile && w != 8) then .error kFormat
    else
      let es := (List.range 64).map fun i => ((k.tr.rows.read (BitVec.ofNat 6 i)).read k.tr.cp).toNat
      let effs : List Eff :=
        if toTile then
          [{ lat := 2, cluster := c, what := .tileRow (dest.extractLsb' 0 3) k.tr.cp (BitVec.ofNat 512 (packNat 8 es)) 0 t }]
        else
          let (m, lo, hi) := partLanes t p.toNat es
          writeVec x.run.rb 2 c dest t (laneMask m) lo hi
      .ok { effs := effs, now := [(c, fun k => { k with tr := { k.tr with cp := k.tr.cp + 1 } })] }

/-- TRCLR (R186), from n + 1 (R173). -/
def slotTrclr (x : Ctx) : SlotResult :=
  x.guarded 1 fun c _ => .ok { effs := [{ lat := 1, cluster := c, what := .clearTransposer }] }

end Sys2Proof.Machine
end

