-- ==== Sys2Proof/Machine/SlotH.lean ====
section
/-! DEFINITION. Slot H: scale table, cfg, anchors, tile masks, RETAG and the threshold unit (R187 to R195). -/

namespace Sys2Proof.Machine

/-- One result of a slot H operation, written at n + 1 (R173). -/
def Ctx.config (x : Ctx) (f : ClusterId → Cluster → List RegWrite) : SlotResult :=
  x.guarded 1 fun c k => .ok { effs := (f c k).map fun w => { lat := 1, cluster := c, what := w } }

/-- STLD and STLDA (R188). -/
def slotStld (i : BitVec 4) (e : Byte) (x : Ctx) : SlotResult := x.config fun _ _ => [.scale i e]
def slotStlda (a : BitVec 5) (half : Bool) (x : Ctx) : SlotResult :=
  x.config fun _ k => (List.range 8).map fun n =>
    .scale (BitVec.ofNat 4 ((if half then 8 else 0) + n)) ((k.a.read a).extractLsb' (8 * n) 8)

/-- The cfg bits that the two masks of CFGSET and CFGCLR mark: 20:16 and 3:0 (R187, R189). -/
def cfgMask (flags : BitVec 5) (low : BitVec 4) : DWord := (zext flags <<< 16) ||| zext low
def slotCfgset (flags : BitVec 5) (low : BitVec 4) (x : Ctx) : SlotResult := x.config fun _ _ => [.cfgBits (cfgMask flags low) 0]
def slotCfgclr (flags : BitVec 5) (low : BitVec 4) (x : Ctx) : SlotResult := x.config fun _ _ => [.cfgBits 0 (cfgMask flags low)]
def slotCfgrd (d : BitVec 5) (x : Ctx) : SlotResult := x.config fun _ k => [.scalar d k.cfg]
def slotMargin (a : BitVec 5) (x : Ctx) : SlotResult := x.config fun _ k => [.margin ((k.a.read a).extractLsb' 0 32)]

/-- MANCHOR (R182): a signed ten-bit anchor. -/
def slotManchor (r : BitVec 6) (allRows x : Bool) (a : BitVec 5) (ctx : Ctx) : SlotResult :=
  ctx.config fun _ k =>
    let v : BitVec 16 := ((k.a.read a).extractLsb' 0 10).signExtend 16
    (if allRows then allRowNumbers else [rowIndex k r x]).map fun i => .anchor i v

/-- Tile masks (R191). -/
def slotMset (mk : BitVec 3) (a : BitVec 5) (x : Ctx) : SlotResult := x.config fun _ k => [.tileMask mk (k.a.read a)]
def slotMask2 (op : DWord → DWord → DWord) (md ma mb : BitVec 3) (x : Ctx) : SlotResult :=
  x.config fun _ k => [.tileMask md (op (k.m.read ma) (k.m.read mb))]
def slotMnot (md ma : BitVec 3) (x : Ctx) : SlotResult := x.config fun _ k => [.tileMask md (~~~(k.m.read ma))]
def slotMmova (d : BitVec 5) (mk : BitVec 3) (x : Ctx) : SlotResult := x.config fun _ k => [.scalar d (k.m.read mk)]

/-- The group of tags that RETAG may exchange within (R192); 0 is no group. -/
def retagGroup (tile : Bool) (t : Tag) : Nat :=
  if t == 1 || t == 2 || t == 10 || t == 11 then 1
  else if tile && t == 12 then 1
  else if t == 3 || t == 6 || t == 7 then 2
  else if !tile && (t == 4 || t == 8 || t == 14 || t == 15) then 3
  else if !tile && tagPair t then 4
  else 0

/-- RETAG (R192). A tile entering or leaving B4 has its scale plane set to zero. -/
def slotRetag (tile : Bool) (reg : BitVec 5) (tag : Tag) (x : Ctx) : SlotResult :=
  x.guarded 1 fun c k =>
    let g := retagGroup tile tag
    if tile then
      let old := (k.t.read (reg.extractLsb' 0 3)).tag
      if g == 0 || retagGroup true old != g then .error kFormat
      else .ok { effs := [{ lat := 1, cluster := c, what := .tileTag (reg.extractLsb' 0 3) tag ((old == 12) != (tag == 12)) }] }
    else do
      let v ← readVec k x.run.rb (fun t => g != 0 && retagGroup false t == g) reg
      let one (r : BitVec 5) : Eff := { lat := 1, cluster := c, what := .vecTag (physV x.run.rb r) tag }
      .ok { effs := if tagPair v.tag then [one reg, one (reg + 1)] else [one reg] }

/-! ### The threshold unit (R193 to R195) -/

/-- HBOUND's result from its register and the scale table. -/
def boundOf (st : Bank 4 Byte) (r : DWord) : Bound :=
  let q : Byte := r.extractLsb' 0 8
  let kb : Byte := r.extractLsb' 8 8
  let n := let n := field r.toNat 16 8; if n = 0 || 128 < n then 128 else n
  let j : BitVec 6 := r.extractLsb' 24 6
  let sq := st.read (q.extractLsb' 2 4)
  let sk := st.read (kb.extractLsb' 2 4)
  if sq == 0xFF || sk == 0xFF then ⟨0, true, 0x7F800000, j⟩
  else
    let e : Int := (sq.toNat : Int) - 127 - (q.extractLsb' 0 2).toNat + ((sk.toNat : Int) - 127 - (kb.extractLsb' 0 2).toNat)
    ⟨BitVec.ofInt 16 e, false, BitVec.ofNat 32 (Fmt.fp32.write 2 false (.num false (33 * n) (e - 2))).1, j⟩

/-- HBOUND (R193). tb.e stays as it was when a scale is NaN. -/
def slotHbound (a : BitVec 5) (x : Ctx) : SlotResult :=
  x.config fun _ k =>
    let b := boundOf k.st (k.a.read a)
    [.bound (if b.nan then { b with e := k.tb.e } else b)]

/-- The running maximum after an update, and whether the block is live (R194). -/
def markRow (k : Cluster) (row : AccRow) (upd : Bool) : Word × Bool :=
  let fp (w : Word) : Fv := Fmt.fp32.read false w.toNat
  let sums := row.elems.list
  if k.tb.nan || k.tb.beta == 0x7F800000 || sums.any (fun e => e.state != .finite) then (row.max, true)
  else
    let top := sums.foldl (fun m e => if m < e.sum.toInt then e.sum.toInt else m) (nth sums 0 ⟨0, .finite⟩).sum.toInt
    let v := Fv.ofInt top k.tb.e.toInt
    let low := BitVec.ofNat 32 (Fmt.fp32.write 3 false (v.add 3 (fp k.tb.beta).neg).1).1
    let max := if upd && (fp row.max).lt (fp low) then low else row.max
    let margin := fp (k.cfg.extractLsb' 32 32)
    let t : Fv :=
      if max == 0xFF800000 || margin == .inf false || margin.isNan then .inf true
      else if margin == .inf true then .inf false
      else ((fp max).add 0 margin.neg).1
    (max, t.le (v.add 0 (fp k.tb.beta)).1)

/-- TMARK (R194): mode bit 0 updates, bit 1 marks. -/
def slotTmark (r : BitVec 6) (x : Bool) (mode : BitVec 2) (mk : BitVec 3) (ctx : Ctx) : SlotResult :=
  ctx.config fun _ k =>
    let i := rowIndex k r x
    let (max, live) := markRow k (k.acc.read i) (mode.getLsbD 0)
    (if mode.getLsbD 0 then [.rowMax i max] else []) ++
      (if mode.getLsbD 1 && live then [.tileMaskBit mk k.tb.j] else [])

/-- TCLR (R195). -/
def slotTclr (x : Ctx) : SlotResult := x.config fun _ _ => [.clearMaxes]

end Sys2Proof.Machine
end

