-- ==== Sys2Proof/Machine/SlotG.lean ====
section
/-! DEFINITION. Slot G: Cistern loads and stores, far reads, atomics and the switch (R164 to R169, R200 to R202, R263 to R266). -/

namespace Sys2Proof.Machine

/-- The row offset of a near form: an immediate 0 to 15, or a0 to a15 (R98, R164). -/
def nearRow (k : Cluster) (row : BitVec 5) : Nat :=
  if row.getLsbD 4 then (k.a.read ((row.extractLsb' 0 4).setWidth 5)).toNat else row.toNat

/-- The row offset of an X form (R98, R164). -/
def extRow (k : Cluster) (e : Ext) : Nat :=
  if e.mode then (k.a.read (e.row.extractLsb' 0 5)).toNat else e.row.toNat

/-- Bytes of a vector row: 512 for a pair format, 256 otherwise (R165). -/
def rowBytes (t : Tag) : Nat := if tagPair t then 512 else 256

/-- Lanes from the bytes of a vector row (R165): pair elements split over two registers; B4 leaves bytes 144 up zero. -/
def rowLanes (t : Tag) (bs : List Byte) : Bank 6 Word × Bank 6 Word :=
  if tagPair t then
    let word (n : Nat) : Word := BitVec.ofNat 32 (ofBytesLE ((bs.drop (4 * n)).take 4))
    (Bank.ofFn fun l => word (2 * l.toNat), Bank.ofFn fun l => word (2 * l.toNat + 1))
  else
    let lanes := lanesOfBytes (if t == 12 then bs.take 144 else bs)
    (lanes, lanes)

/-- The bytes of a register or pair as a vector row (R165). -/
def opBytes (v : VOp) : List Byte :=
  if tagPair v.tag then
    (List.range 64).flatMap fun l =>
      bytesLE 4 (v.lo.read (BitVec.ofNat 6 l)).toNat ++ bytesLE 4 (v.hi.read (BitVec.ofNat 6 l)).toNat
  else regBytes v.lo

/-! ### Home-view loads and stores (R166, R168) -/

/-- CLD and CLD.U: the bytes at issue, the register 6 kc later. -/
def loadHome (f : BitVec 4) (v : BitVec 5) (hnd : BitVec 6) (off : Cluster → Nat) (x : Ctx) : SlotResult :=
  let t := tagOf f
  x.guarded 6 fun c k => do
    let a ← x.handle hnd true false
    let view := homeView a c
    let n := rowBytes t
    if !view.holds (off k) n then .error kCistern
    else if anyPoison x.core.cisPoison (view.units (off k) n) then .error kPoison
    else
      let (lo, hi) := rowLanes t (view.read x.core.cistern (off k) n)
      .ok { effs := writeVec x.run.rb 6 c v t (laneMask (-1)) lo hi, units := view.units (off k) n }

def slotCld (f : BitVec 4) (v : BitVec 5) (hnd : BitVec 6) (row : BitVec 5) (x : Ctx) : SlotResult :=
  loadHome f v hnd (fun k => rowBytes (tagOf f) * nearRow k row) x
def slotCldU (f : BitVec 4) (v : BitVec 5) (hnd : BitVec 6) (e : Ext) (x : Ctx) : SlotResult :=
  loadHome f v hnd (fun k => rowBytes (tagOf f) * extRow k e + e.low.toNat) x

/-- CST, CST.U and CST.M: the bytes at issue; `off` is the byte offset from the row's length. -/
def storeHome (v : BitVec 5) (hnd : BitVec 6) (off : Cluster → Nat → Nat) (mask : Option (BitVec 5)) (x : Ctx) : SlotResult :=
  x.guarded 0 fun c k => do
    let vs ← readVec k x.run.rb (fun _ => true) v
    let vm ←
      match mask with
      | some m => (readVec k x.run.rb (fun t => t == 15 || t == 4) m).map some
      | none => Except.ok none
    let a ← x.handle hnd false true
    let view := homeView a c
    let bs := opBytes vs
    let n := rowBytes vs.tag
    let o := off k n
    let keep (i : Nat) : Bool :=
      match vm with
      | some m => (m.lo.read (BitVec.ofNat 6 (i / 32))).getLsbD (i % 32)
      | none => true
    if !view.holds o n then .error kCistern
    else
      let ws := (view.writes o bs keep).filter fun w => w.mask != 0
      -- a masked store reads the rest of a unit that it writes in part
      if mask.isSome && ws.any (fun w => w.mask != -1 && x.core.cisPoison.contains w.unit) then .error kPoison
      else .ok { cis := ws, units := view.units o n }

def slotCst (v : BitVec 5) (hnd : BitVec 6) (row : BitVec 5) (x : Ctx) : SlotResult :=
  storeHome v hnd (fun k n => n * nearRow k row) none x
def slotCstU (v : BitVec 5) (hnd : BitVec 6) (e : Ext) (x : Ctx) : SlotResult :=
  storeHome v hnd (fun k n => n * extRow k e + e.low.toNat) none x
def slotCstM (v : BitVec 5) (hnd : BitVec 6) (e : Ext) (x : Ctx) : SlotResult :=
  storeHome v hnd (fun k n => n * extRow k e) (some e.reg2) x

/-! ### Spilled registers (R436, R437) -/

/-- Bytes of the home view of h63 at issue, and what they write 6 kc later, as CLD does. -/
def spillLoad (off n : Nat) (f : List Byte → List RegWrite) (x : Ctx) : SlotResult :=
  x.guarded 6 fun c _ => do
    let a ← x.handle 63 true false
    let view := homeView a c
    if !view.holds off n then .error kCistern
    else if anyPoison x.core.cisPoison (view.units off n) then .error kPoison
    else .ok { effs := (f (view.read x.core.cistern off n)).map fun w => { lat := 6, cluster := c, what := w }
               units := view.units off n }

/-- Bytes stored in the home view of h63 at issue, as CST does. -/
def spillStore (off : Nat) (f : Cluster → List Byte) (x : Ctx) : SlotResult :=
  x.guarded 0 fun c k => do
    let a ← x.handle 63 false true
    let view := homeView a c
    let bs := f k
    if !view.holds off bs.length then .error kCistern
    else .ok { cis := view.writes off bs fun _ => true, units := view.units off bs.length }

/-- Results 6 kc later that no byte is read for. -/
def spillReset (ws : List RegWrite) (x : Ctx) : SlotResult :=
  x.guarded 6 fun c _ => .ok { effs := ws.map fun w => { lat := 6, cluster := c, what := w } }

/-- The move of a spilled register, in slot G: a scalar takes 8 bytes, a tile its 64 rows; a spilled tile's scales are zero, for nothing
that may write one fills them (R61, R436). -/
def slotSpill : SpillMove → Ctx → SlotResult
  | .loadA r off => spillLoad off 8 fun bs => [.scalar r (BitVec.ofNat 64 (ofBytesLE bs))]
  | .storeA r off => spillStore off fun k => bytesLE 8 (k.a.read r).toNat
  | .loadT t tag off => spillLoad off 4096 fun bs =>
      (List.range 64).map fun i => .tileRow t (BitVec.ofNat 6 i) (bits512 ((bs.drop (64 * i)).take 64)) 0 tag
  | .storeT t off => spillStore off fun k => (k.t.read t).rows.list.flatMap fun row => bytesLE 64 row.toNat
  | .resetA r => spillReset [.scalar r 0]
  | .resetV v => spillReset [.vec v (Bank.fill (-1)) (Bank.fill 0) 0]
  | .resetT t => spillReset [.tileTag t 0 true]

/-! ### Far reads and atomics (R167, R263 to R265) -/

/-- CLD.FAR (R167). -/
def slotCldFar (f : BitVec 4) (v : BitVec 5) (hnd : BitVec 6) (e : Ext) (x : Ctx) : SlotResult :=
  let t := tagOf f
  x.guardedFar fun c k => do
    let a ← x.handle hnd true false
    let n := rowBytes t
    if !(farView a).holds (n * extRow k e) n then .error kCistern
    else .ok { far := [{ issued := x.stamp, cluster := c, due := x.run.kc + e.low.toNat, op := .load, home := false,
                         alloc := a, row := extRow k e, dest := physV x.run.rb v, tag := t, arrive := x.h.arrive,
                         phase := .waiting }] }

/-- The tags that vb may carry for an atomic kind (R263). -/
def atomTag (kind : BitVec 4) (t : Tag) : Bool :=
  let n := kind.toNat
  if n = 0 || n = 3 || n = 4 then t == 4
  else if n = 1 || n = 5 || n = 6 then t == 8
  else if n = 2 then t == 13
  else if n = 10 || n = 11 then t == 4 || t == 8 || t == 14 || t == 15
  else t == 4 || t == 14 || t == 15

/-- The 64 elements of an operand as 64-bit words. -/
def elems64 (v : VOp) : Bank 6 DWord :=
  Bank.ofFn fun l => if tagPair v.tag then v.hi.read l ++ v.lo.read l else zext (v.lo.read l)

/-- The operands of an atomic with their tag checks: vb, and for CAS vd with the same tag (R263). -/
def atomOperands (x : Ctx) (k : Cluster) (kind : BitVec 4) (v : BitVec 5) (e : Ext) : Except Byte (VOp × VOp) := do
  let vb ← readVec k x.run.rb (atomTag kind) e.reg2
  if kind == 11 then
    let vd ← readVec k x.run.rb (· == vb.tag) v
    return (vb, vd)
  else return (vb, vb)

/-- The bytes that an atomic's row takes. -/
def atomBytes (kind : BitVec 4) : Nat := if kind == 2 then 512 else 256

/-- CATOM, and the local CATOM.FAR (R263, R264). -/
def localAtomic (x : Ctx) (c : ClusterId) (kind : BitVec 4) (v : BitVec 5) (hnd : BitVec 6) (e : Ext) (home : Bool) (row : Nat)
    (vb vd : VOp) : SlotResult := do
  let a ← x.handle hnd true true
  let view := if home then homeView a c else farView a
  if !view.holds (atomBytes kind * row) (atomBytes kind) then .error kCistern
  else .ok { far := [{ issued := x.stamp, cluster := c, due := x.run.kc + e.low.toNat,
                       op := .atomic kind (elems64 vb) (elems64 vd), home := home, alloc := a, row := row,
                       dest := physV x.run.rb v, tag := vb.tag, arrive := x.h.arrive, phase := .waiting }] }

def slotCatom (kind : BitVec 4) (v : BitVec 5) (hnd : BitVec 6) (e : Ext) (x : Ctx) : SlotResult :=
  x.guardedFar fun c k => do
    let (vb, vd) ← atomOperands x k kind v e
    localAtomic x c kind v hnd e true (extRow k e) vb vd

/-- CATOM.FAR (R265): in mode 1 the row register may name another core of the partition. -/
def slotCatomFar (kind : BitVec 4) (v : BitVec 5) (hnd : BitVec 6) (e : Ext) (x : Ctx) : SlotResult :=
  x.guardedFar fun c k => do
    let (vb, vd) ← atomOperands x k kind v e
    let r := k.a.read (e.row.extractLsb' 0 5)
    let target : CoreId := r.extractLsb' 56 7
    if e.mode && r.getLsbD 63 && target != x.me then
      if !x.peers.contains target then .error kCistern
      else
        let dest := physV x.run.rb v
        .ok { far := [{ issued := x.stamp, cluster := c, due := x.run.kc + e.low.toNat,
                        op := .atomic kind (elems64 vb) (elems64 vd), home := false, alloc := ⟨0, 0, 0, 0, 0, 0⟩,
                        row := field r.toNat 0 32, dest := dest, tag := vb.tag, arrive := x.h.arrive, phase := .remote }]
              remote := [{ src := x.me, target := target, pos := x.pos, cluster := c, due := x.run.kc + e.low.toNat,
                           handle := hnd, row := field r.toNat 0 32, kind := kind, x := elems64 vb, c := elems64 vd,
                           dest := dest }] }
    else localAtomic x c kind v hnd e false (if e.mode then field r.toNat 0 32 else e.row.toNat) vb vd

/-- One element of an atomic: old, x, c to the new element, and whether an anchored add clamped (R263). -/
def atomElem (kind : BitVec 4) (old x c : DWord) : DWord × Bool :=
  let o := old.extractLsb' 0 32
  let y := x.extractLsb' 0 32
  let fp (f : Fv → Fv → Fv × FpFlags) : DWord :=
    BitVec.ofNat 64 (Fmt.fp32.write 0 false (f (Fmt.fp32.read false o.toNat) (Fmt.fp32.read false y.toNat)).1).1
  match kind with
  | 0#4 => (zext (o + y), false)
  | 1#4 => (fp (Fv.add 0), false)
  | 2#4 => ancAdd old x
  | 3#4 => (zext (if o.slt y then o else y), false)
  | 4#4 => (zext (if o.slt y then y else o), false)
  | 5#4 => (fp (Fv.minmax false), false)
  | 6#4 => (fp (Fv.minmax true), false)
  | 7#4 => (old ||| x, false)
  | 8#4 => (old &&& x, false)
  | 9#4 => (old ^^^ x, false)
  | 10#4 => (x, false)
  | 11#4 => (if old == c then x else old, false)
  | _ => (old ||| x, false)

/-- The read-modify-write of one row in a Cistern (R264): the Cistern after it, the old elements, whether a unit was
poisoned (its elements stay), and whether an anchored add clamped. -/
def atomRow (m : Memory) (bad : List Nat) (v : View) (kind : BitVec 4) (row : Nat) (x c : Bank 6 DWord) :
    Memory × Bank 6 DWord × Bool × Bool :=
  let n := if kind == 2 then 8 else 4
  let addr (l : Nat) : Nat := 64 * v.unit ((64 * n * row + n * l) / 64) + (64 * n * row + n * l) % 64
  let old : Bank 6 DWord := Bank.ofFn fun l => BitVec.ofNat 64 (m.readNat (addr l.toNat) n)
  let new (l : Nat) : DWord × Bool :=
    let i := BitVec.ofNat 6 l
    atomElem kind (old.read i) (x.read i) (c.read i)
  let poisoned (l : Nat) : Bool := bad.contains (addr l / 64)
  let m' := (List.range 64).foldl (fun m l => if poisoned l then m else m.writeNat (addr l) n (new l).1.toNat) m
  (m', old, (List.range 64).any poisoned, (List.range 64).any fun l => !poisoned l && (new l).2)

/-! ### The switch (R200 to R202) -/

/-- The tags that fit a switch port (R201). -/
def switchable (t : Tag) : Bool := tagNarrow t && t != 12

/-- A quarter of a register arriving in a cluster 3 kc later. -/
def quarter (x : Ctx) (c : ClusterId) (d : BitVec 5) (q : BitVec 2) (vs : VOp) : List Eff :=
  [{ lat := 3, cluster := c, what := .quarter (physV x.run.rb d) q (Bank.ofFn fun l => vs.lo.read (q ++ l)) vs.tag }]

def partner (k : Cluster) (a : BitVec 4) : ClusterId := (k.a.read (a.setWidth 5)).extractLsb' 0 4

def slotSwsend (d v : BitVec 5) (q : BitVec 2) (a : BitVec 4) (x : Ctx) : SlotResult :=
  let senders := allClusters.filter x.on
  let dests := senders.map fun c => partner (x.cluster c) a
  if !decide dests.Nodup then .error kSwitch
  else
    x.guarded 3 fun _ k => do
      let vs ← readVec k x.run.rb switchable v
      return { effs := quarter x (partner k a) d q vs }

def slotSwrecv (d v : BitVec 5) (q : BitVec 2) (a : BitVec 4) (x : Ctx) : SlotResult :=
  x.guarded 3 fun c k => do
    let vs ← readVec (x.cluster (partner k a)) x.run.rb switchable v
    return { effs := quarter x c d q vs }

def slotSwbcast (d v : BitVec 5) (q : BitVec 2) (s : ClusterId) (x : Ctx) : SlotResult :=
  x.guarded 3 fun c _ => do
    let vs ← readVec (x.cluster s) x.run.rb switchable v
    return { effs := quarter x c d q vs }

end Sys2Proof.Machine
end

