-- ==== Sys2Proof/Machine/Flags.lean ====
section
/-! DEFINITION. The sticky flags of cfg and csr.kstat (R33, R41, R42), and arrivals at the kernel barriers (R236 to R238). -/

namespace Sys2Proof.Machine

/-- Flags as they are raised: into the cluster's cfg and into csr.kstat (R42). -/
def CoreSt.raise (k : CoreSt) (c : ClusterId) (f : FpFlags) : CoreSt :=
  { k with
    kstat := k.kstat ||| (zext f.kstatBits <<< 33)
    clusters := k.clusters.modify c fun cl => { cl with cfg := cl.cfg ||| (zext f.cfgBits <<< 16) } }

/-- SUBST of csr.kstat (R33). -/
def CoreSt.raiseSubst (k : CoreSt) : CoreSt := { k with kstat := k.kstat ||| (1 <<< 16) }

/-- Bit 32 of csr.kstat or csr.kstat2: CLAMP of the kernel in a position (R33, R212). -/
def CoreSt.raiseClamp (k : CoreSt) (pos : KPos) : CoreSt :=
  match pos with
  | .primary => { k with kstat := k.kstat ||| (1 <<< 32) }
  | .secondary => { k with kstat2 := k.kstat2 ||| (1 <<< 32) }

/-- The end and code fields of a kernel status word, CLAMP cleared (R33). -/
def statusFields (w : DWord) (stop : BitVec 4) (code : BitVec 16) (clamp : Bool) : DWord :=
  (w &&& ~~~(0xFFFF00010000000F : DWord)) ||| (zext code <<< 48) ||| (zext (BitVec.ofBool clamp) <<< 32) ||| zext stop

/-- Add to a semaphore; `none` when the sum would exceed 65,535 (R307). sm0 takes no signal. -/
def CoreSt.signal (k : CoreSt) (sm : BitVec 8) (n : BitVec 8) : Option CoreSt :=
  if sm == 0 || n == 0 then some k
  else
    let v := (k.sem.read sm).toNat + n.toNat
    if 65535 < v then none else some { k with sem := k.sem.write sm (BitVec.ofNat 16 v) }

/-- The fields of csr.kbN (R236). -/
def kbWord (rounds count : Nat) (low : BitVec 32) : DWord := BitVec.ofNat 16 rounds ++ BitVec.ofNat 16 count ++ low

/-- One arrival at a kernel barrier (R236, R238): the core, and whether the closure's increment overflowed its semaphore. -/
def CoreSt.arrive (k : CoreSt) (n : BitVec 2) : CoreSt × Bool :=
  let w := k.kb.read n
  let quorum := (w.extractLsb' 0 16).toNat
  let count := (w.extractLsb' 32 16).toNat + 1
  let rounds := (w.extractLsb' 48 16).toNat
  let low := w.extractLsb' 0 32
  if quorum = 0 then (k, false)
  else if count < quorum then ({ k with kb := k.kb.write n (kbWord rounds count low) }, false)
  else
    let k' := { k with kb := k.kb.write n (kbWord (rounds + 1) 0 low) }
    match k'.signal (w.extractLsb' 16 8) (w.extractLsb' 24 8) with
    | some k'' => (k'', false)
    | none => (k', true)

end Sys2Proof.Machine
end

