-- ==== Sys2Proof/Machine/Kernel.lean ====
section
/-! DEFINITION. The kernel engine: results falling due, bundles issuing, loops, freezes and the two kernel positions
(R43 to R51, R129 to R138, R197, R198, R207 to R212). -/

namespace Sys2Proof.Machine

/-! ### Which slot operation does what -/

/-- The header fields and the effect of a slot operation; `none` for anything else. -/
def slotSem : Instr → Option (SlotHdr × (Ctx → SlotResult))
  | .slotNop h => some (h, slotNop)
  | .br h target => some (h, slotBr target)
  | .loop h lvl a byShape len => some (h, slotLoop lvl a byShape len)
  | .loopi h lvl trip len => some (h, slotLoopi lvl trip len)
  | .loopSw h lvl a byShape stages ii => some (h, slotLoopSw lvl a byShape stages ii)
  | .loopiSw h lvl trip stages ii => some (h, slotLoopiSw lvl trip stages ii)
  | .pand h pd pa pb => some (h, slotPred (fun x y => x && y) pd pa pb)
  | .por h pd pa pb => some (h, slotPred (fun x y => x || y) pd pa pb)
  | .pxor h pd pa pb => some (h, slotPred (fun x y => x != y) pd pa pb)
  | .pandn h pd pa pb => some (h, slotPred (fun x y => x && !y) pd pa pb)
  | .cmp h cc n a b => some (h, slotCmp cc n a b)
  | .cmpi h cc n a imm => some (h, slotCmpi cc n a imm)
  | .movi h d imm => some (h, slotMovi d imm)
  | .lwait h n => some (h, slotLwait n)
  | .lock h n a => some (h, slotLock n a)
  | .ktrap h code => some (h, slotKtrap code)
  | .halt h => some (h, slotHalt)
  | .sMov h d a => some (h, slotMov d a)
  | .sAdd h d a b => some (h, slotScalar2 (· + ·) d a b)
  | .sSub h d a b => some (h, slotScalar2 (· - ·) d a b)
  | .sAnd h d a b => some (h, slotScalar2 (· &&& ·) d a b)
  | .sOr h d a b => some (h, slotScalar2 (· ||| ·) d a b)
  | .sXor h d a b => some (h, slotScalar2 (· ^^^ ·) d a b)
  | .sSll h d a b => some (h, slotScalar2 shiftLeft d a b)
  | .sSrl h d a b => some (h, slotScalar2 shiftRight d a b)
  | .sSra h d a b => some (h, slotScalar2 shiftRightA d a b)
  | .sMul h d a b => some (h, slotScalar2 (· * ·) d a b)
  | .sMulh h d a b => some (h, slotScalar2 mulHigh d a b)
  | .sMin h d a b => some (h, slotScalar2 minS d a b)
  | .sMax h d a b => some (h, slotScalar2 maxS d a b)
  | .sMinu h d a b => some (h, slotScalar2 minU d a b)
  | .sMaxu h d a b => some (h, slotScalar2 maxU d a b)
  | .sAddi h d imm => some (h, slotScalarI (· + ·) d imm)
  | .sAndi h d imm => some (h, slotScalarI (· &&& ·) d imm)
  | .sOri h d imm => some (h, slotScalarI (· ||| ·) d imm)
  | .sXori h d imm => some (h, slotScalarI (· ^^^ ·) d imm)
  | .sSlli h d n => some (h, fun x => x.scalar d fun _ k => shiftLeft (k.a.read d) (zext n))
  | .sSrli h d n => some (h, fun x => x.scalar d fun _ k => shiftRight (k.a.read d) (zext n))
  | .sSrai h d n => some (h, fun x => x.scalar d fun _ k => shiftRightA (k.a.read d) (zext n))
  | .rdlc h d lvl => some (h, slotRdlc d lvl)
  | .wfield h d n => some (h, slotWfield d n)
  | .vmov h d a => some (h, slotMove id d a)
  | .vsel h d a b => some (h, slotVsel d a b)
  | .vand h d a b => some (h, slotBitwise (· &&& ·) d a b)
  | .vor h d a b => some (h, slotBitwise (· ||| ·) d a b)
  | .vxor h d a b => some (h, slotBitwise (· ^^^ ·) d a b)
  | .vnot h d a => some (h, slotMove (fun x => ~~~x) d a)
  | .vfshl h d a b => some (h, slotFunnel true d a b)
  | .vfshr h d a b => some (h, slotFunnel false d a b)
  | .vperm h d a b => some (h, slotVperm d a b)
  | .vpopc h nz d a => some (h, slotVpopc nz d a)
  | .vtopk h nz d a n => some (h, slotVtopk nz d a n)
  | .vqmov h dir v q => some (h, slotVqmov dir v q)
  | .vadd h f d a b => some (h, slotVec2 .add f d a b)
  | .vsub h f d a b => some (h, slotVec2 .sub f d a b)
  | .vmul h f d a b => some (h, slotVec2 .mul f d a b)
  | .vfma h f d a b => some (h, slotVfma f d a b)
  | .vdiv h f d a b => some (h, slotVec2 .div f d a b)
  | .vmin h f d a b => some (h, slotVec2 .min f d a b)
  | .vmax h f d a b => some (h, slotVec2 .max f d a b)
  | .vabs h f d a => some (h, slotSign true f d a)
  | .vneg h f d a => some (h, slotSign false f d a)
  | .vsqrt h f d a => some (h, slotVsqrt f d a)
  | .vcmp h f cond n a b => some (h, slotVcmp f cond n a b)
  | .vcvt h f d a b => some (h, slotVcvt f d a b)
  | .vbcast h f d a => some (h, slotVbcast f d a)
  | .vshl h f d a b => some (h, slotShift true f d a b)
  | .vshr h f d a b => some (h, slotShift false f d a b)
  | .vred h f d a op grp => some (h, slotVred f d a op grp)
  | .vscan h f d a op excl grp => some (h, slotVscan f d a op excl grp)
  | .mloadb h f r src => some (h, slotMloadb f r src)
  | .mpush h f r src => some (h, slotMpush f r src)
  | .mpushSc h r src => some (h, slotMpushSc r src)
  | .mloadbWide h f r src => some (h, slotMloadbWide f r src)
  | .mpushWide h f r src => some (h, slotMpushWide f r src)
  | .macc h r x pol allRows clr => some (h, slotMacc r x pol allRows clr)
  | .mdrain h f dest r x p toTile => some (h, slotMdrain f dest r x p toTile)
  | .trin h f v p => some (h, slotTrin f v p)
  | .trout h dest p toTile => some (h, slotTrout dest p toTile)
  | .trclr h => some (h, slotTrclr)
  | .stld h i e => some (h, slotStld i e)
  | .stlda h a half => some (h, slotStlda a half)
  | .cfgset h flags low => some (h, slotCfgset flags low)
  | .cfgclr h flags low => some (h, slotCfgclr flags low)
  | .cfgrd h d => some (h, slotCfgrd d)
  | .margin h a => some (h, slotMargin a)
  | .manchor h r allRows x a => some (h, slotManchor r allRows x a)
  | .hbound h a => some (h, slotHbound a)
  | .tmark h r x mode mk => some (h, slotTmark r x mode mk)
  | .tclr h => some (h, slotTclr)
  | .mset h mk a => some (h, slotMset mk a)
  | .mand h md ma mb => some (h, slotMask2 (· &&& ·) md ma mb)
  | .mor h md ma mb => some (h, slotMask2 (· ||| ·) md ma mb)
  | .mnot h md ma => some (h, slotMnot md ma)
  | .mmova h d mk => some (h, slotMmova d mk)
  | .retag h tile reg tag => some (h, slotRetag tile reg tag)
  | .cld h f v hnd row => some (h, slotCld f v hnd row)
  | .cst h v hnd row => some (h, slotCst v hnd row)
  | .cldU h f v hnd x => some (h, slotCldU f v hnd x)
  | .cstU h v hnd x => some (h, slotCstU v hnd x)
  | .cstM h v hnd x => some (h, slotCstM v hnd x)
  | .cldFar h f v hnd x => some (h, slotCldFar f v hnd x)
  | .catom h kind v hnd x => some (h, slotCatom kind v hnd x)
  | .catomFar h kind v hnd x => some (h, slotCatomFar kind v hnd x)
  | .swsend h d v q a => some (h, slotSwsend d v q a)
  | .swrecv h d v q a => some (h, slotSwrecv d v q a)
  | .swbcast h d v q cl => some (h, slotSwbcast d v q cl)
  | _ => none

/-! ### Results falling due (R48, R49) -/

/-- Merge the bits that a mask marks. -/
def mergeLanes (old mask data : Bank 6 Word) : Bank 6 Word :=
  Bank.ofFn fun l => (old.read l &&& ~~~(mask.read l)) ||| (data.read l &&& mask.read l)

/-- Fold a column's products into an element: the element, INEXACT, SAT (R70, R179). -/
def foldProducts (e : AccElem) : List Product → AccElem × Bool × Bool
  | [] => (e, false, false)
  | p :: ps =>
    let (e1, i1, s1) := e.addProduct p
    let (e2, i2, s2) := foldProducts e1 ps
    (e2, i1 || i2, s1 || s2)

/-- A push's contribution to its row (R179); `clamped` says that an image has already clamped a sum of it (R367). -/
def contribute (row : AccRow) (overwrite : Bool) (cols : Bank 6 (List Product)) (clamped : Bool) : AccRow × FpFlags :=
  let r : Bank 6 (AccElem × Bool × Bool) := Bank.ofFn fun c =>
    foldProducts (if overwrite then ⟨0, .finite⟩ else row.elems.read c) (cols.read c)
  let inexact := r.list.any (·.2.1)
  let sat := clamped || r.list.any (·.2.2)
  ({ row with elems := Bank.ofFn fun c => (r.read c).1, inexact := row.inexact || inexact, sat := row.sat || sat },
   { inexact := inexact, sat := sat })

/-- Write one result into its cluster; the flags that it raises (a contribution's INEXACT and SAT). A RETAG's result is the tag alone: of a
result of another slot due at its register at the same kc, which R49 has go before it, the bits stay under that tag: DESIGN CHOICE,
log 101. -/
def Cluster.put (k : Cluster) : RegWrite → Cluster × FpFlags
  | .scalar r x => ({ k with a := k.a.write r x }, {})
  | .pred r b => (if r == 0 || r == 1 then k else { k with p := k.p.write r b }, {})
  | .vec r mask data tag => ({ k with v := k.v.modify r fun o => ⟨mergeLanes o.lanes mask data, tag⟩ }, {})
  | .quarter r q data tag => ({ k with v := k.v.modify r fun o =>
      ⟨Bank.ofFn fun l => if l.extractLsb' 4 2 == q then data.read (l.extractLsb' 0 4) else o.lanes.read l, tag⟩ }, {})
  | .lanePred r mask data =>
    (if r == 0 || r == 1 then k else { k with q := k.q.modify r fun o => (o &&& ~~~mask) ||| (data &&& mask) }, {})
  | .tileRow t row codes scales tag =>
    ({ k with t := k.t.modify t fun o =>
        { rows := o.rows.write row codes
          scales := if tag == 12 then o.scales.write row scales else Bank.fill 0
          tag := tag } }, {})
  | .vecTag r tag => ({ k with v := k.v.modify r fun o => { o with tag := tag } }, {})
  | .tileTag t tag clear =>
    ({ k with t := k.t.modify t fun o => { o with tag := tag, scales := if clear then Bank.fill 0 else o.scales } }, {})
  | .tileMask n x => ({ k with m := k.m.write n x }, {})
  | .tileMaskBit n j => ({ k with m := k.m.modify n fun o => o ||| (1 <<< j.toNat) }, {})
  | .scale i e => ({ k with st := k.st.write i e }, {})
  | .cfgBits set clear => ({ k with cfg := (k.cfg ||| set) &&& ~~~clear }, {})
  | .margin x => ({ k with cfg := x ++ k.cfg.extractLsb' 0 32 }, {})
  | .anchor r a => ({ k with acc := k.acc.modify r fun o => { o with anchor := a } }, {})
  | .policy r overwrite clr =>
    ({ k with acc := k.acc.modify r fun o =>
        { o with overwrite := overwrite, inexact := o.inexact && !clr, sat := o.sat && !clr } }, {})
  | .bound b => ({ k with tb := b }, {})
  | .rowMax r x => ({ k with acc := k.acc.modify r fun o => { o with max := x } }, {})
  | .clearMaxes => ({ k with acc := Bank.ofFn fun r => { k.acc.read r with max := 0xFF800000 } }, {})
  | .clearTransposer => ({ k with tr := Transposer.reset }, {})
  | .contribution row overwrite cols clamped =>
    let (r, f) := contribute (k.acc.read row) overwrite cols clamped
    ({ k with acc := k.acc.write row r }, f)
  | .nothing => (k, {})

def Engine.run (e : Engine) : KPos → Option KernelRun
  | .primary => e.primary
  | .secondary => e.secondary
def Engine.setRun (e : Engine) (r : Option KernelRun) : KPos → Engine
  | .primary => { e with primary := r }
  | .secondary => { e with secondary := r }

def CoreSt.run (k : CoreSt) (pos : KPos) : Option KernelRun := k.eng.run pos
def CoreSt.setRun (k : CoreSt) (pos : KPos) (r : KernelRun) : CoreSt := { k with eng := k.eng.setRun (some r) pos }
def CoreSt.modRun (k : CoreSt) (pos : KPos) (f : KernelRun → KernelRun) : CoreSt :=
  match k.run pos with
  | some r => k.setRun pos (f r)
  | none => k

/-- Write a result, raise its flags and make its arrival; an overflowing closure marks the kernel (R238). -/
def CoreSt.land (k : CoreSt) (pos : KPos) (c : ClusterId) (w : RegWrite) (arrive : Option (BitVec 2)) : CoreSt :=
  let (cl, f) := (k.clusters.read c).put w
  let k := ({ k with clusters := k.clusters.write c cl } : CoreSt)
  let k := if f == {} then k else k.raise c f
  match arrive with
  | none => k
  | some n =>
    let (k, full) := k.arrive n
    if full then k.modRun pos fun r => { r with overflow := true } else k

/-- The physical register after an even one, the odd half of its pair (R54, R138). -/
def nextPhys (r : BitVec 5) : BitVec 5 := if r.getLsbD 4 then (1 : BitVec 1) ++ (r.extractLsb' 0 4 + 1) else r + 1

/-- The results of a landed request (R51, R264). -/
def farWrites (r : FarReq) (data : Bank 6 DWord) : List RegWrite :=
  let all : Bank 6 Word := Bank.fill (-1)
  let lo : Bank 6 Word := Bank.ofFn fun l => (data.read l).extractLsb' 0 32
  let hi : Bank 6 Word := Bank.ofFn fun l => (data.read l).extractLsb' 32 32
  if tagPair r.tag then [.vec r.dest all lo r.tag, .vec (nextPhys r.dest) all hi r.tag] else [.vec r.dest all lo r.tag]

/-- A result that is due, with the stamp of its issue. -/
structure Due where
  issued : Nat
  cluster : ClusterId
  what : RegWrite
  arrive : Option (BitVec 2)

/-- Put a result after those issued no later (R49). -/
def insertDue (x : Due) : List Due → List Due
  | [] => [x]
  | y :: ys => if x.issued < y.issued then x :: y :: ys else y :: insertDue x ys

def InFlight.toDue (f : InFlight) : Due := ⟨f.issued, f.cluster, f.what, f.arrive⟩

/-- The results of a landed request as due results; the arrival goes with the last. -/
def FarReq.toDue (r : FarReq) : List Due :=
  match r.phase with
  | .landed data _ =>
    (farWrites r data).map (fun w => ⟨r.issued, r.cluster, w, none⟩) ++ [⟨r.issued, r.cluster, .nothing, r.arrive⟩]
  | _ => []

def FarReq.arrived (r : FarReq) : Bool :=
  match r.phase with
  | .landed _ _ => true
  | .failed => true
  | _ => false

/-- Whether a kernel still issues: it has not ended, and no closure of its own overflowed a semaphore (R238, R313). -/
def KernelRun.live (r : KernelRun) : Bool := r.ending.isNone && !r.overflow

/-- Whether data that is due at a kernel's kc has not arrived: the kc stands, and nothing that falls due at it is written (R49, R51). -/
def KernelRun.late (r : KernelRun) : Bool := r.live && r.far.any fun f => f.due ≤ r.kc && !f.arrived

/-- The results of a kernel due at its kc, in the order of their issue (R49). -/
def dueResults (r : KernelRun) : List Due :=
  if r.late then []
  else
  let flights := (r.inflight.filter fun f => f.due ≤ r.kc).map InFlight.toDue
  let lands := (r.far.filter fun f => f.due ≤ r.kc).flatMap FarReq.toDue
  lands.foldl (fun xs x => insertDue x xs) (flights.foldl (fun xs x => insertDue x xs) [])

/-- A kernel without the results that were due; requests that have not arrived, or that fault, stay. -/
def dropDue (r : KernelRun) : KernelRun :=
  if r.late then r else { r with
    inflight := r.inflight.filter fun f => !(f.due ≤ r.kc)
    far := r.far.filter fun f => !(f.due ≤ r.kc && (match f.phase with
      | .landed _ p => !p
      | _ => false)) }

/-- The results of both kernels that are due, in the order of their issue, later slots after earlier ones (R49, R211). -/
def CoreSt.allDue (k : CoreSt) : List (KPos × Due) :=
  let of (pos : KPos) : List (KPos × Due) := match k.run pos with
    | none => []
    | some r => (dueResults r).map fun d => (pos, d)
  let rec put (x : KPos × Due) : List (KPos × Due) → List (KPos × Due)
    | [] => [x]
    | y :: ys => if x.2.issued < y.2.issued then x :: y :: ys else y :: put x ys
  (of .secondary).foldl (fun xs x => put x xs) (of .primary)

/-- Write every result of the two kernels that is due (R48). -/
def CoreSt.settle (k : CoreSt) : CoreSt :=
  k.allDue.foldl (fun k d => k.land d.1 d.2.cluster d.2.what d.2.arrive) ((k.modRun .primary dropDue).modRun .secondary dropDue)

/-! ### Issuing (R47, R130, R208) -/

/-- Why a cc is frozen, or what a kernel's next bundle does. -/
inductive Plan where
  | idle
  | freeze
  | brk
  | fault (e : KEnd)
  | issue (i : Issue)

/-- The comparators that match a bundle about to issue (R376), lowest first. -/
def bundleMatch (k : CoreSt) (r : KernelRun) : Option Nat :=
  (List.range 8).find? fun n =>
    let (w0, w1) := k.comparators.read (BitVec.ofNat 3 n)
    w0.getLsbD 63 && w0.getLsbD 62 && w1.extractLsb' 32 12 == r.handle && w1.extractLsb' 0 12 == BitVec.ofNat 12 r.idx &&
      (w0.extractLsb' 6 42 == 0 || w0.extractLsb' 6 42 == r.launch.extractLsb' 6 42)

/-- A kernel fault at a slot of the bundle at hand. -/
def KernelRun.faultAt (r : KernelRun) (kind bcause : Byte) (s : BitVec 3) : KEnd :=
  .fault kind bcause s (BitVec.ofNat 12 r.idx)

/-- What the operations of a bundle do together, or the first failing slot from A to H (R130). -/
def joinOps (base : SlotHdr → Ctx) (r : KernelRun) : List Instr → Except KEnd Issue
  | [] => .ok {}
  | i :: is =>
    match slotSem i with
    | none => joinOps base r is
    | some (h, f) =>
      match f (base h) with
      | .error kind => .error (r.faultAt kind 0 h.slot.num)
      | .ok a =>
        match joinOps base r is with
        | .error e => .error e
        | .ok b => .ok ((a.inSlot h.slot.num).add b)

/-- Requests of a cluster that wait in its landing buffer (R142). -/
def landedIn (k : CoreSt) (cl : ClusterId) : Nat :=
  (([k.eng.primary, k.eng.secondary].filterMap id).flatMap fun r => r.far.filter fun f => f.cluster == cl && (match f.phase with
    | .landed _ _ => true
    | _ => false)).length

def FarReq.isServed (cl : ClusterId) (f : FarReq) : Bool := f.cluster == cl && (match f.phase with
  | .served _ _ => true
  | _ => false)

/-- A kernel's requests of a cluster that have not arrived (R142); data that waits in the switch for an entry of a full buffer has
(log 77). -/
def outstanding (k : CoreSt) (r : KernelRun) (c : ClusterId) : Nat :=
  (r.far.filter fun f => f.cluster == c && !f.arrived && !(f.isServed c && decide (Config.landingBuf ≤ landedIn k c))).length

/-- The clock that a kernel measures its rate limits by now (log 13). -/
def Engine.rateNow (g : Engine) (pos : KPos) : Nat := rateClock pos (g.issued, g.issued + g.fair)

/-- Whether an operation holds its bundle back: an LWAIT whose requests are still out, a LOCK on banks that owe service (R142, R262). -/
def holdsBack (k : CoreSt) (r : KernelRun) (i : Issue) : Bool :=
  (match i.wait with
    | some n => allClusters.any fun c => n < outstanding k r c
    | none => false) ||
  i.ctl.any fun c => match c with
    | .lock banks _ => k.eng.owed.any fun o => banks.contains o.1
    | _ => false

/-- What an operation alone comes to; none where it fails a check. -/
def soloIssue (base : SlotHdr → Ctx) (i : Instr) : Option Issue := (slotSem i).bind fun x => (x.2 (base x.1)).toOption

/-- The plan for a bundle's operations. The bundle issues, and its run-time checks are made, once nothing in it holds it back
(R130, R142, R262). -/
def planOps (k : CoreSt) (pos : KPos) (me : CoreId) (peers : List CoreId) (r : KernelRun) (ops : List Instr) : Plan :=
  let base (h : SlotHdr) : Ctx := ⟨k, r, pos, h, me, peers, k.eng.rateNow pos⟩
  if (ops.filterMap (soloIssue base)).any (holdsBack k r) then .freeze
  else match joinOps base r ops with
    | .error e => .fault e
    | .ok i => .issue i

/-- The move of a spilled register that a bundle of a translated image makes (R436). -/
def KImage.moveAt (i : KImage) (n : Nat) : Option SpillMove := (i.moves.find? fun x => x.1 = n).map (·.2)

/-- The plan for a bundle that moves a spilled register. -/
def planMove (k : CoreSt) (pos : KPos) (me : CoreId) (peers : List CoreId) (r : KernelRun) (m : SpillMove) : Plan :=
  match slotSpill m ⟨k, r, pos, ⟨.G, 0, none⟩, me, peers, k.eng.rateNow pos⟩ with
  | .error kind => .fault (r.faultAt kind 0 Slot.G.num)
  | .ok i => .issue (i.inSlot Slot.G.num)

/-- The plan for a kernel's next bundle: requests due now must have arrived (R51) and be sound (R265, R382), the index must
lie in the image (R45), a breakpoint may match (R376), and the bundle must decode (R99). Where there is no bundle to decode (cause 8)
the fault names slot A: the model's choice (log 70). -/
def planRun (k : CoreSt) (pos : KPos) (me : CoreId) (peers : List CoreId) (given : Option (List Instr)) : Plan :=
  match k.run pos with
  | none => .idle
  | some r =>
    if !r.live then .idle
    else if r.late then .freeze
    else
      match r.far.find? (fun f => f.due ≤ r.kc) with
      | some f => .fault (r.faultAt (if f.phase == .failed then kCistern else kPoison) 0 Slot.G.num)
      | none =>
        match given with
        | some ops => planOps k pos me peers r ops
        | none =>
          match r.image.bundles[r.idx]? with
          | none => .fault (r.faultAt kBundle 8 0)
          | some x =>
            if !r.skipMatch && (bundleMatch k r).isSome then .brk
            else if r.image.corrupt.contains r.idx then .fault (r.faultAt kRegErr 0 0)
            else
              match decodeBundle x with
              | .error (.bundle cause s) => .fault (r.faultAt kBundle cause s)
              | .error _ => .fault (r.faultAt kBundle 0 0)
              | .ok ops => match r.image.moveAt r.idx with
                | some m => planMove k pos me peers r m
                | none => planOps k pos me peers r ops

/-- The occupied-slot mask of a kernel's next bundle (R208). -/
def nextMask (r : KernelRun) (given : Option (List Instr)) : Byte :=
  match given with
  | some ops => ops.foldl (fun m i => match slotSem i with
      | some (h, _) => m ||| slotMask h.slot
      | none => m) 0
  | none =>
    let moves : Byte := if (r.image.moveAt r.idx).isSome then slotMask .G else 0
    match r.image.bundles[r.idx]? with
    | some x => moves ||| (bundleHdr x).occ
    | none => moves

/-! ### Loops (R135 to R138) -/

/-- Change every cluster. -/
def CoreSt.eachCluster (k : CoreSt) (f : Cluster → Cluster) : CoreSt :=
  { k with clusters := Bank.ofFn fun c => f (k.clusters.read c) }

def setLc (lvl : BitVec 3) (n : Nat) (k : Cluster) : Cluster :=
  { k with lc := k.lc.setIfInBounds lvl.toNat (BitVec.ofNat 32 n) }

/-- The stage predicates before iteration `j` (R137). -/
def setStages (stages trip j : Nat) (k : Cluster) : Cluster :=
  { k with p := Bank.ofFn fun i =>
      if i.toNat < 8 then k.p.read i
      else decide (i.toNat - 8 < stages ∧ i.toNat - 8 ≤ j ∧ j < i.toNat - 8 + trip) }

/-- The loop-back checks at the issue of the last bundle `e` of active bodies, innermost first (R135, R137): the loops left,
the next index, and the core. lcN has 32 bits and wraps, and what is compared with the count is its wrapped value: DESIGN CHOICE, log 100,
for a .SW loop's T + S − 1 may lie beyond 2^32 − 1. -/
def loopBack (e : Nat) (k : CoreSt) (r : KernelRun) : List LoopSt → CoreSt × KernelRun
  | [] => (k, { r with loops := [], idx := e + 1 })
  | l :: outer =>
    if l.last = e then
      let j := (nth ((k.clusters.read 0).lc.toList) l.level.toNat 0).toNat + 1
      let k := k.eachCluster (setLc l.level j)
      let r := if l.sw then { r with rb := r.rb - 1 } else r
      if j < l.count then
        (if l.sw then k.eachCluster (setStages l.stages l.trip j) else k, { r with loops := l :: outer, idx := l.first })
      else loopBack e k r outer
    else (k, { r with loops := l :: outer, idx := e + 1 })

/-- The loops that a branch stays inside; leaving a body ends its loop and those nested in it (R134). Innermost first. -/
def keepLoops (target : Nat) : List LoopSt → List LoopSt
  | [] => []
  | l :: outer =>
    let rest := keepLoops target outer
    if l.first ≤ target && target ≤ l.last && rest.length = outer.length then l :: rest else rest

/-- Where the kernel goes after a bundle (R134 to R137, R144, R145, R262). Loops are kept innermost first. The stage predicates are
written at the issue of the bundle before the iteration's first, so a result of an operation that falls due at that first bundle's kc
stands over them: DESIGN CHOICE, log 59, for R137 names no winner. A taken branch in a loop's last bundle skips the whole of the
loop-back, the rotation of rb with it: DESIGN CHOICE, log 60, for R134 skips the check and R138 rotates after the bundle. -/
def steerRun (k : CoreSt) (r : KernelRun) (ctl : List Ctl) : CoreSt × KernelRun :=
  match ctl with
  | [] => loopBack r.idx k r r.loops
  | .branch t :: _ => (k, { r with loops := keepLoops t r.loops, idx := t })
  | .loop lvl trip len stages :: _ =>
    let k := k.eachCluster (setLc lvl 0)
    if trip = 0 then loopBack (r.idx + len) k r r.loops
    else
      let sw := stages != 0
      let l : LoopSt := ⟨lvl, r.idx + 1, r.idx + len, if sw then trip + stages - 1 else trip, sw, trip, stages⟩
      (if sw then k.eachCluster (setStages stages trip 0) else k, { r with loops := l :: r.loops, idx := r.idx + 1 })
  | .lock banks n :: _ => loopBack r.idx k { r with lock := some ⟨banks, n, k.eng.clock + 64⟩ } r.loops
  | .halt :: _ => (k, { r with ending := some .halted, idx := r.idx + 1 })
  | .ktrap code :: _ => (k, { r with ending := some (.ktrap code), idx := r.idx + 1 })

/-- A hold counts the bundles after its LOCK (R262). -/
def stepLock (r : KernelRun) : KernelRun :=
  { r with lock := match r.lock with
      | some ⟨banks, n + 1, ends⟩ => if n = 0 then none else some ⟨banks, n, ends⟩
      | _ => none }

/-- Make the arrivals of operations that retire at the kc of their issue (R237). -/
def CoreSt.arriveNow (k : CoreSt) (pos : KPos) (es : List Eff) : CoreSt :=
  (es.filter fun e => e.lat == 0).foldl (fun k e => k.land pos e.cluster e.what e.arrive) k

/-- A bundle takes effect: changes at issue, Cistern writes, results and requests to come, flags, control, then what retires at once. -/
def CoreSt.commit (k : CoreSt) (pos : KPos) (i : Issue) : CoreSt :=
  match k.run pos with
  | none => k
  | some r =>
    let k := i.now.foldl (fun k x => { k with clusters := k.clusters.modify x.1 x.2 }) k
    let k := i.cis.foldl (fun k w =>
      { k with cistern := putUnit k.cistern w
               cisPoison := if w.mask == -1 then removeNat w.unit k.cisPoison else k.cisPoison }) k
    let k := i.flags.foldl (fun k x => if x.2 == {} then k else k.raise x.1 x.2) k
    let k := if i.clamp then k.raiseClamp pos else k
    let k := if i.subst then k.raiseSubst else k
    let k := { k with eng := { k.eng with
      rates := i.rates.foldl (fun rs g => (g, k.eng.issued, k.eng.issued + k.eng.fair) :: rs.filter fun e => e.1 != g) k.eng.rates } }
    let flights := (i.effs.filter fun e => e.lat != 0).map fun e => (⟨k.eng.stamp e.slot, r.kc + e.lat, e.cluster, e.what, e.arrive⟩ : InFlight)
    let r := stepLock { r with inflight := r.inflight ++ flights, far := r.far ++ i.far, clamp := r.clamp || i.clamp }
    let (k, r) := steerRun k r i.ctl
    let r := { r with kc := r.kc + 1, skipMatch := false }
    let k := (k.setRun pos r).arriveNow pos i.effs
    match pos with
    | .primary => { k with kcycle := r.kc }
    | .secondary => k

/-- Frozen cc of a core (R51, R390). -/
def CoreSt.frozen (k : CoreSt) (n : Nat) (f : FreezeCounts → FreezeCounts) : CoreSt :=
  { k with freeze := k.freeze + n, eng := { k.eng with freezes := f k.eng.freezes } }
def CoreSt.landingFreeze (k : CoreSt) : CoreSt := k.frozen 1 fun f => { f with landing := f.landing + 1 }
/-- Frozen cc beyond the one in which a bundle issued or that an event gave the engine: its clock counts them (R262). -/
def CoreSt.frozenCc (k : CoreSt) (n : Nat) (f : FreezeCounts → FreezeCounts) : CoreSt :=
  { k with eng := { k.eng with clock := k.eng.clock + n } }.frozen n f
def CoreSt.bankFreeze (k : CoreSt) (n : Nat) : CoreSt := k.frozenCc n fun f => { f with bank := f.bank + n }

/-- Units beyond the first that the busiest bank serves for the home accesses of a cc (R170). -/
def bankExtra (us : List Nat) : Nat :=
  let distinct := us.foldl (fun s u => insertNat u s) []
  let perBank (b : Nat) : Nat := (distinct.filter fun u => u / Config.bankRows = b).length
  (distinct.foldl (fun m u => max m (perBank (u / Config.bankRows))) 1) - 1

/-- The end of a kernel at a fault (R130), before KERNEL_END completes it. -/
def CoreSt.failRun (k : CoreSt) (pos : KPos) (e : KEnd) : CoreSt :=
  k.modRun pos fun r => { r with ending := some e }

/-- One plan carried out. -/
def CoreSt.carry (k : CoreSt) (pos : KPos) : Plan → CoreSt
  | .issue i => k.commit pos i
  | .fault e => k.failRun pos e
  | _ => k

/-- A cc passes that the rate limits count, in a fairness cc for the secondary alone (R129, R209; log 13). -/
def CoreSt.tickRates (k : CoreSt) (fair : Bool) : CoreSt :=
  { k with eng := if fair then { k.eng with fair := k.eng.fair + 1 } else { k.eng with issued := k.eng.issued + 1 } }

/-- A cc of the engine passes; a LOCK's hold of 64 cc ends with it (R262). -/
def CoreSt.tick (k : CoreSt) : CoreSt :=
  { k with eng := { k.eng with clock := k.eng.clock + 1, left := k.eng.left.filter fun l => k.eng.clock < l.ends } }

def Plan.issues : Plan → Bool
  | .issue _ => true
  | _ => false
def Plan.units : Plan → List Nat
  | .issue i => i.units
  | _ => []
def Plan.freezes : Plan → Bool
  | .freeze => true
  | _ => false
def Plan.breaks : Plan → Bool
  | .brk => true
  | _ => false
def Plan.remotes : Plan → List RemoteAtomic
  | .issue i => i.remote
  | _ => []

/-- What a cc of the engine comes to: the core, remote atomics to send, and the position whose bundle a breakpoint stopped. -/
structure CycleOut where
  core : CoreSt
  remote : List RemoteAtomic
  stop : Option KPos

/-- Whether the secondary's next bundle meets one of the primary in a slot, so that it cannot issue with it (R208). -/
def CoreSt.collides (k : CoreSt) (given : Option (List Instr)) : Bool :=
  match k.eng.primary, k.eng.secondary with
  | some a, some b => a.live && nextMask a given &&& nextMask b none != 0
  | _, _ => false

/-- One cc of a core's kernel engine (R208, R209, R211). `given` stands for the primary's bundle when one is given. Late data freezes the
whole domain before anything is written (R51); that of a secondary whose bundle a collision keeps back does not, for its kc is not at
issue in that cc: the model's choice (log 78). The engine's clock runs on in a stopped engine, so that a LOCK's hold ends (R262). -/
def engineCc (k : CoreSt) (me : CoreId) (peers : List CoreId) (given : Option (List Instr)) : CycleOut :=
  let k := k.tick
  let second := k.eng.secondary.any KernelRun.live
  let fair := second && decide (Config.fairness ≤ k.eng.blocked)
  let collide := k.collides given
  let quiet (k : CoreSt) : CycleOut := ⟨k, [], none⟩
  if k.eng.stopped.isSome || k.halt.isSome then quiet k
  else if k.eng.primary.any KernelRun.late || (fair || !collide) && k.eng.secondary.any KernelRun.late then quiet k.landingFreeze
  else
    let k := k.settle
    let second := k.eng.secondary.any KernelRun.live
    if fair && second then
      -- the fairness cc: the secondary alone, the primary frozen
      let p := planRun k .secondary me peers none
      if p.freezes then quiet k.landingFreeze
      else if p.breaks then ⟨k, [], some .secondary⟩
      else
        let k := { k with eng := { k.eng with blocked := 0 } }
        let k := ((k.frozen 1 fun f => { f with fairness := f.fairness + 1 }).carry .secondary p).tickRates true
        ⟨k.bankFreeze (bankExtra p.units), p.remotes, none⟩
    else
      let p := planRun k .primary me peers given
      let q := if second && !collide then planRun k .secondary me peers none else .idle
      if p.freezes || q.freezes then quiet k.landingFreeze
      else if p.breaks then ⟨k, [], some .primary⟩
      else if q.breaks then ⟨k, [], some .secondary⟩
      else
        let blocked := if second && !q.issues then k.eng.blocked + 1 else 0
        let k' := { k with eng := { k.eng with blocked := blocked } }
        let k' := ((k'.carry .primary p).carry .secondary q).tickRates false
        ⟨k'.bankFreeze (bankExtra (p.units ++ q.units)), p.remotes ++ q.remotes, none⟩

end Sys2Proof.Machine
end

