-- ==== Sys2Proof/Machine/Ops.lean ====
section
/-! DEFINITION. The named operations on the whole device: cores, registers, physical memory with its side-bands, telemetry,
host interrupts, and taking and returning from a trap. -/

namespace Sys2Proof.Machine

/-- What a meaning answers. -/
abbrev Out := Host.Outcome State Fault Refusal

/-- Trap causes (R357). -/
def cIllegal : Byte := 1
def cAddress : Byte := 2
def cAlign : Byte := 3
def cTranslate : Byte := 4
def cProtect : Byte := 5
def cPool : Byte := 6
def cTag : Byte := 7
def cPoison : Byte := 8
def cTask : Byte := 9
def cRecord : Byte := 10
def cSoft : Byte := 11
def cBreak : Byte := 12
def cKtrap : Byte := 13
def cKfault : Byte := 14
def cEngine : Byte := 15
def cEfault : Byte := 16
def cMerge : Byte := 17
def cSwap : Byte := 18
def cCtxPoison : Byte := 19
def cMcheck : Byte := 20

/-! ### Cores and their registers -/

def State.core (s : State) (c : CoreId) : CoreSt := s.cores.read c
def State.setCore (s : State) (c : CoreId) (k : CoreSt) : State := { s with cores := s.cores.write c k }
def State.modCore (s : State) (c : CoreId) (f : CoreSt → CoreSt) : State := s.setCore c (f (s.core c))
/-- The core whose turn it is. -/
def State.cur (s : State) : CoreSt := s.core s.active
def State.modCur (s : State) (f : CoreSt → CoreSt) : State := s.modCore s.active f
/-- Change every core. -/
def State.eachCore (s : State) (f : CoreId → CoreSt → CoreSt) : State :=
  { s with cores := Bank.ofFn fun c => f c (s.cores.read c) }
def allCores : List CoreId := (List.range 128).map (BitVec.ofNat 7)
def State.modPart (s : State) (p : PartId) (f : PartSt → PartSt) : State := { s with parts := s.parts.modify p f }
def State.part (s : State) (p : PartId) : PartSt := s.parts.read p
def State.modDie (s : State) (d : DieId) (f : DieSt → DieSt) : State := { s with dies := s.dies.modify d f }

/-- The die of a core (R31). -/
def dieOf (c : CoreId) : DieId := c.extractLsb' 5 2

/-- Whether the partition maps place a core in a partition (R248). -/
def mapHas (pmaps : Bank 5 DWord) (p : PartId) (c : CoreId) : Bool :=
  (pmaps.read (p ++ c.extractLsb' 6 1)).getLsbD (c.extractLsb' 0 6).toNat
def allParts : List PartId := (List.range 16).map (BitVec.ofNat 4)
/-- The partition of a core; a core may belong to none (R248). -/
def State.partOf (s : State) (c : CoreId) : Option PartId := allParts.find? fun p => mapHas s.pmaps p c
/-- The cores of a partition. -/
def State.coresOf (s : State) (p : PartId) : List CoreId := allCores.filter fun c => mapHas s.pmaps p c
/-- The cores of the partition that holds a core. -/
def State.peers (s : State) (c : CoreId) : List CoreId :=
  match s.partOf c with
  | some p => s.coresOf p
  | none => []
/-- The teams of a partition, bound or not. -/
def State.teamsOf (s : State) (p : PartId) : List Team := s.teams.filter fun t => t.part == p

/-- The names g24 to g31, which stand for the shadow set in a user handler (R336). -/
def shadowed (r : BitVec 5) : Bool := r.getLsbD 4 && r.getLsbD 3

/-- Read gn: g0 is zero (R30), g24 to g31 name the shadow set while IN is 1 (R336). -/
def CoreSt.readG (k : CoreSt) (r : BitVec 5) : DWord :=
  if r == 0 then 0
  else if k.inHandler && shadowed r then k.shadowG.read (r.extractLsb' 0 3)
  else k.g.read r

/-- Write gn: a write to g0 is discarded (R30). -/
def CoreSt.writeG (k : CoreSt) (r : BitVec 5) (x : DWord) : CoreSt :=
  if r == 0 then k
  else if k.inHandler && shadowed r then { k with shadowG := k.shadowG.write (r.extractLsb' 0 3) x }
  else { k with g := k.g.write r x }

/-- gn of the active core. -/
def State.g (s : State) (r : BitVec 5) : DWord := s.cur.readG r
def State.setG (s : State) (r : BitVec 5) (x : DWord) : State := s.modCur fun k => k.writeG r x
def State.setPc (s : State) (x : DWord) : State := s.modCur fun k => { k with pc := x }
/-- On to the next word (R81). -/
def State.advance (s : State) : State := s.modCur fun k => { k with pc := k.pc + 4 }
/-- Write gd and go on. -/
def State.result (s : State) (d : BitVec 5) (x : DWord) : State := (s.setG d x).advance

/-! ### Physical memory and its side-bands (R268, R282) -/

def blockOf (pa : Nat) : Nat := pa / 64
/-- The blocks that `n` bytes from `pa` touch. -/
def blocksOf (pa n : Nat) : List Nat :=
  if n = 0 then [] else (List.range ((pa + n - 1) / 64 - pa / 64 + 1)).map fun i => pa / 64 + i

def isHost (pa : Nat) : Bool := Config.hostMemBase ≤ pa
def inDevice (pa n : Nat) : Bool := pa + n ≤ Config.deviceMemEnd

def State.tagged (s : State) (pa : Nat) : Bool := s.tags.contains (blockOf pa)
def State.poisoned (s : State) (pa n : Nat) : Bool := (blocksOf pa n).any s.poison.contains

def State.readPhys (s : State) (pa n : Nat) : Nat := s.mem.readNat pa n
def State.bytesPhys (s : State) (pa n : Nat) : List Byte := s.mem.read pa n

/-- The compressed size code of a block (R281, R282). -/
def sizeCode (m : Memory) (b : Nat) : BitVec 2 :=
  let words := ((List.range 16).filter fun i => m.readNat (64 * b + 4 * i) 4 != 0).length
  if words ≤ 3 then 0 else if words ≤ 7 then 1 else if words ≤ 11 then 2 else 3

/-- The size codes with one block's set; a block that is not listed has the reset code 0b11. -/
def putSize (xs : List (Nat × BitVec 2)) (b : Nat) (z : BitVec 2) : List (Nat × BitVec 2) :=
  match xs with
  | [] => if z == 3 then [] else [(b, z)]
  | (k, y) :: rest =>
    if b < k then (if z == 3 then (k, y) :: rest else (b, z) :: (k, y) :: rest)
    else if k = b then (if z == 3 then rest else (b, z) :: rest)
    else (k, y) :: putSize rest b z

/-- The side-band of a block as its Wellhead holds it (R282): the check bits stand for the data and bits 3:0, and what an ECC finds wrong
comes with the events that read a block (log 63). -/
def State.sideband (s : State) (b : Nat) : DWord :=
  let size : BitVec 2 := ((s.sizes.find? fun e => e.1 = b).map (·.2)).getD 3
  let low : BitVec 4 := size ++ BitVec.ofBool (s.tags.contains b) ++ BitVec.ofBool (s.poison.contains b)
  Config.ecc (BitVec.ofNat 512 (s.mem.readNat (64 * b) 64)) low ++ (0 : BitVec 4) ++ low

/-- A monitored or swept word whose block is among those written is due for a re-read (R243). -/
def Monitor.see (bs : List Nat) (m : Monitor) : Monitor := { m with dirty := m.dirty || bs.contains (blockOf m.pa) }

/-- Bytes written at a physical address: device memory as its Wellhead writes it, host memory over the Host Link (R417);
`seen` says whether the monitors see it (R244). -/
def State.writePhys (s : State) (pa : Nat) (bs : List Byte) (seen : Bool := true) : State :=
  if isHost pa then { s with host := { s.host with out := s.host.out ++ [.store (pa - Config.hostMemBase) bs] } }
  else if inDevice pa bs.length then
    let m := s.mem.write pa bs
    let blocks := blocksOf pa bs.length
    { s with
      mem := m
      sizes := blocks.foldl (fun z b => putSize z b (sizeCode m b)) s.sizes
      cores := if seen then Bank.ofFn fun c =>
          let k := s.cores.read c
          { k with monitors := k.monitors.map (Monitor.see blocks) }
        else s.cores }
  else s

def State.putPhys (s : State) (pa n x : Nat) : State := s.writePhys pa (bytesLE n x)
def State.setTag (s : State) (b : Nat) (on : Bool) : State := { s with tags := setNat b on s.tags }
def State.setPoison (s : State) (b : Nat) (on : Bool) : State := { s with poison := setNat b on s.poison }
def State.poisonAll (s : State) (bs : List Nat) : State := bs.foldl (fun s b => s.setPoison b true) s

/-- A write of the device itself; a live block takes none (R235). -/
def State.writeOwn (s : State) (pa : Nat) (bs : List Byte) : State := if s.tagged pa then s else s.writePhys pa bs

/-- The size codes of the `n` blocks from block `b` on, as a Wellhead that writes them finds them (R281). -/
def sizeCodes (m : Memory) (b n : Nat) : List (Nat × BitVec 2) :=
  let full := (m.cells.filter fun e => b ≤ e.1 / 64 && e.1 / 64 < b + n).map fun e => e.1 / 64
  (List.range n).filterMap fun i =>
    let z := if full.contains (b + i) then sizeCode m (b + i) else 0
    if z == 3 then none else some (b + i, z)

/-- A whole frame copied with its tag and poison bits (R275), each block compressed as it is written (R281). -/
def State.copyFrame (s : State) (src dst n : Nat) : State :=
  let b := src / 64
  let nb := n / 64
  let inSrc (x : Nat) : Bool := b ≤ x && x < b + nb
  let inDst (x : Nat) : Bool := dst / 64 ≤ x && x < dst / 64 + nb
  let move (xs : List Nat) : List Nat :=
    (xs.filter inSrc).foldl (fun ys x => insertNat (x - b + dst / 64) ys) (xs.filter fun x => !inDst x)
  let keep := s.mem.cells.filter fun e => !(dst ≤ e.1 && e.1 < dst + n)
  let m : Memory := ⟨(s.mem.cells.filter fun e => src ≤ e.1 && e.1 < src + n).foldl
    (fun cs e => writeCells cs (e.1 - src + dst) e.2) keep⟩
  { s with
    mem := m
    tags := move s.tags
    poison := move s.poison
    sizes := (s.sizes.filter fun e => e.1 < dst / 64) ++ sizeCodes m (dst / 64) nb ++ s.sizes.filter fun e => dst / 64 + nb ≤ e.1 }

/-! ### Telemetry and the host (R390, R418) -/

/-- Append a telemetry record to a die's ring: the core it concerns (none for DIE), its kind and its words from byte 8 up. A live block in
the ring takes none (R235). -/
def State.telemetry (s : State) (d : DieId) (core : Option CoreId) (kind : Nat) (words : List DWord) : State :=
  let die := s.dies.read d
  if die.telbase == 0 then s
  else
    let n := 2 ^ (die.telbase.extractLsb' 0 5).toNat
    let ring := 64 * (die.telbase.extractLsb' 6 42).toNat
    let who := match core with
      | some c => 1024 * (c.extractLsb' 0 5).toNat
      | none => 32768
    let w0 := kind + 256 * d.toNat + who + 65536 * (s.cycle % 2 ^ 48)
    let at_ := ring + 64 * (die.telhead.toNat % n)
    let bytes := bytesLE 8 w0 ++ (words.take 7).flatMap (fun w => bytesLE 8 w.toNat) ++
      List.replicate (8 * (7 - words.length)) 0
    (s.writeOwn at_ bytes).modDie d fun x => { x with telhead := x.telhead + 1 }

/-- Poison in a block that the device reads for itself, reported before it is used (R382, R390). -/
def State.reportPoison (s : State) (pa : Nat) : State :=
  s.telemetry (BitVec.ofNat 2 (pa / Config.dieBytes)) none 5 [1, BitVec.ofNat 64 pa, 1]

/-- Set a bit of hl.istat; the host is interrupted when hl.ien enables it (R418). -/
def State.hostIrq (s : State) (bit : Nat) : State :=
  let h := s.host
  let raised : List HostMsg := if h.ien.getLsbD bit then [.interrupt bit] else []
  { s with host := { h with istat := h.istat ||| (1 <<< bit), out := h.out ++ raised } }

/-! ### Taking a trap and returning from one (R355 to R360) -/

/-- csr.tcause: cause, ASYNC, NOSNAP, table entry, sub-cause (R356). -/
def causeWord (cause sub : Byte) (async noSnap : Bool) (entry : BitVec 6) : DWord :=
  zext cause ||| (zext (BitVec.ofBool async) <<< 8) ||| (zext (BitVec.ofBool noSnap) <<< 9) |||
    (zext entry <<< 16) ||| (zext sub <<< 24)

/-- A core stops (R358, R359): its telemetry record (kind 9) and the host interrupt. -/
def State.stopCore (s : State) (c : CoreId) (why : BitVec 2) : State :=
  let k := s.core c
  let s := s.modCore c fun k => { k with halt := some why }
  (s.telemetry (dieOf c) (some c) 9 [k.tepc, k.tcause, k.tval, zext why]).hostIrq 16

/-- A core enters a trap in one step (R358). A core without a handler stops. -/
def State.enterTrap (s : State) (c : CoreId) (cause : DWord) (epc val val2 rec : DWord) : State :=
  let s := s.modCore c fun k =>
    { k with tepc := epc, tcause := cause, tval := val, tval2 := val2, trec := rec
             sys := true, idle := k.running.isNone, pc := k.tvec }
  if (s.core c).tvec == 0 then s.stopCore c 1 else s

/-- The record address of a core's running task, 0 if none. -/
def CoreSt.record (k : CoreSt) : DWord :=
  match k.running with
  | some a => zext a
  | none => 0

/-- A synchronous trap on the active core; in system mode it is a double trap and the core stops (R359). -/
def State.syncTrap (s : State) (cause : Byte) (epc val : DWord) (val2 : DWord := 0) : State :=
  if s.cur.sys then s.stopCore s.active 2
  else s.enterTrap s.active (causeWord cause 0 false false 0) epc val val2 s.cur.record

/-- A fault of the instruction at pc, which has no other effect (R105). -/
def State.faultNow (s : State) (cause : Byte) (val : DWord) : State := s.syncTrap cause s.cur.pc val

/-- Every core fetches the code words of `n` bytes as they stand from now on (R121, R379). -/
def State.freshCode (s : State) (pa n : Nat) : State :=
  s.eachCore fun _ k => { k with stale := k.stale.filter fun w => !(pa ≤ w.pa && w.pa < pa + n) }

/-- An asynchronous trap becomes pending (R359). -/
def CoreSt.pend (k : CoreSt) (t : Trap) : CoreSt := { k with pending := k.pending ++ [t] }
def mkTrap (cause : Byte) (val val2 : DWord) (rec : Addr) (sub : Byte := 0) (entry : BitVec 6 := 0) (noSnap : Bool := false) : Trap :=
  ⟨cause, sub, entry, noSnap, val, val2, rec⟩

/-- The oldest pending trap is taken: at pc when a task runs, with csr.tepc 0 on an idle core (R357, R359). BREAK sets SKIP
(R377). -/
def State.takePending (s : State) (c : CoreId) : State :=
  let k := s.core c
  match k.pending with
  | [] => s
  | t :: ts =>
    let s := s.setCore c { k with pending := ts, skip := k.skip || t.cause == cBreak }
    s.enterTrap c (causeWord t.cause t.sub true t.noSnap t.entry) (if k.running.isSome then k.pc else 0) t.val t.val2 (zext t.task)

/-- SYSRET's return (R360): to csr.tepc, or to idle; a pending trap is taken at once. SKIP is armed for csr.tepc (R377). -/
def State.leaveTrap (s : State) : State :=
  let k := s.cur
  let s := if k.idle then s.modCur fun k => { k with sys := false, idle := false }
    else s.modCur fun k => { k with sys := false, pc := k.tepc, skipArmed := k.skip }
  s.takePending s.active

end Sys2Proof.Machine
end

