-- ==== Sys2Proof/Machine/Alu.lean ====
section
/-! DEFINITION. Register-register, immediate and constant-building instructions of the control core (R106 to R113). -/

namespace Sys2Proof.Machine

/-- A comparison's result. -/
def boolWord (b : Bool) : DWord := if b then 1 else 0

/-- Signed division, truncated toward zero, with the edges of R110. -/
def divS (x y : DWord) : DWord := if y = 0 then -1 else BitVec.ofInt 64 (x.toInt.tdiv y.toInt)
/-- Signed remainder with the dividend's sign. -/
def remS (x y : DWord) : DWord := if y = 0 then x else BitVec.ofInt 64 (x.toInt.tmod y.toInt)
def divU (x y : DWord) : DWord := if y = 0 then -1 else x / y
def remU (x y : DWord) : DWord := if y = 0 then x else x % y

/-- gd receives a function of ga and gb (R106). -/
def State.binary (s : State) (f : DWord → DWord → DWord) (d a b : BitVec 5) : Out := .next (s.result d (f (s.g a) (s.g b)))
/-- gd receives a function of ga (R106, R111). -/
def State.unary (s : State) (f : DWord → DWord) (d a : BitVec 5) : Out := .next (s.result d (f (s.g a)))

def execAdd (d a b : BitVec 5) (s : State) : Out := s.binary (· + ·) d a b
def execSub (d a b : BitVec 5) (s : State) : Out := s.binary (· - ·) d a b
def execAnd (d a b : BitVec 5) (s : State) : Out := s.binary (· &&& ·) d a b
def execOr (d a b : BitVec 5) (s : State) : Out := s.binary (· ||| ·) d a b
def execXor (d a b : BitVec 5) (s : State) : Out := s.binary (· ^^^ ·) d a b
def execSll (d a b : BitVec 5) (s : State) : Out := s.binary shiftLeft d a b
def execSrl (d a b : BitVec 5) (s : State) : Out := s.binary shiftRight d a b
def execSra (d a b : BitVec 5) (s : State) : Out := s.binary shiftRightA d a b
def execSlt (d a b : BitVec 5) (s : State) : Out := s.binary (fun x y => boolWord (x.slt y)) d a b
def execSltu (d a b : BitVec 5) (s : State) : Out := s.binary (fun x y => boolWord (x.ult y)) d a b
def execMin (d a b : BitVec 5) (s : State) : Out := s.binary minS d a b
def execMax (d a b : BitVec 5) (s : State) : Out := s.binary maxS d a b
def execMinu (d a b : BitVec 5) (s : State) : Out := s.binary minU d a b
def execMaxu (d a b : BitVec 5) (s : State) : Out := s.binary maxU d a b
def execSextB (d a : BitVec 5) (s : State) : Out := s.unary (fun x => sext (x.extractLsb' 0 8)) d a
def execSextH (d a : BitVec 5) (s : State) : Out := s.unary (fun x => sext (x.extractLsb' 0 16)) d a
def execSextW (d a : BitVec 5) (s : State) : Out := s.unary (fun x => sext (x.extractLsb' 0 32)) d a
def execMul (d a b : BitVec 5) (s : State) : Out := s.binary (· * ·) d a b
def execMulh (d a b : BitVec 5) (s : State) : Out := s.binary mulHigh d a b
def execMulhu (d a b : BitVec 5) (s : State) : Out := s.binary mulHighU d a b
def execDiv (d a b : BitVec 5) (s : State) : Out := s.binary divS d a b
def execDivu (d a b : BitVec 5) (s : State) : Out := s.binary divU d a b
def execRem (d a b : BitVec 5) (s : State) : Out := s.binary remS d a b
def execRemu (d a b : BitVec 5) (s : State) : Out := s.binary remU d a b

def execAddi (d a : BitVec 5) (imm : BitVec 16) (s : State) : Out := s.unary (· + sext imm) d a
def execAndi (d a : BitVec 5) (imm : BitVec 16) (s : State) : Out := s.unary (· &&& zext imm) d a
def execOri (d a : BitVec 5) (imm : BitVec 16) (s : State) : Out := s.unary (· ||| zext imm) d a
def execXori (d a : BitVec 5) (imm : BitVec 16) (s : State) : Out := s.unary (· ^^^ zext imm) d a
def execSlti (d a : BitVec 5) (imm : BitVec 16) (s : State) : Out := s.unary (fun x => boolWord (x.slt (sext imm))) d a
def execSltiu (d a : BitVec 5) (imm : BitVec 16) (s : State) : Out := s.unary (fun x => boolWord (x.ult (sext imm))) d a
def execSlli (d a : BitVec 5) (n : BitVec 6) (s : State) : Out := s.unary (fun x => shiftLeft x (zext n)) d a
def execSrli (d a : BitVec 5) (n : BitVec 6) (s : State) : Out := s.unary (fun x => shiftRight x (zext n)) d a
def execSrai (d a : BitVec 5) (n : BitVec 6) (s : State) : Out := s.unary (fun x => shiftRightA x (zext n)) d a
def execLui (d : BitVec 5) (imm : BitVec 16) (s : State) : Out := .next (s.result d (sext imm <<< 16))
def execShori (d a : BitVec 5) (imm : BitVec 16) (s : State) : Out := s.unary (fun x => x.extractLsb' 0 48 ++ imm) d a

end Sys2Proof.Machine
end

