-- ==== Sys2Proof/Machine/Branch.lean ====
section
/-! DEFINITION. Branches and jumps (R122 to R124). -/

namespace Sys2Proof.Machine

/-- Jump to `t`, linking first in gd; a target outside the address space faults with no effect, and with `align` so does one
off a word. -/
def State.jump (s : State) (t : DWord) (link : Option (BitVec 5)) (align : Bool := false) : State :=
  if t.extractLsb' 48 16 != 0 then s.faultNow cAddress t
  else if align && t.extractLsb' 0 2 != 0 then s.faultNow cAlign t
  else
    match link with
    | some d => (s.setG d (s.cur.pc + 4)).setPc t
    | none => s.setPc t

/-- A taken branch goes to the word `off` words from pc; an untaken one never faults. -/
def State.branch (s : State) (taken : Bool) (off : BitVec 16) : State :=
  if taken then s.jump (s.cur.pc + sext off * 4) none else s.advance

def execBeq (a b : BitVec 5) (off : BitVec 16) (s : State) : Out := .next (s.branch (s.g a == s.g b) off)
def execBne (a b : BitVec 5) (off : BitVec 16) (s : State) : Out := .next (s.branch (s.g a != s.g b) off)
def execBlt (a b : BitVec 5) (off : BitVec 16) (s : State) : Out := .next (s.branch ((s.g a).slt (s.g b)) off)
def execBge (a b : BitVec 5) (off : BitVec 16) (s : State) : Out := .next (s.branch (!(s.g a).slt (s.g b)) off)
def execBltu (a b : BitVec 5) (off : BitVec 16) (s : State) : Out := .next (s.branch ((s.g a).ult (s.g b)) off)
def execBgeu (a b : BitVec 5) (off : BitVec 16) (s : State) : Out := .next (s.branch (!(s.g a).ult (s.g b)) off)
def execJal (off : BitVec 26) (s : State) : Out := .next (s.jump (s.cur.pc + sext off * 4) (some 1))
def execJalr (d a : BitVec 5) (imm : BitVec 16) (s : State) : Out := .next (s.jump (s.g a + sext imm * 4) (some d) true)

end Sys2Proof.Machine
end

