-- ==== Sys2Proof/Machine/Crc.lean ====
section
/-! DEFINITION. The cyclic checks: CRC-32 of images and flits, CRC-16 of blocks in transit (R365, R384, R396). -/

namespace Sys2Proof.Machine

/-- CRC-32 of IEEE 802.3 (R365): the register after `n` bits, reflected. -/
def crcBits : Nat → Word → Word
  | 0, r => r
  | n + 1, r => crcBits n (if r.getLsbD 0 then (r >>> 1) ^^^ 0xEDB88320 else r >>> 1)
def crc32 (bs : List Byte) : Word := ~~~(bs.foldl (fun r b => crcBits 8 (r ^^^ b.setWidth 32)) (-1))

/-- CRC-16 with polynomial 0x1021 and initial value 0xFFFF (R384), the high bit first (log 58): the register after `n` bits. -/
def crc16Bits : Nat → BitVec 16 → BitVec 16
  | 0, r => r
  | n + 1, r => crc16Bits n (if r.getLsbD 15 then (r <<< 1) ^^^ 0x1021 else r <<< 1)
def crc16 (bs : List Byte) : BitVec 16 := bs.foldl (fun r b => crc16Bits 8 (r ^^^ (BitVec.setWidth 16 b <<< (8 : Nat)))) 0xFFFF

end Sys2Proof.Machine
end

