-- ==== Sys2Proof/Machine/Image.lean ====
section
/-! DEFINITION. Kernel images: entries and the requirements on them (R428, R429). -/

namespace Sys2Proof.Machine

/-- Word `i` of bytes. -/
def wordAt (bs : List Byte) (i : Nat) : DWord := BitVec.ofNat 64 (ofBytesLE ((bs.drop (8 * i)).take 8))

/-! ### Kernel entries (R429) -/

/-- A kernel entry: where its bundles start, how many there are, whether they are Frazin, and its declaration. -/
structure KEntry where
  start : Nat
  count : Nat
  frazin : Bool
  reserved : Bool
  image : KImage

/-- The entry in 64 bytes. -/
def readEntry (bs : List Byte) : KEntry :=
  let w0 := wordAt bs 0
  let m := wordAt bs 4
  { start := (w0.extractLsb' 0 32).toNat
    count := (w0.extractLsb' 32 13).toNat
    frazin := w0.getLsbD 49
    reserved := w0.extractLsb' 45 3 != 0 || w0.extractLsb' 50 14 != 0 || m.extractLsb' 46 2 != 0 ||
      (wordAt bs 5).extractLsb' 32 32 != 0 || wordAt bs 6 != 0 || wordAt bs 7 != 0
    image := ⟨wordAt bs 1, wordAt bs 2, wordAt bs 3, m.extractLsb' 0 16, m.extractLsb' 16 16, m.extractLsb' 32 8,
      m.extractLsb' 40 6, m.extractLsb' 48 16, w0.getLsbD 48, (wordAt bs 5).extractLsb' 0 32 |>.toNat, [], [], []⟩ }

/-- Whether a footprint names only registers that the device has. -/
def KImage.fits (k : KImage) : Bool :=
  k.amask.extractLsb' 32 32 == 0 && k.vmask.extractLsb' 32 32 == 0 && k.tmask.extractLsb' 8 8 == 0

/-- Whether a native entry is usable. -/
def KEntry.usable (e : KEntry) : Bool :=
  !e.reserved && e.image.fits && (!e.image.sw || e.image.vmask.extractLsb' 16 16 == -1) && 1 ≤ e.count && e.count ≤ Config.kstore

/-- `n` native bundles from bytes. -/
def readBundles : Nat → List Byte → List (BitVec 256)
  | 0, _ => []
  | n + 1, bs => BitVec.ofNat 256 (ofBytesLE (bs.take 32)) :: readBundles n (bs.drop 32)

end Sys2Proof.Machine
end

