-- ==== Sys2Proof/Machine/Frazin.lean ====
section
/-! DEFINITION. The portable form of a kernel image and its translation: bundles, interlocks, spills (R433 to R437, R440). -/

namespace Sys2Proof.Machine

/-! ### Frazin bundles (R433) -/

/-- A Frazin bundle: header, slot words, literal. -/
structure FBundle where
  hdr : Word
  slots : List Word
  lit : Option (BitVec 128)

/-- `n` Frazin bundles from bytes. -/
def readFrazin : Nat → List Byte → List FBundle
  | 0, _ => []
  | n + 1, bs =>
    let x : BitVec 160 := BitVec.ofNat 160 (ofBytesLE (bs.take 20))
    let hdr := x.extractLsb' 128 32
    let slots := [x.extractLsb' 96 32, x.extractLsb' 64 32, x.extractLsb' 32 32, x.extractLsb' 0 32]
    if hdr.getLsbD 23 then
      ⟨hdr, slots, some (BitVec.ofNat 128 (ofBytesLE ((bs.drop 20).take 16)))⟩ :: readFrazin n (bs.drop 36)
    else ⟨hdr, slots, none⟩ :: readFrazin n (bs.drop 20)

/-- Bytes that a Frazin bundle takes. -/
def FBundle.bytes (b : FBundle) : Nat := if b.lit.isSome then 36 else 20

/-- The native units of the four slots; none for slot-2 codes 10 and 11. -/
def FBundle.units (b : FBundle) : Option (List Slot) :=
  let three : Slot := match b.hdr.extractLsb' 24 2 with
    | 0#2 => .E
    | 1#2 => .F
    | 2#2 => .G
    | _ => .H
  match b.hdr.extractLsb' 26 2 with
  | 0#2 => some [.A, .B, .C, three]
  | 1#2 => some [.A, .B, .D, three]
  | _ => none

/-- The occupied slot words with their units. -/
def FBundle.ops (b : FBundle) : Option (List (Slot × Word)) :=
  b.units.map fun us =>
    (((us.zip b.slots).zip (List.range 4)).filter fun x => b.hdr.getLsbD (31 - x.2)).map (·.1)

/-- The bytes of a Frazin bundle. -/
def FBundle.toBytes (b : FBundle) : List Byte :=
  (b.slots.reverse ++ [b.hdr]).flatMap (fun w => bytesLE 4 w.toNat) ++ (match b.lit with
    | some x => bytesLE 16 x.toNat
    | none => [])

/-! ### The registers of an operation -/

/-- What a register field names. -/
inductive RegKind where
  | a | v | t
  deriving DecidableEq, Repr

/-- A register field of a slot's layout: its kind, low bit, width, and whether the operation reads and writes the register. One that
leaves part of its destination as it was counts as reading it. -/
structure RegField where
  kind : RegKind
  low : Nat
  width : Nat
  reads : Bool
  writes : Bool
  deriving DecidableEq, Repr

def readsA (low : Nat) : RegField := ⟨.a, low, 5, true, false⟩
def writesA (low : Nat) : RegField := ⟨.a, low, 5, false, true⟩
def changesA (low : Nat) : RegField := ⟨.a, low, 5, true, true⟩
def readsV (low : Nat) : RegField := ⟨.v, low, 5, true, false⟩
def writesV (low : Nat) : RegField := ⟨.v, low, 5, false, true⟩
def changesV (low : Nat) : RegField := ⟨.v, low, 5, true, true⟩

/-- The operand source of MLOADB and the pushes (R175). -/
def srcField (s : MatSrc) : List RegField :=
  match s.kind with
  | 0#2 => [⟨.t, 4, 3, true, false⟩]
  | 1#2 => [readsV 2]
  | 2#2 => [readsA 2]
  | _ => []

/-- A destination that is a vector or a tile. -/
def destField (tile : Bool) (low : Nat) : RegField := if tile then ⟨.t, low, 3, true, true⟩ else changesV low
/-- The row selector of a near form: a0 to a15, or an immediate. -/
def rowField (row : BitVec 5) : List RegField := [⟨.a, 0, 4, row.getLsbD 4, false⟩]

/-- The register fields of an operation's layout from bit 15 down (R97, R133, R175, R184, R185, R187, R200): bits 30:28 of its slot word
extend the first three (R433). -/
def regFields : Instr → List RegField
  | .sAdd _ _ _ _ | .sSub _ _ _ _ | .sAnd _ _ _ _ | .sOr _ _ _ _ | .sXor _ _ _ _ | .sSll _ _ _ _ | .sSrl _ _ _ _ | .sSra _ _ _ _
  | .sMul _ _ _ _ | .sMulh _ _ _ _ | .sMin _ _ _ _ | .sMax _ _ _ _ | .sMinu _ _ _ _ | .sMaxu _ _ _ _ =>
    [writesA 11, readsA 6, readsA 1]
  | .vsel _ _ _ _ | .vand _ _ _ _ | .vor _ _ _ _ | .vxor _ _ _ _ | .vperm _ _ _ _ | .vadd _ _ _ _ _ | .vsub _ _ _ _ _
  | .vmul _ _ _ _ _ | .vdiv _ _ _ _ _ | .vmin _ _ _ _ _ | .vmax _ _ _ _ _ | .vshl _ _ _ _ _ | .vshr _ _ _ _ _ =>
    [writesV 11, readsV 6, readsV 1]
  | .vfshl _ _ _ _ | .vfshr _ _ _ _ | .vfma _ _ _ _ _ => [changesV 11, readsV 6, readsV 1]
  | .vtopk _ _ _ _ _ => [changesV 11, readsV 6, changesA 1]
  | .vcvt _ _ _ _ _ => [changesV 11, readsV 6, readsA 1]
  | .vmov _ _ _ | .vnot _ _ _ | .vpopc _ _ _ _ | .vabs _ _ _ _ | .vneg _ _ _ _ | .vsqrt _ _ _ _ | .vred _ _ _ _ _ _
  | .vscan _ _ _ _ _ _ _ => [writesV 11, readsV 6]
  | .vqmov _ dir _ _ => [if dir then readsV 11 else writesV 11]
  | .vbcast _ _ _ _ => [writesV 11, readsA 6]
  | .vcmp _ _ _ _ _ _ => [readsV 8, readsV 3]
  | .cmp _ _ _ _ _ => [readsA 8, readsA 3]
  | .cmpi _ _ _ _ _ | .loop _ _ _ _ _ => [readsA 8]
  | .lock _ _ _ => [readsA 7]
  | .sMov _ _ _ => [writesA 11, readsA 6]
  | .sAddi _ _ _ | .sAndi _ _ _ | .sOri _ _ _ | .sXori _ _ _ | .sSlli _ _ _ | .sSrli _ _ _ | .sSrai _ _ _ => [changesA 11]
  | .movi _ _ _ | .rdlc _ _ _ | .wfield _ _ _ | .cfgrd _ _ | .mmova _ _ _ => [writesA 11]
  | .stlda _ _ _ | .margin _ _ | .hbound _ _ => [readsA 11]
  | .manchor _ _ _ _ _ => [readsA 3]
  | .mset _ _ _ => [readsA 8]
  | .mloadb _ _ _ src | .mpush _ _ _ src | .mpushSc _ _ src | .mloadbWide _ _ _ src | .mpushWide _ _ _ src => srcField src
  | .mdrain _ _ _ _ _ _ tile => [destField tile 11]
  | .trin _ _ _ _ => [readsV 11]
  | .trout _ _ _ tile => [destField tile 11]
  | .retag _ tile _ _ => [destField tile 10]
  | .cld _ _ _ _ row => writesV 11 :: rowField row
  | .cst _ _ _ row => readsV 11 :: rowField row
  | .cldU _ _ _ _ _ | .cldFar _ _ _ _ _ => [writesV 11]
  | .cstU _ _ _ _ | .cstM _ _ _ _ => [readsV 11]
  | .catom _ _ _ _ _ | .catomFar _ _ _ _ _ => [changesV 11]
  | .swsend _ _ _ _ _ | .swrecv _ _ _ _ _ => [changesV 11, readsV 6, ⟨.a, 0, 4, true, false⟩]
  | .swbcast _ _ _ _ _ => [changesV 11, readsV 6]
  | _ => []

/-- The format that an operation's opcode names (R101 to R103). -/
def opcodeFormat : Instr → Option Tag
  | .vadd _ f _ _ _ | .vsub _ f _ _ _ | .vmul _ f _ _ _ | .vfma _ f _ _ _ | .vdiv _ f _ _ _ | .vmin _ f _ _ _ | .vmax _ f _ _ _
  | .vabs _ f _ _ | .vneg _ f _ _ | .vsqrt _ f _ _ | .vcmp _ f _ _ _ _ | .vcvt _ f _ _ _ | .vbcast _ f _ _ | .vshl _ f _ _ _
  | .vshr _ f _ _ _ | .vred _ f _ _ _ _ | .vscan _ f _ _ _ _ _ | .cld _ f _ _ _ | .cldU _ f _ _ _ | .cldFar _ f _ _ _
  | .mdrain _ f _ _ _ _ _ | .trin _ f _ _ => some (tagOf f)
  | .catom _ k _ _ _ | .catomFar _ k _ _ _ => match k with
    | 0#4 | 3#4 | 4#4 => some 4
    | 1#4 | 5#4 | 6#4 => some 8
    | 2#4 => some 13
    | _ => none
  | _ => none

/-- The tag of an operation's vector result where the opcode fixes it (R436). -/
def resultTag : Instr → Option Tag
  | .vfshl _ _ _ _ | .vfshr _ _ _ _ | .vqmov _ _ _ _ => some 15
  | .vpopc _ _ _ _ => some 4
  | .retag _ _ _ tag => some tag
  | i => opcodeFormat i

/-- Whether the vector registers of an operation may be pairs: its opcode names a pair format, or takes its format from a tag. -/
def mayPair (i : Instr) : Bool :=
  match i with
  | .vcvt _ _ _ _ _ | .vtopk _ _ _ _ _ => true
  | .vfshl _ _ _ _ | .vfshr _ _ _ _ | .vqmov _ _ _ _ | .mloadb _ _ _ _ | .mpush _ _ _ _ | .mpushSc _ _ _ | .mloadbWide _ _ _ _
  | .mpushWide _ _ _ _ | .swsend _ _ _ _ _ | .swrecv _ _ _ _ _ | .swbcast _ _ _ _ _ | .trout _ _ _ _ => false
  | i => (opcodeFormat i).all tagPair

/-- Whether an operation names h63, which the loader keeps for a spill area (R437). -/
def FBundle.namesSpill (b : FBundle) : Bool :=
  b.ops.any fun os => os.any fun x => x.1 == .G && 1 ≤ (x.2.extractLsb' 20 4).toNat && (x.2.extractLsb' 20 4).toNat ≤ 6 && x.2.extractLsb' 5 6 == 63

/-- The operation of a slot word, any extension word empty. -/
def opOf (s : Slot) (w : Word) : Option Instr :=
  decodeSlot ⟨s, w.extractLsb' 24 4, none⟩ (w.extractLsb' 16 8) (w.extractLsb' 0 16) [0]

/-- Whether the register extension bits of a bundle name only fields that their layouts have (R433). -/
def FBundle.extensionsOk (b : FBundle) : Bool :=
  b.ops.any fun os => os.all fun x =>
    match opOf x.1 x.2 with
    | none => false
    | some i => (List.range 3).all fun j => !x.2.getLsbD (30 - j) || decide (j < (regFields i).length)

/-- The 64-bit value of a literal fits an immediate that `n` neighbours extend (R18). -/
def literalFits (v : DWord) (n : Nat) : Bool :=
  if n = 0 then sext (v.extractLsb' 0 8) == v else if n = 1 then sext (v.extractLsb' 0 36) == v else true

/-- The neighbours' bodies that a literal's value takes as a long immediate (R18). -/
def immBodies (v : DWord) : List (BitVec 28) :=
  if literalFits v 0 then [] else if literalFits v 1 then [v.extractLsb' 8 28] else [v.extractLsb' 8 28, v.extractLsb' 36 28]

/-- Whether the `n` native slots to the right of one are there and empty in a bundle (R18, R433). -/
def FBundle.clearRight (b : FBundle) (s : Slot) (n : Nat) : Bool :=
  s.num.toNat + n ≤ 7 && !(b.ops.getD []).any fun o => s.num.toNat < o.1.num.toNat && o.1.num.toNat ≤ s.num.toNat + n

/-- Whether an operation owns the bundle's long immediate: its short field holds the value's low byte, and the neighbours that the value
takes are empty, so that of two such operations the one that can own it does (R18, R433; log 20). -/
def FBundle.ownsImm (b : FBundle) (s : Slot) (w : Word) (i : Instr) : Bool :=
  match b.lit with
  | none => false
  | some lit =>
    let v : DWord := lit.extractLsb' 0 64
    i.ownsLong && w.extractLsb' 0 8 == v.extractLsb' 0 8 && b.clearRight s (immBodies v).length

/-- The bodies that an operation of a Frazin bundle surrenders: those of an X operation or of the bundle's long immediate. -/
def FBundle.owned (b : FBundle) (s : Slot) (w : Word) (i : Instr) : List (BitVec 28) :=
  match b.lit with
  | none => []
  | some lit =>
    if i.ownsExt && s == .G then [lit.extractLsb' 64 28]
    else if b.ownsImm s w i then immBodies (lit.extractLsb' 0 64)
    else []

/-- A landing field at its minimum (R433, R435). -/
def withLanding : Instr → Instr
  | .cldFar h f v hnd x => .cldFar h f v hnd { x with low := 12 }
  | .catomFar h k v hnd x => .catomFar h k v hnd { x with low := 12 }
  | .catom h k v hnd x => .catom h k v hnd { x with low := 8 }
  | i => i

/-- The operations of a Frazin bundle for the native units, long immediates and landings placed; none when it is malformed. -/
def FBundle.native (b : FBundle) : Option (List Instr) :=
  match b.ops with
  | none => none
  | some ops =>
    let bodyOk := b.hdr.extractLsb' 0 23 == 0 && ops.all (fun x => !x.2.getLsbD 31) &&
      ((b.slots.zip (List.range 4)).all fun x => b.hdr.getLsbD (31 - x.2) || x.1 == 0)
    let isOwner (x : Slot × Word) : Bool := match opOf x.1 x.2 with
      | none => false
      | some i => i.ownsExt && x.1 == .G || b.ownsImm x.1 x.2 i
    let litOk := match b.lit with
      | some lit => lit.extractLsb' 92 36 == 0 && ops.any isOwner
      | none => !ops.any fun x => (opOf x.1 x.2).any fun i => i.ownsExt
    let one (x : Slot × Word) : Option Instr :=
      match opOf x.1 x.2 with
      | none => none
      | some i =>
        let ext := b.owned x.1 x.2 i
        if !b.clearRight x.1 ext.length then none
        else match i with
          | .loopSw _ _ _ _ _ _ => none
          | .loopiSw _ _ _ _ _ => none
          | _ => (decodeSlot ⟨x.1, x.2.extractLsb' 24 4, none⟩ (x.2.extractLsb' 16 8) (x.2.extractLsb' 0 16) ext).map withLanding
    if bodyOk && litOk then ops.mapM one else none

/-! ### Extension words (R98) -/

/-- The extension word of an X form. -/
def extOf : Instr → Option Ext
  | .cldU _ _ _ _ e | .cldFar _ _ _ _ e | .catom _ _ _ _ e | .catomFar _ _ _ _ e => some e
  | .cstU _ _ _ e | .cstM _ _ _ e => some e
  | _ => none

/-- An X form with its extension word changed. -/
def mapExt (f : Ext → Ext) : Instr → Instr
  | .cldU h t v hnd e => .cldU h t v hnd (f e)
  | .cldFar h t v hnd e => .cldFar h t v hnd (f e)
  | .catom h k v hnd e => .catom h k v hnd (f e)
  | .catomFar h k v hnd e => .catomFar h k v hnd (f e)
  | .cstU h v hnd e => .cstU h v hnd (f e)
  | .cstM h v hnd e => .cstM h v hnd (f e)
  | i => i

/-- Whether reg2 of the extension word names a vector register. -/
def usesReg2 : Instr → Bool
  | .cstM _ _ _ _ | .catom _ _ _ _ _ | .catomFar _ _ _ _ _ => true
  | _ => false

/-- The registers that an extension word names, all of them read: the row register of mode 1, and reg2. -/
def extRegs (i : Instr) : List (RegKind × Nat) :=
  match extOf i with
  | none => []
  | some e => (if e.mode then [(.a, (e.row.extractLsb' 0 5).toNat)] else []) ++ (if usesReg2 i then [(.v, e.reg2.toNat)] else [])

/-! ### What an operation waits for (R434, R435) -/

/-- What a later operation may have to wait for. What every operation leaves ready for the next bundle is none of these. -/
inductive Res where
  | a (n : Nat)
  | v (n : Nat)
  | t (n : Nat)
  | q (n : Nat)
  | acc (n : Nat)
  | farRead
  | farWrite
  | rate (slot : Slot) (group : BitVec 2)
  deriving DecidableEq, Repr

def RegKind.res : RegKind → Nat → Res
  | .a, n => .a n
  | .v, n => .v n
  | .t, n => .t n

/-- The operand bits of an operation (R97). -/
def operandBits (i : Instr) : BitVec 16 := ((slotCode i).map SlotCode.x).getD 0

/-- The registers of a field. -/
def RegField.regs (f : RegField) (i : Instr) : List Res :=
  let n := field (operandBits i).toNat f.low f.width
  let two := match f.kind with
    | .v => n % 2 = 0 && mayPair i
    | .a => match i with
      | .mloadb _ _ _ _ | .mpush _ _ _ _ | .mpushSc _ _ _ | .mloadbWide _ _ _ _ | .mpushWide _ _ _ _ => true
      | _ => false
    | .t => false
  f.kind.res n :: if two then [f.kind.res (n + 1)] else []

/-- The accumulator rows that an index names (R175). -/
def accRows (r : BitVec 6) (many : Bool) : List Res := if many then (List.range 64).map Res.acc else [.acc r.toNat]

/-- The rate group of an operation with its gap (R129). -/
def rateOf : Instr → Option (BitVec 2)
  | .vadd _ f _ _ _ | .vsub _ f _ _ _ | .vmul _ f _ _ _ | .vfma _ f _ _ _ | .vmin _ f _ _ _ | .vmax _ f _ _ _ | .vcmp _ f _ _ _ _
  | .vred _ f _ _ _ _ | .vscan _ f _ _ _ _ _ => rateFp64 (tagOf f)
  | .vdiv _ f _ _ _ | .vsqrt _ f _ _ => rateDiv (tagOf f)
  | _ => none

/-- The kc from an operation's issue to its vector, tile or lane predicate result (R50, R129, R167, R201, R263). -/
def resultLatency : Instr → Nat
  | .cldFar _ _ _ _ x | .catomFar _ _ _ _ x | .catom _ _ _ _ x => x.low.toNat
  | .cld _ _ _ _ _ | .cldU _ _ _ _ _ => 6
  | .mdrain _ _ _ _ _ _ _ | .vtopk _ _ _ _ _ | .vcvt _ _ _ _ _ | .vfma _ _ _ _ _ | .vdiv _ _ _ _ _ | .vsqrt _ _ _ _ => 4
  | .swsend _ _ _ _ _ | .swrecv _ _ _ _ _ | .swbcast _ _ _ _ _ => 3
  | .vadd _ f _ _ _ | .vsub _ f _ _ _ | .vmul _ f _ _ _ | .vmin _ f _ _ _ | .vmax _ f _ _ _ | .vcmp _ f _ _ _ _
  | .vred _ f _ _ _ _ | .vscan _ f _ _ _ _ _ => vecLat (tagOf f)
  | .retag _ _ _ _ => 1
  | _ => 2

/-- The slot and guard of an operation. -/
def opHdr (i : Instr) : Option SlotHdr := (slotCode i).map SlotCode.h

/-- What an operation reads. -/
def usesOf (i : Instr) : List Res :=
  ((regFields i).filter RegField.reads).flatMap (fun f => f.regs i) ++ (extRegs i).map (fun x => x.1.res x.2) ++
    (match opHdr i with
      | some h => (if h.slot == .C || h.slot == .D then [.q h.guard.toNat] else []) ++
        ((rateOf i).map fun g => Res.rate h.slot g).toList
      | none => []) ++
    match i with
    | .mdrain _ _ _ r x _ _ => accRows r x
    | .tmark _ r x _ _ => accRows r x
    | .catom _ _ _ _ x | .catomFar _ _ _ _ x => [.v (x.reg2.toNat + 1), .farRead, .farWrite]
    | .cst _ _ _ _ | .cstU _ _ _ _ | .cstM _ _ _ _ => [.farRead, .farWrite]
    | .cld _ _ _ _ _ | .cldU _ _ _ _ _ | .cldFar _ _ _ _ _ | .mloadb _ _ _ _ | .mpush _ _ _ _ | .mpushSc _ _ _
    | .mloadbWide _ _ _ _ | .mpushWide _ _ _ _ => [.farWrite]
    | .vqmov _ _ _ q => [.q q.toNat]
    | _ => []

/-- What an operation writes, with the kc after which each stands. -/
def defsOf (i : Instr) : List (Res × Nat) :=
  (((regFields i).filter RegField.writes).flatMap fun f => (f.regs i).map fun r => (r, match f.kind with
    | .a => match i with
      | .vtopk _ _ _ _ _ => 4
      | _ => 1
    | _ => resultLatency i)) ++
    (match opHdr i, rateOf i with
      | some h, some g => [(Res.rate h.slot g, rateGap g)]
      | _, _ => []) ++
    match i with
    | .mpush _ _ r src | .mpushWide _ _ r src => (accRows r src.x).map (·, 68)
    | .mpushSc _ r src => (accRows r src.x).map (·, 68)
    | .macc _ r x _ all _ => (accRows r (x || all)).map (·, 1)
    | .manchor _ r all x _ => (accRows r (x || all)).map (·, 1)
    | .vcmp _ _ _ k _ _ => [(.q (2 * k.toNat), resultLatency i), (.q (2 * k.toNat + 1), resultLatency i)]
    | .vqmov _ true _ q => [(.q q.toNat, 2), (.q (q.toNat + 1), 2)]
    | .cldFar _ _ _ _ x => [(.farRead, x.low.toNat)]
    | .catom _ _ _ _ x | .catomFar _ _ _ _ x => [(.farRead, x.low.toNat), (.farWrite, x.low.toNat)]
    | _ => []

/-- What is still to come, in kc from the next bundle. -/
abbrev Pending := List (Res × Nat)

def Pending.left (p : Pending) (r : Res) : Nat := ((p.find? fun x => x.1 == r).map (·.2)).getD 0
def Pending.raise (p : Pending) (r : Res) (n : Nat) : Pending :=
  if n ≤ p.left r then p else (r, n) :: p.filter fun x => x.1 != r
def Pending.join (p q : Pending) : Pending := q.foldl (fun p x => p.raise x.1 x.2) p
def Pending.within (p q : Pending) : Bool := p.all fun x => decide (x.2 ≤ q.left x.1)

/-- A native bundle of a translation: operations, or the move of a spilled register. -/
inductive FStep where
  | ops (is : List Instr)
  | move (m : SpillMove)
  deriving Repr

/-- What a move of a spilled register reads, and what it writes: as CLD and CST do (R436). -/
def SpillMove.uses : SpillMove → List Res
  | .loadA _ _ | .loadT _ _ _ => [.farWrite]
  | .storeA r _ => [.a r.toNat, .farRead, .farWrite]
  | .storeT t _ => [.t t.toNat, .farRead, .farWrite]
  | .resetA _ | .resetV _ | .resetT _ => []
def SpillMove.defs : SpillMove → List (Res × Nat)
  | .loadA r _ | .resetA r => [(.a r.toNat, 6)]
  | .loadT t _ _ | .resetT t => [(.t t.toNat, 6)]
  | .resetV v => [(.v v.toNat, 6)]
  | .storeA _ _ | .storeT _ _ => []

def FStep.instrs : FStep → List Instr
  | .ops is => is
  | .move _ => []
def FStep.uses : FStep → List Res
  | .ops is => is.flatMap usesOf
  | .move m => m.uses
def FStep.defs : FStep → List (Res × Nat)
  | .ops is => is.flatMap defsOf
  | .move m => m.defs

/-- The empty bundles before a bundle: until every value that it reads is due (R435), and until none of its results could fall due
before one that an earlier bundle owes at the same place (R434). -/
def Pending.wait (p : Pending) (x : FStep) : Nat :=
  max ((x.uses.map p.left).foldl max 0) ((x.defs.map fun d => p.left d.1 - d.2).foldl max 0)

/-- What is still to come once a bundle has issued after `w` empty ones. -/
def Pending.after (p : Pending) (w : Nat) (x : FStep) : Pending :=
  x.defs.foldl (fun p d => p.raise d.1 (d.2 - 1)) ((p.map fun x => (x.1, x.2 - (w + 1))).filter fun x => x.2 != 0)

/-! ### Spills (R436, R437) -/

/-- The first staging register of each kind, which is the first that an image may have to spill (R436). -/
def firstSpill : RegKind → Nat
  | .a => 28
  | .v => 28
  | .t => 6
/-- The registers of each kind that the device has. -/
def deviceRegs : RegKind → Nat
  | .a => 32
  | .v => 32
  | .t => 8

/-- A register field of a slot word with its number, extended by the word's bit for it (R433). -/
def extendedFields (w : Word) (i : Instr) : List (RegField × Nat) :=
  (regFields i).zipIdx.map fun x =>
    (x.1, field w.toNat x.1.low x.1.width + if x.2 < 3 && w.getLsbD (30 - x.2) then 2 ^ x.1.width else 0)

/-- A register as a translation knows it: its kind and its Frazin number. -/
abbrev FReg := RegKind × Nat

/-- The operations of a bundle with their slot words; `is` are its native ones. -/
def FBundle.paired (b : FBundle) (is : List Instr) : List (Word × Instr) := ((b.ops.getD []).map (·.2)).zip is

/-- The registers that an operation names. -/
def namesOf (w : Word) (i : Instr) : List FReg :=
  (((extendedFields w i).filter fun f => f.1.reads || f.1.writes).map fun f => (f.1.kind, f.2)) ++ extRegs i

/-- The formats in which an image writes registers that would be spilled; none when one is written in two, or by an operation whose
result tag its opcode does not fix, which makes the image unusable (R436). The odd half of a pair has the pair's; a scalar has none. -/
def spillTags (ops : List (Word × Instr)) : Option (List (FReg × Tag)) :=
  ops.foldlM (fun tags x =>
    ((extendedFields x.1 x.2).filter fun f => f.1.writes && decide (firstSpill f.1.kind ≤ f.2)).foldlM (fun tags f =>
      let add (tags : List (FReg × Tag)) (r : FReg) (t : Tag) : Option (List (FReg × Tag)) :=
        match tags.find? fun y => y.1 == r with
        | some y => if y.2 == t then some tags else none
        | none => some (tags ++ [(r, t)])
      match f.1.kind, resultTag x.2 with
      | .a, _ => add tags (.a, f.2) 0
      | k, some t => (add tags (k, f.2) t).bind fun tags =>
          if k == .v && tagPair t then add tags (k, f.2 + 1) t else some tags
      | _, none => none) tags) []

/-- What the translator does with the registers of one image: whether it spills at all, the formats of those it spills, their places in
the home view, the bytes that those take, and a predicate and a scalar register that the image does not use. -/
structure SpillPlan where
  on : Bool
  tags : List (FReg × Tag)
  places : List (FReg × Nat)
  size : Nat
  scratch : Option (BitVec 4)
  spare : Option Nat

def SpillPlan.tagOf (x : SpillPlan) (r : FReg) : Tag := ((x.tags.find? fun y => y.1 == r).map (·.2)).getD 0
def SpillPlan.placeOf (x : SpillPlan) (r : FReg) : Option Nat := (x.places.find? fun y => y.1 == r).map (·.2)
def SpillPlan.spills (x : SpillPlan) (r : FReg) : Bool := x.on && decide (firstSpill r.1 ≤ r.2)

/-- Places one after another, and where they end. -/
def layOut : Nat → List (FReg × Nat) → List (FReg × Nat) × Nat
  | at_, [] => ([], at_)
  | at_, (r, n) :: rest =>
    let (xs, e) := layOut (at_ + n) rest
    ((r, at_) :: xs, e)

/-- The places of the registers that an image writes: pairs, vectors, tiles, scalars, so that each lies at a multiple of its row
(R436; the order is log 20's). -/
def placesOf (tags : List (FReg × Tag)) : List (FReg × Nat) × Nat :=
  let pair (x : FReg × Tag) : Bool := x.1.1 == .v && tagPair x.2
  let of (f : FReg × Tag → Bool) (n : Nat) : List (FReg × Nat) := (tags.filter f).map fun x => (x.1, n)
  layOut 0 (of (fun x => pair x && x.1.2 % 2 = 0) 512 ++ of (fun x => x.1.1 == .v && !pair x) 256 ++ of (fun x => x.1.1 == .t) 4096 ++
    of (fun x => x.1.1 == .a) 8)

/-- The predicates that an operation reads or writes. -/
def predsOf (i : Instr) : List Nat :=
  (match opHdr i with
    | some h => if h.slot == .C || h.slot == .D then [] else [h.guard.toNat]
    | none => []) ++
  match i with
  | .pand _ d a b | .por _ d a b | .pxor _ d a b | .pandn _ d a b => [d.toNat, a.toNat, b.toNat]
  | .cmp _ _ k _ _ | .cmpi _ _ k _ _ => [2 * k.toNat, 2 * k.toNat + 1]
  | _ => []

/-- The plan for an image: it spills when the image names a register that the device does not have (R436). -/
def planSpills (i : KImage) (ops : List (Word × Instr)) : Option SpillPlan :=
  let names := ops.flatMap fun x => namesOf x.1 x.2
  let on := !i.fits || names.any fun r => decide (deviceRegs r.1 ≤ r.2)
  let used := ops.flatMap fun x => predsOf x.2
  let scratch := ((List.range 16).find? fun n => decide (2 ≤ n) && !used.contains n && !i.pmask.getLsbD n).map (BitVec.ofNat 4)
  let pairs := ops.flatMap fun x => ((extendedFields x.1 x.2).filter fun f => f.1.kind == .a && (f.1.regs x.2).length = 2).map fun f => f.2 + 1
  let spare := (List.range 28).find? fun n => decide (2 ≤ n) && !names.contains (.a, n) && !pairs.contains n && !i.amask.getLsbD n
  if on then (spillTags ops).map fun tags => ⟨true, tags, (placesOf tags).1, (placesOf tags).2, scratch, spare⟩
  else some ⟨false, [], [], 0, scratch, spare⟩

/-- What a bundle does with a register that it names; an operation that some cluster or lane may not perform reads what it writes. -/
structure Named where
  reg : FReg
  two : Bool
  reads : Bool
  writes : Bool

def SpillPlan.named (x : SpillPlan) (w : Word) (i : Instr) : List Named :=
  let partly := (opHdr i).any fun h => h.guard != 0
  let pair (r : FReg) : Bool := r.1 == .v && tagPair (x.tagOf r) && r.2 % 2 = 0
  (((extendedFields w i).filter fun f => f.1.reads || f.1.writes).map fun f =>
    ⟨(f.1.kind, f.2), pair (f.1.kind, f.2) || f.1.kind == .a && (f.1.regs i).length = 2, f.1.reads || partly, f.1.writes⟩) ++
    (extRegs i).map fun r => ⟨r, pair r, true, false⟩

/-- A spilled register, or pair, of a bundle with its staging register; `kept` when it is both read and written. -/
structure Spilled where
  reg : FReg
  two : Bool
  reload : Bool
  store : Bool
  staging : Nat
  deriving DecidableEq, Repr

def Spilled.kept (x : Spilled) : Bool := x.reload && x.store
def Spilled.size (x : Spilled) : Nat := if x.two then 2 else 1

/-- Whether a staging register is one of a spilled register's. -/
def Spilled.takes (x : Spilled) (n : Nat) : Bool := x.staging ≤ n && n < x.staging + x.size

/-- Staging registers out of free ones, the lowest that suit each: a pair takes two from an even one on. -/
def allot : List Nat → List Spilled → Option (List Spilled)
  | _, [] => some []
  | free, x :: xs =>
    match free.find? fun n => !x.two || n % 2 = 0 && free.contains (n + 1) with
    | none => none
    | some n =>
      let y := { x with staging := n }
      (allot (free.filter fun m => !y.takes m) xs).map (y :: ·)

/-- The staging registers of one kind, pairs first: what a bundle only writes may share one with what it only reads, since reads come
first (R434). None when there are too few. -/
def stageKind (k : RegKind) (xs : List Spilled) : Option (List Spilled) :=
  let of (f : Spilled → Bool) : List Spilled :=
    let ys := xs.filter fun x => x.reg.1 == k && f x
    ys.filter Spilled.two ++ ys.filter fun x => !x.two
  let all := (List.range (deviceRegs k)).filter fun n => decide (firstSpill k ≤ n)
  (allot all (of Spilled.kept)).bind fun kept =>
    let free := all.filter fun n => !kept.any fun x => x.takes n
    (allot free (of fun x => x.reload && !x.store)).bind fun ins =>
      (allot free (of fun x => !x.reload)).map fun outs => kept ++ ins ++ outs

/-- The spilled registers of a bundle with their staging registers. -/
def SpillPlan.stage (x : SpillPlan) (ns : List Named) : Option (List Spilled) :=
  let base (n : Named) : FReg :=
    if n.reg.2 % 2 = 1 && ns.any (fun m => m.two && m.reg == (n.reg.1, n.reg.2 - 1)) then (n.reg.1, n.reg.2 - 1) else n.reg
  let items := (((ns.filter fun n => x.spills n.reg).map base).eraseDups).map fun r =>
    let mine := ns.filter fun n => base n == r
    (⟨r, mine.any Named.two, mine.any Named.reads, mine.any Named.writes, 0⟩ : Spilled)
  (stageKind .a items).bind fun a => (stageKind .v items).bind fun v => (stageKind .t items).map fun t => a ++ v ++ t

/-- The number that a register has in the native bundle. -/
def stagedNumber (xs : List Spilled) (r : FReg) : Nat :=
  match xs.find? fun x => x.reg.1 == r.1 && (x.reg.2 = r.2 || x.two && x.reg.2 + 1 = r.2) with
  | some x => x.staging + (r.2 - x.reg.2)
  | none => r.2

/-- Vector rows of the home view from h63, by CLD and CST; the near form where the row allows it (R164, R437). -/
def homeLoad (tag : Tag) (v : BitVec 5) (row : Nat) : Instr :=
  if row < 16 then .cld ⟨.G, 0, none⟩ (tag.extractLsb' 0 4) v 63 (BitVec.ofNat 5 row)
  else .cldU ⟨.G, 0, none⟩ (tag.extractLsb' 0 4) v 63 ⟨false, BitVec.ofNat 11 row, 0, 0⟩
def homeStore (v : BitVec 5) (row : Nat) : Instr :=
  if row < 16 then .cst ⟨.G, 0, none⟩ v 63 (BitVec.ofNat 5 row) else .cstU ⟨.G, 0, none⟩ v 63 ⟨false, BitVec.ofNat 11 row, 0, 0⟩

/-- The bundles that reload a spilled register, from its place or, where the image never writes it, with its value at kernel start; and
those that store it (R436). -/
def Spilled.loads (x : Spilled) (p : SpillPlan) : List FStep :=
  let t := p.tagOf x.reg
  match x.reg.1, p.placeOf x.reg with
  | .v, some off => [.ops [homeLoad t (BitVec.ofNat 5 x.staging) (off / rowBytes t)]]
  | .v, none => [.move (.resetV (BitVec.ofNat 5 x.staging))]
  | .t, some off => [.move (.loadT (BitVec.ofNat 3 x.staging) t off)]
  | .t, none => [.move (.resetT (BitVec.ofNat 3 x.staging))]
  | .a, _ => (List.range x.size).map fun j => .move (match p.placeOf (.a, x.reg.2 + j) with
      | some off => .loadA (BitVec.ofNat 5 (x.staging + j)) off
      | none => .resetA (BitVec.ofNat 5 (x.staging + j)))
def Spilled.saves (x : Spilled) (p : SpillPlan) : List FStep :=
  let t := p.tagOf x.reg
  match x.reg.1 with
  | .v => ((p.placeOf x.reg).map fun off => FStep.ops [homeStore (BitVec.ofNat 5 x.staging) (off / rowBytes t)]).toList
  | .t => ((p.placeOf x.reg).map fun off => FStep.move (.storeT (BitVec.ofNat 3 x.staging) off)).toList
  | .a => (List.range x.size).filterMap fun j => (p.placeOf (.a, x.reg.2 + j)).map fun off =>
      .move (.storeA (BitVec.ofNat 5 (x.staging + j)) off)

/-- A slot word with the native numbers of its registers and its extension bits clear; a number that its field cannot hold is left to
`widen`. -/
def renameWord (number : FReg → Nat) (w : Word) (i : Instr) : Word :=
  (extendedFields w i).foldl (fun w f =>
    let n := number (f.1.kind, f.2)
    if (f.1.reads || f.1.writes) && decide (n < 2 ^ f.1.width) then
      (w &&& ~~~(BitVec.ofNat 32 ((2 ^ f.1.width - 1) * 2 ^ f.1.low))) ||| BitVec.ofNat 32 (n * 2 ^ f.1.low)
    else w) (w &&& 0x8FFFFFFF)

/-- The scalar register in the four-bit field of a near form or of the switch. -/
def narrowReg (w : Word) (i : Instr) : Option Nat :=
  ((extendedFields w i).find? fun f => f.1.kind == .a && f.1.width = 4 && f.1.reads).map (·.2)
def isSwitch : Instr → Bool
  | .swsend _ _ _ _ _ | .swrecv _ _ _ _ _ => true
  | _ => false

/-- An operation whose extension word has the native numbers; a near form whose row register its field cannot name becomes its X form,
which reads the same bytes (R164, R166). -/
def widen (number : FReg → Nat) (w : Word) (old new : Instr) : Instr :=
  let e (n : Nat) : Ext := ⟨true, BitVec.ofNat 11 n, 0, 0⟩
  match new, (narrowReg w old).map fun n => number (.a, n) with
  | .cld h f v hnd row, some n => if 16 ≤ n then .cldU h f v hnd (e n) else .cld h f v hnd row
  | .cst h v hnd row, some n => if 16 ≤ n then .cstU h v hnd (e n) else .cst h v hnd row
  | i, _ => mapExt (fun e =>
      { e with row := if e.mode then BitVec.ofNat 11 (number (.a, (e.row.extractLsb' 0 5).toNat)) else e.row
               reg2 := if usesReg2 i then BitVec.ofNat 5 (number (.v, e.reg2.toNat)) else e.reg2 }) i

/-- A Frazin bundle in native bundles, and the scalar registers and predicates that those write beside its own. -/
structure Group where
  steps : List FStep
  amask : DWord
  pmask : BitVec 16
  deriving Repr

/-- Whether an operation may move control elsewhere than to the next bundle. -/
def movesOn : Instr → Bool
  | .br _ _ | .loop _ _ _ _ _ | .loopi _ _ _ _ => true
  | _ => false

/-- Two scalar registers change places, in every cluster. -/
def swapScalars (x y : BitVec 5) : List FStep :=
  let xor (d a : BitVec 5) : FStep := .ops [.sXor ⟨.B, 0, none⟩ d d a]
  [xor x y, xor y x, xor x y]

/-- A slot A operation with another guard, and a loop with another register for its trips. -/
def reguard (g : BitVec 4) : Instr → Instr
  | .br h t => .br { h with guard := g } t
  | .loop h lvl a s len => .loop { h with guard := g } lvl a s len
  | .loopi h lvl trip len => .loopi { h with guard := g } lvl trip len
  | i => i
def retrip (a : BitVec 5) : Instr → Instr
  | .loop h lvl _ s len => .loop h lvl a s len
  | i => i
/-- The register that a loop takes its trips from. -/
def tripReg : Instr → Option Nat
  | .loop _ _ a _ _ => some a.toNat
  | _ => none

/-- A bundle for the device's registers (R436; log 20): reloads, the bundle itself, stores. A switch operation whose partner register its
field cannot name has that register change places with one of a2 to a15 that the bundle does not name. A BR or LOOP of a bundle after
which something is stored, or changes places again, follows that; its trips are then read, or reloaded, as they stand, or, where the bundle
itself writes their register, from a copy made before it; so is its guard. None where R436 gives the translator no form: too few staging
registers, no predicate or no scalar register that the image leaves alone. -/
def FBundle.group (b : FBundle) (p : SpillPlan) (is : List Instr) : Option Group :=
  let ops := b.paired is
  let partner := (ops.find? fun x => isSwitch x.2).bind fun x => (narrowReg x.1 x.2).filter fun n => decide (16 ≤ n)
  let saved := (ops.flatMap fun x => p.named x.1 x.2).any fun n => n.writes && p.spills n.reg
  let defer := is.any movesOn && (saved || partner.isSome)
  let later (i : Instr) : Bool := defer && movesOn i
  let ns := (ops.filter fun x => !later x.2).flatMap fun x => p.named x.1 x.2
  let trip : Option Nat := ops.findSome? fun x =>
    if later x.2 then (tripReg x.2).bind fun _ => ((extendedFields x.1 x.2).head?).map (·.2) else none
  let late := trip.any fun a => ns.any fun n => n.writes && n.reg == (.a, a)
  (p.stage ns).bind fun xs =>
    let left : Option Nat := if p.on then
      (List.range 32).find? fun n => decide (28 ≤ n) && !xs.any fun x => x.reg.1 == .a && x.takes n else none
    let keep : Option Nat := if late then p.spare.orElse fun _ => left else none
    let named := ns.map fun n => if n.reg.1 == .a then stagedNumber xs n.reg else 0
    let free := ((List.range 16).find? fun q => decide (2 ≤ q) && !named.contains q && keep != some q).getD 15
    let number (r : FReg) : Nat :=
      let n := stagedNumber xs r
      if r.1 == .a && partner.any (fun m => stagedNumber xs (.a, m) = n) then free else n
    let b' : FBundle := { b with slots := ((b.units.getD []).zip b.slots).map fun (x : Slot × Word) => match opOf x.1 x.2 with
      | some i => renameWord number x.2 i
      | none => x.2 }
    b'.native.bind fun js =>
      let main := (ops.zip js).map fun x => widen number x.1.1 x.1.2 x.2
      let mask (ns : List Nat) : DWord := ns.foldl (fun m n => m ||| (1 <<< n)) 0
      let swapped := partner.map fun m => stagedNumber xs (.a, m)
      let swap := (swapped.map fun m => swapScalars (BitVec.ofNat 5 m) (BitVec.ofNat 5 free)).getD []
      let before := (xs.filter Spilled.reload).flatMap (fun x => x.loads p) ++ swap
      let after := swap ++ (xs.filter Spilled.store).flatMap fun x => x.saves p
      let amask := mask (((swapped.map fun m => [m, free]).getD []) ++ keep.toList)
      if !defer then some ⟨before ++ [.ops main] ++ after, amask, 0⟩
      else
        let ctl := main.filter movesOn
        let rest := main.filter fun i => !movesOn i
        let guard := ((ctl.head?.bind opHdr).map SlotHdr.guard).getD 0
        let changed := guard != 0 && rest.any fun i => !(predsOf i).all fun n => (opHdr i).any fun h => n = h.guard.toNat
        if changed && p.scratch.isNone || late && keep.isNone then none
        else
          -- the trips from their place in the home view, into a staging register
          let reload (a n : Nat) : List FStep := (⟨(.a, a), false, true, false, n⟩ : Spilled).loads p
          let loaded (a : Nat) : Bool := xs.any fun x => x.reload && x.reg.1 == .a && (x.reg.2 = a || x.two && x.reg.2 + 1 = a)
          let copied : List FStep := (match trip, keep with
            | some a, some c => if p.spills (.a, a) && !loaded a then reload a c
                else [.ops [.sMov ⟨.B, 0, none⟩ (BitVec.ofNat 5 c) (BitVec.ofNat 5 (number (.a, a)))]]
            | _, _ => []) ++ (if changed then p.scratch.toList.map fun q => .ops [.pand ⟨.A, 0, none⟩ q guard guard] else [])
          let (trips, source) : List FStep × Option Nat := match trip, keep with
            | some _, some c => ([], some c)
            | some a, none => if p.spills (.a, a) then (reload a 28, some 28) else ([], some a)
            | none, _ => ([], none)
          let ctl := ctl.map fun i =>
            let i := (source.map fun n => retrip (BitVec.ofNat 5 n) i).getD i
            if changed then reguard (p.scratch.getD 0) i else i
          some ⟨before ++ copied ++ [.ops rest] ++ after ++ trips ++ [.ops ctl], amask,
            if changed then 1 <<< (p.scratch.getD 0).toNat else 0⟩

/-! ### Translation (R434, R435) -/

/-- Join operations of different slots into one native bundle. -/
def joinBundle : List Instr → BitVec 256
  | [] => 0
  | i :: is => (match slotCode i with
      | some c => soloBundle c
      | none => 0) ||| joinBundle is

/-- The level and the length of a loop body, for an operation that opens one. -/
def loopOf : Instr → Option (BitVec 3 × Nat)
  | .loop _ lvl _ _ len => some (lvl, len.toNat + 1)
  | .loopi _ lvl _ len => some (lvl, len.toNat + 1)
  | _ => none
def branchTarget : Instr → Option Nat
  | .br _ t => some t.toNat
  | _ => none

/-- A loop of an image: the bundle that opens it, its level, its last body bundle. -/
structure Nest where
  opens : Nat
  level : BitVec 3
  last : Nat
  deriving DecidableEq, Repr

def Group.instrs (g : Group) : List Instr := g.steps.flatMap FStep.instrs

def nests (gs : List Group) : List Nest :=
  gs.zipIdx.flatMap fun x => x.1.instrs.filterMap fun i => (loopOf i).map fun l => ⟨x.2, l.1, x.2 + l.2⟩

/-- The loops nest as R136 asks. A body that goes on past the image's end is no concern of the translator's (R435): its kernel faults there
(R45). -/
def nestsOk (ls : List Nest) : Bool :=
  ls.all fun x => ls.all fun y =>
    !(x.opens < y.opens && y.opens ≤ x.last) || (x.level != y.level && decide (y.last ≤ x.last))

/-- Native bundles with the empty ones before each. An operation that moves control stands in the last of a group. -/
abbrev Placed := List (Nat × FStep)

/-- The native bundles of a group with the empty ones before each, and what is still to come after it. -/
def placeAll (p : Pending) : List FStep → Placed × Pending
  | [] => ([], p)
  | x :: rest =>
    let w := p.wait x
    let (xs, p') := placeAll (p.after w x) rest
    ((w, x) :: xs, p')

def placedLength (x : Placed) : Nat := (x.map fun b => b.1 + 1).sum

/-- One pass: every group placed with what may come to it from elsewhere (`joins`), and what each sends elsewhere: over its branch, over
a loop without a trip, which also goes on to the first bundle of a loop around it that ends with it, and back to the first bundle of
every loop that it ends. -/
def pass (ls : List Nest) (joins : List (Nat × Pending)) : Nat → Pending → List Group → List Placed × List (Nat × Pending)
  | _, _, [] => ([], [])
  | i, p, g :: gs =>
    let here := (joins.filter fun x => x.1 = i).foldl (fun p x => p.join x.2) p
    let (xs, after) := placeAll here g.steps
    let jumps := (g.instrs.filterMap branchTarget).map fun t => (t, after)
    let skips := (ls.filter fun l => l.opens = i).flatMap fun l =>
      (l.last + 1, after) :: (ls.filter fun y => y.opens < i && y.last = l.last).map fun y => (y.opens + 1, after)
    let backs := (ls.filter fun l => l.last = i).map fun l => (l.opens + 1, after)
    let (rest, sent) := pass ls joins (i + 1) after gs
    (xs :: rest, jumps ++ skips ++ backs ++ sent)

/-- Passes until nothing more comes from elsewhere; `fuel` bounds them, since each raises some wait and none exceeds 127. -/
def settle (gs : List Group) (ls : List Nest) : Nat → List (Nat × Pending) → Option (List Placed)
  | 0, _ => none
  | fuel + 1, joins =>
    let (xs, sent) : List Placed × List (Nat × Pending) := pass ls joins 0 [] gs
    let at_ (js : List (Nat × Pending)) (i : Nat) : Pending := (js.filter fun x => x.1 = i).foldl (fun p x => p.join x.2) []
    if sent.all fun (x : Nat × Pending) => x.2.within (at_ joins x.1) then some xs
    else
      let marks : List Nat := ((joins ++ sent).map fun (x : Nat × Pending) => x.1).eraseDups
      settle gs ls fuel (marks.map fun i => (i, at_ (joins ++ sent) i))

/-- Targets and loop lengths in native bundles; none when one does not fit. -/
def retarget (xs : List Placed) (ls : List Nest) (i : Nat) (x : Instr) : Option Instr :=
  let start (k : Nat) : Nat := ((xs.take k).map placedLength).sum + (k - xs.length)
  let len : Option (BitVec 6) :=
    match ls.find? fun l => l.opens = i with
    | some l =>
      let n := start (l.last + 1) - start (i + 1)
      if n ≤ Config.loopBuf then some (BitVec.ofNat 6 (n - 1)) else none
    | none => none
  match x with
  | .br h t => if start t.toNat < 4096 then some (.br h (BitVec.ofNat 12 (start t.toNat))) else none
  | .loop h lvl a byShape _ => len.map (.loop h lvl a byShape)
  | .loopi h lvl trip _ => len.map (.loopi h lvl trip)
  | x => some x

/-- A native bundle with the move of a spilled register that it makes, if any. -/
abbrev FNative := BitVec 256 × Option SpillMove

/-- The native bundles of placed groups; none when a target or a length does not fit, or a bundle breaks R99. -/
def emit (xs : List Placed) (ls : List Nest) : Option (List FNative) :=
  let one (i : Nat) (b : Nat × FStep) : Option (List FNative) :=
    let wait := List.replicate b.1 ((0, none) : FNative)
    match b.2 with
    | .move m => some (wait ++ [(0, some m)])
    | .ops is => (is.mapM (retarget xs ls i)).bind fun is =>
      match decodeBundle (joinBundle is) with
      | .ok _ => some (wait ++ [(joinBundle is, none)])
      | .error _ => none
  (xs.zipIdx.mapM fun (x : Placed × Nat) => x.1.mapM (one x.2)).map fun ys => ys.flatten.flatten

/-- The native bundles of an image's groups. -/
def translateGroups (gs : List Group) : Option (List FNative) :=
  let ls := nests gs
  if !nestsOk ls then none
  else ((settle gs ls (128 * (gs.length + 1) * 256) []).bind fun xs => emit xs ls).bind fun out =>
    if out.length ≤ Config.kstore then some out else none

/-- An image with the native bundles of its groups. The staging registers of an image that spills, and what its groups write beside their
own registers, are in its footprint. -/
def translated (i : KImage) (p : SpillPlan) (gs : List Group) : Option KImage :=
  (translateGroups gs).map fun out =>
    let staging (x : DWord) : DWord := if p.on then x else 0
    { i with
      amask := zext (i.amask.extractLsb' 0 32) ||| staging 0xF0000000 ||| gs.foldl (fun m g => m ||| g.amask) 0
      vmask := zext (i.vmask.extractLsb' 0 32) ||| staging 0xF0000000
      tmask := (i.tmask &&& 0xFF) ||| (staging 0xC0).setWidth 16
      pmask := i.pmask ||| gs.foldl (fun m g => m ||| g.pmask) 0
      spill := max i.spill p.size
      bundles := out.map (·.1)
      moves := out.zipIdx.filterMap fun x => x.1.2.map fun m => (x.2, m) }

/-- A Frazin image's translation; none when it is unusable. What R436 leaves without a form is left open (log 20). -/
def translate (count : Nat) (bs : List Byte) (e : KEntry) : Option KImage :=
  let fs := readFrazin count bs
  if e.reserved || fs.any FBundle.namesSpill || !fs.all FBundle.extensionsOk then none
  else
    (fs.mapM FBundle.native).bind fun iss =>
      (planSpills e.image ((fs.zip iss).flatMap fun x => x.1.paired x.2)).bind fun p =>
        match (fs.zip iss).mapM fun x => x.1.group p x.2 with
        | some gs => translated e.image p gs
        | none => (Config.frazinSpill count bs).map fun x =>
            { e.image with amask := zext (e.image.amask.extractLsb' 0 32) ||| 0xF0000000
                           vmask := zext (e.image.vmask.extractLsb' 0 32) ||| 0xF0000000
                           tmask := (e.image.tmask &&& 0xFF) ||| 0xC0, spill := x.1, bundles := x.2, moves := [] }

/-- A kernel's image from its entry and the bytes its bundles start at; none when it is unusable. -/
def loadKernel (frazin : Bool) (e : KEntry) (bs : List Byte) : Option KImage :=
  if !(1 ≤ e.count && e.count ≤ Config.kstore) then none
  else if frazin then translate e.count bs e
  else if e.usable then some { e.image with spill := 0, bundles := readBundles e.count bs } else none

end Sys2Proof.Machine
end

