-- ==== Sys2Proof/Machine/Translate.lean ====
section
/-! DEFINITION. Translation: ranges, pages, permissions, TLBs, and copies on the first write to a snapped unit (R268 to R276). -/

namespace Sys2Proof.Machine

/-- What an access needs (R272); `code` is a debugger's access to a code word, which needs X and copies first (R379). -/
inductive Access where
  | load | store | fetch | code
  deriving DecidableEq, Repr

/-- Where a mapping comes from: a range, with the overlay entry of the sub-page when the range is snapped, or a leaf entry of
the page table, its level, its word and whether it is the first of a contiguous group. -/
inductive MapKind where
  | range (overlay : Option Nat)
  | page (level : Nat) (entry : Nat) (word : DWord) (group : Bool)
  deriving DecidableEq, Repr

/-- The mapping of one unit of virtual addresses: bounds, physical address of its first byte, permissions, S and gen. -/
structure Mapping where
  base : Nat
  size : Nat
  frame : Nat
  r : Bool
  w : Bool
  x : Bool
  snapped : Bool
  gen : Byte
  kind : MapKind
  deriving DecidableEq, Repr

def Mapping.pa (m : Mapping) (va : Nat) : Nat := (m.frame + (va - m.base)) % Config.addrSpace

def Mapping.allows (m : Mapping) : Access → Bool
  | .load => m.r
  | .store => m.w
  | .fetch => m.x
  | .code => m.x

/-- Whether a physical address names something (R268). -/
def namesMemory (pa : Nat) : Bool := pa < Config.deviceMemEnd || isHost pa

/-! ### Ranges (R269) -/

/-- One range-table entry: its four words. -/
structure RangeEntry where
  w0 : DWord
  w1 : DWord
  w2 : DWord
  w3 : DWord
  deriving DecidableEq, Repr

def State.read64 (s : State) (pa : Nat) : DWord := BitVec.ofNat 64 (s.readPhys pa 8)

def RangeEntry.valid (e : RangeEntry) : Bool := e.w0.getLsbD 63
def RangeEntry.snapped (e : RangeEntry) : Bool := e.w0.getLsbD 59
def RangeEntry.base (e : RangeEntry) : Nat := (e.w0.extractLsb' 0 48).toNat
def RangeEntry.limit (e : RangeEntry) : Nat := (e.w1.extractLsb' 0 48).toNat
def RangeEntry.offset (e : RangeEntry) : Nat := (e.w2.extractLsb' 0 48).toNat
def RangeEntry.overlay (e : RangeEntry) : Nat := (e.w3.extractLsb' 0 48).toNat

/-- Whether a range keeps its layout (R269). -/
def RangeEntry.ok (e : RangeEntry) : Bool :=
  e.w0.extractLsb' 56 3 == 0 && e.w1.extractLsb' 48 16 == 0 && e.w2.extractLsb' 48 16 == 0 &&
    e.w3.extractLsb' 48 16 == 0 && e.base % 65536 == 0 && e.limit % 65536 == 0 && decide (e.base < e.limit) &&
    e.offset % 65536 == 0 && (!e.snapped || e.overlay % 8 == 0)

/-- The range table of a partition: physical address, 0 for none. -/
def PartSt.rangeTable (p : PartSt) : Nat := 2048 * (p.rtbase.extractLsb' 11 37).toNat

def State.rangeEntry (s : State) (p : PartId) (i : Nat) : RangeEntry :=
  let a := (s.part p).rangeTable + 32 * i
  ⟨s.read64 a, s.read64 (a + 8), s.read64 (a + 16), s.read64 (a + 24)⟩

/-- What stands for an entry that is poisoned: one that keeps no layout. -/
def RangeEntry.bad : RangeEntry := ⟨-1, -1, -1, -1⟩

/-- The lowest-indexed valid range, from entry `i` on, that holds an address (R270). A poisoned entry before it may be the one, so that
nothing translates (log 65). -/
def State.findRange (s : State) (p : PartId) (va : Nat) : Nat → Nat → Option RangeEntry
  | 0, _ => none
  | n + 1, i =>
    let e := s.rangeEntry p i
    if s.poisoned ((s.part p).rangeTable + 32 * i) 32 then some .bad
    else if e.valid && e.base ≤ va && va < e.limit then some e else s.findRange p va n (i + 1)

/-- The mapping that a range gives; a snapped range maps each 64 KiB sub-page by its overlay entry, none when that is poisoned (log 65). -/
def State.rangeMap (s : State) (va : Nat) (e : RangeEntry) : Option Mapping :=
  let perm (b : Nat) : Bool := e.w0.getLsbD b
  let gen := e.w0.extractLsb' 48 8
  if !e.ok then none
  else if !e.snapped then
    some ⟨e.base, e.limit - e.base, (e.base + e.offset) % Config.addrSpace, perm 62, perm 61, perm 60, false, gen, .range none⟩
  else
    let base := va - va % 65536
    let slot := e.overlay + 8 * ((base - e.base) / 65536)
    let o := s.read64 slot
    if s.poisoned slot 8 || o &&& ~~~(0x0000FFFFFFFF0003 : DWord) != 0 then none
    else if o.getLsbD 0 then
      some ⟨base, 65536, 65536 * (o.extractLsb' 16 32).toNat, perm 62, perm 61, perm 60, o.getLsbD 1, gen, .range (some slot)⟩
    else
      some ⟨base, 65536, (base + e.offset) % Config.addrSpace, perm 62, perm 61, perm 60, true, gen, .range (some slot)⟩

/-! ### Pages (R271) -/

/-- Bytes that an entry of a level maps. -/
def levelSize : Nat → Nat
  | 1 => 2 ^ 39
  | 2 => 2 ^ 30
  | 3 => 2 ^ 21
  | _ => 2 ^ 12
/-- Entries of a contiguous group at a level. -/
def groupOf (level : Nat) : Nat := if level = 2 then 64 else 16

def pteAddr (w : DWord) : Nat := 4096 * (w.extractLsb' 12 36).toNat

/-- A leaf's mapping, its layout checked. -/
def leafMap (va level entry : Nat) (w : DWord) (group : Bool) : Option Mapping :=
  let size := if group then groupOf level * levelSize level else levelSize level
  if w.extractLsb' 48 8 != 0 || w.extractLsb' 8 4 != 0 || w.getLsbD 1 || pteAddr w % size != 0 then none
  else
    some ⟨va - va % size, size, pteAddr w, w.getLsbD 4, w.getLsbD 5, w.getLsbD 6, w.getLsbD 7, w.extractLsb' 56 8,
      .page level entry w group⟩

/-- The walk from a table of a level down; `n` levels remain. A poisoned entry maps nothing (log 65). -/
def State.walk (s : State) (va : Nat) : Nat → Nat → Nat → Option Mapping
  | 0, _, _ => none
  | n + 1, level, table =>
    let i := (va / levelSize level) % 512
    let entry := table + 8 * i
    let w := s.read64 entry
    let reserved := w.extractLsb' 48 8 != 0 || w.extractLsb' 8 4 != 0 || w.getLsbD 1
    if s.poisoned entry 8 || !w.getLsbD 0 || reserved then none
    else if w.getLsbD 2 then
      if level = 1 then none
      else if w.getLsbD 3 then
        if level = 3 then none
        else
          let head := table + 8 * (i - i % groupOf level)
          let h := s.read64 head
          if !s.poisoned head 8 && h.getLsbD 0 && h.getLsbD 2 && h.getLsbD 3 then leafMap va level head h true else none
      else leafMap va level entry w false
    else if w.getLsbD 3 || w.extractLsb' 4 3 != 0 then none
    else s.walk va n (level + 1) (pteAddr w)

/-- The mapping of a virtual address in a partition: ranges first, then pages (R270); none is TRANSLATE. -/
def State.lookup (s : State) (p : PartId) (va : Nat) : Option Mapping :=
  let m := match (if (s.part p).rangeTable = 0 then none else s.findRange p va 64 0) with
    | some e => s.rangeMap va e
    | none => s.walk va 4 1 (4096 * ((s.part p).ptroot.extractLsb' 12 36).toNat)
  match m with
  | some m => if namesMemory (m.pa va) then some m else none
  | none => none

/-! ### Copies on write (R275, R276) -/

/-- Physical address of the frame pool descriptor. -/
def PartSt.poolAddr (p : PartSt) : Nat := 64 * (p.pool.extractLsb' 6 42).toNat

/-- Whether a block of a span of addresses is live. -/
def State.liveIn (s : State) (pa n : Nat) : Bool := s.tags.any fun b => pa / 64 ≤ b && b < (pa + n + 63) / 64

/-- Take a 4 KiB or a 64 KiB frame from the pool; none when its stack is empty, when its descriptor or a block of the frame is live, which
takes no write (R235; log 93), or when its descriptor or the stack's entry is poisoned (log 65). -/
def State.takeFrame (s : State) (p : PartId) (big : Bool) : Option (State × Nat) :=
  let d := (s.part p).poolAddr + (if big then 16 else 0)
  let n := s.readPhys (d + 8) 4
  if n = 0 || s.tagged d || s.poisoned d 16 then none
  else
    let at_ := s.readPhys d 8 % Config.addrSpace + 8 * (n - 1)
    let frame := s.readPhys at_ 8 % Config.addrSpace
    if s.poisoned at_ 8 || s.liveIn frame (if big then 65536 else 4096) then none else some (s.putPhys (d + 8) 4 (n - 1), frame)

/-- Append a record to the copy log; a live block in the ring takes none (R235). -/
def State.logCopy (s : State) (p : PartId) (va old new : Nat) (gen : Byte) (size : Nat) : State :=
  let d := (s.part p).poolAddr
  let n := 2 ^ field (s.readPhys (d + 40) 8) 0 5
  let written := s.readPhys (d + 48) 8
  let at_ := s.readPhys (d + 32) 8 % Config.addrSpace + 32 * (written % n)
  (s.writeOwn at_ (bytesLE 8 va ++ bytesLE 8 old ++ bytesLE 8 new ++ bytesLE 8 (gen.toNat + 256 * size))).putPhys
    (d + 48) 8 ((written + 1) % 2 ^ 64)

/-- Drop the TLB entries of a partition that touch a span of virtual addresses, wherever they are, and the translations that commands
in service made at their issue (R270, R273). -/
def State.dropTlb (s : State) (p : PartId) (base size : Nat) : State :=
  let keep (e : TlbEntry) : Bool := e.part != p || e.limit ≤ base || base + size ≤ e.base
  s.eachCore fun _ k =>
    { k with tlb := k.tlb.filter keep, engTlb := k.engTlb.filter keep
             table := k.table.map fun x => { x with windows := x.windows.filter keep } }

/-- The monitored words of a partition that a copy moved name their new frame. -/
def State.moveMonitors (s : State) (p : PartId) (va size old new : Nat) : State :=
  let f (m : Monitor) : Monitor :=
    if va ≤ m.va.toNat && m.va.toNat < va + size then { m with pa := m.pa - old + new } else m
  let pm := s.pmaps
  s.eachCore fun c k =>
    if mapHas pm p c then { k with monitors := k.monitors.map f, sweep := k.sweep.map f } else k

/-- An entry with a new frame, S clear and the other fields kept. -/
def entryMoved (w : DWord) (frame : Nat) : DWord :=
  (w &&& ~~~(0x0000FFFFFFFFF080 : DWord)) ||| BitVec.ofNat 64 (frame % Config.addrSpace)

/-- Entries from `a` up, each a snapped leaf with the fields of `w`: entry `i` has frame `frame + step * (i / per)`. -/
def leafTable (w : DWord) (frame step per : Nat) (group : Bool) (n : Nat) : List Byte :=
  (List.range n).flatMap fun i =>
    let e := ((w &&& ~~~(0x0000FFFFFFFFF008 : DWord)) ||| (if group then 8 else 0)) |||
      BitVec.ofNat 64 ((frame + step * (i / per)) % Config.addrSpace)
    bytesLE 8 e.toNat

/-- Copy a unit into a new frame, write the entry that names it, and log the copy. -/
def State.copyUnit (s : State) (p : PartId) (va size old new entry : Nat) (w : DWord) (gen : Byte) : State :=
  let s := (s.copyFrame old new size).writeOwn entry (bytesLE 8 w.toNat)
  (((s.dropTlb p va size).moveMonitors p va size old new).logCopy p va old new gen size)

/-- A non-leaf entry that names a table. -/
def tableEntry (frame : Nat) : DWord := BitVec.ofNat 64 (frame % Config.addrSpace) ||| 1

/-- Split a snapped 2 MiB leaf into 32 contiguous groups, then copy the group that holds the write. -/
def State.splitLarge (s : State) (p : PartId) (va entry : Nat) (w : DWord) : Option State :=
  match s.takeFrame p false with
  | none => none
  | some (s, table) =>
    match s.takeFrame p true with
    | none => none
    | some (s, new) =>
      let frame := pteAddr w
      let s := s.writePhys table (leafTable w frame 65536 16 true 512)
      let s := s.writeOwn entry (bytesLE 8 (tableEntry table).toNat)
      let g := (va % 2 ^ 21) / 65536
      let old := frame + 65536 * g
      let head := table + 8 * (16 * g)
      some ((s.dropTlb p (va - va % 2 ^ 21) (2 ^ 21)).copyUnit p (va - va % 65536) 65536 old new head
        (entryMoved (s.read64 head) new) (w.extractLsb' 56 8))

/-- Split a snapped 1 GiB leaf into 512 snapped 2 MiB leaves, and go on as above. -/
def State.splitHuge (s : State) (p : PartId) (va entry : Nat) (w : DWord) : Option State :=
  match s.takeFrame p false with
  | none => none
  | some (s, table) =>
    let s := s.writePhys table (leafTable w (pteAddr w) (2 ^ 21) 1 false 512)
    let s := s.writeOwn entry (bytesLE 8 (tableEntry table).toNat)
    let e := table + 8 * ((va / 2 ^ 21) % 512)
    (s.dropTlb p (va - va % 2 ^ 30) (2 ^ 30)).splitLarge p va e (s.read64 e)

/-- Whether a block is live whose table entries a copy would write. -/
def State.entryLive (s : State) : MapKind → Bool
  | .range none => false
  | .range (some slot) => s.tagged slot
  | .page level entry _ group => s.liveIn entry (if level = 2 && group then 512 else 8)

/-- The first write to a snapped unit copies it; none when the pool is empty (POOL), or when a block that the copy must write is live
(R235; log 93), with nothing changed. -/
def State.copyOnWrite (s : State) (p : PartId) (va : Nat) (m : Mapping) : Option State :=
  if s.entryLive m.kind then none else
  match m.kind with
  | .range none => some s
  | .range (some slot) =>
    match s.takeFrame p true with
    | none => none
    | some (s, new) =>
      some (s.copyUnit p m.base 65536 m.frame new slot (BitVec.ofNat 64 (new % Config.addrSpace) ||| 1) m.gen)
  | .page level entry w group =>
    if level = 4 then
      match s.takeFrame p group with
      | none => none
      | some (s, new) => some (s.copyUnit p m.base m.size m.frame new entry (entryMoved w new) m.gen)
    else if level = 3 then s.splitLarge p va entry w
    else if group then
      let s' := (s.writePhys entry (leafTable w (pteAddr w) (2 ^ 30) 1 false 64)).dropTlb p m.base m.size
      let e := entry + 8 * ((va / 2 ^ 30) % 64)
      s'.splitHuge p va e (s'.read64 e)
    else s.splitHuge p va entry w

/-! ### Resolving an address -/

/-- Where an address of a partition lies, for an access that its mapping allows; nothing is copied. -/
def State.placeIn (s : State) (p : PartId) (va : Nat) (acc : Access) : Except Byte Nat :=
  match s.lookup p va with
  | none => .error cTranslate
  | some m => if m.allows acc then .ok (m.pa va) else .error cProtect

/-- A partition's access: the physical address, and the device after a copy that the access made first. -/
def State.resolveIn (s : State) (p : PartId) (va : Nat) (acc : Access) : Except Byte (Nat × State) :=
  match s.lookup p va with
  | none => .error cTranslate
  | some m =>
    if !m.allows acc then .error cProtect
    else if m.snapped && (acc == .store || acc == .code) then
      match s.copyOnWrite p va m with
      | none => .error cPool
      | some s' =>
        match s'.lookup p va with
        | none => .error cTranslate
        | some m' => .ok (m'.pa va, s')
    else .ok (m.pa va, s)

/-- A TLB entry that serves an access; one without the permission is passed by, so that the tables decide. -/
def TlbEntry.serves (p : PartId) (va : Nat) (acc : Access) (e : TlbEntry) : Bool :=
  e.part == p && e.lo ≤ va && va < e.hi && (match acc with
    | .load => e.r
    | .store => e.w
    | .fetch => e.x
    | .code => false)

/-- The access of a core: by an entry of its TLB, old or new (R273), or else by the tables. -/
def State.resolve (s : State) (c : CoreId) (engine : Bool) (va : Nat) (acc : Access) : Except Byte (Nat × State) :=
  let k := s.core c
  match s.partOf c with
  | none => .error cTranslate
  | some p =>
    match (if engine then k.engTlb else k.tlb).find? (TlbEntry.serves p va acc) with
    | some e => .ok ((va + e.offset) % Config.addrSpace, s)
    | none => s.resolveIn p va acc

/-- The one translation of a footprint whose lowest and highest bytes fall in one range that is not snapped (R270). -/
def State.window (s : State) (p : PartId) (lo hi : Int) : Option TlbEntry :=
  if lo < 0 || hi < lo || (Config.addrSpace : Int) ≤ hi || (s.part p).rangeTable = 0 then none
  else
    match s.findRange p lo.toNat 64 0, s.findRange p hi.toNat 64 0 with
    | some a, some b =>
      if a == b && a.ok && !a.snapped then
        some ⟨p, a.base, a.limit, lo.toNat, hi.toNat + 1, a.offset, a.w0.getLsbD 62, a.w0.getLsbD 61, a.w0.getLsbD 60⟩
      else none
    | _, _ => none

/-- The access of a command in service: by a translation made at its issue, or else as any engine's (R270). -/
def State.resolveFor (s : State) (c : CoreId) (x : Cmd) (va : Nat) (acc : Access) : Except Byte (Nat × State) :=
  match (s.partOf c).bind fun p => x.windows.find? fun e => e.serves p va acc && namesMemory ((va + e.offset) % Config.addrSpace) with
  | some e => .ok ((va + e.offset) % Config.addrSpace, s)
  | none => s.resolve c true va acc

/-- A TLB takes the mapping of an address; a snapped one is held without W, so that a write goes to the tables. -/
def State.tlbFill (s : State) (c : CoreId) (engine : Bool) (va : Nat) : State :=
  match (s.partOf c).bind fun p => (s.lookup p va).map fun m => (p, m) with
  | none => s
  | some (p, m) =>
    let sub := va - va % 65536
    let e : TlbEntry := ⟨p, m.base, m.base + m.size, max m.base sub, min (m.base + m.size) (sub + 65536),
      (m.frame + Config.addrSpace - m.base % Config.addrSpace) % Config.addrSpace, m.r, m.w && !m.snapped, m.x⟩
    let put (n : Nat) (es : List TlbEntry) : List TlbEntry := (e :: es).take n
    s.modCore c fun k => if engine then { k with engTlb := put 512 k.engTlb } else { k with tlb := put 64 k.tlb }

def State.tlbDrop (s : State) (c : CoreId) (engine : Bool) (n : Nat) : State :=
  s.modCore c fun k => if engine then { k with engTlb := k.engTlb.eraseIdx n } else { k with tlb := k.tlb.eraseIdx n }

/-! ### Accesses of a control core (R105, R116, R117) -/

/-- A refused access: its cause and the address that csr.tval reports. -/
structure Refused where
  cause : Byte
  val : DWord
  deriving DecidableEq, Repr

/-- ADDRESS, then ALIGN. -/
def checkAddr (va : DWord) (n : Nat) : Except Refused Unit :=
  if va.extractLsb' 48 16 != 0 then .error ⟨cAddress, va⟩
  else if va.toNat % n ≠ 0 then .error ⟨cAlign, va⟩
  else .ok ()

/-- An address of the active core translated after its checks; `host` says whether host memory is allowed (R417). -/
def State.reach (s : State) (va : DWord) (n : Nat) (acc : Access) (host : Bool := false) : Except Refused (Nat × State) :=
  match checkAddr va n with
  | .error e => .error e
  | .ok _ =>
    match s.resolve s.active false va.toNat acc with
    | .error c => .error ⟨c, va⟩
    | .ok (pa, s') => if isHost pa && !host then .error ⟨cProtect, va⟩ else .ok (pa, s')

/-- Read `n` bytes for the active core in device memory: POISON last. -/
def State.loadDev (s : State) (va : DWord) (n : Nat) : Except Refused (Nat × Nat) :=
  match s.reach va n .load with
  | .error e => .error e
  | .ok (pa, _) => if s.poisoned pa n then .error ⟨cPoison, va⟩ else .ok (s.readPhys pa n, pa)

/-- The place of a store of the active core: TAG last, with the copy of a snapped unit made (R105, R117, R275). -/
def State.storeAt (s : State) (va : DWord) (n : Nat) : Except Refused (Nat × State) :=
  match s.reach va n .store true with
  | .error e => .error e
  | .ok (pa, s') => if s'.tagged pa then .error ⟨cTag, va⟩ else .ok (pa, s')

/-- A store of the active core; host memory takes it over the Host Link (R417). -/
def State.store (s : State) (va : DWord) (n x : Nat) : Except Refused State :=
  match s.storeAt va n with
  | .error e => .error e
  | .ok (pa, s') => .ok (s'.putPhys pa n x)

/-- A refused access traps at pc. -/
def State.refuse (s : State) (e : Refused) : State := s.faultNow e.cause e.val

/-! ### Records of a partition, read and written without a trap (log 11) -/

/-- The physical address behind a record's virtual address, when it reads. -/
def State.recordPa (s : State) (p : PartId) (va : Nat) : Option Nat := (s.lookup p va).map fun m => m.pa va

/-- Bytes read at an address with a held write over them. -/
def HeldWrite.over (va : Nat) (bs : List Byte) : HeldWrite → List Byte
  | .bytes a xs _ => bs.zipIdx.map fun x => if a ≤ va + x.2 && va + x.2 < a + xs.length then nth xs (va + x.2 - a) 0 else x.1
  | .count _ _ => bs

/-- A number of a partition's memory as the device itself reads it: its own writes that wait for a frame are seen (log 79). -/
def State.readIn (s : State) (p : PartId) (va n : Nat) : Nat :=
  match (s.part p).held with
  | [] => (match s.recordPa p va with
    | some pa => s.readPhys pa n
    | none => 0)
  | hs => ofBytesLE (hs.foldl (HeldWrite.over va) (match s.recordPa p va with
    | some pa => s.bytesPhys pa n
    | none => List.replicate n 0))

def State.hold (s : State) (p : PartId) (h : HeldWrite) : State := s.modPart p fun x => { x with held := x.held ++ [h] }

/-- The device's own write inside one block of a partition's memory; dropped when the address does not translate, or when the block is
live (R235) and not a record of the device's (R256). One whose copy finds no frame is held until csr.pool is written, and behind it every
later one (R276). -/
def State.writeAs (s : State) (live : Bool) (p : PartId) (va : Nat) (bs : List Byte) : State :=
  if !(s.part p).held.isEmpty then s.hold p (.bytes va bs live)
  else
    match s.resolveIn p va .store with
    | .ok (pa, s') => if s'.tagged pa && !live then s else s'.writePhys pa bs
    | .error e => if e == cPool then s.hold p (.bytes va bs live) else s

def State.writeIn (s : State) (p : PartId) (va : Nat) (bs : List Byte) : State := s.writeAs false p va bs
/-- The device writes a live record of its own (R256). -/
def State.putLive (s : State) (p : PartId) (va n x : Nat) : State := s.writeAs true p va (bytesLE n x)

def State.putIn (s : State) (p : PartId) (va n x : Nat) : State := s.writeIn p va (bytesLE n x)
def State.read64In (s : State) (p : PartId) (va : Nat) : DWord := BitVec.ofNat 64 (s.readIn p va 8)

end Sys2Proof.Machine
end

