-- ==== Sys2Proof/Machine/LoadStore.lean ====
section
/-! DEFINITION. Loads, stores, acquiring loads, releasing stores, atomics and fences of the control core
(R116 to R120, R267, R298, R299). Every access performs within its step (log 5). -/

namespace Sys2Proof.Machine

/-- Bytes of a size code. -/
def sizeBytes (n : BitVec 2) : Nat := 2 ^ n.toNat

/-- The address of an M-form access (R116). -/
def memAddr (base : DWord) (off : BitVec 12) (n : Nat) : DWord := base + sext off * BitVec.ofNat 64 n

/-- A load of host memory asks the host and holds the core until HOST_MEMORY_REPLY (R417). -/
def State.holdHost (s : State) (pa n : Nat) (d : BitVec 5) (va : DWord) : State :=
  let s := s.modCur fun k => { k with hostHold := some ⟨pa, n, d, va⟩ }
  { s with host := { s.host with out := s.host.out ++ [.readRequest (.control s.active) (pa - Config.hostMemBase) n] } }

/-- A load of `n` bytes into gd (R116, R299). -/
def State.loadTo (s : State) (d : BitVec 5) (va : DWord) (n : Nat) : State :=
  match s.reach va n .load true with
  | .error e => s.refuse e
  | .ok (pa, _) =>
    if isHost pa then s.holdHost pa n d va
    else if s.poisoned pa n then s.faultNow cPoison va
    else s.result d (BitVec.ofNat 64 (s.readPhys pa n))

/-- A store's core may still fetch what its words held before, until a FENCE of the store's class (R121). -/
def State.noteStale (s : State) (cls : BitVec 4) (pa n : Nat) : State :=
  let words := (List.range ((n + 3) / 4)).map fun i => 4 * (pa / 4 + i)
  let old : List StaleWord := words.map fun a => ⟨a, cls, BitVec.ofNat 32 (s.readPhys a 4)⟩
  if isHost pa then s else s.modCur fun k => { k with stale := (k.stale.filter fun w => !old.contains w) ++ old }

/-- What a core's fetch may still miss after a FENCE: a word's contents before its last covered store are past (R121, R298). -/
def afterFence (mask : BitVec 16) : List StaleWord → List StaleWord
  | [] => []
  | w :: ws => if (w :: ws).any fun v => v.pa = w.pa && mask.getLsbD v.cls.toNat then afterFence mask ws else w :: afterFence mask ws

/-- A store of the low `n` bytes of a register (R117, R299). -/
def State.storeFrom (s : State) (cls : BitVec 4) (va : DWord) (n : Nat) (x : DWord) : State :=
  match s.storeAt va n with
  | .error e => s.refuse e
  | .ok (pa, s') => ((s'.noteStale cls pa n).putPhys pa n x.toNat).advance

def execLdB (d a : BitVec 5) (_cls : BitVec 4) (off : BitVec 12) (s : State) : Out := .next (s.loadTo d (memAddr (s.g a) off 1) 1)
def execLdH (d a : BitVec 5) (_cls : BitVec 4) (off : BitVec 12) (s : State) : Out := .next (s.loadTo d (memAddr (s.g a) off 2) 2)
def execLdW (d a : BitVec 5) (_cls : BitVec 4) (off : BitVec 12) (s : State) : Out := .next (s.loadTo d (memAddr (s.g a) off 4) 4)
def execLdD (d a : BitVec 5) (_cls : BitVec 4) (off : BitVec 12) (s : State) : Out := .next (s.loadTo d (memAddr (s.g a) off 8) 8)
def execStB (src a : BitVec 5) (cls : BitVec 4) (off : BitVec 12) (s : State) : Out :=
  .next (s.storeFrom cls (memAddr (s.g a) off 1) 1 (s.g src))
def execStH (src a : BitVec 5) (cls : BitVec 4) (off : BitVec 12) (s : State) : Out :=
  .next (s.storeFrom cls (memAddr (s.g a) off 2) 2 (s.g src))
def execStW (src a : BitVec 5) (cls : BitVec 4) (off : BitVec 12) (s : State) : Out :=
  .next (s.storeFrom cls (memAddr (s.g a) off 4) 4 (s.g src))
def execStD (src a : BitVec 5) (cls : BitVec 4) (off : BitVec 12) (s : State) : Out :=
  .next (s.storeFrom cls (memAddr (s.g a) off 8) 8 (s.g src))

def execLdAcq (size : BitVec 2) (_cls : BitVec 4) (_scope : BitVec 2) (d a : BitVec 5) (s : State) : Out :=
  .next (s.loadTo d (s.g a) (sizeBytes size))
def execStRel (size : BitVec 2) (cls : BitVec 4) (_scope : BitVec 2) (a b : BitVec 5) (s : State) : Out :=
  .next (s.storeFrom cls (s.g a) (sizeBytes size) (s.g b))

/-- FENCE completes at once: every earlier access has performed (R298, log 5). The core's fetch then sees its stores of the classes
that the mask covers (R121). -/
def execFence (_scope : BitVec 2) (mask : BitVec 16) (s : State) : Out :=
  .next ((s.modCur fun k => { k with stale := afterFence mask k.stale }).advance)

/-- The new value of an AMO over `8 n` bits (R267); none when a cas finds its word unequal. -/
def amoValue (op : BitVec 3) (n old : Nat) (x c : DWord) : Option Nat :=
  let w := 8 * n
  let y := x.toNat % 2 ^ w
  let signed (v : Nat) : Int := toSigned w v
  match op with
  | 0#3 => some ((old + y) % 2 ^ w)
  | 1#3 => some (if signed y < signed old then y else old)
  | 2#3 => some (if signed old < signed y then y else old)
  | 3#3 => some (old ||| y)
  | 4#3 => some (old &&& y)
  | 5#3 => some (old ^^^ y)
  | 6#3 => some y
  | _ => if old = c.toNat % 2 ^ w then some y else none

/-- An AMO of `n` bytes: ADDRESS, ALIGN, translation, TAG, POISON, then one indivisible step (R267). It is translated as a store, so that a
snapped unit is copied even where CAS then writes nothing: DESIGN CHOICE, log 89. -/
def State.amo (s : State) (op : BitVec 3) (cls : BitVec 4) (n : Nat) (d a b : BitVec 5) : State :=
  let va := s.g a
  match s.reach va n .store with
  | .error e => s.refuse e
  | .ok (pa, s') =>
    if s'.tagged pa then s.faultNow cTag va
    else if s'.poisoned pa n then s.faultNow cPoison va
    else
      let old := s'.readPhys pa n
      let s' := match amoValue op n old (s.g b) (s.g d) with
        | some v => (s'.noteStale cls pa n).putPhys pa n v
        | none => s'
      s'.result d (BitVec.ofNat 64 old)

def execAmoW (op : BitVec 3) (sfx : SyncSfx) (d a b : BitVec 5) (s : State) : Out := .next (s.amo op sfx.cls 4 d a b)
def execAmoD (op : BitVec 3) (sfx : SyncSfx) (d a b : BitVec 5) (s : State) : Out := .next (s.amo op sfx.cls 8 d a b)

end Sys2Proof.Machine
end

