-- ==== Sys2Proof/Machine/Task.lean ====
section
/-! DEFINITION. Tasks: continuation records, suspending, waking, picking up, shares and the completion tree
(R34 to R37, R203 to R206, R242 to R244, R256, R257, R301). -/

namespace Sys2Proof.Machine

/-! ### Records (R34) -/

/-- Word `i` of a record. -/
def State.recWord (s : State) (p : PartId) (r : Addr) (i : Nat) : DWord := s.read64In p (r.toNat + 8 * i)
def State.setRecWord (s : State) (p : PartId) (r : Addr) (i : Nat) (x : DWord) : State := s.putIn p (r.toNat + 8 * i) 8 x.toNat

def stReady : BitVec 4 := 1
def stRunning : BitVec 4 := 2
def stWaiting : BitVec 4 := 3
def stParked : BitVec 4 := 4
def stMergeFaulted : BitVec 4 := 5
def stExited : BitVec 4 := 6
def stPoisoned : BitVec 4 := 7

def recState (w0 : DWord) : BitVec 4 := w0.extractLsb' 48 4
def withState (w0 : DWord) (st : BitVec 4) : DWord := w0.extractLsb' 52 12 ++ st ++ w0.extractLsb' 0 48
def flagCis : Nat := 56
def flagView : Nat := 57
def flagUie : Nat := 58
def flagChild : Nat := 59
/-- A word with one bit put. -/
def putBit (w : DWord) (n : Nat) (on : Bool) : DWord := if on then w ||| (1 <<< n) else w &&& ~~~((1 : DWord) <<< n)

def State.taskState (s : State) (p : PartId) (r : Addr) : BitVec 4 := recState (s.recWord p r 0)
def State.setTaskState (s : State) (p : PartId) (r : Addr) (st : BitVec 4) : State :=
  s.setRecWord p r 0 (withState (s.recWord p r 0) st)
def State.setRecFlag (s : State) (p : PartId) (r : Addr) (n : Nat) (on : Bool) : State :=
  s.setRecWord p r 0 (putBit (s.recWord p r 0) n on)

/-- Wait kind and target (R36). -/
def waitWord (kind : BitVec 4) (target : Addr) : DWord := kind ++ (0 : BitVec 12) ++ target
def waitKind (w3 : DWord) : BitVec 4 := w3.extractLsb' 60 4
def waitTarget (w3 : DWord) : Addr := w3.extractLsb' 0 48

/-- The frame of a task (R213). -/
def State.frame (s : State) (p : PartId) (r : Addr) : Nat := ((s.recWord p r 2).extractLsb' 0 48).toNat
/-- Word `i` of a task's task area (R213). -/
def State.areaWord (s : State) (p : PartId) (r : Addr) (i : Nat) : DWord := s.read64In p (s.frame p r + 256 + 8 * i)
def State.setAreaWord (s : State) (p : PartId) (r : Addr) (i : Nat) (x : DWord) : State :=
  s.putIn p (s.frame p r + 256 + 8 * i) 8 x.toNat

/-! ### Teams -/

/-- Whether a team is the one named by its launch and index. -/
def Team.is (p : PartId) (l : Addr) (i : BitVec 32) (t : Team) : Bool := t.part == p && t.launch == l && t.index == i

def State.modTeam (s : State) (sel : Team → Bool) (f : Team → Team) : State := { s with teams := replaceFirst sel f s.teams }

/-- The team bound to a core. -/
def State.teamOf (s : State) (c : CoreId) : Option Team :=
  match (s.core c).bound with
  | some b => s.teams.find? (Team.is b.part b.launch b.team)
  | none => none

/-- The team that holds a task. -/
def Team.holds (p : PartId) (r : Addr) (t : Team) : Bool := t.part == p && t.tasks.any fun i => i.task == r
def State.teamWith (s : State) (p : PartId) (r : Addr) : Option Team := s.teams.find? (Team.holds p r)
def State.taskInfo (s : State) (p : PartId) (r : Addr) : Option TaskInfo :=
  (s.teamWith p r).bind fun t => t.tasks.find? fun i => i.task == r
def State.modTask (s : State) (p : PartId) (r : Addr) (f : TaskInfo → TaskInfo) : State :=
  s.modTeam (Team.holds p r) fun t => { t with tasks := replaceFirst (fun i => i.task == r) f t.tasks }
/-- Append a record to its team's ready queue. -/
def State.enqueue (s : State) (p : PartId) (r : Addr) : State :=
  s.modTeam (Team.holds p r) fun t => { t with ready := t.ready ++ [r] }

/-! ### Views as a task's frame holds them (R214) -/

/-- A view entry. -/
structure ViewEntry where
  target : DWord
  geom : DWord
  working : DWord
  ctl : DWord
  deriving DecidableEq, Repr

def ViewEntry.valid (v : ViewEntry) : Bool := v.ctl.getLsbD 4
def ViewEntry.op (v : ViewEntry) : BitVec 4 := v.ctl.extractLsb' 0 4
def ViewEntry.slot (v : ViewEntry) : BitVec 24 := v.ctl.extractLsb' 8 24
def ViewEntry.blocks (v : ViewEntry) : Nat := (v.geom.extractLsb' 0 16).toNat
def ViewEntry.pool (v : ViewEntry) : BitVec 6 := v.geom.extractLsb' 40 6
def inCistern (tile : DWord) : Bool := tile.getLsbD 63
def tileHandle (tile : DWord) : BitVec 6 := tile.extractLsb' 56 6
def tileOffset (tile : DWord) : Nat := (tile.extractLsb' 0 32).toNat
def tileAddr (tile : DWord) : Nat := (tile.extractLsb' 0 48).toNat

def State.viewEntry (s : State) (p : PartId) (r : Addr) (i : Nat) : ViewEntry :=
  let a := s.frame p r + 288 + 32 * i
  ⟨s.read64In p a, s.read64In p (a + 8), s.read64In p (a + 16), s.read64In p (a + 24)⟩
def State.setViewEntry (s : State) (p : PartId) (r : Addr) (i : Nat) (v : ViewEntry) : State :=
  s.writeIn p (s.frame p r + 288 + 32 * i)
    (bytesLE 8 v.target.toNat ++ bytesLE 8 v.geom.toNat ++ bytesLE 8 v.working.toNat ++ bytesLE 8 v.ctl.toNat)
/-- The valid views of a task, in index order. -/
def State.views (s : State) (p : PartId) (r : Addr) : List (Nat × ViewEntry) :=
  ((List.range 7).map fun i => (i, s.viewEntry p r i)).filter fun x => x.2.valid

/-! ### Suspending (R37, R205) -/

/-- Whether a task holds a live handle of a core. -/
def CoreSt.holdsHandle (k : CoreSt) (r : Addr) : Bool := k.handles.list.any fun a => a.any fun x => x.holder == r
def CoreSt.hasCommand (k : CoreSt) (r : Addr) : Bool := k.table.any fun c => c.task == r

/-- Whether a suspending task is bound to its core (R205, R411). A child that has dropped its last Cistern view is not: DESIGN CHOICE, log 86,
for R205's list clears the affinity and its last sentence keeps it for the child's life. -/
def State.isBound (s : State) (p : PartId) (c : CoreId) (r : Addr) : Bool :=
  let k := s.core c
  k.holdsHandle r || k.hasCommand r || (k.txns.any fun t => t.task == r) || ((s.views p r).any fun v => inCistern v.2.target)

/-- The register save area of a core's own set (R37). -/
def CoreSt.saveBytes (k : CoreSt) : List Byte := (List.range 32).flatMap fun n =>
  bytesLE 8 (if n = 0 then 0 else (k.g.read (BitVec.ofNat 5 n)).toNat)

/-- Write 64-byte blocks from an address up. -/
def State.writeBlocks (s : State) (p : PartId) (va : Nat) : Nat → List Byte → State
  | 0, _ => s
  | n + 1, bs => (s.writeIn p va (bs.take 64)).writeBlocks p (va + 64) n (bs.drop 64)

/-- The running task of a core saves its registers and writes its record, word 0 last (R37); `pc` is where it goes on and
`dest` the register that what it waits for goes to. A core in system mode runs its handler on (log 18). -/
def State.suspend (s : State) (c : CoreId) (st kind : BitVec 4) (target : Addr) (thr : DWord) (pc : DWord) (dest : BitVec 5) : State :=
  let k := s.core c
  match k.running, s.partOf c with
  | some r, some p =>
    let s := s.writeBlocks p (s.frame p r) 4 k.saveBytes
    let s := s.setRecWord p r 3 (waitWord kind target)
    let s := s.setRecWord p r 4 thr
    let w7 := s.recWord p r 7
    let aff : BitVec 8 := if s.isBound p c r then (1 : BitVec 1) ++ c else 0
    let s := s.setRecWord p r 7 (w7.extractLsb' 56 8 ++ aff ++ w7.extractLsb' 0 48)
    let w0 := s.recWord p r 0
    let w0 := putBit (putBit w0 flagCis (k.holdsHandle r)) flagUie k.uie
    let s := s.setRecWord p r 0 (w0.extractLsb' 52 12 ++ st ++ pc.extractLsb' 0 48)
    let s := s.modCore c fun k => { k with running := none, uie := false }
    let s := s.modTask p r fun i => { i with dest := dest }
    if st == stReady then s.enqueue p r else s
  | _, _ => s

/-- Suspend the active core's task at the instruction after this one. -/
def State.suspendNext (s : State) (st kind : BitVec 4) (target : Addr) (thr : DWord) (dest : BitVec 5) : State :=
  (s.suspend s.active st kind target thr (s.cur.pc + 4) dest).advance

/-- A waiting task becomes ready (R35, R37). A value goes into bytes 32 to 39 of its record and to its register. -/
def State.wake (s : State) (p : PartId) (r : Addr) (value : Option DWord) : State :=
  let dest := match s.taskInfo p r with
    | some i => i.dest
    | none => 0
  let s := match value with
    | some v =>
      let s := s.setRecWord p r 4 v
      if dest == 0 then s else s.putIn p (s.frame p r + 8 * dest.toNat) 8 v.toNat
    | none => s
  let s := (s.setRecWord p r 3 0).setTaskState p r stReady
  (s.modTask p r fun i => { i with dest := 0 }).enqueue p r

/-- Records sorted by address, the order in which they enter a queue in one cc (R249). -/
def byAddress (rs : List Addr) : List Addr := (rs.foldl (fun xs r => insertNat r.toNat xs) []).map (BitVec.ofNat 48)

def State.wakeAll (s : State) (p : PartId) (rs : List Addr) (value : Option DWord) : State :=
  (byAddress rs).foldl (fun s r => s.wake p r value) s

/-- Whether a task waits with a kind on a target. -/
def State.waits (s : State) (p : PartId) (r : Addr) (kind : BitVec 4) : Bool :=
  s.taskState p r == stWaiting && waitKind (s.recWord p r 3) == kind

/-! ### Waiting on a word (R242 to R244, R334) -/

/-- The condition of a wait: 0 ne, 1 eq, 2 geu, 3 ge. -/
def meets (mode : BitVec 2) (x y : DWord) : Bool :=
  match mode with
  | 0#2 => x != y
  | 1#2 => x == y
  | 2#2 => !x.ult y
  | _ => !x.slt y

/-- Arm a monitor, or put the task on the sweep list, which telemetry counts (R243). -/
def State.arm (s : State) (c : CoreId) (m : Monitor) : State :=
  let k := s.core c
  if k.monitors.length < Config.monitors then s.setCore c { k with monitors := k.monitors ++ [m] }
  else
    let s := s.setCore c { k with sweep := k.sweep ++ [m] }
    s.telemetry (dieOf c) (some c) 2 [m.va, zext m.task, BitVec.ofNat 64 (k.sweep.length + 1)]

/-- Re-read one waited word: the device and whether its task became ready. A word that can no longer be read leaves the
task waiting (log 19). -/
def State.reread (s : State) (c : CoreId) (m : Monitor) : State × Bool :=
  match s.partOf c, s.resolve c false m.va.toNat .load with
  | some p, .ok (pa, _) =>
    if isHost pa || s.poisoned pa 8 then (s, false)
    else
      let x := s.read64 pa
      if meets m.mode x m.cmp then (s.wake p m.task (if m.counter then none else some x), true) else (s, false)
  | _, _ => (s, false)

/-- A core's monitor table, or its sweep list. -/
def CoreSt.waitList (k : CoreSt) (swept : Bool) : List Monitor := if swept then k.sweep else k.monitors
def CoreSt.modWaitList (k : CoreSt) (swept : Bool) (f : List Monitor → List Monitor) : CoreSt :=
  if swept then { k with sweep := f k.sweep } else { k with monitors := f k.monitors }

/-- Re-read word `n` of a list: it leaves the list when its condition holds; whether it did. What a task's wake writes, the other words
of the list see. -/
def State.rereadAt (s : State) (c : CoreId) (swept : Bool) (n : Nat) : State × Bool :=
  match ((s.core c).waitList swept)[n]? with
  | none => (s, false)
  | some m =>
    let s := s.modCore c fun k => k.modWaitList swept fun ms => ms.modify n fun m => { m with dirty := false }
    let (s, woken) := s.reread c m
    (if woken then s.modCore c fun k => k.modWaitList swept fun ms => ms.eraseIdx n else s, woken)

/-- Re-read the words of a list from place `i` on that a test selects, in order; `fuel` is at least their number. -/
def State.rereadFrom (s : State) (c : CoreId) (swept : Bool) (sel : State → Monitor → Bool) : Nat → Nat → State
  | 0, _ => s
  | fuel + 1, i =>
    match ((s.core c).waitList swept)[i]? with
    | none => s
    | some m =>
      if sel s m then
        let (s, woken) := s.rereadAt c swept i
        s.rereadFrom c swept sel fuel (if woken then i else i + 1)
      else s.rereadFrom c swept sel fuel (i + 1)

/-- Re-read the monitored and the swept words of a core that a test selects. -/
def State.rereadCore (s : State) (c : CoreId) (sel : State → Monitor → Bool) : State :=
  let s := s.rereadFrom c false sel (s.core c).monitors.length 0
  s.rereadFrom c true sel (s.core c).sweep.length 0

/-- MONITOR_REREAD: word `n` of a core's monitor table, after a write to its block. -/
def execMonitorReread (c : CoreId) (n : BitVec 6) (s : State) : Out :=
  match (s.core c).monitors[n.toNat]? with
  | some m => .next (if m.dirty then (s.rereadAt c false n.toNat).1 else s)
  | none => .next s

/-- SWEEP_REREAD: the words of a core's sweep list in the order of insertion. -/
def execSweepReread (c : CoreId) (s : State) : Out :=
  .next (s.rereadFrom c true (fun _ _ => true) (s.core c).sweep.length 0)

/-! ### Picking a task up (R37, R204) -/

/-- Whether a core serves tasks at all: not stopped, not halted for a swap, in a partition, its team running. -/
def State.serves (s : State) (c : CoreId) : Bool :=
  let k := s.core c
  k.halt.isNone && !k.swapHalted && (s.partOf c).isSome && (match s.teamOf c with
    | some t => t.running && !t.halted
    | none => false)

/-- Eligible for a core: affinity not valid, or naming that core (R204). -/
def State.eligible (s : State) (p : PartId) (c : CoreId) (r : Addr) : Bool :=
  let w7 := s.recWord p r 7
  !w7.getLsbD 55 || w7.extractLsb' 48 7 == c

/-- Whether some of `n` bytes of a partition's memory are poisoned. -/
def State.poisonedIn (s : State) (p : PartId) (va n : Nat) : Bool := (s.recordPa p va).any fun pa => s.poisoned pa n

/-- Whether a task's area or its view entries hold poison. -/
def State.areaBad (s : State) (p : PartId) (r : Addr) : Bool :=
  (List.range 4).any fun i => s.poisonedIn p (s.frame p r + 256 + 64 * i) 64

/-- Whether a record has a bit set that R34 lays down as zero or a state that R35 leaves reserved, or whether it, its save area or its task
area holds poison, which may not become values without a report (R382, log 65). -/
def State.recordBad (s : State) (p : PartId) (r : Addr) : Bool :=
  s.poisonedIn p r.toNat 64 || s.poisonedIn p (s.frame p r) 256 || s.areaBad p r ||
  (s.recWord p r 0).extractLsb' 60 4 != 0 || (s.recWord p r 0).getLsbD 51 || (s.recWord p r 0).extractLsb' 0 2 != 0 ||
    (s.recWord p r 5).extractLsb' 0 6 != 0 || (s.recWord p r 6).extractLsb' 0 6 != 0 || (s.recWord p r 2).extractLsb' 48 16 != 0 ||
    (s.recWord p r 3).extractLsb' 48 12 != 0 || (s.recWord p r 5).extractLsb' 48 16 != 0 ||
    (s.recWord p r 6).extractLsb' 48 16 != 0

/-- The registers that a save area holds. -/
def State.savedRegs (s : State) (p : PartId) (r : Addr) : Bank 5 DWord :=
  let f := s.frame p r
  Bank.ofFn fun n => if n == 0 then 0 else s.read64In p (f + 8 * n.toNat)

/-- The first record of a queue that a core may take. -/
def State.firstEligible (s : State) (p : PartId) (c : CoreId) (rs : List Addr) : Option Addr := rs.find? (s.eligible p c)

/-- The core runs a record: its registers, PC, work ID and UIE flag, and the widths where its launch is another than that of the task
before (R32). -/
def State.runTask (s : State) (p : PartId) (c : CoreId) (t : Team) (r : Addr) : State :=
  let w0 := s.recWord p r 0
  let s := s.setTaskState p r stRunning
  let regs := s.savedRegs p r
  let wid := s.recWord p r 1
  let widths : DWord := zext ((s.read64In p (t.launch.toNat + 16)).extractLsb' 0 36)
  s.modCore c fun k =>
    { k with pc := (w0.extractLsb' 0 48).setWidth 64, g := regs, running := some r, wid := wid
             widths := if k.widthsOf == some (t.part, t.launch) then k.widths else widths
             widthsOf := some (t.part, t.launch)
             uie := w0.getLsbD flagUie, inHandler := false }

/-- Whether a core is idle and may pick a task up. -/
def State.idles (s : State) (c : CoreId) : Bool :=
  s.serves c && (s.core c).running.isNone && !(s.core c).sys && (s.core c).pending.isEmpty

/-- Whether a core leaves a record to an idle core of its team with a lower number, which could take it as well (R204). -/
def State.yields (s : State) (p : PartId) (c : CoreId) (t : Team) (r : Addr) : Bool :=
  t.bound.any fun d => d.ult c && s.idles d && s.firstEligible p d t.ready == some r

/-- TASK_PICKUP: an idle core takes the first eligible record; a record that breaks its reserved bits raises RECORD, and one
that is not ready is passed by. -/
def execTaskPickup (c : CoreId) (s : State) : Out :=
  match s.partOf c, s.teamOf c with
  | some p, some t =>
    if s.idles c then
      match s.firstEligible p c t.ready with
      | none => .next s
      | some r =>
        if s.yields p c t r then .next s else
        let s := s.modTeam (Team.is t.part t.launch t.index) fun t => { t with ready := t.ready.erase r }
        if s.recordBad p r || s.poisonedIn p t.launch.toNat 64 then .next (s.modCore c fun k => k.pend (mkTrap cRecord (zext r) 0 r))
        else if s.taskState p r != stReady then .next s
        else .next (s.runTask p c t r)
    else .next s
  | _, _ => .next s

/-! ### Shares and the completion tree (R256, R257) -/

/-- Where the completion-tree record numbered `i` lies. -/
def State.treeRecord (s : State) (p : PartId) (i : Nat) : Nat := 4096 * ((s.part p).ctbase.extractLsb' 12 36).toNat + 64 * i

/-- Poison at an address of a partition that the device reads for itself is reported. -/
def State.reportIn (s : State) (p : PartId) (va n : Nat) : State :=
  match s.recordPa p va with
  | some pa => if s.poisoned pa n then s.reportPoison pa else s
  | none => s

/-- Add to a counter of the tree, by the device, in a live record (R235, R256); poison there is reported, and the add performs (log 65). -/
def State.treeAdd (s : State) (p : PartId) (va : Nat) (n : Int) : State :=
  (s.reportIn p va 8).putLive p va 8 (wrap 64 ((s.readIn p va 8 : Int) + n))

/-- The counter of a team position's share. -/
def State.shareCounter (s : State) (a : Admitted) (position : Nat) : Nat :=
  s.treeRecord a.part (nth a.positions (position / 8) 0) + 8 * (position % 8)

def State.admitted (s : State) (p : PartId) (l : Addr) : Option Admitted :=
  s.launches.find? fun a => a.part == p && a.launch == l

/-- An add to a completion counter that is not made is counted in telemetry (R256, R390). -/
def State.addRefused (s : State) (va : Nat) (l : Addr) : State := s.telemetry 0 none 10 [0, zext l, BitVec.ofNat 64 va, 5]

/-- Add 1 to the completion counter at an address (R256); one whose copy finds no frame is held (R276). -/
def State.addCount (s : State) (p : PartId) (va : Nat) (l : Addr) : State :=
  if !(s.part p).held.isEmpty then s.hold p (.count va l)
  else
    match s.resolveIn p va .store with
    | .error e => if e == cPool then s.hold p (.count va l) else s.addRefused va l
    | .ok (pa, s') => if isHost pa || s'.tagged pa then s.addRefused va l else s'.putPhys pa 8 ((s'.readPhys pa 8 + 1) % 2 ^ 64)

/-- Add 1 to a launch's completion counter (R250, R256); a poisoned record gives no address for it (log 65). -/
def State.countLaunch (s : State) (p : PartId) (l : Addr) : State :=
  if s.poisonedIn p l.toNat 64 then s.addRefused 0 l
  else s.addCount p ((s.read64In p (l.toNat + 8)).extractLsb' 0 48).toNat l

/-- Write a launch record's status byte, its link kept. -/
def State.setLaunchStatus (s : State) (p : PartId) (l : Addr) (st : Nat) : State := s.putIn p (l.toNat + 56) 1 st

/-- The records of a launch leave the tree and the launch leaves the rotation (R256). -/
def State.freeTree (s : State) (a : Admitted) : State :=
  let all := a.header :: a.positions
  let s := all.foldl (fun s i => match s.recordPa a.part (s.treeRecord a.part i) with
    | some pa => s.setTag (blockOf pa) false
    | none => s) s
  let s := s.modPart a.part fun x => { x with ctUsed := x.ctUsed.filter fun i => !all.contains i }
  let gone (t : Team) : Bool := t.part == a.part && t.launch == a.launch
  let s := s.eachCore fun _ k => match k.bound with
    | some b => if b.part == a.part && b.launch == a.launch then { k with bound := none } else k
    | none => k
  -- a later launch of the same record is another launch (R32)
  let forget (k : CoreSt) : CoreSt := if k.widthsOf == some (a.part, a.launch) then { k with widthsOf := none } else k
  let s := s.eachCore fun _ k => forget k
  { s with launches := s.launches.filter fun x => !(x.part == a.part && x.launch == a.launch)
           teams := (s.teams.filter fun t => !gone t).map fun t => { t with saved := t.saved.map fun x => { x with core := forget x.core } } }

/-- The launch completes once its device counter is 0 (R256). -/
def State.maybeComplete (s : State) (a : Admitted) : State :=
  if s.readIn a.part (s.treeRecord a.part a.header) 8 = 0 then
    let irq := (s.read64In a.part (a.launch.toNat + 16)).getLsbD 40 && !s.poisonedIn a.part a.launch.toNat 64
    let s := s.setLaunchStatus a.part a.launch 3
    let s := s.countLaunch a.part a.launch
    let s := if irq then s.hostIrq a.part.toNat else s
    s.freeTree a
  else s

/-- A share reports: its die's counter, and through it the device counter, lose 1 (R256). -/
def State.reportShare (s : State) (a : Admitted) (d : DieId) : State :=
  let h := s.treeRecord a.part a.header
  let s := s.treeAdd a.part (h + 8 + 8 * d.toNat) (-1)
  if s.readIn a.part (h + 8 + 8 * d.toNat) 8 = 0 then (s.treeAdd a.part h (-1)).maybeComplete a else s

/-- A share gains or loses live tasks; at 0 it reports. -/
def State.shareAdd (s : State) (p : PartId) (t : Team) (pos : Nat) (n : Int) : State :=
  match s.admitted p t.launch with
  | none => s
  | some a =>
    let c := s.shareCounter a (t.index.toNat * t.size + pos)
    let s := s.treeAdd p c n
    if n < 0 && s.readIn p c 8 = 0 then s.reportShare a (nth t.dies pos 0) else s

/-- A task counts as ended in its share, once: at its EXIT, or at its poisoned merge (R46, R225). -/
def State.countTask (s : State) (p : PartId) (r : Addr) : State :=
  match s.teamWith p r, s.taskInfo p r with
  | some t, some i => if i.counted then s else (s.modTask p r fun i => { i with counted := true }).shareAdd p t i.pos (-1)
  | _, _ => s

/-- A finished task leaves its team's list. -/
def State.forgetTask (s : State) (p : PartId) (r : Addr) : State :=
  s.modTeam (Team.holds p r) fun t => { t with tasks := t.tasks.filter fun i => i.task != r }

end Sys2Proof.Machine
end

