-- ==== Sys2Proof/Machine/Sync.lean ====
section
/-! DEFINITION. Meetings, waits on words and counters, queues and launches (R227 to R247, R334). -/

namespace Sys2Proof.Machine

/-- A precise ILLEGAL or TASK trap of a control-core instruction reports its word (R357). -/
def wordOf (i : Instr) : DWord := zext ((encodeWord i).getD 0)
def State.illegal (s : State) (i : Instr) : State := s.faultNow cIllegal (wordOf i)
def State.taskFault (s : State) (i : Instr) : State := s.faultNow cTask (wordOf i)

/-- The sync status word (R227). -/
def statusWord (st : Byte) (t : BitVec 48) : DWord := st ++ (0 : Byte) ++ t

def sOk : Byte := 0
def sClosed : Byte := 1
def sFolded : Byte := 2
def sLagged : Byte := 3
def sAhead : Byte := 4
def sDup : Byte := 5
def sNotMember : Byte := 6
def sNotLive : Byte := 7
def sEmpty : Byte := 8
def sTerm : Byte := 9
def sFull : Byte := 10
def sQClosed : Byte := 11
def sBadRec : Byte := 12
def sLive : Byte := 13
def sBusy : Byte := 14

/-- Whether an order field acquires (R84). -/
def acquires (order : BitVec 2) : Bool := order.getLsbD 0

/-! ### Meetings (R228 to R235) -/

/-- A meeting record as it stands in memory. -/
structure Meeting where
  members : DWord
  arrived : DWord
  combine : DWord
  buffer : DWord
  ctl : DWord
  limits : BitVec 192
  deriving DecidableEq, Repr

def State.meeting (s : State) (pa : Nat) : Meeting :=
  ⟨s.read64 pa, s.read64 (pa + 8), s.read64 (pa + 16), s.read64 (pa + 24), s.read64 (pa + 32),
    BitVec.ofNat 192 (s.readPhys (pa + 40) 24)⟩
def Meeting.bytes (m : Meeting) : List Byte :=
  bytesLE 8 m.members.toNat ++ bytesLE 8 m.arrived.toNat ++ bytesLE 8 m.combine.toNat ++ bytesLE 8 m.buffer.toNat ++
    bytesLE 8 m.ctl.toNat ++ bytesLE 24 m.limits.toNat

def Meeting.tag (m : Meeting) : BitVec 16 := m.ctl.extractLsb' 0 16
def Meeting.quorum (m : Meeting) : Nat := (m.ctl.extractLsb' 16 7).toNat
def Meeting.count (m : Meeting) : Nat := (m.ctl.extractLsb' 23 7).toNat
def Meeting.shift (m : Meeting) : Nat := (m.ctl.extractLsb' 30 3).toNat
def Meeting.op (m : Meeting) : BitVec 4 := m.ctl.extractLsb' 33 4
def Meeting.limit (m : Meeting) (i : Nat) : Nat := (m.limits.extractLsb' (3 * i) 3).toNat
def Meeting.withTag (m : Meeting) (t : BitVec 16) : Meeting := { m with ctl := m.ctl.extractLsb' 16 48 ++ t }
def Meeting.withCount (m : Meeting) (n : Nat) : Meeting :=
  { m with ctl := m.ctl.extractLsb' 30 34 ++ BitVec.ofNat 7 n ++ m.ctl.extractLsb' 0 23 }
def Meeting.raise (m : Meeting) (bit : Nat) (on : Bool) : Meeting := if on then { m with ctl := m.ctl ||| (1 <<< bit) } else m

/-- Whether a record breaks R228. -/
def Meeting.bad (m : Meeting) : Bool :=
  m.buffer.extractLsb' 48 16 != 0 || m.buffer.extractLsb' 0 3 != 0 || (m.buffer == 0 && m.op != 6) ||
    m.ctl.getLsbD 39 || m.ctl.extractLsb' 43 21 != 0 || decide (6 < m.op.toNat) ||
    m.quorum == 0 || decide (popCount 64 m.members.toNat < m.quorum) || decide (m.quorum ≤ m.count)

/-- The identity of a meeting's operator (R229). -/
def meetIdentity (op : BitVec 4) : DWord :=
  match op with
  | 1#4 => 0x80000000
  | 2#4 => 0x8000000000000000
  | 3#4 => 0x7FFFFFFFFFFFFFFF
  | 5#4 => -1
  | _ => 0

/-- Combine a contribution of a lag into the combine word: the word, INX, SAT (R229). -/
def meetCombine (op : BitVec 4) (shift lag : Nat) (c x : DWord) : DWord × Bool × Bool :=
  match op with
  | 0#4 =>
    let e := ofAnc x
    let q := e.sum.toInt.tdiv (2 ^ (lag * shift))
    let inx := e.state == .finite && q * 2 ^ (lag * shift) != e.sum.toInt
    let (r, sat) := (ofAnc c).add { e with sum := BitVec.ofInt 64 q }
    (r.anc, inx, sat)
  | 1#4 =>
    let v := Fmt.fp32.read false (x.extractLsb' 0 32).toNat
    let w := Fmt.fp32.read false (Fmt.fp32.write 0 false (v.scale (-(lag * shift : Nat)))).1
    let sum := (Fv.add 0 (Fmt.fp32.read false (c.extractLsb' 0 32).toNat) w).1
    (BitVec.ofNat 64 (Fmt.fp32.write 0 false sum).1, false, false)
  | 2#4 => (maxS c x, false, false)
  | 3#4 => (minS c x, false, false)
  | 4#4 => (c ||| x, false, false)
  | 5#4 => (c &&& x, false, false)
  | _ => (c, false, false)

/-- A contribution folded into a record. -/
def Meeting.take (m : Meeting) (lag : Nat) (x : DWord) : Meeting :=
  let (c, inx, sat) := meetCombine m.op m.shift lag m.combine x
  ({ m with combine := c }.raise 40 inx).raise 41 sat

/-- The record of the next round; BERR says that the buffer was not written (R230). -/
def Meeting.next (m : Meeting) (ok : Bool) : Meeting :=
  (({ m with combine := meetIdentity m.op, arrived := 0 }.withCount 0).withTag (m.tag + 1)).raise 42 (!ok)

/-- The tasks that wait with a kind on a physical place, by partition. -/
def State.waitersAt (s : State) (kind : BitVec 4) (pa : Nat) (sel : DWord → Bool) : List (PartId × Addr) :=
  s.teams.flatMap fun t => (t.tasks.filter fun i =>
    s.waits t.part i.task kind && s.recordPa t.part (waitTarget (s.recWord t.part i.task 3)).toNat == some pa &&
      sel (s.recWord t.part i.task 4)).map fun i => (t.part, i.task)

/-- Wake tasks of several partitions, by record address (R249). -/
def State.wakeSet (s : State) (ws : List (PartId × Addr)) (value : Option DWord) : State :=
  allParts.foldl (fun s p => s.wakeAll p ((ws.filter fun w => w.1 == p).map (·.2)) value) s

/-- The published value is written for the partition whose task closes the round; whether it could be (R230). None when the copy of a
snapped buffer finds no frame: POOL, with nothing changed (R276). -/
def State.publish (s : State) (p : PartId) (m : Meeting) : Option (State × Bool) :=
  if m.op == 6 then some (s, true)
  else
    match s.resolveIn p m.buffer.toNat .store with
    | .error e => if e == cPool then none else some (s, false)
    | .ok (pa, s') =>
      some (if isHost pa || s'.tagged pa || s'.poisoned pa 8 then (s, false) else (s'.putPhys pa 8 m.combine.toNat, true))

/-- Close the open round: publish, start the next one, wake its waiters (R230). -/
def State.closeRound (s : State) (p : PartId) (pa : Nat) (m : Meeting) : Option State :=
  (s.publish p m).map fun (s, ok) =>
    let s := s.writePhys pa (m.next ok).bytes
    s.wakeSet (s.waitersAt 4 pa fun t => t == zext m.tag) none

/-- What an arrival comes to: its status and the record after it, before a closure (R230). -/
def Meeting.arrive (m : Meeting) (i : BitVec 6) (r : BitVec 16) (x : DWord) : Byte × Meeting :=
  if !m.members.getLsbD i.toNat then (sNotMember, m)
  else
    let d := (r - m.tag).toInt
    if 0 < d then (sAhead, m)
    else if d = 0 then
      if m.arrived.getLsbD i.toNat then (sDup, m)
      else
        let m' := { m with arrived := m.arrived ||| (1 <<< i.toNat) }.take 0 x
        (if m.count + 1 = m.quorum then sClosed else sOk, m'.withCount (m.count + 1))
    else if (-d).toNat ≤ m.limit i.toNat then (sFolded, m.take (-d).toNat x)
    else (sLagged, m)

/-- MEET on a live record at `pa` (R230, R231); `old` is the device before the copy of a snapped unit, which a refusal leaves
unmade (R227). A closing arrival whose buffer finds no frame takes POOL and performs no step of the closure (log 21). -/
def State.meetAt (s old : State) (p : PartId) (pa : Nat) (va : Addr) (acq : Bool) (d : BitVec 5) (x : DWord) (r : BitVec 16)
    (i : BitVec 6) : State :=
  let m := s.meeting pa
  if m.bad then old.result d (statusWord sBadRec (m.tag.setWidth 48))
  else
    let (st, m') := m.arrive i r x
    let w := statusWord st (m.tag.setWidth 48)
    if st == sClosed then (match s.closeRound p pa m' with
      | some t => t.result d w
      | none => old.refuse ⟨cPool, m.buffer⟩)
    else if st == sOk || st == sFolded then
      let s := s.writePhys pa m'.bytes
      if acq then (s.setG d w).suspendNext stWaiting 4 va (zext m.tag) d else s.result d w
    else old.result d w

def execMeet (sfx : SyncSfx) (d a b : BitVec 5) (s : State) : Out :=
  let ga := s.g a
  let va : Addr := ga.extractLsb' 6 42 ++ (0 : BitVec 6)
  let acq := acquires sfx.order
  if acq && s.cur.inHandler then .next (s.illegal (.meet sfx d a b))
  else
    match s.reach (zext va) 64 .store, s.partOf s.active with
    | .error e, _ => .next (s.refuse e)
    | .ok _, none => .next s
    | .ok (pa, s'), some p =>
      if s'.poisoned pa 64 then .next (s.faultNow cPoison (zext va))
      else if !s'.tagged pa then .next (s.result d (statusWord sNotLive 0))
      else .next (s'.meetAt s p pa va acq d (s.g b) (ga.extractLsb' 48 16) (ga.extractLsb' 0 6))

/-- MINIT: the template at gb becomes a live record at ga (R234). -/
def execMinit (d a b : BitVec 5) (s : State) : Out :=
  match checkAddr (s.g a) 64, s.loadDev (s.g b) 64, s.reach (s.g a) 64 .store with
  | .error e, _, _ => .next (s.refuse e)
  | .ok _, .error e, _ => .next (s.refuse e)
  | .ok _, .ok _, .error e => .next (s.refuse e)
  | .ok _, .ok (_, from_), .ok (pa, s') =>
    let m := s.meeting from_
    if s'.tagged pa then .next (s.result d (statusWord sLive 0))
    else if m.bad then .next (s.result d (statusWord sBadRec 0))
    else
      let m' := { m with arrived := 0, combine := meetIdentity m.op, ctl := m.ctl &&& 0x7FFFFFFFFF }.withCount 0
      .next (((s'.writePhys pa m'.bytes).setTag (blockOf pa) true).result d (statusWord sOk 0))

def execMread (d a : BitVec 5) (s : State) : Out :=
  match s.loadDev (s.g a) 64 with
  | .error e => .next (s.refuse e)
  | .ok (_, pa) => .next (s.result d (if s.tagged pa then s.read64 (pa + 32) else -1))

/-- Clear a block's hidden tag and wake a meeting's waiters with NOTLIVE (R231, R381). -/
def State.unlive (s : State) (pa : Nat) : State :=
  let s := s.setTag (blockOf pa) false
  let ws := s.waitersAt 4 (64 * blockOf pa) fun _ => true
  s.wakeSet ws (some (statusWord sNotLive 0))

def execMfree (d a : BitVec 5) (s : State) : Out :=
  match s.reach (s.g a) 64 .store with
  | .error e => .next (s.refuse e)
  | .ok (pa, s') =>
    if s'.tagged pa then .next ((s'.unlive pa).result d (statusWord sOk 0))
    else .next (s.result d (statusWord sNotLive 0))

/-! ### Waiting on words and counters -/

/-- The read that WAITGE and WAITADDR begin with; the task goes on with the word or suspends on a monitor. The monitor is armed after the
suspension's own writes, which do not count as writes to its block: DESIGN CHOICE, log 104, for R243 does not order the two. -/
def State.waitWord (s : State) (kind : BitVec 4) (counter : Bool) (mode : BitVec 2) (d : BitVec 5) (va cmp : DWord) : State :=
  match s.loadDev va 8 with
  | .error e => s.refuse e
  | .ok (x, pa) =>
    if meets mode (BitVec.ofNat 64 x) cmp then (if counter then s.advance else s.result d (BitVec.ofNat 64 x))
    else
      match s.cur.running with
      | none => s.advance
      | some r =>
        let a := va.extractLsb' 0 48
        let target : Addr := if counter then a else a.extractLsb' 2 46 ++ mode
        let c := s.active
        let s := s.suspendNext stWaiting kind target cmp d
        -- the suspension's own writes may have copied the word's unit (R275)
        let pa := match s.resolve c false va.toNat .load with
          | .ok (pa, _) => pa
          | .error _ => pa
        s.arm c ⟨r, va, pa, mode, cmp, counter, false⟩

def execWaitge (sfx : SyncSfx) (a b : BitVec 5) (s : State) : Out :=
  if s.cur.inHandler then .next (s.illegal (.waitge sfx a b)) else .next (s.waitWord 2 true 2 0 (s.g a) (s.g b))
def execWaitaddr (mode : BitVec 2) (sfx : SyncSfx) (d a b : BitVec 5) (s : State) : Out :=
  if s.cur.inHandler then .next (s.illegal (.waitaddr mode sfx d a b)) else .next (s.waitWord 3 false mode d (s.g a) (s.g b))

/-- The physical address of a waited word as its core finds it now. -/
def State.placeOf (s : State) (c : CoreId) (m : Monitor) : Nat :=
  match s.resolve c false m.va.toNat .load with
  | .ok (pa, _) => pa
  | .error _ => m.pa

/-- WAKE: every core re-reads its words in the block at ga (R244); an address that names nothing wakes nobody (R29). -/
def execWake (a : BitVec 5) (s : State) : Out :=
  let va : Addr := (s.g a).extractLsb' 6 42 ++ (0 : BitVec 6)
  match s.resolve s.active false va.toNat .load with
  | .error _ => .next s.advance
  | .ok (pa, _) =>
    if (s.g a).extractLsb' 48 16 != 0 then .next s.advance
    else .next ((allCores.foldl (fun s c => s.rereadCore c fun u m => blockOf (u.placeOf c m) == blockOf pa) s).advance)

/-! ### Queues (R239 to R241) -/

/-- A queue descriptor. -/
structure Queue where
  base : DWord
  ctl : DWord
  head : DWord
  tail : DWord
  first : DWord
  last : DWord
  deriving DecidableEq, Repr

def State.queueAt (s : State) (pa : Nat) : Queue :=
  ⟨s.read64 pa, s.read64 (pa + 8), s.read64 (pa + 16), s.read64 (pa + 24), s.read64 (pa + 32), s.read64 (pa + 40)⟩
def State.putQueue (s : State) (pa : Nat) (q : Queue) : State :=
  s.writePhys pa (bytesLE 8 q.base.toNat ++ bytesLE 8 q.ctl.toNat ++ bytesLE 8 q.head.toNat ++ bytesLE 8 q.tail.toNat ++
    bytesLE 8 q.first.toNat ++ bytesLE 8 q.last.toNat)
def Queue.capacity (q : Queue) : Nat := 2 ^ (q.ctl.extractLsb' 0 5).toNat
def Queue.closed (q : Queue) : Bool := q.ctl.getLsbD 8
def Queue.used (q : Queue) : Nat := (q.tail - q.head).toNat
def Queue.entry (q : Queue) (i : DWord) : DWord := q.base + 8 * BitVec.ofNat 64 (i.toNat % q.capacity)
/-- Whether a queue's descriptor breaks its layout or its counts (R239, R240). Bits 63:48 of its waiter words must be zero: DESIGN CHOICE,
log 87, for R239 gives those words no such bits and does not call them reserved. -/
def State.queueBad (s : State) (pa : Nat) (q : Queue) : Bool :=
  q.base.extractLsb' 48 16 != 0 || q.base.extractLsb' 0 3 != 0 || q.ctl.extractLsb' 9 55 != 0 ||
    q.ctl.extractLsb' 5 3 != 0 || decide (24 < (q.ctl.extractLsb' 0 5).toNat) || decide (q.capacity < q.used) ||
    q.first.extractLsb' 48 16 != 0 || q.last.extractLsb' 48 16 != 0 || s.read64 (pa + 48) != 0 || s.read64 (pa + 56) != 0

/-- The descriptor that a queue instruction names, with the checks of R105, R240 and R382. -/
def State.queueCheck (s : State) (va : DWord) : Except Refused (Nat × State) :=
  match s.reach va 64 .store with
  | .error e => .error e
  | .ok (pa, s') =>
    if s'.tagged pa then .error ⟨cTag, va⟩ else if s'.poisoned pa 64 then .error ⟨cPoison, va⟩ else .ok (pa, s')

/-- The first waiter leaves a queue's list, which is linked through bytes 32 to 39 of the records. -/
def State.popWaiter (s : State) (p : PartId) (q : Queue) : Queue :=
  let next := (s.recWord p (q.first.extractLsb' 0 48) 4).extractLsb' 0 48
  { q with first := zext next, last := if next == 0 then 0 else q.last }

/-- The first waiter of a queue whose record holds poison, which a queue operation meets as a load does (R382, log 65). -/
def State.badWaiter (s : State) (p : PartId) : Nat → DWord → Option DWord
  | 0, _ => none
  | n + 1, r =>
    if r == 0 then none
    else if s.poisonedIn p r.toNat 64 then some r
    else s.badWaiter p n (zext ((s.recWord p (r.setWidth 48) 4).extractLsb' 0 48))

/-- Wake every waiter of a queue in list order with TERM; `n` bounds the list. -/
def State.wakeQueue (s : State) (p : PartId) : Nat → Queue → State × Queue
  | 0, q => (s, q)
  | n + 1, q =>
    if q.first == 0 then (s, q)
    else
      let q' := s.popWaiter p q
      (s.wake p (q.first.extractLsb' 0 48) (some (statusWord sTerm 0))).wakeQueue p n q'

/-- QPOP and QPOP.NB (R240). -/
def State.qpop (s : State) (nb : Bool) (d a : BitVec 5) : State :=
  let va := s.g a
  match s.queueCheck va, s.partOf s.active with
  | .error e, _ => s.refuse e
  | .ok _, none => s
  | .ok (pa, s'), some p =>
    let q := s'.queueAt pa
    if s'.queueBad pa q then s.result d (statusWord sBadRec 0)
    else if 0 < q.used then
      match s'.loadDev (q.entry q.head) 8 with
      | .error e => s.refuse e
      | .ok (e, _) => (s'.putQueue pa { q with head := q.head + 1 }).result d (statusWord sOk (BitVec.ofNat 48 e))
    else if q.closed then s.result d (statusWord sTerm 0)
    else if nb then s.result d (statusWord sEmpty 0)
    else
      match s.cur.running with
      | none => s.advance
      | some r =>
        let s' := if q.first == 0 then s'.putQueue pa { q with first := zext r, last := zext r }
          else (s'.setRecWord p (q.last.extractLsb' 0 48) 4 (zext r)).putQueue pa { q with last := zext r }
        s'.suspendNext stWaiting 5 (va.extractLsb' 0 48) 0 d

def execQpop (d a : BitVec 5) (s : State) : Out :=
  if s.cur.inHandler then .next (s.illegal (.qpop d a)) else .next (s.qpop false d a)
def execQpopNb (d a : BitVec 5) (s : State) : Out := .next (s.qpop true d a)

def execQpush (d a b : BitVec 5) (s : State) : Out :=
  let x : BitVec 48 := (s.g b).extractLsb' 0 48
  match s.queueCheck (s.g a), s.partOf s.active with
  | .error e, _ => .next (s.refuse e)
  | .ok _, none => .next s
  | .ok (pa, s'), some p =>
    let q := s'.queueAt pa
    if s'.queueBad pa q then .next (s.result d (statusWord sBadRec 0))
    else if q.closed then .next (s.result d (statusWord sQClosed 0))
    else if let some r := s'.badWaiter p 1 q.first then .next (s.faultNow cPoison r)
    else if q.first != 0 then
      let q' := { s'.popWaiter p q with head := q.head + 1, tail := q.tail + 1 }
      .next (((s'.putQueue pa q').wake p (q.first.extractLsb' 0 48) (some (statusWord sOk x))).result d (statusWord sOk 0))
    else if q.used = q.capacity then .next (s.result d (statusWord sFull 0))
    else
      match s'.storeAt (q.entry q.tail) 8 with
      | .error e => .next (s.refuse e)
      | .ok (at_, s'') =>
        if isHost at_ then .next (s.refuse ⟨cProtect, q.entry q.tail⟩)
        else .next (((s''.putPhys at_ 8 x.toNat).putQueue pa { q with tail := q.tail + 1 }).result d (statusWord sOk 0))

def execQclose (d a : BitVec 5) (s : State) : Out :=
  match s.queueCheck (s.g a), s.partOf s.active with
  | .error e, _ => .next (s.refuse e)
  | .ok _, none => .next s
  | .ok (pa, s'), some p =>
    let q := s'.queueAt pa
    if s'.queueBad pa q then .next (s.result d (statusWord sBadRec 0))
    else if q.closed then .next (s.result d (statusWord sOk 0))
    else
      let q := { q with ctl := q.ctl ||| 0x100 }
      let n := s'.teams.foldl (fun n t => n + t.tasks.length) 0
      if let some r := (if q.used = 0 then s'.badWaiter p n q.first else none) then .next (s.faultNow cPoison r) else
      let (s', q) := if q.used = 0 then s'.wakeQueue p n q else (s', q)
      .next ((s'.putQueue pa q).result d (statusWord sOk 0))

/-! ### Launches and yielding (R245 to R247) -/

/-- Whether a launch record breaks its layout (R246); `w` gives its words. -/
def launchBad (w : Nat → DWord) : Bool :=
  let teams := (w 3).extractLsb' 0 32
  let cores := (w 3).extractLsb' 32 8
  let area := (w 5).extractLsb' 0 48
  (w 0).extractLsb' 48 16 != 0 || (w 1).extractLsb' 48 16 != 0 || (w 2).extractLsb' 41 23 != 0 ||
    (w 3).extractLsb' 40 24 != 0 || (w 4).extractLsb' 24 40 != 0 || (w 5).extractLsb' 48 16 != 0 ||
    (w 7).extractLsb' 8 8 != 0 || teams == 0 || cores == 0 || decide (128 < cores.toNat) ||
    (w 1).extractLsb' 0 3 != 0 || area == 0 || area.extractLsb' 0 6 != 0 ||
    decide (Config.addrSpace < area.toNat + 576 * teams.toNat * cores.toNat)

/-- The effect of LAUNCH on the record at `pa`, virtual address `va`: the device and the status word (R246). -/
def State.queueLaunch (s : State) (p : PartId) (va : Addr) (pa : Nat) : State × DWord :=
  let w (i : Nat) : DWord := s.read64 (pa + 8 * i)
  let status := (w 7).extractLsb' 0 8
  if status == 1 || status == 2 then (s, statusWord sBusy 0)
  else if launchBad w then (s, statusWord sBadRec 0)
  else
    let prio := (w 2).extractLsb' 36 4
    let q := (s.part p).queues.read prio
    let s := s.putPhys (pa + 56) 8 1
    let s := match q.getLast? with
      | some l => s.putIn p (l.toNat + 58) 6 va.toNat
      | none => s
    (s.modPart p fun x => { x with queues := x.queues.write prio (q ++ [va]) }, statusWord sOk 0)

def execLaunch (d a : BitVec 5) (s : State) : Out :=
  let va := s.g a
  match s.queueCheck va, s.partOf s.active with
  | .error e, _ => .next (s.refuse e)
  | .ok _, none => .next s
  | .ok (pa, s'), some p =>
    let (s'', w) := s'.queueLaunch p (va.extractLsb' 0 48) pa
    .next ((if w == statusWord sOk 0 then s'' else s).result d w)

def execYield (s : State) : Out :=
  if s.cur.inHandler then .next (s.illegal .yield) else .next (s.suspendNext stReady 0 0 0 0)

end Sys2Proof.Machine
end

