-- ==== Sys2Proof/Machine/Spawn.lean ====
section
/-! DEFINITION. Views, children, SYNC and EXIT (R46, R213 to R221). -/

namespace Sys2Proof.Machine

/-! ### Operators and their identities (R215) -/

/-- Element bytes and identity of a view's operator; VIEW.MAX and VIEW.MIN take their element from the geometry's tag. -/
def viewElem (op : BitVec 4) (tag : Tag) : Nat × Nat :=
  match op, tag with
  | 0#4, _ => (8, 0)
  | 1#4, _ => (4, 0x80000000)
  | 2#4, 4#5 => (4, 0x80000000)
  | 2#4, 5#5 => (8, 0x8000000000000000)
  | 2#4, 8#5 => (4, 0xFF800000)
  | 2#4, 9#5 => (8, 0xFFF0000000000000)
  | 2#4, _ => (4, 0)
  | 3#4, 4#5 => (4, 0x7FFFFFFF)
  | 3#4, 5#5 => (8, 0x7FFFFFFFFFFFFFFF)
  | 3#4, 8#5 => (4, 0x7F800000)
  | 3#4, 9#5 => (8, 0x7FF0000000000000)
  | 3#4, _ => (4, 0xFFFFFFFF)
  | 5#4, _ => (4, 0xFFFFFFFF)
  | _, _ => (4, 0)

def geomTag (g : DWord) : Tag := g.extractLsb' 24 5
def geomD (g : DWord) : Nat := (g.extractLsb' 32 8).toNat
def geomPool (g : DWord) : BitVec 6 := g.extractLsb' 40 6
def geomKernel (g : DWord) : BitVec 12 := g.extractLsb' 48 12
def geomBlocks (g : DWord) : Nat := (g.extractLsb' 0 16).toNat

/-- A private copy's bytes: the operator's identity throughout. -/
def identityBytes (op : BitVec 4) (g : DWord) : List Byte :=
  let n := 64 * geomBlocks g
  if op == 6 then
    let row := bytesLE 4 0xFF800000 ++ List.replicate (4 * (geomD g + 1)) 0
    (List.range (n / row.length)).flatMap fun _ => row
  else
    let (w, x) := viewElem op (geomTag g)
    (List.range (n / w)).flatMap fun _ => bytesLE w x

/-! ### VIEW (R216) -/

/-- A live handle of a core that a task holds. -/
def CoreSt.heldBy (k : CoreSt) (hnd : BitVec 6) (r : Addr) : Option Alloc := (k.handles.read hnd).filter fun a => a.holder == r

/-- The checks that VIEW makes of its operands. -/
def viewOk (k : CoreSt) (r : Addr) (op : BitVec 3) (tile g : DWord) : Bool :=
  let cis := inCistern tile
  let tileOk :=
    if cis then tile.getLsbD 62 == false && tile.extractLsb' 32 24 == 0 && tile.extractLsb' 0 6 == 0 &&
      (k.heldBy (tileHandle tile) r).isSome
    else tile.extractLsb' 48 15 == 0 && tile.extractLsb' 0 6 == 0
  let tagOk := if op == 2 || op == 3 then [4, 5, 8, 9, 14].contains (geomTag g) else geomTag g == 0
  let dOk := if op == 6 then geomD g != 0 && 64 * geomBlocks g % (4 * (geomD g + 2)) == 0 else geomD g == 0
  let poolOk := if cis then (k.heldBy (geomPool g) r).isSome else geomPool g == 0
  let kernelOk := op == 7 || geomKernel g == 0
  tileOk && tagOk && dOk && poolOk && kernelOk && (op != 7 || cis) && geomBlocks g != 0 &&
    g.extractLsb' 60 4 == 0 && g.extractLsb' 46 2 == 0 && g.extractLsb' 29 3 == 0 && g.extractLsb' 16 8 == 0

/-- The running task of the active core with its partition. -/
def State.self (s : State) : Option (PartId × Addr) :=
  match s.partOf s.active, s.cur.running with
  | some p, some r => some (p, r)
  | _, _ => none

/-- A task's record says that it has views and names their table (R213). -/
def State.linkViews (s : State) (p : PartId) (r : Addr) : State :=
  let s := s.setRecFlag p r flagView true
  s.setRecWord p r 7 ((s.recWord p r 7).extractLsb' 48 16 ++ BitVec.ofNat 48 (s.frame p r + 288))

/-- Without views the record names no table of them (R213). -/
def State.unlinkViews (s : State) (p : PartId) (r : Addr) : State :=
  if (s.views p r).isEmpty then s.setRecWord p r 7 ((s.recWord p r 7).extractLsb' 48 16 ++ (0 : BitVec 48)) else s

/-- POISON of an instruction that reads its task's area, when the area or the view entries hold poison (R382, log 65). -/
def State.areaFault (s : State) (p : PartId) (r : Addr) : State := s.faultNow cPoison (BitVec.ofNat 64 (s.frame p r + 256))

def execView (op : BitVec 3) (d a b : BitVec 5) (s : State) : Out :=
  let fault : Out := .next (s.taskFault (.view op d a b))
  match s.self with
  | none => fault
  | some (p, r) =>
    if s.areaBad p r then .next (s.areaFault p r) else
    match (List.range 7).find? fun i => !(s.viewEntry p r i).valid with
    | none => fault
    | some i =>
      if s.areaWord p r 1 != 0 || !viewOk s.cur r op (s.g a) (s.g b) then fault
      else
        let v : ViewEntry := ⟨s.g a, s.g b, s.g a, 0xFFFFFF10 ||| zext op⟩
        .next (((s.setViewEntry p r i v).linkViews p r).result d (BitVec.ofNat 64 i))

def execViewDrop (d a b : BitVec 5) (s : State) : Out :=
  let fault : Out := .next (s.taskFault (.viewDrop d a b))
  match s.self with
  | none => fault
  | some (p, r) =>
    let i := (s.g a).toNat
    if s.areaBad p r then .next (s.areaFault p r)
    else if 7 ≤ i then fault
    else
      let v := s.viewEntry p r i
      if !v.valid || s.areaWord p r 1 != 0 then fault
      else
        .next (((s.setViewEntry p r i { v with ctl := putBit v.ctl 4 false }).unlinkViews p r).result d (BitVec.ofNat 64 i))

/-! ### SPAWN (R217) -/

/-- Bytes of a handle. -/
def Alloc.bytes (a : Alloc) : Nat := 64 * a.nbanks * a.nrows

/-- The pool slots in use: those of the private copies that tasks of a team keep in a handle of a core, dropped views among them, until
the task's merge is complete (R218). Two views that name one pool handle share its slot numbers, whatever their sizes: DESIGN CHOICE,
log 102, for R217 speaks of the free slots of a view. -/
def Team.usedSlots (t : Team) (c : CoreId) (pool : BitVec 6) : List Nat :=
  t.tasks.flatMap fun i => (i.slots.filter fun x => x.1 = t.bound.idxOf c && x.2.1 == pool).map fun x => x.2.2

/-- The lowest free slot of a view's pool beyond those in use. -/
def freeSlot (k : CoreSt) (v : ViewEntry) (used : List Nat) : Option Nat :=
  match k.handles.read v.pool with
  | none => none
  | some a => (List.range (a.bytes / (64 * v.blocks))).find? fun i => !used.contains i

/-- Slots for the Cistern views of a list, one after another; none when a pool is full. -/
def Team.slotsFor (t : Team) (c : CoreId) (k : CoreSt) :
    List (Nat × ViewEntry) → List (BitVec 6 × Nat) → Option (List (Option Nat))
  | [], _ => some []
  | (_, v) :: vs, taken =>
    if inCistern v.target then
      let used := t.usedSlots c v.pool ++ (taken.filter fun x => x.1 == v.pool).map (·.2)
      match freeSlot k v used with
      | none => none
      | some n => (t.slotsFor c k vs ((v.pool, n) :: taken)).map (some n :: ·)
    else (t.slotsFor c k vs taken).map (none :: ·)

/-- The child's entries: Cistern copies in their slots, memory copies one after another from `va`. -/
def childEntries : List (Nat × ViewEntry) → List (Option Nat) → Nat → List (Nat × ViewEntry)
  | (i, v) :: vs, some n :: ns, va =>
    let tile : DWord := (2 : BitVec 2) ++ v.pool ++ (0 : BitVec 24) ++ BitVec.ofNat 32 (n * 64 * v.blocks)
    let ctl : DWord := (0 : BitVec 32) ++ BitVec.ofNat 24 n ++ (1 : BitVec 4) ++ v.op
    (i, { v with working := tile, ctl := ctl }) :: childEntries vs ns va
  | (i, v) :: vs, none :: ns, va =>
    let ctl : DWord := (0 : BitVec 32) ++ (0xFFFFFF : BitVec 24) ++ (1 : BitVec 4) ++ v.op
    (i, { v with working := BitVec.ofNat 64 va, ctl := ctl }) :: childEntries vs ns (va + 64 * v.blocks)
  | _, _, _ => []

/-- Put bytes at an offset of a handle's far view. -/
def CoreSt.putFar (k : CoreSt) (a : Alloc) (off : Nat) (bs : List Byte) : CoreSt :=
  { k with cistern := ((farView a).writes off bs fun _ => true).foldl putUnit k.cistern }

/-- Store 64-byte blocks for the active core, the checks of a store made on each. -/
def State.storeBlocks (s : State) (va : Nat) : Nat → List Byte → Except Refused State
  | 0, _ => .ok s
  | n + 1, bs =>
    match s.reach (BitVec.ofNat 64 va) 64 .store with
    | .error e => .error e
    | .ok (pa, s') =>
      if s'.tagged pa then .error ⟨cTag, BitVec.ofNat 64 va⟩
      else (s'.writePhys pa (bs.take 64)).storeBlocks (va + 64) n (bs.drop 64)

/-- Whether the handles behind a task's Cistern views are live and held by it. -/
def CoreSt.viewHandlesOk (k : CoreSt) (r : Addr) (vs : List (Nat × ViewEntry)) : Bool :=
  vs.all fun v => !inCistern v.2.target ||
    ((k.heldBy (tileHandle v.2.target) r).isSome && (k.heldBy v.2.pool r).isSome)

/-- A child's record (R217). -/
def childRecord (w0 w1 : DWord) (pc : DWord) (block parent left : Addr) (depth : Byte) (views bound : Bool) (c : CoreId) : List Byte :=
  let flags : DWord := putBit (putBit 0 flagChild true) flagView views
  let word0 := flags ||| (w0 &&& 0x00F0000000000000) ||| (zext stReady <<< 48) ||| (pc &&& 0x0000FFFFFFFFFFFF)
  let table : Addr := if views then block + 352 else 0
  let word7 := depth ++ BitVec.ofBool bound ++ (if bound then c else 0) ++ table
  bytesLE 8 word0.toNat ++ bytesLE 8 w1.toNat ++ bytesLE 8 (block + 64).toNat ++ bytesLE 8 0 ++ bytesLE 8 0 ++
    bytesLE 8 parent.toNat ++ bytesLE 8 left.toNat ++ bytesLE 8 word7.toNat

/-- A child's frame: its parent's registers with gd zero, an empty task area, its view entries. -/
def childFrame (k : CoreSt) (d : BitVec 5) (es : List (Nat × ViewEntry)) : List Byte :=
  let regs := (List.range 32).flatMap fun n =>
    bytesLE 8 (if n = 0 || n = d.toNat then 0 else (k.readG (BitVec.ofNat 5 n)).toNat)
  let entry (i : Nat) : List Byte := match es.find? fun e => e.1 = i with
    | some (_, v) => bytesLE 8 v.target.toNat ++ bytesLE 8 v.geom.toNat ++ bytesLE 8 v.working.toNat ++ bytesLE 8 v.ctl.toNat
    | none => List.replicate 32 0
  regs ++ List.replicate 32 0 ++ (List.range 7).flatMap entry

/-- The block that SPAWN stores: the child's record, its frame, and its private copies that lie in memory. -/
def State.childBytes (s : State) (p : PartId) (r : Addr) (entry : DWord) (block : Addr) (d : BitVec 5) (es : List (Nat × ViewEntry)) :
    List Byte :=
  let rec0 := childRecord (s.recWord p r 0) (s.recWord p r 1) entry block r ((s.areaWord p r 0).extractLsb' 0 48)
    ((s.recWord p r 7).extractLsb' 56 8 + 1) (!es.isEmpty) (es.any fun e => inCistern e.2.target) s.active
  let copies := (es.filter fun e => !inCistern e.2.working).flatMap fun e => identityBytes e.2.op e.2.geom
  rec0 ++ childFrame s.cur d es ++ copies

/-- The child's private copies in the Cistern hold the identity. -/
def CoreSt.fillCopies (k : CoreSt) (es : List (Nat × ViewEntry)) : CoreSt :=
  (es.filter fun e => inCistern e.2.working).foldl (fun k e => match k.handles.read e.2.pool with
    | some al => k.putFar al (tileOffset e.2.working) (identityBytes e.2.op e.2.geom)
    | none => k) k

/-- The pool slots of view entries whose copies lie in the Cistern. -/
def slotsOf (es : List (Nat × ViewEntry)) : List (BitVec 6 × Nat) :=
  (es.filter fun e => inCistern e.2.working).map fun e => (e.2.pool, e.2.slot.toNat)

/-- Record the new child with its parent, its pool slots, its share and its queue. -/
def State.adopt (s : State) (p : PartId) (parent child : Addr) (slots : List (BitVec 6 × Nat)) : State :=
  let s := s.setAreaWord p parent 0 (zext child)
  let s := s.setAreaWord p parent 1 (s.areaWord p parent 1 + 1)
  match s.teamWith p parent, s.taskInfo p parent with
  | some t, some i =>
    let mine := slots.map fun x => (t.bound.idxOf s.active, x)
    let s := s.modTeam (Team.holds p parent) fun t =>
      { t with tasks := t.tasks ++ [⟨child, i.pos, 0, 0, 0, [], false, mine, false⟩], ready := t.ready ++ [child] }
    s.shareAdd p t i.pos 1
  | _, _ => s

def execSpawn (d a b : BitVec 5) (s : State) : Out :=
  let entry := s.g a
  let vb := s.g b
  let fault : Out := .next (s.taskFault (.spawn d a b))
  if entry.extractLsb' 48 16 != 0 then .next (s.faultNow cAddress entry)
  else if vb.extractLsb' 48 16 != 0 then .next (s.faultNow cAddress vb)
  else if entry.extractLsb' 0 2 != 0 then .next (s.faultNow cAlign entry)
  else if vb.extractLsb' 0 6 != 0 then .next (s.faultNow cAlign vb)
  else
    match s.self with
    | none => fault
    | some (p, r) =>
      let k := s.cur
      let vs := s.views p r
      let depth := (s.recWord p r 7).extractLsb' 56 8
      if s.areaBad p r then .next (s.areaFault p r)
      else if !k.viewHandlesOk r vs || depth == 255 then fault
      else
        match s.teamWith p r with
        | none => fault
        | some t =>
          match t.slotsFor s.active k vs [] with
          | none => .next (s.result d 0)
          | some slots =>
            let block := vb.extractLsb' 0 48
            let es := childEntries vs slots (block.toNat + 576)
            let bytes := s.childBytes p r entry block d es
            match s.storeBlocks block.toNat (bytes.length / 64) bytes with
            | .error e => .next (s.refuse e)
            | .ok s => .next (((s.modCur fun k => k.fillCopies es).adopt p r block (slotsOf es)).result d (zext block))

/-- The record that a link field of a record names: records lie on block boundaries, whatever its low bits hold. -/
def recordLink (w : DWord) : Addr := w.extractLsb' 6 42 ++ 0#6

/-- The parent that a record names. -/
def State.parentOf (s : State) (p : PartId) (r : Addr) : Addr := recordLink (s.recWord p r 5)

/-! ### SYNC and EXIT (R46, R218, R221) -/

/-- A task's generation ends: status and last child are cleared; the status bits that SYNC returns. -/
def State.endGeneration (s : State) (p : PartId) (r : Addr) : State × DWord :=
  let st := s.areaWord p r 2
  ((s.setAreaWord p r 2 0).setAreaWord p r 0 0, st &&& 3)

def execSync (d : BitVec 5) (s : State) : Out :=
  if s.cur.inHandler then .next (s.illegal (.sync d))
  else
    match s.self with
    | none => .next s.advance
    | some (p, r) =>
      if s.areaBad p r then .next (s.areaFault p r)
      else if s.areaWord p r 1 == 0 then
        let (s, st) := s.endGeneration p r
        .next (s.result d st)
      else .next (s.suspendNext stWaiting 6 0 0 d)

/-- Free every handle that a task holds (R46). -/
def CoreSt.freeHandles (k : CoreSt) (r : Addr) : CoreSt :=
  { k with handles := Bank.ofFn fun i => (k.handles.read i).filter fun a => a.holder != r }

/-- Whether an ancestor of a task is poisoned and has still to be merged: a task that parks below it counts at its own poisoned merge
(R225; log 21). `fuel` bounds the depth. -/
def State.poisonedAbove (s : State) (p : PartId) (r : Addr) : Nat → Bool
  | 0 => false
  | fuel + 1 =>
    let a := s.parentOf p r
    (s.recWord p r 0).getLsbD flagChild && (s.taskInfo p a).isSome && (s.taskState p a == stPoisoned || s.poisonedAbove p a fuel)

/-- The record of a task that has ended: exited, or parked while its views await merging. It counts in its share's counter (R46). -/
def State.endTask (s : State) (p : PartId) (r : Addr) : State :=
  let c := s.active
  let s := s.modCur fun k => { k.freeHandles r with txns := k.txns.filter fun t => t.task != r }
  let child := (s.recWord p r 0).getLsbD flagChild
  let s := s.suspend c (if child then stParked else stExited) 0 0 0 s.cur.pc 0
  let s := s.modCore c fun k => { k with notifs := k.notifs.filter fun n => n.task != r }
  let s := if s.poisonedAbove p r 256 then s else s.countTask p r
  if child then s else s.forgetTask p r

/-- EXIT: an implicit SYNC, the task's commands, its handles, then its end. A suspension leaves PC at the EXIT. -/
def execExit (s : State) : Out :=
  if s.cur.inHandler then .next (s.illegal .exit)
  else
    match s.self with
    | none => .next s.advance
    | some (p, r) =>
      if s.areaBad p r then .next (s.areaFault p r)
      else if s.areaWord p r 1 != 0 then .next (s.suspend s.active stWaiting 6 0 0 s.cur.pc 0)
      else
        let (s, _) := s.endGeneration p r
        if s.cur.hasCommand r then .next (s.suspend s.active stWaiting 7 0 0 s.cur.pc 0)
        else .next (s.endTask p r)

end Sys2Proof.Machine
end

