-- ==== Sys2Proof/Machine/System.lean ====
section
/-! DEFINITION. Traps raised by instructions, returns, breakpoints, code words and side-band bits
(R337, R360, R361, R376 to R381). -/

namespace Sys2Proof.Machine

/-- TRAP raises SOFT with csr.tepc after it (R361). -/
def execTrap (code : BitVec 16) (s : State) : Out := .next (s.syncTrap cSoft (s.cur.pc + 4) (zext code))

/-- SYSRET (R360). -/
def execSysret (s : State) : Out := .next (if s.cur.sys then s.leaveTrap else s.illegal .sysret)

/-- UIRET (R337). -/
def execUiret (s : State) : Out :=
  .next (if s.cur.inHandler then s.modCur fun k => { k with pc := k.uepc, inHandler := false } else s.illegal .uiret)

/-- BRK raises BREAK with 0xFF; SKIP stays as it is (R378). -/
def execBrk (s : State) : Out := .next (s.faultNow cBreak 0xFF)

/-- What ga selects for DBRD and DBWR (R379): a comparator word, or a code word; none takes ILLEGAL. -/
inductive DebugTarget where
  | comparator (n : BitVec 3) (second : Bool)
  | code (va : DWord)

def debugTarget (ga : DWord) : Option DebugTarget :=
  if ga.extractLsb' 62 2 == 0 && ga.extractLsb' 4 58 == 0 then some (.comparator (ga.extractLsb' 1 3) (ga.getLsbD 0))
  else if ga.extractLsb' 62 2 == 1 && ga.extractLsb' 48 14 == 0 && ga.extractLsb' 0 2 == 0 then
    some (.code (zext (ga.extractLsb' 0 48)))
  else none

/-- A code word's place, with the checks of R379. -/
def State.codeWord (s : State) (va : DWord) (acc : Access) : Except Refused (Nat × State) :=
  match s.reach va 4 acc with
  | .error e => .error e
  | .ok (pa, s') => if s'.poisoned pa 4 then .error ⟨cPoison, va⟩ else .ok (pa, s')

/-- A comparator's words with the fields of the other kind and the reserved ones zero (R376). -/
def comparator (w0 w1 : DWord) : DWord × DWord := (w0, w1 &&& if w0.getLsbD 62 then 0x00000FFF00000FFF else 0x0000FFFFFFFFFFFC)

def execDbrd (d a : BitVec 5) (s : State) : Out :=
  if !s.cur.sys then .next (s.illegal (.dbrd d a))
  else
    match debugTarget (s.g a) with
    | none => .next (s.illegal (.dbrd d a))
    | some (.comparator n second) =>
      let w := s.cur.comparators.read n
      .next (s.result d (if second then w.2 else w.1))
    | some (.code va) =>
      match s.codeWord va .fetch with
      | .error e => .next (s.refuse e)
      | .ok (pa, _) => .next (s.result d (BitVec.ofNat 64 (s.readPhys pa 4)))

def execDbwr (a b : BitVec 5) (s : State) : Out :=
  if !s.cur.sys then .next (s.illegal (.dbwr a b))
  else
    match debugTarget (s.g a) with
    | none => .next (s.illegal (.dbwr a b))
    | some (.comparator n second) =>
      let x := s.g b
      let write := fun (w : DWord × DWord) =>
        if second then comparator w.1 x else comparator (x &&& 0xC000FFFFFFFFFFC0) w.2
      .next ((s.modCur fun k => { k with comparators := k.comparators.modify n write }).advance)
    | some (.code va) =>
      match s.codeWord va .code with
      | .error e => .next (s.refuse e)
      | .ok (pa, s') => if s'.tagged pa then .next (s.refuse ⟨cTag, va⟩) else .next (((s'.putPhys pa 4 ((s.g b).extractLsb' 0 32).toNat).freshCode pa 4).advance)

/-- UNTAG clears a block's hidden tag or poison bit (R381). -/
def execUntag (a : BitVec 5) (s : State) : Out :=
  let ga := s.g a
  if !s.cur.sys then .next (s.illegal (.untag a))
  else if ga.extractLsb' 48 16 != 0 then .next (s.faultNow cAddress ga)
  else if ga.extractLsb' 2 4 != 0 then .next (s.faultNow cAlign ga)
  else
    match s.reach (ga &&& ~~~(3 : DWord)) 64 .store with
    | .error e => .next (s.refuse e)
    | .ok (pa, s') =>
      let s' := if ga.getLsbD 0 then s'.unlive pa else s'
      let s' := if ga.getLsbD 1 then s'.setPoison (blockOf pa) false else s'
      .next s'.advance

/-! ### Breakpoints of the control core (R376, R377) -/

/-- The lowest comparator of kind 0 that matches a core's next instruction. -/
def CoreSt.pcMatch (k : CoreSt) (launch : Addr) : Option Nat :=
  (List.range 8).find? fun n =>
    let (w0, w1) := k.comparators.read (BitVec.ofNat 3 n)
    w0.getLsbD 63 && !w0.getLsbD 62 && zext (w1.extractLsb' 2 46 ++ (0 : BitVec 2)) == k.pc &&
      (w0.extractLsb' 6 42 == 0 || w0.extractLsb' 6 42 == launch.extractLsb' 6 42)

/-- The launch of a core's running task, 0 without one. -/
def State.launchOf (s : State) (c : CoreId) : Addr :=
  match (s.core c).bound with
  | some b => b.launch
  | none => 0

/-- A breakpoint at pc: BREAK with its index, SKIP set (R376, R377). -/
def State.breakAt (s : State) (n : Nat) : State :=
  (s.faultNow cBreak (BitVec.ofNat 64 n)).modCur fun k => { k with skip := true }

end Sys2Proof.Machine
end

