-- ==== Sys2Proof/Machine/Stream.lean ====
section
/-! DEFINITION. Stream commands as the control core enters them (R86 to R93, R305, R309), and what each declares
(R304, R306). -/

namespace Sys2Proof.Machine

/-- An address word, read at entry (R88, R305): relative to word 0, or a register and a displacement. -/
def State.addrOperand (s : State) (w : Word) : DWord :=
  if w.getLsbD 31 then s.g (w.extractLsb' 26 5) + sext (w.extractLsb' 0 26)
  else s.cur.pc + sext (w.extractLsb' 0 31)

/-- A counter field (R89). -/
def State.ctrOperand (s : State) (c : BitVec 15) : DWord :=
  if c.getLsbD 14 then s.g (c.extractLsb' 0 5) else s.cur.pc + sext (c.extractLsb' 0 14) * 8

/-- The lowest free entry of a dependency table; none when 64 commands stand in it (R254). -/
def freeEntry (table : List Cmd) : Option (BitVec 6) :=
  ((List.range 64).map (BitVec.ofNat 6)).find? fun e => !table.any fun c => c.entry == e

/-- A command as it enters the table. -/
def newCmd (entry : BitVec 6) (op : Instr) (word0 : DWord) (task : Addr) (wid : DWord) (launch : Addr) (a1 a2 ctr : DWord) : Cmd where
  entry := entry
  op := op
  word0 := word0
  task := task
  wid := wid
  launch := launch
  addr1 := a1
  addr2 := a2
  ctr := ctr
  phase := .waiting
  engine := none
  shape := none
  counts := []
  total := 0
  pos := 0
  windows := []
  rank := none
  live := []
  asked := []
  buffer := []
  errors := 0
  firstErr := 0
  cause := 0
  sat := false
  code := 0
  kend := 0
  seq := 0

/-- ILLEGAL of a command reports its word 0. -/
def State.illegalCmd (s : State) (i : Instr) : State :=
  s.faultNow cIllegal (zext (match encodeCommand i with
    | some (w, _) => w
    | none => 0))

/-- A command enters the table in one step. A full table holds the core at the command (R254); an .acq command holds what
entered it, the task or the trap handler, at the instruction after it (R309), and is refused in a user handler (R338). -/
def State.enter (s : State) (i : Instr) (h : CmdHdr) (a1 a2 : Word) (ctr : BitVec 15) : State :=
  if acquires h.order && s.cur.inHandler then s.illegalCmd i
  else
    match freeEntry s.cur.table with
    | none => s
    | some e =>
      let k := s.cur
      let cmd := newCmd e i k.pc ((k.running).getD 0) k.wid (s.launchOf s.active) (s.addrOperand a1) (s.addrOperand a2)
        (s.ctrOperand ctr)
      let mine := acquires h.order
      s.modCur fun k =>
        { k with table := k.table ++ [cmd], pc := k.pc + 16
                 hold := if mine && !k.sys then some e else k.hold
                 holdSys := if mine && k.sys then some e else k.holdSys }

def execShape (h : CmdHdr) (addr : Word) (sh : BitVec 5) (ctr : BitVec 15) (s : State) : Out :=
  .next (s.enter (.shape h addr sh ctr) h addr 0 ctr)
def execSalloc (h : CmdHdr) (hnd : BitVec 6) (bank nbanks : BitVec 7) (row : BitVec 11) (nrows : BitVec 12) (s : State) : Out :=
  .next (s.enter (.salloc h hnd bank nbanks row nrows) h 0 0 0)
def execSfree (h : CmdHdr) (hnd : BitVec 6) (s : State) : Out := .next (s.enter (.sfree h hnd) h 0 0 0)
def execSload (h : CmdHdr) (tmode : BitVec 2) (tag : Tag) (split : Bool) (addr : Word) (hnd : BitVec 6) (sh : BitVec 5)
    (ctr : BitVec 15) (s : State) : Out :=
  .next (s.enter (.sload h tmode tag split addr hnd sh ctr) h addr 0 ctr)
def execSstore (h : CmdHdr) (tag : Tag) (split : Bool) (addr : Word) (hnd : BitVec 6) (sh : BitVec 5) (ctr : BitVec 15)
    (s : State) : Out :=
  .next (s.enter (.sstore h tag split addr hnd sh ctr) h addr 0 ctr)
def execSgather (h : CmdHdr) (tag : Tag) (addr : Word) (hnd : BitVec 6) (sh : BitVec 5) (idx : BitVec 6) (ctr : BitVec 15)
    (s : State) : Out :=
  .next (s.enter (.sgather h tag addr hnd sh idx ctr) h addr 0 ctr)
def execSscatter (h : CmdHdr) (tag : Tag) (addr : Word) (hnd : BitVec 6) (sh : BitVec 5) (idx : BitVec 6) (ctr : BitVec 15)
    (s : State) : Out :=
  .next (s.enter (.sscatter h tag addr hnd sh idx ctr) h addr 0 ctr)
def execSscadd (h : CmdHdr) (tag : Tag) (form : BitVec 2) (addr : Word) (hnd : BitVec 6) (sh : BitVec 5) (idx : BitVec 6)
    (ctr : BitVec 15) (s : State) : Out :=
  .next (s.enter (.sscadd h tag form addr hnd sh idx ctr) h addr 0 ctr)
def execScopy (h : CmdHdr) (sh : BitVec 5) (dst src : Word) (s : State) : Out :=
  .next (s.enter (.scopy h sh dst src) h dst src 0)
def execScan (h : CmdHdr) (tag : Tag) (flush row : Bool) (src list : BitVec 6) (sh : BitVec 5) (mask : BitVec 6)
    (ctr : BitVec 15) (s : State) : Out :=
  .next (s.enter (.scan h tag flush row src list sh mask ctr) h 0 0 ctr)
def execKernel (h : CmdHdr) (knl : BitVec 12) (sh : BitVec 5) (hA hB hC hD : BitVec 6) (ins outs : BitVec 4) (ctr : BitVec 15)
    (s : State) : Out :=
  .next (s.enter (.kernel h knl sh hA hB hC hD ins outs ctr) h 0 0 ctr)
def execKswap (h : CmdHdr) (knl : BitVec 12) (addr : Word) (ctr : BitVec 15) (s : State) : Out :=
  .next (s.enter (.kswap h knl addr ctr) h addr 0 ctr)
def execCollAllred (h : CmdHdr) (addr : Word) (comb : BitVec 4) (sh : BitVec 5) (grp : BitVec 4) (ctr : BitVec 15)
    (s : State) : Out :=
  .next (s.enter (.collAllred h addr comb sh grp ctr) h addr 0 ctr)
def execCollRedsc (h : CmdHdr) (addr : Word) (comb : BitVec 4) (sh : BitVec 5) (grp : BitVec 4) (ctr : BitVec 15)
    (s : State) : Out :=
  .next (s.enter (.collRedsc h addr comb sh grp ctr) h addr 0 ctr)
def execCollAllgat (h : CmdHdr) (addr : Word) (comb : BitVec 4) (sh : BitVec 5) (grp : BitVec 4) (ctr : BitVec 15)
    (s : State) : Out :=
  .next (s.enter (.collAllgat h addr comb sh grp ctr) h addr 0 ctr)
def execCollBcast (h : CmdHdr) (addr : Word) (comb : BitVec 4) (sh : BitVec 5) (grp : BitVec 4) (ctr : BitVec 15)
    (s : State) : Out :=
  .next (s.enter (.collBcast h addr comb sh grp ctr) h addr 0 ctr)
def execSmark (h : CmdHdr) (ctr : BitVec 15) (s : State) : Out := .next (s.enter (.smark h ctr) h 0 0 ctr)

/-! ### What a command declares -/

/-- The header of a command. -/
def cmdHeader : Instr → CmdHdr
  | .shape h _ _ _ => h
  | .salloc h _ _ _ _ _ => h
  | .sfree h _ => h
  | .sload h _ _ _ _ _ _ _ => h
  | .sstore h _ _ _ _ _ _ => h
  | .sgather h _ _ _ _ _ _ => h
  | .sscatter h _ _ _ _ _ _ => h
  | .sscadd h _ _ _ _ _ _ _ => h
  | .scopy h _ _ _ => h
  | .scan h _ _ _ _ _ _ _ _ => h
  | .kernel h _ _ _ _ _ _ _ _ _ => h
  | .kswap h _ _ _ => h
  | .collAllred h _ _ _ _ _ => h
  | .collRedsc h _ _ _ _ _ => h
  | .collAllgat h _ _ _ _ _ => h
  | .collBcast h _ _ _ _ _ => h
  | .smark h _ => h
  | _ => ⟨0, 0, false, false, 0, 0, 0, 0, 0⟩

/-- The handles of a list that a mask names, bit 0 first (R91). -/
def maskedHandles (hs : List (BitVec 6)) (m : BitVec 4) : List (BitVec 6) :=
  (hs.zip (List.range 4)).filterMap fun x => if m.getLsbD x.2 then some x.1 else none

/-- Declared inputs (R304). -/
def cmdIns : Instr → List (BitVec 6)
  | .sstore _ _ _ _ hnd _ _ => [hnd]
  | .sgather _ _ _ _ _ idx _ => [idx]
  | .sscatter _ _ _ hnd _ idx _ => [hnd, idx]
  | .sscadd _ _ _ _ hnd _ idx _ => [hnd, idx]
  | .scan _ _ _ _ src _ _ _ _ => [src]
  | .kernel _ _ _ hA hB hC hD ins _ _ => maskedHandles [hA, hB, hC, hD] ins
  | _ => []

/-- Declared outputs; SALLOC and SFREE count as outputs (R306). -/
def cmdOuts : Instr → List (BitVec 6)
  | .salloc _ hnd _ _ _ _ => [hnd]
  | .sfree _ hnd => [hnd]
  | .sload _ _ _ _ _ hnd _ _ => [hnd]
  | .sgather _ _ _ hnd _ _ _ => [hnd]
  | .scan _ _ _ _ _ list _ mask _ => [list, mask]
  | .kernel _ _ _ hA hB hC hD _ outs _ => maskedHandles [hA, hB, hC, hD] outs
  | _ => []

/-- The shape register that a command names. -/
def cmdShape : Instr → Option (BitVec 5)
  | .shape _ _ sh _ => some sh
  | .sload _ _ _ _ _ _ sh _ => some sh
  | .sstore _ _ _ _ _ sh _ => some sh
  | .sgather _ _ _ _ sh _ _ => some sh
  | .sscatter _ _ _ _ sh _ _ => some sh
  | .sscadd _ _ _ _ _ sh _ _ => some sh
  | .scopy _ sh _ _ => some sh
  | .scan _ _ _ _ _ _ sh _ _ => some sh
  | .kernel _ _ sh _ _ _ _ _ _ _ => some sh
  | .collAllred _ _ _ sh _ _ => some sh
  | .collRedsc _ _ _ sh _ _ => some sh
  | .collAllgat _ _ _ sh _ _ => some sh
  | .collBcast _ _ _ sh _ _ => some sh
  | _ => none

def isShape : Instr → Bool
  | .shape _ _ _ _ => true
  | _ => false

/-- The engine that serves a command (R304). -/
inductive EngineKind where
  | table | pump | gmu | copy | scan | kernel | loader | coll
  deriving DecidableEq, Repr

def engineKind : Instr → EngineKind
  | .sload _ _ _ _ _ _ _ _ => .pump
  | .sstore _ _ _ _ _ _ _ => .pump
  | .sgather _ _ _ _ _ _ _ => .gmu
  | .sscatter _ _ _ _ _ _ _ => .gmu
  | .sscadd _ _ _ _ _ _ _ _ => .gmu
  | .scopy _ _ _ _ => .copy
  | .scan _ _ _ _ _ _ _ _ _ => .scan
  | .kernel _ _ _ _ _ _ _ _ _ _ => .kernel
  | .kswap _ _ _ _ => .loader
  | .collAllred _ _ _ _ _ _ => .coll
  | .collRedsc _ _ _ _ _ _ => .coll
  | .collAllgat _ _ _ _ _ _ => .coll
  | .collBcast _ _ _ _ _ _ => .coll
  | _ => .table

end Sys2Proof.Machine
end

