-- ==== Sys2Proof/Machine/Geometry.lean ====
section
/-! DEFINITION. Where the elements of a stream lie: shapes, memory addresses, placement in a handle, and the checks on them
(R199, R314 to R322). -/

namespace Sys2Proof.Machine

/-! ### Shapes (R314, R317) -/

def Shape.count (sh : Shape) (l : Nat) : Nat := (nth sh.counts.toList l 1).toNat
def Shape.stride (sh : Shape) (l : Nat) : Int := (nth sh.strides.toList l 0).toInt
/-- The counts of a record. -/
def Shape.recordCounts (sh : Shape) : List Nat := (List.range 6).map sh.count
def product (xs : List Nat) : Nat := xs.foldl (· * ·) 1

/-- The effective counts: the level that dyn names is bounded by a handle's count. -/
def Shape.effective (sh : Shape) (h : Nat) : List Nat :=
  (List.range 6).map fun l => if sh.dyn.toNat = l + 1 then min (sh.count l) h else sh.count l

/-- i0 to i5 of element `n`. -/
def digits : List Nat → Nat → List Nat
  | [], _ => []
  | c :: cs, n => n % c :: digits cs (n / c)

/-- A level's base from the work ID. -/
def Shape.base (sh : Shape) (widths wid : DWord) (l : Nat) : Nat :=
  let b := sh.wbase.extractLsb' (3 * l) 3
  if b.getLsbD 2 then workField widths wid (b.extractLsb' 0 2).toNat * sh.count l else 0

/-- Σ (i_L + off_L) × s_L over the levels from `l` on. -/
def Shape.sum (sh : Shape) (widths wid : DWord) (l : Nat) (is : List Nat) : Int :=
  ((List.range 6).drop l).foldl (fun a m => a + (((nth is m 0 : Nat) : Int) + sh.base widths wid m) * sh.stride m) 0

/-- The least and the greatest of that sum over a record's elements. -/
def Shape.span (sh : Shape) (widths wid : DWord) : Int × Int :=
  (List.range 6).foldl (fun a l =>
    let b := (sh.base widths wid l : Int) * sh.stride l
    let e := ((sh.count l : Int) - 1) * sh.stride l
    (a.1 + b + min 0 e, a.2 + b + max 0 e)) (0, 0)

/-- A shape record read from 64 bytes. -/
def readShape (bs : List Byte) : Shape :=
  let w0 := wordAt bs 0
  { sdisp := w0.extractLsb' 32 32
    dyn := w0.extractLsb' 24 3
    place := w0.extractLsb' 22 2
    wbase := w0.extractLsb' 4 18
    esize := w0.extractLsb' 0 4
    counts := Vector.ofFn fun l => (wordAt bs (1 + l.val)).extractLsb' 40 24
    strides := Vector.ofFn fun l => (wordAt bs (1 + l.val)).extractLsb' 0 40
    cscale := (wordAt bs 7).extractLsb' 32 32
    cbase := (wordAt bs 7).extractLsb' 0 32 }

/-- Whether SHAPE takes a record (R315); `w0` is its word 0. -/
def Shape.ok (sh : Shape) (w0 : DWord) : Bool :=
  let e := sh.esize.toNat
  w0.extractLsb' 27 5 == 0 && [1, 2, 4, 8, 9].contains e && sh.place != 3 && sh.dyn != 7 &&
    (e == 9 || (((List.range 6).all fun l => sh.stride l % (e : Int) == 0) && sh.cbase.toNat % e == 0)) &&
    (sh.sdisp == 0 || e == 8)

/-! ### Placement (R199, R318, R319) -/

/-- A byte of a handle: through the home view of a cluster or through the far view. -/
structure Spot where
  home : Option ClusterId
  off : Nat
  deriving DecidableEq, Repr

def Spot.view (a : Alloc) (x : Spot) : View :=
  match x.home with
  | some c => homeView a c
  | none => farView a
def Spot.unit (a : Alloc) (x : Spot) : Nat := (x.view a).unit (x.off / 64)
def Spot.addr (a : Alloc) (x : Spot) : Nat := 64 * x.unit a + x.off % 64
def Spot.ok (a : Alloc) (x : Spot) : Bool := (x.view a).holds x.off 1

/-- The chunk size of the dealt placement. -/
def chunkOf (t : Tag) : Nat := if tagPair t then 512 else 256

/-- Where stream position `b` lies: one spot, or one for every cluster. -/
def placeByte (place : BitVec 2) (t : Tag) (b : Nat) : List Spot :=
  let s := chunkOf t
  match place with
  | 0#2 => [⟨some (BitVec.ofNat 4 (b / s)), s * (b / (16 * s)) + b % s⟩]
  | 1#2 => [⟨none, b⟩]
  | _ => allClusters.map fun c => ⟨some c, b⟩

/-- Where the scale byte of the block with its codes at position `p` lies. -/
def placeScale (place : BitVec 2) (cscale p : Nat) : List Spot :=
  match place with
  | 0#2 => [⟨some (BitVec.ofNat 4 (p / 256)), cscale + 32 * (p / 4096) + p % 256 / 8⟩]
  | 1#2 => [⟨none, cscale + p / 8⟩]
  | _ => allClusters.map fun c => ⟨some c, cscale + p / 8⟩

/-- Bytes of an element as it is placed: 8 for the codes of a B4 block. -/
def Shape.unitSize (sh : Shape) (t : Tag) : Nat := if t == 12 then 8 else sh.esize.toNat

/-- The spots of each byte of the element at place `n` of the stream; a B4 block's scale byte comes last. -/
def Shape.spots (sh : Shape) (t : Tag) (n : Nat) : List (List Spot) :=
  let w := sh.unitSize t
  let b := sh.cbase.toNat + n * w
  ((List.range w).map fun i => placeByte sh.place t (b + i)) ++
    (if t == 12 then [placeScale sh.place sh.cscale.toNat b] else [])

/-- The greatest position of a span of positions that falls in a cluster under the dealt placement. -/
def lastIn (s first last : Nat) (c : Nat) : Option Nat :=
  let top := last / s
  let k := top - (top + 16 - c) % 16
  if (top + 16 - c) % 16 ≤ top && first / s ≤ k then some (if k = top then last else s * k + s - 1) else none

/-- Whether every position of `n` elements lies in its view (R318). -/
def Shape.fits (sh : Shape) (t : Tag) (a : Alloc) (n : Nat) : Bool :=
  if n = 0 then true
  else
    let first := sh.cbase.toNat
    let last := first + n * sh.unitSize t - 1
    -- the scale byte of a B4 block goes by the position of the block's first code byte
    let scaleOk (p : Nat) : Bool := t != 12 || (placeScale sh.place sh.cscale.toNat (p - (p - first) % 8)).all (Spot.ok a)
    let ok (p : Nat) : Bool := ((placeByte sh.place t p).all (Spot.ok a)) && scaleOk p
    let s := chunkOf t
    if sh.place == 0 then (List.range 16).all fun c => match lastIn s first last c with
      | some p =>
        -- a last chunk may hold no block's start: the chunk before it in the cluster then holds the last
        let before := p / s * s - (15 * s + 1)
        ok p && (p / s * s < 15 * s + 1 || before < first || scaleOk before)
      | none => true
    else ok last

/-- The place of element `n`, transposed or not (R321). -/
def Shape.placeOf (sh : Shape) (tmode : BitVec 2) (n : Nat) : Nat :=
  if tmode == 0 then n
  else
    let c0 := sh.count 0
    let c1 := sh.count 1
    n / c0 % c1 + c1 * (n % c0) + c0 * c1 * (n / (c0 * c1))

/-! ### Elements in a Cistern -/

/-- The bytes at the first spot of each byte, and whether one of their units is poisoned. -/
def CoreSt.readSpots (k : CoreSt) (a : Alloc) (ss : List (List Spot)) : List Byte × Bool :=
  let firsts := ss.filterMap List.head?
  (firsts.map fun x => k.cistern.readByte (x.addr a), firsts.any fun x => k.cisPoison.contains (x.unit a))

/-- Write bytes at all their spots; poisoned data poisons the units (R331). -/
def CoreSt.writeSpots (k : CoreSt) (a : Alloc) (ss : List (List Spot)) (bs : List Byte) (bad : Bool) : CoreSt :=
  let all := (ss.zip bs).flatMap fun x => x.1.map fun y => (y, x.2)
  { k with
    cistern := all.foldl (fun m x => m.writeByte (x.1.addr a) x.2) k.cistern
    cisPoison := if bad then all.foldl (fun p x => insertNat (x.1.unit a) p) k.cisPoison else k.cisPoison }

/-- The banks of spots. -/
def spotBanks (a : Alloc) (ss : List (List Spot)) : List Nat :=
  ss.flatten.map fun x => x.unit a / Config.bankRows

/-- A little-endian number in a handle's far view. -/
def CoreSt.farNat (k : CoreSt) (a : Alloc) (off n : Nat) : Nat := ofBytesLE ((farView a).read k.cistern off n)

/-- The fill of a gather position left by an INDEX error (R331). -/
def fillBytes (t : Tag) (n : Nat) : List Byte :=
  match Fmt.ofTag t with
  | some f => bytesLE n f.nan
  | none => if t == 13 then bytesLE 8 0x8000000000000000 else List.replicate n 0

/-! ### Elements in memory -/

/-- Pieces of `n` bytes from an address, cut where a 64-byte block ends; addresses wrap at 2^64. -/
def pieces (va : DWord) : Nat → Nat → List (DWord × Nat)
  | 0, _ => []
  | fuel + 1, n =>
    if n = 0 then []
    else
      let m := min n (64 - va.toNat % 64)
      (va, m) :: pieces (va + BitVec.ofNat 64 m) fuel (n - m)

/-- An element's pieces in memory: the block and, in the split B4 layout, its scale byte (R319). -/
def Shape.pieces (sh : Shape) (t : Tag) (split : Bool) (base va : DWord) : List (DWord × Nat) :=
  if t == 12 && split then
    Machine.pieces va 3 8 ++ [(base + sext sh.sdisp + BitVec.ofInt 64 ((va - base).toInt / 8), 1)]
  else Machine.pieces va 3 sh.esize.toNat

/-- Read pieces for a command of a core, all in one step: device bytes as they stand, with their poison; the host is still to be
asked for its own (R293, R417). An address beyond 48 bits is an ADDRESS fault (R29; log 55). -/
def State.probe (s : State) (c : CoreId) (x : Cmd) : List (DWord × Nat) → Except (Byte × DWord) (List Piece)
  | [] => .ok []
  | (va, n) :: rest =>
    if va.extractLsb' 48 16 != 0 then .error (cAddress, va)
    else
      match s.resolveFor c x va.toNat .load with
      | .error e => .error (e, va)
      | .ok (pa, _) =>
        match s.probe c x rest with
        | .error e => .error e
        | .ok ps => .ok ((if isHost pa then .host pa n else .data (s.bytesPhys pa n) (s.poisoned pa n)) :: ps)

/-- What the host is still to be asked for. -/
def Piece.asks : Piece → Option (Nat × Nat)
  | .host pa n => some (pa, n)
  | .data _ _ => none

/-- The bytes of pieces, each with the poison of its piece. -/
def Piece.bytes : Piece → List (Byte × Bool)
  | .data bs bad => bs.map fun b => (b, bad)
  | .host _ _ => []
def pieceBytes (ps : List Piece) : List (Byte × Bool) := ps.flatMap Piece.bytes

/-- The answer of the host taken in for the first piece that waits for it. -/
def answerPiece (bytes : List Byte) (failed : Bool) : List Piece → List Piece
  | [] => []
  | .host _ n :: ps => .data ((bytes ++ List.replicate (n - bytes.length) 0).take n) failed :: ps
  | .data bs bad :: ps => .data bs bad :: answerPiece bytes failed ps

/-- Where pieces are to be written: physical addresses, and the device after the copies made first. -/
def State.places (s : State) (c : CoreId) (x : Cmd) : List (DWord × Nat) → Except (Byte × DWord) (List (Nat × Nat) × State)
  | [] => .ok ([], s)
  | (va, n) :: rest =>
    if va.extractLsb' 48 16 != 0 then .error (cAddress, va)
    else
      match s.resolveFor c x va.toNat .store with
      | .error e => .error (e, va)
      | .ok (pa, s') =>
        match s'.places c x rest with
        | .error e => .error e
        | .ok (ps, s'') => .ok ((pa, n) :: ps, s'')

/-- Write bytes at places; poison is set in the blocks written when the data is poisoned (R331). -/
def State.putPieces (s : State) (bad : Bool) : List (Nat × Nat) → List Byte → State
  | [], _ => s
  | (pa, n) :: rest, bs =>
    let s := s.writePhys pa (bs.take n)
    let s := if bad && !isHost pa then s.poisonAll (blocksOf pa n) else s
    s.putPieces bad rest (bs.drop n)

end Sys2Proof.Machine
end

