-- ==== Sys2Proof/Machine/Links.lean ====
section
/-! DEFINITION. Flits and links: the checks that a flit carries, the paths between dies, and sending and taking a flit
(R302, R384, R385, R395, R396). -/

namespace Sys2Proof.Machine

/-! ### A flit's checks (R384, R396) -/

/-- The header word of a flit. -/
def flitHeader (f : Flit) : DWord :=
  f.type ++ f.path ++ f.src ++ f.dst ++ f.reserved ++ f.seq ++ f.cls ++ f.rtag

/-- Bytes 0 to 75 of a flit, which its CRC covers. -/
def flitBytes (f : Flit) : List Byte :=
  bytesLE 8 (flitHeader f).toNat ++ bytesLE 64 f.payload.toNat ++ bytesLE 2 f.transit.toNat ++ bytesLE 2 f.reserved2.toNat

/-- The transit CRC of a block. -/
def transitCrc (payload : BitVec 512) : BitVec 16 := crc16 (bytesLE 64 payload.toNat)

/-- A flit with the CRC of its link over what it carries; its transit CRC travels on (R384). -/
def sealFlit (f : Flit) : Flit := { f with crc := crc32 (flitBytes f) }

/-- A flit as a sender makes it up: reserved fields zero, both CRCs computed. -/
def newFlit (type : BitVec 4) (src dst : DieId) (seq : BitVec 24) (cls : BitVec 4) (rtag : BitVec 20) (payload : BitVec 512) : Flit :=
  ⟨type, 0, src, dst, 0, seq, cls, rtag, payload, transitCrc payload, 0, 0⟩

/-- Whether a flit can stand on a link at all. -/
def flitOk (f : Flit) : Bool := f.path.ult 6 && f.src != f.dst

/-- Whether a receiver takes a flit as sound: an assigned type, reserved fields zero, and the CRC of its bytes (R396). -/
def soundFlit (f : Flit) : Bool :=
  f.type != 0 && f.type.ult 8 && f.reserved == 0 && f.reserved2 == 0 && f.crc == crc32 (flitBytes f)

/-- Whether the block that a flit carries fails its transit CRC (R384). -/
def spoiltFlit (f : Flit) : Bool := f.transit != transitCrc f.payload

/-! ### Links (R394 to R396) -/

/-- A link before its first flit; the first sequence number is 0 (log 23). -/
def freshLink (l : Link) : LinkSt := ⟨l, 0, -1, [], [], 0, false, 0, [], []⟩

def State.linkOf (s : State) (l : Link) : LinkSt := (s.links.find? fun x => x.link == l).getD (freshLink l)
def State.putLink (s : State) (x : LinkSt) : State :=
  { s with links := if s.links.any fun y => y.link == x.link then replaceFirst (fun y => y.link == x.link) (fun _ => x) s.links
      else s.links ++ [x] }
def State.modLink (s : State) (l : Link) (f : LinkSt → LinkSt) : State := s.putLink (f (s.linkOf l))

/-- The link that a flit crosses. -/
def linkIn (f : Flit) : Link := .mesh f.src f.dst f.path
/-- The link whose flits a flit answers: acknowledges and replay requests go against it. -/
def linkBack (f : Flit) : Link := .mesh f.dst f.src f.path

/-- The paths from a die to another that are in service, lowest first (R395). -/
def State.livePaths (s : State) (a b : DieId) : List (BitVec 3) :=
  ((List.range 6).map (BitVec.ofNat 3)).filter fun p => !(s.linkOf (.mesh a b p)).retired

/-- The path with the fewest flits waiting, the lower number on a tie (R395). -/
def State.fewest (s : State) (a b : DieId) (ps : List (BitVec 3)) : Option (BitVec 3) :=
  ps.foldl (fun best p =>
    match best with
    | none => some p
    | some q => if (s.linkOf (.mesh a b p)).buffer.length < (s.linkOf (.mesh a b q)).buffer.length then some p else some q) none

def State.choosePath (s : State) (a b : DieId) : Option (BitVec 3) := s.fewest a b (s.livePaths a b)

/-- Send a flit on the path chosen for it, with that path's next sequence; none when no path is left. -/
def State.sendFlit? (s : State) (f : Flit) : Option State :=
  (s.choosePath f.src f.dst).map fun p =>
    s.modLink (.mesh f.src f.dst p) fun x =>
      { x with nextSeq := x.nextSeq + 1, buffer := x.buffer ++ [sealFlit { f with path := p, seq := x.nextSeq }] }

/-- A receiver's answer to a flit: an acknowledge (6) or a replay request (7) with its sequence, against it on its path (R396). -/
def State.answerFlit (s : State) (type : BitVec 4) (f : Flit) : State :=
  s.modLink (linkBack f) fun x =>
    { x with answers := x.answers ++ [sealFlit { newFlit type f.dst f.src f.seq 0 0 0 with path := f.path }] }

/-- Whether a sequence number stands at or before another on a path. -/
def seqLe (a b : BitVec 24) : Bool := decide ((b - a).toNat < 2 ^ 23)

/-- What a link remembers of a flit that has failed. -/
def LinkSt.failed (x : LinkSt) (seq : BitVec 24) (kind : FlitKind) : Option FailedFlit :=
  x.failing.find? fun n => n.seq == seq && n.kind == kind
/-- A flit has been taken, and is no longer being retried. -/
def LinkSt.mended (x : LinkSt) (seq : BitVec 24) (kind : FlitKind) : LinkSt :=
  { x with failing := x.failing.filter fun n => !(n.seq == seq && n.kind == kind) }
/-- A flit that has been seen on a link has been sent: the sender's next sequence lies beyond it. -/
def LinkSt.saw (x : LinkSt) (seq : BitVec 24) : LinkSt := if seqLe x.nextSeq seq then { x with nextSeq := seq + 1 } else x

/-- The place of the next flit that fails. -/
def State.failPlace (s : State) : Nat := ((s.links.flatMap fun x => x.failing).map (·.since)).foldl max 0 + 1

/-- Whether a flit must wait behind one of its class and its source: one that is being retried on another path (R302), of two that are
retried the one that failed later; and an access for a Wellhead behind one that waits at a Wellhead, unperformed (R294, R302; log 96). -/
def State.heldBehind (s : State) (f : Flit) : Bool :=
  let mine := ((s.linkOf (linkIn f)).failed f.seq .data).map (·.since)
  let retried (l : Link) : Bool := match l with
    | .mesh a _ _ => a == f.src && l != linkIn f
    | _ => false
  (s.links.any fun x => retried x.link && x.failing.any fun n =>
    n.kind == .data && n.cls == f.cls && !seqLe n.seq x.received && mine.all fun t => decide (n.since < t)) ||
    (f.type == 1 || f.type == 3) && s.dies.list.any fun d => d.queue.any fun r => r.flit.src == f.src && r.flit.cls == f.cls

/-- The path on which a flit of a class is sent again between two dies: one that carries none of its class where there is one (R302). -/
def State.pathAgain (s : State) (a b : DieId) (cls : BitVec 4) : Option (BitVec 3) :=
  let ps := s.livePaths a b
  let clear := ps.filter fun p =>
    let x := s.linkOf (.mesh a b p)
    !x.buffer.any fun y => y.cls == cls && !seqLe y.seq x.received
  (s.fewest a b clear).orElse fun _ => s.fewest a b ps

/-- A flit of a retired path that its receiver has still to take: its place in the sequence, the flit itself where the sender's buffer of the
model holds it, its class, and its place among those that have failed where it has. -/
structure Unsent where
  ahead : Nat
  flit : Option Flit
  cls : BitVec 4
  since : Option Nat

/-- Put a flit after those sent before it. -/
def insertUnsent (x : Unsent) : List Unsent → List Unsent
  | [] => [x]
  | y :: ys => if x.ahead < y.ahead then x :: y :: ys else y :: insertUnsent x ys

/-- The flits of a link that its receiver has still to take, in the order in which they were sent: those of the buffer, and those that have
failed and are in none. -/
def LinkSt.unsent (x : LinkSt) : List Unsent :=
  let ahead (n : BitVec 24) : Nat := (n - x.received).toNat
  let mine := (x.buffer.filter fun y => !seqLe y.seq x.received).map fun y =>
    (⟨ahead y.seq, some y, y.cls, (x.failed y.seq .data).map (·.since)⟩ : Unsent)
  let others := (x.failing.filter fun n => n.kind == .data && !seqLe n.seq x.received && !x.buffer.any fun y => y.seq == n.seq).map fun n =>
    (⟨ahead n.seq, none, n.cls, some n.since⟩ : Unsent)
  (mine ++ others).foldl (fun xs u => insertUnsent u xs) []

/-- Send a flit of a retired path again on another: it is being retried there, under the sequence that it gets, so that no later flit of its
class passes it (R302, R385); none when no path is left. -/
def State.sendAgain? (s : State) (a b : DieId) (u : Unsent) : Option State :=
  let place := u.since.getD s.failPlace
  (s.pathAgain a b u.cls).map fun p =>
    s.modLink (.mesh a b p) fun x =>
      { x with nextSeq := x.nextSeq + 1, buffer := x.buffer ++ (u.flit.map fun f => sealFlit { f with path := p, seq := x.nextSeq }).toList
               failing := x.failing ++ [⟨x.nextSeq, u.cls, .data, place⟩] }

/-- Take a sound flit in: once, in its path's order, and not before one of its class that it must wait behind (R302, R395). A replay is the
flit that failed, its class with it. The receiver acknowledges it (R396). -/
def State.takeFlit (s : State) (f : Flit) : Option State :=
  let x := s.linkOf (linkIn f)
  if flitOk f && !x.retired && f.seq == x.received + 1 && !s.heldBehind f && (x.failed f.seq .data).all (fun n => n.cls == f.cls) then
    some ((s.putLink { (x.mended f.seq .data).saw f.seq with received := f.seq }).answerFlit 6 f)
  else none

end Sys2Proof.Machine
end

