-- ==== Sys2Proof/Machine/Command.lean ====
section
/-! DEFINITION. The dependency table: when a command issues, its checks, how a kernel starts, and how a command completes or
ends fatally (R304 to R313, R327 to R335). -/

namespace Sys2Proof.Machine

/-! ### Commands in the table -/

def Cmd.hdr (c : Cmd) : CmdHdr := cmdHeader c.op

/-- Completion causes (R330, R409). -/
def ccPoison : Byte := 1
def ccTagged : Byte := 2
def ccIndex : Byte := 3
def ccKernel : Byte := 4
def ccShape : Byte := 16
def ccCommand : Byte := 17
def ccOverflow : Byte := 18
def ccCounter : Byte := 19
def ccKfault : Byte := 20
def ccGroup : Byte := 21
def ccPath : Byte := 22

def byteMax (x y : Byte) : Byte := if x.ult y then y else x

/-- `n` more elements in error, the first of them element `i`. -/
def Cmd.err (c : Cmd) (cause : Byte) (i n : Nat) : Cmd :=
  if n = 0 then c
  else { c with errors := c.errors + n, firstErr := if c.errors = 0 then i else min i c.firstErr, cause := byteMax c.cause cause }

/-- The completion status (R330). -/
def Cmd.status (c : Cmd) : DWord :=
  BitVec.ofNat 16 (min c.errors 0xFFFF) ++ c.code ++ c.cause ++ c.kend ++ BitVec.ofBool c.sat ++ BitVec.ofNat 19 c.firstErr

def CoreSt.cmd (k : CoreSt) (e : BitVec 6) : Option Cmd := k.table.find? fun c => c.entry == e
def CoreSt.modCmd (k : CoreSt) (e : BitVec 6) (f : Cmd → Cmd) : CoreSt :=
  { k with table := replaceFirst (fun c => c.entry == e) f k.table }
def State.modCmd (s : State) (c : CoreId) (e : BitVec 6) (f : Cmd → Cmd) : State := s.modCore c fun k => k.modCmd e f

/-- A party's requests at the banks are no longer there: served, or gone with their party. -/
def CoreSt.leaveBanks (k : CoreSt) (who : BankParty) : CoreSt :=
  { k with eng := { k.eng with waiting := k.eng.waiting.filter fun o => o.2 != who, owed := k.eng.owed.filter fun o => o.2 != who } }

/-- A command leaves the table; a task that waits in EXIT for its last command becomes ready (R46). -/
def State.dropCmd (s : State) (c : CoreId) (cmd : Cmd) : State :=
  let s := s.modCore c fun k => { k.leaveBanks (.command cmd.entry) with table := removeFirst (fun x => x.entry == cmd.entry) k.table }
  match s.partOf c with
  | some p => if !(s.core c).hasCommand cmd.task && s.waits p cmd.task 7 then s.wake p cmd.task none else s
  | none => s

def isKernel (c : Cmd) : Bool := engineKind c.op == .kernel

/-- The trap of a fatal end: ENGINE, but KFAULT for a KERNEL (R362, R363); one that no kernel fault ended has kind 0 (log 56). -/
def fatalTrap (cmd : Cmd) (st : DWord) : Trap :=
  if isKernel cmd then mkTrap cKfault 0 cmd.word0 cmd.task else mkTrap cEngine st cmd.word0 cmd.task

/-- A fatal end: no signal, no counter-add, no notify; the core takes a trap (R313, R363). -/
def State.fatal (s : State) (c : CoreId) (cmd : Cmd) (cause : Byte) : State :=
  let st := { cmd with cause := cause }.status
  (s.modCore c fun k => { k with cerr := st }.pend (fatalTrap cmd st)).dropCmd c cmd

/-- An engine stops a command before a faulting element (R272, R363); what it goes on with is translated and read anew. -/
def State.stopCmd (s : State) (c : CoreId) (cmd : Cmd) (cause : Byte) (va : DWord) : State :=
  s.modCore c fun k =>
    ((k.leaveBanks (.command cmd.entry)).modCmd cmd.entry fun x => { x with phase := .stopped cause va, windows := [], asked := [] }).pend
      (mkTrap cEfault va cmd.word0 cmd.task cause cmd.entry)

/-- A command's elements have been moved, or are still to be. -/
def Cmd.moveOn (c : Cmd) : Cmd := { c with phase := if c.pos < c.total then .active else .moved }

/-- A command keeps the pieces of what it reads and asks the host for those that are the host's, all at once (R417). -/
def State.askHost (s : State) (c : CoreId) (x : Cmd) (ps : List Piece) : State :=
  let s := s.modCmd c x.entry fun y => { y with phase := .hostWait, asked := ps }
  let asks := (ps.filterMap Piece.asks).map fun q => HostMsg.readRequest (.command c x.entry) (q.1 - Config.hostMemBase) q.2
  { s with host := { s.host with out := s.host.out ++ asks } }

/-- Read pieces for a command and go on with their bytes, each with its poison; the host is asked first for what is its own. The device's
pieces are those of the step that asked, so that an element is read as one (R293). -/
def State.readingBytes (s : State) (c : CoreId) (x : Cmd) (ps : List (DWord × Nat)) (go : List (Byte × Bool) → State) : State :=
  if !x.asked.isEmpty then go (pieceBytes x.asked)
  else
    match s.probe c x ps with
    | .error (e, va) => s.stopCmd c x e va
    | .ok qs => if (qs.filterMap Piece.asks).isEmpty then go (pieceBytes qs) else s.askHost c x qs

/-! ### When a command can issue (R306 to R309) -/

def isWaiting (c : Cmd) : Bool := c.phase == .waiting
def isServed (c : Cmd) : Bool := match c.phase with
  | .active => true
  | .stopped _ _ => true
  | .hostWait => true
  | _ => false

/-- The wait is met, and no older command waits for a count of the same semaphore (R307). -/
def waitMet (k : CoreSt) (older : List Cmd) (c : Cmd) : Bool :=
  let h := c.hdr
  h.waitSm == 0 || h.threshold == 0 ||
    (h.threshold.toNat ≤ (k.sem.read h.waitSm).toNat &&
      !older.any fun o => isWaiting o && o.hdr.waitSm == h.waitSm && o.hdr.threshold != 0)

/-- Handle and shape dependencies on the commands entered before (R306). -/
def depsMet (older : List Cmd) (c : Cmd) : Bool :=
  (cmdIns c.op).all (fun h => !older.any fun o => (cmdOuts o.op).contains h) &&
    (cmdOuts c.op).all (fun h => !older.any fun o => (cmdOuts o.op).contains h || (cmdIns o.op).contains h) &&
    match cmdShape c.op with
    | none => true
    | some n =>
      if isShape c.op then !older.any fun o => (isWaiting o || isShape o.op) && cmdShape o.op == some n
      else !older.any fun o => isShape o.op && cmdShape o.op == some n

/-- Whether a command is served by a Pump (R90, R304): a COLL too. -/
def usesPump (c : Cmd) : Bool := engineKind c.op == .pump || engineKind c.op == .gmu || engineKind c.op == .coll

/-- The lowest-numbered free Pump (R304). -/
def freePump (table : List Cmd) : Option Nat :=
  (List.range 4).find? fun n => !table.any fun c => isServed c && usesPump c && c.engine == some n

/-- A kernel handle's image in a core's store. -/
def CoreSt.imageOf (k : CoreSt) (knl : BitVec 12) : Option KImage := (k.store.find? fun x => x.1 == knl).map (·.2)

/-- Whether two footprints share no register; p0, p1, q0 and q1 are in none, whatever an image sets (R207). -/
def KImage.disjoint (a b : KImage) : Bool :=
  a.amask &&& b.amask == 0 && a.vmask &&& b.vmask == 0 && a.accmask &&& b.accmask == 0 &&
    (a.pmask &&& b.pmask).extractLsb' 2 14 == 0 && (a.qmask &&& b.qmask).extractLsb' 2 14 == 0 && a.mmask &&& b.mmask == 0 &&
    a.lcmask &&& b.lcmask == 0 && a.tmask &&& b.tmask == 0

def kernelHandle : Instr → BitVec 12
  | .kernel _ knl _ _ _ _ _ _ _ _ => knl
  | .kswap _ knl _ _ => knl
  | _ => 0

/-- The position that a KERNEL would take; none while the engine is not free for it (R207). -/
def kernelSeat (k : CoreSt) (c : Cmd) : Option KPos :=
  match k.eng.primary, k.eng.secondary with
  | none, none => some .primary
  | some r, none =>
    if k.eng.stopped.isSome then none
    else match k.imageOf (kernelHandle c.op) with
      | some i => if r.image.disjoint i then some .secondary else none
      | none => some .secondary
  | _, _ => none

/-- Whether the engine that a command needs is free. -/
def engineFree (k : CoreSt) (c : Cmd) : Bool :=
  match engineKind c.op with
  | .pump => (freePump k.table).isSome
  | .gmu => (freePump k.table).isSome && !k.table.any fun o => isServed o && engineKind o.op == .gmu
  | .copy => !k.table.any fun o => isServed o && engineKind o.op == .copy
  | .scan => !k.table.any fun o => isServed o && engineKind o.op == .scan
  | .loader => !k.table.any fun o => (isServed o || o.phase == .moved) && engineKind o.op == .loader
  | .kernel => (kernelSeat k c).isSome
  | .table => true
  | .coll => (freePump k.table).isSome

/-- Whether the commands of a table from a point on hold one that issues: walks the table with the commands before. -/
def olderOf (table : List Cmd) (e : BitVec 6) : List Cmd := table.takeWhile fun c => c.entry != e

/-- Ready but for its engine. -/
def readyIn (k : CoreSt) (c : Cmd) : Bool :=
  let older := olderOf k.table c.entry
  isWaiting c && waitMet k older c && depsMet older c

/-- Whether a command would take the engine before a younger one: the oldest that can issue goes first, and a KERNEL that is
ready holds back every younger KERNEL (R207, R305). -/
def goesFirst (k : CoreSt) (o c : Cmd) : Bool :=
  if isKernel c then isKernel o && readyIn k o
  else if usesPump c then usesPump o && readyIn k o && engineFree k o
  else engineKind o.op == engineKind c.op && engineKind c.op != .table && readyIn k o && engineFree k o

def canIssue (k : CoreSt) (c : Cmd) : Bool :=
  readyIn k c && engineFree k c && !(olderOf k.table c.entry).any fun o => goesFirst k o c

/-! ### Checks at issue -/

def misaligned (va : DWord) (n : Nat) : Bool := va.extractLsb' 48 16 != 0 || va.toNat % n ≠ 0

/-- The tag, the split flag, the transposition, the data handle and the index handle of a Pump command. -/
structure PumpArgs where
  tag : Tag
  split : Bool
  tmode : BitVec 2
  hnd : BitVec 6
  idx : Option (BitVec 6)
  reads : Bool

def pumpArgs : Instr → Option PumpArgs
  | .sload _ tmode tag split _ hnd _ _ => some ⟨tag, split, tmode, hnd, none, true⟩
  | .sstore _ tag split _ hnd _ _ => some ⟨tag, split, 0, hnd, none, false⟩
  | .sgather _ tag _ hnd _ idx _ => some ⟨tag, false, 0, hnd, some idx, true⟩
  | .sscatter _ tag _ hnd _ idx _ => some ⟨tag, false, 0, hnd, some idx, false⟩
  | .sscadd _ tag _ _ hnd _ idx _ => some ⟨tag, false, 0, hnd, some idx, false⟩
  | _ => none

/-- The element tag suits the element size (R320). -/
def tagFits (t : Tag) (split : Bool) (esize : Nat) : Bool :=
  if t == 12 then esize == if split then 8 else 9
  else !split && esize != 9 && (t == 0 || (tagValid t && tagWidth t / 8 == esize))

/-- The checks of R320 and R321. -/
def pumpOk (k : CoreSt) (c : Cmd) (sh : Shape) (x : PumpArgs) : Bool :=
  let n := product sh.recordCounts
  let idxOk := match x.idx with
    | none => sh.dyn == 0
    | some h => match k.handles.read h with
      | none => false
      | some a => n = 0 || 64 + 4 * (n / sh.count 0) ≤ 64 * (farView a).count
  let formOk := match c.op with
    | .sscadd _ tag form _ _ _ _ _ => if form == 0 then tag == 8 else if form == 1 then tag == 4 || tag == 5 else tag == 13
    | _ => true
  let turnOk := x.tmode == 0 || (sh.esize.toNat == x.tmode.toNat && sh.count 0 ≤ 64 && sh.count 1 ≤ 64)
  match k.handles.read x.hnd with
  | none => false
  | some a =>
    idxOk && formOk && turnOk && tagFits x.tag x.split sh.esize.toNat && !misaligned c.addr1 (min sh.esize.toNat 8) &&
      (x.reads || sh.place != 2) && sh.fits x.tag a n

/-- The checks of R325. -/
def copyOk (k : CoreSt) (c : Cmd) (sh : Shape) : Bool :=
  let e := sh.esize.toNat
  let (lo, hi) := sh.span k.widths c.wid
  let top := hi + e - 1
  let d : Int := c.addr1.toNat
  let r : Int := c.addr2.toNat
  sh.dyn == 0 && !misaligned c.addr1 (min e 8) && !misaligned c.addr2 (min e 8) &&
    (product sh.recordCounts = 0 || d + top < r + lo || r + top < d + lo)

/-- The candidates of a SCAN (R326). -/
def candidates (row : Bool) (counts : List Nat) : Nat :=
  if product counts = 0 then 0 else if row then product counts / nth counts 0 1 else product counts

/-- The checks of R326. -/
def scanOk (k : CoreSt) (c : Cmd) (sh : Shape) (tag : Tag) (row : Bool) (src list mask : BitVec 6) : Bool :=
  let n := candidates row sh.recordCounts
  let (lo, hi) := sh.span k.widths c.wid
  match k.handles.read src, k.handles.read list, k.handles.read mask with
  | some a, some l, some m =>
    sh.dyn == 0 && tagValid tag && tag != 12 && tagWidth tag / 8 == sh.esize.toNat &&
      (n = 0 || ((0 : Int) ≤ sh.cbase.toNat + lo && sh.cbase.toNat + hi + sh.esize.toNat ≤ (64 * (farView a).count : Nat))) &&
      64 + 4 * n ≤ 64 * (farView l).count && 8 + 8 * ((n + 63) / 64) ≤ 64 * (farView m).count
  | _, _, _ => false

/-- Whether two rectangles of bank-rows meet. -/
def Alloc.meets (a b : Alloc) : Bool :=
  a.bank < b.bank + b.nbanks && b.bank < a.bank + a.nbanks && a.row < b.row + b.nrows && b.row < a.row + a.nrows

def CoreSt.liveAllocs (k : CoreSt) : List Alloc := k.handles.list.filterMap id

/-- The checks of R260; `limit` is the launch's cistern field. -/
def allocOk (k : CoreSt) (hnd : BitVec 6) (a : Alloc) (limit : Nat) : Bool :=
  (k.handles.read hnd).isNone && a.bank + a.nbanks ≤ Config.banks && a.row + a.nrows ≤ Config.bankRows &&
    !k.liveAllocs.any a.meets &&
    ((k.liveAllocs.filter fun b => b.launch == a.launch).map Alloc.bytes).sum + a.bytes ≤ limit

/-- The rows of a spill rectangle and the lowest place where it fits (R437). -/
def spillRect (k : CoreSt) (spill : Nat) (task launch : Addr) : Option Alloc :=
  let rows := (spill + 383) / 384
  ((List.range (Config.bankRows + 1 - rows)).map fun r => (⟨0, Config.banks, r, rows, task, launch⟩ : Alloc)).find? fun a =>
    !k.liveAllocs.any a.meets

/-- The checks of R327 and R437. -/
def kernelCheck (k : CoreSt) (c : Cmd) (sh : Shape) : Bool :=
  match c.op, k.imageOf (kernelHandle c.op) with
  | .kernel _ _ _ hA _ _ _ ins _ _, some i =>
    ((cmdIns c.op ++ cmdOuts c.op).all fun h => (k.handles.read h).isSome) &&
      (sh.dyn == 0 || (ins.getLsbD 0 && (k.handles.read hA).isSome)) &&
      (i.spill = 0 || ((k.handles.read 63).isNone && (spillRect k i.spill c.task c.launch).isSome))
  | _, _ => false

/-! ### Kernels start (R43, R207, R437) -/

/-- The kernel-start values of a primary: everything but the scale table and cfg (R40, R42, R171). -/
def Cluster.primaryStart (old : Cluster) (c : ClusterId) (wid : DWord) : Cluster :=
  { Cluster.reset with
    a := (Cluster.reset.a.write 0 wid).write 1 (zext c)
    st := old.st
    cfg := old.cfg }

/-- Values of `start` in the registers that a mask names. -/
def startIn {w : Nat} {α : Type} {m : Nat} (mask : BitVec m) (old start : Bank w α) : Bank w α :=
  Bank.ofFn fun i => if mask.getLsbD i.toNat then start.read i else old.read i

/-- The kernel-start values of a secondary, only in its footprint (R207). -/
def Cluster.secondaryStart (old : Cluster) (i : KImage) (c : ClusterId) (wid : DWord) : Cluster :=
  let start := old.primaryStart c wid
  { old with
    a := startIn i.amask old.a start.a
    v := startIn i.vmask old.v start.v
    t := startIn i.tmask old.t start.t
    acc := startIn i.accmask old.acc start.acc
    p := startIn i.pmask old.p start.p
    q := startIn i.qmask old.q start.q
    m := startIn i.mmask old.m start.m
    lc := Vector.ofFn fun n => if i.lcmask.getLsbD n.val then 0 else old.lc[n] }

/-- A kernel at its first bundle. -/
def newRun (handle : BitVec 12) (i : KImage) (entry : BitVec 6) (word0 : DWord) (task launch : Addr) (ins outs : List (BitVec 6))
    (counts : List Nat) (wid widths : DWord) (merge : Option (Addr × BitVec 3)) : KernelRun where
  handle := handle
  image := i
  idx := 0
  kc := 0
  loops := []
  rb := 0
  entry := entry
  word0 := word0
  task := task
  launch := launch
  ins := ins
  outs := outs
  counts := counts
  wid := wid
  widths := widths
  inflight := []
  far := []
  lock := none
  ending := none
  noSnap := false
  skipMatch := false
  merge := merge
  clamp := false
  overflow := false

/-- A kernel takes a position of the engine. -/
def CoreSt.startKernel (k : CoreSt) (pos : KPos) (r : KernelRun) : CoreSt :=
  let k := match pos with
    | .primary =>
      { k with kstat := statusFields k.kstat 1 0 false, kcycle := 0
               clusters := Bank.ofFn fun c => (k.clusters.read c).primaryStart c r.wid }
    | .secondary =>
      { k with kstat2 := statusFields k.kstat2 1 0 false
               clusters := Bank.ofFn fun c => (k.clusters.read c).secondaryStart r.image c r.wid }
  k.setRun pos r

/-- The kernel of a KERNEL command starts, its spill rectangle bound to h63 when its image has one. -/
def CoreSt.launchKernel (k : CoreSt) (c : Cmd) (counts : List Nat) (widths : DWord) : CoreSt :=
  match k.imageOf (kernelHandle c.op), kernelSeat k c with
  | some i, some pos =>
    let rect := if i.spill = 0 then none else spillRect k i.spill c.task c.launch
    let extra : List (BitVec 6) := if rect.isSome then [63] else []
    let k := match rect with
      | some a => { k with handles := k.handles.write 63 (some a) }
      | none => k
    k.startKernel pos (newRun (kernelHandle c.op) i c.entry c.word0 c.task c.launch (cmdIns c.op ++ extra)
      (cmdOuts c.op ++ extra) counts c.wid widths none)
  | _, _ => k

/-! ### Issue (R305, R308) -/

/-- The handle whose count dyn reads (R317). -/
def dynHandle : Instr → Option (BitVec 6)
  | .sgather _ _ _ _ _ idx _ => some idx
  | .sscatter _ _ _ _ _ idx _ => some idx
  | .sscadd _ _ _ _ _ _ idx _ => some idx
  | .kernel _ _ _ hA _ _ _ _ _ _ => some hA
  | _ => none

/-- Whether the count that dyn reads is poisoned: a COMMAND fault, for poison never becomes a value (R382; log 57). -/
def CoreSt.countBad (k : CoreSt) (c : Cmd) (sh : Shape) : Bool :=
  sh.dyn != 0 && ((dynHandle c.op).bind fun h => k.handles.read h).any fun a => ((farView a).units 0 8).any k.cisPoison.contains

/-- The lowest and the highest byte of a command's footprints, less those that an index places (R270, R325). -/
def footprints (k : CoreSt) (x : Cmd) (sh : Shape) : List (Int × Int) :=
  let (lo, hi) := sh.span k.widths x.wid
  let at_ (b : DWord) : Int × Int := (b.toNat + lo, b.toNat + hi + sh.esize.toNat - 1)
  let (a, b) := at_ x.addr1
  if product sh.recordCounts = 0 then []
  else
    match pumpArgs x.op with
    | some p =>
      let scales : Int := x.addr1.toNat + sh.sdisp.toInt
      if p.idx.isSome then [] else if p.split then [(min a (scales + lo / 8), max b (scales + hi / 8))] else [(a, b)]
    | none => if engineKind x.op == .copy then [(a, b), at_ x.addr2] else if engineKind x.op == .coll then [(a, b)] else []

/-- A command that has issued is translated once where its footprint allows it (R270). -/
def State.openWindows (s : State) (c : CoreId) (e : BitVec 6) : State :=
  match (s.core c).cmd e, s.partOf c with
  | some x, some p =>
    let ws := match x.shape with
      | some sh => (footprints (s.core c) x sh).filterMap fun f => s.window p f.1 f.2
      | none => []
    if ws.isEmpty then s else s.modCmd c e fun y => { y with windows := ws }
  | _, _ => s

/-- The effective counts at issue. -/
def CoreSt.countsOf (k : CoreSt) (c : Cmd) (sh : Shape) : List Nat :=
  if sh.dyn == 0 then sh.recordCounts
  else match (dynHandle c.op).bind fun h => k.handles.read h with
    | some a => sh.effective (k.farNat a 0 8)
    | none => sh.recordCounts

/-- A command becomes active over `total` elements, or is done at once. -/
def CoreSt.activate (k : CoreSt) (c : Cmd) (sh : Option Shape) (counts : List Nat) (total : Nat) : CoreSt :=
  k.modCmd c.entry fun x =>
    { x with shape := sh, counts := counts, total := total, engine := if usesPump c then freePump k.table else none }.moveOn

/-- What an issued command begins; none is a COMMAND fault. -/
def State.begin (s : State) (c : CoreId) (x : Cmd) : Option State :=
  let k := s.core c
  let sh : Option Shape := (cmdShape x.op).bind fun n => k.shapes.read n
  let put (k : CoreSt) : Option State := some (s.setCore c k)
  if x.hdr.cnt && misaligned x.ctr 8 then none
  else
    match x.op, sh with
    | .shape _ _ _ _, _ => if misaligned x.addr1 64 then none else put (k.activate x none [] 1)
    | .salloc _ hnd bank nbanks row nrows, _ =>
      let a : Alloc := ⟨bank.toNat, nbanks.toNat, row.toNat, nrows.toNat, x.task, x.launch⟩
      let limit := match s.partOf c with
        | some p => s.readIn p (x.launch.toNat + 32) 3
        | none => 0
      if !allocOk k hnd a limit || (s.partOf c).any (fun p => s.poisonedIn p x.launch.toNat 64) then none
      else
        let s := s.setCore c ({ k with handles := k.handles.write hnd (some a) }.activate x none [] 1)
        match s.partOf c with
        | some p => some (s.setRecFlag p x.task flagCis true)
        | none => some s
    | .sfree _ hnd, _ =>
      match k.handles.read hnd with
      | some a =>
        if a.holder != x.task then none
        else
          let k := { k with handles := k.handles.write hnd none }.activate x none [] 0
          let s := s.setCore c k
          match s.partOf c with
          | some p => some (if k.holdsHandle x.task then s else s.setRecFlag p x.task flagCis false)
          | none => some s
      | none => none
    | .smark _ _, _ => put (k.activate x none [] 0)
    | .kswap _ knl _ _, _ => if (k.imageOf knl).isNone then none else put (k.activate x none [] 1)
    | .scopy _ _ _ _, some sh =>
      if copyOk k x sh then put (k.activate x sh sh.recordCounts (product sh.recordCounts)) else none
    | .scan _ tag _ row src list _ mask _, some sh =>
      if scanOk k x sh tag row src list mask then put (k.activate x sh sh.recordCounts (candidates row sh.recordCounts)) else none
    | .kernel _ _ _ _ _ _ _ _ _ _, some sh =>
      if kernelCheck k x sh && !k.countBad x sh then
        let counts := k.countsOf x sh
        put ((k.launchKernel x counts k.widths).modCmd x.entry fun y => { y with phase := .active, shape := some sh, counts := counts })
      else none
    | op, some sh =>
      match pumpArgs op with
      | some a => if pumpOk k x sh a && !k.countBad x sh then let n := k.countsOf x sh; put (k.activate x sh n (product n)) else none
      | none => none
    | _, none => none

/-- An issue consumes its wait, and lets the task behind an .acq command go on (R307, R309). -/
def State.consume (s : State) (c : CoreId) (x : Cmd) : State :=
  let h := x.hdr
  let s := s.modCore c fun k =>
    { k with sem := if h.waitSm == 0 then k.sem else k.sem.modify h.waitSm fun n => n - zext16 h.threshold
             hold := if k.hold == some x.entry then none else k.hold
             holdSys := if k.holdSys == some x.entry then none else k.holdSys }
  match s.partOf c with
  | some p => if acquires h.order && s.waits p x.task 1 then s.wake p x.task none else s
  | none => s
where zext16 (n : BitVec 8) : BitVec 16 := n.setWidth 16

/-! ### Completion (R312, R333, R335) -/

/-- Queue a notification; a full list drops the oldest of the same task, or of any (R335). -/
def CoreSt.notify (k : CoreSt) (n : Notif) : CoreSt :=
  if k.notifs.length < Config.notifications then { k with notifs := k.notifs ++ [n] }
  else
    let rest := if k.notifs.any fun x => x.task == n.task then removeFirst (fun x => x.task == n.task) k.notifs
      else k.notifs.drop 1
    { k with notifs := rest ++ [n], ovf := true }

/-- Where a counter-add goes and the value that it adds to; none when it is refused, an error when it does not translate. The
counter of a host address is the one that the host has answered (R417). -/
def State.counterAt (s : State) (c : CoreId) (x : Cmd) : Except Byte (Option (Nat × Nat × State)) :=
  match s.resolve c true x.ctr.toNat .store with
  | .error e => .error e
  | .ok (pa, s') =>
    if isHost pa then
      let bs := pieceBytes x.asked
      .ok (if bs.any (·.2) then none else some (pa, ofBytesLE (bs.map (·.1)), s'))
    else if s'.tagged pa || s'.poisoned pa 8 then .ok none else .ok (some (pa, s'.readPhys pa 8, s'))

/-- The counter that the host is still to be asked for. -/
def State.counterAsk (s : State) (c : CoreId) (x : Cmd) : Option Nat :=
  match s.resolve c true x.ctr.toNat .store with
  | .ok (pa, _) => if isHost pa && x.asked.isEmpty then some pa else none
  | .error _ => none

/-- The steps of completion after the counter-add's place is known. -/
def State.finish (s : State) (c : CoreId) (x : Cmd) (add : Option (Nat × Nat × State)) : State :=
  let h := x.hdr
  match (s.core c).signal h.signalSm h.increment with
  | none => s.fatal c x ccOverflow
  | some _ =>
    let s := match add with
      | some (pa, n, s') => s'.putPhys pa 8 ((n + 1) % 2 ^ 64)
      | none => s
    let st := x.status
    let s := s.modCore c fun k =>
      let k := (k.signal h.signalSm h.increment).getD k
      let k := if h.ntf then k.notify ⟨x.task, x.word0, st⟩ else k
      let k := if x.cause == 0 then k else { k with cerr := st }
      if x.kend == 3 then k.pend (mkTrap cKtrap (zext x.code) x.word0 x.task) else k
    s.dropCmd c x

/-- A command whose work is done completes. -/
def State.complete (s : State) (c : CoreId) (x : Cmd) : State :=
  if x.hdr.cnt then
    match s.counterAsk c x with
    | some pa => s.askHost c x [.host pa 8]
    | none =>
      match s.counterAt c x with
      | .error e => s.stopCmd c x e x.ctr
      | .ok none => s.fatal c x ccCounter
      | .ok add => s.finish c x add
  else s.finish c x none

/-- Whether a core of the partition still waits for room for an image of a handle; the next KSWAP's image of that handle is held meanwhile,
for each of them must come to stand in every core (R328; log 47). -/
def State.swapPending (s : State) (c : CoreId) (knl : BitVec 12) : Bool := (s.peers c).any fun d => (s.core d).storePending.any fun y => y.1 == knl

/-- Whether every core of the partition holds the image that a KSWAP brought (R328). -/
def State.swapHeld (s : State) (c : CoreId) (x : Cmd) : Bool :=
  match x.op with
  | .kswap _ knl _ _ => !s.swapPending c knl
  | _ => true

/-- Whether a core's units serve commands: it is neither stopped (R358, R424) nor halted for a swap (R370). -/
def CoreSt.serving (k : CoreSt) : Bool := k.halt.isNone && !k.swapHalted

/-- COMMAND_COMPLETION. -/
def execCommandCompletion (c : CoreId) (entry : BitVec 6) (s : State) : Out :=
  match (s.core c).cmd entry with
  | some x => .next (if x.phase == .moved && s.swapHeld c x && (s.core c).serving then s.complete c x else s)
  | none => .next s

/-- ACQ_COMMAND_TIMEOUT: the task behind a held .acq command suspends with wait kind 1 (R309). -/
def execAcqCommandTimeout (c : CoreId) (s : State) : Out :=
  let k := s.core c
  match k.hold.bind k.cmd with
  | some x =>
    if isWaiting x && k.running.isSome && !k.sys then
      let s := s.modCore c fun k => { k with hold := none }
      .next (s.suspend c stWaiting 1 (x.hdr.waitSm.setWidth 48) 0 k.pc 0)
    else .next s
  | none => .next s

end Sys2Proof.Machine
end

