-- ==== Sys2Proof/Machine/Fabric.lean ====
section
/-! DEFINITION. The fabric: packets and paths, groups, collectives and transactions (R398 to R414). -/

namespace Sys2Proof.Machine

/-! ### Peers and paths (R399, R401) -/

def State.devid (s : State) : BitVec 16 := s.host.devid.extractLsb' 0 16

/-- Whether the peer table names a device; a poisoned entry names none (log 65). -/
def State.peerValid (s : State) (d : BitVec 16) : Bool :=
  let base := 2 ^ 21 * (s.host.fabtab.extractLsb' 21 27).toNat
  base ≠ 0 && !s.poisoned (base + 32 * d.toNat) 32 && bitOf (s.readPhys (base + 32 * d.toNat + 20) 1) 0

def PathSt.is (peer : BitVec 16) (path : BitVec 4) (x : PathSt) : Bool := x.peer == peer && x.path == path
def State.path (s : State) (peer : BitVec 16) (path : BitVec 4) : PathSt :=
  (s.paths.find? (PathSt.is peer path)).getD ⟨peer, path, 0, [], [], 0, false⟩
def State.setPath (s : State) (x : PathSt) : State :=
  { s with paths := x :: s.paths.filter fun y => !y.is x.peer x.path }

/-- The entropy values, each a path to a peer (R399, R401). -/
def allPaths : List (BitVec 4) := (List.range 16).map (BitVec.ofNat 4)

/-- The paths to a peer that are still in service, in an order that nothing fixes (log 2). -/
def State.pathsTo (s : State) (peer : BitVec 16) : List (BitVec 4) :=
  let start := (Config.freeValue s.tick).extractLsb' 0 4
  (allPaths.map fun n => start + n).filter fun n => !(s.path peer n).retired

def State.reachable (s : State) (peer : BitVec 16) : Bool := s.peerValid peer && !(s.pathsTo peer).isEmpty

/-- Send a message on one path of a peer. -/
def State.sendOn (s : State) (peer : BitVec 16) (m : FabMsg) (n : BitVec 4) : State :=
  let x := s.path peer n
  let k : Packet := ⟨peer, n, x.nextSeq, m⟩
  { s.setPath { x with nextSeq := x.nextSeq + 1, unacked := x.unacked ++ [(k, 0)] } with fabOut := s.fabOut ++ [k] }

/-- Send a message to a peer on a path, or on every path; one that cannot be reached gets none. -/
def State.sendFab (s : State) (peer : BitVec 16) (m : FabMsg) (every : Bool := false) : State :=
  if !s.peerValid peer then s
  else
    let ns := s.pathsTo peer
    (if every then ns else ns.take 1).foldl (fun s n => s.sendOn peer m n) s

/-! ### Groups (R405) -/

/-- A member: its device and its core. -/
abbrev Member := BitVec 16 × CoreId

/-- Whether a member stands in a list twice. -/
def repeats : List Member → Bool
  | [] => false
  | m :: ms => ms.contains m || repeats ms

/-- The members of a partition's group by rank; none for an invalid descriptor, or a poisoned one or list (log 65). -/
def State.group (s : State) (p : PartId) (g : BitVec 4) : Option (List Member) :=
  let base := 1024 * ((s.part p).cgroup.extractLsb' 10 38).toNat
  let at_ := base + 64 * g.toNat
  let w0 := s.read64 at_
  let w1 := s.read64 (at_ + 8)
  let n := (w0.extractLsb' 0 16).toNat
  let entries := (List.range n).map fun i => s.read64 ((w1.extractLsb' 0 48).toNat + 8 * i)
  let members := entries.map fun e => (e.extractLsb' 0 16, e.extractLsb' 16 7)
  let reserved := w0.extractLsb' 17 47 != 0 || w1.extractLsb' 48 16 != 0 || w1.extractLsb' 0 3 != 0 ||
    s.readPhys (at_ + 16) 48 != 0 || entries.any fun e => e.extractLsb' 23 41 != 0
  let poison := s.poisoned at_ 64 || s.poisoned (w1.extractLsb' 0 48).toNat (8 * n)
  if poison || !w0.getLsbD 16 || n == 0 || decide (4096 < n) || reserved || repeats members then none else some members

/-- The rank of a party. -/
def rankOf (ms : List Member) (m : Member) : Option Nat := (ms.zip (List.range ms.length)).find? (fun x => x.1 == m) |>.map (·.2)
def State.rankIn (s : State) (ms : List Member) (c : CoreId) : Option Nat := rankOf ms (s.devid, c)

/-- The partitions of this device that hold members of a group (R405: a member is a device and a core). -/
def State.homeParts (s : State) (ms : List Member) : List PartId :=
  ((ms.filter fun m => m.1 == s.devid).filterMap fun m => s.partOf m.2).eraseDups
/-- The ranks whose cores a partition holds. -/
def State.ranksOf (s : State) (p : PartId) (ms : List Member) : List Nat :=
  (List.range ms.length).filter fun r => (ms[r]?).any fun m => m.1 == s.devid && s.partOf m.2 == some p
/-- The members on other devices. -/
def State.farMembers (s : State) (ms : List Member) : List Member := ms.filter fun m => m.1 != s.devid

/-- The other devices of a group. -/
def State.otherDevices (s : State) (ms : List Member) : List (BitVec 16) := ((ms.map (·.1)).filter (· != s.devid)).eraseDups

/-! ### Collectives (R406 to R409) -/

/-- The operation, combine and group of a COLL. -/
def collArgs : Instr → Option (BitVec 4 × BitVec 4 × BitVec 4)
  | .collAllred _ _ comb _ grp _ => some (0, comb, grp)
  | .collRedsc _ _ comb _ grp _ => some (1, comb, grp)
  | .collAllgat _ _ comb _ grp _ => some (2, comb, grp)
  | .collBcast _ _ comb _ grp _ => some (3, comb, grp)
  | _ => none

/-- The element sizes that suit a combine (R408). -/
def combineFits (comb : BitVec 4) (esize : Nat) : Bool :=
  match comb with
  | 0#4 => esize == 8
  | 1#4 => esize == 4
  | 2#4 => esize == 4 || esize == 8
  | 3#4 => esize == 4 || esize == 8
  | _ => esize != 9

/-- What a COLL begins at issue; none is a COMMAND fault (R406). -/
def State.beginColl (s : State) (c : CoreId) (x : Cmd) : Option State :=
  let k := s.core c
  match collArgs x.op, (cmdShape x.op).bind fun n => k.shapes.read n, s.partOf c with
  | some (op, comb, grp), some sh, some p =>
    match s.group p grp with
    | none => none
    | some ms =>
      let n := product sh.recordCounts
      let esize := sh.esize.toNat
      let ok := (s.rankIn ms c).isSome && sh.dyn == 0 && (if op.toNat < 2 then combineFits comb esize else comb == 0) &&
        (op == 0 || op == 3 || n % ms.length = 0) && !misaligned x.addr1 (min esize 8) && !(x.hdr.cnt && misaligned x.ctr 8)
      if !ok then none
      else
        let k := k.activate x sh sh.recordCounts (if ms.length = 1 then 0 else 2)
        let k := k.modCmd x.entry fun y => { y with seq := k.groupSeq.read grp, rank := s.rankIn ms c }
        some (s.setCore c { k with groupSeq := k.groupSeq.modify grp (· + 1) })
  | _, _, _ => none

def CollSt.is (p : PartId) (g : BitVec 4) (seq : BitVec 32) (x : CollSt) : Bool := x.part == p && x.group == g && x.seq == seq
def State.coll (s : State) (p : PartId) (g : BitVec 4) (seq : BitVec 32) : Option CollSt := s.colls.find? (CollSt.is p g seq)

/-- A contribution arrives: it opens the collective, joins it, or shows a mismatch (R409). -/
def State.contribute (s : State) (p : PartId) (g : BitVec 4) (seq : BitVec 32) (members rank : Nat) (op comb : BitVec 4) (n esize : Nat)
    (data : List (Byte × Bool)) : State :=
  match s.coll p g seq with
  | none => { s with colls := s.colls ++ [⟨p, g, seq, op, comb, n, esize, members, [(rank, data)], false, false⟩] }
  | some x =>
    if x.given.any fun y => y.1 = rank then s
    else
      let y := { x with given := x.given ++ [(rank, data)]
                        mismatch := x.mismatch || x.op != op || x.comb != comb || x.n != n || x.esize != esize }
      { s with colls := replaceFirst (CollSt.is p g seq) (fun _ => y) s.colls }

/-- The address of a buffer's element. -/
def bufferAt (k : CoreSt) (x : Cmd) (sh : Shape) (n : Nat) : DWord :=
  x.addr1 + BitVec.ofInt 64 (sh.sum k.widths x.wid 0 (digits sh.recordCounts n))

/-- The elements that rank `k` of `m` gives to an operation over `n`. -/
def givenBy (op : BitVec 4) (n m k : Nat) : List Nat :=
  match op with
  | 2#4 => (List.range (n / m)).map fun i => k * (n / m) + i
  | 3#4 => if k = 0 then List.range n else []
  | _ => List.range n

/-- The pieces in memory of elements of a buffer. -/
def bufferPieces (k : CoreSt) (x : Cmd) (sh : Shape) (ns : List Nat) : List (DWord × Nat) :=
  ns.flatMap fun n => pieces (bufferAt k x sh n) 3 sh.esize.toNat

/-- The bytes of `n` elements, each byte with the poison of its element (R331). -/
def elemBytes (esize n : Nat) (bs : List (Byte × Bool)) : List (Byte × Bool) :=
  (List.range n).flatMap fun i =>
    let e := (bs.drop (esize * i)).take esize
    e.map fun y => (y.1, e.any (·.2))

/-- One element of a combine: bytes, poison, whether an anchored add clamped. -/
def combineElem (comb : BitVec 4) (x y : List (Byte × Bool)) : List (Byte × Bool) × Bool :=
  let n := x.length
  let a : DWord := BitVec.ofNat 64 (ofBytesLE (x.map (·.1)))
  let b : DWord := BitVec.ofNat 64 (ofBytesLE (y.map (·.1)))
  let signed (v : DWord) : Int := toSigned (8 * n) v.toNat
  let (r, sat) : DWord × Bool := match comb with
    | 0#4 => ancAdd a b
    | 1#4 => atomElem 1 a b 0
    | 2#4 => (if signed a < signed b then b else a, false)
    | 3#4 => (if signed b < signed a then b else a, false)
    | 4#4 => (a ||| b, false)
    | _ => (a &&& b, false)
  let bad := x.any (·.2) || y.any (·.2)
  ((bytesLE n r.toNat).map fun z => (z, bad), sat)

/-- Element `i` of a contribution that holds elements from `first` on. -/
def elemIn (esize first i : Nat) (data : List (Byte × Bool)) : List (Byte × Bool) := (data.drop (esize * (i - first))).take esize

/-- A combine of elements in some order and grouping: `pick` names, at each joining, the two that join (R408: the grouping follows
paths and arrival, which nothing fixes). -/
def foldFree (comb : BitVec 4) (pick : Nat → Nat) : Nat → List (List (Byte × Bool)) → List (Byte × Bool) × Bool
  | n + 1, x :: y :: zs =>
    let xs := x :: y :: zs
    let i := pick (2 * n) % xs.length
    let rest := xs.eraseIdx i
    let j := pick (2 * n + 1) % rest.length
    let (r, sat) := combineElem comb (xs.getD i []) (rest.getD j [])
    let (t, sat') := foldFree comb pick n (r :: rest.eraseIdx j)
    (t, sat || sat')
  | _, xs => (xs.headD [], false)

/-- The combine of element `i` over all contributions, in the grouping of one step (R408; log 44). -/
def CollSt.reduce (x : CollSt) (tick i : Nat) : List (Byte × Bool) × Bool :=
  foldFree x.comb (Config.grouping tick i) x.given.length (x.given.map fun y => elemIn x.esize 0 i y.2)

def CollSt.of (x : CollSt) (rank : Nat) : List (Byte × Bool) := ((x.given.find? fun y => y.1 = rank).map (·.2)).getD []

/-- What a rank writes: element numbers with their bytes, and whether an anchored add clamped (R407). -/
def CollSt.results (x : CollSt) (tick rank : Nat) : List (Nat × List (Byte × Bool) × Bool) :=
  let m := x.n / x.members
  match x.op with
  | 0#4 => (List.range x.n).map fun i => (i, x.reduce tick i)
  | 1#4 => (List.range m).map fun i => (rank * m + i, x.reduce tick (rank * m + i))
  | 2#4 => ((List.range x.members).filter (· != rank)).flatMap fun j =>
      (List.range m).map fun i => (j * m + i, elemIn x.esize (j * m) (j * m + i) (x.of j), false)
  | _ => if rank = 0 then [] else (List.range x.n).map fun i => (i, elemIn x.esize 0 i (x.of 0), false)

/-- Write results; the command gathers their errors: a write into a live tagged block is skipped, whatever it holds (R407). -/
def State.writeElems (s : State) (c : CoreId) (x : Cmd) (sh : Shape) :
    List (Nat × List (Byte × Bool) × Bool) → Except (Byte × DWord) (State × Cmd)
  | [] => .ok (s, x)
  | (n, bs, sat) :: rest =>
    match s.places c x (pieces (bufferAt (s.core c) x sh n) 3 sh.esize.toNat) with
    | .error e => .error e
    | .ok (ps, s') =>
      let bad := bs.any (·.2)
      let x := { x with sat := x.sat || sat }
      if ps.any fun q => s'.tagged q.1 then s'.writeElems c (x.err ccTagged n 1) sh rest
      else (s'.putPieces bad ps (bs.map (·.1))).writeElems c (x.err ccPoison n (if bad then 1 else 0)) sh rest

/-- The commands of a partition: in the tables of its cores, and in the contexts of its teams that have been swapped out. -/
def State.commandsOf (s : State) (p : PartId) : List Cmd :=
  ((s.coresOf p).flatMap fun c => (s.core c).table) ++ (s.teamsOf p).flatMap fun t => t.saved.flatMap fun x => x.core.table

/-- Collectives that every member has given to and no command of the partition still needs are forgotten. -/
def State.tidyColls (s : State) : State :=
  let needed (x : CollSt) : Bool := (s.commandsOf x.part).any fun y =>
    isServed y && y.seq == x.seq && (collArgs y.op).any fun a => a.2.2 == x.group
  { s with colls := s.colls.filter fun x => x.given.length < x.members || needed x }

/-- One step of a COLL: its contribution, then, once every member has given, its results; as the member that its core was at its issue, on
whatever core its team now runs (R203, R407). -/
def State.collStep (s : State) (c : CoreId) (x : Cmd) : State :=
  match collArgs x.op, x.shape, s.partOf c with
  | some (op, comb, grp), some sh, some p =>
    match s.group p grp with
    | none => s
    | some ms =>
      let rank := x.rank.getD 0
      let n := product sh.recordCounts
      let st := s.coll p grp x.seq
      if st.any (·.mismatch) then (s.fatal c x ccGroup).tidyColls
      else if (st.any (·.unreachable)) || (s.otherDevices ms).any fun d => !s.reachable d then (s.fatal c x ccPath).tidyColls
      else if x.pos = 0 then
        let mine := givenBy op n ms.length rank
        let esize := sh.esize.toNat
        s.readingBytes c x (bufferPieces (s.core c) x sh mine) fun bs =>
          let data := elemBytes esize mine.length bs
          let s := (s.homeParts ms).foldl (fun s q => s.contribute q grp x.seq ms.length rank op comb n esize data) s
          let s := (s.farMembers ms).foldl (fun s m => s.sendFab m.1 (.collIssue m.2 grp x.seq rank op comb n esize data)) s
          s.modCmd c x.entry fun y => { y with pos := 1, asked := [], phase := .active }
      else
        match st with
        | none => s
        | some st =>
          if st.given.length < st.members then s
          else
            match s.writeElems c x sh (st.results s.tick rank) with
            | .error (e, va) => s.stopCmd c x e va
            | .ok (s', x') => (s'.modCmd c x.entry fun _ => { x' with pos := 2 }.moveOn).tidyColls
  | _, _, _ => s

/-! ### Transactions (R410 to R414) -/

/-- The status word of XBEGIN, XCOMMIT and XABORT (R410). -/
def txnStatus (code reason : Byte) : DWord := code ++ (0 : BitVec 48) ++ reason

def TxnSt.is (x : TxnName) (t : TxnSt) : Bool := t.name == x
def newTxn (x : TxnName) : TxnSt := ⟨x, [], [], none, none, 0, [], [], false, [], []⟩

/-- What a partition knows of a transaction. -/
def State.txn (s : State) (p : PartId) (x : TxnName) : Option TxnSt := (s.part p).txns.find? (TxnSt.is x)
def State.modTxn (s : State) (p : PartId) (x : TxnName) (f : TxnSt → TxnSt) : State :=
  s.modPart p fun y => { y with txns := replaceFirst (TxnSt.is x) f y.txns }

/-- A partition opens its knowledge of a transaction. -/
def State.openTxn (s : State) (p : PartId) (x : TxnName) : State :=
  if (s.txn p x).isSome then s else s.modPart p fun y => { y with txns := y.txns ++ [newTxn x] }

def dropStaged (x : TxnName) (ws : List Staged) : List Staged := ws.filter fun w => w.name != x

/-- The members of a transaction's group, and its coordinator, the member of rank 0 (R411). -/
def State.txnMembers (s : State) (p : PartId) (x : TxnName) : List Member := (s.group p x.group).getD []
def State.coordOf (s : State) (p : PartId) (x : TxnName) : Option Member := (s.txnMembers p x).head?

/-- What a partition notes of the ways that a transaction goes: links of the device, and paths to a peer (R410). -/
def TxnSt.carriedBy (links : List Link) (paths : List (BitVec 16 × BitVec 4)) (t : TxnSt) : TxnSt :=
  { t with links := (links ++ t.links).eraseDups, paths := (t.paths ++ paths).eraseDups }

/-- A message of a transaction goes from one die of the device to another, over the path of the mesh that R395 chooses. -/
def State.overMesh (s : State) (p : PartId) (x : TxnName) (a b : DieId) : State :=
  if a == b then s else s.modTxn p x (TxnSt.carriedBy ((s.choosePath a b).toList.map (Link.mesh a b)) [])

/-- A message of a transaction leaves die `a` for a peer, over the link of the die to the I/O die. -/
def State.sendTxn (s : State) (p : PartId) (x : TxnName) (a : DieId) (peer : BitVec 16) (m : FabMsg) (every : Bool := false) : State :=
  let ns := if every then s.pathsTo peer else (s.pathsTo peer).take 1
  (s.modTxn p x (TxnSt.carriedBy [.io a] (ns.map fun n => (peer, n)))).sendFab peer m every

/-- The die of the core of a rank. -/
def State.dieOfRank (s : State) (p : PartId) (x : TxnName) (rank : Nat) : DieId := (((s.txnMembers p x)[rank]?).map fun m => dieOf m.2).getD 0

/-- A message to the coordinator from die `a`: taken in at its partition when it is of this device, sent to it when it is not. -/
def State.toCoord (s : State) (p : PartId) (x : TxnName) (a : DieId) (here : PartId → State → State) (m : CoreId → FabMsg)
    (every : Bool := false) : State :=
  match s.coordOf p x with
  | none => s
  | some (dev, core) =>
    if dev == s.devid then
      match s.partOf core with
      | some q => here q ((s.overMesh p x a (dieOf core)).openTxn q x)
      | none => s
    else s.sendTxn p x a dev (m core) every

/-- A transaction that has no decision yet is doomed; the first reason stands. -/
def TxnSt.doomed (reason : Byte) (t : TxnSt) : TxnSt := if t.decision.isSome then t else { t with doom := some (t.doom.getD reason) }
def State.doomAt (s : State) (p : PartId) (x : TxnName) (reason : Byte) : State := s.modTxn p x (TxnSt.doomed reason)
/-- A write of a transaction fails at its target, or what carried it is gone: its coordinator learns the reason (R410). -/
def State.doom (s : State) (p : PartId) (x : TxnName) (member target nth : Nat) (reason : Byte) : State :=
  s.toCoord p x (s.dieOfRank p x target) (fun q s => s.doomAt q x reason) fun core => .staged core x member target nth (some reason)

/-- A staged write is acknowledged, once. -/
def State.ackAt (s : State) (p : PartId) (x : TxnName) (member target nth : Nat) : State :=
  s.modTxn p x fun t => { t with acked := (t.acked ++ [(member, target, nth)]).eraseDups }
def State.ackStaged (s : State) (p : PartId) (w : Staged) : State :=
  s.toCoord p w.name (s.dieOfRank p w.name w.target) (fun q s => s.ackAt q w.name w.member w.target w.nth) fun core =>
    .staged core w.name w.member w.target w.nth none

/-- A member's vote, with the number of writes that it has sent. -/
def TxnSt.voted (rank sent : Nat) (commit : Bool) (t : TxnSt) : TxnSt :=
  if !commit then t.doomed 1 else if t.votes.any (fun v => v.1 = rank) then t else { t with votes := t.votes ++ [(rank, sent)] }
def State.vote (s : State) (p : PartId) (x : TxnName) (rank sent : Nat) (commit : Bool) : State :=
  s.toCoord p x (s.dieOfRank p x rank) (fun q s => s.modTxn q x (TxnSt.voted rank sent commit)) fun core => .vote core x rank sent commit

/-- The outcome becomes known to the tasks of a partition, those of teams that have been swapped out too (R412, R413). -/
def State.releaseTxn (s : State) (p : PartId) (x : TxnName) (commit : Bool) (reason : Byte) : State :=
  let mine (t : OpenTxn) : Bool := t.name == x && t.voted
  let close (k : CoreSt) : CoreSt := { k with txns := k.txns.filter fun t => !mine t }
  let held := ((s.coresOf p).flatMap fun c => (s.core c).txns) ++ (s.teamsOf p).flatMap fun t => t.saved.flatMap fun y => y.core.txns
  let waiting := (held.filter mine).map fun t => (p, t.task)
  let s := (s.modTxn p x fun t => { t with finished := true }).eachCore fun c k => if mapHas s.pmaps p c then close k else k
  let closeIn (t : Team) : Team := if t.part == p then { t with saved := t.saved.map fun y => { y with core := close y.core } } else t
  let s := { s with teams := s.teams.map closeIn }
  s.wakeSet waiting (some (if commit then txnStatus 1 0 else txnStatus 2 reason))

/-- The coordinator finishes once every member's target has applied or discarded; every member learns it. -/
def State.tryFinish (s : State) (p : PartId) (x : TxnName) : State :=
  let ms := s.txnMembers p x
  match s.txn p x with
  | none => s
  | some t =>
    match t.decision with
    | none => s
    | some commit =>
      if t.finished || !(List.range ms.length).all fun r => t.done.contains r then s
      else
        let s := (s.farMembers ms).foldl (fun s m => s.sendTxn p x (s.dieOfRank p x 0) m.1 (.finished m.2 x) true) s
        (s.homeParts ms).foldl (fun s q => s.releaseTxn q x commit (t.doom.getD 0)) s

/-- Members' targets have applied or discarded. -/
def State.doneAt (s : State) (p : PartId) (x : TxnName) (ranks : List Nat) : State :=
  (s.modTxn p x fun t => { t with done := (t.done ++ ranks).eraseDups }).tryFinish p x
/-- A partition has applied or discarded a transaction: so have the ranks whose cores it holds, and the coordinator learns it over
every path (R413). -/
def State.reportDone (s : State) (p : PartId) (x : TxnName) : State :=
  let ranks := s.ranksOf p (s.txnMembers p x)
  let s := s.modTxn p x fun t => { t with done := (t.done ++ ranks).eraseDups }
  ranks.foldl (fun s r => s.toCoord p x (s.dieOfRank p x r) (fun q s => s.doneAt q x [r]) (fun core => .applied core x r) true) s

/-- An abort discards the transaction's staging. -/
def State.discard (s : State) (p : PartId) (x : TxnName) : State :=
  s.modPart p fun y => { y with staging := dropStaged x y.staging, incoming := dropStaged x y.incoming }

/-- A decision reaches a partition, once: its place among those that did, and, of an abort, the discard (R413, R414). -/
def State.decided (s : State) (p : PartId) (x : TxnName) (commit : Bool) (reason : Byte) : State :=
  let s := s.openTxn p x
  if ((s.txn p x).bind (·.decision)).isSome then s
  else
    let n := (s.part p).decided
    let s := (s.modTxn p x fun t =>
      { t with decision := some commit, order := n, doom := if commit then t.doom else some reason }).modPart p fun y =>
      { y with decided := n + 1 }
    if commit then s else (s.discard p x).reportDone p x

/-- The rank of the active core in a group. -/
def State.self? (s : State) (ms : List Member) : Option Nat := s.rankIn ms s.active

def CoreSt.txnOf (k : CoreSt) (r : Addr) : Option OpenTxn := k.txns.find? fun t => t.task == r
/-- The task's transaction closes on it. -/
def State.closeTxn (s : State) (r : Addr) : State := s.modCur fun k => { k with txns := k.txns.filter fun o => o.task != r }

/-- XBEGIN (R411): the core's next transaction on its group (R405), as the member that the core is. Where no task runs there is none to open
it on, and BADARG answers: DESIGN CHOICE, log 97. -/
def execXbegin (d a : BitVec 5) (s : State) : Out :=
  let ga := s.g a
  let id : BitVec 32 := ga.extractLsb' 0 32
  let g : BitVec 4 := ga.extractLsb' 32 4
  match s.self with
  | none => .next (s.result d (txnStatus 5 0))
  | some (p, r) =>
    if (s.cur.txnOf r).isSome then .next (s.result d (txnStatus 3 0))
    else
      match (s.group p g).bind s.self? with
      | none => .next (s.result d (txnStatus 5 0))
      | some me =>
        if ga.extractLsb' 36 28 != 0 || id == 0 then .next (s.result d (txnStatus 5 0))
        else
          let x : TxnName := ⟨id, g, s.cur.txnSeq.read g⟩
          let s := (s.openTxn p x).modCur fun k =>
            { k with txns := k.txns ++ [⟨r, x, me, [], false⟩], txnSeq := k.txnSeq.modify g (· + 1) }
          .next (s.result d (txnStatus 0 0))

/-- A write of a member leaves for a member of this device, over the mesh when its core is on another die (R411). -/
def State.storeHere (s : State) (p q : PartId) (core : CoreId) (w : Staged) : State :=
  ((s.overMesh p w.name (dieOf s.active) (dieOf core)).openTxn q w.name).modPart q fun y => { y with incoming := y.incoming ++ [w] }

/-- XSTORE (R411): a write of the member that began the transaction, on whatever core its task now runs. -/
def execXstore (size : BitVec 2) (d a b : BitVec 5) (s : State) : Out :=
  let va := s.g a
  let fault : Out := .next (s.taskFault (.xstore size d a b))
  match checkAddr va (sizeBytes size) with
  | .error e => .next (s.refuse e)
  | .ok _ =>
    match s.self with
    | none => fault
    | some (p, r) =>
      match s.cur.txnOf r with
      | none => fault
      | some t =>
        match s.group p t.name.group with
        | none => fault
        | some ms =>
          let rank := (s.g d).toNat
          match ms[rank]? with
          | some (dev, core) =>
            let me := t.rank
            let data := s.g b &&& BitVec.ofNat 64 (2 ^ (8 * sizeBytes size) - 1)
            let nth := t.sent.count rank
            let s := s.modCur fun k => { k with txns := k.txns.map fun o => if o.task == r then { o with sent := o.sent ++ [rank] } else o }
            if dev == s.devid then
              match s.partOf core with
              | some q => .next ((s.storeHere p q core ⟨t.name, me, rank, nth, va, size, data⟩).advance)
              | none => .next ((s.doom p t.name me rank nth 5).advance)
            else .next ((s.sendTxn p t.name (dieOf s.active) dev (.xstore core t.name me rank nth va size data)).advance)
          | none => fault

/-- XCOMMIT (R412): the vote is that of the member that began the transaction. -/
def execXcommit (d : BitVec 5) (s : State) : Out :=
  if s.cur.inHandler then .next (s.illegal (.xcommit d))
  else
    match s.self with
    | none => .next (s.result d (txnStatus 4 0))
    | some (p, r) =>
      match s.cur.txnOf r with
      | none => .next (s.result d (txnStatus 4 0))
      | some t =>
        match s.txn p t.name with
        | some x =>
          if x.finished then
            .next ((s.closeTxn r).result d (if x.decision == some true then txnStatus 1 0 else txnStatus 2 (x.doom.getD 0)))
          else
            let s := s.modCur fun k => { k with txns := k.txns.map fun o => if o.task == r then { o with voted := true } else o }
            let s := s.vote p t.name t.rank t.sent.length true
            .next (s.suspendNext stWaiting 8 (t.name.id.setWidth 48) 0 d)
        | none => .next (s.result d (txnStatus 4 0))

/-- XABORT (R412): the vote is that of the member that began the transaction. -/
def execXabort (d : BitVec 5) (s : State) : Out :=
  if s.cur.inHandler then .next (s.illegal (.xabort d))
  else
    match s.self with
    | none => .next (s.result d (txnStatus 4 0))
    | some (p, r) =>
      match s.cur.txnOf r with
      | none => .next (s.result d (txnStatus 4 0))
      | some t =>
        let s := s.vote p t.name t.rank t.sent.length false
        .next ((s.closeTxn r).result d (txnStatus 0 0))

/-- The writes of a member to a target arrive in the order in which it issued them (R414): the next to be taken. -/
def PartSt.nextWrite (y : PartSt) (w : Staged) : Bool :=
  (y.txns.find? (TxnSt.is w.name)).all fun t => w.nth = t.taken.count (w.member, w.target)

/-- XSTORE_STAGE: the oldest incoming write of a partition that is its member's next is staged, or dooms its transaction (R414); one
of a transaction that has been aborted is discarded (R413). Staging changes no memory, so a snapped unit is copied only by the apply. -/
def execXstoreStage (p : PartId) (s : State) : Out :=
  let y := s.part p
  match y.incoming.find? y.nextWrite with
  | none => .next s
  | some w =>
    let s := (s.modPart p fun x => { x with incoming := x.incoming.erase w }).modTxn p w.name fun t =>
      { t with taken := t.taken ++ [(w.member, w.target)] }
    if ((s.txn p w.name).bind (·.decision)).isSome then .next s
    else
      let fail (reason : Byte) : Out := .next (s.doom p w.name w.member w.target w.nth reason)
      if (y.xlimit.extractLsb' 0 24).toNat ≤ y.staging.length then fail 3
      else
        match s.placeIn p w.addr.toNat .store with
        | .error _ => fail 5
        | .ok pa =>
          if isHost pa || s.tagged pa || s.poisoned pa (sizeBytes w.size) then fail 5
          else .next ((s.modPart p fun x => { x with staging := x.staging ++ [w] }).ackStaged p w)

/-- The transactions of a partition with an id, in any of its groups, that a test selects. -/
def State.txnsWith (s : State) (p : PartId) (id : BitVec 32) (f : TxnSt → Bool) : List TxnSt :=
  (s.part p).txns.filter fun t => t.name.id == id && f t
/-- One of them; which, nothing fixes where two groups use one id (log 1). -/
def State.findTxn (s : State) (p : PartId) (id : BitVec 32) (f : TxnSt → Bool) : Option TxnSt :=
  match s.txnsWith p id f with
  | [t] => some t
  | ts => ts[(Config.freeValue s.tick).toNat % ts.length]?
/-- Whether a partition holds the coordinator of a transaction. -/
def State.coordinates (s : State) (p : PartId) (x : TxnName) : Bool :=
  (s.coordOf p x).any fun m => m.1 == s.devid && s.partOf m.2 == some p

/-- Every member has voted to commit and every write that they sent has been acknowledged (R413). -/
def State.allVoted (s : State) (p : PartId) (t : TxnSt) : Bool :=
  (List.range (s.txnMembers p t.name).length).all (fun r => t.votes.any fun v => v.1 = r) && t.acked.length = (t.votes.map (·.2)).sum
/-- Whether a partition holds the coordinator of a transaction that has no decision yet. -/
def State.undecided (s : State) (p : PartId) (t : TxnSt) : Bool := t.decision.isNone && s.coordinates p t.name
/-- Whether the coordinator can decide a transaction now. -/
def State.canDecide (s : State) (p : PartId) (t : TxnSt) : Bool := s.undecided p t && (t.doom.isSome || s.allVoted p t)

/-- TRANSACTION_DECISION: the coordinator decides once (R413). -/
def execTransactionDecision (p : PartId) (id : BitVec 32) (s : State) : Out :=
  match s.findTxn p id (s.canDecide p) with
  | none => .next s
  | some t =>
    let ms := s.txnMembers p t.name
    let (commit, reason) : Bool × Byte := match t.doom with
      | some reason => (false, reason)
      | none => (true, 0)
    let s := (s.farMembers ms).foldl
      (fun s m => s.sendTxn p t.name (s.dieOfRank p t.name 0) m.1 (.decision m.2 t.name commit reason) true) s
    .next ((s.homeParts ms).foldl (fun s q => s.decided q t.name commit reason) s)

/-- TRANSACTION_TIMEOUT: a transaction that its coordinator has not decided is doomed (R410, R413). -/
def execTransactionTimeout (p : PartId) (id : BitVec 32) (s : State) : Out :=
  match s.findTxn p id fun t => s.undecided p t && t.doom.isNone with
  | none => .next s
  | some t => .next (s.doomAt p t.name 4)

/-- Apply one staged write: a snapped unit is copied first, a poisoned block stays poisoned (R414). One that does not perform, its copy
finding the frame pool empty, is held and tried again (R276, R413); so is one whose page translates no longer or whose block has become live
since it was staged: DESIGN CHOICE, log 98. -/
def State.applyStaged (s : State) (p : PartId) (w : Staged) : Option State :=
  match s.resolveIn p w.addr.toNat .store with
  | .error _ => none
  | .ok (pa, s') => if s'.tagged pa then none else some (s'.putPhys pa (sizeBytes w.size) w.data.toNat)

/-- Apply staged writes in order, each after the one before it: the device, and the writes that are still held, the first that does not
perform and all behind it (log 98). -/
def State.applyAll (s : State) (p : PartId) : List Staged → State × List Staged
  | [] => (s, [])
  | w :: ws =>
    match s.applyStaged p w with
    | some s' => s'.applyAll p ws
    | none => (s, w :: ws)

/-- Whether a partition has applied or discarded a transaction. -/
def State.appliedHere (s : State) (p : PartId) (t : TxnSt) : Bool := (s.ranksOf p (s.txnMembers p t.name)).all t.done.contains

/-- Whether it is a committed transaction's turn to be applied: every one whose decision reached the partition before has been; one with a
held write keeps the later ones back (log 98). -/
def State.canApply (s : State) (p : PartId) (t : TxnSt) : Bool :=
  t.decision == some true && !s.appliedHere p t &&
    !(s.part p).txns.any fun u => u.decision == some true && decide (u.order < t.order) && !s.appliedHere p u

/-- TRANSACTION_APPLY: a committed transaction's writes are applied in staging order, after those of every transaction whose
decision reached the partition before (R414). -/
def execTransactionApply (p : PartId) (id : BitVec 32) (s : State) : Out :=
  match s.findTxn p id (s.canApply p) with
  | none => .next s
  | some t =>
    let (s', held) := s.applyAll p ((s.part p).staging.filter fun w => w.name == t.name)
    let s' := s'.modPart p fun y => { y with staging := dropStaged t.name y.staging ++ held }
    .next (if held.isEmpty then s'.reportDone p t.name else s')

/-- The lowest rank that a partition holds of a transaction's group. -/
def State.ownRank (s : State) (p : PartId) (x : TxnName) : Nat := (s.ranksOf p (s.txnMembers p x)).headD 0

/-- DECISION_QUERY: a target without a decision asks the coordinator again, over every path (R413). -/
def execDecisionQuery (p : PartId) (id : BitVec 32) (s : State) : Out :=
  match s.findTxn p id fun t => t.decision.isNone with
  | none => .next s
  | some t => .next (s.toCoord p t.name (s.dieOfRank p t.name (s.ownRank p t.name)) (fun _ _ => s) (fun core => .query core t.name) true)

/-! ### Packets arriving, and lost (R399, R401) -/

/-- Whether a group of a partition has a device's member at a rank. -/
def State.isMember (s : State) (p : PartId) (g : BitVec 4) (rank : Nat) (dev : BitVec 16) : Bool :=
  ((s.group p g).bind fun ms => ms[rank]?).any fun m => m.1 == dev

/-- What a message of a peer does at the partition of the member that it names. -/
def State.receiveAt (s : State) (p : PartId) (peer : BitVec 16) (m : FabMsg) : State :=
  match m with
  | .collIssue _ g seq rank op comb n esize data =>
    if s.isMember p g rank peer then s.contribute p g seq (((s.group p g).getD []).length) rank op comb n esize data else s
  | .xstore _ x member target nth addr size data =>
    if s.isMember p x.group member peer then
      (s.openTxn p x).modPart p fun y => { y with incoming := y.incoming ++ [⟨x, member, target, nth, addr, size, data⟩] }
    else s
  | .vote _ x member sent commit =>
    if s.isMember p x.group member peer then (s.openTxn p x).modTxn p x (TxnSt.voted member sent commit) else s
  | .staged _ x member target nth fault =>
    match fault with
    | none => if s.isMember p x.group target peer then (s.openTxn p x).ackAt p x member target nth else s
    | some reason => (s.openTxn p x).doomAt p x reason
  | .decision _ x commit reason => if s.isMember p x.group 0 peer then s.decided p x commit reason else s
  | .applied _ x member => if s.isMember p x.group member peer then s.doneAt p x [member] else s
  | .finished _ x =>
    match s.txn p x with
    | some t => if t.finished then s else s.releaseTxn p x (t.decision == some true) (t.doom.getD 0)
    | none => s
  | .query _ x =>
    match (s.txn p x).bind fun t => t.decision.map fun c => (c, t.doom.getD 0) with
    | some (commit, reason) => ((s.farMembers (s.txnMembers p x)).filter fun m => m.1 == peer).foldl
        (fun s m => s.sendTxn p x (s.dieOfRank p x 0) peer (.decision m.2 x commit reason) true) s
    | none => s
  | .ack _ => s
  | .unsupported => s

/-- The core that a message goes to. -/
def fabDest : FabMsg → Option CoreId
  | .collIssue d _ _ _ _ _ _ _ _ => some d
  | .xstore d _ _ _ _ _ _ _ => some d
  | .vote d _ _ _ _ => some d
  | .staged d _ _ _ _ _ => some d
  | .decision d _ _ _ => some d
  | .applied d _ _ => some d
  | .finished d _ => some d
  | .query d _ => some d
  | .ack _ => none
  | .unsupported => none

/-- The transaction that a message is of. -/
def fabTxn : FabMsg → Option TxnName
  | .xstore _ x _ _ _ _ _ _ => some x
  | .vote _ x _ _ _ => some x
  | .staged _ x _ _ _ _ => some x
  | .decision _ x _ _ => some x
  | .applied _ x _ => some x
  | .finished _ x => some x
  | .query _ x => some x
  | .collIssue _ _ _ _ _ _ _ _ _ => none
  | .ack _ => none
  | .unsupported => none

/-- A message takes effect at the partition of its core, which notes the path and the link that brought it to a transaction (R410). -/
def State.receive (s : State) (peer : BitVec 16) (path : BitVec 4) (m : FabMsg) : State :=
  match fabDest m with
  | none => s
  | some c =>
    match s.partOf c with
    | none => s
    | some p =>
      let s := s.receiveAt p peer m
      match fabTxn m with
      | some x => s.modTxn p x (TxnSt.carriedBy [.io (dieOf c)] [(peer, path)])
      | none => s

/-- FABRIC_PACKET_RECEIVE: a packet of a named peer is acknowledged on its path and takes effect once; an operation that the
device does not support is refused (R399). -/
def execFabricPacketReceive (k : Packet) (s : State) : Out :=
  if !s.peerValid k.peer then .next s
  else
    let x := s.path k.peer k.path
    match k.msg with
    | .ack seq => .next (s.setPath { x with unacked := x.unacked.filter fun y => y.1.seq != seq })
    | .unsupported => .next s
    | m =>
      let reply : Packet := ⟨k.peer, k.path, k.seq, .ack k.seq⟩
      let s := { s with fabOut := s.fabOut ++ [reply] }
      if x.got.contains k.seq then .next s
      else .next ((s.setPath { x with got := k.seq :: x.got }).receive k.peer k.path m)

/-- What carried an undecided transaction of this device is gone: it aborts with reason 2 (R410). -/
def State.doomCarried (s : State) (gone : TxnSt → Bool) : State :=
  allParts.foldl (fun s p => ((s.part p).txns.filter fun t => t.decision.isNone && gone t).foldl
    (fun s t => s.doom p t.name 0 (s.ownRank p t.name) 0 2) s) s

/-- A path's end: undecided transactions that it carried abort, and what it held goes on another path; with no path left the peer is
unreachable (R401, R410). -/
def State.retirePath (s : State) (x : PathSt) : State :=
  let s := s.setPath { x with retired := true, unacked := [], replays := 0 }
  let s := s.telemetry 0 none 6 [3, BitVec.ofNat 64 (256 * x.path.toNat), BitVec.ofNat 64 x.replays, 1]
  let s := s.doomCarried fun t => t.paths.contains (x.peer, x.path)
  let touches (p : PartId) (g : BitVec 4) : Bool := (s.group p g).any fun ms => ms.any fun m => m.1 == x.peer
  if s.reachable x.peer then x.unacked.foldl (fun s k => s.sendFab x.peer k.1.msg) s
  else { s with colls := s.colls.map fun y => if touches y.part y.group then { y with unreachable := true } else y }

/-- PACKET_RETRANSMIT: the eighth retransmission of a packet is the last (R401). -/
def execPacketRetransmit (peer : BitVec 16) (path : BitVec 4) (seq : BitVec 32) (s : State) : Out :=
  let x := s.path peer path
  match x.unacked.find? fun k => k.1.seq == seq with
  | none => .next s
  | some (k, tries) =>
    if x.retired then .next s
    else if 8 ≤ tries then .next (s.retirePath x)
    else .next { s.setPath { x with
      unacked := replaceFirst (fun k => k.1.seq == seq) (fun k => (k.1, k.2 + 1)) x.unacked, replays := x.replays + 1 } with
      fabOut := s.fabOut ++ [k] }

end Sys2Proof.Machine
end

