-- ==== Sys2Proof/Machine/Engine.lean ====
section
/-! DEFINITION. What the engines do: commands issue, and their elements are read and written one at a time
(R260, R308, R311, R315, R320 to R328). -/

namespace Sys2Proof.Machine

/-! ### Common parts -/

/-- The next element. -/
def Cmd.step (x : Cmd) : Cmd := { x with pos := x.pos + 1, asked := [] }.moveOn
def State.putCmd (s : State) (c : CoreId) (x : Cmd) : State := s.modCmd c x.entry fun _ => x

/-- The banks that a LOCK of the core's kernels holds, ended ones among them (R262). -/
def CoreSt.lockedBanks (k : CoreSt) : List Nat :=
  ((([k.eng.primary, k.eng.secondary].filterMap id).filterMap fun r => r.lock) ++ k.eng.left).flatMap fun l =>
    if k.eng.clock ≤ l.ends then l.banks else []

/-- The units that a request of a kernel reads. -/
def FarReq.units (f : FarReq) : List Nat :=
  let n := match f.op with
    | .load => rowBytes f.tag
    | .atomic kind _ _ => atomBytes kind
  (if f.home then homeView f.alloc f.cluster else farView f.alloc).units (n * f.row) n

/-- The banks that a remote atomic touches: level 3. -/
def remoteBanks (k : CoreSt) (m : RemoteAtomic) : List Nat :=
  match k.handles.read m.handle with
  | none => []
  | some a => ((farView a).units (atomBytes m.kind * m.row) (atomBytes m.kind)).map (· / Config.bankRows)

/-- The banks that requests of the core's own kernels wait for. -/
def CoreSt.farBanks (k : CoreSt) : List Nat :=
  ([k.eng.primary, k.eng.secondary].filterMap id).flatMap fun r => (r.far.filter fun f => f.phase == .waiting).flatMap fun f => f.units.map (· / Config.bankRows)

/-- Whether a party is a remote atomic message: level 3, before a command's accesses of level 4. -/
def BankParty.isRemote : BankParty → Bool
  | .remote _ _ _ _ => true
  | .command _ => false

/-- The banks at which requests that go before a party's are still to be served (R259): those of a higher level, and the older ones
of its own. -/
def CoreSt.aheadOf (k : CoreSt) (who : BankParty) : List Nat :=
  let older := (k.eng.waiting.takeWhile fun o => o.2 != who).filter fun o => o.2.isRemote == who.isRemote
  k.farBanks ++ (if who.isRemote then [] else k.remoteQ.flatMap (remoteBanks k)) ++ older.map (·.1)

/-- A party's requests wait at the banks, among those that a LOCK owes where it holds the bank. -/
def CoreSt.joinBanks (k : CoreSt) (who : BankParty) (banks : List Nat) : CoreSt :=
  let mine (bs : List Nat) : List (Nat × BankParty) := bs.eraseDups.map fun b => (b, who)
  { k with eng := { k.eng with
    waiting := if k.eng.waiting.any fun o => o.2 == who then k.eng.waiting else k.eng.waiting ++ mine banks
    owed := k.eng.owed ++ (mine (banks.filter k.lockedBanks.contains)).filter fun o => !k.eng.owed.contains o } }

/-- An access of a party to Cistern banks: it waits where a LOCK holds one, until its end (R262), and where a request that goes before
it is at a bank (R259); else it is served. -/
def State.withBanks (s : State) (c : CoreId) (who : BankParty) (banks : List Nat) (act : State → State) : State :=
  if banks.any ((s.core c).lockedBanks ++ (s.core c).aheadOf who).contains then s.modCore c fun k => k.joinBanks who banks
  else act (s.modCore c fun k => k.leaveBanks who)

/-- Read the pieces of one element: its bytes, and whether one of them is poisoned. -/
def State.reading (s : State) (c : CoreId) (x : Cmd) (ps : List (DWord × Nat)) (go : List Byte → Bool → State) : State :=
  s.readingBytes c x ps fun bs => go (bs.map (·.1)) (bs.any (·.2))

/-- Write an element's pieces: a live tagged block skips it (R235); poison moves (R331). -/
def State.writing (s : State) (c : CoreId) (x : Cmd) (ps : List (DWord × Nat)) (bs : List Byte) (bad : Bool) : State :=
  match s.places c x ps with
  | .error (e, va) => s.stopCmd c x e va
  | .ok (qs, s') =>
    if qs.any fun q => s'.tagged q.1 then s'.putCmd c (x.err ccTagged x.pos 1).step
    else (s'.putPieces bad qs bs).putCmd c (x.err ccPoison x.pos (if bad then 1 else 0)).step

/-- The address of element `n` (R317). -/
def elemAddr (k : CoreSt) (x : Cmd) (sh : Shape) (n : Nat) : DWord :=
  x.addr1 + BitVec.ofInt 64 (sh.sum k.widths x.wid 0 (digits x.counts n))

/-- A command's access to Cistern banks (R259, R262). -/
def State.cmdBanks (s : State) (c : CoreId) (x : Cmd) (banks : List Nat) (act : State → State) : State :=
  s.withBanks c (.command x.entry) banks act

/-! ### SLOAD, SSTORE, SCOPY (R321, R325) -/

def State.loadStep (s : State) (c : CoreId) (x : Cmd) (sh : Shape) (p : PumpArgs) (a : Alloc) : State :=
  let ss := sh.spots p.tag (sh.placeOf p.tmode x.pos)
  s.reading c x (sh.pieces p.tag p.split x.addr1 (elemAddr (s.core c) x sh x.pos)) fun bs bad =>
    s.cmdBanks c x (spotBanks a ss) fun s =>
      (s.modCore c fun k => k.writeSpots a ss bs bad).putCmd c (x.err ccPoison x.pos (if bad then 1 else 0)).step

def State.storeStep (s : State) (c : CoreId) (x : Cmd) (sh : Shape) (p : PumpArgs) (a : Alloc) : State :=
  let ss := sh.spots p.tag x.pos
  s.cmdBanks c x (spotBanks a ss) fun s =>
    let (bs, bad) := (s.core c).readSpots a ss
    s.writing c x (sh.pieces p.tag p.split x.addr1 (elemAddr (s.core c) x sh x.pos)) bs bad

def State.copyStep (s : State) (c : CoreId) (x : Cmd) (sh : Shape) : State :=
  let off := BitVec.ofInt 64 (sh.sum (s.core c).widths x.wid 0 (digits x.counts x.pos))
  s.reading c x (pieces (x.addr2 + off) 3 sh.esize.toNat) fun bs bad =>
    s.writing c x (pieces (x.addr1 + off) 3 sh.esize.toNat) bs bad

/-! ### Indexed commands (R322 to R324) -/

/-- The index entry of element `n`. -/
def indexOf (k : CoreSt) (x : Cmd) (i : Alloc) (n : Nat) : Nat := k.farNat i (64 + 4 * (n / nth x.counts 0 1)) 4

/-- Whether the index entry of element `n` lies in a poisoned unit. -/
def indexBad (k : CoreSt) (x : Cmd) (i : Alloc) (n : Nat) : Bool :=
  ((farView i).units (64 + 4 * (n / nth x.counts 0 1)) 4).any k.cisPoison.contains

/-- The address that an index gives an element; none for the sentinel. -/
def indexAddr (k : CoreSt) (x : Cmd) (sh : Shape) (i : Alloc) (n : Nat) : Option DWord :=
  let idx := indexOf k x i n
  if idx = 0xFFFFFFFF then none
  else
    let is := digits x.counts n
    let b (l : Nat) : Nat := sh.base k.widths x.wid l
    let t0 := (((nth is 0 0 : Nat) : Int) + b 0) * sh.stride 0
    let t1 : Int := if sh.stride 1 = 0 then idx else ((idx : Int) + b 1) * sh.stride 1
    some (x.addr1 + BitVec.ofInt 64 (t0 + t1 + sh.sum k.widths x.wid 2 is))

/-- The elements of the window of 256 index entries that holds element `n` (R323). -/
def windowOf (x : Cmd) (n : Nat) : List Nat :=
  let c0 := nth x.counts 0 1
  let first := n / (256 * c0) * (256 * c0)
  (List.range (min (256 * c0) (x.total - first))).map (first + ·)

/-- The elements of a window that name the same index and address as element `n`, from entries that are not poisoned. -/
def sharing (k : CoreSt) (x : Cmd) (sh : Shape) (i : Alloc) (n : Nat) : List Nat :=
  (windowOf x n).filter fun m =>
    !indexBad k x i m && indexOf k x i m = indexOf k x i n && indexAddr k x sh i m == indexAddr k x sh i n

/-- A gather position that an error of its index leaves is filled and poisoned (R322, R331), which telemetry reports (R390). -/
def State.fillStep (s : State) (c : CoreId) (x : Cmd) (sh : Shape) (p : PumpArgs) (a : Alloc) (cause : Byte) : State :=
  let ss := sh.spots p.tag x.pos
  s.cmdBanks c x (spotBanks a ss) fun s =>
    let s := (s.modCore c fun k => k.writeSpots a ss (fillBytes p.tag (ss.length)) true).putCmd c (x.err cause x.pos 1).step
    match ss.flatten.head? with
    | some y => s.telemetry (dieOf c) (some c) 5 [2, BitVec.ofNat 64 (y.unit a), 5]
    | none => s

def State.gatherStep (s : State) (c : CoreId) (x : Cmd) (sh : Shape) (p : PumpArgs) (a i : Alloc) : State :=
  let k := s.core c
  if indexBad k x i x.pos then s.fillStep c x sh p a ccPoison
  else
  match indexAddr k x sh i x.pos with
  | none => s.putCmd c x.step
  | some va =>
    if misaligned va (min sh.esize.toNat 8) then s.fillStep c x sh p a ccIndex
    else
      let all := sharing k x sh i x.pos
      if all.any fun m => m < x.pos then s.putCmd c x.step
      else
        s.reading c x (sh.pieces p.tag false x.addr1 va) fun bs bad =>
          let ss := all.map (sh.spots p.tag)
          s.cmdBanks c x (ss.flatMap (spotBanks a)) fun s =>
            (s.modCore c fun k => ss.foldl (fun k y => k.writeSpots a y bs bad) k).putCmd c
              (x.err ccPoison x.pos (if bad then all.length else 0)).step

def State.scatterStep (s : State) (c : CoreId) (x : Cmd) (sh : Shape) (p : PumpArgs) (a i : Alloc) : State :=
  let k := s.core c
  if indexBad k x i x.pos then s.putCmd c (x.err ccPoison x.pos 1).step
  else
  match indexAddr k x sh i x.pos with
  | none => s.putCmd c x.step
  | some va =>
    if misaligned va (min sh.esize.toNat 8) then s.putCmd c (x.err ccIndex x.pos 1).step
    else if (sharing k x sh i x.pos).any fun m => x.pos < m then s.putCmd c x.step
    else
      let ss := sh.spots p.tag x.pos
      s.cmdBanks c x (spotBanks a ss) fun s =>
        let (bs, bad) := (s.core c).readSpots a ss
        s.writing c x (sh.pieces p.tag false x.addr1 va) bs bad

/-- Whether element `pos` of an SSCADD is the one at which its window's value for an index goes to the Wellhead. -/
def addsHere (k : CoreSt) (x : Cmd) (sh : Shape) (i : Alloc) : Bool :=
  !indexBad k x i x.pos && match indexAddr k x sh i x.pos with
  | none => false
  | some va => !misaligned va (min sh.esize.toNat 8) && !(sharing k x sh i x.pos).any fun m => m < x.pos

/-- The steps of an SSCADD that add nothing: sentinels, errors of the index, elements already combined. -/
def State.passStep (s : State) (c : CoreId) (x : Cmd) (sh : Shape) (i : Alloc) : State :=
  let k := s.core c
  if addsHere k x sh i then s
  else if indexBad k x i x.pos then s.putCmd c (x.err ccPoison x.pos 1).step
  else
    match indexAddr k x sh i x.pos with
    | some va =>
      if misaligned va (min sh.esize.toNat 8) then s.putCmd c (x.err ccIndex x.pos 1).step else s.putCmd c x.step
    | none => s.putCmd c x.step

/-- A form's add over elements of `n` bytes (R324), and whether an anchored add clamped. -/
def formAdd (form : BitVec 2) (n : Nat) (old y : DWord) : DWord × Bool :=
  match form with
  | 0#2 => atomElem 1 old y 0
  | 1#2 => (BitVec.ofNat 64 ((old.toNat + y.toNat) % 2 ^ (8 * n)), false)
  | _ => ancAdd old y

/-- The values of a window's positions combined in order. -/
def combineAll (form : BitVec 2) (n : Nat) : List DWord → DWord × Bool
  | [] => (0, false)
  | v :: vs => vs.foldl (fun a y => let (r, sat) := formAdd form n a.1 y; (r, a.2 || sat)) (v, false)

/-- One combined element is added at its Wellhead, in one indivisible step (R324); of host memory, to the value that the host has
answered (R417; log 42). -/
def State.addStep (s : State) (c : CoreId) (x : Cmd) (sh : Shape) (form : BitVec 2) (p : PumpArgs) (a i : Alloc) : State :=
  let k := s.core c
  match indexAddr k x sh i x.pos with
  | none => s
  | some va =>
    if !addsHere k x sh i then s
    else
      let n := sh.esize.toNat
      let all := sharing k x sh i x.pos
      let ss := all.map (sh.spots p.tag)
      s.cmdBanks c x (ss.flatMap (spotBanks a)) fun s =>
        let vals := ss.map fun y => (s.core c).readSpots a y
        let (v, sat) := combineAll form n (vals.map fun y => BitVec.ofNat 64 (ofBytesLE y.1))
        let bad := (all.zip vals).filter fun y => y.2.2
        match s.places c x [(va, n)] with
        | .error (e, va) => s.stopCmd c x e va
        | .ok (qs, s') =>
          let pa := ((qs.head?).getD (0, 0)).1
          if isHost pa && x.asked.isEmpty then s'.askHost c x [.host pa n]
          else if s'.tagged pa then s'.putCmd c (x.err ccTagged x.pos 1).step
          else
            let old := if isHost pa then ofBytesLE ((pieceBytes x.asked).map (·.1)) else s'.readPhys pa n
            let spoilt := if isHost pa then (pieceBytes x.asked).any (·.2) else s'.poisoned pa n
            let (r, sat') := formAdd form n (BitVec.ofNat 64 old) v
            let x := x.err ccPoison (((bad.head?).map (·.1)).getD x.pos)
              (if bad.isEmpty then (if spoilt then 1 else 0) else bad.length)
            (s'.putPieces (!bad.isEmpty) qs (bytesLE n r.toNat)).putCmd c { x with sat := x.sat || sat || sat' }.step

/-! ### SCAN (R326) -/

/-- The elements of candidate `n`. -/
def candidateElems (x : Cmd) (row : Bool) (n : Nat) : List Nat :=
  let c0 := nth x.counts 0 1
  if row then (List.range c0).map fun i => n * c0 + i else [n]

/-- SCAN's outputs: the list of live candidates and the mask words, each after their count. -/
def scanList (live : List Nat) : List Byte :=
  bytesLE 8 live.length ++ List.replicate 56 0 ++ live.flatMap (bytesLE 4)
def scanMask (live : List Nat) (n : Nat) : List Byte :=
  bytesLE 8 live.length ++ (List.range ((n + 63) / 64)).flatMap fun w =>
    bytesLE 8 (packNat 1 ((List.range 64).map fun b => if live.contains (64 * w + b) then 1 else 0))

def allocBanks (a : Alloc) : List Nat := (List.range a.nbanks).map (a.bank + ·)

def State.scanStep (s : State) (c : CoreId) (x : Cmd) (sh : Shape) (tag : Tag) (flush row : Bool) (a l m : Alloc) : State :=
  let k := s.core c
  let w := sh.esize.toNat
  let off (n : Nat) : Nat := (sh.cbase.toNat + sh.sum k.widths x.wid 0 (digits x.counts n)).toNat
  let elems : List (Nat × List Nat × Nat) := (candidateElems x row x.pos).map fun n => (n, (farView a).units (off n) w, k.farNat a (off n) w)
  let last := x.pos + 1 = x.total
  let banks := (elems.flatMap fun e => e.2.1.map (· / Config.bankRows)) ++ (if last then allocBanks l ++ allocBanks m else [])
  s.cmdBanks c x banks fun s =>
    let bad : List (Nat × List Nat × Nat) := elems.filter fun e => e.2.1.any k.cisPoison.contains
    let on := !bad.isEmpty || elems.any fun e => elemNonzero tag flush e.2.2
    let seen : Cmd := { x with live := if on then x.live ++ [x.pos] else x.live }
    let x := seen.err ccPoison (((bad.head?).map (·.1)).getD 0) bad.length
    let s := if last then s.modCore c fun k =>
        (k.putFar l 0 (scanList x.live)).putFar m 0 (scanMask x.live x.total)
      else s
    s.putCmd c x.step

/-! ### SHAPE, SALLOC, KSWAP (R260, R315, R328) -/

def State.shapeStep (s : State) (c : CoreId) (x : Cmd) (n : BitVec 5) : State :=
  s.reading c x (pieces x.addr1 2 64) fun bs bad =>
    let sh := readShape bs
    let set (v : Option Shape) (s : State) : State := s.modCore c fun k => { k with shapes := k.shapes.write n v }
    if bad || !sh.ok (wordAt bs 0) then (set none s).fatal c (x.err ccPoison 0 (if bad then 1 else 0)) ccShape
    else (set (some sh) s).putCmd c x.step

/-- Zero a rectangle, poison clear. -/
def CoreSt.clearRect (k : CoreSt) (a : Alloc) : CoreSt :=
  let inside (u : Nat) : Bool :=
    let b := u / Config.bankRows
    let r := u % Config.bankRows
    a.bank ≤ b && b < a.bank + a.nbanks && a.row ≤ r && r < a.row + a.nrows
  { k with cistern := ⟨k.cistern.cells.filter fun e => !inside (e.1 / 64)⟩, cisPoison := k.cisPoison.filter fun u => !inside u }

def State.clearStep (s : State) (c : CoreId) (x : Cmd) (hnd : BitVec 6) : State :=
  match (s.core c).handles.read hnd with
  | none => s.putCmd c x.step
  | some a => s.cmdBanks c x (allocBanks a) fun s => (s.modCore c fun k => k.clearRect a).putCmd c x.step

/-- Bundles that a store holds. -/
def storeSize (xs : List (BitVec 12 × KImage)) : Nat := (xs.map fun x => x.2.bundles.length).sum

/-- The images that the core's kernels run and that a list of images, with handles, does not hold: handle and bundles, each once. -/
def CoreSt.runningBeside (k : CoreSt) (xs : List (BitVec 12 × KImage)) : List (BitVec 12 × List (BitVec 256)) :=
  ((([k.eng.primary, k.eng.secondary].filterMap id).map fun r => (r.handle, r.image.bundles)).filter fun a =>
    !xs.any fun x => x.1 == a.1 && x.2.bundles == a.2).eraseDups
/-- Bundles that a core's store holds with a list of images in it: theirs, and those of the images that its kernels still run (R328). -/
def CoreSt.storeUsed (k : CoreSt) (xs : List (BitVec 12 × KImage)) : Nat :=
  storeSize xs + ((k.runningBeside xs).map fun a => a.2.length).sum

/-- A core takes an image behind a handle; while a kernel runs an old one and both do not fit, the new one waits (R328). -/
def CoreSt.takeImage (k : CoreSt) (knl : BitVec 12) (i : KImage) : CoreSt :=
  let rest := k.store.filter fun x => x.1 != knl
  let room := k.storeUsed ((knl, i) :: rest) ≤ Config.kstore
  if room then { k with store := (knl, i) :: rest, storePending := k.storePending.filter fun x => x.1 != knl }
  else { k with storePending := (knl, i) :: k.storePending.filter fun x => x.1 != knl }

/-- Images that wait for room are taken once they fit. -/
def CoreSt.takePendingImages (k : CoreSt) : CoreSt := k.storePending.foldl (fun k x => k.takeImage x.1 x.2) k

/-- The bytes of `n` Frazin bundles that are still to be read after those that have been: a bundle of 20 bytes is followed by 16 of
literals where its bit 151 is set. -/
def frazinNeed : Nat → List Byte → Nat
  | 0, _ => 0
  | n + 1, bs =>
    if bs.length < 20 then 20 - bs.length
    else
      let size := if (BitVec.ofNat 160 (ofBytesLE (bs.take 20))).getLsbD 151 then 36 else 20
      if bs.length < size then size - bs.length else frazinNeed n (bs.drop size)

/-- The bytes of an image that a KSWAP reads next, after those that it has; 0 when it has all (R328, R429). -/
def imageNeed (got : List Byte) : Nat :=
  if got.length < 64 then 64 - got.length
  else
    let e := readEntry (got.take 64)
    if e.frazin then frazinNeed e.count (got.drop 64) else 64 + 32 * e.count - got.length

/-- A KSWAP's image is whole: every core of the partition takes it, or has it wait; the bundles that lay in poisoned blocks are corrupt
(R382). -/
def State.swapImage (s : State) (c : CoreId) (x : Cmd) (knl : BitVec 12) : State :=
  let bs := x.buffer.map (·.1)
  let e := readEntry (bs.take 64)
  match loadKernel e.frazin e (bs.drop 64) with
  | none => s.fatal c x ccCommand
  | some i =>
    let bad (n len : Nat) : Bool := ((x.buffer.drop n).take len).any (·.2)
    let all := List.range i.bundles.length
    let lost := if bad 0 64 || (e.frazin && bad 64 bs.length) then all
      else if e.frazin then [] else all.filter fun j => bad (64 + 32 * j) 32
    let i := { i with corrupt := lost }
    let s := (s.peers c).foldl (fun s d => s.modCore d fun k => k.takeImage knl i) s
    s.putCmd c { (x.err ccPoison 0 (if lost.isEmpty then 0 else 1)) with buffer := [] }.step

/-- KSWAP's loader reads the image, its entry first, and then gives it to every core of the partition, once no core waits for another image
of the handle (R328); host memory serves as well (R417). -/
def State.swapStep (s : State) (c : CoreId) (x : Cmd) (knl : BitVec 12) : State :=
  let got := x.buffer.map (·.1)
  let e := readEntry (got.take 64)
  if 64 ≤ got.length && (e.start ≠ 64 || e.count = 0 || Config.kstore < e.count) then s.fatal c x ccCommand
  else
    let need := imageNeed got
    if need = 0 then (if s.swapPending c knl then s else s.swapImage c x knl)
    else s.readingBytes c x (pieces (x.addr1 + BitVec.ofNat 64 got.length) (need / 64 + 2) need) fun bs =>
      s.putCmd c { x with buffer := x.buffer ++ bs, asked := [], phase := .active }

/-! ### The events -/

/-- COMMAND_ISSUE. An SMARK completes as it issues (R329). -/
def execCommandIssue (c : CoreId) (entry : BitVec 6) (s : State) : Out :=
  let k := s.core c
  match k.cmd entry with
  | none => .next s
  | some x =>
    if !canIssue k x || !k.serving then .next s
    else
      let s := s.consume c x
      match if (collArgs x.op).isSome then s.beginColl c x else s.begin c x with
      | none => .next (s.fatal c x ccCommand)
      | some s' =>
        match x.op with
        | .smark _ _ => .next (s'.complete c x)
        | _ => .next (s'.openWindows c entry)

/-- ENGINE_ELEMENT_ACCESS: the next element of a command in service. -/
def execEngineElementAccess (c : CoreId) (entry : BitVec 6) (s : State) : Out :=
  let k := s.core c
  match k.cmd entry with
  | none => .next s
  | some x =>
    if x.phase != .active || !k.serving || x.total ≤ x.pos then .next s
    else
      match x.op, x.shape with
      | .shape _ _ n _, _ => .next (s.shapeStep c x n)
      | .salloc _ hnd _ _ _ _, _ => .next (s.clearStep c x hnd)
      | .kswap _ knl _ _, _ => .next (s.swapStep c x knl)
      | .scopy _ _ _ _, some sh => .next (s.copyStep c x sh)
      | .scan _ tag flush row src list _ mask _, some sh =>
        match k.handles.read src, k.handles.read list, k.handles.read mask with
        | some a, some l, some m => .next (s.scanStep c x sh tag flush row a l m)
        | _, _, _ => .next s
      | op, some sh =>
        match pumpArgs op with
        | some p =>
          match k.handles.read p.hnd, p.idx.map fun i => k.handles.read i with
          | some a, none => .next (if p.reads then s.loadStep c x sh p a else s.storeStep c x sh p a)
          | some a, some (some i) =>
            .next (match op with
              | .sgather _ _ _ _ _ _ _ => s.gatherStep c x sh p a i
              | .sscatter _ _ _ _ _ _ _ => s.scatterStep c x sh p a i
              | _ => s.passStep c x sh i)
          | _, _ => .next s
        | none => .next (s.collStep c x)
      | _, none => .next s

/-- WELLHEAD_SCATTER_ADD: the next combined element of an SSCADD. -/
def execWellheadScatterAdd (c : CoreId) (entry : BitVec 6) (s : State) : Out :=
  let k := s.core c
  match k.cmd entry with
  | none => .next s
  | some x =>
    if x.phase != .active || !k.serving || x.total ≤ x.pos then .next s
    else
      match x.op, x.shape, pumpArgs x.op with
      | .sscadd _ _ form _ _ _ _ _, some sh, some p =>
        match k.handles.read p.hnd, p.idx.bind fun i => k.handles.read i with
        | some a, some i => .next (s.addStep c x sh form p a i)
        | _, _ => .next s
      | _, _, _ => .next s

end Sys2Proof.Machine
end

