-- ==== Sys2Proof/Machine/Far.lean ====
section
/-! DEFINITION. Variable-latency requests: their service in the banks, remote atomics, arrival and delivery
(R51, R142, R167, R259, R263 to R266). -/

namespace Sys2Proof.Machine

/-- SAT of csr.kstat (R263). -/
def CoreSt.raiseSat (k : CoreSt) (on : Bool) : CoreSt := if on then { k with kstat := k.kstat ||| (1 <<< 34) } else k

/-- A far read's elements: low and high words joined. -/
def loadElems (k : CoreSt) (v : View) (t : Tag) (row : Nat) : Bank 6 DWord :=
  let n := rowBytes t
  let (lo, hi) := rowLanes t (v.read k.cistern (n * row) n)
  Bank.ofFn fun l => hi.read l ++ lo.read l

/-- The banks serve one request (R259, R264). -/
def CoreSt.serve (k : CoreSt) (f : FarReq) : CoreSt × FarReq :=
  let v := if f.home then homeView f.alloc f.cluster else farView f.alloc
  match f.op with
  | .load =>
    let bad := anyPoison k.cisPoison (v.units (rowBytes f.tag * f.row) (rowBytes f.tag))
    (k, { f with phase := .served (loadElems k v f.tag f.row) bad })
  | .atomic kind x c =>
    let (m, old, bad, sat) := atomRow k.cistern k.cisPoison v kind f.row x c
    ({ k with cistern := m }.raiseSat sat, { f with phase := .served old bad })

/-- The request that goes first of those that wait, with its kernel: the oldest, and of one age that of the lower cluster (R259); also of two
that have no bank in common, which R169 leaves unordered until each lands: DESIGN CHOICE, log 95. -/
def CoreSt.nextWaiting (k : CoreSt) : Option (KPos × FarReq) :=
  let of (pos : KPos) : List (KPos × FarReq) := ((k.run pos).toList.flatMap fun r => r.far.filter fun f => f.phase == .waiting).map fun f => (pos, f)
  (of .primary ++ of .secondary).foldl (fun best x => match best with
    | none => some x
    | some y => if x.2.issued < y.2.issued || (x.2.issued = y.2.issued && x.2.cluster.ult y.2.cluster) then some x else some y) none

/-- The banks of a core serve the request that goes first. -/
def CoreSt.serveOne (k : CoreSt) : CoreSt :=
  match k.nextWaiting with
  | none => k
  | some (pos, f) =>
    let (k', f') := k.serve f
    k'.modRun pos fun r => { r with far := replaceFirst (· == f) (fun _ => f') r.far }

/-- What a bank's ECC finds in the first unit that the next request reads, or, where none waits, in the unit that a bundle or a stream
command reads in this cc: a correction is counted, a unit that fails goes on poisoned. Data whose transit CRC does not hold as it enters
the Cistern leaves its unit poisoned (R384, R390; log 63). -/
def State.bankEcc (s : State) (c : CoreId) (unit : Nat) (found : ScrubFinding) : State :=
  let read : Option Nat := match (s.core c).nextWaiting with
    | some x => x.2.units.head?
    | none => if unit < Config.banks * Config.bankRows then some unit else none
  let written : Option Nat := if unit < Config.banks * Config.bankRows then some unit else none
  let poison (u : Nat) (reason : DWord) : State :=
    (s.telemetry (dieOf c) (some c) 5 [2, BitVec.ofNat 64 u, reason]).modCore c fun k => { k with cisPoison := insertNat u k.cisPoison }
  match (if found == .transit then written else read), found with
  | some u, .corrected symbol => s.telemetry (dieOf c) (some c) 4 [2, BitVec.ofNat 64 u, symbol]
  | some u, .uncorrectable => poison u 1
  | some u, .transit => poison u 2
  | _, _ => s

/-- BANK_REQUEST_SERVICE. -/
def execBankRequestService (x : BankCheck) (s : State) : Out :=
  .next ((s.bankEcc x.core x.unit x.found).modCore x.core CoreSt.serveOne)

def FarReq.land (f : FarReq) : FarReq :=
  match f.phase with
  | .served d b => { f with phase := .landed d b }
  | _ => f

/-- The oldest served request of a cluster enters its landing buffer when an entry is free; through a full buffer passes only data that is
due at its kernel's kc, which no entry could free itself for while the kc stands (R51, R142; log 77). -/
def CoreSt.landOne (k : CoreSt) (cl : ClusterId) : CoreSt :=
  let full := decide (Config.landingBuf ≤ landedIn k cl)
  let fits (r : KernelRun) (f : FarReq) : Bool := f.isServed cl && (!full || f.due ≤ r.kc)
  let put (pos : KPos) (k : CoreSt) : CoreSt := k.modRun pos fun r => { r with far := replaceFirst (fits r) FarReq.land r.far }
  if (k.run .primary).any fun r => r.far.any (fits r) then put .primary k else put .secondary k

/-- LANDING_ARRIVAL. -/
def execLandingArrival (c : CoreId) (cl : ClusterId) (s : State) : Out := .next (s.modCore c fun k => k.landOne cl)

/-! ### Remote atomics (R265) -/

/-- The reply reaches the request it answers. -/
def FarReq.answers (m : RemoteAtomic) (f : FarReq) : Bool :=
  f.phase == .remote && f.cluster == m.cluster && f.due = m.due && f.dest == m.dest && f.row = m.row
def CoreSt.reply (k : CoreSt) (m : RemoteAtomic) (ph : FarPhase) : CoreSt :=
  let f (k : CoreSt) (pos : KPos) : Option CoreSt :=
    match k.run pos with
    | some r => if r.far.any (FarReq.answers m) then
        some (k.setRun pos { r with far := replaceFirst (FarReq.answers m) (fun f => { f with phase := ph }) r.far }) else none
    | none => none
  match f k m.pos with
  | some k' => k'
  | none => (f k (if m.pos == .primary then .secondary else .primary)).getD k

/-- A remote atomic at its target: served on the target's handle and far view, or refused there. -/
def State.serveRemote (s : State) (m : RemoteAtomic) : State :=
  let k := s.core m.target
  let fail := s.modCore m.src fun k => k.reply m .failed
  match k.handles.read m.handle with
  | none => fail
  | some a =>
    let v := farView a
    if !v.holds (atomBytes m.kind * m.row) (atomBytes m.kind) then fail
    else
      let (mem, old, bad, sat) := atomRow k.cistern k.cisPoison v m.kind m.row m.x m.c
      let s := s.modCore m.target fun k => { k with cistern := mem }
      s.modCore m.src fun k => (k.raiseSat sat).reply m (.served old bad)

/-- The ordering class of a kernel's accesses: that of its KERNEL command (R169); a merge kernel has none, and takes class 0 (log 23). -/
def CoreSt.kernelClass (k : CoreSt) (pos : KPos) : BitVec 4 :=
  (((k.run pos).filter fun r => r.merge.isNone).bind fun r => k.cmd r.entry).elim 0 fun x => x.hdr.cls

/-- The position of the kernel that issued a remote atomic: a secondary may have become the primary since (R212). -/
def CoreSt.asker (k : CoreSt) (m : RemoteAtomic) : KPos :=
  if (k.run m.pos).any fun r => r.far.any (FarReq.answers m) then m.pos
  else match m.pos with
    | .primary => .secondary
    | .secondary => .primary

/-- Whether two remote atomics of a core are of one party: a kernel in one cluster (R287), whose accesses have one class (R169). -/
def CoreSt.sameParty (k : CoreSt) (m n : RemoteAtomic) : Bool := m.cluster == n.cluster && k.asker m == k.asker n

/-- The remote atomics of a core that are on their way to their targets or wait there. -/
def State.remotesOut (s : State) (c : CoreId) : List RemoteAtomic :=
  (allCores.flatMap fun d => (s.core d).remoteQ.filter fun m => m.src == c) ++ s.meshMsgs.filter fun m => m.src == c

/-- A remote atomic leaves its core: to the target's queue on the same die, or over the mesh as a type 4 flit, whose bytes R396 does not
give (R397, log 23); where no path is left the data comes back poisoned (R385). -/
def State.shipRemote (s : State) (m : RemoteAtomic) : State :=
  if dieOf m.src == dieOf m.target then s.modCore m.target fun k => { k with remoteQ := k.remoteQ ++ [m] }
  else
    let cls := (s.core m.src).kernelClass ((s.core m.src).asker m)
    match s.sendFlit? (newFlit 4 (dieOf m.src) (dieOf m.target) 0 cls 0 (Config.freeBlock s.tick)) with
    | some s => { s with meshMsgs := s.meshMsgs ++ [m] }
    | none => s.modCore m.src fun k => k.reply m (.served (Bank.fill 0) true)

/-- Send those of a core's remote atomics, in issue order, that none before them holds: a party's next one waits until its one before has
performed (R294), and none overtakes another to its target (R266). `kept` stay. -/
def State.shipHeld (s : State) (c : CoreId) (kept : List RemoteAtomic) : List RemoteAtomic → State
  | [] => s.modCore c fun k => { k with heldRemotes := kept }
  | m :: ms =>
    let k := s.core c
    if kept.any (fun n => k.sameParty n m || n.target == m.target) || (s.remotesOut c).any (fun n => k.sameParty n m) then
      s.shipHeld c (kept ++ [m]) ms
    else (s.shipRemote m).shipHeld c kept ms

/-- A core sends what it holds and can send. -/
def State.releaseRemotes (s : State) (c : CoreId) : State :=
  match (s.core c).heldRemotes with
  | [] => s
  | ms => s.shipHeld c [] ms

/-- Remote atomics that a core issues join those that it holds. -/
def State.sendRemotes (s : State) (c : CoreId) (ms : List RemoteAtomic) : State :=
  if ms.isEmpty then s else (s.modCore c fun k => { k with heldRemotes := k.heldRemotes ++ ms }).releaseRemotes c

/-- A remote atomic performs at its target, and its core sends what waited for that. -/
def State.performRemote (s : State) (m : RemoteAtomic) : State := (s.serveRemote m).releaseRemotes m.src

/-- A remote atomic as a party at the banks. -/
def RemoteAtomic.party (m : RemoteAtomic) : BankParty := .remote m.src m.pos m.cluster m.due

/-- REMOTE_ATOMIC_MESSAGE: the oldest message at a core is served, or waits for a LOCK (R262). -/
def execRemoteAtomicMessage (c : CoreId) (s : State) : Out :=
  match (s.core c).remoteQ with
  | [] => .next s
  | m :: rest =>
    .next (s.withBanks c m.party (remoteBanks (s.core c) m) fun s => (s.modCore c fun k => { k with remoteQ := rest }).performRemote m)

/-! ### Delivery (R48, R51) -/

/-- The oldest of the results of a kernel that are due. -/
def firstDue (r : KernelRun) : Option Nat := ((dueResults r).head?).map (·.issued)

/-- A result for the units and registers that the two kernels share (R211). -/
def RegWrite.shared : RegWrite → Bool
  | .cfgBits _ _ => true
  | .margin _ => true
  | .scale _ _ => true
  | .bound _ => true
  | .clearTransposer => true
  | _ => false

/-- Whether a due result must wait for an older one of the other kernel, where they can meet (R49, R211). -/
def CoreSt.afterOther (k : CoreSt) (pos : KPos) (f : InFlight) : Bool :=
  f.what.shared && f.arrive.isNone &&
    k.allDue.any fun d => d.1 != pos && d.2.what.shared && d.2.cluster == f.cluster && d.2.issued < f.issued

/-- Write the first due result of the writeback buffer that a test selects, when no older result is due. -/
def CoreSt.writeBack (k : CoreSt) (pos : KPos) (sel : RegWrite → Bool) : CoreSt :=
  match k.run pos with
  | none => k
  | some r =>
    let isIt (f : InFlight) : Bool := f.due ≤ r.kc && sel f.what && some f.issued == firstDue r && !k.afterOther pos f
    match r.inflight.find? isIt with
    | none => k
    | some f => (k.setRun pos { r with inflight := removeFirst isIt r.inflight }).land pos f.cluster f.what f.arrive

def isContribution : RegWrite → Bool
  | .contribution _ _ _ _ => true
  | _ => false

/-- RESULT_WRITEBACK. -/
def execResultWriteback (c : CoreId) (pos : KPos) (s : State) : Out :=
  .next (s.modCore c fun k => k.writeBack pos fun w => !isContribution w)

/-- MPUSH_CONTRIBUTION. -/
def execMpushContribution (c : CoreId) (pos : KPos) (s : State) : Out :=
  .next (s.modCore c fun k => k.writeBack pos isContribution)

/-- LANDING_DELIVERY: a sound request that is due and has arrived; a poisoned one faults the bundle that issues then (R382). -/
def execLandingDelivery (c : CoreId) (pos : KPos) (s : State) : Out :=
  .next (s.modCore c fun k =>
    match k.run pos with
    | none => k
    | some r =>
      let isIt (f : FarReq) : Bool := f.due ≤ r.kc && some f.issued == firstDue r && (match f.phase with
        | .landed _ bad => !bad
        | _ => false)
      match r.far.find? isIt with
      | none => k
      | some f => f.toDue.foldl (fun k d => k.land pos d.cluster d.what d.arrive)
          (k.setRun pos { r with far := removeFirst isIt r.far }))

/-! ### Stopping the engine (R364) -/

/-- Serve every local request of a core's kernels; `n` bounds the number. -/
def CoreSt.serveAll (k : CoreSt) : Nat → CoreSt
  | 0 => k
  | n + 1 => k.serveOne.serveAll n
def KernelRun.landAll (r : KernelRun) : KernelRun := { r with far := r.far.map FarReq.land }
def farCount (k : CoreSt) : Nat := (([k.eng.primary, k.eng.secondary].filterMap id).map fun r => r.far.length).sum

/-- The remote atomics of a core that have not performed. -/
def State.remotesOf (s : State) (c : CoreId) : List RemoteAtomic := s.remotesOut c ++ (s.core c).heldRemotes

/-- The remote atomics at core `d` that perform when those of core `c` do: each with every older one of its queue, whoever sent it (R259). -/
def State.performsAt (s : State) (c d : CoreId) : List RemoteAtomic :=
  let q := (s.core d).remoteQ
  let mine := (s.remotesOf c).filter fun m => m.target == d
  let later := mine.filter fun m => !q.contains m
  if later.isEmpty then (q.reverse.dropWhile fun m => m.src != c).reverse else q ++ later

/-- Whether a core serves a remote atomic now: no LOCK holds its banks (R262). -/
def CoreSt.admits (k : CoreSt) (m : RemoteAtomic) : Bool := !(remoteBanks k m).any k.lockedBanks.contains

/-- Whether every request that a core has issued can complete now (R364): a LOCK's hold at a remote atomic's target, or at an older one's
there, ends first (R259, R262). -/
def State.farSettles (s : State) (c : CoreId) : Bool := allCores.all fun d => (s.performsAt c d).all (s.core d).admits

/-- Requests of level 2 at a core, then remote atomics there, perform in their order (R259). -/
def State.performAll (s : State) (d : CoreId) (ms : List RemoteAtomic) : State :=
  match ms with
  | [] => s
  | _ =>
    let s := s.modCore d fun k => { k.serveAll (farCount k) with remoteQ := k.remoteQ.filter fun m => !ms.contains m }
    ms.foldl (fun s m => (s.modCore d fun k => k.leaveBanks m.party).performRemote m) s

/-- Every request that a core has issued completes: remote atomics perform at their targets, after the requests that go before them
there (R259), local ones are served, and all data is in the landing buffers. -/
def State.finishFar (s : State) (c : CoreId) : State :=
  let todo := allCores.map fun d => (d, s.performsAt c d)
  let s := ({ s with meshMsgs := s.meshMsgs.filter fun m => m.src != c }).modCore c fun k => { k with heldRemotes := [] }
  let s := todo.foldl (fun s x => s.performAll x.1 x.2) s
  s.modCore c fun k =>
    let k := k.serveAll (farCount k)
    (k.modRun .primary KernelRun.landAll).modRun .secondary KernelRun.landAll

/-- Stop a core's kernel engine for a reason (R364, R365). -/
def State.stopEngine (s : State) (c : CoreId) (reason : BitVec 4) : State :=
  (s.finishFar c).modCore c fun k =>
    if k.eng.stopped.isSome then k else { k with eng := { k.eng with stopped := some reason, stopcc := s.cycle } }

end Sys2Proof.Machine
end

