-- ==== Sys2Proof/Machine/Snapshot.lean ====
section
/-! DEFINITION. Snapshot images of a kernel engine as bytes (R365 to R368). The packing of the engine section and of in-flight
results that R366 and R367 name without laying them out is the model's (log 16). -/

namespace Sys2Proof.Machine

/-! ### Bytes -/

def words (ws : List DWord) : List Byte := ws.flatMap fun w => bytesLE 8 w.toNat
/-- Bytes filled with zeros up to a length. -/
def padTo (n : Nat) (bs : List Byte) : List Byte := bs ++ List.replicate (n - bs.length) 0
/-- A little-endian number inside bytes. -/
def natAt (bs : List Byte) (off n : Nat) : Nat := ofBytesLE ((bs.drop off).take n)
def bitsWord (f : Nat → Bool) (n : Nat) : Nat := packNat 1 ((List.range n).map fun i => if f i then 1 else 0)
def ofBool (b : Bool) : DWord := if b then 1 else 0

/-- The fields of cfg, csr.kstat and csr.kstat2; the other bits read as zero, whatever an image holds (R6, R33, R41, R212). -/
def cfgFields : DWord := 0xFFFFFFFF001F000F
def kstatFields : DWord := 0xFFFF00FF0001000F
def kstat2Fields : DWord := 0xFFFF00010000000F

/-! ### The cluster section (R366) -/

def specialCode : Special → Nat
  | .finite => 0
  | .posInf => 1
  | .negInf => 2
  | .nan => 3
def codeSpecial (n : Nat) : Special := if n = 0 then .finite else if n = 1 then .posInf else if n = 2 then .negInf else .nan

def boundWord (b : Bound) : DWord := b.beta ++ (0 : BitVec 2) ++ b.j ++ (0 : BitVec 7) ++ BitVec.ofBool b.nan ++ b.e
def wordBound (w : DWord) : Bound := ⟨w.extractLsb' 0 16, w.getLsbD 16, w.extractLsb' 32 32, w.extractLsb' 24 6⟩

/-- A cluster's fixed section; `rb` holds the primary's base in its low and the secondary's in its high half. -/
def clusterBytes (k : Cluster) (rb : Byte) : List Byte :=
  let block :=
    (k.a.list.flatMap fun x => bytesLE 8 x.toNat) ++ (k.q.list.flatMap fun x => bytesLE 8 x.toNat) ++
    (k.m.list.flatMap fun x => bytesLE 8 x.toNat) ++ (k.lc.toList.flatMap fun x => bytesLE 4 x.toNat) ++ k.st.list ++
    bytesLE 8 k.cfg.toNat ++ bytesLE 2 (bitsWord (fun i => k.p.read (BitVec.ofNat 4 i)) 16) ++
    [rb, k.tr.tag.setWidth 8, k.tr.wp.setWidth 8, k.tr.cp.setWidth 8]
  let rows := k.acc.list
  let flags :=
    (rows.flatMap fun r => bytesLE 2 r.anchor.toNat) ++
    bytesLE 8 (bitsWord (fun i => (k.acc.read (BitVec.ofNat 6 i)).overwrite) 64) ++
    bytesLE 8 (bitsWord (fun i => (k.acc.read (BitVec.ofNat 6 i)).inexact) 64) ++
    bytesLE 8 (bitsWord (fun i => (k.acc.read (BitVec.ofNat 6 i)).sat) 64) ++ bytesLE 8 (boundWord k.tb).toNat ++
    (k.v.list.map fun x => x.tag.setWidth 8) ++ padTo 64 (k.t.list.map fun x => x.tag.setWidth 8) ++
    (k.resident.list.map fun x => x.tag.setWidth 8) ++ (k.shadow.list.map fun x => x.tag.setWidth 8)
  let tile (cols : Bank 6 BCol) : List Byte :=
    (cols.list.flatMap fun x => bytesLE 64 x.codes.toNat) ++ (cols.list.flatMap fun x => bytesLE 8 x.scales.toNat)
  padTo 0x400 (padTo 0x200 block ++ flags) ++
  (k.v.list.flatMap fun x => regBytes x.lanes) ++
  (k.t.list.flatMap fun x => x.rows.list.flatMap fun y => bytesLE 64 y.toNat) ++
  (k.t.list.flatMap fun x => x.scales.list.flatMap fun y => bytesLE 8 y.toNat) ++
  (rows.flatMap fun r => r.elems.list.flatMap fun e => bytesLE 8 e.sum.toNat) ++
  (rows.flatMap fun r => bytesLE 16 (packNat 2 (r.elems.list.map fun e => specialCode e.state))) ++
  (rows.flatMap fun r => bytesLE 4 r.max.toNat) ++ tile k.resident ++ tile k.shadow ++
  (k.tr.rows.list.flatMap fun r => r.list.flatMap fun x => bytesLE 4 x.toNat)

/-- A cluster from its fixed section. -/
def bytesCluster (bs : List Byte) : Cluster :=
  let d (off : Nat) : DWord := BitVec.ofNat 64 (natAt bs off 8)
  let b (off : Nat) : Byte := nth bs off 0
  let col (codes tags : Nat) (i : BitVec 6) : BCol :=
    ⟨BitVec.ofNat 512 (natAt bs (codes + 64 * i.toNat) 64), d (codes + 4096 + 8 * i.toNat), (b (tags + i.toNat)).setWidth 5⟩
  { a := Bank.ofFn fun i => d (8 * i.toNat)
    v := Bank.ofFn fun i => ⟨lanesOfBytes ((bs.drop (0x400 + 256 * i.toNat)).take 256), (b (0x2A0 + i.toNat)).setWidth 5⟩
    t := Bank.ofFn fun i =>
      { rows := Bank.ofFn fun r => BitVec.ofNat 512 (natAt bs (0x2400 + 4096 * i.toNat + 64 * r.toNat) 64)
        scales := Bank.ofFn fun r => d (0x2400 + 32768 + 512 * i.toNat + 8 * r.toNat)
        tag := (b (0x2C0 + i.toNat)).setWidth 5 }
    acc := Bank.ofFn fun r =>
      { elems := Bank.ofFn fun c =>
          ⟨d (0xB400 + 512 * r.toNat + 8 * c.toNat), codeSpecial (field (natAt bs (0xB400 + 32768 + 16 * r.toNat) 16) (2 * c.toNat) 2)⟩
        anchor := BitVec.ofNat 16 (natAt bs (0x200 + 2 * r.toNat) 2)
        overwrite := (d 0x280).getLsbD r.toNat
        inexact := (d 0x288).getLsbD r.toNat
        sat := (d 0x290).getLsbD r.toNat
        max := BitVec.ofNat 32 (natAt bs (0x13800 + 4 * r.toNat) 4) }
    p := Bank.ofFn fun i => bitOf (natAt bs 0x1F0 2) i.toNat
    q := Bank.ofFn fun i => d (0x100 + 8 * i.toNat)
    m := Bank.ofFn fun i => d (0x180 + 8 * i.toNat)
    lc := Vector.ofFn fun i => BitVec.ofNat 32 (natAt bs (0x1C0 + 4 * i.val) 4)
    st := Bank.ofFn fun i => b (0x1D8 + i.toNat)
    cfg := d 0x1E8 &&& cfgFields
    resident := Bank.ofFn (col 0x13900 0x300)
    shadow := Bank.ofFn (col (0x13900 + 4608) 0x340)
    tr := ⟨Bank.ofFn fun r => Bank.ofFn fun c => BitVec.ofNat 32 (natAt bs (0x15D00 + 256 * r.toNat + 4 * c.toNat) 4),
      (b 0x1F3).setWidth 5, (b 0x1F4).setWidth 6, (b 0x1F5).setWidth 6⟩
    tb := wordBound (d 0x298) }

/-! ### In-flight results (R367) -/

/-- An entry of an in-flight list: its type, destination, tag, lane mask, payload and the payload's poison. -/
structure FlightEntry where
  type : Nat
  dest : Nat
  tag : Tag
  mask : DWord
  payload : List Byte
  bad : Bool

/-- Lanes whose every bit a bit mask marks. -/
def fullLanes (m : Bank 6 Word) : DWord := bitsOf fun l => m.read (BitVec.ofNat 6 l) == -1

/-- A scalar-like result: its variant in dest bits 14:9, a register in bits 8:0, its words in the payload. -/
def smallEntry (variant reg : Nat) (tag : Tag) (ws : List DWord) : FlightEntry :=
  ⟨1, 512 * variant + reg, tag, 0, padTo 256 (words ws), false⟩

def packWrite : RegWrite → FlightEntry
  | .vec r mask data tag => ⟨1, r.toNat, tag, fullLanes mask, regBytes data ++ regBytes mask, false⟩
  | .quarter r q data tag => ⟨4, 4 * r.toNat + q.toNat, tag, -1, data.list.flatMap fun x => bytesLE 4 x.toNat, false⟩
  | .contribution row overwrite cols clamped =>
    let es := cols.list.map fun ps => foldProducts ⟨0, .finite⟩ ps
    ⟨2, row.toNat + if overwrite then 64 else 0, 0, 0,
      (es.flatMap fun e => bytesLE 8 e.1.sum.toNat) ++
        es.map fun e => BitVec.ofNat 8 (specialCode e.1.state + (if e.2.1 then 4 else 0) + if clamped || e.2.2 then 8 else 0), false⟩
  | .scalar r x => smallEntry 1 r.toNat 0 [x]
  | .pred r b => smallEntry 2 r.toNat 0 [ofBool b]
  | .lanePred r mask data => smallEntry 3 r.toNat 0 [mask, data]
  | .tileRow t row codes scales tag =>
    ⟨1, 512 * 4 + 64 * t.toNat + row.toNat, tag, 0, padTo 256 (bytesLE 64 codes.toNat ++ words [scales]), false⟩
  | .vecTag r tag => smallEntry 5 r.toNat tag []
  | .tileTag t tag clear => smallEntry 6 t.toNat tag [ofBool clear]
  | .tileMask n x => smallEntry 7 n.toNat 0 [x]
  | .tileMaskBit n j => smallEntry 8 n.toNat 0 [zext j]
  | .scale i e => smallEntry 9 i.toNat 0 [zext e]
  | .cfgBits a b => smallEntry 10 0 0 [a, b]
  | .margin x => smallEntry 11 0 0 [zext x]
  | .anchor r a => smallEntry 12 r.toNat 0 [zext a]
  | .policy r o clr => smallEntry 13 r.toNat 0 [ofBool o, ofBool clr]
  | .bound b => smallEntry 14 0 0 [boundWord b]
  | .rowMax r x => smallEntry 15 r.toNat 0 [zext x]
  | .clearMaxes => smallEntry 16 0 0 []
  | .clearTransposer => smallEntry 17 0 0 []
  | .nothing => smallEntry 18 0 0 []

def unpackWrite (e : FlightEntry) : RegWrite :=
  let w (i : Nat) : DWord := wordAt e.payload i
  let r (n : Nat) : BitVec n := BitVec.ofNat n e.dest
  if e.type = 4 then
    .quarter (BitVec.ofNat 5 (e.dest / 4)) (r 2) (Bank.ofFn fun l => BitVec.ofNat 32 (natAt e.payload (4 * l.toNat) 4)) e.tag
  else if e.type = 2 then
    let f (c : Nat) : Nat := (nth e.payload (512 + c) 0).toNat
    .contribution (r 6) (bitOf e.dest 6) (Bank.ofFn fun c =>
      let sum := Product.fin (w c.toNat).toInt (!bitOf (f c.toNat) 2)
      match codeSpecial (f c.toNat % 4) with
      | .finite => [sum]
      | st => [sum, .special st]) ((List.range 64).any fun c => bitOf (f c) 3)
  else
    match e.dest / 512 with
    | 0 => .vec (r 5) (lanesOfBytes (e.payload.drop 256)) (lanesOfBytes (e.payload.take 256)) e.tag
    | 1 => .scalar (r 5) (w 0)
    | 2 => .pred (r 4) ((w 0).getLsbD 0)
    | 3 => .lanePred (r 4) (w 0) (w 1)
    | 4 => .tileRow (BitVec.ofNat 3 (e.dest / 64)) (r 6) (BitVec.ofNat 512 (natAt e.payload 0 64)) (w 8) e.tag
    | 5 => .vecTag (r 5) e.tag
    | 6 => .tileTag (r 3) e.tag ((w 0).getLsbD 0)
    | 7 => .tileMask (r 3) (w 0)
    | 8 => .tileMaskBit (r 3) ((w 0).setWidth 6)
    | 9 => .scale (r 4) ((w 0).setWidth 8)
    | 10 => .cfgBits (w 0 &&& cfgFields) (w 1)
    | 11 => .margin ((w 0).setWidth 32)
    | 12 => .anchor (r 6) ((w 0).setWidth 16)
    | 13 => .policy (r 6) ((w 0).getLsbD 0) ((w 1).getLsbD 0)
    | 14 => .bound (wordBound (w 0))
    | 15 => .rowMax (r 6) ((w 0).setWidth 32)
    | 16 => .clearMaxes
    | 17 => .clearTransposer
    | _ => .nothing

/-- A landed request as an entry; one whose remote target refused it has dest bit 14 set. -/
def packLanding (f : FarReq) : FlightEntry :=
  let lanes (data : Bank 6 DWord) (hi : Bool) : List Byte :=
    regBytes (Bank.ofFn fun l => (data.read l).extractLsb' (if hi then 32 else 0) 32)
  let (data, bad) : Bank 6 DWord × Bool := match f.phase with
    | .landed d b => (d, b)
    | .served d b => (d, b)
    | _ => (Bank.fill 0, false)
  ⟨3, f.dest.toNat + if f.phase == .failed then 16384 else 0, f.tag, -1,
    lanes data false ++ if tagPair f.tag then lanes data true else [], bad⟩

/-- The descriptor's first word. -/
def flightWord (e : FlightEntry) (sec : Bool) (left : Nat) : DWord :=
  BitVec.ofNat 4 e.type ++ BitVec.ofBool sec ++ (0 : BitVec 7) ++ e.tag ++ BitVec.ofNat 15 e.dest ++ (0 : BitVec 16) ++ BitVec.ofNat 16 left

/-- A block of an image and whether it is written poisoned. -/
abbrev ImageBlock := List Byte × Bool

/-- Bytes cut into blocks of 64. -/
def toBlocks (bad : Bool) : Nat → List Byte → List ImageBlock
  | 0, _ => []
  | n + 1, bs => (padTo 64 (bs.take 64), bad) :: toBlocks bad n (bs.drop 64)
def blocksFor (bad : Bool) (bs : List Byte) : List ImageBlock := toBlocks bad ((bs.length + 63) / 64) bs

def entryBlocks (e : FlightEntry) (sec : Bool) (left : Nat) : List ImageBlock :=
  blocksFor false (words [flightWord e sec left, e.mask]) ++ blocksFor e.bad e.payload

/-- The runs of an engine with their positions. -/
def engineRuns (g : Engine) : List (Bool × KernelRun) :=
  (g.primary.toList.map fun r => (false, r)) ++ g.secondary.toList.map fun r => (true, r)

/-- Put an entry after those that are no younger. -/
def insertAge (x : Nat × List ImageBlock) : List (Nat × List ImageBlock) → List (Nat × List ImageBlock)
  | [] => [x]
  | y :: ys => if x.1 < y.1 then x :: y :: ys else y :: insertAge x ys

/-- A cluster's in-flight list, in the order of issue, which a restore reads back from it (R49). -/
def flightList (g : Engine) (c : ClusterId) : List ImageBlock :=
  let all : List (Nat × List ImageBlock) := (engineRuns g).flatMap fun x =>
    ((x.2.inflight.filter fun f => f.cluster == c && f.what != .nothing).map fun f =>
        (f.issued, entryBlocks (packWrite f.what) x.1 (f.due - x.2.kc))) ++
      (x.2.far.filter fun f => f.cluster == c).map fun f => (f.issued, entryBlocks (packLanding f) x.1 (f.due - x.2.kc))
  let entries := (all.foldl (fun xs x => insertAge x xs) []).map (·.2)
  blocksFor false (words [BitVec.ofNat 64 entries.length]) ++ entries.flatten

/-! ### The engine section -/

def loopWords (l : LoopSt) : List DWord :=
  [BitVec.ofNat 64 (l.level.toNat + (if l.sw then 256 else 0) + 65536 * l.stages), BitVec.ofNat 64 (l.first + 2 ^ 32 * l.last),
    BitVec.ofNat 64 l.count, BitVec.ofNat 64 l.trip]
/-- What a kernel that issues no further bundle still owes: the clamp of its margin, its overflow, and how it ends. -/
def endWords (r : KernelRun) : List DWord :=
  let flags (n : BitVec 2) : DWord := zext (BitVec.ofBool r.skipMatch ++ BitVec.ofBool r.noSnap ++ n ++ BitVec.ofBool r.overflow ++ BitVec.ofBool r.clamp)
  match r.ending with
  | none => [flags 0, 0]
  | some .halted => [flags 1, 0]
  | some (.ktrap code) => [flags 2, zext code]
  | some (.fault kind b slot bundle) => [flags 3, zext (bundle ++ (0 : BitVec 5) ++ slot ++ b ++ kind)]
def wordsEnd (a b : DWord) : Option KEnd :=
  match a.extractLsb' 2 2 with
  | 0#2 => none
  | 1#2 => some .halted
  | 2#2 => some (.ktrap (b.extractLsb' 0 16))
  | _ => some (.fault (b.extractLsb' 0 8) (b.extractLsb' 8 8) (b.extractLsb' 16 3) (b.extractLsb' 24 12))
def runBytes (clock : Nat) : Option KernelRun → List Byte
  | none => List.replicate 512 0
  | some r =>
    let lock : DWord := match r.lock with
      | some l => BitVec.ofNat 64 (1 + 2 * min (l.ends - clock) 127 + 256 * l.bundles +
          65536 * packNat 7 (l.banks ++ List.replicate (6 - l.banks.length) 0x7F))
      | none => 0
    padTo 512 (words ([zext r.handle, BitVec.ofNat 64 r.idx, BitVec.ofNat 64 r.kc, r.image.amask, r.image.vmask, r.image.accmask,
      BitVec.ofNat 16 r.image.tmask.toNat ++ (0 : BitVec 2) ++ r.image.lcmask ++ r.image.mmask ++ r.image.qmask ++ r.image.pmask,
      zext r.entry, BitVec.ofNat 64 r.loops.length, lock] ++ endWords r ++ r.loops.flatMap loopWords))

/-- The arrivals that results in flight still owe. -/
def arrivalWords (g : Engine) : List DWord :=
  (engineRuns g).flatMap fun x =>
    let one (due : Nat) (a : Option (BitVec 2)) : List DWord := match a with
      | some n => [BitVec.ofNat 64 ((due - x.2.kc) + 65536 * n.toNat + if x.1 then 2 ^ 24 else 0)]
      | none => []
    (x.2.inflight.flatMap fun f => one f.due f.arrive) ++ x.2.far.flatMap fun f => one f.due f.arrive
/-- Equal words counted together, the count in bits 63:32. -/
def countWords (ws : List DWord) : List DWord := ws.eraseDups.map fun w => w ||| (BitVec.ofNat 64 (ws.count w) <<< 32)

def engineBytes (k : CoreSt) : List Byte :=
  let g := k.eng
  let arr := countWords (arrivalWords g)
  let rates : List DWord := g.rates.map fun r =>
    BitVec.ofNat 64 (r.1.1.num.toNat + 256 * r.1.2.toNat + 65536 * min (g.issued - r.2.1) 65535 + 2 ^ 32 +
      2 ^ 48 * min (g.issued + g.fair - r.2.2) 65535)
  padTo 4032 (runBytes g.clock g.primary ++ runBytes g.clock g.secondary ++
    words ([BitVec.ofNat 64 g.blocked, k.kstat, k.kstat2, BitVec.ofNat 64 k.kcycle] ++ k.kb.list ++
      (rates ++ List.replicate (32 - rates.length) 0) ++ [BitVec.ofNat 64 arr.length] ++ arr))

/-! ### Whole images -/

/-- The kind 1 sections after the header, as blocks; the section of cluster `bad` is poisoned (R386). -/
def imageBody (k : CoreSt) (bad : Option ClusterId) : List ImageBlock :=
  let rb : Byte := match k.eng.primary, k.eng.secondary with
    | some a, some b => b.rb ++ a.rb
    | some a, none => (0 : BitVec 4) ++ a.rb
    | none, some b => b.rb ++ (0 : BitVec 4)
    | none, none => 0
  blocksFor false (engineBytes k) ++ allClusters.flatMap fun c => blocksFor (bad == some c) (clusterBytes (k.clusters.read c) rb)

def flightBlocks (k : CoreSt) : List ImageBlock := allClusters.flatMap (flightList k.eng)

/-- The header of an image over the bytes after it. -/
def imageHeader (kind : Nat) (k : CoreSt) (c : CoreId) (reason : BitVec 4) (launch : Addr) (infoff cisoff : Nat) (body : List Byte)
    (valid : Bool) : List Byte :=
  let kc (r : Option KernelRun) : Nat := (r.map (·.kc)).getD 0
  let hd (r : Option KernelRun) : BitVec 12 := (r.map (·.handle)).getD 0
  words [(0xA25E : BitVec 16) ++ (3 : Byte) ++ BitVec.ofNat 8 kind ++ BitVec.ofNat 32 (1 + body.length / 64),
    BitVec.ofBool valid ++ c ++ (16 : Byte) ++ (0 : BitVec 4) ++ reason ++ (0 : BitVec 6) ++ BitVec.ofBool k.eng.secondary.isSome ++
      BitVec.ofBool k.eng.primary.isSome ++ (0 : BitVec 32),
    BitVec.ofNat 32 (kc k.eng.secondary) ++ BitVec.ofNat 32 (kc k.eng.primary),
    (0 : BitVec 4) ++ hd k.eng.secondary ++ (0 : BitVec 4) ++ hd k.eng.primary ++ (0 : BitVec 32),
    BitVec.ofNat 64 k.eng.stopcc, zext launch, BitVec.ofNat 32 cisoff ++ BitVec.ofNat 32 infoff, zext (crc32 body)]

/-- Write blocks of an image from an address up, for a partition; the address of the block that could not be written. -/
def State.writeImage (s : State) (p : PartId) (va : Nat) : List ImageBlock → State × Option Nat
  | [] => (s, none)
  | (bs, bad) :: rest =>
    match s.resolveIn p va .store with
    | .error _ => (s, some va)
    | .ok (pa, s') =>
      if s'.tagged pa || s'.poisoned pa 64 then (s, some va)
      else
        let s' := s'.writePhys pa bs
        (if bad then s'.setPoison (blockOf pa) true else s').writeImage p (va + 64) rest

/-- Write an image's header with its valid bit 0, its body, then its header with the bit 1 (R365). -/
def State.writeWhole (s : State) (p : PartId) (va : Nat) (header : Bool → List Byte) (body : List ImageBlock) : State × Option Nat :=
  match s.writeImage p va ((header false, false) :: body) with
  | (s, none) => s.writeImage p va [(header true, false)]
  | r => r

/-- Write a kind 1 image of a core's engine, valid last; whether it is complete. -/
def State.saveEngine (s : State) (p : PartId) (va : Nat) (k : CoreSt) (c : CoreId) (reason : BitVec 4) (launch : Addr) (bad : Option ClusterId) : State × Bool :=
  let sections := imageBody k bad
  let body := sections ++ flightBlocks k
  let bytes := body.flatMap (·.1)
  let (s, e) := s.writeWhole p va (imageHeader 1 k c reason launch (1 + sections.length) 0 bytes) body
  (s, e.isNone)

/-- Read an image's blocks; none when one does not read or is poisoned. -/
def State.readImage (s : State) (p : PartId) (va : Nat) : Nat → Option (List Byte)
  | 0 => some []
  | n + 1 =>
    match s.resolveIn p va .load with
    | .error _ => none
    | .ok (pa, _) => if isHost pa || s.poisoned pa 64 then none else (s.readImage p (va + 64) n).map (s.bytesPhys pa 64 ++ ·)

/-- An image that can be used: magic, version, kind, valid bit and crc. -/
def State.loadImage (s : State) (p : PartId) (va kind : Nat) : Option (List Byte) :=
  match s.readImage p va 1 with
  | none => none
  | some h =>
    let n := natAt h 0 4
    match s.readImage p va n with
    | none => none
    | some bs =>
      if natAt h 6 2 = 0xA25E && natAt h 5 1 = 3 && natAt h 4 1 = kind && bitOf (natAt h 8 8) 63 &&
        natAt h 56 4 = (crc32 (bs.drop 64)).toNat then some bs else none

/-! ### Restoring (R368) -/

/-- The entries of one in-flight list: what each is, with its kernel and the kc left. -/
def readEntries : Nat → List Byte → List (FlightEntry × Bool × Nat) × List Byte
  | 0, bs => ([], bs)
  | n + 1, bs =>
    let w := wordAt bs 0
    let type := (w.extractLsb' 60 4).toNat
    let tag : Tag := w.extractLsb' 47 5
    let dest := (w.extractLsb' 32 15).toNat
    let size := if type = 2 then 576 else if type = 4 then 64 else if type = 3 then (if tagPair tag then 512 else 256)
      else if dest / 512 = 0 then 512 else 256
    let e : FlightEntry := ⟨type, dest, tag, wordAt bs 1, (bs.drop 64).take size, false⟩
    let (es, rest) := readEntries n (bs.drop (64 + size))
    ((e, w.getLsbD 59, (w.extractLsb' 0 16).toNat) :: es, rest)

/-- An entry with its cluster and its place in that cluster's list, which stands for its age. -/
structure ListEntry where
  cluster : ClusterId
  age : Nat
  entry : FlightEntry
  sec : Bool
  left : Nat

def readLists : List ClusterId → List Byte → List ListEntry
  | [], _ => []
  | c :: cs, bs =>
    let (es, rest) := readEntries (natAt bs 0 8) (bs.drop 64)
    es.zipIdx.map (fun e => ⟨c, e.2, e.1.1, e.1.2.1, e.1.2.2⟩) ++ readLists cs rest

/-- A landed request from its entry. -/
def unpackLanding (c : ClusterId) (age : Nat) (e : FlightEntry) (due : Nat) : FarReq where
  issued := age
  cluster := c
  due := due
  op := .load
  home := false
  alloc := ⟨0, 0, 0, 0, 0, 0⟩
  row := 0
  dest := BitVec.ofNat 5 e.dest
  tag := e.tag
  arrive := none
  phase := if bitOf e.dest 14 then .failed else
    .landed (Bank.ofFn fun l => BitVec.ofNat 32 (natAt e.payload (256 + 4 * l.toNat) 4) ++ BitVec.ofNat 32 (natAt e.payload (4 * l.toNat) 4)) false

/-- A kernel's part of the engine section put over the kernel in its position. -/
def restoreRun (bs : List Byte) (sec : Bool) (rb : BitVec 4) (clock : Nat) (flights : List ListEntry) (arrivals : List DWord)
    (r : KernelRun) : KernelRun :=
  let w (i : Nat) : DWord := wordAt bs i
  let kc := (w 2).toNat
  let mine := flights.filter fun f => f.sec == sec
  let loops := (List.range (w 8).toNat).map fun i =>
    let a := w (12 + 4 * i)
    let b := w (13 + 4 * i)
    (⟨a.extractLsb' 0 3, (b.extractLsb' 0 32).toNat, (b.extractLsb' 32 32).toNat, (w (14 + 4 * i)).toNat, a.getLsbD 8,
      (w (15 + 4 * i)).toNat, (a.extractLsb' 16 16).toNat⟩ : LoopSt)
  let arrive (a : DWord) : List InFlight :=
    List.replicate (a.extractLsb' 32 32).toNat ⟨0, kc + (a.extractLsb' 0 16).toNat, 0, .nothing, some (a.extractLsb' 16 2)⟩
  { r with
    image := { r.image with
      amask := w 3, vmask := w 4, accmask := w 5, pmask := (w 6).extractLsb' 0 16, qmask := (w 6).extractLsb' 16 16
      mmask := (w 6).extractLsb' 32 8, lcmask := (w 6).extractLsb' 40 6, tmask := (w 6).extractLsb' 48 16 }
    entry := (w 7).extractLsb' 0 6
    idx := (w 1).toNat
    kc := kc
    loops := loops
    rb := rb
    lock := if (w 9).getLsbD 0 then
        some ⟨((List.range 6).map fun j => field (w 9).toNat (16 + 7 * j) 7).filter (· != 0x7F), ((w 9).extractLsb' 8 8).toNat,
          clock + ((w 9).extractLsb' 1 7).toNat⟩ else none
    clamp := (w 10).getLsbD 0
    overflow := (w 10).getLsbD 1
    ending := wordsEnd (w 10) (w 11)
    noSnap := (w 10).getLsbD 4
    skipMatch := (w 10).getLsbD 5
    inflight := ((mine.filter fun f => f.entry.type ≠ 3).map fun f =>
        (⟨f.age, kc + f.left, f.cluster, unpackWrite f.entry, none⟩ : InFlight)) ++
      (arrivals.filter fun a => a.getLsbD 24 == sec).flatMap arrive
    far := (mine.filter fun f => f.entry.type = 3).map fun f => unpackLanding f.cluster f.age f.entry (kc + f.left) }

/-- A slot by its number (R17). -/
def slotOf (n : Nat) : Slot := (Slot.all[n]?).getD .A

/-- Every section of a kind 1 image put over a core's stopped engine; its CSRs and barriers included, its Cistern not. -/
def CoreSt.restoreEngine (k : CoreSt) (bs : List Byte) : CoreSt :=
  let eng := bs.drop 64
  let tail := eng.drop 1024
  let flights := readLists allClusters (bs.drop (64 * natAt bs 48 4))
  let arrivals := (List.range (wordAt tail 40).toNat).map fun i => wordAt tail (41 + i)
  let rb := nth bs (0x1000 + 0x1F2) 0
  let issued := k.eng.issued + 65536
  let clock := k.eng.clock + 65536
  let rates := ((List.range 32).map fun i => wordAt tail (8 + i)).filter fun w => w.getLsbD 32
  { k with
    clusters := Bank.ofFn fun c => bytesCluster ((bs.drop (0x1000 + 105728 * c.toNat)).take 105728)
    kstat := wordAt tail 1 &&& kstatFields
    kstat2 := wordAt tail 2 &&& kstat2Fields
    kcycle := (wordAt tail 3).toNat
    kb := Bank.ofFn fun n => wordAt tail (4 + n.toNat)
    eng := { k.eng with
      primary := k.eng.primary.map (restoreRun (eng.take 512) false (rb.extractLsb' 0 4) clock flights arrivals)
      secondary := k.eng.secondary.map (restoreRun ((eng.drop 512).take 512) true (rb.extractLsb' 4 4) clock flights arrivals)
      blocked := (wordAt tail 0).toNat
      clock := clock
      left := k.eng.left.map fun l => { l with ends := l.ends + 65536 }
      issued := issued
      rates := rates.map fun w =>
        ((slotOf (w.extractLsb' 0 8).toNat, w.extractLsb' 8 2), issued - (w.extractLsb' 16 16).toNat,
          issued + k.eng.fair - (w.extractLsb' 48 16).toNat) } }

/-! ### SNAPSAVE and SNAPLOAD (R368) -/

/-- The partition of the active core, for a target core in it. -/
def State.snapTarget (s : State) (ga : DWord) : Option PartId :=
  match s.partOf s.active with
  | some p => if ga.extractLsb' 7 57 == 0 && mapHas s.pmaps p (ga.extractLsb' 0 7) then some p else none
  | none => none

/-- SNAPSAVE: the engine stops, which waits for the LOCKs at the targets of its remote atomics (R262, R364), and its image is written
(R368). -/
def execSnapsave (d a b : BitVec 5) (s : State) : Out :=
  if !s.cur.sys then .next (s.illegal (.snapsave d a b))
  else
    match checkAddr (s.g b) 4096 with
    | .error e => .next (s.refuse e)
    | .ok _ =>
      match s.snapTarget (s.g a) with
      | none => .next (s.result d 1)
      | some p =>
        let c : CoreId := (s.g a).extractLsb' 0 7
        if !s.farSettles c then .next s
        else
        let s' := s.stopEngine c 2
        let (s', ok) := s'.saveEngine p (s.g b).toNat (s'.core c) c 2 (s'.launchOf c) none
        .next (s'.result d (if ok then 0 else 3))

/-- Whether a core's kernels are those that an image names. -/
def sameKernels (k : CoreSt) (bs : List Byte) : Bool :=
  let has (bit : Nat) : Bool := bitOf (natAt bs 8 8) bit
  let hd (r : Option KernelRun) : Nat := (match r with | some x => x.handle.toNat | none => 0)
  k.eng.primary.isSome == has 32 && k.eng.secondary.isSome == has 33 && hd k.eng.primary == field (natAt bs 24 8) 32 12 &&
    hd k.eng.secondary == field (natAt bs 24 8) 48 12

def execSnapload (d a b : BitVec 5) (s : State) : Out :=
  if !s.cur.sys then .next (s.illegal (.snapload d a b))
  else
    match checkAddr (s.g b) 4096 with
    | .error e => .next (s.refuse e)
    | .ok _ =>
      match s.snapTarget (s.g a) with
      | none => .next (s.result d 1)
      | some p =>
        let c : CoreId := (s.g a).extractLsb' 0 7
        let k := s.core c
        let other : Bool := match s.readImage p (s.g b).toNat 1 with
          | some h => !sameKernels k h
          | none => false
        if k.eng.stopped.isNone || other then .next (s.result d 5)
        else
          match s.loadImage p (s.g b).toNat 1 with
          | none => .next (s.result d 4)
          | some bs => .next ((s.modCore c fun k => k.restoreEngine bs).result d 0)

end Sys2Proof.Machine
end

