-- ==== Sys2Proof/Machine/Bundles.lean ====
section
/-! DEFINITION. A cc of a core's kernel engine and what follows from it outside the core: remote atomics, breakpoints,
snapshots at a fault (R208, R209, R262, R364, R369, R376). -/

namespace Sys2Proof.Machine

/-- Write the image owed at a fault or a breakpoint to csr.ksnap (R369), the section of cluster `spoilt` poisoned (R386);
whether it could not be written. -/
def State.owedSnapshotAs (s : State) (c : CoreId) (k : CoreSt) (reason : BitVec 4) (launch : Addr) (spoilt : Option ClusterId) : State × Bool :=
  if k.ksnap == 0 then (s, false)
  else
    match s.partOf c with
    | none => (s, true)
    | some p =>
      let (s, ok) := s.saveEngine p k.ksnap.toNat { k with eng := { k.eng with stopcc := s.cycle } } c reason launch spoilt
      (s, !ok)

def State.owedSnapshot (s : State) (c : CoreId) (k : CoreSt) (reason : BitVec 4) (launch : Addr) : State × Bool :=
  s.owedSnapshotAs c k reason launch none

/-- The image of a merge kernel goes to shadow storage that the device reserves (R369). -/
def State.keepMerge (s : State) (c : CoreId) (k : CoreSt) (pos : KPos) (spoilt : Option ClusterId) : State :=
  match k.run pos with
  | none => s
  | some r => s.modCore c fun x => { x with mergeImages := x.mergeImages ++ [⟨r, k.clusters, spoilt⟩] }

/-- A bundle breakpoint stops the engine and raises BREAK (R369, R376). A merge kernel leaves no image at csr.ksnap. -/
def State.bundleBreak (s : State) (c : CoreId) (pos : KPos) : State :=
  match (s.core c).run pos with
  | none => s
  | some r =>
    let s := s.stopEngine c 3
    let (s, bad) := if r.merge.isSome then (s, false) else s.owedSnapshot c (s.core c) 3 r.launch
    let n := (bundleMatch (s.core c) r).getD 0
    s.modCore c fun k => k.pend (mkTrap cBreak (BitVec.ofNat 64 n) (BitVec.ofNat 64 r.idx) r.task (noSnap := bad))

/-- Whether a kernel of a core faults in a cc that leads to the engine `e`. -/
def faultsNow (k : CoreSt) (e : Engine) (pos : KPos) : Bool :=
  match k.run pos, e.run pos with
  | some a, some b => a.ending.isNone && (match b.ending with
    | some (.fault _ _ _ _) => true
    | _ => false)
  | _, _ => false

/-- The snapshot that a kernel faulting in this cc owes, taken of the core `k` as it stood before the bundle (R369). -/
def State.snapFault (s : State) (c : CoreId) (k : CoreSt) (pos : KPos) : State :=
  match k.run pos with
  | none => s
  | some r =>
    if r.merge.isSome then s.keepMerge c k pos none
    else
      let (s, bad) := s.owedSnapshot c k 4 r.launch
      s.modCore c fun x => x.modRun pos fun y => { y with noSnap := bad }

/-- One cc of a core's kernel engine. A kernel that faults has its requests completed first, as a stop does (R364); while a LOCK at the
target of one keeps it from performing, the engine stands at the bundle (R262). -/
def State.engineStep (s : State) (c : CoreId) (given : Option (List Instr)) : State :=
  let peers := s.peers c
  let first := engineCc (s.core c) c peers given
  let falls := faultsNow (s.core c) first.core.eng .primary || faultsNow (s.core c) first.core.eng .secondary
  if (falls || first.stop.isSome) && !s.farSettles c then s.modCore c CoreSt.tick
  else
  let s := if falls then s.finishFar c else s
  let k := s.core c
  let before := k.tick.settle
  let o := engineCc k c peers given
  let s := (s.setCore c o.core).sendRemotes c o.remote
  let s := if faultsNow k o.core.eng .primary then s.snapFault c before .primary else s
  let s := if faultsNow k o.core.eng .secondary then s.snapFault c before .secondary else s
  match o.stop with
  | some pos => s.bundleBreak c pos
  | none => s

/-- Whether the fairness cc of a core is due (R209). -/
def CoreSt.fairnessDue (k : CoreSt) : Bool :=
  decide (Config.fairness ≤ k.eng.blocked) && k.eng.secondary.any KernelRun.live

/-- KERNEL_BUNDLE_ISSUE. -/
def execKernelBundleIssue (c : CoreId) (s : State) : Out :=
  .next (if (s.core c).fairnessDue then s else s.engineStep c none)

/-- SECONDARY_FAIRNESS_ISSUE. -/
def execSecondaryFairnessIssue (c : CoreId) (s : State) : Out :=
  .next (if (s.core c).fairnessDue then s.engineStep c none else s)

/-- LOCK_HOLD_END: a hold whose 64 cc have passed ends, as do those of ended kernels; the last of its bundles ends it as that issues
(`stepLock`, R262). -/
def execLockHoldEnd (c : CoreId) (pos : KPos) (s : State) : Out :=
  .next (s.modCore c fun k =>
    let k := { k with eng := { k.eng with left := k.eng.left.filter fun l => k.eng.clock ≤ l.ends } }
    k.modRun pos fun r => { r with lock := r.lock.filter fun l => k.eng.clock ≤ l.ends })

/-- A slot operation as a bundle of its own: the active core's primary kernel issues it in one cc. A core without a primary
kernel has nothing to issue it for. -/
def State.issueSolo (s : State) (i : Instr) : State :=
  match s.cur.run .primary with
  | some _ => s.engineStep s.active (some [i])
  | none => s

end Sys2Proof.Machine
end

