-- ==== Sys2Proof/Machine/Slots.lean ====
section
/-! DEFINITION. The slot operations of a kernel bundle, each issued by itself: its effect is the one `slotSem` gives it (R94 to R103,
R129 to R202, R439). -/

namespace Sys2Proof.Machine

/-- SLOT_NOP. R96. Occupied slot with no effect. -/
def execSlotNop (h : SlotHdr) (s : State) : Out := .next (s.issueSolo (.slotNop h))
/-- BR. R134. Transfers control to a bundle index of the kernel. -/
def execBr (h : SlotHdr) (target : BitVec 12) (s : State) : Out := .next (s.issueSolo (.br h target))
/-- LOOP. R135. Opens a hardware loop with a trip count from a register or the iteration shape. -/
def execLoop (h : SlotHdr) (lvl : BitVec 3) (a : BitVec 5) (byShape : Bool) (len : BitVec 6) (s : State) : Out :=
  .next (s.issueSolo (.loop h lvl a byShape len))
/-- LOOPI. R135. Opens a hardware loop with an immediate trip count. -/
def execLoopi (h : SlotHdr) (lvl : BitVec 3) (trip : BitVec 7) (len : BitVec 6) (s : State) : Out :=
  .next (s.issueSolo (.loopi h lvl trip len))
/-- LOOP_SW. R137. Opens a software-pipelined loop with stage predicates and register rotation. -/
def execLoopSw (h : SlotHdr) (lvl : BitVec 3) (a : BitVec 5) (byShape : Bool) (stages : BitVec 3) (ii : BitVec 4) (s : State) : Out :=
  .next (s.issueSolo (.loopSw h lvl a byShape stages ii))
/-- LOOPI_SW. R137. Opens a software-pipelined loop with an immediate trip count. -/
def execLoopiSw (h : SlotHdr) (lvl : BitVec 3) (trip : BitVec 6) (stages : BitVec 3) (ii : BitVec 4) (s : State) : Out :=
  .next (s.issueSolo (.loopiSw h lvl trip stages ii))
/-- PAND. R139. Writes pa AND pb into one scalar predicate. -/
def execPand (h : SlotHdr) (pd pa pb : BitVec 4) (s : State) : Out := .next (s.issueSolo (.pand h pd pa pb))
/-- POR. R139. Writes pa OR pb into one scalar predicate. -/
def execPor (h : SlotHdr) (pd pa pb : BitVec 4) (s : State) : Out := .next (s.issueSolo (.por h pd pa pb))
/-- PXOR. R139. Writes pa XOR pb into one scalar predicate. -/
def execPxor (h : SlotHdr) (pd pa pb : BitVec 4) (s : State) : Out := .next (s.issueSolo (.pxor h pd pa pb))
/-- PANDN. R139. Writes pa AND NOT pb into one scalar predicate. -/
def execPandn (h : SlotHdr) (pd pa pb : BitVec 4) (s : State) : Out := .next (s.issueSolo (.pandn h pd pa pb))
/-- CMP. R140. Compares two scalar registers and writes a predicate pair. -/
def execCmp (h : SlotHdr) (cc k : BitVec 3) (a b : BitVec 5) (s : State) : Out := .next (s.issueSolo (.cmp h cc k a b))
/-- CMPI. R140. Compares a scalar register with an immediate and writes a predicate pair. -/
def execCmpi (h : SlotHdr) (cc k : BitVec 3) (a : BitVec 5) (imm : Imm) (s : State) : Out :=
  .next (s.issueSolo (.cmpi h cc k a imm))
/-- MOVI. R141. Writes a sign-extended or long immediate into a scalar register. -/
def execMovi (h : SlotHdr) (d : BitVec 5) (imm : Imm) (s : State) : Out := .next (s.issueSolo (.movi h d imm))
/-- LWAIT. R142. Freezes until at most n variable-latency requests remain outstanding. -/
def execLwait (h : SlotHdr) (n : BitVec 4) (s : State) : Out := .next (s.issueSolo (.lwait h n))
/-- LOCK. R143, R262. Holds bank arbitration for up to six banks for n bundles. -/
def execLock (h : SlotHdr) (n : BitVec 4) (a : BitVec 5) (s : State) : Out := .next (s.issueSolo (.lock h n a))
/-- KTRAP. R144. Ends the kernel with a code and raises the KTRAP trap. -/
def execKtrap (h : SlotHdr) (code : BitVec 16) (s : State) : Out := .next (s.issueSolo (.ktrap h code))
/-- HALT. R145. Ends the kernel once its writes and arrivals have performed. -/
def execHalt (h : SlotHdr) (s : State) : Out := .next (s.issueSolo (.halt h))
/-- SCALAR_MOV. R146. Copies one scalar register to another. -/
def execSMov (h : SlotHdr) (d a : BitVec 5) (s : State) : Out := .next (s.issueSolo (.sMov h d a))
/-- SCALAR_ADD. R146. Adds two scalar registers. -/
def execSAdd (h : SlotHdr) (d a b : BitVec 5) (s : State) : Out := .next (s.issueSolo (.sAdd h d a b))
/-- SCALAR_SUB. R146. Subtracts two scalar registers. -/
def execSSub (h : SlotHdr) (d a b : BitVec 5) (s : State) : Out := .next (s.issueSolo (.sSub h d a b))
/-- SCALAR_AND. R146. Bitwise AND of two scalar registers. -/
def execSAnd (h : SlotHdr) (d a b : BitVec 5) (s : State) : Out := .next (s.issueSolo (.sAnd h d a b))
/-- SCALAR_OR. R146. Bitwise OR of two scalar registers. -/
def execSOr (h : SlotHdr) (d a b : BitVec 5) (s : State) : Out := .next (s.issueSolo (.sOr h d a b))
/-- SCALAR_XOR. R146. Bitwise XOR of two scalar registers. -/
def execSXor (h : SlotHdr) (d a b : BitVec 5) (s : State) : Out := .next (s.issueSolo (.sXor h d a b))
/-- SCALAR_SLL. R146. Shifts a scalar register left by a register count. -/
def execSSll (h : SlotHdr) (d a b : BitVec 5) (s : State) : Out := .next (s.issueSolo (.sSll h d a b))
/-- SCALAR_SRL. R146. Shifts a scalar register right logically by a register count. -/
def execSSrl (h : SlotHdr) (d a b : BitVec 5) (s : State) : Out := .next (s.issueSolo (.sSrl h d a b))
/-- SCALAR_SRA. R146. Shifts a scalar register right arithmetically by a register count. -/
def execSSra (h : SlotHdr) (d a b : BitVec 5) (s : State) : Out := .next (s.issueSolo (.sSra h d a b))
/-- SCALAR_MUL. R146. Writes the low 64 bits of a scalar product. -/
def execSMul (h : SlotHdr) (d a b : BitVec 5) (s : State) : Out := .next (s.issueSolo (.sMul h d a b))
/-- SCALAR_MULH. R146. Writes the high 64 bits of a signed scalar product. -/
def execSMulh (h : SlotHdr) (d a b : BitVec 5) (s : State) : Out := .next (s.issueSolo (.sMulh h d a b))
/-- SCALAR_MIN. R146. Writes the lesser of two scalar registers as i64. -/
def execSMin (h : SlotHdr) (d a b : BitVec 5) (s : State) : Out := .next (s.issueSolo (.sMin h d a b))
/-- SCALAR_MAX. R146. Writes the greater of two scalar registers as i64. -/
def execSMax (h : SlotHdr) (d a b : BitVec 5) (s : State) : Out := .next (s.issueSolo (.sMax h d a b))
/-- SCALAR_MINU. R146. Writes the lesser of two scalar registers as u64. -/
def execSMinu (h : SlotHdr) (d a b : BitVec 5) (s : State) : Out := .next (s.issueSolo (.sMinu h d a b))
/-- SCALAR_MAXU. R146. Writes the greater of two scalar registers as u64. -/
def execSMaxu (h : SlotHdr) (d a b : BitVec 5) (s : State) : Out := .next (s.issueSolo (.sMaxu h d a b))
/-- SCALAR_ADDI. R146. Adds an immediate to a scalar register. -/
def execSAddi (h : SlotHdr) (d : BitVec 5) (imm : Imm) (s : State) : Out := .next (s.issueSolo (.sAddi h d imm))
/-- SCALAR_ANDI. R146. ANDs a scalar register with an immediate. -/
def execSAndi (h : SlotHdr) (d : BitVec 5) (imm : Imm) (s : State) : Out := .next (s.issueSolo (.sAndi h d imm))
/-- SCALAR_ORI. R146. ORs a scalar register with an immediate. -/
def execSOri (h : SlotHdr) (d : BitVec 5) (imm : Imm) (s : State) : Out := .next (s.issueSolo (.sOri h d imm))
/-- SCALAR_XORI. R146. XORs a scalar register with an immediate. -/
def execSXori (h : SlotHdr) (d : BitVec 5) (imm : Imm) (s : State) : Out := .next (s.issueSolo (.sXori h d imm))
/-- SCALAR_SLLI. R146. Shifts a scalar register left by an immediate. -/
def execSSlli (h : SlotHdr) (d : BitVec 5) (n : BitVec 6) (s : State) : Out := .next (s.issueSolo (.sSlli h d n))
/-- SCALAR_SRLI. R146. Shifts a scalar register right logically by an immediate. -/
def execSSrli (h : SlotHdr) (d : BitVec 5) (n : BitVec 6) (s : State) : Out := .next (s.issueSolo (.sSrli h d n))
/-- SCALAR_SRAI. R146. Shifts a scalar register right arithmetically by an immediate. -/
def execSSrai (h : SlotHdr) (d : BitVec 5) (n : BitVec 6) (s : State) : Out := .next (s.issueSolo (.sSrai h d n))
/-- RDLC. R147. Copies a loop counter into a scalar register. -/
def execRdlc (h : SlotHdr) (d : BitVec 5) (lvl : BitVec 3) (s : State) : Out := .next (s.issueSolo (.rdlc h d lvl))
/-- WFIELD. R147. Writes a field of the issuing task's work ID into a scalar register. -/
def execWfield (h : SlotHdr) (d : BitVec 5) (k : BitVec 3) (s : State) : Out := .next (s.issueSolo (.wfield h d k))
/-- VMOV. R153. Copies a vector register with its tag. -/
def execVmov (h : SlotHdr) (d a : BitVec 5) (s : State) : Out := .next (s.issueSolo (.vmov h d a))
/-- VSEL. R153. Selects each lane from one of two vectors by a lane predicate. -/
def execVsel (h : SlotHdr) (d a b : BitVec 5) (s : State) : Out := .next (s.issueSolo (.vsel h d a b))
/-- VAND. R153. Bitwise AND of two vectors. -/
def execVand (h : SlotHdr) (d a b : BitVec 5) (s : State) : Out := .next (s.issueSolo (.vand h d a b))
/-- VOR. R153. Bitwise OR of two vectors. -/
def execVor (h : SlotHdr) (d a b : BitVec 5) (s : State) : Out := .next (s.issueSolo (.vor h d a b))
/-- VXOR. R153. Bitwise XOR of two vectors. -/
def execVxor (h : SlotHdr) (d a b : BitVec 5) (s : State) : Out := .next (s.issueSolo (.vxor h d a b))
/-- VNOT. R153. Bitwise complement of a vector. -/
def execVnot (h : SlotHdr) (d a : BitVec 5) (s : State) : Out := .next (s.issueSolo (.vnot h d a))
/-- VFSHL. R155. Funnel shift left of two 32-bit lanes by a per-lane count. -/
def execVfshl (h : SlotHdr) (d a b : BitVec 5) (s : State) : Out := .next (s.issueSolo (.vfshl h d a b))
/-- VFSHR. R155. Funnel shift right of two 32-bit lanes by a per-lane count. -/
def execVfshr (h : SlotHdr) (d a b : BitVec 5) (s : State) : Out := .next (s.issueSolo (.vfshr h d a b))
/-- VPERM. R156. Permutes whole lanes by an index vector. -/
def execVperm (h : SlotHdr) (d a b : BitVec 5) (s : State) : Out := .next (s.issueSolo (.vperm h d a b))
/-- VPOPC. R160. Counts 1 bits per lane or nonzero elements. -/
def execVpopc (h : SlotHdr) (nz : Bool) (d a : BitVec 5) (s : State) : Out := .next (s.issueSolo (.vpopc h nz d a))
/-- VTOPK. R163. Selects the k largest elements of a row with their indices. -/
def execVtopk (h : SlotHdr) (nz : Bool) (d a k : BitVec 5) (s : State) : Out := .next (s.issueSolo (.vtopk h nz d a k))
/-- VQMOV. R159. Moves between a lane predicate and a vector. -/
def execVqmov (h : SlotHdr) (dir : Bool) (v : BitVec 5) (q : BitVec 4) (s : State) : Out :=
  .next (s.issueSolo (.vqmov h dir v q))
/-- VADD. R149. Adds two vectors elementwise, anchored for ANC. -/
def execVadd (h : SlotHdr) (f : BitVec 4) (d a b : BitVec 5) (s : State) : Out := .next (s.issueSolo (.vadd h f d a b))
/-- VSUB. R149. Subtracts two vectors elementwise. -/
def execVsub (h : SlotHdr) (f : BitVec 4) (d a b : BitVec 5) (s : State) : Out := .next (s.issueSolo (.vsub h f d a b))
/-- VMUL. R149. Multiplies two vectors elementwise. -/
def execVmul (h : SlotHdr) (f : BitVec 4) (d a b : BitVec 5) (s : State) : Out := .next (s.issueSolo (.vmul h f d a b))
/-- VFMA. R149. Fused multiply-add into the destination with one rounding. -/
def execVfma (h : SlotHdr) (f : BitVec 4) (d a b : BitVec 5) (s : State) : Out := .next (s.issueSolo (.vfma h f d a b))
/-- VDIV. R149. Divides two vectors elementwise. -/
def execVdiv (h : SlotHdr) (f : BitVec 4) (d a b : BitVec 5) (s : State) : Out := .next (s.issueSolo (.vdiv h f d a b))
/-- VMIN. R149. Elementwise minimum of two vectors. -/
def execVmin (h : SlotHdr) (f : BitVec 4) (d a b : BitVec 5) (s : State) : Out := .next (s.issueSolo (.vmin h f d a b))
/-- VMAX. R149. Elementwise maximum of two vectors. -/
def execVmax (h : SlotHdr) (f : BitVec 4) (d a b : BitVec 5) (s : State) : Out := .next (s.issueSolo (.vmax h f d a b))
/-- VABS. R149, R151. Elementwise absolute value. -/
def execVabs (h : SlotHdr) (f : BitVec 4) (d a : BitVec 5) (s : State) : Out := .next (s.issueSolo (.vabs h f d a))
/-- VNEG. R149, R151. Elementwise negation. -/
def execVneg (h : SlotHdr) (f : BitVec 4) (d a : BitVec 5) (s : State) : Out := .next (s.issueSolo (.vneg h f d a))
/-- VSQRT. R149. Elementwise square root. -/
def execVsqrt (h : SlotHdr) (f : BitVec 4) (d a : BitVec 5) (s : State) : Out := .next (s.issueSolo (.vsqrt h f d a))
/-- VCMP. R152. Compares two vectors and writes a lane predicate pair. -/
def execVcmp (h : SlotHdr) (f : BitVec 4) (cond k : BitVec 3) (a b : BitVec 5) (s : State) : Out :=
  .next (s.issueSolo (.vcmp h f cond k a b))
/-- VCVT. R158. Converts a vector into another format. -/
def execVcvt (h : SlotHdr) (f : BitVec 4) (d a b : BitVec 5) (s : State) : Out := .next (s.issueSolo (.vcvt h f d a b))
/-- VBCAST. R157. Copies scalar bits into every element of a vector. -/
def execVbcast (h : SlotHdr) (f : BitVec 4) (d a : BitVec 5) (s : State) : Out := .next (s.issueSolo (.vbcast h f d a))
/-- VSHL. R154. Shifts each element left by a per-element count. -/
def execVshl (h : SlotHdr) (f : BitVec 4) (d a b : BitVec 5) (s : State) : Out := .next (s.issueSolo (.vshl h f d a b))
/-- VSHR. R154. Shifts each element right by a per-element count. -/
def execVshr (h : SlotHdr) (f : BitVec 4) (d a b : BitVec 5) (s : State) : Out := .next (s.issueSolo (.vshr h f d a b))
/-- VRED. R161. Reduces within lane groups and broadcasts the result. -/
def execVred (h : SlotHdr) (f : BitVec 4) (d a : BitVec 5) (op grp : BitVec 3) (s : State) : Out :=
  .next (s.issueSolo (.vred h f d a op grp))
/-- VSCAN. R162. Writes prefix results within lane groups. -/
def execVscan (h : SlotHdr) (f : BitVec 4) (d a : BitVec 5) (op : BitVec 2) (excl : Bool) (grp : BitVec 3) (s : State) : Out :=
  .next (s.issueSolo (.vscan h f d a op excl grp))
/-- MLOADB. R178. Writes one shadow B column and exchanges the tiles at column 63. -/
def execMloadb (h : SlotHdr) (f : BitVec 4) (r : BitVec 6) (src : MatSrc) (s : State) : Out :=
  .next (s.issueSolo (.mloadb h f r src))
/-- MPUSH. R179. Pushes one A row against the resident B toward an accumulator row. -/
def execMpush (h : SlotHdr) (f : BitVec 4) (r : BitVec 6) (src : MatSrc) (s : State) : Out :=
  .next (s.issueSolo (.mpush h f r src))
/-- MPUSH_SC. R180. Scout push of integer B4 codes into an accumulator row. -/
def execMpushSc (h : SlotHdr) (r : BitVec 6) (src : MatSrc) (s : State) : Out := .next (s.issueSolo (.mpushSc h r src))
/-- MLOADB_WIDE. R439. MLOADB of an absent narrow format widened exactly, setting SUBST. -/
def execMloadbWide (h : SlotHdr) (f : BitVec 2) (r : BitVec 6) (src : MatSrc) (s : State) : Out :=
  .next (s.issueSolo (.mloadbWide h f r src))
/-- MPUSH_WIDE. R439. MPUSH of an absent narrow format widened exactly, setting SUBST. -/
def execMpushWide (h : SlotHdr) (f : BitVec 2) (r : BitVec 6) (src : MatSrc) (s : State) : Out :=
  .next (s.issueSolo (.mpushWide h f r src))
/-- MACC. R181. Sets the accumulate or overwrite policy of one or all rows. -/
def execMacc (h : SlotHdr) (r : BitVec 6) (x pol allRows clr : Bool) (s : State) : Out :=
  .next (s.issueSolo (.macc h r x pol allRows clr))
/-- MDRAIN. R183. Converts an accumulator row into a vector or tile destination. -/
def execMdrain (h : SlotHdr) (f : BitVec 4) (dest : BitVec 5) (r : BitVec 6) (x : Bool) (p : BitVec 2) (toTile : Bool) (s : State) : Out :=
  .next (s.issueSolo (.mdrain h f dest r x p toTile))
/-- TRIN. R184. Writes one transposer row and advances the write pointer. -/
def execTrin (h : SlotHdr) (f : BitVec 4) (v : BitVec 5) (p : BitVec 2) (s : State) : Out :=
  .next (s.issueSolo (.trin h f v p))
/-- TROUT. R185. Emits one transposer column and advances the read pointer. -/
def execTrout (h : SlotHdr) (dest : BitVec 5) (p : BitVec 2) (toTile : Bool) (s : State) : Out :=
  .next (s.issueSolo (.trout h dest p toTile))
/-- TRCLR. R186. Clears the transposer and its pointers. -/
def execTrclr (h : SlotHdr) (s : State) : Out := .next (s.issueSolo (.trclr h))
/-- STLD. R188. Writes one scale table entry from an immediate. -/
def execStld (h : SlotHdr) (i : BitVec 4) (e : BitVec 8) (s : State) : Out := .next (s.issueSolo (.stld h i e))
/-- STLDA. R188. Writes eight scale table entries from a register. -/
def execStlda (h : SlotHdr) (a : BitVec 5) (half : Bool) (s : State) : Out := .next (s.issueSolo (.stlda h a half))
/-- CFGSET. R189. Sets the marked cfg bits. -/
def execCfgset (h : SlotHdr) (flags : BitVec 5) (low : BitVec 4) (s : State) : Out :=
  .next (s.issueSolo (.cfgset h flags low))
/-- CFGCLR. R189. Clears the marked cfg bits. -/
def execCfgclr (h : SlotHdr) (flags : BitVec 5) (low : BitVec 4) (s : State) : Out :=
  .next (s.issueSolo (.cfgclr h flags low))
/-- CFGRD. R189. Reads cfg into a scalar register. -/
def execCfgrd (h : SlotHdr) (d : BitVec 5) (s : State) : Out := .next (s.issueSolo (.cfgrd h d))
/-- MARGIN. R190. Writes the scout margin field of cfg. -/
def execMargin (h : SlotHdr) (a : BitVec 5) (s : State) : Out := .next (s.issueSolo (.margin h a))
/-- MANCHOR. R182. Sets the anchor of one or all accumulator rows. -/
def execManchor (h : SlotHdr) (r : BitVec 6) (allRows x : Bool) (a : BitVec 5) (s : State) : Out :=
  .next (s.issueSolo (.manchor h r allRows x a))
/-- HBOUND. R193. Sets the threshold bound for one key block. -/
def execHbound (h : SlotHdr) (a : BitVec 5) (s : State) : Out := .next (s.issueSolo (.hbound h a))
/-- TMARK. R194. Updates a row maximum and marks live key blocks in a tile mask. -/
def execTmark (h : SlotHdr) (r : BitVec 6) (x : Bool) (mode : BitVec 2) (mk : BitVec 3) (s : State) : Out :=
  .next (s.issueSolo (.tmark h r x mode mk))
/-- TCLR. R195. Resets every threshold-unit row maximum to −∞. -/
def execTclr (h : SlotHdr) (s : State) : Out := .next (s.issueSolo (.tclr h))
/-- MSET. R191. Writes a tile mask from a scalar register. -/
def execMset (h : SlotHdr) (mk : BitVec 3) (a : BitVec 5) (s : State) : Out := .next (s.issueSolo (.mset h mk a))
/-- MAND. R191. Writes the AND of two tile masks. -/
def execMand (h : SlotHdr) (md ma mb : BitVec 3) (s : State) : Out := .next (s.issueSolo (.mand h md ma mb))
/-- MOR. R191. Writes the OR of two tile masks. -/
def execMor (h : SlotHdr) (md ma mb : BitVec 3) (s : State) : Out := .next (s.issueSolo (.mor h md ma mb))
/-- MNOT. R191. Writes the complement of a tile mask. -/
def execMnot (h : SlotHdr) (md ma : BitVec 3) (s : State) : Out := .next (s.issueSolo (.mnot h md ma))
/-- MMOVA. R191. Copies a tile mask into a scalar register. -/
def execMmova (h : SlotHdr) (d : BitVec 5) (mk : BitVec 3) (s : State) : Out := .next (s.issueSolo (.mmova h d mk))
/-- RETAG. R192. Changes a register's tag within an allowed group without changing bits. -/
def execRetag (h : SlotHdr) (tile : Bool) (reg : BitVec 5) (tag : Tag) (s : State) : Out :=
  .next (s.issueSolo (.retag h tile reg tag))
/-- CLD. R166. Loads one home-view vector row into a vector register. -/
def execCld (h : SlotHdr) (f : BitVec 4) (v : BitVec 5) (hnd : BitVec 6) (row : BitVec 5) (s : State) : Out :=
  .next (s.issueSolo (.cld h f v hnd row))
/-- CST. R166. Stores a vector register into one home-view row. -/
def execCst (h : SlotHdr) (v : BitVec 5) (hnd : BitVec 6) (row : BitVec 5) (s : State) : Out :=
  .next (s.issueSolo (.cst h v hnd row))
/-- CLD_U. R166. Loads a vector row from an unaligned home-view byte offset. -/
def execCldU (h : SlotHdr) (f : BitVec 4) (v : BitVec 5) (hnd : BitVec 6) (x : Ext) (s : State) : Out :=
  .next (s.issueSolo (.cldU h f v hnd x))
/-- CST_U. R166. Stores a vector at an unaligned home-view byte offset. -/
def execCstU (h : SlotHdr) (v : BitVec 5) (hnd : BitVec 6) (x : Ext) (s : State) : Out :=
  .next (s.issueSolo (.cstU h v hnd x))
/-- CST_M. R166. Stores the bytes of a vector whose mask bits are set. -/
def execCstM (h : SlotHdr) (v : BitVec 5) (hnd : BitVec 6) (x : Ext) (s : State) : Out :=
  .next (s.issueSolo (.cstM h v hnd x))
/-- CLD_FAR. R167. Requests one far-view row to land after k kc. -/
def execCldFar (h : SlotHdr) (f : BitVec 4) (v : BitVec 5) (hnd : BitVec 6) (x : Ext) (s : State) : Out :=
  .next (s.issueSolo (.cldFar h f v hnd x))
/-- CATOM. R263, R264. Atomically combines a vector with one home-view row. -/
def execCatom (h : SlotHdr) (k : BitVec 4) (v : BitVec 5) (hnd : BitVec 6) (x : Ext) (s : State) : Out :=
  .next (s.issueSolo (.catom h k v hnd x))
/-- CATOM_FAR. R263, R265. Atomically combines a vector with one far-view row, locally or on a remote core. -/
def execCatomFar (h : SlotHdr) (k : BitVec 4) (v : BitVec 5) (hnd : BitVec 6) (x : Ext) (s : State) : Out :=
  .next (s.issueSolo (.catomFar h k v hnd x))
/-- SWSEND. R201. Pushes one vector quarter to a partner cluster over the switch. -/
def execSwsend (h : SlotHdr) (d v : BitVec 5) (q : BitVec 2) (a : BitVec 4) (s : State) : Out :=
  .next (s.issueSolo (.swsend h d v q a))
/-- SWRECV. R201. Pulls one vector quarter from a partner cluster. -/
def execSwrecv (h : SlotHdr) (d v : BitVec 5) (q : BitVec 2) (a : BitVec 4) (s : State) : Out :=
  .next (s.issueSolo (.swrecv h d v q a))
/-- SWBCAST. R201. Pulls one vector quarter from one source into every cluster. -/
def execSwbcast (h : SlotHdr) (d v : BitVec 5) (q : BitVec 2) (cl : ClusterId) (s : State) : Out :=
  .next (s.issueSolo (.swbcast h d v q cl))

end Sys2Proof.Machine
end

