-- ==== Sys2Proof/Machine/Merge.lean ====
section
/-! DEFINITION. Merging children into their parents: the operators of views, merges by blocks and rows, merge kernels, poisoned
children (R213 to R226). -/

namespace Sys2Proof.Machine

/-! ### The operators of R215 -/

/-- Fraction bits of the fixed point in which 2^x is computed (log 14). -/
def expBits : Nat := 320
/-- ln 2 in that fixed point. -/
def ln2Fixed : Nat := ((List.range expBits).map fun i => 2 ^ expBits / ((i + 1) * 2 ^ (i + 1))).sum
/-- The terms of the exponential series of `y` from the `n`-th term on. -/
def expTerms (y : Nat) : Nat → Nat → Nat → Nat
  | 0, _, _ => 0
  | fuel + 1, n, t => t + expTerms y fuel (n + 1) (t * y / ((n + 1) * 2 ^ expBits))

/-- 2^v rounded to FP32 (RNE) for a value v that is not above zero. -/
def exp2Down : Fv → Nat
  | .nan _ => Fmt.fp32.nan
  | .inf _ => 0
  | .num _ m e =>
    if m = 0 then 0x3F800000
    else
      let whole := (roundInt 3 true m e).1.natAbs
      if 200 ≤ whole then 0
      else
        let down : Nat := whole * 2 ^ expBits
        let x : Nat := (roundInt 1 false m (e + expBits)).1.natAbs
        if x = down then (Fmt.fp32.write 0 false (.num false 1 (-(whole : Int)))).1
        else
          let y := (down - x) * ln2Fixed / 2 ^ expBits
          (Fmt.fp32.write 0 false (.num false (2 * expTerms y 100 0 (2 ^ expBits) + 1) (-(whole : Int) - expBits - 1))).1

def readF32 (x : Nat) : Fv := Fmt.fp32.read false x
def addF32 (x y : Nat) : Nat := (Fmt.fp32.write 0 false ((readF32 x).add 0 (readF32 y)).1).1
def mulF32 (x y : Nat) : Nat := (Fmt.fp32.write 0 false ((readF32 x).mul (readF32 y)).1).1

/-- VIEW.MAX and VIEW.MIN on one element. -/
def extremeElem (isMax : Bool) (t : Tag) (x y : Nat) : Nat :=
  let fp (f : Fmt) : Nat := (f.write 0 false (Fv.minmax isMax (f.read false x) (f.read false y)).1).1
  let pick (less : Bool) : Nat := if less == isMax then y else x
  match t with
  | 4#5 => pick (decide (toSigned 32 x < toSigned 32 y))
  | 5#5 => pick (decide (toSigned 64 x < toSigned 64 y))
  | 8#5 => fp Fmt.fp32
  | 9#5 => fp Fmt.fp64
  | _ => pick (decide (x < y))

/-- Softmax-combine of two rows of FP32 words m, s, a0, a1, … -/
def softmaxRow (l r : List Nat) : List Nat :=
  let lm := readF32 (nth l 0 0)
  let rm := readF32 (nth r 0 0)
  if lm.isNan || rm.isNan then l.map fun _ => Fmt.fp32.nan
  else if rm == .inf true then l
  else if lm == .inf true then r
  else
    let m := if lm.lt rm then rm else lm
    let factor (x : Fv) : Nat :=
      if x.compare m == .eq then 0x3F800000 else exp2Down (readF32 (Fmt.fp32.write 0 false (x.add 0 m.neg).1).1)
    let fl := factor lm
    let fr := factor rm
    extremeElem true 8 (nth l 0 0) (nth r 0 0) ::
      ((l.drop 1).zip (r.drop 1)).map fun x => addF32 (mulF32 x.1 fl) (mulF32 x.2 fr)

/-- L ⊕ R of one element, and whether an anchored add clamped. -/
def viewCombine (op : BitVec 4) (t : Tag) (l r : Nat) : Nat × Bool :=
  match op with
  | 0#4 => let (x, sat) := ancAdd (BitVec.ofNat 64 l) (BitVec.ofNat 64 r); (x.toNat, sat)
  | 1#4 => (addF32 l r, false)
  | 2#4 => (extremeElem true t l r, false)
  | 3#4 => (extremeElem false t l r, false)
  | 4#4 => (l ||| r, false)
  | 5#4 => (l &&& r, false)
  | _ => (l, false)

/-- L ⊕ R over bytes: elements of the operator's width, or one row of VIEW.SMC. -/
def combineBytes (op : BitVec 4) (g : DWord) (l r : List Byte) : List Byte × Bool :=
  if op == 6 then
    let row (bs : List Byte) : List Nat := (chunks 4 (bs.length / 4) bs).map ofBytesLE
    ((softmaxRow (row l) (row r)).flatMap fun x => bytesLE 4 x, false)
  else
    let w := (viewElem op (geomTag g)).1
    let split (bs : List Byte) : List Nat := (chunks w (bs.length / w) bs).map ofBytesLE
    let out := ((split l).zip (split r)).map fun x => viewCombine op (geomTag g) x.1 x.2
    (out.flatMap fun x => bytesLE w x.1, out.any (·.2))

/-! ### The blocks of a tile (R219, R224) -/

/-- What a merge finds at a block of a tile. -/
inductive TileBlock where
  | sound
  | poisoned
  | gone
  deriving DecidableEq, Repr

/-- The Cistern allocation behind a tile and the byte of its block `b`, when they can be reached. -/
def CoreSt.tilePlace (k : CoreSt) (tile : DWord) (b : Nat) : Option (Alloc × Nat) :=
  match k.handles.read (tileHandle tile) with
  | none => none
  | some a => if (farView a).holds (tileOffset tile + 64 * b) 64 then some (a, tileOffset tile + 64 * b) else none

/-- How block `b` of a tile stands; a memory block that does not translate is a fault with its cause and address. A live
block takes no write (R235): as a receiving block it is met as one that cannot be reached. -/
def State.tileBlock (s : State) (p : PartId) (c : CoreId) (tile : DWord) (b : Nat) (receives : Bool) : Except (Byte × Nat) TileBlock :=
  if inCistern tile then
    match (s.core c).tilePlace tile b with
    | none => .ok .gone
    | some (a, off) => .ok (if anyPoison (s.core c).cisPoison ((farView a).units off 64) then .poisoned else .sound)
  else
    let va := tileAddr tile + 64 * b
    match s.resolveIn p va (if receives then .store else .load) with
    | .error e => .error (e, va)
    | .ok (pa, s') =>
      if isHost pa then .error (cProtect, va)
      else if receives && s'.tagged pa then .ok .gone
      else .ok (if s'.poisoned pa 64 then .poisoned else .sound)

/-- The bytes of a block that can be reached. -/
def State.tileBytes (s : State) (p : PartId) (c : CoreId) (tile : DWord) (b : Nat) : List Byte :=
  if inCistern tile then
    match (s.core c).tilePlace tile b with
    | none => []
    | some (a, off) => (farView a).read (s.core c).cistern off 64
  else
    match s.resolveIn p (tileAddr tile + 64 * b) .load with
    | .error _ => []
    | .ok (pa, _) => s.bytesPhys pa 64

/-- Write part of a block, from byte `off` of the tile on. -/
def State.tileWrite (s : State) (p : PartId) (c : CoreId) (tile : DWord) (b : Nat) (bs : List Byte) : State :=
  if inCistern tile then
    match (s.core c).tilePlace tile b with
    | none => s
    | some (a, off) => s.modCore c fun k => k.putFar a off bs
  else
    match s.resolveIn p (tileAddr tile + 64 * b) .store with
    | .error _ => s
    | .ok (pa, s') => s'.writePhys pa bs

/-- Poison a block of a receiving tile (R224); a block that cannot be reached stays as it is. None when its copy finds the pool empty
(R276). -/
def State.tilePoison? (s : State) (p : PartId) (c : CoreId) (tile : DWord) (b : Nat) : Option State :=
  if inCistern tile then
    match (s.core c).tilePlace tile b with
    | none => some s
    | some (a, off) =>
      some (s.modCore c fun k => { k with cisPoison := ((farView a).units off 64).foldl (fun xs u => insertNat u xs) k.cisPoison })
  else
    match s.resolveIn p (tileAddr tile + 64 * b) .store with
    | .error e => if e == cPool then none else some s
    | .ok (pa, s') => some (if isHost pa then s else s'.setPoison (blockOf pa) true)

/-! ### One view (R219, R224) -/

/-- What a merge reads and writes: the partition, the child, the core whose Cistern holds the tiles, both tiles, the geometry
and the operator. -/
structure MergeCtx where
  part : PartId
  child : Addr
  core : CoreId
  left : DWord
  right : DWord
  geom : DWord
  op : BitVec 4

/-- Bytes in one unit of a view: a block, or a row of VIEW.SMC. -/
def MergeCtx.unitBytes (x : MergeCtx) : Nat := if x.op == 6 then 4 * (geomD x.geom + 2) else 64
def MergeCtx.units (x : MergeCtx) : Nat := 64 * geomBlocks x.geom / x.unitBytes
/-- A receiving block by its tile word. -/
def MergeCtx.leftKey (x : MergeCtx) (b : Nat) : DWord := x.left + BitVec.ofNat 64 (64 * b)
/-- Poison a receiving block; the merge keeps which ones were sound before, for the rows of VIEW.SMC. -/
def MergeCtx.spoil (x : MergeCtx) (s : State) (b : Nat) (fresh : Bool) : State :=
  let s := (s.tilePoison? x.part x.core x.left b).getD s
  if fresh then s.modTask x.part x.child fun i => { i with spoilt := x.leftKey b :: i.spoilt } else s
/-- The blocks that a unit spans. -/
def MergeCtx.span (x : MergeCtx) (n : Nat) : List Nat := blocksOf (x.unitBytes * n) x.unitBytes

/-- The first fault among blocks that a unit spans; a copy that one needs leaves a frame less for the next (R276). -/
def MergeCtx.faultIn (x : MergeCtx) (s : State) : List Nat → Option (Byte × Nat)
  | [] => none
  | b :: bs =>
    match s.tileBlock x.part x.core x.left b false, s.tileBlock x.part x.core x.right b false, s.tileBlock x.part x.core x.left b true with
    | .error e, _, _ => some e
    | _, .error e, _ => some e
    | _, _, .error e => some e
    | _, _, _ => x.faultIn (s.tileWrite x.part x.core x.left b []) bs
def MergeCtx.fault (x : MergeCtx) (s : State) (n : Nat) : Option (Byte × Nat) := x.faultIn s (x.span n)

/-- The first block of the unit numbered `n`, as a merge fault records it; 0 of a merge kernel (R223). -/
def MergeCtx.blockAt (x : MergeCtx) (n : Nat) : Nat := if x.op == 7 then 0 else nth (x.span n) 0 0
/-- The unit at which a merge goes on whose record names a block (R223). -/
def MergeCtx.unitAt (x : MergeCtx) (b : Nat) : Nat := ((List.range x.units).find? fun n => b ≤ nth (x.span n) 0 0).getD x.units

def isSound : Except (Byte × Nat) TileBlock → Bool
  | .ok .sound => true
  | _ => false
def isGone : Except (Byte × Nat) TileBlock → Bool
  | .ok .gone => true
  | _ => false

/-- Merge one unit that has no fault: the device, POISON and SAT of the status. -/
def MergeCtx.mergeUnit (x : MergeCtx) (s : State) (n : Nat) : State × Bool × Bool :=
  let bs := x.span n
  -- poison that the merge of this child itself set, in whichever view, stops no later row (R224)
  let own : List DWord := if x.op == 6 then ((s.taskInfo x.part x.child).map (·.spoilt)).getD [] else []
  let left (b : Nat) : Except (Byte × Nat) TileBlock := match s.tileBlock x.part x.core x.left b true with
    | .ok .poisoned => .ok (if own.contains (x.leftKey b) then .sound else .poisoned)
    | r => r
  let right (b : Nat) := s.tileBlock x.part x.core x.right b false
  if bs.all fun b => isSound (left b) && isSound (right b) then
    let from_ := x.unitBytes * n - 64 * nth bs 0 0
    let l := bs.flatMap fun b => s.tileBytes x.part x.core x.left b
    let r := bs.flatMap fun b => s.tileBytes x.part x.core x.right b
    let (y, sat) := combineBytes x.op x.geom ((l.drop from_).take x.unitBytes) ((r.drop from_).take x.unitBytes)
    let out := l.take from_ ++ y ++ l.drop (from_ + x.unitBytes)
    let s := (bs.zip (chunks 64 bs.length out)).foldl (fun s z => s.tileWrite x.part x.core x.left z.1 z.2) s
    (s, false, sat)
  else (bs.foldl (fun s b => if isGone (left b) then s else x.spoil s b (isSound (left b))) s, true, false)

/-- Merge the units of a view from the `n`-th on: the device, POISON, SAT, and the unit that faults. -/
def MergeCtx.mergeFrom (x : MergeCtx) : Nat → Nat → State → State × Bool × Bool × Option (Nat × Byte × Nat)
  | 0, _, s => (s, false, false, none)
  | fuel + 1, n, s =>
    match x.fault s n with
    | some e => (s, false, false, some (n, e))
    | none =>
      let (s, bad, sat) := x.mergeUnit s n
      let (s, bad', sat', e) := x.mergeFrom fuel (n + 1) s
      (s, bad || bad', sat || sat', e)

/-! ### Whose turn it is (R220) -/

/-- The sibling `n` places to the left of a record. -/
def State.leftOf (s : State) (p : PartId) (r : Addr) : Nat → Addr
  | 0 => r
  | n + 1 => s.leftOf p (recordLink (s.recWord p r 6)) n

/-- Whether a child is the next to merge: its parent waits in SYNC or EXIT, and every earlier sibling has merged. A team that
is halted or saved merges nothing. -/
def State.isTurn (s : State) (p : PartId) (child : Addr) : Bool :=
  let parent := s.parentOf p child
  let open_ := (s.areaWord p parent 1).toNat
  (s.taskInfo p child).isSome && ((s.teamWith p parent).any fun t => !t.halted && t.saved.isEmpty) && s.waits p parent 6 && open_ != 0 &&
    s.leftOf p (recordLink (s.areaWord p parent 0)) (open_ - 1) == child

/-- The core at which a parent's merges run and trap: the one it is bound to, else the first its team is bound to (log 21). -/
def State.mergeCore (s : State) (p : PartId) (parent : Addr) : CoreId :=
  let w7 := s.recWord p parent 7
  if w7.getLsbD 55 then w7.extractLsb' 48 7
  else (((s.teamWith p parent).bind fun t => t.bound.head?).orElse fun _ => (s.coresOf p).head?).getD s.active

/-- Set bits of a parent's status (R213). -/
def State.addStatus (s : State) (p : PartId) (parent : Addr) (poison sat : Bool) : State :=
  s.setAreaWord p parent 2 (s.areaWord p parent 2 ||| zext (BitVec.ofBool sat ++ BitVec.ofBool poison))

/-- One child less to merge; the last one lets the parent's SYNC or EXIT go on (R221). -/
def State.oneMerged (s : State) (p : PartId) (parent : Addr) : State :=
  let s := s.setAreaWord p parent 1 (s.areaWord p parent 1 - 1)
  if s.areaWord p parent 1 == 0 && s.waits p parent 6 then
    let (s, st) := s.endGeneration p parent
    s.wake p parent (some st)
  else s

/-- A merge stops: the child is merge-faulted at a view and block, and MERGE is raised (R223). -/
def State.mergeFault (s : State) (p : PartId) (child : Addr) (view block : Nat) (sub : Byte) : State :=
  let c := s.mergeCore p (s.parentOf p child)
  let s := s.setRecWord p child 4 (BitVec.ofNat 56 block ++ (0 : BitVec 5) ++ BitVec.ofNat 3 view)
  let s := (s.setTaskState p child stMergeFaulted).modTask p child fun i => { i with held := sub == cPool }
  s.modCore c fun k => k.pend (mkTrap cMerge (zext child) (zext sub) child (sub := sub))

def State.mergeAt (s : State) (p : PartId) (child : Addr) (view unit : Nat) : State :=
  s.modTask p child fun i => { i with view := view, unit := unit }

/-! ### Merge kernels (R222, R223) -/

/-- The position that a kernel of an image would take (R207). -/
def seatFor (k : CoreSt) (i : KImage) : Option KPos :=
  match k.eng.primary, k.eng.secondary with
  | none, none => some .primary
  | some r, none => if k.eng.stopped.isSome || !r.image.disjoint i then none else some .secondary
  | _, _ => none

/-- The registers of a cluster that a footprint names, from another. -/
def Cluster.restoreIn (old new : Cluster) (i : KImage) : Cluster :=
  { old with
    a := startIn i.amask old.a new.a
    v := startIn i.vmask old.v new.v
    t := startIn i.tmask old.t new.t
    acc := startIn i.accmask old.acc new.acc
    p := startIn i.pmask old.p new.p
    q := startIn i.qmask old.q new.q
    m := startIn i.mmask old.m new.m
    lc := Vector.ofFn fun n => if i.lcmask.getLsbD n.val then new.lc[n] else old.lc[n] }

/-- Put a merge kernel's image back into the engine (R223). -/
def CoreSt.restoreMerge (k : CoreSt) (pos : KPos) (x : MergeImage) : CoreSt :=
  let k := { k with mergeImages := k.mergeImages.filter fun y => y.run.merge != x.run.merge }
  let k := match pos with
    | .primary =>
      { k with clusters := x.clusters, kstat := statusFields k.kstat 1 0 false, kcycle := x.run.kc }
    | .secondary =>
      { k with clusters := Bank.ofFn fun c => (k.clusters.read c).restoreIn (x.clusters.read c) x.run.image
               kstat2 := statusFields k.kstat2 1 0 false }
  k.setRun pos x.run

/-- Whether a merge kernel of a child runs on a core. -/
def CoreSt.merging (k : CoreSt) (child : Addr) : Bool :=
  ([k.eng.primary, k.eng.secondary].filterMap id).any fun r => (r.merge.map (·.1)) == some child

/-- The start registers of a merge kernel, in every cluster, whatever its footprint and position: DESIGN CHOICE, log 85, for R222 sets them and
R207 starts a secondary in its footprint alone. -/
def mergeRegs (a2 a3 a4 : Nat) (k : Cluster) : Cluster :=
  { k with a := ((k.a.write 2 (BitVec.ofNat 64 a2)).write 3 (BitVec.ofNat 64 a3)).write 4 (BitVec.ofNat 64 a4) }

/-- Start, or restart, the merge kernel of a view; a merge whose engine is not free waits, and one whose handle has no image, or whose
image is poisoned, is merge-faulted. -/
def State.startMerge (s : State) (p : PartId) (child : Addr) (i : Nat) (l r : ViewEntry) : State :=
  let parent := s.parentOf p child
  let c := s.mergeCore p parent
  let k := s.core c
  match k.mergeImages.find? fun x => x.run.merge == some (child, BitVec.ofNat 3 i) with
  | some x => if x.spoilt.isSome then s.mergeFault p child i 0 cKfault else match seatFor k x.run.image with
    | some pos => s.setCore c (k.restoreMerge pos x)
    | none => s
  | none =>
    match k.imageOf (geomKernel r.geom) with
    | none => s.mergeFault p child i 0 cKfault
    | some img => match seatFor k img with
      | none => s
      | some pos =>
        let launch : Addr := match s.teamWith p parent with
          | some t => t.launch
          | none => 0
        if s.poisonedIn p launch.toNat 64 then s.mergeFault p child i 0 cPoison else
        let wid := s.recWord p parent 1
        let widths := zext ((s.read64In p (launch.toNat + 16)).extractLsb' 0 36)
        let k := k.startKernel pos (newRun (geomKernel r.geom) img 0 0 parent launch [tileHandle l.target, r.pool]
          [tileHandle l.target] [] wid widths (some (child, BitVec.ofNat 3 i)))
        s.setCore c (k.eachCluster (mergeRegs (tileOffset l.working) (tileOffset r.working) (64 * r.blocks)))

/-! ### A child's merge (R218 to R224) -/

/-- A child whose views have all merged exits. -/
def State.mergeDone (s : State) (p : PartId) (child : Addr) : State :=
  let parent := s.parentOf p child
  (((s.setTaskState p child stExited).countTask p child).forgetTask p child).oneMerged p parent

/-- What the merge of a child's view reads and writes. -/
def State.mergeCtx (s : State) (p : PartId) (child : Addr) (i : Nat) : MergeCtx :=
  let parent := s.parentOf p child
  let r := s.viewEntry p child i
  ⟨p, child, s.mergeCore p parent, (s.viewEntry p parent i).working, r.working, r.geom, r.op⟩

/-- Merge the views of a child from where its merge stands. A view that the parent does not have is passed by. -/
def State.mergeViews (s : State) (p : PartId) (child : Addr) (fuel : Nat) : State :=
  match fuel with
  | 0 => s.mergeDone p child
  | fuel + 1 =>
    match s.taskInfo p child with
    | none => s
    | some info =>
      if 7 ≤ info.view then s.mergeDone p child
      else
        let parent := s.parentOf p child
        let r := s.viewEntry p child info.view
        let l := s.viewEntry p parent info.view
        if !r.valid || !l.valid then (s.mergeAt p child (info.view + 1) 0).mergeViews p child fuel
        else if r.op == 7 then s.startMerge p child info.view l r
        else
          let x := s.mergeCtx p child info.view
          let (s, bad, sat, e) := x.mergeFrom (x.units - info.unit) info.unit s
          let s := s.addStatus p parent bad sat
          match e with
          | some (n, cause, _) => (s.mergeAt p child info.view n).mergeFault p child info.view (x.blockAt n) cause
          | none => (s.mergeAt p child (info.view + 1) 0).mergeViews p child fuel

/-- Whether the task area or the view entries of a child or of its parent hold poison: the merge is merge-faulted with POISON (log 65). -/
def State.mergeBad (s : State) (p : PartId) (child : Addr) : Bool := s.areaBad p child || s.areaBad p (s.parentOf p child)

/-- The block of its view at which a child's merge stands (R223). -/
def State.mergeBlock (s : State) (p : PartId) (child : Addr) : Nat × Nat :=
  match s.taskInfo p child with
  | some i => (i.view, (s.mergeCtx p child i.view).blockAt i.unit)
  | none => (0, 0)

/-- CHILD_MERGE. A parked child of a parent that is itself merged as poisoned reads and writes nothing (R225). -/
def execChildMerge (p : PartId) (child : Addr) (s : State) : Out :=
  if s.taskState p child != stParked || (s.taskInfo p child).isNone then .next s
  else
    let parent := s.parentOf p child
    if s.taskState p parent == stPoisoned && (s.taskInfo p parent).isNone then
      .next (((s.setTaskState p child stExited).countTask p child).forgetTask p child)
    else if (s.core (s.mergeCore p parent)).merging child then .next s
    else if s.mergeBad p child && (s.isTurn p child || (s.waits p parent 6 && s.areaBad p parent)) then
      .next (s.mergeFault p child (s.mergeBlock p child).1 (s.mergeBlock p child).2 cPoison)
    else if s.isTurn p child then .next (s.mergeViews p child 8)
    else .next s

/-- What the end of a merge kernel does: the next views, or a merge fault (R222, R223). -/
def State.mergeKernelDone (s : State) (c : CoreId) (child : Addr) (view : BitVec 3) (halted : Bool) : State :=
  match s.partOf c with
  | none => s
  | some p =>
    if halted then (s.mergeAt p child (view.toNat + 1) 0).mergeViews p child 8
    else s.mergeFault p child view.toNat 0 cKfault

/-- csr.resume kind 2: a merge-faulted child is parked again and its merge goes on (R223, R363). -/
def State.resumeChild (s : State) (p : PartId) (child : Addr) : State :=
  if s.taskState p child == stMergeFaulted && (s.taskInfo p child).isSome then
    let w4 := s.recWord p child 4
    let v := (w4.extractLsb' 0 3).toNat
    let b := (w4.extractLsb' 8 56).toNat
    -- the record says where the merge goes on; a row within its block is the device's own
    let s := if s.mergeBlock p child = (v, b) then s else s.mergeAt p child v ((s.mergeCtx p child v).unitAt b)
    let s := (s.setTaskState p child stParked).modTask p child fun i => { i with held := false }
    if s.isTurn p child && !s.mergeBad p child then s.mergeViews p child 8 else s
  else s

/-- The merges of a partition that are held on POOL go on (R276, R363). -/
def State.retryMerges (s : State) (p : PartId) : State :=
  ((s.teams.filter fun t => t.part == p).flatMap fun t => (t.tasks.filter fun i => i.held).map fun i => i.task).foldl
    (fun s r => s.resumeChild p r) s

/-! ### Poisoned children (R225) -/

/-- Every block of the parent's working tiles of a child's views is poisoned, and the parent's status says so; none when a block's copy
finds the pool empty (R276). -/
def State.poisonViews (s : State) (p : PartId) (child : Addr) : Option State :=
  let parent := s.parentOf p child
  let c := s.mergeCore p parent
  let s' := (s.views p child).foldlM (fun s v =>
    let l := s.viewEntry p parent v.1
    if l.valid then (List.range l.blocks).foldlM (fun s b => s.tilePoison? p c l.working b) s else some s) s
  s'.map fun s => s.addStatus p parent true false

/-- The parked and poisoned descendants of a poisoned child merge as poisoned, leaves first; `fuel` bounds the depth. Children
of a live descendant merge into it as usual (log 21). -/
def State.poisonBelow (s : State) (p : PartId) (r : Addr) : Nat → Option State
  | 0 => some s
  | fuel + 1 =>
    let kids : List Addr := match s.teamWith p r with
      | some t => (t.tasks.map fun i => i.task).filter fun x => x != r && s.parentOf p x == r && (s.recWord p x 0).getLsbD flagChild &&
          (s.taskState p x == stParked || s.taskState p x == stPoisoned || s.taskState p x == stMergeFaulted)
      | none => []
    kids.foldlM (fun s x =>
      ((s.poisonBelow p x fuel).bind fun s => s.poisonViews p x).map fun s =>
        let s := if s.taskState p x == stPoisoned then s else s.setTaskState p x stExited
        let s := s.setAreaWord p r 1 (s.areaWord p r 1 - 1)
        (s.countTask p x).forgetTask p x) s

/-- What a poisoned merge marks: the tiles below the child, then its own; none when a copy finds the pool empty. -/
def State.poisonMarks (s : State) (p : PartId) (child : Addr) : Option State :=
  (s.poisonBelow p child 256).bind fun s => s.poisonViews p child

/-- POISONED_MERGE. The child's record stays poisoned, so that a live descendant's merge finds it so. One whose copy finds the pool empty
changes nothing and is held (R276). One whose parent has itself been merged as poisoned has no turn under R220 and marks nothing of that
parent: its descendants that have parked merge as poisoned, it counts, and its slots are free (DEDUCED, log 21). -/
def execPoisonedMerge (p : PartId) (child : Addr) (s : State) : Out :=
  let parent := s.parentOf p child
  if s.taskState p child == stPoisoned && (s.taskInfo p child).isSome && (s.recWord p child 0).getLsbD flagChild &&
      s.taskState p parent == stPoisoned && (s.taskInfo p parent).isNone then
    match s.poisonBelow p child 256 with
    | some u => .next ((u.countTask p child).forgetTask p child)
    | none => .next s
  else if s.taskState p child == stPoisoned && s.isTurn p child then
    match s.poisonMarks p child with
    | some u => .next (((u.countTask p child).forgetTask p child).oneMerged p parent)
    | none => .next s
  else .next s

end Sys2Proof.Machine
end

