-- ==== Sys2Proof/Machine/KernelEnd.lean ====
section
/-! DEFINITION. The end of a kernel and of its command, and the promotion of a secondary (R44, R130, R144, R145, R212, R327,
R362, R437). -/

namespace Sys2Proof.Machine

def FarOp.isAtomic : FarOp → Bool
  | .atomic _ _ _ => true
  | .load => false

/-- Whether every atomic and every arrival that an ended kernel issued can have performed (R44). -/
def KernelRun.drained (r : KernelRun) : Bool :=
  !r.far.any fun f => (f.phase == .waiting || f.phase == .remote) && (f.op.isAtomic || f.arrive.isSome)

/-- The arrivals that a kernel's results in flight owe. -/
def KernelRun.arrivals (r : KernelRun) : List (BitVec 2) :=
  (r.inflight.filterMap fun f => f.arrive) ++ r.far.filterMap fun f => f.arrive

/-- Make arrivals at kernel barriers; whether a closure overflowed its semaphore (R238). -/
def CoreSt.arriveAll (k : CoreSt) : List (BitVec 2) → CoreSt × Bool
  | [] => (k, false)
  | n :: ns =>
    let (k, full) := k.arrive n
    let (k, full') := k.arriveAll ns
    (k, full || full')

/-- How a kernel's end reads in csr.kstat: end and code. -/
def KEnd.stop : KEnd → BitVec 4 × BitVec 16
  | .halted => (2, 0)
  | .ktrap code => (3, code)
  | .fault _ _ _ _ => (4, 0)

/-- csr.tval of KFAULT (R362). -/
def kfaultVal (kind bcause : Byte) (pos : KPos) (slot : BitVec 3) (bundle : BitVec 12) : DWord :=
  let sec : Bool := match pos with
    | .primary => false
    | .secondary => true
  (0 : BitVec 32) ++ bcause ++ kind ++ BitVec.ofBool sec ++ slot ++ bundle

/-- The hold of a kernel that ends stays: its bundles are not issued any more, and its 64 cc end it (R262). -/
def CoreSt.leaveHold (k : CoreSt) (pos : KPos) : CoreSt :=
  { k with eng := { k.eng with left := (k.eng.left ++ ((k.run pos).bind fun r => r.lock).toList).filter fun l => k.eng.clock ≤ l.ends } }

/-- A position becomes free; when the primary ends, the secondary is promoted (R212). -/
def CoreSt.vacate (k : CoreSt) (pos : KPos) : CoreSt :=
  let k := k.leaveHold pos
  match pos with
  | .secondary => { k with eng := { k.eng with secondary := none, blocked := 0 } }
  | .primary =>
    match k.eng.secondary with
    | none => { k with eng := { k.eng with primary := none, blocked := 0 } }
    | some b =>
      { k with
        eng := { k.eng with primary := some b, secondary := none, blocked := 0 }
        kcycle := b.kc
        kstat := statusFields k.kstat (k.kstat2.extractLsb' 0 4) (k.kstat2.extractLsb' 48 16) (k.kstat2.getLsbD 32)
        kstat2 := statusFields k.kstat2 0 0 false }

/-- The core after a kernel's end, less what its command does. -/
def CoreSt.endKernel (k : CoreSt) (pos : KPos) (r : KernelRun) (stop : BitVec 4) (code : BitVec 16) : CoreSt :=
  let k := if r.image.spill != 0 && r.merge.isNone then { k with handles := k.handles.write 63 none } else k
  let k := match pos with
    | .primary => { k with kstat := statusFields k.kstat stop code r.clamp }
    | .secondary => { k with kstat2 := statusFields k.kstat2 stop code r.clamp }
  (k.vacate pos).takePendingImages

/-- A KERNEL command whose kernel faulted: fatal, with KFAULT (R313, R362). -/
def State.kernelFault (s : State) (c : CoreId) (pos : KPos) (r : KernelRun) (x : Cmd) (kind bcause : Byte) (slot : BitVec 3)
    (bundle : BitVec 12) : State :=
  let st := { x with cause := ccKfault, kend := 4 }.status
  (s.modCore c fun k => { k with cerr := st }.pend
    (mkTrap cKfault (kfaultVal kind bcause pos slot bundle) r.word0 r.task (noSnap := r.noSnap))).dropCmd c x

/-- KERNEL_END: a kernel that has halted, trapped, faulted or overflowed a semaphore ends once what it issued has performed;
register results still in flight are discarded. -/
def execKernelEnd (c : CoreId) (pos : KPos) (s : State) : Out :=
  match (s.core c).run pos with
  | none => .next s
  | some r =>
    if (r.ending.isNone && !r.overflow) || !r.drained || (s.core c).eng.stopped.isSome then .next s
    else
      let (k, full) := (s.core c).arriveAll r.arrivals
      let full_ := r.overflow || full
      let e := r.ending.getD .halted
      let (stop, code) := if full_ then (4, 0) else e.stop
      let s := s.setCore c (k.endKernel pos r stop code)
      let s := match e with
        | .fault kind _ _ _ =>
          if kind == kRegErr && r.image.corrupt.contains r.idx then s.modCore c fun k => k.pend (mkTrap cMcheck 3 0 r.task) else s
        | _ => s
      match r.merge, k.cmd r.entry with
      | some (child, view), _ => .next (s.mergeKernelDone c child view (e == .halted && !full_))
      | none, none => .next s
      | none, some x =>
        if full_ then .next (s.fatal c { x with kend := 4 } ccOverflow)
        else match e with
          | .halted => .next (s.modCmd c x.entry fun y => { y with phase := .moved, kend := 2 })
          | .ktrap code => .next (s.modCmd c x.entry fun y => { y with phase := .moved, kend := 3, code := code, cause := ccKernel })
          | .fault kind bcause slot bundle => .next (s.kernelFault c pos r x kind bcause slot bundle)

end Sys2Proof.Machine
end

