-- ==== Sys2Proof/Machine/Context.lean ====
section
/-! DEFINITION. Core contexts: what a swap moves with a team position, and its kind 2 image as bytes (R365, R371, R373). R371 lists
what the core section holds and not where; the places are the model's (log 22). -/

namespace Sys2Proof.Machine

/-! ### What a context holds -/

/-- The context of a team position put onto a core: all that R371 lists, less what belongs to the core itself. -/
def CoreSt.adoptContext (k x : CoreSt) : CoreSt :=
  { k with
    pc := x.pc, g := x.g, shadowG := x.shadowG, running := x.running, wid := x.wid, widths := x.widths, widthsOf := x.widthsOf
    uvec := x.uvec, uepc := x.uepc, ucause := x.ucause, ustat := x.ustat, uie := x.uie, inHandler := x.inHandler, ovf := x.ovf
    notifs := x.notifs, kcycle := x.kcycle, kstat := x.kstat, kstat2 := x.kstat2, cerr := x.cerr, kb := x.kb, discidx := x.discidx
    hold := x.hold, holdSys := x.holdSys, txns := x.txns, monitors := x.monitors, sweep := x.sweep, sem := x.sem
    shapes := x.shapes, handles := x.handles, table := x.table, cistern := x.cistern, cisPoison := x.cisPoison
    mergeImages := x.mergeImages, eng := x.eng, clusters := x.clusters, swapHalted := false }

/-- A core to which a position is bound for the first time, or from which its context has gone: semaphores zero (R307), shape
registers invalid (R315), cfg and the scale table at reset (R42); the Cistern keeps what stood in it, and csr.widths its value until
another launch's task is picked up (R32). That the kernel CSRs and the other task CSRs start again at their reset values is the model's
(log 49). -/
def CoreSt.fresh (k : CoreSt) : CoreSt :=
  { k.adoptContext CoreSt.reset with cistern := k.cistern, cisPoison := k.cisPoison, widths := k.widths, widthsOf := k.widthsOf }

/-- A core's context as it is saved: a core in a handler saves the PC at which its task goes on. -/
def CoreSt.toSave (k : CoreSt) : CoreSt := if k.sys && k.running.isSome then { k with pc := k.tepc } else k

/-- A core whose team has been saved. A handler that runs on it runs on, and returns to idle. -/
def CoreSt.leaveTeam (k : CoreSt) : CoreSt :=
  { (if k.sys then { k.fresh with pc := k.pc, g := k.g, idle := true, holdSys := k.holdSys } else k.fresh) with bound := none }

/-- Let a stopped engine run again when it was stopped for a swap. -/
def CoreSt.unhalt (k : CoreSt) : CoreSt :=
  { k with swapHalted := false, eng := { k.eng with stopped := if k.eng.stopped == some 1 then none else k.eng.stopped } }

/-! ### The core section -/

/-- `x` in bits 47:0 with bit 63 set, or 0. -/
def optWord : Option Addr → DWord
  | some x => (1 : BitVec 1) ++ (0 : BitVec 15) ++ x
  | none => 0
def wordOpt (w : DWord) : Option Addr := if w.getLsbD 63 then some (w.extractLsb' 0 48) else none

/-- A hold on a table entry in a byte. -/
def holdByte : Option (BitVec 6) → Byte
  | some e => (2 : BitVec 2) ++ e
  | none => 0
def byteHold (b : Byte) : Option (BitVec 6) := if b.getLsbD 7 then some (b.extractLsb' 0 6) else none

/-- Words filled with zeros up to a length. -/
def padWords (n : Nat) (ws : List DWord) : List DWord := ws ++ List.replicate (n - ws.length) 0

/-- The 16-word head: pc, task CSRs, the running task, the holds of `.acq` commands and the lengths of the lists. -/
def headWords (k : CoreSt) : List DWord :=
  [k.pc, k.wid, k.widths, k.uvec, k.uepc, k.ucause, k.ustat, k.cerr,
    BitVec.ofBool k.ovf ++ BitVec.ofBool k.inHandler ++ BitVec.ofBool k.uie ++ (0 : BitVec 37) ++ holdByte k.holdSys ++
      holdByte k.hold ++ k.discidx,
    optWord k.running, 0,
    BitVec.ofNat 16 k.sweep.length ++ BitVec.ofNat 16 k.monitors.length ++ BitVec.ofNat 16 k.notifs.length ++
      BitVec.ofNat 16 k.table.length,
    BitVec.ofNat 64 (packNat 1 (k.shapes.list.map fun x => x.isSome.toNat)), 0, 0, 0]

/-- A shape register as its record of R314. -/
def shapeWords (sh : Shape) : List DWord :=
  (sh.sdisp ++ (0 : BitVec 5) ++ sh.dyn ++ sh.place ++ sh.wbase ++ sh.esize) ::
    (sh.counts.toList.zip sh.strides.toList).map (fun x => x.1 ++ x.2) ++ [sh.cscale ++ sh.cbase]

/-- A handle: bank, count, row and count with the valid bit, the holder, the launch. -/
def handleWords : Option Alloc → List DWord
  | some a => [BitVec.ofNat 64 (a.bank + 2 ^ 8 * a.nbanks + 2 ^ 16 * a.row + 2 ^ 32 * a.nrows) ||| optWord (some 0), zext a.holder,
      zext a.launch]
  | none => [0, 0, 0]
def wordsHandle (bs : List Byte) : Option Alloc :=
  let w := wordAt bs 0
  if w.getLsbD 63 then
    some ⟨(w.extractLsb' 0 8).toNat, (w.extractLsb' 8 8).toNat, (w.extractLsb' 16 16).toNat, (w.extractLsb' 32 16).toNat,
      (wordAt bs 1).extractLsb' 0 48, (wordAt bs 2).extractLsb' 0 48⟩
  else none

/-- Where a command stands, for its table entry: a code, the cause and address of a stop. -/
def phaseWords : CmdPhase → Nat × Byte × DWord
  | .waiting => (0, 0, 0)
  | .active => (1, 0, 0)
  | .moved => (2, 0, 0)
  | .stopped sub va => (3, sub, va)
  | .hostWait => (4, 0, 0)
def wordsPhase (n : Nat) (sub : Byte) (va : DWord) : CmdPhase :=
  match n with
  | 0 => .waiting
  | 1 => .active
  | 2 => .moved
  | 3 => .stopped sub va
  | _ => .hostWait

/-- The four words of a command in two. -/
def commandWords (i : Instr) : List DWord :=
  match encodeCommand i with
  | some (w0, w1, w2, w3) => [w1 ++ w0, w3 ++ w2]
  | none => [0, 0]
def wordsCommand (a b : DWord) : Option Instr :=
  (decodeCommand (a.extractLsb' 0 32) (a.extractLsb' 32 32) (b.extractLsb' 0 32) (b.extractLsb' 32 32)).toOption

/-- A table entry with its position in 32 words: the command itself, what was fixed at its entry and at its issue, what its status will
report. A swap finds no command that waits for the host. -/
def entryWords (x : Cmd) : List DWord :=
  let (ph, sub, va) := phaseWords x.phase
  [x.code ++ x.cause ++ sub ++ BitVec.ofNat 8 ((x.engine.map (· + 1)).getD 0) ++ BitVec.ofNat 8 ph ++ x.kend ++
      BitVec.ofBool x.sat ++ BitVec.ofBool x.shape.isSome ++ (0 : BitVec 4) ++ x.entry,
    x.word0, zext x.task, x.wid, zext x.launch, x.addr1, x.addr2, x.ctr, va, BitVec.ofNat 64 x.total, BitVec.ofNat 64 x.pos,
    BitVec.ofNat 64 x.errors, BitVec.ofNat 64 x.firstErr,
    BitVec.ofNat 32 ((x.rank.map (· + 1)).getD 0) ++ x.seq, BitVec.ofNat 64 x.counts.length] ++
    padWords 6 (x.counts.map (BitVec.ofNat 64 ·)) ++ commandWords x.op ++ padWords 9 ((x.shape.map shapeWords).getD [])
/-- A SCAN or a KSWAP under way starts again from its first candidate or byte: what it has gathered is in no section (log 22). -/
def Cmd.fromStart (x : Cmd) : Cmd :=
  if x.phase == .moved || !(engineKind x.op == .scan || engineKind x.op == .loader) then x
  else { x with pos := 0, errors := 0, firstErr := 0, cause := 0 }
/-- The command of a table entry. -/
def wordsEntry (bs : List Byte) : Option Cmd :=
  let w := wordAt bs
  (wordsCommand (w 21) (w 22)).map fun op =>
    { newCmd ((w 0).extractLsb' 0 6) op (w 1) ((w 2).extractLsb' 0 48) (w 3) ((w 4).extractLsb' 0 48) (w 5) (w 6) (w 7) with
      sat := (w 0).getLsbD 11
      kend := (w 0).extractLsb' 12 4
      phase := wordsPhase ((w 0).extractLsb' 16 8).toNat ((w 0).extractLsb' 32 8) (w 8)
      engine := if (w 0).extractLsb' 24 8 == 0 then none else some (((w 0).extractLsb' 24 8).toNat - 1)
      cause := (w 0).extractLsb' 40 8
      code := (w 0).extractLsb' 48 16
      total := (w 9).toNat, pos := (w 10).toNat, errors := (w 11).toNat, firstErr := (w 12).toNat, seq := (w 13).extractLsb' 0 32
      rank := if (w 13).extractLsb' 32 32 == 0 then none else some (((w 13).extractLsb' 32 32).toNat - 1)
      counts := (List.range (w 14).toNat).map fun i => (w (15 + i)).toNat
      shape := if (w 0).getLsbD 10 then some (readShape (bs.drop 184)) else none }.fromStart

def notifWords (n : Notif) : List DWord := [zext n.task, n.word0, n.stat]
def wordsNotif (bs : List Byte) : Notif := ⟨(wordAt bs 0).extractLsb' 0 48, wordAt bs 1, wordAt bs 2⟩

def monitorWords (m : Monitor) : List DWord :=
  [BitVec.ofBool m.dirty ++ BitVec.ofBool m.counter ++ m.mode ++ (0 : BitVec 12) ++ m.task, m.va, m.cmp, BitVec.ofNat 64 m.pa]
def wordsMonitor (bs : List Byte) : Monitor :=
  let w := wordAt bs
  ⟨(w 0).extractLsb' 0 48, w 1, (w 3).toNat, (w 0).extractLsb' 60 2, w 2, (w 0).getLsbD 62, (w 0).getLsbD 63⟩

/-- The places of the parts of the core section, in words from its start. A sweep list longer than its part keeps its later entries
with the context. -/
def secHead : Nat := 0
def secRegs : Nat := 16
def secShadow : Nat := 48
def secSem : Nat := 64
def secShapes : Nat := 128
def secHandles : Nat := 384
def secTable : Nat := 576
def secNotifs : Nat := 2624
def secMonitors : Nat := 2816
def secSweep : Nat := 3072
def sweepRoom : Nat := 1280

/-- The core section: 65,536 bytes. -/
def sectionWords (k : CoreSt) : List DWord :=
  padWords secRegs (headWords k) ++ k.g.list ++ padWords 16 k.shadowG.list ++
    ((List.range 64).map fun i => BitVec.ofNat 64 (packNat 16 (((k.sem.list.drop (4 * i)).take 4).map BitVec.toNat))) ++
    (k.shapes.list.flatMap fun x => (x.map shapeWords).getD (List.replicate 8 0)) ++ (k.handles.list.flatMap handleWords) ++
    padWords 2048 (k.table.flatMap entryWords) ++ padWords 192 (k.notifs.flatMap notifWords) ++
    padWords 256 (k.monitors.flatMap monitorWords) ++ padWords (4 * sweepRoom) ((k.sweep.take sweepRoom).flatMap monitorWords)

/-- The fields of csr.widths and csr.uvec; their other bits read as zero, whatever an image holds (R6, R32, R336). -/
def widthsFields : DWord := 0x0000000FFFFFFFFF
def uvecFields : DWord := 0x0000FFFFFFFFFFFC

/-- A core section put over a core: its pc, registers, task CSRs, semaphores, shapes, handles, table, notifications, monitors. -/
def CoreSt.restoreSection (k : CoreSt) (bs : List Byte) : CoreSt :=
  let w := wordAt bs
  let from_ (i : Nat) : List Byte := bs.drop (8 * i)
  let len (i : Nat) : Nat := ((w 11).extractLsb' (16 * i) 16).toNat
  { k with
    pc := w 0, wid := w 1, widths := w 2 &&& widthsFields, uvec := w 3 &&& uvecFields, uepc := w 4, ucause := w 5, ustat := w 6, cerr := w 7
    discidx := (w 8).extractLsb' 0 8
    hold := byteHold ((w 8).extractLsb' 8 8)
    holdSys := byteHold ((w 8).extractLsb' 16 8)
    uie := (w 8).getLsbD 61
    inHandler := (w 8).getLsbD 62
    ovf := (w 8).getLsbD 63
    running := wordOpt (w 9)
    g := Bank.ofFn fun i => w (secRegs + i.toNat)
    shadowG := Bank.ofFn fun i => w (secShadow + i.toNat)
    sem := Bank.ofFn fun i => (w (secSem + i.toNat / 4)).extractLsb' (16 * (i.toNat % 4)) 16
    shapes := Bank.ofFn fun i => if (w 12).getLsbD i.toNat then some (readShape (from_ (secShapes + 8 * i.toNat))) else none
    handles := Bank.ofFn fun i => wordsHandle (from_ (secHandles + 3 * i.toNat))
    table := (List.range (len 0)).filterMap fun i => wordsEntry (from_ (secTable + 32 * i))
    notifs := (List.range (len 1)).map fun i => wordsNotif (from_ (secNotifs + 3 * i))
    monitors := (List.range (len 2)).map fun i => wordsMonitor (from_ (secMonitors + 4 * i))
    sweep := ((List.range (min (len 3) sweepRoom)).map fun i => wordsMonitor (from_ (secSweep + 4 * i))) ++ k.sweep.drop sweepRoom }

/-! ### The Cistern area -/

/-- The units of every live allocation, handle by handle, row by row, bank by bank (R371). -/
def CoreSt.liveUnits (k : CoreSt) : List Nat :=
  k.liveAllocs.flatMap fun a => (List.range a.nrows).flatMap fun r => (List.range a.nbanks).map fun b => unitIndex (a.bank + b) (a.row + r)

def cisternBlocks (k : CoreSt) : List ImageBlock := k.liveUnits.map fun u => (k.cistern.read (64 * u) 64, k.cisPoison.contains u)

/-- Each allocation placed at the bank-rows recorded for it (R373). -/
def CoreSt.restoreCistern (k : CoreSt) (bs : List Byte) : CoreSt :=
  { k with cistern := k.liveUnits.zipIdx.foldl (fun m x => m.write (64 * x.1) ((bs.drop (64 * x.2)).take 64)) k.cistern }

/-! ### Kind 2 images -/

/-- Where the core section of an image lies (R366). -/
def secOffset : Nat := 0x19E000

/-- The bytes of a core's context (R372). -/
def contextBytes (k : CoreSt) : Nat :=
  Config.contextFixed + 64 * (flightBlocks k).length + (k.liveAllocs.map Alloc.bytes).sum

/-- Where slot `n` of a partition's swap area starts. -/
def State.slotAddr (s : State) (p : PartId) (n : Nat) : Nat := (s.part p).swapbase.toNat + 2 ^ 24 * n

/-- Write a context, that of core `c`, as a kind 2 image into a slot. -/
def State.writeContext (s : State) (p : PartId) (n : Nat) (k : CoreSt) (c : CoreId) (launch : Addr) : State × Option Nat :=
  let sections := imageBody k none ++ blocksFor false (words (sectionWords k))
  let lists := flightBlocks k
  let body := sections ++ lists ++ cisternBlocks k
  let bytes := body.flatMap (·.1)
  s.writeWhole p (s.slotAddr p n)
    (imageHeader 2 k c 1 launch (1 + sections.length) (1 + sections.length + lists.length) bytes) body

/-- A kind 2 image put over a core that holds its context's other fields: every section of it (R373). -/
def CoreSt.restoreImage (k : CoreSt) (bs : List Byte) : CoreSt :=
  ((k.restoreEngine bs).restoreSection ((bs.drop secOffset).take 65536)).restoreCistern (bs.drop (64 * natAt bs 52 4))

/-- A context put onto a core: from shadow storage as it was put there, from a swap slot as the bytes of its image say. -/
def State.restoreContext (s : State) (p : PartId) (x : Context) (k : CoreSt) : CoreSt :=
  let k := k.adoptContext x.core
  (match x.place with
    | .shadow _ => k
    | .slot n => match s.loadImage p (s.slotAddr p n) 2 with
      | some bs => k.restoreImage bs
      | none => k).unhalt

/-- Whether a saved context can still be read. One in shadow storage that its ECC gives up is poisoned when that is found (R375). -/
def State.contextSound (s : State) (p : PartId) (x : Context) : Bool :=
  match x.place with
  | .shadow _ => true
  | .slot n => (s.loadImage p (s.slotAddr p n) 2).isSome

end Sys2Proof.Machine
end

