-- ==== Sys2Proof/Machine/Sched.lean ====
section
/-! DEFINITION. The team placer: admission, binding, swap periods, swapping teams out and in (R39, R203, R245 to R257,
R370 to R375). -/

namespace Sys2Proof.Machine

/-! ### The order of teams (R249 to R252) -/

/-- Whether team `a` comes before team `b` in a period's order. -/
def Team.before (a b : Team) : Bool :=
  b.prio.ult a.prio || (a.prio == b.prio && (decide (a.age < b.age) || (a.age == b.age && a.index.ult b.index)))

def insertTeam (x : Team) : List Team → List Team
  | [] => [x]
  | y :: ys => if x.before y then x :: y :: ys else y :: insertTeam x ys
def teamOrder (ts : List Team) : List Team := ts.foldl (fun xs t => insertTeam t xs) []

/-- Cores of a partition that the placer can bind: bound to no team, not stopped, not in a handler. -/
def State.freeCores (s : State) (p : PartId) : List CoreId :=
  (s.coresOf p).filter fun c =>
    let k := s.core c
    k.bound.isNone && k.halt.isNone && !k.sys

/-- The first `n` of the free cores, preferred ones first (R203 leaves the choice to the placer; log 1). -/
def pickCores (free prefer : List CoreId) (n : Nat) : List CoreId :=
  let liked := (prefer.filter free.contains).eraseDups
  (liked ++ free.filter fun c => !liked.contains c).take n

/-- The team that the placer would start next with `n` free cores. -/
def nextTeam (ts : List Team) (n : Nat) : Option Team :=
  (teamOrder (ts.filter fun t => t.inPeriod && !t.hadQuantum && !t.running && !t.halted)).find? fun t => decide (t.size ≤ n)

/-- A new period starts once every team of the last has had its quantum (R251). -/
def State.turnPeriod (s : State) (p : PartId) : State :=
  let ts := s.teamsOf p
  if ts.any fun t => t.inPeriod && !t.hadQuantum then s
  else
    let s := { s with teams := s.teams.map fun (t : Team) => if t.part == p then { t with inPeriod := true, joined := false, hadQuantum := false } else t }
    s.modPart p fun x => { x with begun := ts.length, joined := 0 }

/-! ### Binding (R203, R250, R256) -/

/-- Write the affinity core of a record. -/
def State.setAffinity (s : State) (p : PartId) (r : Addr) (c : CoreId) : State :=
  let w7 := s.recWord p r 7
  s.setRecWord p r 7 (w7.extractLsb' 56 8 ++ (1 : BitVec 1) ++ c ++ w7.extractLsb' 0 48)

/-- The first binding counts a team's shares on their dies (R256). -/
def State.countShares (s : State) (a : Admitted) (dies : List DieId) : State :=
  let h := s.treeRecord a.part a.header
  let s := dies.foldl (fun s d =>
    let c := h + 8 + 8 * d.toNat
    let was := s.readIn a.part c 8
    let s := s.treeAdd a.part c 1
    if was = 0 then s.treeAdd a.part h 1 else s) s
  s.treeAdd a.part h (-1)

/-- Re-arm the waited words of a core, where they lie now (R243, R373): a copy may have moved one while its team was away. -/
def State.rearm (s : State) (c : CoreId) : State :=
  let now (m : Monitor) : Monitor := match s.resolve c false m.va.toNat .load with
    | .ok (pa, _) => { m with pa := pa }
    | .error _ => m
  s.modCore c fun k => { k with monitors := k.monitors.map now, sweep := k.sweep.map now }

/-- The core that a position's affinity moves to. -/
def movedCore (saved : List Context) (cores : List CoreId) (c : CoreId) : CoreId :=
  match saved.find? fun x => x.oldCore == c with
  | some x => nth cores x.pos c
  | none => c

/-- Bind a team to cores: its first tasks get their affinity, or its contexts return (R203, R373). -/
def State.bindTeam (s : State) (t : Team) (cores : List CoreId) : State :=
  let p := t.part
  let sel := Team.is p t.launch t.index
  let put (s : State) (k : Nat) (c : CoreId) (f : CoreSt → CoreSt) : State :=
    s.modCore c fun x => { f x with bound := some ⟨p, t.launch, t.index, k⟩ }
  if t.everBound then
    let s := t.tasks.foldl (fun s i =>
      let w7 := s.recWord p i.task 7
      if w7.getLsbD 55 then s.setAffinity p i.task (movedCore t.saved cores (w7.extractLsb' 48 7)) else s) s
    let s := t.saved.foldl (fun s x => put s x.pos (nth cores x.pos 0) (s.restoreContext p x)) s
    let s := s.modTeam sel fun t => { t with bound := cores, running := true, saved := [] }
    cores.foldl (fun s c => (s.rearm c).rereadCore c fun _ _ => true) s
  else
    let s := (cores.zipIdx).foldl (fun s x => put s x.2 x.1 CoreSt.fresh) s
    let s := (cores.zip t.tasks).foldl (fun s x => s.setAffinity p x.2.task x.1) s
    let dies := cores.map dieOf
    let s := match s.admitted p t.launch with
      | some a => s.countShares a dies
      | none => s
    s.modTeam sel fun t => { t with bound := cores, running := true, everBound := true, dies := dies }

/-! ### A poisoned context (R375) -/

/-- A team whose context is poisoned: its records, its shares, and CTXPOISON on a core of the partition. -/
def State.poisonTeam (s : State) (t : Team) : State :=
  let p := t.part
  let s := t.tasks.foldl (fun s i => s.setTaskState p i.task stPoisoned) s
  let s := { s with teams := s.teams.filter fun x => !Team.is p t.launch t.index x }
  let s := match s.admitted p t.launch with
    | none => s
    | some a => (List.range t.size).foldl (fun s k =>
        let c := s.shareCounter a (t.index.toNat * t.size + k)
        let s := s.reportIn p c 8
        if s.readIn p c 8 = 0 then s else (s.putLive p c 8 0).reportShare a (nth t.dies k 0)) s
  match (s.coresOf p).head? with
  | some c => s.modCore c fun k => k.pend (mkTrap cCtxPoison (zext t.index) (zext t.launch) 0)
  | none => s

/-! ### Starting teams -/

/-- Start one team on free cores. -/
def State.startTeam (s : State) (t : Team) (prefer : List CoreId) : State :=
  if t.saved.all (s.contextSound t.part) then s.bindTeam t (pickCores (s.freeCores t.part) prefer t.size) else s.poisonTeam t

/-- Start teams while one fits; `fuel` bounds the number. -/
def State.startTeams (s : State) (p : PartId) (prefer : List CoreId) : Nat → State
  | 0 => s
  | fuel + 1 =>
    match nextTeam (s.teamsOf p) (s.freeCores p).length with
    | some t => (s.startTeam t prefer).startTeams p prefer fuel
    | none => s

/-! ### Swapping out (R370 to R374) -/

/-- Shadow storage in use on a die. -/
def State.shadowUsed (s : State) (d : DieId) : Nat :=
  ((s.teams.flatMap fun t => t.saved).map fun x => if x.place == .shadow d then x.bytes else 0).sum
/-- Swap slots in use in a partition. -/
def State.slotsUsed (s : State) (p : PartId) : List Nat :=
  (s.teamsOf p).flatMap fun t => t.saved.filterMap fun x => match x.place with
    | .slot n => some n
    | .shadow _ => none

/-- The lowest slot that is free; the search is as long as the list of those taken. -/
def freeSlotIn (used : List Nat) (limit : Nat) : Option Nat :=
  (List.range (min limit (used.length + 1))).find? fun n => !used.contains n

/-- Save the contexts of a team's positions; the address at which a save failed, 0 when no slot is free. -/
def State.saveContexts (s : State) (t : Team) : List (CoreId × Nat) → List Context → State × Except Nat (List Context)
  | [], done => (s, .ok done.reverse)
  | (c, pos) :: rest, done =>
    let k := s.core c
    let bytes := contextBytes k
    let here := ((done.filter fun x => x.place == .shadow (dieOf c)).map (·.bytes)).sum
    if s.shadowUsed (dieOf c) + here + bytes ≤ Config.shadowBytes then
      s.saveContexts t rest (⟨pos, c, .shadow (dieOf c), bytes, k.toSave⟩ :: done)
    else
      let taken := s.slotsUsed t.part ++ done.filterMap fun x => match x.place with
        | .slot n => some n
        | .shadow _ => none
      match freeSlotIn taken ((s.part t.part).swapslots.extractLsb' 0 16).toNat with
      | none => (s, .error 0)
      | some n =>
        match s.writeContext t.part n k.toSave c t.launch with
        | (s, some va) => (s, .error va)
        | (s, none) => s.saveContexts t rest (⟨pos, c, .slot n, bytes, k.toSave⟩ :: done)

/-- Halt a core of a team (R370): its engine stops, and what has been sent to it is served. -/
def State.haltCore (s : State) (c : CoreId) : State :=
  let s := s.stopEngine c 1
  let waiting := (s.core c).remoteQ
  let s := s.modCore c fun k => { k with remoteQ := [], swapHalted := true }
  waiting.foldl (fun s m => s.performRemote m) s

/-- Why a save failed at an address (R390): no slot, an uncorrectable error, or a translation fault. -/
def State.saveFault (s : State) (p : PartId) (va : Nat) : DWord :=
  if va = 0 then 3
  else match s.resolveIn p va .store with
    | .ok (pa, s') => if s'.poisoned pa 64 then 2 else 1
    | .error _ => 1

/-- Telemetry's record of a save that failed (R390). -/
def State.saveFailed (s : State) (t : Team) (c : CoreId) (va : Nat) : State :=
  s.telemetry (dieOf c) (some c) 10 [zext t.index, zext t.launch, BitVec.ofNat 64 va, s.saveFault t.part va]

/-- A context in shadow storage that the placer spills to a free slot of the swap area; one whose write fails stays (R374). -/
def State.spillOne (s : State) (t : Team) (x : Context) : State :=
  match freeSlotIn (s.slotsUsed t.part) ((s.part t.part).swapslots.extractLsb' 0 16).toNat with
  | none => s.saveFailed t x.oldCore 0
  | some n =>
    match s.writeContext t.part n x.core x.oldCore t.launch with
    | (s, some va) => s.saveFailed t x.oldCore va
    | (s, none) => s.modTeam (Team.is t.part t.launch t.index) fun t =>
        { t with saved := t.saved.map fun y => if y.pos = x.pos then { y with place := .slot n } else y }

/-- Whether and which context is spilled once a team has made way is open (log 64): none, or one of those in shadow storage. -/
def State.spill (s : State) (p : PartId) : State :=
  let held := (s.teamsOf p).flatMap fun t => (t.saved.filter fun x => match x.place with
    | .shadow _ => true
    | .slot _ => false).map fun x => (t, x)
  match held[(Config.freeValue s.tick).toNat % (held.length + 1)]? with
  | some (t, x) => s.spillOne t x
  | none => s

/-- Halt a team and save it; a save that fails leaves it halted on its cores, with SWAP on position 0's core (R374). -/
def State.swapTeam (s : State) (t : Team) : State × Bool :=
  let sel := Team.is t.part t.launch t.index
  let s := t.bound.foldl (fun s c => s.haltCore c) s
  match s.saveContexts t t.bound.zipIdx [] with
  | (s, .ok done) =>
    let s := t.bound.foldl (fun s c => s.modCore c CoreSt.leaveTeam) s
    let s := s.modTeam sel fun t => { t with bound := [], running := false, halted := false, saved := done }
    (s.spill t.part, true)
  | (s, .error va) =>
    let s := s.modTeam sel fun t => { t with halted := true }
    let c := nth t.bound 0 0
    let s := s.saveFailed t c va
    (s.modCore c fun k => k.pend (mkTrap cSwap (BitVec.ofNat 64 va) (zext t.index) 0), false)

/-- Whether a team's cores can be halted now: none is in a handler, none awaits the host, and no LOCK keeps a remote atomic that they sent
or were sent (R262, R364, R370). -/
def State.canHalt (s : State) (t : Team) : Bool :=
  t.bound.all fun c =>
    let k := s.core c
    !k.sys && k.hostHold.isNone && s.farSettles c && k.remoteQ.all k.admits && !k.table.any fun x => match x.phase with
      | .hostWait => true
      | _ => false

/-! ### The placer's events -/

/-- QUANTUM_END: a team's quantum ends; it stays when it is the next to run on its cores, and otherwise makes way (R251). The cores that are
free already are given out first, to a later team where it alone fits them, and then the ending team's are counted: DESIGN CHOICE, log 88. -/
def execQuantumEnd (p : PartId) (rec_ : Addr) (team : BitVec 32) (prefer : List CoreId) (s : State) : Out :=
  let sel := Team.is p rec_ team
  match s.teams.find? sel with
  | none => .next s
  | some t =>
    if !t.running || t.halted then .next s
    else
      let s := (s.modTeam sel fun t => { t with hadQuantum := true }).turnPeriod p
      let s := s.startTeams p prefer s.teams.length
      -- the team itself stands among those that could run on its cores
      let rivals := (s.teamsOf p).map fun x => if sel x then { x with running := false } else x
      let stays := ((nextTeam rivals ((s.freeCores p).length + t.size)).map sel) == some true
      -- a team that cannot be halted yet stays until a later QUANTUM_END finds that it can
      if stays || !s.canHalt t then .next s
      else
        match s.swapTeam t with
        | (s, true) => .next (s.startTeams p prefer s.teams.length)
        | (s, false) => .next s

/-- SWAP_OUT: a running team makes way for a team of higher priority that was admitted into the period and does not fit; of
those running below it the lowest in priority goes first, then the youngest (R252, R370). -/
def execSwapOut (p : PartId) (rec_ : Addr) (team : BitVec 32) (s : State) : Out :=
  let sel := Team.is p rec_ team
  match s.teams.find? sel with
  | none => .next s
  | some t =>
    let ts := s.teamsOf p
    let free := (s.freeCores p).length
    let wants := ts.any fun w => w.inPeriod && w.joined && !w.hadQuantum && !w.running && !w.halted && decide (free < w.size) && t.prio.ult w.prio
    let last := (teamOrder (ts.filter fun x => x.running && !x.halted)).getLast?
    if t.running && !t.halted && wants && (last.map sel) == some true && s.canHalt t then .next (s.swapTeam t).1 else .next s

/-- SWAP_IN: the placer starts the next team of the period, its contexts restored or bound for the first time (R250, R251, R373). -/
def execSwapIn (p : PartId) (rec_ : Addr) (team : BitVec 32) (prefer : List CoreId) (s : State) : Out :=
  let s' := s.turnPeriod p
  match nextTeam (s'.teamsOf p) (s'.freeCores p).length with
  | some t => .next (if Team.is p rec_ team t then s'.startTeam t prefer else s)
  | none => .next s

/-- csr.resume kind 4: the save of a halted team is tried again (R374). -/
def State.retrySave (s : State) (c : CoreId) : State :=
  match s.teamOf c with
  | some t => if t.halted then (let (s', ok) := s.swapTeam t; if ok then s'.startTeams t.part [] s'.teams.length else s') else s
  | none => s

/-- csr.resume kind 5: a halted team runs on (R374). -/
def State.releaseTeam (s : State) (c : CoreId) : State :=
  match s.teamOf c with
  | some t =>
    if t.halted then
      let s := s.modTeam (Team.is t.part t.launch t.index) fun t => { t with halted := false }
      t.bound.foldl (fun s c => s.modCore c CoreSt.unhalt) s
    else s
  | none => s

/-! ### Admission (R39, R250, R257) -/

/-- Field widths w0 to w5 of a launch. -/
def launchWidths (w2 : DWord) : List Nat := (List.range 6).map fun i => (w2.extractLsb' (6 * i) 6).toNat

/-- The launch that heads the highest non-empty queue of a partition. -/
def State.headLaunch (s : State) (p : PartId) : Option (BitVec 4 × Addr) :=
  ((List.range 16).reverse.map (BitVec.ofNat 4)).findSome? fun q => (((s.part p).queues.read q).head?).map fun l => (q, l)

/-- The `n` lowest numbers from `i` up that are not taken; `fuel` bounds the search. -/
def takeFree (used : List Nat) (limit : Nat) : Nat → Nat → Nat → List Nat
  | 0, _, _ => []
  | fuel + 1, n, i =>
    if n = 0 || limit ≤ i then []
    else if used.contains i then takeFree used limit fuel n (i + 1)
    else i :: takeFree used limit fuel (n - 1) (i + 1)

/-- Device bytes written by the placer, block by block; a block that does not translate for a store, lies in host memory or a
live block, or holds poison, makes it fail (R250): its address and the reason that telemetry gives (R390). -/
def State.placeBytes (s : State) (p : PartId) (va : Nat) : Nat → List Byte → Except (Nat × Nat) State
  | 0, _ => .ok s
  | n + 1, bs =>
    match s.resolveIn p va .store with
    | .error _ => .error (va, 1)
    | .ok (pa, s') =>
      if isHost pa || s'.tagged pa then .error (va, 1)
      else if s'.poisoned pa 64 then .error (va, 2)
      else (s'.writePhys pa (bs.take 64)).placeBytes p (va + 64) n (bs.drop 64)

/-- An initial record and its frame. -/
def initialBytes (entry frame : Addr) (prio : BitVec 4) (wid : DWord) : List Byte :=
  let w0 : DWord := (0 : BitVec 8) ++ prio ++ stReady ++ entry
  let w7 : DWord := (0 : BitVec 8) ++ (1 : BitVec 1) ++ (0 : BitVec 7) ++ (0 : BitVec 48)
  bytesLE 8 w0.toNat ++ bytesLE 8 wid.toNat ++ bytesLE 8 frame.toNat ++ List.replicate 32 0 ++ bytesLE 8 w7.toNat ++ List.replicate 512 0

/-- What admission knows of a launch. -/
structure Demand where
  part : PartId
  launch : Addr
  entry : Addr
  widths : List Nat
  prio : BitVec 4
  teams : Nat
  cores : Nat
  cistern : Nat
  area : Addr

def State.demand (s : State) (p : PartId) (l : Addr) : Demand :=
  let w (i : Nat) : DWord := s.recWord p l i
  ⟨p, l, (w 0).extractLsb' 0 48, launchWidths (w 2), (w 2).extractLsb' 36 4, ((w 3).extractLsb' 0 32).toNat,
    ((w 3).extractLsb' 32 8).toNat, ((w 4).extractLsb' 0 24).toNat, (w 5).extractLsb' 0 48⟩

/-- R39: the work IDs must hold the launch's teams and cores. -/
def Demand.widthOk (x : Demand) : Bool :=
  x.widths.sum ≤ 64 && x.teams ≤ 2 ^ nth x.widths 5 0 && x.cores ≤ 2 ^ nth x.widths 4 0

def Demand.positions (x : Demand) : Nat := x.teams * x.cores
/-- The completion-tree records of a launch. -/
def Demand.records (x : Demand) : Nat := 1 + (x.positions + 7) / 8

/-- The work ID of the initial task of team `t`, core `k`. -/
def Demand.workId (x : Demand) (t k : Nat) : DWord :=
  let lo4 := (x.widths.take 4).sum
  BitVec.ofNat 64 (t * 2 ^ (lo4 + nth x.widths 4 0) + k * 2 ^ lo4)

def Demand.record (x : Demand) (i : Nat) : Addr := BitVec.ofNat 48 (x.area.toNat + 576 * i)

/-- Write every initial record and frame (R245, R250). -/
def State.placeTasks (s : State) (x : Demand) : List Nat → Except (Nat × Nat × Nat) State
  | [] => .ok s
  | i :: is =>
    let r := x.record i
    match s.placeBytes x.part r.toNat 9 (initialBytes x.entry (r + 64) x.prio (x.workId (i / x.cores) (i % x.cores))) with
    | .error (va, why) => .error (i / x.cores, va, why)
    | .ok s => s.placeTasks x is

/-- Write the completion-tree records (R256, R257): the header, then eight counters a record, 1 for each position. -/
def State.placeTree (s : State) (x : Demand) : List (Nat × Nat) → Except (Nat × Nat × Nat) State
  | [] => .ok s
  | (n, i) :: rest =>
    let bytes := if n = 0 then bytesLE 8 x.teams ++ List.replicate 32 0 ++ bytesLE 8 x.launch.toNat ++ List.replicate 16 0
      else (List.range 8).flatMap fun j => bytesLE 8 (if 8 * (n - 1) + j < x.positions then 1 else 0)
    let va := s.treeRecord x.part i
    match s.placeBytes x.part va 1 bytes with
    | .error _ => .error (0, va, 4)
    | .ok s => match s.recordPa x.part va with
      | some pa => (s.setTag (blockOf pa) true).placeTree x rest
      | none => .error (0, va, 4)

/-- The team `t` of an admitted launch, unbound. -/
def Demand.team (x : Demand) (age t : Nat) (inPeriod : Bool) : Team where
  part := x.part
  launch := x.launch
  index := BitVec.ofNat 32 t
  prio := x.prio
  age := age
  size := x.cores
  bound := []
  everBound := false
  running := false
  halted := false
  inPeriod := inPeriod
  joined := inPeriod
  hadQuantum := false
  ready := (List.range x.cores).map fun k => x.record (t * x.cores + k)
  tasks := (List.range x.cores).map fun k => ⟨x.record (t * x.cores + k), k, 0, 0, 0, [], false, [], false⟩
  dies := []
  saved := []

/-- A launch leaves its queue with a refusal: its status, and 1 in its completion counter (R250). -/
def State.refuseLaunch (s : State) (x : Demand) (st : Nat) : State :=
  (s.setLaunchStatus x.part x.launch st).countLaunch x.part x.launch

/-- How many teams of a new launch join the period under way (R252): those that it still takes in when the launch's priority
exceeds that of a running team. -/
def State.joins (s : State) (x : Demand) : Nat :=
  let ts := s.teamsOf x.part
  if !ts.any (fun t => t.inPeriod && !t.hadQuantum) then 0
  else if ts.any fun t => t.running && t.prio.ult x.prio then (s.part x.part).begun - (s.part x.part).joined
  else 0

/-- Every team of an admitted launch joins the rotation. -/
def State.addTeams (s : State) (x : Demand) (a : Admitted) : State :=
  let age := (s.teams.map (·.age)).foldl max 0 + 1
  let n := s.joins x
  let s := { s with
    launches := s.launches ++ [a]
    teams := s.teams ++ (List.range x.teams).map fun t => x.team age t (decide (t < n)) }
  s.modPart x.part fun y => { y with joined := y.joined + min n x.teams }

/-- LAUNCH_ADMISSION: the placer admits, refuses or leaves waiting the head launch of a partition. One whose record holds poison is refused
with RESOURCE, and the poison reported (log 65). One that is refused for a write that failed leaves no earlier write of the placer's behind:
DESIGN CHOICE, log 103, for R250 has the placer return what it took and says nothing of those bytes. -/
def execLaunchAdmission (p : PartId) (prefer : List CoreId) (s : State) : Out :=
  match s.headLaunch p with
  | none => .next s
  | some (q, l) =>
    let x := s.demand p l
    let y := s.part p
    let popped := s.modPart p fun y => { y with queues := y.queues.modify q (·.drop 1) }
    let size := (y.ctsize.extractLsb' 0 32).toNat
    if s.poisonedIn p l.toNat 64 then .next ((popped.reportIn p l.toNat 64).refuseLaunch x 5)
    else if !x.widthOk then .next (popped.refuseLaunch x 4)
    else if (s.coresOf p).length < x.cores || 12582912 < x.cistern || y.ctbase.extractLsb' 12 36 == 0 || size < x.records then
      .next (popped.refuseLaunch x 5)
    else
      let limit := min (max (y.pctl.extractLsb' 0 9).toNat 1) 256
      let free := takeFree y.ctUsed size (x.records + y.ctUsed.length) x.records 0
      if limit ≤ (s.launches.filter fun a => a.part == p).length || free.length < x.records then .next s
      else
        -- the placer returns what it took, and telemetry counts the event
        let refused (e : Nat × Nat × Nat) : State :=
          (popped.telemetry 0 none 10 [BitVec.ofNat 64 e.1, zext l, BitVec.ofNat 64 e.2.1, BitVec.ofNat 64 e.2.2]).refuseLaunch x 5
        match popped.placeTree x ((List.range x.records).zip free) with
        | .error e => .next (refused e)
        | .ok s1 =>
          match s1.placeTasks x (List.range x.positions) with
          | .error e => .next (refused e)
          | .ok s2 =>
            let a : Admitted := ⟨p, l, nth free 0 0, free.drop 1, x.teams, x.cores⟩
            let s3 := (s2.modPart p fun y => { y with ctUsed := y.ctUsed ++ free }).setLaunchStatus p l 2
            let s4 := (s3.addTeams x a).turnPeriod p
            let s5 := s4.startTeams p prefer s4.teams.length
            .next (if x.teams = 0 then s5.maybeComplete a else s5)

end Sys2Proof.Machine
end

