-- ==== Sys2Proof/Machine/Csr.lean ====
section
/-! DEFINITION. The CSRs: their numbers, access, reads and writes, and what writing one does (R31 to R33, R125 to R127, R212,
R236, R248, R253, R257, R273 to R276, R278, R283, R307, R332, R335, R356, R363, R390, R400, R416, R425). -/

namespace Sys2Proof.Machine

/-! ### Names and numbers -/

/-- The CSRs of the device. -/
inductive Csr where
  | cycle | kcycle | freeze | epoch | wid | widths | recAddr | core | kstat | kstat2 | cerr
  | uvec | uepc | ucause | ustat | uctl | kb (n : BitVec 2) | discidx | disc | sm (n : BitVec 8)
  | quantum | ptroot | rtbase | pool | snap | tlbinv | refctl | pctl | pid | ctbase | ctsize
  | tvec | tepc | tcause | tval | tval2 | tscratch | tstat | trec | resume | swapbase | swapslots | ksnap
  | telbase | telhead | scrub | devid | fabtab | cgroup | xstage | xlimit | xtimeout | pcap
  | hwin (n : BitVec 4) | pmap (n : BitVec 5)
  deriving DecidableEq, Repr

/-- The CSRs that have a number of their own. -/
def csrTable : List (BitVec 12 × Csr) :=
  [(0x000, .cycle), (0x001, .kcycle), (0x002, .freeze), (0x003, .epoch), (0x010, .wid), (0x011, .widths), (0x012, .recAddr),
   (0x013, .core), (0x020, .kstat), (0x021, .kstat2), (0x022, .cerr), (0x030, .uvec), (0x031, .uepc), (0x032, .ucause),
   (0x033, .ustat), (0x034, .uctl), (0x050, .discidx), (0x051, .disc)] ++
  [(0x800, .quantum), (0x801, .ptroot), (0x802, .rtbase), (0x803, .pool), (0x804, .snap), (0x805, .tlbinv), (0x806, .refctl),
   (0x807, .pctl), (0x808, .pid), (0x809, .ctbase), (0x80A, .ctsize), (0x810, .tvec), (0x811, .tepc), (0x812, .tcause),
   (0x813, .tval), (0x814, .tval2), (0x815, .tscratch), (0x816, .tstat), (0x817, .trec), (0x818, .resume)] ++
  [(0x819, .swapbase), (0x81A, .swapslots), (0x81B, .ksnap), (0x820, .telbase), (0x821, .telhead), (0x822, .scrub),
   (0x830, .devid), (0x831, .fabtab), (0x832, .cgroup), (0x833, .xstage), (0x834, .xlimit), (0x835, .xtimeout), (0x836, .pcap)]

/-- The CSR behind a number; the four runs first. 0x100 names no CSR (R307). -/
def csrOf (n : BitVec 12) : Option Csr :=
  if n.extractLsb' 2 10 == 0x010 then some (.kb (n.extractLsb' 0 2))
  else if n.extractLsb' 8 4 == 1 then (if n.extractLsb' 0 8 == 0 then none else some (.sm (n.extractLsb' 0 8)))
  else if n.extractLsb' 4 8 == 0x84 then some (.hwin (n.extractLsb' 0 4))
  else if n.extractLsb' 5 7 == 0x43 then some (.pmap (n.extractLsb' 0 5))
  else (csrTable.find? fun x => x.1 == n).map (·.2)

/-- Whether a number belongs to system software (R127). -/
def csrSystem (n : BitVec 12) : Bool := n.getLsbD 11

/-- Whether a form that writes is refused: Access RO (R127). The partition maps are RO outside partition 0 (R248). -/
def State.csrReadOnly (s : State) (c : CoreId) : Csr → Bool
  | .cycle => true
  | .kcycle => true
  | .freeze => true
  | .epoch => true
  | .wid => true
  | .widths => true
  | .recAddr => true
  | .core => true
  | .kstat2 => true
  | .ucause => true
  | .ustat => true
  | .disc => true
  | .sm _ => true
  | .pid => true
  | .tcause => true
  | .tval => true
  | .tval2 => true
  | .trec => true
  | .telhead => true
  | .pmap _ => s.partOf c != some 0
  | _ => false

/-! ### Reading -/

/-- csr.uctl. -/
def CoreSt.uctl (k : CoreSt) : DWord := zext (BitVec.ofBool k.ovf ++ BitVec.ofBool k.inHandler ++ BitVec.ofBool k.uie)
/-- csr.tstat. -/
def CoreSt.tstat (k : CoreSt) : DWord :=
  zext (BitVec.ofBool k.idle ++ BitVec.ofBool k.skip ++ BitVec.ofBool (!k.pending.isEmpty) ++ BitVec.ofBool k.sys)
/-- csr.pid. -/
def State.pid (s : State) (c : CoreId) : DWord :=
  match s.partOf c with
  | some p => zext ((1 : BitVec 1) ++ p)
  | none => 0
/-- csr.disc: the pair that csr.discidx names (R425). -/
def discPair (n : Nat) : DWord :=
  match Config.discovery[n]? with
  | some (k, v) => k ++ v
  | none => 0

/-- A CSR as core `c` reads it. A partition's register reads as 0 on a core of no partition. -/
def State.readCsr (s : State) (c : CoreId) (r : Csr) : DWord :=
  let k := s.core c
  let d := s.dies.read (dieOf c)
  let part (f : PartSt → DWord) : DWord := match s.partOf c with
    | some p => f (s.part p)
    | none => 0
  match r with
  | .cycle => BitVec.ofNat 64 s.cycle
  | .kcycle => BitVec.ofNat 64 k.kcycle
  | .freeze => BitVec.ofNat 64 k.freeze
  | .epoch => zext (Config.epoch s.resets (dieOf c))
  | .wid => k.wid
  | .widths => k.widths
  | .recAddr => k.record
  | .core => zext c
  | .kstat => k.kstat
  | .kstat2 => k.kstat2
  | .cerr => k.cerr
  | .uvec => k.uvec
  | .uepc => k.uepc
  | .ucause => k.ucause
  | .ustat => k.ustat
  | .uctl => k.uctl
  | .kb n => k.kb.read n
  | .discidx => zext k.discidx
  | .disc => discPair k.discidx.toNat
  | .sm n => zext (k.sem.read n)
  | .quantum => part (·.quantum)
  | .ptroot => part (·.ptroot)
  | .rtbase => part (·.rtbase)
  | .pool => part (·.pool)
  | .snap => part (·.snapStatus)
  | .tlbinv => 0
  | .refctl => d.refctl
  | .pctl => part (·.pctl)
  | .pid => s.pid c
  | .ctbase => part (·.ctbase)
  | .ctsize => part (·.ctsize)
  | .tvec => k.tvec
  | .tepc => k.tepc
  | .tcause => k.tcause
  | .tval => k.tval
  | .tval2 => k.tval2
  | .tscratch => k.tscratch
  | .tstat => k.tstat
  | .trec => k.trec
  | .resume => 0
  | .swapbase => part (·.swapbase)
  | .swapslots => part (·.swapslots)
  | .ksnap => k.ksnap
  | .telbase => d.telbase
  | .telhead => d.telhead
  | .scrub => d.scrub
  | .devid => s.host.devid
  | .fabtab => s.host.fabtab
  | .cgroup => part (·.cgroup)
  | .xstage => part (·.xstage)
  | .xlimit => part (·.xlimit)
  | .xtimeout => part (·.xtimeout)
  | .pcap => d.pcap
  | .hwin n => s.host.hwin.read n
  | .pmap n => s.pmaps.read n

/-! ### Writes with an effect of their own -/

/-- csr.kstat: W1C bits 39:33 and 16 (R33, R126). -/
def State.clearKstat (s : State) (c : CoreId) (v : DWord) : State :=
  s.modCore c fun k => { k with kstat := k.kstat &&& ~~~(v &&& 0x000000FE00010000) }
/-- csr.cerr: every bit W1C (R332). -/
def State.clearCerr (s : State) (c : CoreId) (v : DWord) : State := s.modCore c fun k => { k with cerr := k.cerr &&& ~~~v }
/-- csr.uctl: bit 0 is UIE, bit 2 clears OVF (R335); `raw` is the operand. -/
def State.writeUctl (s : State) (c : CoreId) (raw v : DWord) : State :=
  s.modCore c fun k => { k with uie := v.getLsbD 0, ovf := k.ovf && !raw.getLsbD 2 }
/-- csr.kbN: count and rounds are cleared (R236). -/
def State.writeKb (s : State) (c : CoreId) (n : BitVec 2) (v : DWord) : State :=
  s.modCore c fun k => { k with kb := k.kb.write n (zext (v.extractLsb' 0 32)) }

/-- Whether new partition maps place no core in two partitions and take no bound core from its own (R248). -/
def State.pmapsOk (s : State) (pmaps : Bank 5 DWord) : Bool :=
  allCores.all fun c =>
    decide ((allParts.filter fun p => mapHas pmaps p c).length ≤ 1) && (match (s.core c).bound with
      | some b => mapHas pmaps b.part c
      | none => true)
def State.writePmap (s : State) (n : BitVec 5) (v : DWord) : Option State :=
  let maps := s.pmaps.write n v
  if s.pmapsOk maps then some { s with pmaps := maps } else none

/-- csr.tlbinv: every entry of the partition, or those of one page (R273). -/
def State.writeTlbinv (s : State) (c : CoreId) (v : DWord) : State :=
  match s.partOf c with
  | none => s
  | some p =>
    if v.getLsbD 0 then s.dropTlb p 0 Config.addrSpace else s.dropTlb p (4096 * (v.extractLsb' 12 36).toNat) 4096

/-- Mark a range entry snapped, and every present overlay entry shared (R274); a poisoned entry stays as it is, for nothing translates by it
(log 65). -/
def State.snapRange (s : State) (p : PartId) (g : Byte) (i : Nat) : State :=
  let e := s.rangeEntry p i
  let a := (s.part p).rangeTable + 32 * i
  let w0 := (e.w0 &&& ~~~(0x00FF000000000000 : DWord)) ||| (zext g <<< 48) ||| (1 <<< 59)
  if s.poisoned a 32 then s else
  let s := s.writeOwn a (bytesLE 8 w0.toNat)
  if e.ok && e.overlay % 8 = 0 then
    (List.range ((e.limit - e.base) / 65536)).foldl (fun s j =>
      let o := e.overlay + 8 * j
      let x := s.read64 o
      if x.getLsbD 0 && !x.getLsbD 1 && !s.poisoned o 8 then s.writeOwn o (bytesLE 8 (x ||| 2).toNat) else s) s
  else s

/-- Mark the leaf that a page-list entry names snapped; none when it names no valid leaf. A poisoned leaf maps nothing (log 65). -/
def State.snapPage (s : State) (p : PartId) (g : Byte) (va : DWord) : Option State :=
  if va.extractLsb' 48 16 != 0 then none
  else
    match s.walk va.toNat 4 1 (4096 * ((s.part p).ptroot.extractLsb' 12 36).toNat) with
    | some m => match m.kind with
      | .page _ entry w _ =>
        if m.base = va.toNat then
          some (s.writeOwn entry (bytesLE 8 ((w &&& ~~~(0xFF00000000000000 : DWord)) ||| (zext g <<< 56) ||| 0x80).toNat))
        else none
      | .range _ => none
    | none => none

/-- The page list from entry `i` on: the device and the status. A poisoned entry names no leaf (log 65). -/
def State.snapPages (s : State) (p : PartId) (g : Byte) (list : Nat) : Nat → Nat → State × Nat
  | 0, _ => (s, 0)
  | n + 1, i =>
    match if s.poisoned (list + 8 * i) 8 then none else s.snapPage p g (s.read64 (list + 8 * i)) with
    | some s => s.snapPages p g list n (i + 1)
    | none => (s, 2 + i)

/-- SNAP (R274): the descriptor's physical address is `v`; one that is no multiple of 64, or is poisoned, breaks the layout (log 92, log 65). -/
def State.snap (s : State) (c : CoreId) (v : DWord) : State :=
  match s.partOf c with
  | none => s
  | some p =>
    let a := v.toNat
    let w (i : Nat) : DWord := s.read64 (a + 8 * i)
    let done (s : State) (st : Nat) : State := s.modPart p fun x => { x with snapStatus := BitVec.ofNat 64 st }
    let bad := a % 64 ≠ 0 || !inDevice a 64 || s.poisoned a 64 || (w 0).extractLsb' 8 56 != 0 || (w 2).extractLsb' 48 16 != 0 ||
      (w 2).extractLsb' 0 3 != 0 || (w 3).extractLsb' 32 32 != 0 || w 4 != 0 || w 5 != 0 || w 6 != 0 || w 7 != 0
    if bad then done s 1
    else
      let g := (w 0).extractLsb' 0 8
      let s := if (s.part p).rangeTable = 0 then s
        else (List.range 64).foldl (fun s i => if (w 1).getLsbD i then s.snapRange p g i else s) s
      let (s, st) := s.snapPages p g ((w 2).extractLsb' 0 48).toNat ((w 3).extractLsb' 0 32).toNat 0
      done (s.dropTlb p 0 Config.addrSpace) st

/-- The device's own writes that are held on POOL, tried again in order; those behind one that still finds no frame stay held (R276). -/
def State.retryHeld (s : State) (p : PartId) (hs : List HeldWrite) : State :=
  hs.foldl (fun s h => match h with
    | .bytes va bs live => s.writeAs live p va bs
    | .count va l => s.addCount p va l) s

/-- csr.pool: the frame pool; what is held on POOL goes on: the device's own writes, commands, merges (R276). -/
def State.writePool (s : State) (c : CoreId) (v : DWord) : State :=
  match s.partOf c with
  | none => s
  | some p =>
    let s := s.modPart p fun x => { x with pool := v &&& 0x0000FFFFFFFFFFC0 }
    let go (x : Cmd) : Cmd := match x.phase with
      | .stopped sub _ => if sub == cPool then x.moveOn else x
      | _ => x
    let held := (s.part p).held
    let s := (s.modPart p fun x => { x with held := [] }).retryHeld p held
    ((s.coresOf p).foldl (fun s d => s.modCore d fun k => { k with table := k.table.map go }) s).retryMerges p

/-- csr.cgroup: the group table; every group's sequences start again (R400, R405), and the collectives and finished
transactions that stood under them are forgotten: DEDUCED, log 92. -/
def State.writeCgroup (s : State) (c : CoreId) (v : DWord) : State :=
  match s.partOf c with
  | none => s
  | some p =>
    let s := s.modPart p fun x => { x with cgroup := v &&& 0x0000FFFFFFFFFC00 }
    let s := s.modPart p fun x => { x with txns := x.txns.filter fun t => !t.finished }
    let s := { s with colls := s.colls.filter fun x => x.part != p }
    (s.coresOf p).foldl (fun s d => s.modCore d fun k => { k with groupSeq := Bank.fill 0, txnSeq := Bank.fill 0 }) s

/-- csr.refctl: k, and in test mode the seeds of the Wellheads (R283). -/
def State.writeRefctl (s : State) (c : CoreId) (v : DWord) : State :=
  s.modDie (dieOf c) fun d =>
    let seed : Word := v.extractLsb' 32 32
    let x (w : BitVec 7) : Word :=
      let y := seed ^^^ ((w.setWidth 32 + 1) * 0x9E3779B9)
      if y == 0 then 1 else y
    { d with refctl := v &&& 0xFFFFFFFF0000010F, refX := if v.getLsbD 8 then Bank.ofFn x else d.refX }

/-! ### csr.resume (R363) -/

def State.inPart (s : State) (c d : CoreId) : Bool :=
  match s.partOf c with
  | some p => mapHas s.pmaps p d
  | none => false

/-- Kind 1: a stopped command goes on from its faulting element. -/
def State.resumeCommand (s : State) (c : CoreId) (v : DWord) : State :=
  let d : CoreId := v.extractLsb' 0 7
  let go (x : Cmd) : Cmd := match x.phase with
    | .stopped _ _ => x.moveOn
    | _ => x
  if s.inPart c d then s.modCmd d (v.extractLsb' 8 6) go else s
/-- Kind 2: a merge-faulted merge goes on. -/
def State.resumeMergeOf (s : State) (c : CoreId) (v : DWord) : State :=
  match s.partOf c with
  | some p => s.resumeChild p (v.extractLsb' 0 48)
  | none => s
/-- A stopped engine goes on; the first bundle of each of its kernels is spared from a breakpoint match (R364, R377). -/
def Engine.goOn (e : Engine) : Engine :=
  let spare (r : KernelRun) : KernelRun := { r with skipMatch := true }
  if e.stopped.isNone then e
  else { e with stopped := none, primary := e.primary.map spare, secondary := e.secondary.map spare }
/-- Kind 3: a stopped kernel engine resumes (R364). An engine halted for a swap is no such party. -/
def State.resumeEngine (s : State) (c : CoreId) (v : DWord) : State :=
  let d : CoreId := v.extractLsb' 0 7
  if s.inPart c d && !(s.core d).swapHalted then s.modCore d fun k => { k with eng := k.eng.goOn } else s
/-- Kind 4. -/
def State.resumeSave (s : State) (c : CoreId) (v : DWord) : State :=
  let d : CoreId := v.extractLsb' 0 7
  if s.inPart c d then s.retrySave d else s
/-- Kind 5. -/
def State.resumeTeam (s : State) (c : CoreId) (v : DWord) : State :=
  let d : CoreId := v.extractLsb' 0 7
  if s.inPart c d then s.releaseTeam d else s

def State.writeResume (s : State) (c : CoreId) (v : DWord) : State :=
  match v.extractLsb' 60 4 with
  | 1#4 => s.resumeCommand c v
  | 2#4 => s.resumeMergeOf c v
  | 3#4 => s.resumeEngine c v
  | 4#4 => s.resumeSave c v
  | 5#4 => s.resumeTeam c v
  | _ => s

/-! ### Plain registers -/

/-- A write to a register that has no behaviour of its own; bits that the register does not have are written as zero. -/
def State.writeReg (s : State) (c : CoreId) (r : Csr) (v : DWord) : State :=
  let core (f : CoreSt → CoreSt) : State := s.modCore c f
  let part (f : PartSt → PartSt) : State := match s.partOf c with
    | some p => s.modPart p f
    | none => s
  let die (f : DieSt → DieSt) : State := s.modDie (dieOf c) f
  match r with
  | .uvec => core fun k => { k with uvec := v &&& uvecFields }
  | .uepc => core fun k => { k with uepc := v }
  | .discidx => core fun k => { k with discidx := v.extractLsb' 0 8 }
  | .tvec => core fun k => { k with tvec := v &&& 0x0000FFFFFFFFFFFC }
  | .tepc => core fun k => { k with tepc := v }
  | .tscratch => core fun k => { k with tscratch := v }
  | .tstat => core fun k => { k with skip := v.getLsbD 2 }
  | .ksnap => core fun k => { k with ksnap := v &&& 0x0000FFFFFFFFF000 }
  | .ptroot => part fun x => { x with ptroot := v &&& 0x0000FFFFFFFFF000 }
  | .rtbase => part fun x => { x with rtbase := v &&& 0x0000FFFFFFFFF800 }
  | .quantum => part fun x => { x with quantum := v &&& 0xFFFFFFFF }
  | .pctl => part fun x => { x with pctl := v &&& 0x1FF }
  | .ctbase => part fun x => { x with ctbase := v &&& 0x0000FFFFFFFFF000 }
  | .ctsize => part fun x => { x with ctsize := v &&& 0xFFFFFFFF }
  | .swapbase => part fun x => { x with swapbase := v &&& 0x0000FFFFFF000000 }
  | .swapslots => part fun x => { x with swapslots := v &&& 0xFFFF }
  | .xstage => part fun x => { x with xstage := v &&& 0x0000FFFFFFFFF000 }
  | .xlimit => part fun x => { x with xlimit := v &&& 0xFFFFFF }
  | .xtimeout => part fun x => { x with xtimeout := v &&& 0xFFFFFFFF }
  | .telbase => die fun d => { d with telbase := v &&& 0x0000FFFFFFFFFFDF }
  | .scrub => die fun d => { d with scrub := v &&& 0xFFFFFFFF }
  | .pcap => die fun d => { d with pcap := v &&& 0xFFFF }
  | .devid => { s with host := { s.host with devid := v &&& 0xFFFF } }
  | .fabtab => { s with host := { s.host with fabtab := v &&& 0x0000FFFFFFE00000 } }
  | .hwin n => { s with host := { s.host with hwin := s.host.hwin.write n (v &&& 0xFF00FFFFFFFF0000) } }
  | _ => s

/-- Write a CSR: `raw` is the operand, which W1C bits take, `v` the new value; none is a refused partition map. -/
def State.writeCsr (s : State) (c : CoreId) (r : Csr) (raw v : DWord) : Option State :=
  match r with
  | .kstat => some (s.clearKstat c raw)
  | .cerr => some (s.clearCerr c raw)
  | .uctl => some (s.writeUctl c raw v)
  | .kb n => some (s.writeKb c n v)
  | .pmap n => s.writePmap n v
  | .tlbinv => some (s.writeTlbinv c v)
  | .snap => some (s.snap c v)
  | .pool => some (s.writePool c v)
  | .cgroup => some (s.writeCgroup c v)
  | .refctl => some (s.writeRefctl c v)
  | .resume => some (s.writeResume c v)
  | r => some (s.writeReg c r v)

/-! ### The instructions (R125) -/

/-- The CSR that an instruction of the active core may access; none is ILLEGAL (R127). -/
def State.csrAccess (s : State) (n : BitVec 12) (writes : Bool) : Option Csr :=
  match csrOf n with
  | none => none
  | some r => if (csrSystem n && !s.cur.sys) || (writes && s.csrReadOnly s.active r) then none else some r

/-- CSRW, CSRS and CSRC: `f` makes the new value of the old one and the operand. -/
def State.csrModify (s : State) (i : Instr) (f : DWord → DWord → DWord) (d a : BitVec 5) (n : BitVec 12) : State :=
  match s.csrAccess n true with
  | none => s.illegal i
  | some r =>
    let old := s.readCsr s.active r
    match s.writeCsr s.active r (s.g a) (f old (s.g a)) with
    | none => s.illegal i
    | some s' => s'.result d old

def execCsrr (d : BitVec 5) (csr : BitVec 12) (s : State) : Out :=
  match s.csrAccess csr false with
  | none => .next (s.illegal (.csrr d csr))
  | some r => .next (s.result d (s.readCsr s.active r))
def execCsrw (d a : BitVec 5) (csr : BitVec 12) (s : State) : Out := .next (s.csrModify (.csrw d a csr) (fun _ x => x) d a csr)
def execCsrs (d a : BitVec 5) (csr : BitVec 12) (s : State) : Out := .next (s.csrModify (.csrs d a csr) (fun o x => o ||| x) d a csr)
def execCsrc (d a : BitVec 5) (csr : BitVec 12) (s : State) : Out := .next (s.csrModify (.csrc d a csr) (fun o x => o &&& ~~~x) d a csr)

/-! ### The same effects as rows of the table -/

def execKstatFlagClear (c : CoreId) (v : DWord) (s : State) : Out := .next (s.clearKstat c v)
def execCerrClear (c : CoreId) (v : DWord) (s : State) : Out := .next (s.clearCerr c v)
def execUctlWrite (c : CoreId) (v : DWord) (s : State) : Out := .next (s.writeUctl c v v)
def execKbWrite (c : CoreId) (n : BitVec 2) (v : DWord) (s : State) : Out := .next (s.writeKb c n v)
/-- PMAP_WRITE: a refused write writes nothing; the instruction that makes it takes ILLEGAL. -/
def execPmapWrite (c : CoreId) (n : BitVec 5) (v : DWord) (s : State) : Out :=
  .next (if s.partOf c == some 0 then (s.writePmap n v).getD s else s)
def execTlbInvalidate (c : CoreId) (v : DWord) (s : State) : Out := .next (s.writeTlbinv c v)
def execSnapStart (c : CoreId) (v : DWord) (s : State) : Out := .next (s.snap c v)
def execPoolWrite (c : CoreId) (v : DWord) (s : State) : Out := .next (s.writePool c v)
def execCgroupWrite (c : CoreId) (v : DWord) (s : State) : Out := .next (s.writeCgroup c v)
def execRefctlWrite (c : CoreId) (v : DWord) (s : State) : Out := .next (s.writeRefctl c v)
def execResumeEngineCommand (c : CoreId) (v : DWord) (s : State) : Out := .next (s.resumeCommand c v)
def execResumeMerge (c : CoreId) (v : DWord) (s : State) : Out := .next (s.resumeMergeOf c v)
def execResumeKernelEngine (c : CoreId) (v : DWord) (s : State) : Out := .next (s.resumeEngine c v)
def execRetryTeamSave (c : CoreId) (v : DWord) (s : State) : Out := .next (s.resumeSave c v)
def execReleaseHaltedTeam (c : CoreId) (v : DWord) (s : State) : Out := .next (s.resumeTeam c v)
/-- REGISTER_WRITE. -/
def execRegisterWrite (c : CoreId) (n : BitVec 12) (v : DWord) (s : State) : Out :=
  .next (match csrOf n with
    | some r => s.writeReg c r v
    | none => s)

end Sys2Proof.Machine
end

