-- ==== Sys2Proof/Machine/Mesh.lean ====
section
/-! DEFINITION. Wellhead slots, die links and their recovery, scrubbing, telemetry, power and temperature, register errors
(R277 to R284, R385 to R390, R394 to R403, R424). -/

namespace Sys2Proof.Machine

/-! ### The Wellheads (R277, R279, R281 to R284) -/

/-- The pseudo-channel of a block of a die (R277). -/
def channelOf (block : Nat) : Nat := block % 192
/-- Physical address of a block of a die. -/
def blockAddr (d : DieId) (block : Nat) : Nat := Config.dieBytes * d.toNat + 64 * block
/-- Blocks of a die. -/
def dieBlocks : Nat := Config.dieBytes / 64

/-- The block as one number. -/
def State.blockData (s : State) (pa : Nat) : BitVec 512 := BitVec.ofNat 512 (s.readPhys pa 64)
def blockBytes (x : BitVec 512) : List Byte := bytesLE 64 x.toNat

/-- k of csr.refctl, as it acts (R283). -/
def refreshK (refctl : DWord) : Nat := min (max (refctl.extractLsb' 0 4).toNat 6) 14

/-- The next value of a test-mode generator. -/
def refreshStep (x : Word) : Word :=
  let x := x ^^^ (x <<< 13)
  let x := x ^^^ (x >>> 17)
  x ^^^ (x <<< 5)

/-- An activate at a Wellhead: whether it owes a neighbour refresh, `fresh` being the entropy source's bits; with 16 owed the
oldest is issued (R283). -/
def DieSt.activate (d : DieSt) (w : BitVec 7) (fresh : Word) : DieSt :=
  let test := d.refctl.getLsbD 8
  let x := if test then refreshStep (d.refX.read w) else fresh
  let d := if test then { d with refX := d.refX.write w x } else d
  if x.toNat % 2 ^ refreshK d.refctl = 0 then
    let mine := d.owed.filter fun v => v == w
    { d with owed := (if 16 ≤ mine.length then d.owed.erase w else d.owed) ++ [w] }
  else d

/-- An uncorrectable block is poisoned. Where it is part of saved contexts, those are found in error, and their teams poisoned (R375). -/
def State.poisonBlock (s : State) (b : Nat) : State :=
  let s' := s.setPoison b true
  let found := s.teams.filter fun t => t.saved.all (s.contextSound t.part) && !t.saved.all (s'.contextSound t.part)
  found.foldl (fun s t => s.poisonTeam t) s'

/-- What the ECC of a block of HBM finds as the Wellhead reads it: a correction is counted, a block that fails is poisoned
(R384, R390). -/
def State.blockEcc (s : State) (d : DieId) (pa : Nat) : ScrubFinding → State
  | .clean => s
  | .corrected symbol => s.telemetry d none 4 [1, BitVec.ofNat 64 pa, symbol]
  | .uncorrectable => (s.telemetry d none 5 [1, BitVec.ofNat 64 pa, 1]).poisonBlock (blockOf pa)
  | .transit => s

/-- A block of HBM whose data came with a transit CRC that does not hold is written poisoned (R384, R390). -/
def State.failTransit (s : State) (d : DieId) (pa : Nat) : State :=
  (s.telemetry d none 5 [1, BitVec.ofNat 64 pa, 2]).poisonBlock (blockOf pa)

/-- What a Wellhead finds at an access of the die's own: what the ECC does of a block that it reads, what the transit CRC does of one that it
has written (R384). -/
def State.ownCheck (s : State) (d : DieId) (pa : Nat) (found : ScrubFinding) : State :=
  if found == .transit then s.failTransit d pa else s.blockEcc d pa found

/-- The read data of a block: one that is poisoned goes on poisoned, as a transit CRC that does not hold (R384; log 61). -/
def State.dataFlit (s : State) (d : DieId) (f : Flit) (pa : Nat) : Flit :=
  let y := newFlit 2 d f.src f.seq f.cls f.rtag (s.blockData pa)
  if s.poisoned pa 64 then { y with transit := ~~~y.transit } else y

/-- A write at its home: a live tagged block stays, and a block whose transit CRC fails is written poisoned (R235, R384). -/
def State.writeHome (s : State) (d : DieId) (f : Flit) (pa : Nat) : State :=
  if s.tagged pa then s
  else
    let s := s.writePhys pa (blockBytes f.payload)
    if spoiltFlit f then s.failTransit d pa else s

/-- A slot that no waiting request takes: an access of the die's own cores activates a row in it, or in maintenance time the oldest
owed refresh of the Wellhead runs; which, nothing fixes (R283; log 62). -/
def DieSt.spareSlot (x : DieSt) (w : BitVec 7) (free : DWord) : DieSt :=
  if free.getLsbD 63 then { x with owed := x.owed.erase w } else if free.getLsbD 62 then x.activate w (free.extractLsb' 0 32) else x

/-- The oldest remote atomic between two dies, out of the mesh. -/
def State.popMesh (s : State) (a b : DieId) : Option (RemoteAtomic × State) :=
  let mine (m : RemoteAtomic) : Bool := dieOf m.src == a && dieOf m.target == b
  (s.meshMsgs.find? mine).map fun m => (m, { s with meshMsgs := removeFirst mine s.meshMsgs })

/-- The home block of a write flit: R396 gives the flit no address, so it is a free value (log 23). -/
def State.freeBlock (s : State) : Nat := (Config.freeValue s.tick).toNat % dieBlocks

/-- A flit whose last path is gone: its block is delivered poisoned (R385), a read's to the die that asked for it. -/
def State.deliverPoisoned (s : State) (f : Flit) : State :=
  let s := s.telemetry f.dst none 5 [3, zext f.rtag, 3]
  if f.type == 1 then s.modDie f.src fun x => { x with ports := x.ports ++ [(f.rtag, 0, true)] }
  else if f.type == 2 then s.modDie f.dst fun x => { x with ports := x.ports ++ [(f.rtag, f.payload, true)] }
  else if f.type == 3 then s.poisonBlock (blockOf (blockAddr f.dst s.freeBlock))
  else if f.type == 4 then
    match s.popMesh f.src f.dst with
    | some (m, s) => (s.modCore m.src fun k => k.reply m (.served (Bank.fill 0) true)).releaseRemotes m.src
    | none => s
  else s

/-- WELLHEAD_SLOT_SERVICE: the first request that waits for a pseudo-channel of a die is served; a read answers with its data, poisoned
where no path is left (R279, R385, R397). Where none waits, an access of the die's own may read or write a block of the channel there
(R384; logs 62, 63). -/
def execWellheadSlotService (d : DieId) (x : SlotCheck) (s : State) : Out :=
  let ch := x.channel
  let w : BitVec 7 := BitVec.ofNat 7 (ch.toNat / 2)
  match (s.dies.read d).queue.find? fun r => channelOf r.block == ch.toNat with
  | none =>
    let s' := s.modDie d fun y => y.spareSlot w (Config.freeValue s.tick)
    .next (if x.block < dieBlocks && channelOf x.block == ch.toNat then s'.ownCheck d (blockAddr d x.block) x.found else s')
  | some r =>
    let s := s.modDie d fun x =>
      { x.activate w ((Config.freeValue s.tick).extractLsb' 0 32) with
        queue := removeFirst (fun r => channelOf r.block == ch.toNat) x.queue }
    let pa := blockAddr d r.block
    if r.write then .next (s.writeHome d r.flit pa)
    else
      let s := s.blockEcc d pa x.found
      let f := s.dataFlit d r.flit pa
      .next ((s.sendFlit? f).getD (s.deliverPoisoned f))

/-- ACTIVATION_ALERT: the owed refreshes of the Wellhead are issued, the mitigation after them; how many slots the bank skips is
not said (R284). -/
def execActivationAlert (d : DieId) (wellhead : BitVec 7) (bank : BitVec 8) (s : State) : Out :=
  let owed := ((s.dies.read d).owed.filter fun v => v == wellhead).length
  let skipped := Config.freeValue s.tick
  let s := s.modDie d fun x => { x with owed := x.owed.filter fun v => v != wellhead }
  .next (s.telemetry d none 3 [zext (bank ++ (0 : BitVec 1) ++ wellhead), BitVec.ofNat 64 owed, skipped])

/-! ### Recovery of links (R385) -/

/-- Kind and identifier of a link in telemetry (R390). -/
def linkKind : Link → Nat
  | .mesh _ _ _ => 1
  | .io _ => 2
  | .fabric _ _ => 3
  | .host => 4
def linkIdent : Link → DWord
  | .mesh a b p => zext p <<< 8 ||| zext (a ++ b)
  | .io d => zext d
  | .fabric _ n => zext n <<< 8
  | .host => 0
def linkDie : Link → DieId
  | .mesh a _ _ => a
  | .io d => d
  | .fabric _ _ => 0
  | .host => 0
/-- The location kind of a link's flits and packets in kinds 4 and 5 of telemetry (R390). -/
def linkPlace : Link → DWord
  | .mesh _ _ _ => 3
  | .io _ => 4
  | .fabric _ _ => 4
  | .host => 5

def State.replayRecord (s : State) (l : Link) (n : Nat) (gone : Bool) : State :=
  s.telemetry (linkDie l) none 6 [BitVec.ofNat 64 (linkKind l), linkIdent l, BitVec.ofNat 64 n, zext (BitVec.ofBool gone)]
def State.linkReport (s : State) (x : LinkSt) (gone : Bool) : State :=
  (s.replayRecord x.link x.replays gone).putLink { x with replays := 0 }

/-- A failure that the host reports, or that comes with its link's end, is counted as poison (R384, R390). -/
def State.hostFailed (s : State) (pa : Nat) (reason : DWord) : State :=
  s.telemetry (linkDie .host) none 5 [if reason == 3 then 5 else 1, BitVec.ofNat 64 pa, reason]

/-- A held load of core `c` ends: its value, or a precise POISON trap (R417). -/
def State.endHold (s : State) (c : CoreId) (h : HostLoad) (bytes : List Byte) (failed : Bool) (reason : DWord) : State :=
  let s := s.modCore c fun k => { k with hostHold := none }
  if failed then
    let s := s.hostFailed h.pa reason
    { { s with active := c }.faultNow cPoison h.va with active := s.active }
  else
    s.modCore c fun k => { k.writeG h.dest (BitVec.ofNat 64 (ofBytesLE (bytes.take h.size))) with pc := k.pc + 4 }

/-- A command that waits for the host goes on with poison for every piece that the host still owes. -/
def Cmd.hostGone (x : Cmd) : Cmd :=
  match x.phase with
  | .hostWait =>
    let fail (p : Piece) : Piece := match p with
      | .host _ n => .data (List.replicate n 0) true
      | q => q
    { x with asked := x.asked.map fail }.moveOn
  | _ => x

/-- What waits for the host fails: its data is poisoned (R385, R415, R417). -/
def State.failHost (s : State) : State :=
  allCores.foldl (fun s c =>
    let asks := (s.core c).table.flatMap fun x => match x.phase with
      | .hostWait => x.asked.filterMap Piece.asks
      | _ => []
    let s := asks.foldl (fun s q => s.hostFailed q.1 3) s
    let s := s.modCore c fun k => { k with table := k.table.map Cmd.hostGone }
    match (s.core c).hostHold with
    | some h => s.endHold c h [] true 3
    | none => s) s

/-- Where a flit of a retired path cannot be sent again, its block is delivered poisoned; of one that the model does not hold, nothing says
which block that is. -/
def State.giveUp (s : State) (u : Unsent) : State :=
  match u.flit with
  | some y => s.deliverPoisoned y
  | none => s

/-- Take a link out of service. What was sent on it and its receiver has not taken goes on another path, or is delivered poisoned; its
markers then stand behind every path left; undecided transactions that it carried abort with reason 2 (R302, R385, R403, R410). -/
def State.retireLink (s : State) (l : Link) : State :=
  let x := s.linkOf l
  let s := (s.linkReport x true).modLink l fun x => { x with retired := true, buffer := [], failing := [], markers := [], answers := [] }
  let s := match l with
    | .mesh a b _ => x.unsent.foldl (fun (s : State) u => (s.sendAgain? a b u).getD (s.giveUp u)) s
    | _ => s
  let s := x.markers.foldl (fun s m => (s.livePaths m.src m.dst).foldl (fun s p => s.modLink (.mesh m.src m.dst p) fun y =>
    { y with markers := y.markers ++ [{ m with path := p, seq := y.nextSeq - 1 }] }) s) s
  let s := s.doomCarried fun t => t.links.contains l
  if l == .host then s.failHost else s

/-- A receiver asks for a flit again (R385, R396). The sender of an acknowledge, a replay request or a marker, whose sequence
is that of another flit, and the far end of a link whose flits the spec does not lay out, sends again at once, which counts as a replay
(log 23). -/
def State.askAgain (s : State) (l : Link) (seq : BitVec 24) (kind : FlitKind) : State :=
  match l, kind with
  | .mesh a b p, .data => s.answerFlit 7 { newFlit 0 a b seq 0 0 0 with path := p }
  | l, _ => s.modLink l fun x => { x with replays := x.replays + 1 }

/-- The class of a flit that has failed: that of the flit in its sender's buffer; of one that no buffer of the model holds, a free value
(log 23). -/
def State.failedClass (s : State) (x : LinkSt) (seq : BitVec 24) : BitVec 4 :=
  match x.buffer.find? fun y => y.seq == seq with
  | some y => y.cls
  | none => (Config.freeValue s.tick).extractLsb' 0 4

/-- A flit fails its CRC: it is asked for again; one that fails once more is a failed replay, and after 16 of them on one link the link
is retired (R385). The packets of the fabric are sent again by their own rule (R401). -/
def State.failFlit (s : State) (l : Link) (seq : BitVec 24) (kind : FlitKind := .data) : State :=
  let x := if kind == .data then (s.linkOf l).saw seq else s.linkOf l
  match l with
  | .fabric _ _ => s
  | _ =>
    if x.retired then s
    else if (x.failed seq kind).isSome then
      let s := s.putLink { x with fails := x.fails + 1 }
      if 16 ≤ x.fails + 1 then s.retireLink l else s.askAgain l seq kind
    else (s.putLink { x with failing := x.failing ++ [⟨seq, s.failedClass x seq, kind, s.failPlace⟩] }).askAgain l seq kind

/-- FLIT_CRC_FAILURE. -/
def execFlitCrcFailure (l : Link) (seq : BitVec 24) (s : State) : Out := .next (s.failFlit l seq)

/-- LINK_REPLAY_REPORT (R390). -/
def execLinkReplayReport (l : Link) (s : State) : Out :=
  match l with
  | .fabric peer n =>
    let x := s.path peer n
    .next (if x.replays = 0 then s else (s.replayRecord l x.replays false).setPath { x with replays := 0 })
  | l =>
    let x := s.linkOf l
    .next (if x.replays = 0 then s else s.linkReport x false)

/-! ### Flits arriving (R396) -/

/-- A flit of a type arrives: one of an unassigned type, with a reserved bit set or with a CRC that does not hold has failed; a sound
one is taken in its path's order and then does what `act` says. -/
def State.flitArrives (s : State) (type : BitVec 4) (f : Flit) (act : State → State) : State :=
  if !flitOk f then s
  else if !soundFlit f then s.failFlit (linkIn f) f.seq
  else if f.type != type then s
  else match s.takeFlit f with
    | none => s
    | some s => act s

/-- READ_REQUEST_FLIT: the request waits at the Wellhead of the block that its payload names. -/
def execReadRequestFlit (f : Flit) (s : State) : Out :=
  .next (s.flitArrives 1 f fun s =>
    let pa := (f.payload.extractLsb' 0 64).toNat
    let base := Config.dieBytes * f.dst.toNat
    if base ≤ pa && pa < base + Config.dieBytes then
      s.modDie f.dst fun x => { x with queue := x.queue ++ [⟨(pa - base) / 64, false, f⟩] }
    else s)

/-- READ_DATA_FLIT: a block arrives for the request that its tag names, poisoned where its transit CRC fails (R384). -/
def execReadDataFlit (f : Flit) (s : State) : Out :=
  .next (s.flitArrives 2 f fun s =>
    let s := if spoiltFlit f then s.telemetry f.dst none 5 [3, linkIdent (linkIn f), 2] else s
    s.modDie f.dst fun x => { x with ports := x.ports ++ [(f.rtag, f.payload, spoiltFlit f)] })

/-- WRITE_FLIT: a block arrives for its home and waits there for a slot. -/
def execWriteFlit (f : Flit) (s : State) : Out :=
  .next (s.flitArrives 3 f fun s => s.modDie f.dst fun x => { x with queue := x.queue ++ [⟨s.freeBlock, true, f⟩] })

/-- ATOMIC_MESSAGE_FLIT: the oldest remote atomic between the two dies reaches its target core (R265, R397). -/
def execAtomicMessageFlit (f : Flit) (s : State) : Out :=
  .next (s.flitArrives 4 f fun s =>
    match s.popMesh f.src f.dst with
    | none => s
    | some (m, s) => s.modCore m.target fun k => { k with remoteQ := k.remoteQ ++ [m] })

/-- FLUSH_MARKER_FLIT: the marker stands behind its path until it is gathered (R402); an unsound one has failed and is sent again. -/
def execFlushMarkerFlit (f : Flit) (s : State) : Out :=
  if flitOk f && !(s.linkOf (linkIn f)).retired then
    if !soundFlit f then .next (s.failFlit (linkIn f) f.seq .marker)
    else if f.type != 5 then .next s
    else .next (s.modLink (linkIn f) fun x => { x.mended f.seq .marker with markers := x.markers ++ [f] })
  else .next s

/-- An acknowledge or a replay request arrives: an unsound one has failed and is sent again (R385, R396); a sound one does what `act`
says. -/
def State.answerArrives (s : State) (type : BitVec 4) (f : Flit) (act : State → State) : State :=
  if !flitOk f then s
  else if !soundFlit f then s.failFlit (linkIn f) f.seq .answer
  else if f.type != type then s
  else act (s.modLink (linkIn f) fun x => { x.mended f.seq .answer with answers := x.answers.erase f })

/-- ACKNOWLEDGE_FLIT: the sender drops what the receiver has. -/
def execAcknowledgeFlit (f : Flit) (s : State) : Out :=
  .next (s.answerArrives 6 f fun s => s.modLink (linkBack f) fun x => { x with buffer := x.buffer.filter fun y => !seqLe y.seq f.seq })

/-- REPLAY_REQUEST_FLIT: the sender sends a flit of its buffer again (R385). -/
def execReplayRequestFlit (f : Flit) (s : State) : Out :=
  .next (s.answerArrives 7 f fun s =>
    match (s.linkOf (linkBack f)).buffer.find? fun y => y.seq == f.seq with
    | some y => s.modLink (linkBack f) fun x => { x with replays := x.replays + 1, answers := x.answers ++ [y] }
    | none => s)

/-- Whether every flit of a marker's path up to its sequence has been received and its writes applied (R403), and with them the writes
that a path since retired, whose markers went on to the others, had brought. -/
def State.gathered (s : State) (f : Flit) : Bool :=
  let x := s.linkOf (linkIn f)
  seqLe f.seq x.received &&
    !(s.dies.read f.dst).queue.any fun r => r.write && r.flit.src == f.src &&
      ((linkIn r.flit == linkIn f && seqLe r.flit.seq f.seq) || (s.linkOf (linkIn r.flit)).retired)

/-- FLUSH_MARKER_GATHER: the first marker at a die that can be gathered leaves its link. -/
def execFlushMarkerGather (d : DieId) (s : State) : Out :=
  match (s.links.flatMap fun x => x.markers).find? fun f => f.dst == d && s.gathered f with
  | none => .next s
  | some f => .next (s.modLink (linkIn f) fun x => { x with markers := x.markers.erase f })

/-! ### Background work of a die (R388 to R390) -/

/-- SCRUB_READ: a block of the die; a correction is written back, an uncorrectable block is poisoned. -/
def execScrubRead (d : DieId) (block : Nat) (found : ScrubFinding) (s : State) : Out :=
  if dieBlocks ≤ block then .next s
  else
    let pa := blockAddr d block
    let s := s.modDie d fun x => { x with scrubRead := x.scrubRead + 1 }
    match found with
    | .clean => .next s
    | .transit => .next s
    | .corrected symbol =>
      .next ((s.modDie d fun x => { x with scrubFixed := x.scrubFixed + 1 }).telemetry d none 4 [1, BitVec.ofNat 64 pa, symbol])
    | .uncorrectable =>
      .next (((s.modDie d fun x => { x with scrubBad := x.scrubBad + 1 }).telemetry d none 5 [1, BitVec.ofNat 64 pa, 4]).poisonBlock
        (blockOf pa))

/-- SCRUB_PERIOD_END. -/
def execScrubPeriodEnd (d : DieId) (s : State) : Out :=
  let x := s.dies.read d
  let s := s.telemetry d none 7 [BitVec.ofNat 64 x.scrubRead, BitVec.ofNat 64 x.scrubFixed, BitVec.ofNat 64 x.scrubBad,
    BitVec.ofNat 64 x.scrubPeriod]
  .next (s.modDie d fun x => { x with scrubRead := 0, scrubFixed := 0, scrubBad := 0, scrubPeriod := x.scrubPeriod + 1 })

/-- GUARDBAND_STEP: 5 mV up or down (R389). -/
def execGuardbandStep (d : DieId) (up : Bool) (pathMargin : DWord) (s : State) : Out :=
  let g := (s.dies.read d).guardband + (if up then 5 else -5)
  .next ((s.modDie d fun x => { x with guardband := g }).telemetry d none 8 [BitVec.ofInt 64 g, pathMargin])

/-- FREEZE_TELEMETRY_REPORT (R390). -/
def execFreezeTelemetryReport (c : CoreId) (s : State) : Out :=
  let f := (s.core c).eng.freezes
  if f.landing = 0 ∧ f.bank = 0 ∧ f.fairness = 0 ∧ f.power = 0 then .next s
  else
    let s := s.telemetry (dieOf c) (some c) 1 [BitVec.ofNat 64 f.landing, BitVec.ofNat 64 f.bank, BitVec.ofNat 64 f.fairness,
      BitVec.ofNat 64 f.power]
    .next (s.modCore c fun k => { k with eng := { k.eng with freezes := ⟨0, 0, 0, 0⟩ } })

/-! ### Power and temperature (R424) -/

def coresOfDie (d : DieId) : List CoreId := allCores.filter fun c => dieOf c == d

/-- One cc in which a die's cores are frozen: no kc advances, csr.freeze counts it, and a LOCK's 64 cc run on (R262). -/
def State.freezeDie (s : State) (d : DieId) : State :=
  s.eachCore fun c k => if dieOf c == d then k.frozenCc 1 fun f => { f with power := f.power + 1 } else k

/-- POWER_LIMIT_FREEZE: only with a limit in csr.pcap. -/
def execPowerLimitFreeze (d : DieId) (s : State) : Out := .next (if (s.dies.read d).pcap == 0 then s else s.freezeDie d)
/-- THERMAL_FREEZE. -/
def execThermalFreeze (d : DieId) (s : State) : Out := .next (s.freezeDie d)
/-- THERMAL_STOP: every core of the die stops, and hl.istat bit 18 is set. -/
def execThermalStop (d : DieId) (s : State) : Out :=
  .next (((coresOfDie d).foldl (fun s c => if (s.core c).halt.isSome then s else s.stopCore c 3) s).hostIrq 18)

/-! ### Register errors (R386) -/

/-- An uncorrectable error in a control core's registers or CSRs: the running task is poisoned and not run again; MCHECK. -/
def State.poisonTask (s : State) (c : CoreId) (kind : DWord) : State :=
  let k := s.core c
  let r := k.running.getD 0
  let s := match k.running, s.partOf c with
    | some r, some p => s.setTaskState p r stPoisoned
    | _, _ => s
  let s := s.telemetry (dieOf c) (some c) 5 [kind + 5, 0, 1]
  s.modCore c fun k => { k with running := none, idle := k.sys || k.idle }.pend (mkTrap cMcheck kind 0 r)

/-- An uncorrectable error in cluster `cl` of a kernel: kind 9; in the image that it owes, or that a merge kernel keeps, the cluster's
section is poisoned (R369, R386). -/
def State.regErr (s : State) (c : CoreId) (pos : KPos) (cl : ClusterId) : State :=
  match (s.core c).run pos with
  | none => s
  | some r =>
    if !r.live || !s.farSettles c then s
    else
      let s := (s.telemetry (dieOf c) (some c) 5 [6, 0, 1]).finishFar c
      let (s, bad) := if r.merge.isSome then (s.keepMerge c (s.core c) pos (some cl), false)
        else s.owedSnapshotAs c (s.core c) 4 r.launch (some cl)
      s.modCore c fun k => (k.modRun pos fun y => { y with noSnap := bad }).failRun pos (r.faultAt kRegErr 0 0)

/-- The location kind of a register error in telemetry (R390). -/
def eccKind : EccPlace → DWord
  | .controlRegister => 6
  | .csr => 7
  | .kernelStore => 8
  | .cluster _ _ => 6
  | .context _ => 6
  | .link l => linkPlace l
/-- The identifier of what an error lies in (R390): a link's, else 0. -/
def eccIdent : EccPlace → DWord
  | .link l => linkIdent l
  | _ => 0

/-- The die of what an error lies in, and the core where it lies in one (R390). -/
def eccDie (c : CoreId) : EccPlace → DieId × Option CoreId
  | .link l => (linkDie l, none)
  | .context _ => (dieOf c, none)
  | _ => (dieOf c, some c)

/-- An uncorrectable error in the `n`-th context in a die's shadow storage: the context, and so its team, is poisoned (R375). -/
def State.spoilContext (s : State) (c : CoreId) (n : Nat) : State :=
  let held := s.teams.flatMap fun t => (t.saved.filter fun x => x.place == .shadow (dieOf c)).map fun _ => t
  match held[n]? with
  | some t => (s.telemetry (dieOf c) none 5 [6, 0, 1]).poisonTeam t
  | none => s

/-- REGISTER_ECC_ERROR. A corrected error is counted (R384, R390). An error in the kernel store corrupts the bundle that the engine reads
next, which then ends its kernel with MCHECK (R382). What a link cannot correct fails its CRC, in an event of its own (R385). -/
def execRegisterEccError (c : CoreId) (x : EccError) (s : State) : Out :=
  match x.found with
  | .clean => .next s
  | .transit => .next s
  | .corrected symbol => .next (s.telemetry (eccDie c x.place).1 (eccDie c x.place).2 4 [eccKind x.place, eccIdent x.place, symbol])
  | .uncorrectable =>
    match x.place with
    | .controlRegister => .next (s.poisonTask c 1)
    | .csr => .next (s.poisonTask c 2)
    | .cluster pos cl => .next (s.regErr c pos cl)
    | .context n => .next (s.spoilContext c n)
    | .link _ => .next s
    | .kernelStore =>
      let spoil (r : KernelRun) : KernelRun := { r with image := { r.image with corrupt := insertNat r.idx r.image.corrupt } }
      let pos : KPos := if (s.core c).eng.primary.any KernelRun.live then .primary else .secondary
      .next ((s.telemetry (dieOf c) (some c) 5 [8, 0, 1]).modCore c fun k => k.modRun pos spoil)

end Sys2Proof.Machine
end

