-- ==== Sys2Proof/Machine/Sha3.lean ====
section
/-! DEFINITION. The hash functions of FIPS 202 that R420 and R421 name: SHA3-256, and SHAKE128 and SHAKE256 for the signatures. -/

namespace Sys2Proof.Machine

/-! ### Keccak-f[1600] (FIPS 202, section 3) -/

/-- The round constants. -/
def keccakConstants : List DWord :=
  [0x0000000000000001, 0x0000000000008082, 0x800000000000808A, 0x8000000080008000, 0x000000000000808B, 0x0000000080000001,
   0x8000000080008081, 0x8000000000008009, 0x000000000000008A, 0x0000000000000088, 0x0000000080008009, 0x000000008000000A] ++
  [0x000000008000808B, 0x800000000000008B, 0x8000000000008089, 0x8000000000008003, 0x8000000000008002, 0x8000000000000080,
   0x000000000000800A, 0x800000008000000A, 0x8000000080008081, 0x8000000000008080, 0x0000000080000001, 0x8000000080008008]

/-- The rotation of lane (x, y), at place x + 5y. -/
def keccakRotations : List Nat :=
  [0, 1, 62, 28, 27, 36, 44, 6, 55, 20, 3, 10, 43, 25, 39, 41, 45, 15, 21, 8, 18, 2, 61, 56, 14]

/-- One round over the 25 lanes, lane (x, y) at place x + 5y. -/
def keccakRound (a : List DWord) (rc : DWord) : List DWord :=
  let col := (List.range 5).map fun x => nth a x 0 ^^^ nth a (x + 5) 0 ^^^ nth a (x + 10) 0 ^^^ nth a (x + 15) 0 ^^^ nth a (x + 20) 0
  let theta := (List.range 25).map fun i =>
    nth a i 0 ^^^ nth col ((i + 4) % 5) 0 ^^^ (nth col ((i + 1) % 5) 0).rotateLeft 1
  let moved := (List.range 25).map fun i =>
    let src := (i % 5 + 3 * (i / 5)) % 5 + 5 * (i % 5)
    (nth theta src 0).rotateLeft (nth keccakRotations src 0)
  (List.range 25).map fun i =>
    let y := 5 * (i / 5)
    let v := nth moved i 0 ^^^ (~~~(nth moved (y + (i + 1) % 5) 0) &&& nth moved (y + (i + 2) % 5) 0)
    if i = 0 then v ^^^ rc else v

def keccak (a : List DWord) : List DWord := keccakConstants.foldl keccakRound a

/-! ### The sponge (FIPS 202, sections 4 to 6) -/

/-- A block of `rate` bytes added to the lanes. -/
def addBlock (a : List DWord) (block : List Byte) : List DWord :=
  (List.range 25).map fun i => nth a i 0 ^^^ BitVec.ofNat 64 (ofBytesLE ((block.drop (8 * i)).take 8))

/-- The message with its domain bits and padding, cut to whole blocks: `suffix` holds the domain bits and the first padding bit. -/
def spongePad (rate : Nat) (suffix : Byte) (m : List Byte) : List Byte :=
  let n := rate - m.length % rate
  m ++ (if n = 1 then [suffix ||| 0x80] else [suffix] ++ List.replicate (n - 2) 0 ++ [0x80])

/-- Absorb `n` blocks. -/
def absorb (rate : Nat) : Nat → List Byte → List DWord → List DWord
  | 0, _, a => a
  | n + 1, m, a => absorb rate n (m.drop rate) (keccak (addBlock a (m.take rate)))

/-- The lanes after a whole message. -/
def sponge (rate : Nat) (suffix : Byte) (m : List Byte) : List DWord :=
  let p := spongePad rate suffix m
  absorb rate (p.length / rate) p (List.replicate 25 0)

/-- `n` blocks of output. -/
def squeeze (rate : Nat) : Nat → List DWord → List Byte
  | 0, _ => []
  | n + 1, a => ((a.flatMap fun x => bytesLE 8 x.toNat).take rate) ++ squeeze rate n (keccak a)

/-- SHA3-256: the digest's first byte is the lowest of the number. -/
def sha3 (m : List Byte) : BitVec 256 := BitVec.ofNat 256 (ofBytesLE ((squeeze 136 1 (sponge 136 0x06 m)).take 32))

def shake128Rate : Nat := 168
def shake256Rate : Nat := 136

/-- `n` bytes of SHAKE256. -/
def shake256 (m : List Byte) (n : Nat) : List Byte :=
  (squeeze shake256Rate (n / shake256Rate + 1) (sponge shake256Rate 0x1F m)).take n

end Sys2Proof.Machine
end

