-- ==== Sys2Proof/Machine/MlDsa.lean ====
section
/-! DEFINITION. The signatures of FIPS 204 for the parameter set ML-DSA-44: Verify, which R420 names, and KeyGen and Sign, which R421
names. -/

namespace Sys2Proof.Machine.MlDsa

/-! ### Parameters (FIPS 204, table 1) -/

def q : Nat := 8380417
def d : Nat := 13
def tau : Nat := 39
def gamma1 : Nat := 131072
def gamma2 : Nat := 95232
def beta : Nat := 78
def omega : Nat := 80
/-- Rows and columns of the matrix. -/
def dim : Nat := 4
/-- The 512th root of unity. -/
def zeta : Nat := 1753

/-- 256 coefficients mod q. -/
abbrev Poly := List Nat

/-! ### Packing (FIPS 204, section 7.1) -/

/-- `n` values of `w` bits from bytes, lowest bits first. -/
def unpack (w n : Nat) (bs : List Byte) : List Nat :=
  let x := ofBytesLE bs
  (List.range n).map fun i => field x (w * i) w

/-- Values of `w` bits packed into bytes. -/
def pack (w : Nat) (xs : List Nat) : List Byte := bytesLE (w * xs.length / 8) (xs.foldr (fun x n => x + 2 ^ w * n) 0)

/-- Bytes cut into `n` pieces of `size`. -/
def pieces (size : Nat) : Nat → List Byte → List (List Byte)
  | 0, _ => []
  | n + 1, bs => bs.take size :: pieces size n (bs.drop size)

/-- Whether the places of one polynomial's hints rise. -/
def rising : List Byte → Bool
  | a :: b :: rest => a.ult b && rising (b :: rest)
  | _ => true

/-- The places of the hints of each polynomial; none when they are not as section 7.1 packs them. -/
def unpackHints (y : List Byte) (first : Nat) : List Byte → Option (List (List Byte))
  | [] => if (y.drop first).all (· == 0) then some [] else none
  | e :: ends =>
    let here := (y.drop first).take (e.toNat - first)
    if e.toNat < first || omega < e.toNat || !rising here then none
    else (unpackHints y e.toNat ends).map (here :: ·)

/-! ### The ring (FIPS 204, sections 2 and 7.5) -/

/-- `b` to the power `n`, mod q. -/
def power (b n : Nat) : Nat := (List.range 24).reverse.foldl (fun r i => if n.testBit i then r * r % q * b % q else r * r % q) 1

def bitReverse8 (n : Nat) : Nat := (List.range 8).foldl (fun r i => 2 * r + if n.testBit i then 1 else 0) 0

/-- The root at place `i` of the transformed domain. -/
def root (i : Nat) : Nat := power zeta (2 * bitReverse8 i + 1)

/-- A polynomial's value, lowest coefficient first. -/
def evalAt (f : Poly) (x : Nat) : Nat := f.foldr (fun c r => (c + x * r) % q) 0

/-- NTT: the values at the 256 roots. -/
def ntt (f : Poly) : Poly := (List.range 256).map fun i => evalAt f (root i)

/-- Its inverse: coefficient `j` is the sum of the values by the roots to the power −j, divided by 256. -/
def inverseNtt (v : Poly) : Poly :=
  let inverses := (List.range 256).map fun i => power (root i) (q - 2)
  let scale := power 256 (q - 2)
  let rec go : Nat → List (Nat × Nat) → Poly
    | 0, _ => []
    | n + 1, terms =>
      (terms.map (·.1)).sum % q * scale % q :: go n (terms.map fun t => (t.1 * t.2 % q, t.2))
  go 256 (v.zip inverses)

def zipPoly (f : Nat → Nat → Nat) (a b : Poly) : Poly := (a.zip b).map fun x => f x.1 x.2 % q
def mulPoly : Poly → Poly → Poly := zipPoly (· * ·)
def addPoly : Poly → Poly → Poly := zipPoly (· + ·)
def subPoly : Poly → Poly → Poly := zipPoly fun x y => x + (q - y)

/-! ### Sampling (FIPS 204, section 7.3) -/

/-- Candidates below q from bytes, three at a time. -/
def candidates : List Byte → List Nat
  | a :: b :: c :: rest =>
    let z := 65536 * (c.toNat % 128) + 256 * b.toNat + a.toNat
    if z < q then z :: candidates rest else candidates rest
  | _ => []

/-- RejNTTPoly: 256 candidates; the blocks of output that `fuel` allows hold far more. -/
def rejPoly : Nat → List DWord → Poly → Option Poly
  | 0, _, _ => none
  | fuel + 1, a, found =>
    let found := found ++ candidates (squeeze shake128Rate 1 a)
    if 256 ≤ found.length then some (found.take 256) else rejPoly fuel (keccak a) found

/-- ExpandA: entry (r, s) of the matrix. -/
def entry (rho : List Byte) (r s : Nat) : Option Poly :=
  rejPoly 4096 (sponge shake128Rate 0x1F (rho ++ [BitVec.ofNat 8 s, BitVec.ofNat 8 r])) []

/-- Place the `tau` signs of a challenge: `i` runs from 256 − tau up, and `bs` is the output still to be read. -/
def placeSigns (signs : Nat) : Nat → List Byte → Poly → Option Poly
  | _, [], _ => none
  | i, b :: bs, c =>
    if i < b.toNat then placeSigns signs i bs c
    else
      let c := (c.set i (nth c b.toNat 0)).set b.toNat (if signs.testBit (i + tau - 256) then q - 1 else 1)
      if i = 255 then some c else placeSigns signs (i + 1) bs c

/-- SampleInBall. -/
def sampleInBall (seed : List Byte) : Option Poly :=
  let out := shake256 seed 65536
  placeSigns (ofBytesLE (out.take 8)) (256 - tau) (out.drop 8) (List.replicate 256 0)

/-! ### Hints (FIPS 204, section 7.4) -/

/-- The high part of a coefficient, and whether its low part is positive. -/
def decompose (r : Nat) : Nat × Bool :=
  let low := r % (2 * gamma2)
  let neg := decide (gamma2 < low)
  let high := if neg then (r - low + 2 * gamma2) / (2 * gamma2) else (r - low) / (2 * gamma2)
  if high = 44 then (0, false) else (high, !neg && low != 0)

/-- UseHint. -/
def useHint (hint : Bool) (r : Nat) : Nat :=
  let (high, pos) := decompose r
  if hint then (if pos then (high + 1) % 44 else (high + 43) % 44) else high

/-! ### Verification (FIPS 204, algorithms 3 and 8) -/

/-- Whether a signature of a message under a key holds, with an empty context. -/
def verify (key msg sig : List Byte) : Bool :=
  let rho := key.take 32
  let t1 := (pieces 320 dim (key.drop 32)).map (unpack 10 256)
  let seed := sig.take 32
  let raw := (pieces 576 dim (sig.drop 32)).map (unpack 18 256)
  let y := sig.drop 2336
  let short := raw.all fun p => p.all fun v =>
    decide (v < 2 * gamma1 - beta ∧ beta < v)
  let z : List Poly := raw.map fun p => p.map fun v => (gamma1 + (q - v)) % q
  match unpackHints (y.take omega) 0 (y.drop omega), sampleInBall seed with
  | some hints, some c =>
    let mu := shake256 (shake256 key 64 ++ [0, 0] ++ msg) 64
    let zt := z.map ntt
    let ct := ntt c
    let row (r : Nat) : Option Poly :=
      ((List.range dim).foldlM (fun (acc : Poly) s => (entry rho r s).map fun a => addPoly acc (mulPoly a (nth zt s [])))
        (List.replicate 256 0)).map fun az =>
      inverseNtt (subPoly az (mulPoly ct (ntt ((nth t1 r []).map fun x => x * 2 ^ d % q))))
    match (List.range dim).mapM row with
    | some ws =>
      let high := (ws.zip hints).map fun x =>
        (x.1.zipIdx).map fun c => useHint (x.2.contains (BitVec.ofNat 8 c.2)) c.1
      short && shake256 (mu ++ high.flatMap (pack 6)) 32 == seed && key.length = 1312 && sig.length = 2420
    | none => false
  | _, _ => false

/-! ### Keys (FIPS 204, algorithms 1 and 6) -/

/-- The representative of a coefficient between −q/2 and q/2. -/
def centred (x : Nat) : Int := if 2 * x < q then x else (x : Int) - q

/-- RejBoundedPoly with coefficients from −2 to 2. -/
def smallPoly (seed : List Byte) : Poly :=
  let nibbles := (shake256 seed 65536).flatMap fun b => [b.toNat % 16, b.toNat / 16]
  ((nibbles.filter (· < 15)).map fun v => (q + 2 - v % 5) % q).take 256

/-- Power2Round: the high and the low part of a coefficient. -/
def power2Round (x : Nat) : Nat × Nat :=
  let low := x % 2 ^ d
  if 2 ^ (d - 1) < low then ((x - low) / 2 ^ d + 1, (q + low - 2 ^ d) % q) else ((x - low) / 2 ^ d, low)

/-- A private key, its vectors not yet transformed; the public key is its own encoding. -/
structure PrivateKey where
  rho : List Byte
  secret : List Byte
  key : List Byte
  s1 : List Poly
  s2 : List Poly
  t0 : List Poly

/-- Row `r` of the matrix times a transformed vector, back in coefficients. -/
def timesRow (rho : List Byte) (v : List Poly) (r : Nat) : Poly :=
  inverseNtt ((List.range dim).foldl (fun acc s => addPoly acc (mulPoly ((entry rho r s).getD []) (nth v s []))) (List.replicate 256 0))

/-- KeyGen from a seed of 32 bytes. -/
def keyGen (seed : List Byte) : PrivateKey :=
  let h := shake256 (seed ++ [4, 4]) 128
  let rho := h.take 32
  let small (i : Nat) : Poly := smallPoly ((h.drop 32).take 64 ++ bytesLE 2 i)
  let s1 := (List.range dim).map small
  let s2 := (List.range dim).map fun i => small (dim + i)
  let s1h := s1.map ntt
  let ts := (List.range dim).map fun r => (addPoly (timesRow rho s1h r) (nth s2 r [])).map power2Round
  ⟨rho, h.drop 96, rho ++ ts.flatMap fun t => pack 10 (t.map (·.1)), s1, s2, ts.map fun t => t.map (·.2)⟩

/-! ### Signing (FIPS 204, algorithms 2 and 7) -/

/-- The low part of Decompose. -/
def lowPart (r : Nat) : Int :=
  let low := r % (2 * gamma2)
  let r0 : Int := if gamma2 < low then (low : Int) - 2 * gamma2 else low
  if (r : Int) - r0 = q - 1 then r0 - 1 else r0

def norm (p : Poly) : Nat := p.foldl (fun m x => max m (centred x).natAbs) 0
def norms (ps : List Poly) : Nat := ps.foldl (fun m p => max m (norm p)) 0

/-- The places of the hints of a vector, with where each polynomial's end. -/
def packHints (hs : List (List Nat)) : List Byte :=
  let places := hs.flatMap id
  let ends := (List.range dim).map fun i => ((hs.take (i + 1)).map List.length).sum
  (places ++ List.replicate (omega - places.length) 0).map (BitVec.ofNat 8) ++ ends.map (BitVec.ofNat 8)

/-- The rejection loop from counter `kappa` up. -/
def signFrom (k : PrivateKey) (mu seed : List Byte) : Nat → Nat → Option (List Byte)
  | 0, _ => none
  | fuel + 1, kappa =>
    let y := (List.range dim).map fun r =>
      (unpack 18 256 (shake256 (seed ++ bytesLE 2 (kappa + r)) 576)).map fun v => (gamma1 + (q - v)) % q
    let w := (List.range dim).map (timesRow k.rho (y.map ntt))
    let seedC := shake256 (mu ++ w.flatMap fun p => pack 6 (p.map fun x => (decompose x).1)) 32
    let c := ntt ((sampleInBall seedC).getD [])
    let times (v : List Poly) : List Poly := v.map fun p => inverseNtt (mulPoly c (ntt p))
    let z := (y.zip (times k.s1)).map fun x => addPoly x.1 x.2
    let rest := (w.zip (times k.s2)).map fun x => subPoly x.1 x.2
    let ct0 := times k.t0
    let hints := (rest.zip ct0).map fun x => ((addPoly x.1 x.2).zip x.1).zipIdx.filterMap fun e =>
      if (decompose e.1.1).1 ≠ (decompose e.1.2).1 then some e.2 else none
    if gamma1 - beta ≤ norms z || rest.any (fun p => p.any fun x => decide (gamma2 - beta ≤ (lowPart x).natAbs)) ||
        gamma2 ≤ norms ct0 || omega < (hints.map List.length).sum then
      signFrom k mu seed fuel (kappa + dim)
    else some (seedC ++ z.flatMap (fun p => pack 18 (p.map fun x => ((gamma1 : Int) - centred x).toNat)) ++ packHints hints)

/-- Sign with an empty context, `rnd` being the 32 bytes of the hedged variant. -/
def sign (k : PrivateKey) (msg rnd : List Byte) : List Byte :=
  let mu := shake256 (shake256 k.key 64 ++ [0, 0] ++ msg) 64
  (signFrom k mu (shake256 (k.secret ++ rnd ++ mu) 64) 16384 0).getD []

end Sys2Proof.Machine.MlDsa
end

