-- ==== Sys2Proof/Machine/HostLink.lean ====
section
/-! DEFINITION. The Host Link: windows, the register page, doorbells, host memory, reset, boot, recovery and attestation
(R248, R415 to R422). -/

namespace Sys2Proof.Machine

def State.modHost (s : State) (f : HostSt → HostSt) : State := { s with host := f s.host }

/-- What the host sends over its link; nothing comes over a link that is out of service (R385, R415). -/
def State.fromHost (s : State) (act : State → State) : Out := .next (if (s.linkOf .host).retired then s else act s)

/-! ### Firmware (R420, R421) -/

def firmwareVersion (img : List Byte) : Word := BitVec.ofNat 32 (natAt img 4 4)
def firmwareKey (img : List Byte) : List Byte := (img.drop 16).take 1312
def firmwareSig (img : List Byte) : List Byte := (img.drop 1328).take 2420
def firmwareBody (img : List Byte) : List Byte := (img.drop 4096).take (natAt img 8 8)
/-- The digest m of an image. -/
def firmwareDigest (img : List Byte) : BitVec 256 := sha3 (img.take 1328 ++ firmwareBody img)

/-- Why an image does not verify, as hl.rctl reports it: 1 the magic, 2 the key, 3 the version, 4 the signature (R421). -/
def firmwareFault (img : List Byte) : Option Byte :=
  if natAt img 0 4 ≠ 0xA2F01B00 || !((img.drop 3748).take 348).all (· == 0) then some 1
  else if sha3 (firmwareKey img) != Config.fusedKeyHash then some 2
  else if (firmwareVersion img).ult Config.fusedMinVersion then some 3
  else if MlDsa.verify (firmwareKey img) (bytesLE 32 (firmwareDigest img).toNat) (firmwareSig img) then none else some 4

/-- The device's identity key (R421). -/
def identityKey : MlDsa.PrivateKey := MlDsa.keyGen (padTo 32 (Config.identitySeed.take 32))

/-- The image in the flash. -/
def HostSt.image (h : HostSt) : List Byte := h.flash.getD Config.factoryImage

/-! ### Reset and boot (R420 to R422) -/

/-- The device after a reset that keeps a host page and flash: every CSR, the Cistern and the memory at reset, then the boot.
An image that does not verify leaves the device in recovery state. The model's own fields go on. -/
def State.boot (s : State) (h : HostSt) : State :=
  let h := { h with hwin := Bank.fill 0, devid := 0, fabtab := 0, recovery := false, recBuf := ⟨[]⟩ }
  let s := { State.reset with host := h, agenda := s.agenda, tick := s.tick, resets := s.resets + 1 }
  match firmwareFault h.image with
  | none => s
  | some _ => (s.modHost fun h => { h with recovery := true }).hostIrq 17

/-- HOST_RESET. The host register page survives. -/
def execHostReset (s : State) : Out := s.fromHost fun s => s.boot s.host
/-- POWER_ON. The flash and the host register page survive it too (R422). -/
def execPowerOn (s : State) : Out := .next (s.boot s.host)

/-- The bytes of the recovery buffer (R421). -/
def recoveryBytes : Nat := 2 ^ 26

/-- A recovery image is verified, written to flash and booted, or the reason reported (R421). -/
def State.commitRecovery (s : State) : State :=
  if !s.host.recovery then s
  else
    let n := min recoveryBytes (4096 + natAt (s.host.recBuf.read 0 16) 8 8)
    let img := s.host.recBuf.read 0 (max 4096 n)
    match firmwareFault img with
    | none => s.boot { s.host with flash := some img }
    | some e => s.modHost fun h => { h with rctl := zext e <<< 8 }

/-- RECOVERY_IMAGE_COMMIT. -/
def execRecoveryImageCommit (s : State) : Out := s.fromHost State.commitRecovery

/-- The attestation report (R421). -/
def State.attestReport (s : State) : List Byte :=
  let img := s.host.image
  bytesLE 4 0xA2A70001 ++ bytesLE 2 s.host.devid.toNat ++ bytesLE 2 Config.revision.toNat ++
    bytesLE 4 Config.fusedMinVersion.toNat ++ bytesLE 4 (firmwareVersion img).toNat ++ bytesLE 32 (firmwareDigest img).toNat ++
    bytesLE 32 s.host.nonce.toNat ++ List.replicate 16 0

/-- The report and its signature are written; bit 0 of hl.attest clears, bit 1 sets. -/
def State.attest (s : State) : State :=
  let r := s.attestReport
  let rnd := (blockBytes (Config.freeBlock s.tick)).take 32
  s.modHost fun h =>
    { h with report := r, sig := padTo 2420 ((MlDsa.sign identityKey (bytesLE 32 (sha3 r).toNat) rnd).take 2420), attest := 2 }

/-- ATTESTATION_REQUEST. -/
def execAttestationRequest (s : State) : Out := s.fromHost State.attest

/-! ### Doorbells, interrupts, partition maps (R248, R418, R419) -/

/-- A doorbell has the effect of LAUNCH; an address that does not translate or is misaligned gives BADREC. -/
def State.ringDoor (s : State) (p : PartId) (va : DWord) : State :=
  let done (s : State) (w : DWord) : State := s.modHost fun h => { h with dstat := h.dstat.write p w }
  let bad := done s (statusWord sBadRec 0)
  if va.extractLsb' 48 16 != 0 || va.extractLsb' 0 6 != 0 || s.host.recovery then bad
  else
    match s.resolveIn p va.toNat .store with
    | .error _ => bad
    | .ok (pa, s') =>
      if isHost pa || s'.tagged pa || s'.poisoned pa 64 then bad
      else
        let (s'', w) := s'.queueLaunch p (va.extractLsb' 0 48) pa
        if w == statusWord sOk 0 then done s'' w else done s w

/-- HOST_DOORBELL. -/
def execHostDoorbell (p : PartId) (va : DWord) (s : State) : Out := s.fromHost fun s => s.ringDoor p va

def State.clearIstat (s : State) (v : DWord) : State := s.modHost fun h => { h with istat := h.istat &&& ~~~v }
/-- HOST_ISTAT_CLEAR. -/
def execHostIstatClear (v : DWord) (s : State) : Out := s.fromHost fun s => s.clearIstat v

/-- A host access that is refused is counted (R390, R416). -/
def State.hostRefused (s : State) (off : DWord) (how : DWord) : State := s.telemetry 0 none 11 [off, how]

/-- A host write to hl.pmap, ignored and counted when R248 refuses it. -/
def State.hostPmap (s : State) (n : BitVec 5) (v : DWord) : State := (s.writePmap n v).getD (s.hostRefused (0x1A00 + zext n <<< 3) 3)
/-- HOST_PMAP_WRITE. -/
def execHostPmapWrite (n : BitVec 5) (v : DWord) (s : State) : Out := s.fromHost fun s => s.hostPmap n v

/-! ### The register page (R418) -/

/-- `n` bytes of a list that lies at `base` of the page, from offset `o`. -/
def pageBytes (bs : List Byte) (base o : Nat) : DWord := BitVec.ofNat 64 (natAt bs (o - base) 8)

/-- The eight bytes of the page at an aligned offset. -/
def State.readPage (s : State) (o : Nat) : DWord :=
  let h := s.host
  if o = 0 then zext (Config.revision ++ h.devid.extractLsb' 0 16)
  else if 0x180 ≤ o && o < 0x200 then h.dstat.read (BitVec.ofNat 4 ((o - 0x180) / 8))
  else if o = 0x200 then h.istat
  else if o = 0x208 then h.ien
  else if o = 0x400 then h.rctl
  else if o = 0x500 then h.attest
  else if 0x600 ≤ o && o < 0x620 then pageBytes (bytesLE 32 h.nonce.toNat) 0x600 o
  else if 0x800 ≤ o && o < 0x860 then pageBytes h.report 0x800 o
  else if 0x880 ≤ o && o < 0x11F4 then pageBytes h.sig 0x880 o
  else if 0x1400 ≤ o && o < 0x1920 then pageBytes (padTo 1312 (identityKey.key.take 1312)) 0x1400 o
  else if 0x1A00 ≤ o && o < 0x1B00 then s.pmaps.read (BitVec.ofNat 5 ((o - 0x1A00) / 8))
  else 0

/-- Eight bytes written at an aligned offset of the page. Of hl.rctl bit 0 commits, and bits 15:8 hold what was last put there (R421). -/
def State.writePage (s : State) (o : Nat) (v : DWord) : State :=
  if 0x100 ≤ o && o < 0x180 then s.ringDoor (BitVec.ofNat 4 ((o - 0x100) / 8)) v
  else if o = 0x200 then s.clearIstat v
  else if o = 0x208 then s.modHost fun h => { h with ien := v }
  else if o = 0x300 then (if v.getLsbD 0 then s.boot s.host else s)
  else if o = 0x400 then
    let s := s.modHost fun h => { h with rctl := v &&& 0xFF00 }
    if v.getLsbD 0 then s.commitRecovery else s
  else if o = 0x500 then (if v.getLsbD 0 then s.attest else s.modHost fun h => { h with attest := v &&& 2 })
  else if 0x600 ≤ o && o < 0x620 then
    s.modHost fun h => { h with nonce :=
      let i := (o - 0x600) / 8
      (h.nonce &&& ~~~((0xFFFFFFFFFFFFFFFF : BitVec 256) <<< (64 * i))) ||| (v.setWidth 256 <<< (64 * i)) }
  else if 0x1A00 ≤ o && o < 0x1B00 then s.hostPmap (BitVec.ofNat 5 ((o - 0x1A00) / 8)) v
  else s

/-- The aligned eights that lie wholly in a write to the page, each with its bytes; others have no effect (log 25). -/
def pageWords (o : Nat) (bs : List Byte) : List (Nat × DWord) :=
  ((List.range ((bs.length + 7) / 8 + 1)).map fun i => 8 * ((o + 7) / 8 + i)).filterMap fun a =>
    if a + 8 ≤ o + bs.length then some (a, BitVec.ofNat 64 (natAt bs (a - o) 8)) else none

/-! ### Windows (R416) -/

/-- Where a host access of `n` bytes goes. -/
inductive HostTarget where
  | page (o : Nat)
  | recovery (o : Nat)
  | memory (pa : Nat)
  | nothing

/-- The target of a host offset (R416, R421). -/
def State.hostTarget (s : State) (off : DWord) (n : Nat) (write : Bool) : HostTarget :=
  let i := off.toNat / 2 ^ 40
  let o := off.toNat % 2 ^ 40
  if i = 0 then (if o + n ≤ 8192 then .page o else .nothing)
  else if i = 1 && s.host.recovery && decide (o + n ≤ recoveryBytes) then .recovery o
  else if 16 < i then .nothing
  else
    let w := s.host.hwin.read (BitVec.ofNat 4 (i - 1))
    let size := (w.extractLsb' 58 6).toNat
    let ok := 16 ≤ size && size ≤ 40 && decide (o + n ≤ 2 ^ size) && (if write then w.getLsbD 57 else w.getLsbD 56)
    let pa := 65536 * (w.extractLsb' 16 32).toNat + o
    if ok && pa + n ≤ Config.deviceMemEnd then .memory pa else .nothing

def State.answerHost (s : State) (off : DWord) (bs : List Byte) (failed : Bool := false) : State :=
  s.modHost fun h => { h with out := h.out ++ [.readAnswer off bs failed] }

/-- HOST_MEMORY_READ: `len` bytes at an offset of the aperture. An answer that holds poison says so (R382, log 65). -/
def execHostMemoryRead (off : DWord) (len : Nat) (s : State) : Out :=
  s.fromHost fun s => match s.hostTarget off len false with
    | .page o => s.answerHost off ((List.range len).map fun i => (s.readPage ((o + i) / 8 * 8)).extractLsb' (8 * ((o + i) % 8)) 8)
    | .recovery o => s.answerHost off (s.host.recBuf.read o len)
    | .memory pa => s.answerHost off (s.bytesPhys pa len) (s.poisoned pa len)
    | .nothing => (s.hostRefused off 1).answerHost off (List.replicate len 0xFF)

/-- Host bytes written in device memory, the bytes of live blocks left (R235); the monitors do not see them (R244). -/
def State.hostWrite (s : State) : List Nat → Nat → List Byte → State
  | [], _, _ => s
  | b :: bs, pa, xs =>
    let n := 64 * (b + 1) - pa
    let s' := if s.tags.contains b then s else s.writePhys pa (xs.take n) false
    s'.hostWrite bs (pa + n) (xs.drop n)

/-- HOST_MEMORY_WRITE: bytes at an offset of the aperture. -/
def execHostMemoryWrite (off : DWord) (bytes : List Byte) (s : State) : Out :=
  s.fromHost fun s => match s.hostTarget off bytes.length true with
    | .page o => (pageWords o bytes).foldl (fun s x => s.writePage x.1 x.2) s
    | .recovery o => s.modHost fun h => { h with recBuf := h.recBuf.write o bytes }
    | .memory pa => s.hostWrite (blocksOf pa bytes.length) pa bytes
    | .nothing => s.hostRefused off 2

/-! ### Host memory (R417) -/

/-- The answer to what a command asked: with the last of its pieces it goes on. -/
def Cmd.answered (x : Cmd) (bytes : List Byte) (failed : Bool) : Cmd :=
  let ps := answerPiece bytes failed x.asked
  if (ps.filterMap Piece.asks).isEmpty then { x with asked := ps }.moveOn else { x with asked := ps }

/-- HOST_MEMORY_REPLY. Over a link that is out of service an answer comes as a failure (R385, R415). -/
def execHostMemoryReply (r : HostReader) (bytes : List Byte) (failed : Bool) (s : State) : Out :=
  let failed := failed || (s.linkOf .host).retired
  match r with
  | .control c =>
    match (s.core c).hostHold with
    | some h => .next (s.endHold c h bytes failed 6)
    | none => .next s
  | .command c e =>
    match (s.core c).cmd e with
    | none => .next s
    | some x =>
      match x.phase, x.asked.filterMap Piece.asks with
      | .hostWait, (pa, _) :: _ =>
        let s := if failed then s.hostFailed pa 6 else s
        .next (s.modCmd c e fun y => y.answered bytes failed)
      | _, _ => .next s

end Sys2Proof.Machine
end

