-- ==== Sys2Proof/Machine/Loader.lean ====
section
/-! DEFINITION. The loader: choice of an image, relocation, placement, the kernel store (R25, R26, R91, R115, R426 to R441). -/

namespace Sys2Proof.Machine

/-! ### Reading the code object -/

/-- `n` bytes at a virtual address of a partition, in pieces of at most 64 up to a block's end; none when one does not read. -/
def State.readSpan (s : State) (p : PartId) : Nat → Nat → Nat → Option (List Byte)
  | 0, _, n => if n = 0 then some [] else none
  | fuel + 1, va, n =>
    if n = 0 then some []
    else
      let k := min n (64 - va % 64)
      match s.resolveIn p va .load with
      | .error _ => none
      | .ok (pa, _) =>
        if isHost pa || s.poisoned pa k then none
        else (s.readSpan p fuel (va + k) (n - k)).map (s.bytesPhys pa k ++ ·)

/-- `n` bytes of the code object from an offset (R426). -/
def State.objBytes (s : State) (p : PartId) (obj : Addr) (off n : Nat) : Option (List Byte) :=
  s.readSpan p (n / 64 + 2) (obj.toNat + off) n

/-- The header, less its fixed fields. -/
structure CodeHeader where
  images : Nat
  kernels : Nat
  directory : Nat
  block : Nat
  length : Nat
  relocs : Nat
  nrelocs : Nat
  launches : Nat
  nlaunch : Nat

/-- The header in 64 bytes; none when it breaks R426. -/
def readHeader (bs : List Byte) : Option CodeHeader :=
  let w := wordAt bs
  let images := ((w 0).extractLsb' 48 16).toNat
  let ok := (w 0).extractLsb' 0 48 == 0x00014F5A5846 && 1 ≤ images && images ≤ 64 && (w 1).extractLsb' 12 52 == 0 &&
    (w 3).extractLsb' 32 32 == 0 && w 6 == 0 && w 7 == 0
  let lo (i : Nat) : Nat := ((w i).extractLsb' 0 32).toNat
  let hi (i : Nat) : Nat := ((w i).extractLsb' 32 32).toNat
  if ok then
    some ⟨images, ((w 1).extractLsb' 0 12).toNat, lo 2, hi 2, lo 3, lo 4, hi 4, lo 5, hi 5⟩
  else none

/-- A directory entry (R428). -/
structure ImageEntry where
  kind : BitVec 2
  rev : BitVec 16
  offset : Nat
  size : Nat
  reqs : Nat
  nreqs : Nat
  relocs : Nat
  nrelocs : Nat

def readImageEntry (bs : List Byte) : ImageEntry :=
  let w := wordAt bs
  let lo (i : Nat) : Nat := ((w i).extractLsb' 0 32).toNat
  let hi (i : Nat) : Nat := ((w i).extractLsb' 32 32).toNat
  ⟨(w 0).extractLsb' 0 2, (w 0).extractLsb' 8 16, lo 1, hi 1, lo 2, hi 2, lo 3, hi 3⟩

/-- Entries of `size` bytes, `n` of them. -/
def entriesOf (size : Nat) : Nat → List Byte → List (List Byte)
  | 0, _ => []
  | n + 1, bs => bs.take size :: entriesOf size n (bs.drop size)

/-! ### Keys and requirements (R25, R430) -/

/-- What the device reports for a key. -/
def deviceKey (k : BitVec 16) : Option (BitVec 48) := (Config.discovery.find? fun x => x.1 == k).map (·.2)

/-- Whether a requirement entry holds. -/
def requirementHolds (bs : List Byte) : Bool :=
  let w0 := wordAt bs 0
  let v := (wordAt bs 1).extractLsb' 0 48
  match deviceKey (w0.extractLsb' 0 16) with
  | none => false
  | some d =>
    w0.extractLsb' 18 46 == 0 && (match w0.extractLsb' 16 2 with
      | 0#2 => d == v
      | 1#2 => !d.ult v
      | 2#2 => !v.ult d
      | _ => d &&& v == v)

/-! ### Relocations (R431) -/

structure Reloc where
  place : Nat
  kind : Nat
  key : BitVec 16
  reserved : Byte
  addend : DWord

def readReloc (bs : List Byte) : Reloc :=
  let w := wordAt bs 0
  ⟨(w.extractLsb' 0 32).toNat, (w.extractLsb' 32 8).toNat, w.extractLsb' 40 16, w.extractLsb' 56 8, wordAt bs 1⟩

/-- Bytes replaced from an offset; none when they do not lie in the list. -/
def patchBytes (bs : List Byte) (o : Nat) (xs : List Byte) : Option (List Byte) :=
  if o + xs.length ≤ bs.length then some (bs.take o ++ xs ++ bs.drop (o + xs.length)) else none

/-- The imm16 field of the word at an offset. -/
def patchImm16 (bs : List Byte) (o : Nat) (x : BitVec 16) : Option (List Byte) :=
  if o + 4 ≤ bs.length then patchBytes bs o (bytesLE 2 x.toNat) else none

/-- The three words of li (R115). -/
def patchLi (bs : List Byte) (o : Nat) (a : DWord) : Option (List Byte) :=
  ((patchImm16 bs o (a.extractLsb' 32 16)).bind fun bs => patchImm16 bs (o + 4) (a.extractLsb' 16 16)).bind fun bs =>
    patchImm16 bs (o + 8) (a.extractLsb' 0 16)

/-- Whether a value fits the imm16 of a major (R82). A major of which R82 gives no extension of imm16 takes no value: DESIGN CHOICE, log 80, for
neither R82 nor R25 says what fits there. -/
def fitsMajor (major : BitVec 6) (v : BitVec 48) : Bool :=
  match major.toNat with
  | 0x01 | 0x05 | 0x06 | 0x0A | 0x1F => decide (v.toNat < 2 ^ 15)
  | 0x02 | 0x03 | 0x04 | 0x0B | 0x31 => decide (v.toNat < 2 ^ 16)
  | 0x07 | 0x08 | 0x09 => decide (v.toNat < 64)
  | _ => false

/-- One relocation of the common list, in the common block's bytes, with the block at `b` and the kernels bound from handle
`h` up. -/
def relocCommon (b h kernels : Nat) (bs : List Byte) (r : Reloc) : Option (List Byte) :=
  let key := deviceKey r.key
  if r.reserved != 0 then none
  else match r.kind with
  | 1 => patchLi bs r.place (BitVec.ofNat 64 b + r.addend)
  | 2 => patchBytes bs r.place (bytesLE 8 (BitVec.ofNat 64 b + r.addend).toNat)
  | 3 =>
    let w : Word := BitVec.ofNat 32 (natAt bs r.place 4)
    let i := (w.extractLsb' 20 12).toNat
    if i < kernels then patchBytes bs r.place (bytesLE 4 ((BitVec.ofNat 12 (h + i)) ++ w.extractLsb' 0 20).toNat) else none
  | 4 => key.bind fun v =>
      let w : Word := BitVec.ofNat 32 (natAt bs r.place 4)
      if fitsMajor (w.extractLsb' 26 6) v then patchImm16 bs r.place (v.extractLsb' 0 16) else none
  | 5 => key.bind fun v => patchBytes bs r.place (bytesLE 8 v.toNat)
  | 7 => key.bind fun v => patchLi bs r.place (zext v + r.addend)
  | _ => none

/-- A bundle with the 28 bits of a slot replaced. -/
def putSlot (x : BitVec 256) (s : Slot) (v : BitVec 28) : BitVec 256 :=
  let at_ := 196 - 28 * s.num.toNat
  (x &&& ~~~((0xFFFFFFF : BitVec 256) <<< at_)) ||| (v.setWidth 256 <<< at_)

/-- A native bundle with the long immediate that a slot owns replaced (R18). -/
def relocBundle (x : BitVec 256) (s : Slot) (v : BitVec 48) : Option (BitVec 256) :=
  let h := bundleHdr x
  let next := surrenderedAfter h.ext s
  match (if slotBit h.occ s && !slotBit h.ext s then bundleSlot x s else none) with
  | none => none
  | some i =>
    let w := zext v
    let own := putSlot x s ((slotBody x s).extractLsb' 8 20 ++ w.extractLsb' 0 8)
    if !i.ownsLong then none
    else match next with
    | [a] => if v.toNat < 2 ^ 35 then some (putSlot own a (w.extractLsb' 8 28)) else none
    | [a, b] => some (putSlot (putSlot own a (w.extractLsb' 8 28)) b (w.extractLsb' 36 28))
    | _ => none

/-- A Frazin bundle with its literal's long immediate replaced. -/
def FBundle.reloc (b : FBundle) (s : Slot) (v : BitVec 48) : Option FBundle :=
  match b.units, b.lit with
  | some us, some lit =>
    let words := us.zip b.slots
    let owns (x : Slot × Word) : Bool := x.1 == s && (opOf x.1 x.2).any Instr.ownsLong
    if words.any owns then
      some { b with
        slots := words.map fun x => if owns x then x.2.extractLsb' 8 24 ++ v.extractLsb' 0 8 else x.2
        lit := some (lit.extractLsb' 64 64 ++ zext v) }
    else none
  | _, _ => none

/-- A list with its entry `i` changed. -/
def changeNth {α : Type} (xs : List α) (i : Nat) (f : α → Option α) : Option (List α) :=
  (xs[i]?).bind fun x => (f x).map fun y => xs.set i y

/-- One relocation of an image list, in the bundles of every kernel. -/
def relocImage {α : Type} (f : α → Slot → BitVec 48 → Option α) (ks : List (List α)) (r : Reloc) : Option (List (List α)) :=
  let w : Word := BitVec.ofNat 32 r.place
  match deviceKey r.key, Slot.all[(w.extractLsb' 12 3).toNat]? with
  | some v, some slot =>
    if r.reserved != 0 || r.kind != 6 then none
    else changeNth ks (w.extractLsb' 16 12).toNat fun bs => changeNth bs (w.extractLsb' 0 12).toNat fun b => f b slot v
  | _, _ => none

/-! ### Images (R428, R429, R432) -/

/-- The bytes of a Frazin kernel: as many as its bundles take. -/
def State.frazinBytes (s : State) (p : PartId) (obj : Addr) : Nat → Nat → Option (List FBundle)
  | 0, _ => some []
  | n + 1, off =>
    (s.objBytes p obj off 20).bind fun bs =>
      let lit := (BitVec.ofNat 160 (ofBytesLE bs)).getLsbD 151
      (s.objBytes p obj (off + 20) (if lit then 16 else 0)).bind fun ls =>
        (s.frazinBytes p obj n (off + (if lit then 36 else 20))).map fun rest => readFrazin 1 (bs ++ ls) ++ rest

/-- An image's kernels, relocated; none when it is unusable. -/
def State.objectKernels (s : State) (p : PartId) (obj : Addr) (kernels : Nat) (e : ImageEntry) : Option (List KImage) :=
  match s.objBytes p obj e.offset (64 * kernels), s.objBytes p obj e.relocs (16 * e.nrelocs) with
  | some eb, some rb =>
    let entries := (entriesOf 64 kernels eb).map readEntry
    let relocs := (entriesOf 16 e.nrelocs rb).map readReloc
    if !entries.all fun x => 1 ≤ x.count && x.count ≤ Config.kstore then none
    else
      let images : Option (List KImage) :=
        if e.kind == 1 then
          (entries.mapM fun x => s.frazinBytes p obj x.count (e.offset + x.start)).bind fun ks =>
            (relocs.foldlM (relocImage FBundle.reloc) ks).bind fun ks =>
              (entries.zip ks).mapM fun x => loadKernel true x.1 (x.2.flatMap FBundle.toBytes)
        else
          (entries.mapM fun x => (s.objBytes p obj (e.offset + x.start) (32 * x.count)).map (readBundles x.count)).bind fun ks =>
            (relocs.foldlM (relocImage relocBundle) ks).bind fun ks =>
              (entries.zip ks).mapM fun x => loadKernel false x.1 (x.2.flatMap fun b => bytesLE 32 b.toNat)
      images.bind fun ks => if (ks.map fun k => k.bundles.length).sum ≤ Config.kstore then some ks else none
  | _, _ => none

/-- Insert by highest revision first, the directory's order kept. -/
def insertRev (e : ImageEntry) : List ImageEntry → List ImageEntry
  | [] => [e]
  | x :: xs => if x.rev.ult e.rev then e :: x :: xs else x :: insertRev e xs

/-- Whether every requirement of an image holds. -/
def State.meetsReqs (s : State) (p : PartId) (obj : Addr) (e : ImageEntry) : Bool :=
  match s.objBytes p obj e.reqs (16 * e.nreqs) with
  | some bs => (entriesOf 16 e.nreqs bs).all requirementHolds
  | none => false

/-- The images in the order of R432. -/
def State.candidates (s : State) (p : PartId) (obj : Addr) (es : List ImageEntry) : List ImageEntry :=
  let own := es.filter fun e => e.kind == 0 && e.rev == Config.revision
  let family := es.filter fun e => e.kind == 0 && e.rev.extractLsb' 8 8 == Config.revision.extractLsb' 8 8 && s.meetsReqs p obj e
  own ++ family.foldl (fun xs e => insertRev e xs) [] ++ es.filter fun e => e.kind == 1

/-- The kernels of the first usable image. -/
def State.chooseImage (s : State) (p : PartId) (obj : Addr) (h : CodeHeader) : Option (List KImage) :=
  (s.objBytes p obj h.directory (32 * h.images)).bind fun db =>
    (s.candidates p obj ((entriesOf 32 h.images db).map readImageEntry)).findSome? (s.objectKernels p obj h.kernels)

/-! ### Placing (R26, R91, R427, R437, R441) -/

/-- The lowest handle from which `n` handles are bound on no core of a partition (log 26). -/
def State.freeHandles (s : State) (p : PartId) (n : Nat) : Option Nat :=
  let used := (s.coresOf p).flatMap fun c => (s.core c).store.map fun x => x.1.toNat
  (List.range (4096 - n + 1)).find? fun h => used.all fun u => u < h || h + n ≤ u

/-- A launch record of the common block: its frame area from `area` on, its code object, its Cistern bytes with the spill area
of the image, and its status last. -/
def placeLaunch (base area spill : Nat) (bs : List Byte) (o : Nat) : Option (List Byte) :=
  let cistern := min (2 ^ 24 - 1) (natAt bs (o + 32) 3 + 6144 * ((spill + 383) / 384))
  ((((patchBytes bs (o + 32) (bytesLE 3 cistern)).bind fun bs => patchBytes bs (o + 40) (bytesLE 6 area)).bind fun bs =>
    patchBytes bs (o + 48) (bytesLE 6 base)).bind fun bs => patchBytes bs (o + 56) [0])

/-- The bytes of a launch record's frame area (R245). -/
def areaBytes (bs : List Byte) (o : Nat) : Nat := 576 * natAt bs (o + 24) 4 * natAt bs (o + 28) 1

/-- Every launch record, its frame areas one after another. -/
def placeLaunches (base spill : Nat) : List Nat → Nat → List Byte → Option (List Byte)
  | [], _, bs => some bs
  | o :: os, area, bs => (placeLaunch base area spill bs o).bind fun bs' => placeLaunches base spill os (area + areaBytes bs o) bs'

/-- Write the common block, 64 bytes at a time; none where one does not translate or lies in host memory or in a live block. -/
def State.placeBlock (s : State) (p : PartId) (va : Nat) : Nat → List Byte → Option State
  | 0, _ => some s
  | n + 1, bs =>
    match s.resolveIn p va .store with
    | .error _ => none
    | .ok (pa, s') =>
      if isHost pa || s'.tagged pa then none else ((s'.writePhys pa (bs.take 64)).freshCode pa 64).placeBlock p (va + 64) n (bs.drop 64)

/-- The hidden tag of the block of a meeting record (R26). -/
def State.tagMeeting (s : State) (p : PartId) (va : Nat) : State :=
  match s.recordPa p va with
  | some pa => s.setTag (blockOf pa) true
  | none => s

/-- The kernels of an image enter the store of every core of the partition. -/
def State.storeKernels (s : State) (p : PartId) (h : Nat) (ks : List KImage) : State :=
  let bound := ks.zipIdx.map fun x => (BitVec.ofNat 12 (h + x.2), x.1)
  (s.coresOf p).foldl (fun s c => s.modCore c fun k => { k with store := k.store ++ bound }) s

/-- Whether kernels fit beside those that the partition's cores hold and run. -/
def State.roomFor (s : State) (p : PartId) (ks : List KImage) : Bool :=
  (s.coresOf p).all fun c => (s.core c).storeUsed (s.core c).store + storeSize (ks.map fun k => (0, k)) ≤ Config.kstore

/-- The whole load; none when the code object does not load. -/
def State.loadObject (s : State) (p : PartId) (obj base frames : Addr) (meetings : List Word) : Option State :=
  (((s.objBytes p obj 0 64).bind readHeader).bind fun h =>
    (s.chooseImage p obj h).bind fun ks =>
    (s.freeHandles p ks.length).bind fun handle =>
    (s.objBytes p obj h.block h.length).bind fun block =>
    (s.objBytes p obj h.relocs (16 * h.nrelocs)).bind fun rb =>
    (s.objBytes p obj h.launches (4 * h.nlaunch)).bind fun lb =>
      let spill := ks.foldl (fun n k => max n k.spill) 0
      let records := (entriesOf 4 h.nlaunch lb).map ofBytesLE
      let area := (frames.toNat + 63) / 64 * 64
      ((((entriesOf 16 h.nrelocs rb).map readReloc).foldlM (relocCommon base.toNat handle h.kernels) block).bind
        (placeLaunches base.toNat spill records area)).bind fun bs =>
      if base.extractLsb' 0 12 != 0 || !s.roomFor p ks then none
      else
        (s.placeBlock p base.toNat ((bs.length + 63) / 64) bs).map fun s' =>
          (meetings.foldl (fun s o => s.tagMeeting p (base.toNat + o.toNat)) s').storeKernels p handle ks)

/-- CODE_OBJECT_LOAD: of a code object that does not load the party that asked, the host, hears, and nothing else happens (R432). -/
def execCodeObjectLoad (p : PartId) (obj base frames : Addr) (meetings : List Word) (s : State) : Out :=
  .next (match s.loadObject p obj base frames meetings with
    | some s' => s'
    | none => s.modHost fun h => { h with out := h.out ++ [.loadFailed p obj] })

end Sys2Proof.Machine
end

