-- ==== Sys2Proof/Machine/Control.lean ====
section
/-! DEFINITION. What a control core does on its turn: pending traps, notifications, breakpoints, the fetch
(R85, R86, R105, R335, R336, R359, R376, R377). -/

namespace Sys2Proof.Machine

/-! ### Boundaries -/

/-- Whether a core can move at all: not stopped, in a partition, not waiting for the host; the device not in recovery state. -/
def State.awake (s : State) (c : CoreId) : Bool :=
  let k := s.core c
  !s.host.recovery && k.halt.isNone && (s.partOf c).isSome && k.hostHold.isNone

/-- Whether a core stands before an instruction that it may execute: a handler runs on through its task's hold and through a swap, a
task does not (R309, R370); an .acq command of its own holds either. -/
def State.ready (s : State) (c : CoreId) : Bool :=
  let k := s.core c
  s.awake c && (if k.sys then k.holdSys.isNone else k.running.isSome && k.hold.isNone && !k.swapHalted)

/-- Whether a core takes a pending trap now (R359). -/
def State.trapDue (s : State) (c : CoreId) : Bool := s.awake c && !(s.core c).sys && !(s.core c).pending.isEmpty

/-- The oldest queued notification of a core's running task. -/
def CoreSt.oldestNotif (k : CoreSt) : Option Notif := k.notifs.find? fun n => some n.task == k.running

/-- The notification that a core delivers before its next instruction (R335, R336). -/
def State.notifDue (s : State) (c : CoreId) : Option Notif :=
  let k := s.core c
  if s.ready c && !k.sys && k.uie && !k.inHandler && k.uvec != 0 then k.oldestNotif else none

/-- A change of core `c` by an operation of the active core. -/
def State.asCore (s : State) (c : CoreId) (f : State → State) : State := { f { s with active := c } with active := s.active }

/-- ASYNC_TRAP_TAKE. -/
def execAsyncTrapTake (c : CoreId) (s : State) : Out := .next (if s.trapDue c then s.takePending c else s)

/-- Enter the user handler with a notification (R336). -/
def CoreSt.enterUser (k : CoreSt) (n : Notif) : CoreSt :=
  { k with
    notifs := k.notifs.erase n
    uepc := k.pc, ucause := n.word0, ustat := n.stat
    inHandler := true
    shadowG := Bank.ofFn fun i => k.g.read ((3 : BitVec 2) ++ i)
    pc := k.uvec }

/-- USER_INTERRUPT_DELIVERY. -/
def execUserInterruptDelivery (c : CoreId) (s : State) : Out :=
  match s.notifDue c with
  | some n => .next (s.modCore c fun k => k.enterUser n)
  | none => .next s

/-! ### The fetch -/

/-- The word at a physical address as a core's fetch sees it: what stands there, or, before a FENCE has covered a store of its own, what
stood there earlier; which, nothing fixes (R121, log 6). -/
def State.seenWord (s : State) (c : CoreId) (pa : Nat) : Word :=
  let now : Word := BitVec.ofNat 32 (s.readPhys pa 4)
  match (s.core c).stale.filter fun w => w.pa = pa with
  | [] => now
  | olds => nth (now :: olds.map fun w => w.word) ((Config.freeValue s.tick).toNat % (olds.length + 1)) now

/-- The word that core `c` fetches at an address (R105, R272, R382, R417). -/
def State.fetchWord (s : State) (c : CoreId) (va : DWord) : Except Refused Word :=
  match checkAddr va 4 with
  | .error e => .error e
  | .ok _ =>
    match s.resolve c false va.toNat .fetch with
    | .error e => .error ⟨e, va⟩
    | .ok (pa, _) =>
      if isHost pa then .error ⟨cProtect, va⟩
      else if s.poisoned pa 4 then .error ⟨cPoison, va⟩
      else .ok (s.seenWord c pa)

/-- What stands at a core's pc. -/
inductive Fetched where
  | fault (e : Refused)
  | illegal (w : Word)
  | instr (i : Instr)
  deriving DecidableEq, Repr

/-- Decode what was fetched. -/
def fetchedOf (w0 w1 w2 w3 : Word) : Fetched :=
  match decode w0 w1 w2 w3 with
  | .ok i => .instr i
  | .error _ => .illegal w0

/-- Fetch and decode at a core's pc. The four words of a command are fetched first; a fault on any is reported at word 0 (R86). -/
def State.fetched (s : State) (c : CoreId) : Fetched :=
  let pc := (s.core c).pc
  match s.fetchWord c pc with
  | .error e => .fault e
  | .ok w0 =>
    if w0.extractLsb' 26 6 == 0x3E then
      match s.fetchWord c (pc + 4), s.fetchWord c (pc + 8), s.fetchWord c (pc + 12) with
      | .ok w1, .ok w2, .ok w3 => fetchedOf w0 w1 w2 w3
      | .error e, _, _ => .fault ⟨e.cause, pc⟩
      | _, .error e, _ => .fault ⟨e.cause, pc⟩
      | _, _, .error e => .fault ⟨e.cause, pc⟩
    else fetchedOf w0 0 0 0

/-- ILLEGAL_INSTRUCTION: a word that is no instruction (R85). -/
def execIllegalInstruction (c : CoreId) (word : Word) (s : State) : Out :=
  .next (if s.ready c && s.fetched c == .illegal word then s.asCore c fun s => s.faultNow cIllegal (zext word) else s)

/-- FETCH_FAULT. -/
def execFetchFault (c : CoreId) (s : State) : Out :=
  match s.fetched c with
  | .fault e => .next (if s.ready c then s.asCore c fun s => s.refuse e else s)
  | _ => .next s

/-! ### The turn -/

/-- What a control core does on its turn. -/
inductive Move where
  | idle
  | breakpoint (n : Nat)
  | run (i : Instr)
  deriving DecidableEq, Repr

/-- Whether the instruction at pc is the one that SKIP spares (R377). -/
def CoreSt.spared (k : CoreSt) : Bool := k.skipArmed && k.pc == k.tepc

/-- The PC breakpoint that a core meets before its next instruction: in task mode only (R376). -/
def State.breakDue (s : State) (c : CoreId) : Option Nat :=
  let k := s.core c
  if k.sys || k.spared then none else k.pcMatch (s.launchOf c)

/-- A core's move: a pending trap, then a notification, then a breakpoint, then the instruction at pc. -/
def State.move (s : State) (c : CoreId) : Move :=
  if s.trapDue c then .run (.asyncTrapTake c)
  else if (s.notifDue c).isSome then .run (.userInterruptDelivery c)
  else if s.ready c then
    match s.breakDue c with
    | some n => .breakpoint n
    | none =>
      match s.fetched c with
      | .fault _ => .run (.fetchFault c)
      | .illegal w => .run (.illegalInstruction c w)
      | .instr i => .run i
  else .idle

/-- The core as its instruction begins: SKIP clears once it has spared the instruction (R377). -/
def CoreSt.begin_ (k : CoreSt) : CoreSt := if !k.sys && k.spared then { k with skip := false, skipArmed := false } else k
def State.begin_ (s : State) (i : Instr) : State :=
  match i with
  | .asyncTrapTake _ | .userInterruptDelivery _ => s
  | _ => s.modCur CoreSt.begin_

/-- A step's passing: the counter of free values, and the one clock of R2 (log 2). -/
def State.passTime (s : State) : State := { s with tick := s.tick + 1, cycle := s.cycle + Config.elapsed s.tick }

end Sys2Proof.Machine
end

