-- ==== Sys2Proof/Machine/Schedule.lean ====
section
/-! DEFINITION. Whose turn it is when the agenda names no one (log 1): one of the turns that the state suggests, each in its
time. The agenda can order any others; nothing here is a rule of the spec. -/

namespace Sys2Proof.Machine

/-- The turns of one core. -/
def State.coreTurns (s : State) (c : CoreId) : List Turn :=
  let k := s.core c
  let moves : List Turn := if s.trapDue c || s.ready c then [.control c] else []
  let pickup : List Instr := match s.teamOf c with
    | some t => if t.ready.isEmpty || k.running.isSome then [] else [.taskPickup c]
    | none => []
  let engine : List Instr :=
    if k.eng.primary.isNone && k.eng.secondary.isNone then (if k.eng.left.isEmpty then [] else [.kernelBundleIssue c])
    else
      let far : Bool := [k.eng.primary, k.eng.secondary].any fun r => r.any fun r => !r.far.isEmpty
      let requests : List Instr := if far then
        .bankRequestService ⟨c, .clean, 0⟩ :: (List.range 16).map fun n => .landingArrival c (BitVec.ofNat 4 n) else []
      requests ++ [.kernelBundleIssue c, .secondaryFairnessIssue c, .kernelEnd c .primary, .kernelEnd c .secondary]
  let commands : List Instr := k.table.flatMap fun x => match x.phase with
    | .waiting => [.commandIssue c x.entry]
    | .active => [.engineElementAccess c x.entry, .wellheadScatterAdd c x.entry]
    | .moved => [.commandCompletion c x.entry]
    | _ => []
  let held : List Instr := if k.hold.isSome then [.acqCommandTimeout c] else []
  let rereads : List Instr := (if k.sweep.isEmpty then [] else [.sweepReread c]) ++
    ((List.range k.monitors.length).filter fun n => (k.monitors[n]?).any Monitor.dirty).map fun n => .monitorReread c (BitVec.ofNat 6 n)
  let remote : List Instr := if k.remoteQ.isEmpty then [] else [.remoteAtomicMessage c]
  moves ++ (pickup ++ engine ++ commands ++ held ++ rereads ++ remote).map Turn.event

/-- Whether a team has no task that is ready or running and no command in flight, so that its quantum ends (R251). -/
def State.teamIdle (s : State) (t : Team) : Bool :=
  t.ready.isEmpty && t.bound.all fun c => (s.core c).running.isNone && (s.core c).table.isEmpty

/-- The turns of one partition: admissions, merges, the placer, transactions. -/
def State.partTurns (s : State) (p : PartId) : List Turn :=
  let x := s.part p
  let admissions : List Instr := if x.queues.list.all List.isEmpty then [] else [.launchAdmission p []]
  let teams : List Instr := (s.teamsOf p).flatMap fun t =>
    let placer : List Instr := if t.running then
      (if ((s.teamsOf p).any fun t => !t.running) && (s.teamIdle t || s.tick % 8192 == 0) then
        [.quantumEnd p t.launch t.index []] else [])
      else [.swapIn p t.launch t.index []]
    placer ++ t.tasks.flatMap fun i =>
      if s.taskState p i.task == stParked then [.childMerge p i.task]
      else if s.taskState p i.task == stPoisoned then [.poisonedMerge p i.task] else []
  let staging : List Instr := if x.incoming.isEmpty then [] else [.xstoreStage p]
  let txns : List Instr := x.txns.flatMap fun t => [.transactionDecision p t.name.id, .transactionApply p t.name.id]
  (admissions ++ teams ++ staging ++ txns).map Turn.event

/-- The turn when the agenda is empty. -/
def State.defaultTurn (s : State) : Turn :=
  let turns := allCores.flatMap s.coreTurns ++ allParts.flatMap s.partTurns
  match turns[s.tick % turns.length]? with
  | some t => t
  | none => .control s.active

/-- The turn a step takes, and the device with it taken from the agenda. -/
def State.nextTurn (s : State) : Turn × State :=
  match s.agenda with
  | [] => (s.defaultTurn, s)
  | t :: ts => (t, { s with agenda := ts })

/-- Whether an instruction is an event of the device: it has no encoding. -/
def isEvent (i : Instr) : Bool := (encode i).isEmpty

end Sys2Proof.Machine
end

