-- ==== Sys2Proof/Machine/Dispatch.lean ====
section
/-! DEFINITION. One arm per instruction: its meaning. -/

namespace Sys2Proof.Machine

def exec (i : Instr) (s : State) : Host.Outcome State Fault Refusal :=
  match i with
  | .add d a b => Sys2Proof.Machine.execAdd d a b s
  | .sub d a b => Sys2Proof.Machine.execSub d a b s
  | .and d a b => Sys2Proof.Machine.execAnd d a b s
  | .or d a b => Sys2Proof.Machine.execOr d a b s
  | .xor d a b => Sys2Proof.Machine.execXor d a b s
  | .sll d a b => Sys2Proof.Machine.execSll d a b s
  | .srl d a b => Sys2Proof.Machine.execSrl d a b s
  | .sra d a b => Sys2Proof.Machine.execSra d a b s
  | .slt d a b => Sys2Proof.Machine.execSlt d a b s
  | .sltu d a b => Sys2Proof.Machine.execSltu d a b s
  | .min d a b => Sys2Proof.Machine.execMin d a b s
  | .max d a b => Sys2Proof.Machine.execMax d a b s
  | .minu d a b => Sys2Proof.Machine.execMinu d a b s
  | .maxu d a b => Sys2Proof.Machine.execMaxu d a b s
  | .sextB d a => Sys2Proof.Machine.execSextB d a s
  | .sextH d a => Sys2Proof.Machine.execSextH d a s
  | .sextW d a => Sys2Proof.Machine.execSextW d a s
  | .mul d a b => Sys2Proof.Machine.execMul d a b s
  | .mulh d a b => Sys2Proof.Machine.execMulh d a b s
  | .mulhu d a b => Sys2Proof.Machine.execMulhu d a b s
  | .div d a b => Sys2Proof.Machine.execDiv d a b s
  | .divu d a b => Sys2Proof.Machine.execDivu d a b s
  | .rem d a b => Sys2Proof.Machine.execRem d a b s
  | .remu d a b => Sys2Proof.Machine.execRemu d a b s
  | .addi d a imm => Sys2Proof.Machine.execAddi d a imm s
  | .andi d a imm => Sys2Proof.Machine.execAndi d a imm s
  | .ori d a imm => Sys2Proof.Machine.execOri d a imm s
  | .xori d a imm => Sys2Proof.Machine.execXori d a imm s
  | .slti d a imm => Sys2Proof.Machine.execSlti d a imm s
  | .sltiu d a imm => Sys2Proof.Machine.execSltiu d a imm s
  | .slli d a n => Sys2Proof.Machine.execSlli d a n s
  | .srli d a n => Sys2Proof.Machine.execSrli d a n s
  | .srai d a n => Sys2Proof.Machine.execSrai d a n s
  | .lui d imm => Sys2Proof.Machine.execLui d imm s
  | .shori d a imm => Sys2Proof.Machine.execShori d a imm s
  | .ldB d a cls off => Sys2Proof.Machine.execLdB d a cls off s
  | .ldH d a cls off => Sys2Proof.Machine.execLdH d a cls off s
  | .ldW d a cls off => Sys2Proof.Machine.execLdW d a cls off s
  | .ldD d a cls off => Sys2Proof.Machine.execLdD d a cls off s
  | .stB src a cls off => Sys2Proof.Machine.execStB src a cls off s
  | .stH src a cls off => Sys2Proof.Machine.execStH src a cls off s
  | .stW src a cls off => Sys2Proof.Machine.execStW src a cls off s
  | .stD src a cls off => Sys2Proof.Machine.execStD src a cls off s
  | .beq a b off => Sys2Proof.Machine.execBeq a b off s
  | .bne a b off => Sys2Proof.Machine.execBne a b off s
  | .blt a b off => Sys2Proof.Machine.execBlt a b off s
  | .bge a b off => Sys2Proof.Machine.execBge a b off s
  | .bltu a b off => Sys2Proof.Machine.execBltu a b off s
  | .bgeu a b off => Sys2Proof.Machine.execBgeu a b off s
  | .jal off => Sys2Proof.Machine.execJal off s
  | .jalr d a imm => Sys2Proof.Machine.execJalr d a imm s
  | .exit => Sys2Proof.Machine.execExit s
  | .yield => Sys2Proof.Machine.execYield s
  | .spawn d a b => Sys2Proof.Machine.execSpawn d a b s
  | .sync d => Sys2Proof.Machine.execSync d s
  | .view op d a b => Sys2Proof.Machine.execView op d a b s
  | .viewDrop d a b => Sys2Proof.Machine.execViewDrop d a b s
  | .meet sfx d a b => Sys2Proof.Machine.execMeet sfx d a b s
  | .minit d a b => Sys2Proof.Machine.execMinit d a b s
  | .mread d a => Sys2Proof.Machine.execMread d a s
  | .mfree d a => Sys2Proof.Machine.execMfree d a s
  | .waitge sfx a b => Sys2Proof.Machine.execWaitge sfx a b s
  | .waitaddr mode sfx d a b => Sys2Proof.Machine.execWaitaddr mode sfx d a b s
  | .wake a => Sys2Proof.Machine.execWake a s
  | .qpop d a => Sys2Proof.Machine.execQpop d a s
  | .qpopNb d a => Sys2Proof.Machine.execQpopNb d a s
  | .qpush d a b => Sys2Proof.Machine.execQpush d a b s
  | .qclose d a => Sys2Proof.Machine.execQclose d a s
  | .launch d a => Sys2Proof.Machine.execLaunch d a s
  | .fence scope mask => Sys2Proof.Machine.execFence scope mask s
  | .xbegin d a => Sys2Proof.Machine.execXbegin d a s
  | .xstore size d a b => Sys2Proof.Machine.execXstore size d a b s
  | .xcommit d => Sys2Proof.Machine.execXcommit d s
  | .xabort d => Sys2Proof.Machine.execXabort d s
  | .amoW op sfx d a b => Sys2Proof.Machine.execAmoW op sfx d a b s
  | .amoD op sfx d a b => Sys2Proof.Machine.execAmoD op sfx d a b s
  | .ldAcq size cls scope d a => Sys2Proof.Machine.execLdAcq size cls scope d a s
  | .stRel size cls scope a b => Sys2Proof.Machine.execStRel size cls scope a b s
  | .csrr d csr => Sys2Proof.Machine.execCsrr d csr s
  | .csrw d a csr => Sys2Proof.Machine.execCsrw d a csr s
  | .csrs d a csr => Sys2Proof.Machine.execCsrs d a csr s
  | .csrc d a csr => Sys2Proof.Machine.execCsrc d a csr s
  | .trap code => Sys2Proof.Machine.execTrap code s
  | .sysret => Sys2Proof.Machine.execSysret s
  | .uiret => Sys2Proof.Machine.execUiret s
  | .snapsave d a b => Sys2Proof.Machine.execSnapsave d a b s
  | .snapload d a b => Sys2Proof.Machine.execSnapload d a b s
  | .brk => Sys2Proof.Machine.execBrk s
  | .dbrd d a => Sys2Proof.Machine.execDbrd d a s
  | .dbwr a b => Sys2Proof.Machine.execDbwr a b s
  | .untag a => Sys2Proof.Machine.execUntag a s
  | .shape h addr sh ctr => Sys2Proof.Machine.execShape h addr sh ctr s
  | .salloc h hnd bank nbanks row nrows => Sys2Proof.Machine.execSalloc h hnd bank nbanks row nrows s
  | .sfree h hnd => Sys2Proof.Machine.execSfree h hnd s
  | .sload h tmode tag split addr hnd sh ctr => Sys2Proof.Machine.execSload h tmode tag split addr hnd sh ctr s
  | .sstore h tag split addr hnd sh ctr => Sys2Proof.Machine.execSstore h tag split addr hnd sh ctr s
  | .sgather h tag addr hnd sh idx ctr => Sys2Proof.Machine.execSgather h tag addr hnd sh idx ctr s
  | .sscatter h tag addr hnd sh idx ctr => Sys2Proof.Machine.execSscatter h tag addr hnd sh idx ctr s
  | .sscadd h tag form addr hnd sh idx ctr => Sys2Proof.Machine.execSscadd h tag form addr hnd sh idx ctr s
  | .scopy h sh dst src => Sys2Proof.Machine.execScopy h sh dst src s
  | .scan h tag flush row src list sh mask ctr => Sys2Proof.Machine.execScan h tag flush row src list sh mask ctr s
  | .kernel h knl sh hA hB hC hD ins outs ctr => Sys2Proof.Machine.execKernel h knl sh hA hB hC hD ins outs ctr s
  | .kswap h knl addr ctr => Sys2Proof.Machine.execKswap h knl addr ctr s
  | .collAllred h addr comb sh grp ctr => Sys2Proof.Machine.execCollAllred h addr comb sh grp ctr s
  | .collRedsc h addr comb sh grp ctr => Sys2Proof.Machine.execCollRedsc h addr comb sh grp ctr s
  | .collAllgat h addr comb sh grp ctr => Sys2Proof.Machine.execCollAllgat h addr comb sh grp ctr s
  | .collBcast h addr comb sh grp ctr => Sys2Proof.Machine.execCollBcast h addr comb sh grp ctr s
  | .smark h ctr => Sys2Proof.Machine.execSmark h ctr s
  | .slotNop h => Sys2Proof.Machine.execSlotNop h s
  | .br h target => Sys2Proof.Machine.execBr h target s
  | .loop h lvl a byShape len => Sys2Proof.Machine.execLoop h lvl a byShape len s
  | .loopi h lvl trip len => Sys2Proof.Machine.execLoopi h lvl trip len s
  | .loopSw h lvl a byShape stages ii => Sys2Proof.Machine.execLoopSw h lvl a byShape stages ii s
  | .loopiSw h lvl trip stages ii => Sys2Proof.Machine.execLoopiSw h lvl trip stages ii s
  | .pand h pd pa pb => Sys2Proof.Machine.execPand h pd pa pb s
  | .por h pd pa pb => Sys2Proof.Machine.execPor h pd pa pb s
  | .pxor h pd pa pb => Sys2Proof.Machine.execPxor h pd pa pb s
  | .pandn h pd pa pb => Sys2Proof.Machine.execPandn h pd pa pb s
  | .cmp h cc k a b => Sys2Proof.Machine.execCmp h cc k a b s
  | .cmpi h cc k a imm => Sys2Proof.Machine.execCmpi h cc k a imm s
  | .movi h d imm => Sys2Proof.Machine.execMovi h d imm s
  | .lwait h n => Sys2Proof.Machine.execLwait h n s
  | .lock h n a => Sys2Proof.Machine.execLock h n a s
  | .ktrap h code => Sys2Proof.Machine.execKtrap h code s
  | .halt h => Sys2Proof.Machine.execHalt h s
  | .sMov h d a => Sys2Proof.Machine.execSMov h d a s
  | .sAdd h d a b => Sys2Proof.Machine.execSAdd h d a b s
  | .sSub h d a b => Sys2Proof.Machine.execSSub h d a b s
  | .sAnd h d a b => Sys2Proof.Machine.execSAnd h d a b s
  | .sOr h d a b => Sys2Proof.Machine.execSOr h d a b s
  | .sXor h d a b => Sys2Proof.Machine.execSXor h d a b s
  | .sSll h d a b => Sys2Proof.Machine.execSSll h d a b s
  | .sSrl h d a b => Sys2Proof.Machine.execSSrl h d a b s
  | .sSra h d a b => Sys2Proof.Machine.execSSra h d a b s
  | .sMul h d a b => Sys2Proof.Machine.execSMul h d a b s
  | .sMulh h d a b => Sys2Proof.Machine.execSMulh h d a b s
  | .sMin h d a b => Sys2Proof.Machine.execSMin h d a b s
  | .sMax h d a b => Sys2Proof.Machine.execSMax h d a b s
  | .sMinu h d a b => Sys2Proof.Machine.execSMinu h d a b s
  | .sMaxu h d a b => Sys2Proof.Machine.execSMaxu h d a b s
  | .sAddi h d imm => Sys2Proof.Machine.execSAddi h d imm s
  | .sAndi h d imm => Sys2Proof.Machine.execSAndi h d imm s
  | .sOri h d imm => Sys2Proof.Machine.execSOri h d imm s
  | .sXori h d imm => Sys2Proof.Machine.execSXori h d imm s
  | .sSlli h d n => Sys2Proof.Machine.execSSlli h d n s
  | .sSrli h d n => Sys2Proof.Machine.execSSrli h d n s
  | .sSrai h d n => Sys2Proof.Machine.execSSrai h d n s
  | .rdlc h d lvl => Sys2Proof.Machine.execRdlc h d lvl s
  | .wfield h d k => Sys2Proof.Machine.execWfield h d k s
  | .vmov h d a => Sys2Proof.Machine.execVmov h d a s
  | .vsel h d a b => Sys2Proof.Machine.execVsel h d a b s
  | .vand h d a b => Sys2Proof.Machine.execVand h d a b s
  | .vor h d a b => Sys2Proof.Machine.execVor h d a b s
  | .vxor h d a b => Sys2Proof.Machine.execVxor h d a b s
  | .vnot h d a => Sys2Proof.Machine.execVnot h d a s
  | .vfshl h d a b => Sys2Proof.Machine.execVfshl h d a b s
  | .vfshr h d a b => Sys2Proof.Machine.execVfshr h d a b s
  | .vperm h d a b => Sys2Proof.Machine.execVperm h d a b s
  | .vpopc h nz d a => Sys2Proof.Machine.execVpopc h nz d a s
  | .vtopk h nz d a k => Sys2Proof.Machine.execVtopk h nz d a k s
  | .vqmov h dir v q => Sys2Proof.Machine.execVqmov h dir v q s
  | .vadd h f d a b => Sys2Proof.Machine.execVadd h f d a b s
  | .vsub h f d a b => Sys2Proof.Machine.execVsub h f d a b s
  | .vmul h f d a b => Sys2Proof.Machine.execVmul h f d a b s
  | .vfma h f d a b => Sys2Proof.Machine.execVfma h f d a b s
  | .vdiv h f d a b => Sys2Proof.Machine.execVdiv h f d a b s
  | .vmin h f d a b => Sys2Proof.Machine.execVmin h f d a b s
  | .vmax h f d a b => Sys2Proof.Machine.execVmax h f d a b s
  | .vabs h f d a => Sys2Proof.Machine.execVabs h f d a s
  | .vneg h f d a => Sys2Proof.Machine.execVneg h f d a s
  | .vsqrt h f d a => Sys2Proof.Machine.execVsqrt h f d a s
  | .vcmp h f cond k a b => Sys2Proof.Machine.execVcmp h f cond k a b s
  | .vcvt h f d a b => Sys2Proof.Machine.execVcvt h f d a b s
  | .vbcast h f d a => Sys2Proof.Machine.execVbcast h f d a s
  | .vshl h f d a b => Sys2Proof.Machine.execVshl h f d a b s
  | .vshr h f d a b => Sys2Proof.Machine.execVshr h f d a b s
  | .vred h f d a op grp => Sys2Proof.Machine.execVred h f d a op grp s
  | .vscan h f d a op excl grp => Sys2Proof.Machine.execVscan h f d a op excl grp s
  | .mloadb h f r src => Sys2Proof.Machine.execMloadb h f r src s
  | .mpush h f r src => Sys2Proof.Machine.execMpush h f r src s
  | .mpushSc h r src => Sys2Proof.Machine.execMpushSc h r src s
  | .mloadbWide h f r src => Sys2Proof.Machine.execMloadbWide h f r src s
  | .mpushWide h f r src => Sys2Proof.Machine.execMpushWide h f r src s
  | .macc h r x pol allRows clr => Sys2Proof.Machine.execMacc h r x pol allRows clr s
  | .mdrain h f dest r x p toTile => Sys2Proof.Machine.execMdrain h f dest r x p toTile s
  | .trin h f v p => Sys2Proof.Machine.execTrin h f v p s
  | .trout h dest p toTile => Sys2Proof.Machine.execTrout h dest p toTile s
  | .trclr h => Sys2Proof.Machine.execTrclr h s
  | .stld h n e => Sys2Proof.Machine.execStld h n e s
  | .stlda h a half => Sys2Proof.Machine.execStlda h a half s
  | .cfgset h flags low => Sys2Proof.Machine.execCfgset h flags low s
  | .cfgclr h flags low => Sys2Proof.Machine.execCfgclr h flags low s
  | .cfgrd h d => Sys2Proof.Machine.execCfgrd h d s
  | .margin h a => Sys2Proof.Machine.execMargin h a s
  | .manchor h r allRows x a => Sys2Proof.Machine.execManchor h r allRows x a s
  | .hbound h a => Sys2Proof.Machine.execHbound h a s
  | .tmark h r x mode mk => Sys2Proof.Machine.execTmark h r x mode mk s
  | .tclr h => Sys2Proof.Machine.execTclr h s
  | .mset h mk a => Sys2Proof.Machine.execMset h mk a s
  | .mand h md ma mb => Sys2Proof.Machine.execMand h md ma mb s
  | .mor h md ma mb => Sys2Proof.Machine.execMor h md ma mb s
  | .mnot h md ma => Sys2Proof.Machine.execMnot h md ma s
  | .mmova h d mk => Sys2Proof.Machine.execMmova h d mk s
  | .retag h tile reg tag => Sys2Proof.Machine.execRetag h tile reg tag s
  | .cld h f v hnd row => Sys2Proof.Machine.execCld h f v hnd row s
  | .cst h v hnd row => Sys2Proof.Machine.execCst h v hnd row s
  | .cldU h f v hnd x => Sys2Proof.Machine.execCldU h f v hnd x s
  | .cstU h v hnd x => Sys2Proof.Machine.execCstU h v hnd x s
  | .cstM h v hnd x => Sys2Proof.Machine.execCstM h v hnd x s
  | .cldFar h f v hnd x => Sys2Proof.Machine.execCldFar h f v hnd x s
  | .catom h k v hnd x => Sys2Proof.Machine.execCatom h k v hnd x s
  | .catomFar h k v hnd x => Sys2Proof.Machine.execCatomFar h k v hnd x s
  | .swsend h d v q a => Sys2Proof.Machine.execSwsend h d v q a s
  | .swrecv h d v q a => Sys2Proof.Machine.execSwrecv h d v q a s
  | .swbcast h d v q cl => Sys2Proof.Machine.execSwbcast h d v q cl s
  | .kernelBundleIssue c => Sys2Proof.Machine.execKernelBundleIssue c s
  | .secondaryFairnessIssue c => Sys2Proof.Machine.execSecondaryFairnessIssue c s
  | .bankRequestService x => Sys2Proof.Machine.execBankRequestService x s
  | .landingArrival c cl => Sys2Proof.Machine.execLandingArrival c cl s
  | .kernelEnd c pos => Sys2Proof.Machine.execKernelEnd c pos s
  | .remoteAtomicMessage c => Sys2Proof.Machine.execRemoteAtomicMessage c s
  | .commandIssue c entry => Sys2Proof.Machine.execCommandIssue c entry s
  | .engineElementAccess c entry => Sys2Proof.Machine.execEngineElementAccess c entry s
  | .wellheadScatterAdd c entry => Sys2Proof.Machine.execWellheadScatterAdd c entry s
  | .commandCompletion c entry => Sys2Proof.Machine.execCommandCompletion c entry s
  | .acqCommandTimeout c => Sys2Proof.Machine.execAcqCommandTimeout c s
  | .taskPickup c => Sys2Proof.Machine.execTaskPickup c s
  | .monitorReread c n => Sys2Proof.Machine.execMonitorReread c n s
  | .sweepReread c => Sys2Proof.Machine.execSweepReread c s
  | .userInterruptDelivery c => Sys2Proof.Machine.execUserInterruptDelivery c s
  | .asyncTrapTake c => Sys2Proof.Machine.execAsyncTrapTake c s
  | .childMerge p child => Sys2Proof.Machine.execChildMerge p child s
  | .poisonedMerge p child => Sys2Proof.Machine.execPoisonedMerge p child s
  | .launchAdmission p prefer => Sys2Proof.Machine.execLaunchAdmission p prefer s
  | .quantumEnd p rec_ team prefer => Sys2Proof.Machine.execQuantumEnd p rec_ team prefer s
  | .swapIn p rec_ team prefer => Sys2Proof.Machine.execSwapIn p rec_ team prefer s
  | .illegalInstruction c word => Sys2Proof.Machine.execIllegalInstruction c word s
  | .fetchFault c => Sys2Proof.Machine.execFetchFault c s
  | .xstoreStage p => Sys2Proof.Machine.execXstoreStage p s
  | .transactionDecision p id => Sys2Proof.Machine.execTransactionDecision p id s
  | .transactionApply p id => Sys2Proof.Machine.execTransactionApply p id s
  | .hostMemoryReply r bytes failed => Sys2Proof.Machine.execHostMemoryReply r bytes failed s
  | .swapOut p rec_ team => Sys2Proof.Machine.execSwapOut p rec_ team s
  | .codeObjectLoad p obj base frames meetings => Sys2Proof.Machine.execCodeObjectLoad p obj base frames meetings s
  | .resultWriteback c pos => Sys2Proof.Machine.execResultWriteback c pos s
  | .mpushContribution c pos => Sys2Proof.Machine.execMpushContribution c pos s
  | .landingDelivery c pos => Sys2Proof.Machine.execLandingDelivery c pos s
  | .lockHoldEnd c pos => Sys2Proof.Machine.execLockHoldEnd c pos s
  | .wellheadSlotService d x => Sys2Proof.Machine.execWellheadSlotService d x s
  | .activationAlert d wellhead bank => Sys2Proof.Machine.execActivationAlert d wellhead bank s
  | .scrubRead d block found => Sys2Proof.Machine.execScrubRead d block found s
  | .scrubPeriodEnd d => Sys2Proof.Machine.execScrubPeriodEnd d s
  | .guardbandStep d up pathMargin => Sys2Proof.Machine.execGuardbandStep d up pathMargin s
  | .freezeTelemetryReport c => Sys2Proof.Machine.execFreezeTelemetryReport c s
  | .linkReplayReport l => Sys2Proof.Machine.execLinkReplayReport l s
  | .powerLimitFreeze d => Sys2Proof.Machine.execPowerLimitFreeze d s
  | .thermalFreeze d => Sys2Proof.Machine.execThermalFreeze d s
  | .thermalStop d => Sys2Proof.Machine.execThermalStop d s
  | .registerEccError c x => Sys2Proof.Machine.execRegisterEccError c x s
  | .readRequestFlit f => Sys2Proof.Machine.execReadRequestFlit f s
  | .readDataFlit f => Sys2Proof.Machine.execReadDataFlit f s
  | .writeFlit f => Sys2Proof.Machine.execWriteFlit f s
  | .atomicMessageFlit f => Sys2Proof.Machine.execAtomicMessageFlit f s
  | .flushMarkerFlit f => Sys2Proof.Machine.execFlushMarkerFlit f s
  | .acknowledgeFlit f => Sys2Proof.Machine.execAcknowledgeFlit f s
  | .replayRequestFlit f => Sys2Proof.Machine.execReplayRequestFlit f s
  | .flushMarkerGather d => Sys2Proof.Machine.execFlushMarkerGather d s
  | .fabricPacketReceive k => Sys2Proof.Machine.execFabricPacketReceive k s
  | .packetRetransmit peer path seq => Sys2Proof.Machine.execPacketRetransmit peer path seq s
  | .transactionTimeout p id => Sys2Proof.Machine.execTransactionTimeout p id s
  | .decisionQuery p id => Sys2Proof.Machine.execDecisionQuery p id s
  | .hostMemoryRead off len => Sys2Proof.Machine.execHostMemoryRead off len s
  | .hostMemoryWrite off bytes => Sys2Proof.Machine.execHostMemoryWrite off bytes s
  | .hostDoorbell p va => Sys2Proof.Machine.execHostDoorbell p va s
  | .hostIstatClear v => Sys2Proof.Machine.execHostIstatClear v s
  | .hostReset => Sys2Proof.Machine.execHostReset s
  | .powerOn => Sys2Proof.Machine.execPowerOn s
  | .recoveryImageCommit => Sys2Proof.Machine.execRecoveryImageCommit s
  | .attestationRequest => Sys2Proof.Machine.execAttestationRequest s
  | .hostPmapWrite n v => Sys2Proof.Machine.execHostPmapWrite n v s
  | .kstatFlagClear c v => Sys2Proof.Machine.execKstatFlagClear c v s
  | .cerrClear c v => Sys2Proof.Machine.execCerrClear c v s
  | .uctlWrite c v => Sys2Proof.Machine.execUctlWrite c v s
  | .kbWrite c n v => Sys2Proof.Machine.execKbWrite c n v s
  | .pmapWrite c n v => Sys2Proof.Machine.execPmapWrite c n v s
  | .tlbInvalidate c v => Sys2Proof.Machine.execTlbInvalidate c v s
  | .snapStart c v => Sys2Proof.Machine.execSnapStart c v s
  | .poolWrite c v => Sys2Proof.Machine.execPoolWrite c v s
  | .cgroupWrite c v => Sys2Proof.Machine.execCgroupWrite c v s
  | .refctlWrite c v => Sys2Proof.Machine.execRefctlWrite c v s
  | .resumeEngineCommand c v => Sys2Proof.Machine.execResumeEngineCommand c v s
  | .resumeMerge c v => Sys2Proof.Machine.execResumeMerge c v s
  | .resumeKernelEngine c v => Sys2Proof.Machine.execResumeKernelEngine c v s
  | .retryTeamSave c v => Sys2Proof.Machine.execRetryTeamSave c v s
  | .releaseHaltedTeam c v => Sys2Proof.Machine.execReleaseHaltedTeam c v s
  | .registerWrite c n v => Sys2Proof.Machine.execRegisterWrite c n v s
  | .flitCrcFailure l seq => Sys2Proof.Machine.execFlitCrcFailure l seq s

end Sys2Proof.Machine
end

