-- ==== Sys2Proof/Machine/Place.lean ====
section
/-! DEFINITION. A program placed for the next step (log 8). -/

namespace Sys2Proof.Machine

/-- Where a placed program lies, when core 0 does not stand at an address that it can fetch from; the record of its task, and
the range table that maps device memory to itself. -/
def placePc : DWord := 0x10000
def placeRecord : Addr := 0x20000
def placeTable : Nat := 0x800

/-- A core with nothing that would keep it from its next instruction. -/
def CoreSt.unblocked (k : CoreSt) : CoreSt :=
  { k with
    halt := none, pending := [], uie := false, hold := none, holdSys := none, hostHold := none, swapHalted := false, stale := []
    comparators := Bank.fill (0, 0)
    running := if k.running.isNone && !k.sys then some placeRecord else k.running }

/-- Whether core 0 can fetch `n` words from its pc on. -/
def State.canFetch (s : State) : Nat → DWord → Bool
  | 0, _ => true
  | n + 1, va => (match s.fetchWord 0 va with
    | .ok _ => true
    | .error _ => false) && s.canFetch n (va + 4)

/-- Device memory mapped to itself, readable, writable and executable, and core 0 at the place of a program. -/
def State.mapPlace (s : State) : State :=
  let s := { s with
    mem := s.mem.write placeTable (bytesLE 8 0xF000000000000000 ++ bytesLE 8 Config.deviceMemEnd ++ bytesLE 8 0 ++ bytesLE 8 0)
    pmaps := State.reset.pmaps
    poison := s.poison.filter fun b => b != blockOf placePc.toNat }
  (s.modPart 0 fun p => { p with rtbase := BitVec.ofNat 64 placeTable }).modCore 0 fun k => { k with pc := placePc, tlb := [] }

/-- Words written where core 0 fetches them. -/
def State.putWords (s : State) (va : DWord) : List Word → State
  | [] => s
  | w :: ws =>
    match s.resolve 0 false va.toNat .fetch with
    | .ok (pa, _) => ({ s with mem := s.mem.writeNat pa 4 w.toNat }).putWords (va + 4) ws
    | .error _ => s

/-- The next step is core 0's, before the instruction that the words spell. -/
def State.placeProgram (s : State) (ws : List Word) : State :=
  let s := { (s.modCore 0 CoreSt.unblocked) with agenda := [.control 0], host := { s.host with recovery := false } }
  let s := if (s.partOf 0).isSome && s.canFetch 4 (s.core 0).pc then s else s.mapPlace
  s.putWords (s.core 0).pc ws

/-- The words of a table word, the first in bits 31:0, what lies above `nbits` zero. -/
def tableWords (nbits w : Nat) : List Word :=
  let x : BitVec 128 := BitVec.ofNat 128 (w % 2 ^ nbits)
  [x.extractLsb' 0 32, x.extractLsb' 32 32, x.extractLsb' 64 32, x.extractLsb' 96 32]

end Sys2Proof.Machine
end

