-- ==== Sys2Proof/Machine/Step.lean ====
section
/-! DEFINITION. One step of the device, and a program placed for its next step. -/

namespace Sys2Proof.Machine

/-- One step: the turn that is due, taken. -/
def step (s : State) : Host.Outcome State Fault Refusal :=
  let (t, s) := s.nextTurn
  let s := s.passTime
  match t with
  | .control c =>
    let s := { s with active := c }
    match s.move c with
    | .idle => .next s
    | .breakpoint n => .next (s.breakAt n)
    | .run i => exec i (s.begin_ i)
  | .event i => if isEvent i then exec i s else .next s
  | .tlbFill c engine va => .next (s.tlbFill c engine va.toNat)
  | .tlbDrop c engine n => .next (s.tlbDrop c engine n)

/-- Core 0 stands before the instruction in the low `nbits` bits of `w` (the bits above zero, up to four words), which lies in
memory at its pc, mapped by entry 0 of the range table; its task is the one that a launch would have started (log 8). -/
def State.withFetchWord (s : State) (nbits w : Nat) : State := s.placeProgram (tableWords nbits w)

end Sys2Proof.Machine
end

