-- ==== Sys2Proof/Safety.lean ====
section
/-! DEFINITION. What counts as a safe run and the words that the statements use: a step that answers a next state, the canonical
form of every memory, and what an instruction may leave changed. -/

namespace Sys2Proof.Machine

/-- A meaning answers a next state, and that state has a property. A run is safe when every step does. -/
def Answers (o : Out) (P : State → Prop) : Prop := ∃ t, o = .next t ∧ P t

/-! ### Canonical form -/

/-- Device memory, the recovery buffer, every core's Cistern and every Cistern in a saved context are in canonical form, so that equal contents are
equal data. -/
def MemInv (s : State) : Prop :=
  s.mem.wf = true ∧ s.host.recBuf.wf = true ∧ (∀ c, (s.core c).cistern.wf = true) ∧
    ∀ t ∈ s.teams, ∀ x ∈ t.saved, x.core.cistern.wf = true

/-! ### Frames -/

/-- `t` is `s` but for what core `c` holds. -/
def OnlyCore (c : CoreId) (s t : State) : Prop :=
  (∀ x, x ≠ c → t.core x = s.core x) ∧ { t with cores := s.cores } = s

/-- A core with its pc and its two register sets blanked. -/
def CoreSt.sansRegs (k : CoreSt) : CoreSt := { k with pc := 0, g := Bank.fill 0, shadowG := Bank.fill 0 }

/-- `t` is `s` after an instruction whose one result `x` went to gd: gd holds it (g0 stays zero), every other register of
either set and everything else is as before, and pc is at the next word. -/
structure State.Wrote (s : State) (d : BitVec 5) (x : DWord) (t : State) : Prop where
  dest : d ≠ 0 → t.g d = x
  zero : t.g 0 = 0
  regs : ∀ r, r ≠ d → t.g r = s.g r
  /-- The task's own set changes only at gd, and not at all where gd names the shadow set. -/
  own : ∀ r, r ≠ d ∨ (s.cur.inHandler = true ∧ shadowed d = true) → t.cur.g.read r = s.cur.g.read r
  /-- The shadow set changes only at gd in a user handler. -/
  shadow : ∀ j : BitVec 3, (s.cur.inHandler = false ∨ d ≠ (3 : BitVec 2) ++ j) → t.cur.shadowG.read j = s.cur.shadowG.read j
  pc : t.cur.pc = s.cur.pc + 4
  rest : t.cur.sansRegs = s.cur.sansRegs
  others : OnlyCore s.active s t

/-- `t` is `s` with the active core's pc at `x` and nothing else changed. -/
def State.Went (s : State) (x : DWord) (t : State) : Prop :=
  t.cur = { s.cur with pc := x } ∧ OnlyCore s.active s t

/-- The active core runs a task or stands idle in task mode, and has a handler for its traps. -/
def State.CanTrap (s : State) : Prop := s.cur.sys = false ∧ s.cur.tvec ≠ 0

/-- `t` is `s` after a trap of core `c` from task mode: the trap registers as R358 fills them (`cause` is the whole of
csr.tcause), system mode, pc at the handler, and nothing else changed. -/
def State.TrappedOn (s : State) (c : CoreId) (cause : DWord) (epc val : DWord) (t : State) : Prop :=
  t.core c = { s.core c with
    tepc := epc, tcause := cause, tval := val, tval2 := 0, trec := (s.core c).record
    sys := true, idle := (s.core c).running.isNone, pc := (s.core c).tvec } ∧ OnlyCore c s t

/-- `t` is `s` after a synchronous trap of the active core. -/
def State.Trapped (s : State) (cause : Byte) (epc val : DWord) (t : State) : Prop :=
  s.TrappedOn s.active (zext cause) epc val t

/-- What a conditional branch by `off` words answers: at the next word when its condition does not hold, whatever the target; at
the target when it holds; and ADDRESS at the branch, with nothing else changed, when the target has any of bits 63:48 set. -/
def State.Branched (s : State) (cond : Prop) (off : BitVec 16) (o : Out) : Prop :=
  let t : DWord := s.cur.pc + off.signExtend 64 * 4
  (¬cond → Answers o (s.Went (s.cur.pc + 4))) ∧
  (cond → t.toNat < 2 ^ 48 → Answers o (s.Went t)) ∧
  (cond → 2 ^ 48 ≤ t.toNat → s.CanTrap → Answers o (s.Trapped cAddress s.cur.pc t))

/-! ### Accesses of a control core -/

/-- Every byte of device memory outside `n` bytes at `pa` reads in `t` as in `s`. -/
def SameOutside (pa n : Nat) (s t : State) : Prop := ∀ a, ¬(pa ≤ a ∧ a < pa + n) → t.mem.readByte a = s.mem.readByte a

/-- `t` is `u` but for device memory, the sizes of its compressed blocks, the re-read marks of the cores' monitors, the code words that
the active core may still fetch as they stood (R121), and pc, which has moved to the next word: no register, side-band bit or other
state has changed. -/
def OnlyStored (u t : State) : Prop :=
  { t with mem := u.mem, sizes := u.sizes, cores := u.cores } = u ∧
  (∀ c, c ≠ u.active → { t.core c with monitors := (u.core c).monitors } = u.core c) ∧
  { t.cur with monitors := u.cur.monitors, stale := u.cur.stale } = { u.cur with pc := u.cur.pc + 4 }

/-- The faults that every access of `n` bytes at `va` may take before it reaches memory: ADDRESS, ALIGN and what the translation
refuses, each precise and without any other effect (R105). -/
def State.AccessFaults (s : State) (i : Instr) (va : DWord) (n : Nat) (acc : Access) (host : Bool) : Prop :=
  (2 ^ 48 ≤ va.toNat → s.CanTrap → Answers (exec i s) (s.Trapped cAddress s.cur.pc va)) ∧
  (va.toNat < 2 ^ 48 → va.toNat % n ≠ 0 → s.CanTrap → Answers (exec i s) (s.Trapped cAlign s.cur.pc va)) ∧
  (∀ e, s.reach va n acc host = .error e → s.CanTrap → Answers (exec i s) (s.Trapped e.cause s.cur.pc e.val))

/-- A load of `n` bytes at `va` into gd: its faults, POISON last; its value, zero-extended, with nothing in memory changed; and a
load of host memory, which holds the core until the host answers (R105, R116, R417). -/
def State.Loads (s : State) (i : Instr) (d : BitVec 5) (va : DWord) (n : Nat) : Prop :=
  s.AccessFaults i va n .load true ∧
  ∀ pa u, s.reach va n .load true = .ok (pa, u) →
    (isHost pa = false → s.poisoned pa n = true → s.CanTrap → Answers (exec i s) (s.Trapped cPoison s.cur.pc va)) ∧
    (isHost pa = false → s.poisoned pa n = false → Answers (exec i s) (s.Wrote d (BitVec.ofNat 64 (s.mem.readNat pa n)))) ∧
    (isHost pa = true → Answers (exec i s) fun t =>
      t.cur = { s.cur with hostHold := some ⟨pa, n, d, va⟩ } ∧
      t.host.out = s.host.out ++ [.readRequest (.control s.active) (pa - Config.hostMemBase) n] ∧
      OnlyCore s.active s { t with host := s.host })

/-- A store of the low `n` bytes of `x` at `va`: its faults, TAG last; the bytes it writes, at the address that the translation
gives, and no other; `u` is the device after the copy of a snapped unit, and `s` itself without one; a store to host memory goes to
the host and writes nothing else (R105, R117, R275, R417). -/
def State.Stores (s : State) (i : Instr) (va : DWord) (n : Nat) (x : DWord) : Prop :=
  s.AccessFaults i va n .store true ∧
  ∀ pa u, s.reach va n .store true = .ok (pa, u) →
    ((∀ p m, s.partOf s.active = some p → s.lookup p va.toNat = some m → m.snapped = false) → u = s) ∧
    (u.tagged pa = true → s.CanTrap → Answers (exec i s) (s.Trapped cTag s.cur.pc va)) ∧
    (u.tagged pa = false → inDevice pa n = true → Answers (exec i s) fun t =>
      (∀ j, j < n → t.mem.readByte (pa + j) = (x >>> (8 * j)).setWidth 8) ∧ SameOutside pa n u t ∧ OnlyStored u t) ∧
    (u.tagged pa = false → isHost pa = true → Answers (exec i s) fun t =>
      t.host = { u.host with out := u.host.out ++
        [.store (pa - Config.hostMemBase) ((List.range n).map fun j => (x >>> (8 * j)).setWidth 8)] } ∧
      u.Went (u.cur.pc + 4) { t with host := u.host })

/-- The new value of an AMO of a width (R267). -/
def amoNew {w : Nat} (op : BitVec 3) (old x cmp : BitVec w) : BitVec w :=
  match op with
  | 0#3 => old + x
  | 1#3 => if x.slt old then x else old
  | 2#3 => if old.slt x then x else old
  | 3#3 => old ||| x
  | 4#3 => old &&& x
  | 5#3 => old ^^^ x
  | 6#3 => x
  | _ => if old = cmp then x else old

/-- `t` has `x` in gd, every other visible register as in `s`, g0 zero, and pc at the next word; what else has changed is said
beside. -/
structure State.Gave (s : State) (d : BitVec 5) (x : DWord) (t : State) : Prop where
  dest : d ≠ 0 → t.g d = x
  zero : t.g 0 = 0
  regs : ∀ r, r ≠ d → t.g r = s.g r
  pc : t.cur.pc = s.cur.pc + 4

/-- The active core's task has suspended: the core runs no task and takes no notification, and its registers are untouched. -/
def State.Slept (s t : State) : Prop :=
  t.cur.running = none ∧ t.cur.uie = false ∧ t.cur.g = s.cur.g ∧ t.cur.shadowG = s.cur.shadowG

/-- `t` is `s` with core `c` changed to `k` and nothing else. -/
def State.Became (s : State) (c : CoreId) (k : CoreSt) (t : State) : Prop := t.core c = k ∧ OnlyCore c s t

/-- The address of an M-form operand: the base and the offset in units of the access (R116). -/
def mForm (base : DWord) (off : BitVec 12) (n : Nat) : DWord := base + off.signExtend 64 * BitVec.ofNat 64 n

/-! ### Commands -/

/-- The command table of a core, less the translations that its commands made at their issue: a write to a snapped unit drops those
of the unit (R270, R275). -/
def CoreSt.commands (k : CoreSt) : List Cmd := k.table.map fun x => { x with windows := [] }

/-- The value of an address word at entry (R88): a register and a displacement, or a place relative to word 0. -/
def State.addressOf (s : State) (w : Word) : DWord :=
  if w.getLsbD 31 then s.g (w.extractLsb' 26 5) + (w.extractLsb' 0 26).signExtend 64
  else s.cur.pc + (w.extractLsb' 0 31).signExtend 64

/-- The value of a counter field at entry (R89). -/
def State.counterOf (s : State) (f : BitVec 15) : DWord :=
  if f.getLsbD 14 then s.g (f.extractLsb' 0 5) else s.cur.pc + (f.extractLsb' 0 14).signExtend 64 * 8

/-- The address words and the counter field of a command. -/
def addressWords : Instr → List Word × List (BitVec 15)
  | .shape _ a _ n => ([a], [n])
  | .sload _ _ _ _ a _ _ n => ([a], [n])
  | .sstore _ _ _ a _ _ n => ([a], [n])
  | .sgather _ _ a _ _ _ n => ([a], [n])
  | .sscatter _ _ a _ _ _ n => ([a], [n])
  | .sscadd _ _ _ a _ _ _ n => ([a], [n])
  | .scopy _ _ dst src => ([dst, src], [])
  | .scan _ _ _ _ _ _ _ _ n => ([], [n])
  | .kernel _ _ _ _ _ _ _ _ _ n => ([], [n])
  | .kswap _ _ a n => ([a], [n])
  | .collAllred _ a _ _ _ n => ([a], [n])
  | .collRedsc _ a _ _ _ n => ([a], [n])
  | .collAllgat _ a _ _ _ n => ([a], [n])
  | .collBcast _ a _ _ _ n => ([a], [n])
  | .smark _ n => ([], [n])
  | _ => ([], [])

/-! ### Kernels -/

/-- No result or request of a kernel falls due now. -/
def KernelRun.Clear (r : KernelRun) : Prop := (∀ f ∈ r.inflight, r.kc < f.due) ∧ ∀ f ∈ r.far, r.kc < f.due

/-- Kernel `r` is the core's only one and can issue a bundle: it has not ended, nothing stops the core or its engine, and nothing of it
falls due now. -/
structure CoreSt.Issues (k : CoreSt) (r : KernelRun) : Prop where
  run : k.run .primary = some r
  alone : k.run .secondary = none
  going : k.eng.stopped = none
  standing : k.halt = none
  live : r.live = true
  clear : r.Clear

def State.Issues (s : State) (r : KernelRun) : Prop := s.cur.Issues r

/-- What a slot operation of core `c`'s primary kernel sees in the cc that begins now. -/
def State.slotCtxOn (s : State) (c : CoreId) (r : KernelRun) (h : SlotHdr) : Ctx :=
  ⟨(s.core c).tick, r, .primary, h, c, s.peers c, (s.core c).eng.rateNow .primary⟩
def State.slotCtx (s : State) (r : KernelRun) (h : SlotHdr) : Ctx := s.slotCtxOn s.active r h

def State.cluster (s : State) (c : ClusterId) : Cluster := s.cur.clusters.read c

/-- Nothing of the device but the active core has changed, and of that core nothing that a control program holds but its semaphores and
kernel barriers, which are those of `k`. -/
def State.OnlyEngineBut (s : State) (k : CoreSt) (t : State) : Prop :=
  OnlyCore s.active s t ∧ t.cur.g = s.cur.g ∧ t.cur.shadowG = s.cur.shadowG ∧ t.cur.pc = s.cur.pc ∧ t.cur.sem = k.sem ∧
    t.cur.kb = k.kb ∧ t.cur.table = s.cur.table ∧ t.cur.handles = s.cur.handles

/-- Nothing of the device but the active core has changed, and of that core nothing that a control program holds. -/
def State.OnlyEngine (s t : State) : Prop := s.OnlyEngineBut s.cur t

/-- The active core after what an operation does to the kernel barriers at its issue: one that retires then makes the arrival of each
cluster whose guard is true, and a later one makes none yet (R237). -/
def State.arrivedAt (s : State) (h : SlotHdr) (lat : Nat) : CoreSt :=
  match lat, h.arrive with
  | 0, some n => (allClusters.filter fun c => (s.cluster c).pred h.guard).foldl (fun k _ => (k.arrive n).1) s.cur
  | _, _ => s.cur

/-- A cluster's scalar guard is true; it has at least one lane on (R95). -/
def State.guardOn (s : State) (h : SlotHdr) (c : ClusterId) : Prop := (s.cluster c).pred h.guard = true
def State.laneOn (s : State) (h : SlotHdr) (c : ClusterId) : Prop := (s.cluster c).lanePred h.guard ≠ 0

/-- `t` is `s` after kernel `r` issued a bundle whose operation gives each cluster in `on` the results `ws`, `lat` kc later, and
its arrival with them, at the issue itself where `lat` is 0; no other cluster gets any, no request is sent, and outside of loops the next
bundle follows. -/
def State.Results (s : State) (r : KernelRun) (h : SlotHdr) (on : ClusterId → Prop) (lat : Nat) (ws : ClusterId → List RegWrite)
    (t : State) : Prop :=
  s.OnlyEngineBut (s.arrivedAt h lat) t ∧ t.cur.cistern = s.cur.cistern ∧ t.cur.kcycle = r.kc + 1 ∧
  ∃ r', t.cur.run .primary = some r' ∧ r'.kc = r.kc + 1 ∧ r'.ending = none ∧ r'.far = r.far ∧
    (r.loops = [] → r'.idx = r.idx + 1) ∧
    ∀ f, f ∈ r'.inflight ↔ f ∈ r.inflight ∨ ∃ c, on c ∧
      ((∃ w ∈ ws c, f = ⟨s.cur.tick.eng.stamp h.slot.num, r.kc + lat, c, w, none⟩) ∨
        ∃ n, lat ≠ 0 ∧ h.arrive = some n ∧ f = ⟨s.cur.tick.eng.stamp h.slot.num, r.kc + lat, c, .nothing, some n⟩)

/-- `Results`, and outside of loops the operation writes nothing of a cluster at its issue but status bits of cfg (R154). -/
def State.Flags (s : State) (r : KernelRun) (h : SlotHdr) (on : ClusterId → Prop) (lat : Nat) (ws : ClusterId → List RegWrite)
    (t : State) : Prop :=
  s.Results r h on lat ws t ∧
    (r.loops = [] → ∀ c, { (t.cur.clusters.read c) with cfg := 0 } = { (s.cur.clusters.read c) with cfg := 0 })

/-- `Results`, and outside of loops nothing of a cluster is written at the issue itself. -/
def State.Gives (s : State) (r : KernelRun) (h : SlotHdr) (on : ClusterId → Prop) (lat : Nat) (ws : ClusterId → List RegWrite)
    (t : State) : Prop :=
  s.Results r h on lat ws t ∧ (r.loops = [] → t.cur.clusters = s.cur.clusters)

/-- No request of the active core is under way. -/
def State.quietFar (s : State) (r : KernelRun) : Prop :=
  r.far = [] ∧ s.cur.heldRemotes = [] ∧ (∀ c, ∀ m ∈ (s.core c).remoteQ, m.src ≠ s.active) ∧ ∀ m ∈ s.meshMsgs, m.src ≠ s.active

/-- Kernel `r` ends at a fault in the slot: no operation of the bundle takes effect. No register, predicate or unit of a cluster, no byte of
a Cistern, no result in flight, no request and no position of the kernel has changed; and but for the snapshot that csr.ksnap asks for
(R369) nothing has outside the engine, memory and the other cores among it (R130). -/
def State.KernelFaulted (s : State) (r : KernelRun) (kind : Byte) (slot : BitVec 3) (t : State) : Prop :=
  t.cur.clusters = s.cur.clusters ∧
  (∀ c, (t.core c).cistern = (s.core c).cistern ∧ (t.core c).remoteQ = (s.core c).remoteQ) ∧ t.meshMsgs = s.meshMsgs ∧
  (s.cur.ksnap = 0 ∨ r.merge.isSome = true → s.OnlyEngine t) ∧
  ∃ r', t.cur.run .primary = some r' ∧ r'.ending = some (.fault kind 0 slot (BitVec.ofNat 12 r.idx)) ∧ r'.kc = r.kc ∧
    r'.inflight = r.inflight ∧ r'.far = r.far ∧ r'.loops = r.loops ∧ r'.idx = r.idx

end Sys2Proof.Machine
end

