-- ==== Sys2Proof/Certificates/Slice0/Obligations.lean ====
section
/-! DEFINITION. The statements for the provers. Each docstring names the rule of spec/ that it formalises. -/

open Sys2Proof Sys2Proof.Machine

/-! ### Encodings -/

/-- Words that the spec writes out, with the instructions they stand for (R85, R106, R110, R113, R117, R122, R124, R125, R240,
R267, R298, R299, R334, R361). -/
def Obligations.WrittenWordsDecode : Prop :=
  decode 0x04E00001 0 0 0 = .ok (.addi 7 0 1) ∧
  decode 0x49090001 0 0 0 = .ok (.ldW 8 9 0 1) ∧
  decode 0x98063804 0 0 0 = .ok (.waitge ⟨0, 1, 0⟩ 6 7) ∧
  decode 0x00842800 0 0 0 = .ok (.add 4 4 5) ∧
  decode 0x00E43025 0 0 0 = .ok (.divu 7 4 6) ∧
  decode 0x28401234 0 0 0 = .ok (.lui 2 0x1234) ∧
  decode 0x5CE90001 0 0 0 = .ok (.stD 7 9 0 1) ∧
  decode 0x7043FFFD 0 0 0 = .ok (.bltu 2 3 0xFFFD) ∧
  decode 0x7C010000 0 0 0 = .ok (.jalr 0 1 0) ∧
  decode 0xC0A00000 0 0 0 = .ok (.csrr 5 0) ∧
  decode 0xA0863C00 0 0 0 = .ok (.qpush 4 6 7) ∧
  decode 0xB4821800 0 0 0 = .ok (.amoD 0 ⟨0, 0, 0⟩ 4 2 3) ∧
  decode 0xA840FFFF 0 0 0 = .ok (.fence 2 0xFFFF) ∧
  decode 0xB8A60321 0 0 0 = .ok (.ldAcq 3 2 1 5 6) ∧
  decode 0xC4000012 0 0 0 = .ok (.trap 0x12) ∧
  decode 0xC8000000 0 0 0 = .ok .sysret

/-- Every control-core instruction with an encoding is what the decoder reads from its word, and every stream command from its four
words, with every operand (R80 to R93). -/
def Obligations.ControlRoundTrip : Prop :=
  (∀ (i : Instr) (w w1 w2 w3 : Word), i.wf = true → encodeWord i = some w → decode w w1 w2 w3 = .ok i) ∧
  ∀ (i : Instr) (w0 w1 w2 w3 : Word), i.wf = true → encodeCommand i = some (w0, w1, w2, w3) → decode w0 w1 w2 w3 = .ok i

/-- Every slot operation with an encoding is what the decoder reads, alone, from the bundle that holds it alone, with every
operand and its long immediate or extension word (R94 to R103, R439). -/
def Obligations.SlotsRoundTrip : Prop :=
  ∀ (i : Instr) (c : SlotCode), i.wf = true → slotCode i = some c → decodeBundle (soloBundle c) = .ok [i]

/-- What the decoder reads from four words has an encoding, and those words are it: no two instructions share a word and no
reserved field is dropped (R81 to R93). -/
def Obligations.DecodedIsEncoded : Prop :=
  ∀ (w0 w1 w2 w3 : Word) (i : Instr), decode w0 w1 w2 w3 = .ok i →
    i.wf = true ∧ (encodeWord i = some w0 ∨ encodeCommand i = some (w0, w1, w2, w3))

/-! ### The step -/

/-- A control core's turn with an instruction at its pc, and nothing due before it, is that instruction's meaning, after the
passing of time and of SKIP (R86, R104, R105, R377). `passTime` advances csr.cycle by a free amount (log 2) and takes the turn from
the agenda (log 1). -/
def Obligations.StepRunsDecoded : Prop :=
  ∀ (s : State) (c : CoreId) (rest : List Turn) (i : Instr),
    s.agenda = .control c :: rest →
    let s' : State := { ({ s with agenda := rest } : State).passTime with active := c }
    s'.trapDue c = false → s'.notifDue c = none → s'.ready c = true → s'.breakDue c = none → s'.fetched c = .instr i →
    step s = exec i (s'.begin_ i)

/-- No state stops the device: every step answers a next state, for every instruction, event and operand (R85, R105, R130,
R313: what cannot be done is a trap or a fault that the machine takes). -/
def Obligations.StepAlwaysNext : Prop := ∀ s : State, Answers (step s) fun _ => True

/-- A core that has stopped executes nothing, and in recovery state no core does: its turn passes time and changes nothing else
(R358, R421). -/
def Obligations.StoppedCoresStay : Prop :=
  ∀ (s : State) (c : CoreId) (rest : List Turn), s.agenda = .control c :: rest →
    ((s.core c).halt ≠ none ∨ s.host.recovery = true) →
    step s = .next { ({ s with agenda := rest } : State).passTime with active := c }

/-- Device memory and every Cistern, those of saved contexts among them, keep their canonical form in every step (the model's own
form of memory). -/
def Obligations.MemoryFormKept : Prop := ∀ s t : State, MemInv s → step s = .next t → MemInv t

/-- Memory has its canonical form after reset. -/
def Obligations.ResetMemoryForm : Prop := MemInv State.reset

/-! ### Registers and constants of the control core -/

/-- The register-register operations: gd receives the result modulo 2^64, shifts use bits 5:0 of gb, comparisons give 1 or 0, and
nothing else changes but pc (R106, R107, R109). -/
def Obligations.RegisterResults : Prop :=
  ∀ (s : State) (d a b : BitVec 5),
    Answers (exec (.add d a b) s) (s.Wrote d (s.g a + s.g b)) ∧
    Answers (exec (.sub d a b) s) (s.Wrote d (s.g a - s.g b)) ∧
    Answers (exec (.and d a b) s) (s.Wrote d (s.g a &&& s.g b)) ∧
    Answers (exec (.or d a b) s) (s.Wrote d (s.g a ||| s.g b)) ∧
    Answers (exec (.xor d a b) s) (s.Wrote d (s.g a ^^^ s.g b)) ∧
    Answers (exec (.sll d a b) s) (s.Wrote d (s.g a <<< ((s.g b).toNat % 64))) ∧
    Answers (exec (.srl d a b) s) (s.Wrote d (s.g a >>> ((s.g b).toNat % 64))) ∧
    Answers (exec (.sra d a b) s) (s.Wrote d ((s.g a).sshiftRight ((s.g b).toNat % 64))) ∧
    Answers (exec (.slt d a b) s) (s.Wrote d (if (s.g a).toInt < (s.g b).toInt then 1 else 0)) ∧
    Answers (exec (.sltu d a b) s) (s.Wrote d (if (s.g a).toNat < (s.g b).toNat then 1 else 0)) ∧
    Answers (exec (.min d a b) s) (s.Wrote d (BitVec.ofInt 64 (min (s.g a).toInt (s.g b).toInt))) ∧
    Answers (exec (.max d a b) s) (s.Wrote d (BitVec.ofInt 64 (max (s.g a).toInt (s.g b).toInt))) ∧
    Answers (exec (.minu d a b) s) (s.Wrote d (BitVec.ofNat 64 (min (s.g a).toNat (s.g b).toNat))) ∧
    Answers (exec (.maxu d a b) s) (s.Wrote d (BitVec.ofNat 64 (max (s.g a).toNat (s.g b).toNat))) ∧
    Answers (exec (.sextB d a) s) (s.Wrote d (((s.g a).setWidth 8).signExtend 64)) ∧
    Answers (exec (.sextH d a) s) (s.Wrote d (((s.g a).setWidth 16).signExtend 64)) ∧
    Answers (exec (.sextW d a) s) (s.Wrote d (((s.g a).setWidth 32).signExtend 64)) ∧
    Answers (exec (.mul d a b) s) (s.Wrote d (BitVec.ofInt 64 ((s.g a).toInt * (s.g b).toInt))) ∧
    Answers (exec (.mulh d a b) s) (s.Wrote d (BitVec.ofInt 64 ((s.g a).toInt * (s.g b).toInt / 2 ^ 64))) ∧
    Answers (exec (.mulhu d a b) s) (s.Wrote d (BitVec.ofNat 64 ((s.g a).toNat * (s.g b).toNat / 2 ^ 64)))

/-- Division truncates toward zero, the remainder has the dividend's sign, and the two edges give what R110 lists; nothing else
changes but pc. -/
def Obligations.DivisionResults : Prop :=
  ∀ (s : State) (d a b : BitVec 5),
    let x := s.g a
    let y := s.g b
    Answers (exec (.div d a b) s) (s.Wrote d (if y = 0 then -1 else BitVec.ofInt 64 (x.toInt.tdiv y.toInt))) ∧
    Answers (exec (.rem d a b) s) (s.Wrote d (if y = 0 then x else BitVec.ofInt 64 (x.toInt - y.toInt * x.toInt.tdiv y.toInt))) ∧
    Answers (exec (.divu d a b) s) (s.Wrote d (if y = 0 then -1 else BitVec.ofNat 64 (x.toNat / y.toNat))) ∧
    Answers (exec (.remu d a b) s) (s.Wrote d (if y = 0 then x else BitVec.ofNat 64 (x.toNat % y.toNat))) ∧
    (x = 0x8000000000000000 → y = -1 →
      Answers (exec (.div d a b) s) (s.Wrote d 0x8000000000000000) ∧ Answers (exec (.rem d a b) s) (s.Wrote d 0))

/-- The immediate operations and the constant builders: the extension of each immediate, the result modulo 2^64, and nothing else
changed but pc (R111 to R113). -/
def Obligations.ImmediateResults : Prop :=
  ∀ (s : State) (d a : BitVec 5) (imm : BitVec 16) (n : BitVec 6),
    Answers (exec (.addi d a imm) s) (s.Wrote d (s.g a + imm.signExtend 64)) ∧
    Answers (exec (.andi d a imm) s) (s.Wrote d (s.g a &&& imm.setWidth 64)) ∧
    Answers (exec (.ori d a imm) s) (s.Wrote d (s.g a ||| imm.setWidth 64)) ∧
    Answers (exec (.xori d a imm) s) (s.Wrote d (s.g a ^^^ imm.setWidth 64)) ∧
    Answers (exec (.slti d a imm) s) (s.Wrote d (if (s.g a).toInt < imm.toInt then 1 else 0)) ∧
    Answers (exec (.sltiu d a imm) s) (s.Wrote d (if (s.g a).toNat < (imm.signExtend 64).toNat then 1 else 0)) ∧
    Answers (exec (.slli d a n) s) (s.Wrote d (s.g a <<< n.toNat)) ∧
    Answers (exec (.srli d a n) s) (s.Wrote d (s.g a >>> n.toNat)) ∧
    Answers (exec (.srai d a n) s) (s.Wrote d ((s.g a).sshiftRight n.toNat)) ∧
    Answers (exec (.lui d imm) s) (s.Wrote d (imm.signExtend 64 <<< 16)) ∧
    Answers (exec (.shori d a imm) s) (s.Wrote d ((s.g a <<< 16) ||| imm.setWidth 64))

/-! ### Branches and jumps -/

/-- The six branches: taken when the condition holds, else on to the next word without a fault; a taken branch to a target
outside the 48-bit space takes ADDRESS at the branch and changes nothing else (R105, R122). -/
def Obligations.BranchResults : Prop :=
  ∀ (s : State) (a b : BitVec 5) (off : BitVec 16),
    s.Branched (s.g a = s.g b) off (exec (.beq a b off) s) ∧
    s.Branched (s.g a ≠ s.g b) off (exec (.bne a b off) s) ∧
    s.Branched ((s.g a).toInt < (s.g b).toInt) off (exec (.blt a b off) s) ∧
    s.Branched ((s.g b).toInt ≤ (s.g a).toInt) off (exec (.bge a b off) s) ∧
    s.Branched ((s.g a).toNat < (s.g b).toNat) off (exec (.bltu a b off) s) ∧
    s.Branched ((s.g b).toNat ≤ (s.g a).toNat) off (exec (.bgeu a b off) s)

/-- JAL links in g1 and JALR in gd, both read their target before they write, and JALR's target must be a word's address; an
unaligned one takes ALIGN, and a target of either outside the 48-bit space takes ADDRESS before it, with nothing written (R105, R107,
R123, R124). -/
def Obligations.JumpResults : Prop :=
  ∀ (s : State) (d a : BitVec 5) (imm : BitVec 16) (off : BitVec 26),
    (let t : DWord := s.cur.pc + off.signExtend 64 * 4
     t.toNat < 2 ^ 48 → Answers (exec (.jal off) s) fun u =>
      u.cur.pc = t ∧ u.g 1 = s.cur.pc + 4 ∧ (∀ r, r ≠ 1 → u.g r = s.g r) ∧ u.cur.sansRegs = s.cur.sansRegs ∧
        OnlyCore s.active s u) ∧
    (let t : DWord := s.cur.pc + off.signExtend 64 * 4
     2 ^ 48 ≤ t.toNat → s.CanTrap → Answers (exec (.jal off) s) (s.Trapped cAddress s.cur.pc t)) ∧
    (let t : DWord := s.g a + imm.signExtend 64 * 4
     2 ^ 48 ≤ t.toNat → s.CanTrap → Answers (exec (.jalr d a imm) s) (s.Trapped cAddress s.cur.pc t)) ∧
    (let t : DWord := s.g a + imm.signExtend 64 * 4
     t.toNat < 2 ^ 48 → (t.toNat % 4 = 0 → Answers (exec (.jalr d a imm) s) fun u =>
        u.cur.pc = t ∧ (d ≠ 0 → u.g d = s.cur.pc + 4) ∧ u.g 0 = 0 ∧ (∀ r, r ≠ d → u.g r = s.g r) ∧
          u.cur.sansRegs = s.cur.sansRegs ∧ OnlyCore s.active s u) ∧
      (t.toNat % 4 ≠ 0 → s.CanTrap → Answers (exec (.jalr d a imm) s) (s.Trapped cAlign s.cur.pc t)))

/-! ### Memory accesses of the control core -/

/-- The four loads and LD.ACQ of every size (R105, R116, R299, R417). -/
def Obligations.LoadResults : Prop :=
  ∀ (s : State) (d a : BitVec 5) (cls : BitVec 4) (off : BitVec 12) (size sc : BitVec 2),
    s.Loads (.ldB d a cls off) d (mForm (s.g a) off 1) 1 ∧
    s.Loads (.ldH d a cls off) d (mForm (s.g a) off 2) 2 ∧
    s.Loads (.ldW d a cls off) d (mForm (s.g a) off 4) 4 ∧
    s.Loads (.ldD d a cls off) d (mForm (s.g a) off 8) 8 ∧
    s.Loads (.ldAcq size cls sc d a) d (s.g a) (2 ^ size.toNat)

/-- The four stores and ST.REL of every size, to device and to host memory (R105, R117, R275, R299, R417). -/
def Obligations.StoreResults : Prop :=
  ∀ (s : State) (src a : BitVec 5) (cls : BitVec 4) (off : BitVec 12) (size sc : BitVec 2),
    s.Stores (.stB src a cls off) (mForm (s.g a) off 1) 1 (s.g src) ∧
    s.Stores (.stH src a cls off) (mForm (s.g a) off 2) 2 (s.g src) ∧
    s.Stores (.stW src a cls off) (mForm (s.g a) off 4) 4 (s.g src) ∧
    s.Stores (.stD src a cls off) (mForm (s.g a) off 8) 8 (s.g src) ∧
    s.Stores (.stRel size cls sc a src) (s.g a) (2 ^ size.toNat) (s.g src)

/-- An AMO gives gd the old word, zero-extended, and the word its new value, by the operation of its func; it writes no other
byte. A live tagged block takes TAG and a poisoned one POISON, with nothing written (R105, R267). -/
def Obligations.AmoResults : Prop :=
  ∀ (s u : State) (op : BitVec 3) (sfx : SyncSfx) (d a b : BitVec 5) (pa : Nat),
    (s.reach (s.g a) 4 .store = .ok (pa, u) →
      (u.tagged pa = true → s.CanTrap → Answers (exec (.amoW op sfx d a b) s) (s.Trapped cTag s.cur.pc (s.g a))) ∧
      (u.tagged pa = false → u.poisoned pa 4 = true → s.CanTrap →
        Answers (exec (.amoW op sfx d a b) s) (s.Trapped cPoison s.cur.pc (s.g a))) ∧
      (u.tagged pa = false → u.poisoned pa 4 = false → inDevice pa 4 = true →
        let old := BitVec.ofNat 32 (u.mem.readNat pa 4)
        Answers (exec (.amoW op sfx d a b) s) fun t =>
          s.Gave d (old.setWidth 64) t ∧
          BitVec.ofNat 32 (t.mem.readNat pa 4) = amoNew op old ((s.g b).setWidth 32) ((s.g d).setWidth 32) ∧
          SameOutside pa 4 u t ∧ t.tags = u.tags ∧ t.poison = u.poison)) ∧
    (s.reach (s.g a) 8 .store = .ok (pa, u) →
      (u.tagged pa = true → s.CanTrap → Answers (exec (.amoD op sfx d a b) s) (s.Trapped cTag s.cur.pc (s.g a))) ∧
      (u.tagged pa = false → u.poisoned pa 8 = true → s.CanTrap →
        Answers (exec (.amoD op sfx d a b) s) (s.Trapped cPoison s.cur.pc (s.g a))) ∧
      (u.tagged pa = false → u.poisoned pa 8 = false → inDevice pa 8 = true →
        let old := BitVec.ofNat 64 (u.mem.readNat pa 8)
        Answers (exec (.amoD op sfx d a b) s) fun t =>
          s.Gave d old t ∧ BitVec.ofNat 64 (t.mem.readNat pa 8) = amoNew op old (s.g b) (s.g d) ∧
          SameOutside pa 8 u t ∧ t.tags = u.tags ∧ t.poison = u.poison))

/-! ### CSRs -/

/-- CSRR reads every task CSR in any mode and the trap CSRs in system mode, and changes nothing but gd and pc (R31, R125, R212,
R332, R335, R356, R425); csr.epoch reads the die's epoch, which no reset fixes (R278; log 2). -/
def Obligations.CsrReads : Prop :=
  ∀ (s : State) (d : BitVec 5),
    (Answers (exec (.csrr d 0x000) s) (s.Wrote d (BitVec.ofNat 64 s.cycle)) ∧
      Answers (exec (.csrr d 0x001) s) (s.Wrote d (BitVec.ofNat 64 s.cur.kcycle)) ∧
      Answers (exec (.csrr d 0x002) s) (s.Wrote d (BitVec.ofNat 64 s.cur.freeze)) ∧
      Answers (exec (.csrr d 0x003) s) (s.Wrote d ((Config.epoch s.resets (dieOf s.active)).setWidth 64)) ∧
      Answers (exec (.csrr d 0x010) s) (s.Wrote d s.cur.wid) ∧
      Answers (exec (.csrr d 0x011) s) (s.Wrote d s.cur.widths) ∧
      Answers (exec (.csrr d 0x012) s) (s.Wrote d s.cur.record) ∧
      Answers (exec (.csrr d 0x013) s) (s.Wrote d (s.active.setWidth 64)) ∧
      Answers (exec (.csrr d 0x020) s) (s.Wrote d s.cur.kstat) ∧
      Answers (exec (.csrr d 0x021) s) (s.Wrote d s.cur.kstat2) ∧
      Answers (exec (.csrr d 0x022) s) (s.Wrote d s.cur.cerr) ∧
      Answers (exec (.csrr d 0x030) s) (s.Wrote d s.cur.uvec) ∧
      Answers (exec (.csrr d 0x031) s) (s.Wrote d s.cur.uepc) ∧
      Answers (exec (.csrr d 0x032) s) (s.Wrote d s.cur.ucause) ∧
      Answers (exec (.csrr d 0x033) s) (s.Wrote d s.cur.ustat) ∧
      Answers (exec (.csrr d 0x034) s) (s.Wrote d ((0 : BitVec 61) ++ BitVec.ofBool s.cur.ovf ++ BitVec.ofBool s.cur.inHandler ++
        BitVec.ofBool s.cur.uie)) ∧
      Answers (exec (.csrr d 0x050) s) (s.Wrote d (s.cur.discidx.setWidth 64)) ∧
      Answers (exec (.csrr d 0x051) s) (s.Wrote d (match Config.discovery[s.cur.discidx.toNat]? with
        | some (k, v) => k ++ v
        | none => 0)) ∧
      (∀ n : BitVec 2, Answers (exec (.csrr d ((0x010 : BitVec 10) ++ n)) s) (s.Wrote d (s.cur.kb.read n))) ∧
      (∀ n : BitVec 8, n ≠ 0 →
        Answers (exec (.csrr d ((1 : BitVec 4) ++ n)) s) (s.Wrote d ((s.cur.sem.read n).setWidth 64)))) ∧
    (s.cur.sys = true →
      Answers (exec (.csrr d 0x810) s) (s.Wrote d s.cur.tvec) ∧
      Answers (exec (.csrr d 0x811) s) (s.Wrote d s.cur.tepc) ∧
      Answers (exec (.csrr d 0x812) s) (s.Wrote d s.cur.tcause) ∧
      Answers (exec (.csrr d 0x813) s) (s.Wrote d s.cur.tval) ∧
      Answers (exec (.csrr d 0x814) s) (s.Wrote d s.cur.tval2) ∧
      Answers (exec (.csrr d 0x815) s) (s.Wrote d s.cur.tscratch) ∧
      Answers (exec (.csrr d 0x816) s) (s.Wrote d ((0 : BitVec 60) ++ BitVec.ofBool s.cur.idle ++ BitVec.ofBool s.cur.skip ++
        BitVec.ofBool (!s.cur.pending.isEmpty) ++ BitVec.ofBool s.cur.sys)) ∧
      Answers (exec (.csrr d 0x817) s) (s.Wrote d s.cur.trec) ∧
      Answers (exec (.csrr d 0x81B) s) (s.Wrote d s.cur.ksnap))

/-- CSRW, CSRS and CSRC write their new value to a CSR and give gd the old one; on csr.kstat and csr.cerr all three clear exactly
the W1C bits at which ga holds 1 (R125, R126, R332). -/
def Obligations.CsrWrites : Prop :=
  ∀ (s : State) (d a : BitVec 5),
    (let old := s.cur.uepc
     let to_ (x : DWord) : State := s.modCur fun k => { k with uepc := x }
     Answers (exec (.csrw d a 0x031) s) ((to_ (s.g a)).Wrote d old) ∧
     Answers (exec (.csrs d a 0x031) s) ((to_ (old ||| s.g a)).Wrote d old) ∧
     Answers (exec (.csrc d a 0x031) s) ((to_ (old &&& ~~~(s.g a))).Wrote d old)) ∧
    (s.cur.sys = true →
      let old := s.cur.tscratch
      let to_ (x : DWord) : State := s.modCur fun k => { k with tscratch := x }
      Answers (exec (.csrw d a 0x815) s) ((to_ (s.g a)).Wrote d old) ∧
      Answers (exec (.csrs d a 0x815) s) ((to_ (old ||| s.g a)).Wrote d old) ∧
      Answers (exec (.csrc d a 0x815) s) ((to_ (old &&& ~~~(s.g a))).Wrote d old)) ∧
    (let u : State := s.modCur fun k => { k with kstat := k.kstat &&& ~~~(s.g a &&& 0x000000FE00010000) }
     Answers (exec (.csrw d a 0x020) s) (u.Wrote d s.cur.kstat) ∧
     Answers (exec (.csrs d a 0x020) s) (u.Wrote d s.cur.kstat) ∧
     Answers (exec (.csrc d a 0x020) s) (u.Wrote d s.cur.kstat)) ∧
    (let u : State := s.modCur fun k => { k with cerr := k.cerr &&& ~~~(s.g a) }
     Answers (exec (.csrw d a 0x022) s) (u.Wrote d s.cur.cerr) ∧
     Answers (exec (.csrs d a 0x022) s) (u.Wrote d s.cur.cerr) ∧
     Answers (exec (.csrc d a 0x022) s) (u.Wrote d s.cur.cerr))

/-- A CSR instruction takes ILLEGAL with its own word, and has no effect, when its number names no CSR, when a task names a system
CSR, and when a form that writes names a CSR whose access is RO (R127). -/
def Obligations.CsrRefusals : Prop :=
  ∀ (s : State) (d a : BitVec 5) (n : BitVec 12), s.CanTrap →
    ((csrOf n = none ∨ n.getLsbD 11 = true) →
      Answers (exec (.csrr d n) s) (s.Trapped cIllegal s.cur.pc (wordOf (.csrr d n)))) ∧
    ((csrOf n = none ∨ n.getLsbD 11 = true ∨ ∃ r, csrOf n = some r ∧ s.csrReadOnly s.active r = true) →
      Answers (exec (.csrw d a n) s) (s.Trapped cIllegal s.cur.pc (wordOf (.csrw d a n))) ∧
      Answers (exec (.csrs d a n) s) (s.Trapped cIllegal s.cur.pc (wordOf (.csrs d a n))) ∧
      Answers (exec (.csrc d a n) s) (s.Trapped cIllegal s.cur.pc (wordOf (.csrc d a n))))

/-- The core registers whose writes act on their own: W1C bits clear, csr.uctl takes UIE and clears OVF, a kernel barrier's count
and rounds restart; nothing else changes (R126, R236, R332, R335). -/
def Obligations.CoreRegisterEffects : Prop :=
  ∀ (s : State) (c : CoreId) (n : BitVec 2) (v : DWord),
    Answers (exec (.kstatFlagClear c v) s)
      (s.Became c { s.core c with kstat := (s.core c).kstat &&& ~~~(v &&& 0x000000FE00010000) }) ∧
    Answers (exec (.cerrClear c v) s) (s.Became c { s.core c with cerr := (s.core c).cerr &&& ~~~v }) ∧
    Answers (exec (.uctlWrite c v) s)
      (s.Became c { s.core c with uie := v.getLsbD 0, ovf := (s.core c).ovf && !v.getLsbD 2 }) ∧
    Answers (exec (.kbWrite c n v) s)
      (s.Became c { s.core c with kb := (s.core c).kb.write n ((v.setWidth 32).setWidth 64) }) ∧
    Answers (exec (.registerWrite c 0x815 v) s) (s.Became c { s.core c with tscratch := v })

/-- The partition's and the die's registers: a partition map is written only where every core stays in one partition and no bound
core leaves its own; csr.pool, csr.cgroup and csr.refctl take their address and control bits, csr.pool without another effect when
nothing is held, and csr.cgroup starts every group's sequences again; csr.tlbinv with bit 0 drops every entry of the partition from
every TLB; and a SNAP descriptor whose address is no multiple of 64 reports 1 (R248, R273, R274, R276, R283, R400, R405). That such an
address breaks the descriptor's layout, and that a csr.cgroup write drops the partition's collectives under way, are the model's readings,
log 92. -/
def Obligations.PartitionRegisterEffects : Prop :=
  ∀ (s : State) (c : CoreId) (p : PartId) (n : BitVec 5) (v : DWord), s.partOf c = some p →
    (p = 0 → s.pmapsOk (s.pmaps.write n v) = true →
      Answers (exec (.pmapWrite c n v) s) fun t => t = { s with pmaps := s.pmaps.write n v }) ∧
    (s.pmapsOk (s.pmaps.write n v) = false → Answers (exec (.pmapWrite c n v) s) fun t => t = s) ∧
    Answers (exec (.poolWrite c v) s) (fun t => (t.part p).pool = v &&& 0x0000FFFFFFFFFFC0 ∧
      ((s.part p).held = [] → (∀ x ∈ s.teams, x.part = p → ∀ i ∈ x.tasks, i.held = false) → t.mem = s.mem)) ∧
    Answers (exec (.cgroupWrite c v) s) (fun t =>
      (t.part p).cgroup = v &&& 0x0000FFFFFFFFFC00 ∧ (∀ x ∈ t.colls, x.part ≠ p) ∧
      ∀ d ∈ s.coresOf p, (t.core d).groupSeq = Bank.fill 0 ∧ (t.core d).txnSeq = Bank.fill 0) ∧
    Answers (exec (.refctlWrite c v) s) (fun t =>
      (t.dies.read (dieOf c)).refctl = v &&& 0xFFFFFFFF0000010F ∧ ∀ d, d ≠ dieOf c → t.dies.read d = s.dies.read d) ∧
    (v.getLsbD 0 = true → Answers (exec (.tlbInvalidate c v) s) fun t =>
      ∀ d, ∀ e ∈ (t.core d).tlb ++ (t.core d).engTlb, e.part = p → ¬(e.base < Config.addrSpace ∧ 0 < e.limit)) ∧
    (v.toNat % 64 ≠ 0 → Answers (exec (.snapStart c v) s) fun t => (t.part p).snapStatus = 1)

/-- SNAP with a descriptor that names one valid range and no page: the range's entry gets S and the generation, each present entry of
its overlay gets shared, no other byte changes, no TLB keeps an entry of the partition, and the status reads 0; a live block takes no such
write (R235, R274; that the descriptor and the tables lie at physical addresses is the model's reading, log 37, and so is that an entry
which holds poison stays as it is, log 65). -/
def Obligations.SnapMarksRange : Prop :=
  ∀ (s : State) (c : CoreId) (p : PartId) (v : DWord) (i : Nat) (g : Byte),
    let w (j : Nat) : DWord := s.read64 (v.toNat + 8 * j)
    let table := (s.part p).rangeTable
    let e := s.rangeEntry p i
    let n := if e.ok = true then (e.limit - e.base) / 65536 else 0
    s.partOf c = some p → v.toNat % 64 = 0 → inDevice v.toNat 64 = true → s.poisoned v.toNat 64 = false → w 0 = g.setWidth 64 → i < 64 → w 1 = 1 <<< i →
    w 2 = 0 → w 3 = 0 → w 4 = 0 → w 5 = 0 → w 6 = 0 → w 7 = 0 → table ≠ 0 → inDevice table 2048 = true →
    e.valid = true → e.snapped = false → e.overlay % 8 = 0 → inDevice e.overlay (8 * n) = true →
    (e.overlay + 8 * n ≤ table + 32 * i ∨ table + 32 * i + 8 ≤ e.overlay) →
    Answers (exec (.snapStart c v) s) fun t =>
      (t.part p).snapStatus = 0 ∧
      (s.poisoned (table + 32 * i) 32 = true → t.mem = s.mem) ∧
      (s.poisoned (table + 32 * i) 32 = false →
        t.read64 (table + 32 * i) = (if s.tagged (table + 32 * i) then e.w0
          else (e.w0 &&& ~~~(0x00FF000000000000 : DWord)) ||| (g.setWidth 64 <<< 48) ||| (1 <<< 59)) ∧
        ∀ j, j < n → let a := e.overlay + 8 * j
          let o := s.read64 a
          t.read64 a = if o.getLsbD 0 && !s.tagged a && !s.poisoned a 8 then o ||| 2 else o) ∧
      (∀ a, ¬(table + 32 * i ≤ a ∧ a < table + 32 * i + 8) → ¬(e.overlay ≤ a ∧ a < e.overlay + 8 * n) →
        t.mem.readByte a = s.mem.readByte a) ∧
      ∀ d, ∀ e ∈ (t.core d).tlb ++ (t.core d).engTlb, e.part = p → ¬(e.base < Config.addrSpace ∧ 0 < e.limit)

/-- csr.resume: kind 1 lets a stopped command go on from its faulting element, kind 2 parks a merge-faulted child again and, when its turn
stands, goes on with its merge, kind 3 lets a stopped engine run, its first bundles not matched, kind 4 tries a halted team's save again
and starts the teams that then fit, kind 5 releases a halted team; kinds 1 and 3 to 5 only for a core of the writer's partition (R363,
R364, R374). -/
def Obligations.ResumeEffects : Prop :=
  ∀ (s : State) (c : CoreId) (v : DWord),
    let d : CoreId := v.setWidth 7
    let e : BitVec 6 := v.extractLsb' 8 6
    (s.inPart c d = false →
      Answers (exec (.resumeEngineCommand c v) s) (fun t => t = s) ∧
      Answers (exec (.resumeKernelEngine c v) s) (fun t => t = s) ∧
      Answers (exec (.retryTeamSave c v) s) (fun t => t = s) ∧
      Answers (exec (.releaseHaltedTeam c v) s) (fun t => t = s)) ∧
    (s.inPart c d = true →
      (∀ x sub va, (s.core d).cmd e = some x → x.phase = .stopped sub va →
        Answers (exec (.resumeEngineCommand c v) s) fun t =>
          (t.core d).cmd e = some { x with phase := if x.pos < x.total then .active else .moved } ∧ OnlyCore d s t) ∧
      (let eng := (s.core d).eng
       let spare (r : KernelRun) : KernelRun := { r with skipMatch := true }
       ((s.core d).swapHalted = false → eng.stopped.isSome = true →
        Answers (exec (.resumeKernelEngine c v) s) (s.Became d { s.core d with
          eng := { eng with stopped := none, primary := eng.primary.map spare, secondary := eng.secondary.map spare } })) ∧
       (eng.stopped = none → Answers (exec (.resumeKernelEngine c v) s) fun t => t = s)) ∧
      (∀ t, s.teamOf d = some t → t.halted = true →
        Answers (exec (.releaseHaltedTeam c v) s) fun u =>
          ∀ k ∈ t.bound, (u.core k).swapHalted = false ∧ (u.core k).eng.stopped ≠ some 1) ∧
      (∀ t s', s.teamOf d = some t → t.halted = true → s.swapTeam t = (s', true) →
        Answers (exec (.retryTeamSave c v) s) fun u => u = s'.startTeams t.part [] s'.teams.length)) ∧
    (∀ p, s.partOf c = some p →
      let r : Addr := v.setWidth 48
      (s.taskState p r ≠ stMergeFaulted → Answers (exec (.resumeMerge c v) s) fun t => t = s) ∧
      (∀ i, s.taskState p r = stMergeFaulted → s.taskInfo p r = some i → i.view = ((s.recWord p r 4).setWidth 3).toNat →
        Answers (exec (.resumeMerge c v) s) fun t =>
          let u := (s.setTaskState p r stParked).modTask p r fun i => { i with held := false }
          t = if u.isTurn p r = true ∧ u.mergeBad p r = false then u.mergeViews p r 8 else u))

/-! ### Traps, returns and system software -/

/-- TRAP raises SOFT with its code and the address after it; BRK raises BREAK with 0xFF; a trap fills the trap registers, sets SYS,
and goes to csr.tvec, and changes no register and no memory (R357, R358, R361, R378). -/
def Obligations.TrapEntry : Prop :=
  ∀ (s : State) (code : BitVec 16), s.CanTrap →
    Answers (exec (.trap code) s) (s.Trapped cSoft (s.cur.pc + 4) (code.setWidth 64)) ∧
    Answers (exec .brk s) (s.Trapped cBreak s.cur.pc 0xFF)

/-- A trap without a handler stops the core, and so does a synchronous trap in system mode, the trap registers of the first trap
kept; the host sees bit 16 of hl.istat (R358, R359, R418). -/
def Obligations.StoppingTraps : Prop :=
  ∀ (s : State) (code : BitVec 16),
    (s.cur.sys = false → s.cur.tvec = 0 → Answers (exec (.trap code) s) fun t =>
      t.cur.halt = some 1 ∧ t.cur.tepc = s.cur.pc + 4 ∧ t.host.istat.getLsbD 16 = true) ∧
    (s.cur.sys = true → Answers (exec (.trap code) s) fun t =>
      t.cur.halt = some 2 ∧ t.cur.tepc = s.cur.tepc ∧ t.cur.tcause = s.cur.tcause ∧ t.cur.tval = s.cur.tval ∧
        t.host.istat.getLsbD 16 = true) ∧
    (s.cur.sys = true → Answers (exec .brk s) fun t => t.cur.halt = some 2 ∧ t.cur.tepc = s.cur.tepc)

/-- SYSRET goes to csr.tepc in task mode, or back to idle; a pending trap is then taken at once, the oldest first, at the address
it returned to (R359, R360). -/
def Obligations.SysretReturns : Prop :=
  ∀ s : State, s.cur.sys = true →
    (s.cur.idle = false → s.cur.pending = [] → Answers (exec .sysret s)
      (s.Became s.active { s.cur with sys := false, pc := s.cur.tepc, skipArmed := s.cur.skip })) ∧
    (s.cur.idle = true → s.cur.pending = [] → Answers (exec .sysret s)
      (s.Became s.active { s.cur with sys := false, idle := false })) ∧
    (∀ x xs, s.cur.idle = false → s.cur.pending = x :: xs → s.cur.tvec ≠ 0 → s.cur.running.isSome = true →
      Answers (exec .sysret s) fun t =>
        t.cur.sys = true ∧ t.cur.pending = xs ∧ t.cur.tepc = s.cur.tepc ∧ t.cur.pc = s.cur.tvec ∧ t.cur.tval = x.val ∧
          t.cur.tval2 = x.val2 ∧ t.cur.trec = x.task.setWidth 64 ∧ OnlyCore s.active s t)

/-- In task mode SYSRET, DBRD, DBWR, UNTAG, SNAPSAVE and SNAPLOAD take ILLEGAL with their own word and no effect (R360, R368, R379,
R381). -/
def Obligations.PrivilegedRefused : Prop :=
  ∀ (s : State) (d a b : BitVec 5), s.CanTrap →
    Answers (exec .sysret s) (s.Trapped cIllegal s.cur.pc 0xC8000000) ∧
    Answers (exec (.dbrd d a) s) (s.Trapped cIllegal s.cur.pc (wordOf (.dbrd d a))) ∧
    Answers (exec (.dbwr a b) s) (s.Trapped cIllegal s.cur.pc (wordOf (.dbwr a b))) ∧
    Answers (exec (.untag a) s) (s.Trapped cIllegal s.cur.pc (wordOf (.untag a))) ∧
    Answers (exec (.snapsave d a b) s) (s.Trapped cIllegal s.cur.pc (wordOf (.snapsave d a b))) ∧
    Answers (exec (.snapload d a b) s) (s.Trapped cIllegal s.cur.pc (wordOf (.snapload d a b)))

/-- A notification enters the user handler: the address at which the task stands, the command's word and its status are kept, IN is
set, the shadow set takes the values of g24 to g31; UIRET returns to csr.uepc and clears IN, and outside a handler it takes ILLEGAL
(R335 to R337). -/
def Obligations.UserHandler : Prop :=
  (∀ (s : State) (c : CoreId) (n : Notif), s.notifDue c = some n →
    Answers (exec (.userInterruptDelivery c) s) fun t =>
      (t.core c).pc = (s.core c).uvec ∧ (t.core c).uepc = (s.core c).pc ∧ (t.core c).ucause = n.word0 ∧
        (t.core c).ustat = n.stat ∧ (t.core c).inHandler = true ∧ (t.core c).notifs = (s.core c).notifs.erase n ∧
        (∀ j : BitVec 3, (t.core c).shadowG.read j = (s.core c).g.read ((3 : BitVec 2) ++ j)) ∧ (t.core c).g = (s.core c).g ∧
        OnlyCore c s t) ∧
  (∀ s : State, (s.cur.inHandler = true →
      Answers (exec .uiret s) (s.Became s.active { s.cur with pc := s.cur.uepc, inHandler := false })) ∧
    (s.cur.inHandler = false → s.CanTrap → Answers (exec .uiret s) (s.Trapped cIllegal s.cur.pc (wordOf .uiret))))

/-- A due asynchronous trap is taken, the oldest first: the pc of the task, or 0 on an idle core, is kept, ASYNC is set in
csr.tcause, and BREAK sets SKIP. A word at pc that is no instruction takes ILLEGAL with that word, and a fetch that cannot be made
takes its fault; neither has another effect (R85, R105, R356, R357, R359, R377). -/
def Obligations.TurnTraps : Prop :=
  (∀ (s : State) (c : CoreId) (x : Trap) (xs : List Trap), s.trapDue c = true → (s.core c).pending = x :: xs →
    (s.core c).tvec ≠ 0 → Answers (exec (.asyncTrapTake c) s) fun t =>
      (t.core c).pending = xs ∧ (t.core c).sys = true ∧ (t.core c).pc = (s.core c).tvec ∧
        (t.core c).tepc = (if (s.core c).running.isSome then (s.core c).pc else 0) ∧
        (t.core c).tcause.extractLsb' 0 8 = x.cause ∧ (t.core c).tcause.getLsbD 8 = true ∧ (t.core c).tval = x.val ∧
        (t.core c).tval2 = x.val2 ∧ (t.core c).trec = x.task.setWidth 64 ∧
        (t.core c).idle = (s.core c).running.isNone ∧ (t.core c).skip = ((s.core c).skip || x.cause == cBreak) ∧
        OnlyCore c s t) ∧
  ∀ (s : State) (c : CoreId), s.ready c = true → (s.core c).sys = false → (s.core c).tvec ≠ 0 →
    (∀ w : Word, s.fetched c = .illegal w → Answers (exec (.illegalInstruction c w) s)
      (s.TrappedOn c (zext cIllegal) (s.core c).pc (w.setWidth 64))) ∧
    (∀ e : Refused, s.fetched c = .fault e → Answers (exec (.fetchFault c) s)
      (s.TrappedOn c (zext e.cause) (s.core c).pc e.val))

/-- In system mode DBRD reads and DBWR writes a word of a comparator, less the bits that R376 leaves reserved in it and, by its kind,
in the pair's second word; UNTAG clears the poison bit of the block at ga that has no snapped unit (R376, R379, R381). -/
def Obligations.DebugWords : Prop :=
  ∀ (s : State) (d a b : BitVec 5) (n : BitVec 3) (second : Bool), s.cur.sys = true →
    let old := s.cur.comparators.read n
    let w0 : DWord := if second then old.1 else s.g b &&& 0xC000FFFFFFFFFFC0
    let w1 : DWord := if second then s.g b else old.2
    (debugTarget (s.g a) = some (.comparator n second) →
      Answers (exec (.dbrd d a) s)
        (s.Wrote d (if second then old.2 else old.1)) ∧
      Answers (exec (.dbwr a b) s) (s.Became s.active { s.cur with
        comparators := s.cur.comparators.write n
          (w0, w1 &&& if w0.getLsbD 62 then 0x00000FFF00000FFF else 0x0000FFFFFFFFFFFC)
        pc := s.cur.pc + 4 })) ∧
    (∀ pa, (s.g a).toNat < 2 ^ 48 → (s.g a).toNat % 64 = 2 → s.reach (s.g a &&& ~~~(3 : DWord)) 64 .store = .ok (pa, s) →
      Answers (exec (.untag a) s) fun t =>
        s.Went (s.cur.pc + 4) { t with poison := s.poison } ∧ t.poison = removeNat (pa / 64) s.poison)

/-- SNAPSAVE stops the engine of a core of the partition, writes its image of kind 1 and reports in gd whether all of it was written;
while a LOCK at the target of one of the core's requests keeps it from completing, the core stands at the instruction (log 90).
SNAPLOAD puts an image over a stopped engine with the same kernels; each answers 1 for another core (R364, R368; a core number with
any of bits 63:7 set names no core, log 46). -/
def Obligations.SnapshotResults : Prop :=
  ∀ (s : State) (d a b : BitVec 5), s.cur.sys = true → (s.g b).toNat < 2 ^ 48 → (s.g b).toNat % 4096 = 0 →
    (s.snapTarget (s.g a) = none →
      Answers (exec (.snapsave d a b) s) (s.Wrote d 1) ∧ Answers (exec (.snapload d a b) s) (s.Wrote d 1)) ∧
    (∀ p, s.snapTarget (s.g a) = some p →
      let c : CoreId := (s.g a).setWidth 7
      (s.farSettles c = false → Answers (exec (.snapsave d a b) s) fun t => t = s) ∧
      (let u := s.stopEngine c 2
       let w := u.saveEngine p (s.g b).toNat (u.core c) c 2 (u.launchOf c) none
       s.farSettles c = true → Answers (exec (.snapsave d a b) s) fun t =>
        (t.core c).eng.stopped.isSome = true ∧ s.Gave d (if w.2 then 0 else 3) t ∧ t.mem = w.1.mem) ∧
      ((s.core c).eng.stopped = none → Answers (exec (.snapload d a b) s) (s.Wrote d 5)) ∧
      (∀ bs h, (s.core c).eng.stopped.isSome = true → s.readImage p (s.g b).toNat 1 = some h → sameKernels (s.core c) h = true →
        s.loadImage p (s.g b).toNat 1 = some bs →
        Answers (exec (.snapload d a b) s) fun t =>
          s.Gave d 0 t ∧ (c ≠ s.active → t.core c = (s.core c).restoreEngine bs) ∧ t.mem = s.mem))

/-! ### Tasks -/

/-- YIELD suspends the running task and puts it at the tail of its team's queue; in a user handler it takes ILLEGAL (R247, R338). In a
trap handler too, and with the registers of the suspended task left in place: the model's reading, logs 18 and 27. -/
def Obligations.YieldSuspends : Prop :=
  ∀ (s : State) (p : PartId) (r : Addr) (t : Team), s.self = some (p, r) → s.teamWith p r = some t →
    (s.cur.inHandler = false → Answers (exec .yield s) fun u =>
      s.Slept u ∧ ∃ t' ∈ u.teams, t'.launch = t.launch ∧ t'.index = t.index ∧ t'.ready = t.ready ++ [r]) ∧
    (s.cur.inHandler = true → s.CanTrap → Answers (exec .yield s) (s.Trapped cIllegal s.cur.pc 0x80000001))

/-- VIEW gives the lowest free index and writes its entry and the record's link to the table; VIEW.DROP gives the index it frees; with
unmerged children, with a full table, or with operands that R216 refuses, they take TASK with their own word and no effect, and POISON
where the task's area holds poison (R213, R216, R382; that VIEW.SMC with D = 0 is refused so is log 41, the area's poison log 65). -/
def Obligations.ViewResults : Prop :=
  ∀ (s : State) (op : BitVec 3) (d a b : BitVec 5) (p : PartId) (r : Addr), s.self = some (p, r) →
    (s.areaBad p r = true → s.CanTrap →
      Answers (exec (.view op d a b) s) (s.Trapped cPoison s.cur.pc (BitVec.ofNat 64 (s.frame p r + 256))) ∧
      Answers (exec (.viewDrop d a b) s) (s.Trapped cPoison s.cur.pc (BitVec.ofNat 64 (s.frame p r + 256)))) ∧
    (s.areaBad p r = false →
    (∀ i, (List.range 7).find? (fun i => !(s.viewEntry p r i).valid) = some i →
      (s.areaWord p r 1 = 0 → viewOk s.cur r op (s.g a) (s.g b) = true →
        Answers (exec (.view op d a b) s) fun t => s.Gave d (BitVec.ofNat 64 i) t ∧
          t.mem = ((s.setViewEntry p r i ⟨s.g a, s.g b, s.g a, 0xFFFFFF10 ||| op.setWidth 64⟩).linkViews p r).mem) ∧
      ((s.areaWord p r 1 ≠ 0 ∨ viewOk s.cur r op (s.g a) (s.g b) = false) → s.CanTrap →
        Answers (exec (.view op d a b) s) (s.Trapped cTask s.cur.pc (wordOf (.view op d a b))))) ∧
    ((∀ i, i < 7 → (s.viewEntry p r i).valid = true) → s.CanTrap →
      Answers (exec (.view op d a b) s) (s.Trapped cTask s.cur.pc (wordOf (.view op d a b)))) ∧
    (let i := (s.g a).toNat
     (i < 7 → (s.viewEntry p r i).valid = true → s.areaWord p r 1 = 0 →
        Answers (exec (.viewDrop d a b) s) fun t => s.Gave d (s.g a) t ∧
          t.mem = ((s.setViewEntry p r i { s.viewEntry p r i with ctl := putBit (s.viewEntry p r i).ctl 4 false }).unlinkViews
            p r).mem) ∧
     ((7 ≤ i ∨ (s.viewEntry p r i).valid = false ∨ s.areaWord p r 1 ≠ 0) → s.CanTrap →
        Answers (exec (.viewDrop d a b) s) (s.Trapped cTask s.cur.pc (wordOf (.viewDrop d a b))))))

/-- SPAWN checks its entry and its block, ADDRESS before ALIGN, and takes TASK at depth 255 or when the handle of a Cistern view is not
live and held; with a slot for every Cistern view and a block that can be written it stores the child's record, frame and copies,
gives gd the child's record, fills the copies in the Cistern and puts the child at the tail of its team's queue; with a full pool it
gives 0; a task's area that holds poison takes POISON (R217, R382; that the entry is named before the block is log 41, the area's
poison log 65). -/
def Obligations.SpawnResults : Prop :=
  ∀ (s : State) (d a b : BitVec 5),
    let entry := s.g a
    let vb := s.g b
    (2 ^ 48 ≤ entry.toNat → s.CanTrap → Answers (exec (.spawn d a b) s) (s.Trapped cAddress s.cur.pc entry)) ∧
    (entry.toNat < 2 ^ 48 → 2 ^ 48 ≤ vb.toNat → s.CanTrap → Answers (exec (.spawn d a b) s) (s.Trapped cAddress s.cur.pc vb)) ∧
    (entry.toNat < 2 ^ 48 → vb.toNat < 2 ^ 48 → entry.toNat % 4 ≠ 0 → s.CanTrap →
      Answers (exec (.spawn d a b) s) (s.Trapped cAlign s.cur.pc entry)) ∧
    (entry.toNat < 2 ^ 48 → vb.toNat < 2 ^ 48 → entry.toNat % 4 = 0 → vb.toNat % 64 ≠ 0 → s.CanTrap →
      Answers (exec (.spawn d a b) s) (s.Trapped cAlign s.cur.pc vb)) ∧
    (entry.toNat < 2 ^ 48 → vb.toNat < 2 ^ 48 → entry.toNat % 4 = 0 → vb.toNat % 64 = 0 →
      ∀ (p : PartId) (r : Addr) (t : Team), s.self = some (p, r) → s.teamWith p r = some t →
        let refused : Prop := s.cur.viewHandlesOk r (s.views p r) = false ∨ (s.recWord p r 7).extractLsb' 56 8 = 255
        (s.areaBad p r = true → s.CanTrap →
          Answers (exec (.spawn d a b) s) (s.Trapped cPoison s.cur.pc (BitVec.ofNat 64 (s.frame p r + 256)))) ∧
        (s.areaBad p r = false →
        (refused → s.CanTrap → Answers (exec (.spawn d a b) s) (s.Trapped cTask s.cur.pc (wordOf (.spawn d a b)))) ∧
        (¬refused → t.slotsFor s.active s.cur (s.views p r) [] = none → Answers (exec (.spawn d a b) s) (s.Wrote d 0)) ∧
        (∀ slots, ¬refused → t.slotsFor s.active s.cur (s.views p r) [] = some slots →
          let es := childEntries (s.views p r) slots (vb.toNat + 576)
          let bytes := s.childBytes p r entry (vb.setWidth 48) d es
          (s.views p r = [] → bytes.length = 576 ∧ bytes = childRecord (s.recWord p r 0) (s.recWord p r 1) entry (vb.setWidth 48) r
            ((s.areaWord p r 0).setWidth 48) ((s.recWord p r 7).extractLsb' 56 8 + 1) false false s.active ++ childFrame s.cur d []) ∧
          (∀ e, s.storeBlocks vb.toNat (bytes.length / 64) bytes = .error e → s.CanTrap →
            Answers (exec (.spawn d a b) s) (s.Trapped e.cause s.cur.pc e.val)) ∧
          (∀ u, s.storeBlocks vb.toNat (bytes.length / 64) bytes = .ok u → Answers (exec (.spawn d a b) s) fun v =>
            s.Gave d vb v ∧ v.cur.cistern = (u.cur.fillCopies es).cistern ∧
              ∃ t' ∈ v.teams, t'.launch = t.launch ∧ t'.index = t.index ∧ t'.ready = t.ready ++ [vb.setWidth 48]))))

/-- SYNC without unmerged children gives the two status bits; with some, the task suspends. EXIT without children and commands ends the
task: the core runs none, every handle it held is free, and no notification of it is left; with commands, it suspends; an area that holds
poison takes POISON (R46, R218, R221, R382, log 65). In a trap handler too, and with the registers of the suspended task left in place:
the model's reading, logs 18 and 27. -/
def Obligations.SyncAndExit : Prop :=
  ∀ (s : State) (d : BitVec 5) (p : PartId) (r : Addr), s.self = some (p, r) → s.cur.inHandler = false →
    (s.areaBad p r = true → s.CanTrap →
      Answers (exec (.sync d) s) (s.Trapped cPoison s.cur.pc (BitVec.ofNat 64 (s.frame p r + 256))) ∧
      Answers (exec .exit s) (s.Trapped cPoison s.cur.pc (BitVec.ofNat 64 (s.frame p r + 256)))) ∧
    (s.areaBad p r = false →
    (s.areaWord p r 1 = 0 → Answers (exec (.sync d) s) (s.Gave d (s.areaWord p r 2 &&& 3))) ∧
    (s.areaWord p r 1 ≠ 0 → Answers (exec (.sync d) s) s.Slept ∧ Answers (exec .exit s) s.Slept) ∧
    (s.areaWord p r 1 = 0 → s.cur.hasCommand r = true → Answers (exec .exit s) s.Slept) ∧
    (s.areaWord p r 1 = 0 → s.cur.hasCommand r = false → Answers (exec .exit s) fun t =>
      s.Slept t ∧ (∀ h, t.cur.handles.read h = (s.cur.handles.read h).filter fun a => a.holder != r) ∧
        (∀ n ∈ t.cur.notifs, n.task ≠ r) ∧ t.cur.commands = s.cur.commands))

/-! ### Meetings, waits and queues -/

/-- MREAD gives word 4 of a live record and all ones of any other block. MFREE and MINIT report a block that is not live, or that
is; MFREE makes a live block plain memory and wakes its waiters with NOTLIVE; a template that keeps R228 becomes a live record
(R231, R234; that a live block is reported before a bad template is log 39). -/
def Obligations.MeetingManagement : Prop :=
  ∀ (s : State) (d a b : BitVec 5) (pa : Nat) (u : State),
    (∀ x, s.loadDev (s.g a) 64 = .ok (x, pa) →
      Answers (exec (.mread d a) s) (s.Wrote d (if s.tagged pa then s.read64 (pa + 32) else -1))) ∧
    (s.reach (s.g a) 64 .store = .ok (pa, u) →
      (u.tagged pa = false → Answers (exec (.mfree d a) s) (s.Wrote d 0x0700000000000000)) ∧
      (u.tagged pa = true →
        let v := u.setTag (pa / 64) false
        let ws := v.waitersAt 4 (64 * (pa / 64)) fun _ => true
        Answers (exec (.mfree d a) s) fun t => s.Gave d 0 t ∧ t.teams = (v.wakeSet ws (some 0x0700000000000000)).teams ∧
          (ws = [] → t.tagged pa = false ∧ t.mem = u.mem)) ∧
      (∀ x from_, s.loadDev (s.g b) 64 = .ok (x, from_) →
        (u.tagged pa = true → Answers (exec (.minit d a b) s) (s.Wrote d 0x0D00000000000000)) ∧
        (u.tagged pa = false → (s.meeting from_).bad = true → Answers (exec (.minit d a b) s) (s.Wrote d 0x0C00000000000000)) ∧
        (u.tagged pa = false → (s.meeting from_).bad = false → inDevice pa 64 = true → pa % 64 = 0 →
          Answers (exec (.minit d a b) s) fun t =>
            s.Gave d 0 t ∧ t.tagged pa = true ∧ (t.meeting pa).arrived = 0 ∧
              (t.meeting pa).combine = meetIdentity (s.meeting from_).op ∧ (t.meeting pa).members = (s.meeting from_).members ∧
              (t.meeting pa).count = 0 ∧ SameOutside pa 64 u t)))

/-- MEET gives the status of R230: it records an arrival in the open round, folds a latecomer within its limit, and changes nothing
for a party or a record that it refuses; the arrival that fills the quorum closes the round, whose value is published and whose
record starts the next round. Without acquire it never waits; with acquire an arrival or a fold suspends the task, and a closure goes
on (R227, R229 to R231; that it translates as a store is log 39). A closing arrival whose buffer's copy finds the pool empty takes POOL
with nothing changed (R276, log 21). The waits in a trap handler, and with registers left in place, are logs 18 and 27. -/
def Obligations.MeetResults : Prop :=
  ∀ (s u : State) (sfx : SyncSfx) (d a b : BitVec 5) (p : PartId) (pa : Nat),
    let va : Addr := (s.g a).extractLsb' 6 42 ++ (0 : BitVec 6)
    let m := u.meeting pa
    let i := ((s.g a).extractLsb' 0 6).toNat
    let lag := ((s.g a).extractLsb' 48 16 - m.tag).toInt
    let status (st : Byte) : DWord := st ++ (0 : BitVec 40) ++ m.tag
    let acq := sfx.order.getLsbD 0
    (acq = true → s.cur.inHandler = true → s.CanTrap →
      Answers (exec (.meet sfx d a b) s) (s.Trapped cIllegal s.cur.pc (wordOf (.meet sfx d a b)))) ∧
    ((acq = true → s.cur.inHandler = false) → s.reach (va.setWidth 64) 64 .store = .ok (pa, u) → s.partOf s.active = some p →
    u.poisoned pa 64 = false →
    (u.tagged pa = false → Answers (exec (.meet sfx d a b) s) (s.Wrote d 0x0700000000000000)) ∧
    (u.tagged pa = true → m.bad = true → Answers (exec (.meet sfx d a b) s) (s.Wrote d (status 12))) ∧
    (u.tagged pa = true → inDevice pa 64 = true → m.bad = false →
      (m.members.getLsbD i = false → Answers (exec (.meet sfx d a b) s) (s.Wrote d (status 6))) ∧
      (m.members.getLsbD i = true → 0 < lag → Answers (exec (.meet sfx d a b) s) (s.Wrote d (status 4))) ∧
      (m.members.getLsbD i = true → lag = 0 → m.arrived.getLsbD i = true → Answers (exec (.meet sfx d a b) s) (s.Wrote d (status 5))) ∧
      (m.members.getLsbD i = true → lag < 0 → m.limit i < (-lag).toNat → Answers (exec (.meet sfx d a b) s) (s.Wrote d (status 3))) ∧
      (acq = false → m.members.getLsbD i = true → lag = 0 → m.arrived.getLsbD i = false → m.count + 1 < m.quorum →
        Answers (exec (.meet sfx d a b) s) fun t =>
          s.Gave d (status 0) t ∧ (t.meeting pa).count = m.count + 1 ∧ (t.meeting pa).arrived = m.arrived ||| (1 <<< i) ∧
            (t.meeting pa).combine = (meetCombine m.op m.shift 0 m.combine (s.g b)).1 ∧ (t.meeting pa).tag = m.tag ∧
            SameOutside pa 64 u t ∧ t.tags = u.tags) ∧
      (m.members.getLsbD i = true → lag = 0 → m.arrived.getLsbD i = false → m.count + 1 = m.quorum →
        let m' := (m.arrive ((s.g a).extractLsb' 0 6) ((s.g a).extractLsb' 48 16) (s.g b)).2
        let sum := (meetCombine m.op m.shift 0 m.combine (s.g b)).1
        (u.publish p m' = none → s.CanTrap → Answers (exec (.meet sfx d a b) s) (s.Trapped cPool s.cur.pc m.buffer)) ∧
        (∀ w ok, u.publish p m' = some (w, ok) →
        let v := w.writePhys pa (m'.next ok).bytes
        Answers (exec (.meet sfx d a b) s) (fun t => s.Gave d (status 1) t ∧ t.cur.running = s.cur.running) ∧
        ((v.waitersAt 4 pa fun x => x == m.tag.setWidth 64) = [] → Answers (exec (.meet sfx d a b) s) fun t =>
          t.mem = v.mem ∧ (t.meeting pa).tag = m.tag + 1 ∧ (t.meeting pa).arrived = 0 ∧ (t.meeting pa).count = 0 ∧
            (t.meeting pa).combine = meetIdentity m.op ∧ (t.meeting pa).members = m.members ∧
            (t.meeting pa).ctl.getLsbD 42 = (m.ctl.getLsbD 42 || !ok))) ∧
        (∀ at_ u2, m.op ≠ 6 → u.resolveIn p m.buffer.toNat .store = .ok (at_, u2) → isHost at_ = false → u2.tagged at_ = false →
          u2.poisoned at_ 8 = false → inDevice at_ 8 = true → (at_ + 8 ≤ pa ∨ pa + 64 ≤ at_) →
          ∃ w, u.publish p m' = some (w, true) ∧ (w.writePhys pa (m'.next true).bytes).read64 at_ = sum)) ∧
      (acq = false → m.members.getLsbD i = true → lag < 0 → (-lag).toNat ≤ m.limit i →
        Answers (exec (.meet sfx d a b) s) fun t =>
          s.Gave d (status 2) t ∧ (t.meeting pa).count = m.count ∧ (t.meeting pa).arrived = m.arrived ∧ SameOutside pa 64 u t) ∧
      (∀ r, acq = true → s.cur.running = some r → m.members.getLsbD i = true →
        let slept (st : Byte) (t : State) : Prop := s.Gave d (status st) t ∧ t.cur.running = none ∧ t.cur.uie = false
        (lag = 0 → m.arrived.getLsbD i = false → m.count + 1 < m.quorum → Answers (exec (.meet sfx d a b) s) (slept 0)) ∧
        (lag < 0 → (-lag).toNat ≤ m.limit i → Answers (exec (.meet sfx d a b) s) (slept 2)))))

/-- WAITGE and WAITADDR: a condition that holds lets the task go on at once, WAITADDR with the word in gd; one that does not suspends
the task with its word watched where it lies once the record is saved. Both refuse a user handler. WAKE has every core re-read its words
in the block at ga, writes no register, and wakes nobody for an address that names no byte; FENCE goes on at once, from where the core
fetches what it stored in the mask's classes (R121, R242 to R244, R298, R334, R338). The model's choices: accesses perform in their
step (log 5), WAKE goes on for any address (log 19), waits in a trap handler and with registers left in place (logs 18, 27). -/
def Obligations.WordWaits : Prop :=
  ∀ (s : State) (mode : BitVec 2) (sfx : SyncSfx) (d a b : BitVec 5) (x pa : Nat),
    (s.loadDev (s.g a) 8 = .ok (x, pa) → s.cur.inHandler = false →
      (let holds : Bool := match mode with
        | 0#2 => BitVec.ofNat 64 x != s.g b
        | 1#2 => BitVec.ofNat 64 x == s.g b
        | 2#2 => (s.g b).ule (BitVec.ofNat 64 x)
        | _ => (s.g b).sle (BitVec.ofNat 64 x)
       (holds = true → Answers (exec (.waitaddr mode sfx d a b) s) (s.Wrote d (BitVec.ofNat 64 x))) ∧
       (∀ r p, holds = false → s.self = some (p, r) →
          let u := s.suspendNext stWaiting 3 ((s.g a).extractLsb' 2 46 ++ mode) (s.g b) d
          Answers (exec (.waitaddr mode sfx d a b) s) fun t => s.Slept t ∧ ∃ m ∈ t.cur.monitors ++ t.cur.sweep,
            m.task = r ∧ m.va = s.g a ∧ m.pa = u.placeOf s.active { m with pa := pa } ∧ m.mode = mode ∧ m.cmp = s.g b)) ∧
      ((s.g b).toNat ≤ x % 2 ^ 64 → Answers (exec (.waitge sfx a b) s) (s.Went (s.cur.pc + 4))) ∧
      (∀ r p, x % 2 ^ 64 < (s.g b).toNat → s.self = some (p, r) →
        let u := s.suspendNext stWaiting 2 ((s.g a).setWidth 48) (s.g b) 0
        Answers (exec (.waitge sfx a b) s) fun t => s.Slept t ∧ ∃ m ∈ t.cur.monitors ++ t.cur.sweep,
          m.task = r ∧ m.va = s.g a ∧ m.pa = u.placeOf s.active { m with pa := pa } ∧ m.cmp = s.g b)) ∧
    (s.cur.inHandler = true → s.CanTrap →
      Answers (exec (.waitaddr mode sfx d a b) s) (s.Trapped cIllegal s.cur.pc (wordOf (.waitaddr mode sfx d a b))) ∧
      Answers (exec (.waitge sfx a b) s) (s.Trapped cIllegal s.cur.pc (wordOf (.waitge sfx a b)))) ∧
    Answers (exec (.wake a) s) (fun t => t.cur.pc = s.cur.pc + 4 ∧ ∀ r, t.g r = s.g r) ∧
    (2 ^ 48 ≤ (s.g a).toNat → Answers (exec (.wake a) s) (s.Went (s.cur.pc + 4))) ∧
    (∀ at_ u, (s.g a).toNat < 2 ^ 48 → s.resolve s.active false (64 * ((s.g a).toNat / 64)) .load = .ok (at_, u) →
      let v := allCores.foldl (fun s c => s.rereadCore c fun w m => w.placeOf c m / 64 == at_ / 64) s
      Answers (exec (.wake a) s) fun t => t.teams = v.teams ∧ t.mem = v.mem) ∧
    (∀ (scope : BitVec 2) (mask : BitVec 16), Answers (exec (.fence scope mask) s)
      (s.Became s.active { s.cur with
        stale := afterFence mask s.cur.stale
        pc := s.cur.pc + 4 }))

/-- The queue instructions on a descriptor that keeps R239: QPOP and QPOP.NB take the oldest entry; an empty queue gives EMPTY to
QPOP.NB and TERM to both when it is closed; QPUSH appends, or reports FULL or QCLOSED, or takes
PROTECT where the entry would lie in host memory; QCLOSE closes. QPOP of an empty open queue suspends its task at the tail of the
queue's list, a QPUSH gives its entry to the first waiter, and QCLOSE of an empty queue wakes every waiter with TERM; a waiter's record
that holds poison takes POISON (R240, R382, R417; the poison is log 65, the wait in a trap handler logs 18 and 27). -/
def Obligations.QueueResults : Prop :=
  ∀ (s u : State) (d a b : BitVec 5) (p : PartId) (pa : Nat),
    let q := u.queueAt pa
    s.queueCheck (s.g a) = .ok (pa, u) → s.partOf s.active = some p → s.cur.inHandler = false → inDevice pa 64 = true →
    (u.queueBad pa q = true →
      Answers (exec (.qpop d a) s) (s.Wrote d 0x0C00000000000000) ∧ Answers (exec (.qpopNb d a) s) (s.Wrote d 0x0C00000000000000) ∧
      Answers (exec (.qpush d a b) s) (s.Wrote d 0x0C00000000000000) ∧ Answers (exec (.qclose d a) s) (s.Wrote d 0x0C00000000000000)) ∧
    (u.queueBad pa q = false →
      (∀ e from_, 0 < q.used → u.loadDev (q.entry q.head) 8 = .ok (e, from_) →
        let done (t : State) : Prop := s.Gave d (BitVec.ofNat 64 (e % 2 ^ 48)) t ∧ (t.queueAt pa).head = q.head + 1 ∧
          (t.queueAt pa).tail = q.tail ∧ SameOutside pa 64 u t
        Answers (exec (.qpop d a) s) done ∧ Answers (exec (.qpopNb d a) s) done) ∧
      (q.used = 0 → q.closed = true → Answers (exec (.qpop d a) s) (s.Wrote d 0x0900000000000000) ∧
        Answers (exec (.qpopNb d a) s) (s.Wrote d 0x0900000000000000)) ∧
      (q.used = 0 → q.closed = false → Answers (exec (.qpopNb d a) s) (s.Wrote d 0x0800000000000000)) ∧
      (q.closed = true → Answers (exec (.qpush d a b) s) (s.Wrote d 0x0B00000000000000)) ∧
      (q.closed = false → q.first = 0 → q.used = q.capacity → Answers (exec (.qpush d a b) s) (s.Wrote d 0x0A00000000000000)) ∧
      (∀ at_ v, q.closed = false → q.first = 0 → q.used < q.capacity → u.storeAt (q.entry q.tail) 8 = .ok (at_, v) →
        (isHost at_ = true → s.CanTrap → Answers (exec (.qpush d a b) s) (s.Trapped cProtect s.cur.pc (q.entry q.tail))) ∧
        (isHost at_ = false → Answers (exec (.qpush d a b) s) fun t =>
          s.Gave d 0 t ∧ (t.queueAt pa).head = q.head ∧ (t.queueAt pa).tail = q.tail + 1 ∧
            SameOutside pa 64 (v.putPhys at_ 8 ((s.g b).toNat % 2 ^ 48)) t)) ∧
      (∀ r, s.cur.running = some r → q.used = 0 → q.closed = false →
        let w : State := if q.first = 0 then u.putQueue pa { q with first := r.setWidth 64, last := r.setWidth 64 }
          else (u.setRecWord p (q.last.setWidth 48) 4 (r.setWidth 64)).putQueue pa { q with last := r.setWidth 64 }
        (w.queueAt pa).last = r.setWidth 64 ∧ (w.queueAt pa).first = (if q.first = 0 then r.setWidth 64 else q.first) ∧
        Answers (exec (.qpop d a) s) fun t =>
          s.Slept t ∧ t.mem = (w.suspendNext stWaiting 5 ((s.g a).setWidth 48) 0 d).mem) ∧
      (q.closed = false → q.first ≠ 0 →
        (∀ r, u.badWaiter p 1 q.first = some r → s.CanTrap →
          Answers (exec (.qpush d a b) s) (s.Trapped cPoison s.cur.pc r)) ∧
        (u.badWaiter p 1 q.first = none →
          let v := u.putQueue pa { u.popWaiter p q with head := q.head + 1, tail := q.tail + 1 }
          let w := v.wake p (q.first.setWidth 48) (some ((s.g b) &&& 0x0000FFFFFFFFFFFF))
          (v.queueAt pa).first = u.recWord p (q.first.setWidth 48) 4 &&& 0x0000FFFFFFFFFFFF ∧ (v.queueAt pa).used = q.used ∧
          Answers (exec (.qpush d a b) s) fun t => s.Gave d 0 t ∧ t.mem = w.mem ∧ t.teams = w.teams)) ∧
      (q.closed = true → Answers (exec (.qclose d a) s) (s.Wrote d 0)) ∧
      (q.closed = false → 0 < q.used → Answers (exec (.qclose d a) s) fun t =>
        s.Gave d 0 t ∧ (t.queueAt pa).closed = true ∧ SameOutside pa 64 u t) ∧
      (q.closed = false → q.used = 0 →
        let n := u.teams.foldl (fun n t => n + t.tasks.length) 0
        (∀ r, u.badWaiter p n q.first = some r → s.CanTrap → Answers (exec (.qclose d a) s) (s.Trapped cPoison s.cur.pc r)) ∧
        (u.badWaiter p n q.first = none →
          let v := u.wakeQueue p n { q with ctl := q.ctl ||| 0x100 }
          Answers (exec (.qclose d a) s) fun t => s.Gave d 0 t ∧ (t.queueAt pa).closed = true ∧
            (t.queueAt pa).first = v.2.first ∧ t.mem = (v.1.putQueue pa v.2).mem ∧ t.teams = v.1.teams)))

/-- LAUNCH queues a record that keeps its layout at the tail of its priority's queue and gives OK; one that is queued or running gives
BUSY, and a bad one BADREC, with nothing changed (R246). -/
def Obligations.LaunchResults : Prop :=
  ∀ (s u : State) (d a : BitVec 5) (p : PartId) (pa : Nat),
    let w (i : Nat) : DWord := u.read64 (pa + 8 * i)
    let status : Byte := (w 7).setWidth 8
    s.queueCheck (s.g a) = .ok (pa, u) → s.partOf s.active = some p →
    ((status = 1 ∨ status = 2) → Answers (exec (.launch d a) s) (s.Wrote d 0x0E00000000000000)) ∧
    (status ≠ 1 → status ≠ 2 → launchBad w = true → Answers (exec (.launch d a) s) (s.Wrote d 0x0C00000000000000)) ∧
    (status ≠ 1 → status ≠ 2 → launchBad w = false → Answers (exec (.launch d a) s) fun t =>
      s.Gave d 0 t ∧ (t.part p).queues.read ((w 2).extractLsb' 36 4) =
        (u.part p).queues.read ((w 2).extractLsb' 36 4) ++ [(s.g a).setWidth 48])

/-! ### Transactions -/

/-- XBEGIN opens a transaction for a member of a valid group, the core's next on it, and reports one already open, or a bad name;
XCOMMIT and XABORT without one report it; XCOMMIT sends the member's vote and suspends the task with wait kind 8, or gives the outcome
that is already known; XABORT ends an open one; XSTORE sends its write, the next of its member to its target, and takes TASK where the
task has no transaction (R405, R410 to R412, R414; that XSTORE's address is checked before its transaction, and what XCOMMIT gives of
a finished transaction, are log 45; that XCOMMIT's task may wait in a trap handler, its registers left in place, logs 18 and 27). -/
def Obligations.TransactionInstructions : Prop :=
  ∀ (s : State) (size : BitVec 2) (d a b : BitVec 5) (p : PartId) (r : Addr), s.self = some (p, r) → s.cur.inHandler = false →
    (s.cur.txnOf r = none →
      Answers (exec (.xcommit d) s) (s.Wrote d 0x0400000000000000) ∧ Answers (exec (.xabort d) s) (s.Wrote d 0x0400000000000000) ∧
      ((s.g a).toNat < 2 ^ 48 → (s.g a).toNat % 2 ^ size.toNat = 0 → s.CanTrap →
        Answers (exec (.xstore size d a b) s) (s.Trapped cTask s.cur.pc (wordOf (.xstore size d a b)))) ∧
      ((s.g a).setWidth 32 = (0 : BitVec 32) → Answers (exec (.xbegin d a) s) (s.Wrote d 0x0500000000000000)) ∧
      (∀ ms me, (s.g a).extractLsb' 36 28 = 0 → (s.g a).setWidth 32 ≠ (0 : BitVec 32) →
        s.group p ((s.g a).extractLsb' 32 4) = some ms → s.self? ms = some me →
        Answers (exec (.xbegin d a) s) fun t =>
          let g := (s.g a).extractLsb' 32 4
          s.Gave d 0 t ∧ t.cur.txns = s.cur.txns ++ [⟨r, ⟨(s.g a).setWidth 32, g, s.cur.txnSeq.read g⟩, me, [], false⟩] ∧
            t.cur.txnSeq.read g = s.cur.txnSeq.read g + 1 ∧ t.mem = s.mem)) ∧
    (∀ x, s.cur.txnOf r = some x →
      Answers (exec (.xbegin d a) s) (s.Wrote d 0x0300000000000000) ∧
      Answers (exec (.xabort d) s) (fun t =>
        s.Gave d 0 t ∧ t.cur.txns = s.cur.txns.filter (fun o => o.task != r) ∧ t.mem = s.mem) ∧
      (∀ y, s.txn p x.name = some y →
        (y.finished = true → Answers (exec (.xcommit d) s) fun t =>
          s.Gave d (if y.decision = some true then 0x0100000000000000 else 0x0200000000000000 ||| (y.doom.getD 0).setWidth 64) t ∧
            t.cur.txns = s.cur.txns.filter (fun o => o.task != r) ∧ t.mem = s.mem) ∧
        (∀ ms dev core, y.finished = false → s.group p x.name.group = some ms → ms.head? = some (dev, core) →
          let asked := s.modCur fun k => { k with txns := k.txns.map fun o => if o.task = r then { o with voted := true } else o }
          let v := asked.vote p x.name x.rank x.sent.length true
          Answers (exec (.xcommit d) s) fun t =>
            t = v.suspendNext 3 8 (x.name.id.setWidth 48) 0 d ∧ s.Slept t ∧
            (∀ o ∈ t.cur.txns, o.task = r → o.voted = true) ∧
            (dev = s.devid → s.partOf core = some p → (∀ w ∈ y.votes, w.1 ≠ x.rank) → ∃ z, t.txn p x.name = some z ∧
              z.votes = y.votes ++ [(x.rank, x.sent.length)] ∧ z.doom = y.doom ∧ z.decision = y.decision ∧ z.acked = y.acked) ∧
            (dev ≠ s.devid → s.reachable dev = true → ∃ k, t.fabOut = s.fabOut ++ [k] ∧ k.peer = dev ∧
              k.msg = .vote core x.name x.rank x.sent.length true))) ∧
      (∀ ms core q, s.group p x.name.group = some ms → ms[(s.g d).toNat]? = some (s.devid, core) →
        s.partOf core = some q → (s.g a).toNat < 2 ^ 48 → (s.g a).toNat % 2 ^ size.toNat = 0 →
        Answers (exec (.xstore size d a b) s) fun t =>
          let rank := (s.g d).toNat
          t.cur.pc = s.cur.pc + 4 ∧ (∀ r, t.g r = s.g r) ∧ t.mem = s.mem ∧
            (∀ y, t.cur.txnOf r = some y → y.sent = x.sent ++ [rank]) ∧
            (t.part q).incoming = (s.part q).incoming ++ [⟨x.name, x.rank, rank, x.sent.count rank, s.g a, size,
              s.g b &&& BitVec.ofNat 64 (2 ^ (8 * 2 ^ size.toNat) - 1)⟩]))

/-! ### Stream commands -/

/-- A stream command enters the dependency table in one step with its addresses as they read then, and the core goes on past its
four words, the task or the trap handler held when the command acquires (that a handler's command holds the handler and not
the task is log 71). A full table keeps the core at the command; an acquiring command in a user handler is ILLEGAL (R88, R89, R254, R305,
R309, R338). -/
def Obligations.CommandsEnter : Prop :=
  ∀ (s : State) (i : Instr) (w0 w1 w2 w3 : Word), encodeCommand i = some (w0, w1, w2, w3) →
    let acq := acquires (cmdHeader i).order
    (acq = true → s.cur.inHandler = true → s.CanTrap →
      Answers (exec i s) (s.Trapped cIllegal s.cur.pc (w0.setWidth 64))) ∧
    (acq = false ∨ s.cur.inHandler = false →
      ((∀ e : BitVec 6, ∃ c ∈ s.cur.table, c.entry = e) → exec i s = .next s) ∧
      (∀ e : BitVec 6, (∀ c ∈ s.cur.table, c.entry ≠ e) → (∀ e' : BitVec 6, e'.toNat < e.toNat → ∃ c ∈ s.cur.table, c.entry = e') →
        Answers (exec i s) fun t => ∃ c : Cmd,
          s.Became s.active
            { s.cur with
              table := s.cur.table ++ [c]
              pc := s.cur.pc + 16
              hold := if acq = true ∧ s.cur.sys = false then some e else s.cur.hold
              holdSys := if acq = true ∧ s.cur.sys = true then some e else s.cur.holdSys } t ∧
          c.entry = e ∧ c.op = i ∧ c.word0 = s.cur.pc ∧ c.task = (s.cur.running).getD 0 ∧ c.wid = s.cur.wid ∧
          c.launch = s.launchOf s.active ∧ c.phase = .waiting ∧ c.errors = 0 ∧ c.cause = 0 ∧
          (∀ a, (addressWords i).1[0]? = some a → c.addr1 = s.addressOf a) ∧
          (∀ a, (addressWords i).1[1]? = some a → c.addr2 = s.addressOf a) ∧
          (∀ n ∈ (addressWords i).2, c.ctr = s.counterOf n)))

/-! ### Slot operations -/

/-- Every slot operation whose checks hold issues in one kc: its results stand in flight for the kc at which they are due, arrivals due at
once are made, its requests are sent, the kernel's kc and csr.kcycle advance, and no register of the control core and no byte of device memory
changes (R43, R47, R48, R129). -/
def Obligations.SlotOperationsIssue : Prop :=
  ∀ (s : State) (i : Instr) (h : SlotHdr) (f : Ctx → SlotResult) (r : KernelRun) (x : Issue),
    slotSem i = some (h, f) → s.Issues r → f (s.slotCtx r h) = .ok x →
    (∀ n, x.wait = some n → ∀ c, outstanding s.cur r c ≤ n) →
    (∀ banks n, Ctl.lock banks n ∈ x.ctl → ∀ b ∈ banks, ∀ o ∈ s.cur.eng.owed, o.1 ≠ b) →
    Answers (exec i s) fun t =>
      t.cur.kcycle = r.kc + 1 ∧ t.cur.g = s.cur.g ∧ t.cur.pc = s.cur.pc ∧ t.cur.handles = s.cur.handles ∧
      t.mem = s.mem ∧ t.tags = s.tags ∧ t.poison = s.poison ∧ (x.cis = [] → t.cur.cistern = s.cur.cistern) ∧
      t.cur.kb = (s.cur.arriveNow .primary x.effs).kb ∧ t.cur.sem = (s.cur.arriveNow .primary x.effs).sem ∧
      (x.remote = [] → OnlyCore s.active s t) ∧
      ∃ r', t.cur.run .primary = some r' ∧ r'.kc = r.kc + 1 ∧
        (s.cur.heldRemotes = [] ∨ x.remote = [] → (∀ m ∈ x.remote, dieOf m.src = dieOf m.target) → r'.far = r.far ++ x.far) ∧
        r'.inflight = r.inflight ++ (x.effs.filter fun e => e.lat != 0).map (fun e =>
          ⟨s.cur.tick.eng.stamp h.slot.num, r.kc + e.lat, e.cluster, e.what, e.arrive⟩) ∧
        (r.loops = [] → x.ctl = [] → r'.idx = r.idx + 1 ∧ r'.loops = [] ∧ r'.ending = none)

/-- A slot operation that fails a run-time check ends its kernel: no operation of the bundle takes effect, on no register, Cistern,
request or byte of memory, and a snapshot that csr.ksnap asks for is all that is written (R130, R362, R369). -/
def Obligations.SlotFaultsEndKernel : Prop :=
  ∀ (s : State) (i : Instr) (h : SlotHdr) (f : Ctx → SlotResult) (r : KernelRun) (kind : Byte),
    slotSem i = some (h, f) → s.Issues r → s.quietFar r → f (s.slotCtx r h) = .error kind →
    Answers (exec i s) (s.KernelFaulted r kind h.slot.num)

/-- The scalar operations: every cluster whose guard is true gets the result in its ad at the next kc, the other clusters none
(R95, R131, R146, R147). -/
def Obligations.ScalarSlotResults : Prop :=
  ∀ (s : State) (r : KernelRun) (h : SlotHdr) (d a b : BitVec 5) (imm : Imm) (n : BitVec 6) (k : BitVec 3), s.Issues r →
    let gives (i : Instr) (v : Cluster → DWord) : Prop :=
      Answers (exec i s) (s.Gives r h (s.guardOn h) 1 fun c => [.scalar d (v (s.cluster c))])
    gives (.sMov h d a) (fun k => k.a.read a) ∧
    gives (.sAdd h d a b) (fun k => k.a.read a + k.a.read b) ∧
    gives (.sSub h d a b) (fun k => k.a.read a - k.a.read b) ∧
    gives (.sAnd h d a b) (fun k => k.a.read a &&& k.a.read b) ∧
    gives (.sOr h d a b) (fun k => k.a.read a ||| k.a.read b) ∧
    gives (.sXor h d a b) (fun k => k.a.read a ^^^ k.a.read b) ∧
    gives (.sSll h d a b) (fun k => k.a.read a <<< ((k.a.read b).toNat % 64)) ∧
    gives (.sSrl h d a b) (fun k => k.a.read a >>> ((k.a.read b).toNat % 64)) ∧
    gives (.sSra h d a b) (fun k => (k.a.read a).sshiftRight ((k.a.read b).toNat % 64)) ∧
    gives (.sMul h d a b) (fun k => BitVec.ofInt 64 ((k.a.read a).toInt * (k.a.read b).toInt)) ∧
    gives (.sMulh h d a b) (fun k => BitVec.ofInt 64 ((k.a.read a).toInt * (k.a.read b).toInt / 2 ^ 64)) ∧
    gives (.sMin h d a b) (fun k => BitVec.ofInt 64 (min (k.a.read a).toInt (k.a.read b).toInt)) ∧
    gives (.sMax h d a b) (fun k => BitVec.ofInt 64 (max (k.a.read a).toInt (k.a.read b).toInt)) ∧
    gives (.sMinu h d a b) (fun k => BitVec.ofNat 64 (min (k.a.read a).toNat (k.a.read b).toNat)) ∧
    gives (.sMaxu h d a b) (fun k => BitVec.ofNat 64 (max (k.a.read a).toNat (k.a.read b).toNat)) ∧
    gives (.sAddi h d imm) (fun k => k.a.read d + immValue imm) ∧
    gives (.sAndi h d imm) (fun k => k.a.read d &&& immValue imm) ∧
    gives (.sOri h d imm) (fun k => k.a.read d ||| immValue imm) ∧
    gives (.sXori h d imm) (fun k => k.a.read d ^^^ immValue imm) ∧
    gives (.sSlli h d n) (fun k => k.a.read d <<< n.toNat) ∧
    gives (.sSrli h d n) (fun k => k.a.read d >>> n.toNat) ∧
    gives (.sSrai h d n) (fun k => (k.a.read d).sshiftRight n.toNat) ∧
    gives (.movi h d imm) (fun _ => immValue imm) ∧
    gives (.rdlc h d k) (fun c => ((c.lc.toList[k.toNat]?).getD 0).setWidth 64) ∧
    gives (.wfield h d k) (fun _ => BitVec.ofNat 64 (workField r.widths r.wid k.toNat)) ∧
    gives (.cfgrd h d) (fun k => k.cfg) ∧
    gives (.mmova h d k) (fun c => c.m.read k)

/-- The predicate operations and comparisons write one predicate, or a pair with the result and its complement, at the next kc in
every cluster whose guard is true (R97, R139, R140). -/
def Obligations.PredicateSlotResults : Prop :=
  ∀ (s : State) (r : KernelRun) (h : SlotHdr) (pd pa pb : BitVec 4) (cc n : BitVec 3) (a b : BitVec 5) (imm : Imm), s.Issues r →
    let gives (i : Instr) (ws : Cluster → List RegWrite) : Prop :=
      Answers (exec i s) (s.Gives r h (s.guardOn h) 1 fun c => ws (s.cluster c))
    let holds (x y : DWord) : Bool := match cc with
      | 0#3 => decide (x = y)
      | 1#3 => decide (x ≠ y)
      | 2#3 => decide (x.toInt < y.toInt)
      | 3#3 => decide (y.toInt ≤ x.toInt)
      | 4#3 => decide (y.toInt < x.toInt)
      | 5#3 => decide (x.toInt ≤ y.toInt)
      | 6#3 => decide (x.toNat < y.toNat)
      | _ => decide (y.toNat ≤ x.toNat)
    let pair (b : Bool) : List RegWrite := [.pred (n ++ (0 : BitVec 1)) b, .pred (n ++ (1 : BitVec 1)) (!b)]
    gives (.pand h pd pa pb) (fun k => [.pred pd (k.pred pa && k.pred pb)]) ∧
    gives (.por h pd pa pb) (fun k => [.pred pd (k.pred pa || k.pred pb)]) ∧
    gives (.pxor h pd pa pb) (fun k => [.pred pd (Bool.xor (k.pred pa) (k.pred pb))]) ∧
    gives (.pandn h pd pa pb) (fun k => [.pred pd (k.pred pa && !k.pred pb)]) ∧
    gives (.cmp h cc n a b) (fun k => pair (holds (k.a.read a) (k.a.read b))) ∧
    gives (.cmpi h cc n a imm) (fun k => pair (holds (k.a.read a) (immValue imm)))

/-- Slots E, F and H. The configuration operations, MACC and TRCLR write what they name at the next kc in every cluster whose guard is
true, and so do HBOUND, TMARK and RETAG; MLOADB from a tile register writes its shadow column at the issue and exchanges the tiles at
column 63; a push's contribution from a tile register is due 68 kc later, both in a widened format too; MDRAIN gives its elements 4 kc later
and marks a row that saturated; TRIN writes a row of the transposer at the issue, and TROUT gives a column 2 kc later (R173, R175, R178 to
R195, R439). That a saturated row is marked at the issue is log 7, and the zero scale plane of a tile row that MDRAIN or TROUT writes is
log 35. -/
def Obligations.ConfigSlotResults : Prop :=
  ∀ (s : State) (r : KernelRun) (h : SlotHdr) (a : BitVec 5) (i : BitVec 4) (e : Byte) (half x pol clr : Bool) (flags : BitVec 5)
      (low : BitVec 4) (md ma mb : BitVec 3) (row : BitVec 6), s.Issues r →
    let gives (i : Instr) (ws : Cluster → List RegWrite) : Prop :=
      Answers (exec i s) (s.Gives r h (s.guardOn h) 1 fun c => ws (s.cluster c))
    let bits : DWord := (0 : BitVec 43) ++ flags ++ (0 : BitVec 12) ++ low
    gives (.stld h i e) (fun _ => [.scale i e]) ∧
    gives (.stlda h a half) (fun k => (List.range 8).map fun n =>
      .scale (BitVec.ofNat 4 ((if half then 8 else 0) + n)) ((k.a.read a).extractLsb' (8 * n) 8)) ∧
    gives (.cfgset h flags low) (fun _ => [.cfgBits bits 0]) ∧
    gives (.cfgclr h flags low) (fun _ => [.cfgBits 0 bits]) ∧
    gives (.margin h a) (fun k => [.margin ((k.a.read a).setWidth 32)]) ∧
    gives (.mset h md a) (fun k => [.tileMask md (k.a.read a)]) ∧
    gives (.mand h md ma mb) (fun k => [.tileMask md (k.m.read ma &&& k.m.read mb)]) ∧
    gives (.mor h md ma mb) (fun k => [.tileMask md (k.m.read ma ||| k.m.read mb)]) ∧
    gives (.mnot h md ma) (fun k => [.tileMask md (~~~k.m.read ma)]) ∧
    gives (.tclr h) (fun _ => [.clearMaxes]) ∧
    gives (.trclr h) (fun _ => [.clearTransposer]) ∧
    gives (.manchor h row false x a) (fun k => [.anchor (rowIndex k row x) (((k.a.read a).setWidth 10).signExtend 16)]) ∧
    gives (.manchor h row true x a) (fun k =>
      (List.range 64).map fun n => .anchor (BitVec.ofNat 6 n) (((k.a.read a).setWidth 10).signExtend 16)) ∧
    gives (.macc h row x pol false clr) (fun k => [.policy (rowIndex k row x) pol clr]) ∧
    gives (.macc h row x pol true clr) (fun _ => (List.range 64).map fun n => .policy (BitVec.ofNat 6 n) pol clr) ∧
    -- HBOUND, TMARK
    gives (.hbound h a) (fun k =>
      let b := boundOf k.st (k.a.read a)
      [.bound (if b.nan then ⟨k.tb.e, true, 0x7F800000, (k.a.read a).extractLsb' 24 6⟩ else b)]) ∧
    (∀ mode : BitVec 2, gives (.tmark h row x mode md) (fun k =>
      let y := rowIndex k row x
      let z := markRow k (k.acc.read y) (mode.getLsbD 0)
      (if mode.getLsbD 0 then [.rowMax y z.1] else []) ++ (if mode.getLsbD 1 && z.2 then [.tileMaskBit md k.tb.j] else [])) ∧
      ((∀ c, (s.cluster c).tb.nan = true) → gives (.tmark h row x mode md) (fun k =>
        let y := rowIndex k row x
        (if mode.getLsbD 0 then [.rowMax y (k.acc.read y).max] else []) ++ (if mode.getLsbD 1 then [.tileMaskBit md k.tb.j] else [])))) ∧
    -- RETAG
    (∀ (reg : BitVec 5) (tag : Tag),
      ((∀ c, s.guardOn h c → retagGroup true ((s.cluster c).t.read (reg.extractLsb' 0 3)).tag = retagGroup true tag) →
        retagGroup true tag ≠ 0 → gives (.retag h true reg tag) (fun k =>
          [.tileTag (reg.extractLsb' 0 3) tag (((k.t.read (reg.extractLsb' 0 3)).tag == 12) != (tag == 12))])) ∧
      ((∀ c, s.guardOn h c → tagNarrow ((s.cluster c).v.read (physV r.rb reg)).tag = true ∧
          retagGroup false ((s.cluster c).v.read (physV r.rb reg)).tag = retagGroup false tag) →
        retagGroup false tag ≠ 0 → gives (.retag h false reg tag) (fun _ => [.vecTag (physV r.rb reg) tag]))) ∧
    -- MLOADB, MPUSH and MPUSH.SC from a tile register
    (∀ (f : BitVec 4) (src : MatSrc), src.kind = 0 →
      let tile (k : Cluster) : TReg := k.t.read (src.low.extractLsb' 4 3)
      let index (k : Cluster) : BitVec 6 := rowIndex k row src.x
      let bytes (k : Cluster) : MatRow := ⟨(tile k).rows.read (index k), (tile k).scales.read (index k)⟩
      let late (i : Instr) (cols : Cluster → Bank 6 (List Product)) : Prop :=
        Answers (exec i s) (s.Gives r h (s.guardOn h) 68 fun c =>
          [.contribution (index (s.cluster c)) ((s.cluster c).acc.read (index (s.cluster c))).overwrite (cols (s.cluster c)) false])
      let loads (i : Instr) (x : MatRow → MatRow) (tag : Tag) : Prop :=
        Answers (exec i s) fun t => s.Results r h (s.guardOn h) 0 (fun _ => []) t ∧ (r.loops = [] → ∀ c,
          let k := s.cluster c
          let new := k.shadow.write (index k) ⟨(x (bytes k)).codes, (x (bytes k)).scales, tag⟩
          (¬s.guardOn h c → t.cluster c = k) ∧ (s.guardOn h c → index k ≠ 63 → t.cluster c = { k with shadow := new }) ∧
          (s.guardOn h c → index k = 63 → t.cluster c = { k with resident := new, shadow := k.resident }))
      let against (tag : Tag) : Prop := ∀ c, s.guardOn h c → ∀ j, matClass ((s.cluster c).resident.read j).tag = matClass tag
      ((∀ c, s.guardOn h c → (tile (s.cluster c)).tag = tagOf f) →
        loads (.mloadb h f row src) id (tagOf f) ∧
        (against (tagOf f) → late (.mpush h f row src) fun k =>
          products k (tagOf f) (bytes k) (k.acc.read (index k)).anchor.toInt)) ∧
      (∀ g : BitVec 2, (∀ c, s.guardOn h c → (tile (s.cluster c)).tag = 2) →
        loads (.mloadbWide h g row src) (widenRow g) (wideTag g) ∧
        (against (wideTag g) → late (.mpushWide h g row src) fun k =>
          products k (wideTag g) (widenRow g (bytes k)) (k.acc.read (index k)).anchor.toInt)) ∧
      ((∀ c, s.guardOn h c → (tile (s.cluster c)).tag = 12 ∧ allInt (bytes (s.cluster c)).scales = true ∧
          ∀ j, ((s.cluster c).resident.read j).tag = 12 ∧ allInt ((s.cluster c).resident.read j).scales = true) →
        late (.mpushSc h row src) fun k => Bank.ofFn fun col => [.fin ((List.range 128).map fun j =>
          ((bytes k).codes.extractLsb' (4 * j) 4).toInt * ((k.resident.read col).codes.extractLsb' (4 * j) 4).toInt).sum true])) ∧
    -- MDRAIN
    (∀ (f : BitVec 4) (dest : BitVec 5) (p : BitVec 2), tagPair (tagOf f) = false →
      let w := tagWidth (tagOf f)
      let drained (k : Cluster) : List (Nat × FpFlags) := (k.acc.read (rowIndex k row x)).elems.list.map fun e =>
        e.drain (k.acc.read (rowIndex k row x)).anchor.toInt (tagOf f) k.rm k.ftz k.satBit
      let marks (t : State) : Prop := ∀ c, s.guardOn h c → (∃ e ∈ drained (s.cluster c), e.2.sat = true) → r.loops = [] →
        ((t.cluster c).acc.read (rowIndex (s.cluster c) row x)).sat = true
      Answers (exec (.mdrain h f dest row x p true) s) (fun t => marks t ∧ s.Results r h (s.guardOn h) 4 (fun c =>
        [.tileRow (dest.extractLsb' 0 3) (rowIndex (s.cluster c) row x)
          (BitVec.ofNat 512 (packNat w ((((drained (s.cluster c)).map (·.1)).drop (512 / w * p.toNat)).take (512 / w)))) 0 (tagOf f)]) t) ∧
      Answers (exec (.mdrain h f dest row x p false) s) (fun t => marks t ∧ s.Results r h (s.guardOn h) 4 (fun c =>
        let z := partLanes (tagOf f) p.toNat ((drained (s.cluster c)).map (·.1))
        [.vec (physV r.rb dest) (laneMask z.1) z.2.1 (tagOf f)]) t)) ∧
    -- TRIN, TROUT
    (∀ (f : BitVec 4) (v : BitVec 5) (p : BitVec 2), tagNarrow (tagOf f) = true →
      (∀ c, s.guardOn h c → ((s.cluster c).v.read (physV r.rb v)).tag = tagOf f ∧ ((s.cluster c).tr.wp = 0 ∨ (s.cluster c).tr.tag = tagOf f)) →
      Answers (exec (.trin h f v p) s) fun t => s.Results r h (s.guardOn h) 0 (fun _ => []) t ∧ (r.loops = [] → ∀ c,
        (¬s.guardOn h c → t.cluster c = s.cluster c) ∧ (s.guardOn h c →
          let k := s.cluster c
          let lanes := (k.v.read (physV r.rb v)).lanes
          let es := ((VOp.mk lanes lanes (tagOf f)).elems.drop (64 * p.toNat)).take 64
          t.cluster c = { k with tr := { k.tr with
            rows := k.tr.rows.write k.tr.wp (Bank.ofFn fun j => BitVec.ofNat 32 ((es[j.toNat]?).getD 0)), tag := tagOf f
            wp := k.tr.wp + 1 } }))) ∧
    (∀ (dest : BitVec 5) (p : BitVec 2),
      let column (k : Cluster) : List Nat := (List.range 64).map fun j => ((k.tr.rows.read (BitVec.ofNat 6 j)).read k.tr.cp).toNat
      let stepped (t : State) : Prop := r.loops = [] → ∀ c, s.guardOn h c →
        t.cluster c = { s.cluster c with tr := { (s.cluster c).tr with cp := (s.cluster c).tr.cp + 1 } }
      ((∀ c, s.guardOn h c → tagNarrow (s.cluster c).tr.tag = true ∧ p.toNat < 32 / tagWidth (s.cluster c).tr.tag) →
        Answers (exec (.trout h dest p false) s) fun t => stepped t ∧ s.Results r h (s.guardOn h) 2 (fun c =>
          let z := partLanes (s.cluster c).tr.tag p.toNat (column (s.cluster c))
          [.vec (physV r.rb dest) (laneMask z.1) z.2.1 (s.cluster c).tr.tag]) t) ∧
      ((∀ c, s.guardOn h c → tagValid (s.cluster c).tr.tag = true ∧ tagWidth (s.cluster c).tr.tag = 8) →
        Answers (exec (.trout h dest p true) s) fun t => stepped t ∧ s.Results r h (s.guardOn h) 2 (fun c =>
          [.tileRow (dest.extractLsb' 0 3) (s.cluster c).tr.cp (BitVec.ofNat 512 (packNat 8 (column (s.cluster c)))) 0
            (s.cluster c).tr.tag]) t))

/-- Vector operations: the lanes that are on get the result, with its tag, 2 kc later, 4 kc later in FP32 and from VCVT. Copies, bitwise
operations, VSEL and VPERM of single registers other than B4; integer arithmetic, shifts, compares, reductions and scans in I32; FP32
arithmetic, exact and then rounded once; conversions among FP32, I32 and RAW32; the largest of a row in I32; broadcast, funnel shifts, bit
counts, moves of lane predicates; and the switch, a quarter of a register 3 kc later (R131, R148, R149, R151 to R163, R200, R201). -/
def Obligations.VectorSlotResults : Prop :=
  ∀ (s : State) (r : KernelRun) (h : SlotHdr) (d a b : BitVec 5), s.Issues r →
    let reg (c : ClusterId) (x : BitVec 5) : VReg := (s.cluster c).v.read (physV r.rb x)
    let lanes (c : ClusterId) (x : BitVec 5) : Bank 6 Word := (reg c x).lanes
    let mask (c : ClusterId) : DWord := (s.cluster c).lanePred h.guard
    let on (c : ClusterId) (n : Nat) : Bool := (mask c).getLsbD n
    let tagged (x : BitVec 5) (t : Tag) : Prop := ∀ c, (reg c x).tag = t
    let single (c : ClusterId) (x : BitVec 5) : Prop := tagNarrow (reg c x).tag = true ∧ (reg c x).tag ≠ 12
    let vec (c : ClusterId) (f : BitVec 6 → Word) (t : Tag) : List RegWrite := [.vec (physV r.rb d) (laneMask (mask c)) (Bank.ofFn f) t]
    let gives (i : Instr) (lat : Nat) (ws : ClusterId → List RegWrite) : Prop := Answers (exec i s) (s.Gives r h (s.laneOn h) lat ws)
    -- the lanes that are off carry zero, under a mask that leaves them as they are
    let each (c : ClusterId) (f : BitVec 6 → Word) (t : Tag) : List RegWrite := vec c (fun l => if on c l.toNat then f l else 0) t
    ((∀ c, single c a ∧ (reg c b).tag = (reg c a).tag) →
      let same (i : Instr) (f : Word → Word → Word) : Prop :=
        gives i 2 fun c => vec c (fun l => f ((lanes c a).read l) ((lanes c b).read l)) (reg c a).tag
      same (.vmov h d a) (fun x _ => x) ∧ same (.vnot h d a) (fun x _ => ~~~x) ∧ same (.vand h d a b) (fun x y => x &&& y) ∧
      same (.vor h d a b) (fun x y => x ||| y) ∧ same (.vxor h d a b) (fun x y => x ^^^ y) ∧
      Answers (exec (.vsel h d a b) s) (s.Gives r h (fun _ => True) 2 fun c =>
        [.vec (physV r.rb d) (laneMask (-1))
          (Bank.ofFn fun l => if on c l.toNat then (lanes c a).read l else (lanes c b).read l) (reg c a).tag])) ∧
    ((∀ c, single c a) → tagged b 14 → gives (.vperm h d a b) 2 fun c => vec c (fun l =>
      let j := ((lanes c b).read l).toNat
      if j < 64 then (lanes c a).read (BitVec.ofNat 6 j) else 0) (reg c a).tag) ∧
    -- I32
    (tagged a 4 → tagged b 4 →
      let int2 (i : Instr) (f : Word → Word → Word) : Prop :=
        gives i 2 fun c => each c (fun l => f ((lanes c a).read l) ((lanes c b).read l)) 4
      int2 (.vadd h 4 d a b) (fun x y => x + y) ∧ int2 (.vsub h 4 d a b) (fun x y => x - y) ∧ int2 (.vmul h 4 d a b) (fun x y => x * y) ∧
      int2 (.vmin h 4 d a b) (fun x y => if x.toInt ≤ y.toInt then x else y) ∧
      int2 (.vmax h 4 d a b) (fun x y => if x.toInt ≤ y.toInt then y else x) ∧
      int2 (.vabs h 4 d a) (fun x _ => BitVec.ofNat 32 x.toInt.natAbs) ∧ int2 (.vneg h 4 d a) (fun x _ => -x) ∧
      int2 (.vshl h 4 d a b) (fun x y => x <<< y.toNat) ∧ int2 (.vshr h 4 d a b) (fun x y => x.sshiftRight y.toNat)) ∧
    (∀ cc n : BitVec 3, tagged a 4 → tagged b 4 →
      let holds (x y : Int) : Bool := match cc with
        | 0#3 => decide (x = y)
        | 1#3 => decide (x ≠ y)
        | 2#3 => decide (x < y)
        | 3#3 => decide (y ≤ x)
        | 4#3 => decide (y < x)
        | 5#3 => decide (x ≤ y)
        | 6#3 => false
        | _ => true
      gives (.vcmp h 4 cc n a b) 2 fun c =>
        let z := bitsOf fun l => holds ((lanes c a).read (BitVec.ofNat 6 l)).toInt ((lanes c b).read (BitVec.ofNat 6 l)).toInt
        [.lanePred (n ++ (0 : BitVec 1)) (mask c) z, .lanePred (n ++ (1 : BitVec 1)) (mask c) (~~~z)]) ∧
    (∀ (grp : BitVec 3) (excl : Bool), tagged a 4 → grp.toNat ≤ 6 →
      let size := 2 ^ grp.toNat
      let sum (c : ClusterId) (l : BitVec 6) (n : Nat) : Word := ((List.range n).map fun j =>
        if on c (size * (l.toNat / size) + j) then (lanes c a).read (BitVec.ofNat 6 (size * (l.toNat / size) + j)) else 0).sum
      gives (.vred h 4 d a 0 grp) 2 (fun c => vec c (fun l => sum c l size) 4) ∧
      gives (.vscan h 4 d a 0 excl grp) 2 (fun c => vec c (fun l => sum c l (l.toNat % size + if excl then 0 else 1)) 4)) ∧
    -- FP32
    (tagged a 8 →
      let value (k : Cluster) (x : Word) : Fv := Fmt.fp32.read k.ftz x.toNat
      let rounded (k : Cluster) (v : Fv) : Word := BitVec.ofNat 32 (Fmt.fp32.write k.rm k.ftz v).1
      let real (i : Instr) (f : Cluster → Fv → Fv → Fv) : Prop := Answers (exec i s) (s.Flags r h (s.laneOn h) 4 fun c =>
        let k := s.cluster c
        each c (fun l => rounded k (f k (value k ((lanes c a).read l)) (value k ((lanes c b).read l)))) 8)
      (tagged b 8 → real (.vadd h 8 d a b) (fun k x y => (x.add k.rm y).1) ∧ real (.vsub h 8 d a b) (fun k x y => (x.add k.rm y.neg).1) ∧
        real (.vmul h 8 d a b) (fun _ x y => (x.mul y).1) ∧ real (.vmin h 8 d a b) (fun _ x y => (x.minmax false y).1) ∧
        real (.vmax h 8 d a b) (fun _ x y => (x.minmax true y).1)) ∧
      (tagged b 8 → s.cur.tick.eng.rates = [] → real (.vdiv h 8 d a b) (fun _ x y => (x.div y).1)) ∧
      (s.cur.tick.eng.rates = [] → real (.vsqrt h 8 d a) (fun _ x _ => x.sqrt.1)) ∧
      (tagged b 8 → tagged d 8 → Answers (exec (.vfma h 8 d a b) s) (s.Flags r h (s.laneOn h) 4 fun c =>
        let k := s.cluster c
        let x (y : BitVec 5) (l : BitVec 6) : Fv := value k ((lanes c y).read l)
        each c (fun l => rounded k (((x a l).mul (x b l)).1.add k.rm (x d l)).1) 8)) ∧
      gives (.vabs h 8 d a) 2 (fun c => each c (fun l => (lanes c a).read l &&& 0x7FFFFFFF) 8) ∧
      gives (.vneg h 8 d a) 2 (fun c => each c (fun l => (lanes c a).read l ^^^ 0x80000000) 8) ∧
      Answers (exec (.vcvt h 4 d a 0) s) (s.Flags r h (s.laneOn h) 4 fun c => vec c (fun l =>
        BitVec.ofNat 32 (realToInt 4 (s.cluster c).rm (value (s.cluster c) ((lanes c a).read l))).1) 4)) ∧
    (tagged a 4 →
      Answers (exec (.vcvt h 8 d a 0) s) (s.Flags r h (s.laneOn h) 4 fun c => vec c (fun l => BitVec.ofNat 32
        (Fmt.fp32.convert (s.cluster c).rm (s.cluster c).ftz (s.cluster c).satBit (.ofInt ((lanes c a).read l).toInt 0)).1) 8) ∧
      gives (.vcvt h 15 d a 0) 4 (fun c => vec c (lanes c a).read 15)) ∧
    -- VTOPK in I32: the row's lanes from greatest to least, equal ones by lane
    (tagged a 4 →
      let row (c : ClusterId) : Nat := min (((s.cluster c).a.read b).extractLsb' 8 7).toNat 64
      let want (c : ClusterId) : Nat := (((s.cluster c).a.read b).extractLsb' 0 7).toNat
      let x (c : ClusterId) (i : Nat) : Int := ((lanes c a).read (BitVec.ofNat 6 i)).toInt
      let first (c : ClusterId) : Bank 6 Word := laneMask (bitsOf fun l => decide (l < min (want c) 64))
      Answers (exec (.vtopk h false d a b) s) fun t => ∃ order : ClusterId → List Nat,
        (∀ c, (order c).Perm (List.range (row c)) ∧ (order c).Pairwise fun i j => x c j < x c i ∨ (x c j = x c i ∧ i < j)) ∧
        s.Flags r h (s.laneOn h) 4 (fun c =>
          let out (n : Nat → Word) (none : Word) : Bank 6 Word := Bank.ofFn fun l => (((order c)[l.toNat]?).map n).getD none
          [.vec (physV r.rb d) (first c) (out (fun i => (lanes c a).read (BitVec.ofNat 6 i)) 0x80000000) 4,
            .vec (physV r.rb (d + 1)) (first c) (out (BitVec.ofNat 32 ·) 0xFFFFFFFF) 14,
            .scalar b (BitVec.ofNat 64 (min (want c) (row c)))]) t) ∧
    -- broadcast, funnel shifts, counts, lane predicates
    gives (.vbcast h 4 d a) 2 (fun c => vec c (fun _ => ((s.cluster c).a.read a).setWidth 32) 4) ∧
    (tagged a 15 → tagged b 15 → tagged d 4 →
      let pair (c : ClusterId) (l : BitVec 6) : DWord := (lanes c a).read l ++ (lanes c b).read l
      let n (c : ClusterId) (l : BitVec 6) : Nat := ((lanes c d).read l).toNat % 64
      gives (.vfshl h d a b) 2 (fun c => vec c (fun l => (pair c l <<< n c l).extractLsb' 32 32) 15) ∧
      gives (.vfshr h d a b) 2 (fun c => vec c (fun l => (pair c l >>> n c l).extractLsb' 0 32) 15)) ∧
    ((∀ c, single c a) → gives (.vpopc h false d a) 2 fun c => vec c (fun l =>
      BitVec.ofNat 32 ((List.range 32).countP fun j => ((lanes c a).read l).getLsbD j)) 4) ∧
    (∀ q : BitVec 4, gives (.vqmov h false d q) 2 (fun c => vec c (laneMask ((s.cluster c).lanePred q)).read 15) ∧
      ((∀ c, single c d) → gives (.vqmov h true d q) 2 fun c =>
        let z := bitsOf fun l => (lanes c d).read (BitVec.ofNat 6 l) != 0
        [.lanePred (q.extractLsb' 1 3 ++ (0 : BitVec 1)) (mask c) z, .lanePred (q.extractLsb' 1 3 ++ (1 : BitVec 1)) (mask c) (~~~z)])) ∧
    -- the switch
    (∀ (q : BitVec 2) (n : BitVec 4) (e : ClusterId), (∀ c, single c a) →
      let part (x : ClusterId) : List RegWrite := [.quarter (physV r.rb d) q (Bank.ofFn fun l => (lanes x a).read (q ++ l))
        (reg x a).tag]
      let other (c : ClusterId) : ClusterId := ((s.cluster c).a.read (n.setWidth 5)).extractLsb' 0 4
      Answers (exec (.swrecv h d a q n) s) (s.Gives r h (s.guardOn h) 3 fun c => part (other c)) ∧
      Answers (exec (.swbcast h d a q e) s) (s.Gives r h (s.guardOn h) 3 fun _ => part e) ∧
      ((∀ x y, s.guardOn h x → s.guardOn h y → other x = other y → x = y) → h.arrive = none →
        Answers (exec (.swsend h d a q n) s) (s.Gives r h (fun _ => True) 3 fun c =>
          (allClusters.filter fun x => (s.cluster x).pred h.guard && other x == c).flatMap part)))

/-- Slot G. Home-view loads give their bytes six kc later with the tag that they name, at a row or at any byte; home-view stores put the
register's bytes, or those that a mask picks, into the Cistern at once; far reads and atomics send one request for each cluster whose
guard is true, stamped with its issue and due when the form says, a remote one to its target's core (R165 to R168, R263 to R265). -/
def Obligations.CisternSlotResults : Prop :=
  ∀ (s : State) (r : KernelRun) (h : SlotHdr) (f : BitVec 4) (v : BitVec 5) (hnd : BitVec 6) (row : BitVec 5) (e : Ext) (al : Alloc),
    s.Issues r → s.cur.handles.read hnd = some al →
    (let t := tagOf f
     let n := rowBytes t
     let loads (i : Instr) (off : ClusterId → Nat) : Prop :=
       (∀ c, s.guardOn h c → (homeView al c).holds (off c) n = true ∧
          anyPoison s.cur.cisPoison ((homeView al c).units (off c) n) = false) →
       Answers (exec i s) (s.Gives r h (s.guardOn h) 6 fun c =>
          let lanes := rowLanes t ((homeView al c).read s.cur.cistern (off c) n)
          if tagPair t then [.vec (physV r.rb v) (Bank.fill (-1)) lanes.1 t, .vec (physV r.rb (v + 1)) (Bank.fill (-1)) lanes.2 t]
          else [.vec (physV r.rb v) (Bank.fill (-1)) lanes.1 t])
     (hnd ∈ r.ins ∨ hnd ∈ r.outs) →
     loads (.cld h f v hnd row) (fun c => n * nearRow (s.cluster c) row) ∧
     loads (.cldU h f v hnd e) (fun c => n * extRow (s.cluster c) e + e.low.toNat) ∧
     -- CLD.FAR
     ((∀ c, s.guardOn h c → (farView al).holds (n * extRow (s.cluster c) e) n = true) →
       Answers (exec (.cldFar h f v hnd e) s) fun t => s.OnlyEngine t ∧ t.cur.cistern = s.cur.cistern ∧
         t.cur.kcycle = r.kc + 1 ∧ ∃ r', t.cur.run .primary = some r' ∧ r'.kc = r.kc + 1 ∧ r'.inflight = r.inflight ∧
           r'.far = r.far ++ (allClusters.filter fun c => (s.cluster c).pred h.guard).map fun c =>
             ⟨s.cur.tick.eng.stamp h.slot.num, c, r.kc + e.low.toNat, .load, false, al, extRow (s.cluster c) e, physV r.rb v, tagOf f,
               h.arrive, .waiting⟩)) ∧
    (∀ vs : ClusterId → VOp, hnd ∈ r.outs → al.row + al.nrows ≤ Config.bankRows →
     (∀ c, s.guardOn h c → readVec (s.cluster c) r.rb (fun _ => true) v = .ok (vs c)) →
     let stores (i : Instr) (off : ClusterId → Nat) : Prop :=
       (∀ c, s.guardOn h c → (homeView al c).holds (off c) (rowBytes (vs c).tag) = true) →
       Answers (exec i s) fun t => s.OnlyEngineBut (s.arrivedAt h 0) t ∧ ∀ c, s.guardOn h c → ∀ j, j < rowBytes (vs c).tag →
         some (t.cur.cistern.readByte (64 * (homeView al c).unit ((off c + j) / 64) + (off c + j) % 64)) = (opBytes (vs c))[j]?
     stores (.cst h v hnd row) (fun c => rowBytes (vs c).tag * nearRow (s.cluster c) row) ∧
     stores (.cstU h v hnd e) (fun c => rowBytes (vs c).tag * extRow (s.cluster c) e + e.low.toNat) ∧
     -- CST.M: byte j is written where bit j of the mask is set
     (∀ ms : ClusterId → VOp,
       (∀ c, s.guardOn h c → readVec (s.cluster c) r.rb (fun t => t == 15 || t == 4) e.reg2 = .ok (ms c)) →
       let off (c : ClusterId) : Nat := rowBytes (vs c).tag * extRow (s.cluster c) e
       (∀ c, s.guardOn h c → (homeView al c).holds (off c) (rowBytes (vs c).tag) = true) → s.cur.cisPoison = [] →
       Answers (exec (.cstM h v hnd e) s) fun t => s.OnlyEngineBut (s.arrivedAt h 0) t ∧ ∀ c, s.guardOn h c → ∀ j, j < rowBytes (vs c).tag →
         let at_ := 64 * (homeView al c).unit ((off c + j) / 64) + (off c + j) % 64
         if ((ms c).lo.read (BitVec.ofNat 6 (j / 32))).getLsbD (j % 32) then some (t.cur.cistern.readByte at_) = (opBytes (vs c))[j]?
         else t.cur.cistern.readByte at_ = s.cur.cistern.readByte at_)) ∧
    -- CATOM, CATOM.FAR
    (∀ (kind : BitVec 4) (xs cs : ClusterId → VOp),
      (∀ c, s.guardOn h c → readVec (s.cluster c) r.rb (atomTag kind) e.reg2 = .ok (xs c) ∧
        (kind ≠ 11 → cs c = xs c) ∧ (kind = 11 → readVec (s.cluster c) r.rb (· == (xs c).tag) v = .ok (cs c))) →
      let on := allClusters.filter fun c => (s.cluster c).pred h.guard
      let a (c : ClusterId) : DWord := (s.cluster c).a.read (e.row.extractLsb' 0 5)
      let farRow (c : ClusterId) : Nat := if e.mode then ((a c).extractLsb' 0 32).toNat else e.row.toNat
      let ask (home : Bool) (x : Alloc) (row : Nat) (ph : FarPhase) (c : ClusterId) : FarReq :=
        ⟨s.cur.tick.eng.stamp h.slot.num, c, r.kc + e.low.toNat, .atomic kind (elems64 (xs c)) (elems64 (cs c)), home, x, row,
          physV r.rb v, (xs c).tag, h.arrive, ph⟩
      let sent (t : State) (fs : List FarReq) : Prop := t.cur.cistern = s.cur.cistern ∧
        ∃ r', t.cur.run .primary = some r' ∧ r'.kc = r.kc + 1 ∧ r'.inflight = r.inflight ∧ r'.far = r.far ++ fs
      (hnd ∈ r.ins → hnd ∈ r.outs →
        ((∀ c, s.guardOn h c → (homeView al c).holds (atomBytes kind * extRow (s.cluster c) e) (atomBytes kind) = true) →
          Answers (exec (.catom h kind v hnd e) s) fun t => s.OnlyEngine t ∧
            sent t (on.map fun c => ask true al (extRow (s.cluster c) e) .waiting c)) ∧
        ((∀ c, s.guardOn h c → ¬(e.mode = true ∧ (a c).getLsbD 63 = true ∧ (a c).extractLsb' 56 7 ≠ s.active) ∧
            (farView al).holds (atomBytes kind * farRow c) (atomBytes kind) = true) →
          Answers (exec (.catomFar h kind v hnd e) s) fun t => s.OnlyEngine t ∧
            sent t (on.map fun c => ask false al (farRow c) .waiting c))) ∧
      ((∀ c, s.guardOn h c → e.mode = true ∧ (a c).getLsbD 63 = true ∧ (a c).extractLsb' 56 7 ≠ s.active ∧
          (a c).extractLsb' 56 7 ∈ s.peers s.active ∧ dieOf ((a c).extractLsb' 56 7) = dieOf s.active) →
        Answers (exec (.catomFar h kind v hnd e) s) fun t => t.mem = s.mem ∧
          (s.cur.heldRemotes = [] → sent t (on.map fun c => ask false ⟨0, 0, 0, 0, 0, 0⟩ (farRow c) .remote c)) ∧
          (s.cur.heldRemotes = [] → s.remotesOut s.active = [] →
            ∀ d, (t.core d).remoteQ = (s.core d).remoteQ ++ (on.filter fun c => (a c).extractLsb' 56 7 == d).map fun c =>
              ⟨s.active, d, .primary, c, r.kc + e.low.toNat, hnd, farRow c, kind, elems64 (xs c), elems64 (cs c), physV r.rb v⟩) ∧
          -- a cluster's next one waits while one that it sent has not performed
          ∀ m ∈ s.remotesOut s.active, m.pos = .primary → r.far.any (FarReq.answers m) = true → s.guardOn h m.cluster →
            ∃ n ∈ t.cur.heldRemotes, n.cluster = m.cluster ∧ n.target = (a m.cluster).extractLsb' 56 7))

/-- What steers a kernel, outside of loops and with guards that agree: a branch, the loops, the end of a body, HALT, KTRAP, LWAIT
and LOCK. A false guard makes each of them nothing; guards that differ end the kernel with DIVERGE (R134 to R137, R142 to
R145, R198). -/
def Obligations.SteeringResults : Prop :=
  ∀ (s : State) (r : KernelRun) (h : SlotHdr) (target : BitVec 12) (lvl : BitVec 3) (trip : BitVec 7) (len : BitVec 6)
      (n : BitVec 4) (ra : BitVec 5) (code : BitVec 16), s.Issues r →
    let next (i : Instr) (P : KernelRun → Prop) : Prop := Answers (exec i s) fun t =>
      s.OnlyEngine t ∧ ∃ r', t.cur.run .primary = some r' ∧ r'.kc = r.kc + 1 ∧ P r'
    let ops : List Instr := [.br h target, .loopi h lvl trip len, .lwait h n, .ktrap h code, .halt h]
    (r.loops = [] → (∀ c, s.guardOn h c) →
      next (.br h target) (fun r' => r'.idx = target.toNat ∧ r'.loops = [] ∧ r'.ending = none) ∧
      next (.halt h) (fun r' => r'.ending = some .halted) ∧
      next (.ktrap h code) (fun r' => r'.ending = some (.ktrap code)) ∧
      (trip = 0 → next (.loopi h lvl trip len) (fun r' => r'.idx = r.idx + len.toNat + 2 ∧ r'.loops = [])) ∧
      (trip ≠ 0 → lvl.toNat < 6 → Answers (exec (.loopi h lvl trip len) s) fun t =>
        (∀ c, (t.cluster c).lc[lvl.toNat]? = some 0) ∧ ∃ r', t.cur.run .primary = some r' ∧ r'.kc = r.kc + 1 ∧
          r'.idx = r.idx + 1 ∧ r'.loops = [⟨lvl, r.idx + 1, r.idx + len.toNat + 1, trip.toNat, false, trip.toNat, 0⟩]) ∧
      -- the other forms: a trip count from a register, and software pipelining, whose first stage alone is on
      (∀ x : DWord, (∀ c, (s.cluster c).a.read ra = x) → x ≠ 0 → lvl.toNat < 6 →
        next (.loop h lvl ra false len) (fun r' => r'.idx = r.idx + 1 ∧
          r'.loops = [⟨lvl, r.idx + 1, r.idx + len.toNat + 1, x.toNat, false, x.toNat, 0⟩])) ∧
      (∀ (m : BitVec 6) (st : BitVec 3) (ii : BitVec 4) (x : DWord), lvl.toNat < 6 →
        let piped (i : Instr) (trip : Nat) : Prop := Answers (exec i s) fun t =>
          (∀ c (p : BitVec 4), (t.cluster c).p.read p = if p.toNat < 8 then (s.cluster c).p.read p else p == 8) ∧
          ∃ r', t.cur.run .primary = some r' ∧ r'.kc = r.kc + 1 ∧ r'.idx = r.idx + 1 ∧
            r'.loops = [⟨lvl, r.idx + 1, r.idx + ii.toNat + 1, trip + st.toNat, true, trip, st.toNat + 1⟩]
        (m ≠ 0 → piped (.loopiSw h lvl m st ii) m.toNat) ∧
        ((∀ c, (s.cluster c).a.read ra = x) → x ≠ 0 → piped (.loopSw h lvl ra false st ii) x.toNat)) ∧
      ((∀ c, outstanding s.cur r c ≤ n.toNat) → next (.lwait h n) (fun r' => r'.idx = r.idx + 1)) ∧
      ((∃ c, n.toNat < outstanding s.cur r c) → Answers (exec (.lwait h n) s) fun t =>
        t.cur.run .primary = some r ∧ t.cur.freeze = s.cur.freeze + 1 ∧ t.cur.clusters = s.cur.clusters) ∧
      (∀ x : DWord, (∀ c, (s.cluster c).a.read ra = x) → (∀ b ∈ lockBanks x, b < Config.banks ∧ ∀ o ∈ s.cur.eng.owed, o.1 ≠ b) →
        next (.lock h n ra) (fun r' =>
          r'.lock = some ⟨lockBanks x, n.toNat, s.cur.tick.eng.clock + 64⟩ ∧ r'.idx = r.idx + 1))) ∧
    (r.loops = [] → (∀ c, ¬s.guardOn h c) → ∀ i ∈ ops, next i (fun r' => r'.idx = r.idx + 1 ∧ r'.inflight = r.inflight ∧
      r'.ending = none ∧ r'.loops = [])) ∧
    ((∃ c, s.guardOn h c) → (∃ c, ¬s.guardOn h c) → s.quietFar r → ∀ i ∈ ops, Answers (exec i s) (s.KernelFaulted r 6 h.slot.num)) ∧
    (∀ l, r.loops = [l] → l.sw = false → l.last = r.idx →
      let j := ((s.cluster 0).lc.toList[l.level.toNat]?).getD 0
      (j.toNat + 1 < l.count → next (.slotNop h) (fun r' => r'.idx = l.first ∧ r'.loops = [l])) ∧
      (l.count ≤ j.toNat + 1 → next (.slotNop h) (fun r' => r'.idx = r.idx + 1 ∧ r'.loops = [])))

/-! ### The kernel engine -/

/-- The engine's events. A bundle of a lone primary issues, its operations joined from slot A to H, or the move of a spilled register where
a translated image has one there (R436); the fairness cc issues the secondary alone; the banks serve the request that goes first, whose data
then lands and is delivered at its kc, and a unit that fails its ECC, of that request or of an access of the core's own, or its transit CRC
as it is written, goes on poisoned, as one that is corrected is counted; a result is written at its kc and its arrival counts at the
barrier; a push's products enter its row; a lock's hold ends with its 64 cc, that of an ended kernel too; a remote atomic performs at its
target, and the next one of its party leaves its core then; an ended kernel leaves its position, with what its command does (R44, R48, R51,
R142, R179, R207 to R209, R212, R236, R259, R262, R264, R265, R294, R362, R384, R390). The order of the events is log 1, that csr.freeze
counts the busiest bank is log 29, that the secondary is promoted in the step of KERNEL_END is log 31, what an ECC check meets log 63, and
what passes through a full landing buffer log 77. -/
def Obligations.EngineEvents : Prop :=
  ∀ (s : State) (c : CoreId) (pos : KPos) (r : KernelRun),
    let k := s.core c
    -- KERNEL_BUNDLE_ISSUE
    (∀ w ops x, k.Issues r → r.image.bundles[r.idx]? = some w → decodeBundle w = .ok ops → bundleMatch k r = none →
      r.idx ∉ r.image.corrupt →
      (match r.image.moveAt r.idx with
        | none => (joinOps (s.slotCtxOn c r) r ops).toOption
        | some m => (slotSpill m (s.slotCtxOn c r ⟨.G, 0, none⟩)).toOption.map fun y => y.inSlot Slot.G.num) = some x →
      x.wait = none → (∀ banks n, Ctl.lock banks n ∉ x.ctl) →
      Answers (exec (.kernelBundleIssue c) s) fun t =>
        (t.core c).kcycle = r.kc + 1 ∧ (t.core c).g = k.g ∧ t.mem = s.mem ∧
        ∃ r', (t.core c).run .primary = some r' ∧ r'.kc = r.kc + 1 ∧
          (k.heldRemotes = [] ∨ x.remote = [] → (∀ m ∈ x.remote, dieOf m.src = dieOf m.target) → r'.far = r.far ++ x.far) ∧
          r'.inflight = r.inflight ++ (x.effs.filter fun e => e.lat != 0).map (fun e => ⟨k.tick.eng.stamp e.slot, r.kc + e.lat, e.cluster, e.what, e.arrive⟩)) ∧
    -- SECONDARY_FAIRNESS_ISSUE
    (∀ r2 x, k.run .primary = some r → r.Clear → k.run .secondary = some r2 → r2.Clear → r2.live = true → k.eng.stopped = none → k.halt = none →
      Config.fairness ≤ k.eng.blocked → planRun k.tick .secondary c (s.peers c) none = .issue x →
      Answers (exec (.secondaryFairnessIssue c) s) fun t =>
        (t.core c).run .primary = some r ∧ (t.core c).eng.blocked = 0 ∧ (t.core c).kcycle = k.kcycle ∧
        (t.core c).freeze = k.freeze + 1 + bankExtra x.units ∧ ∃ r', (t.core c).run .secondary = some r' ∧ r'.kc = r2.kc + 1) ∧
    -- BANK_REQUEST_SERVICE
    (∀ f rest, k.run .primary = some r → r.far = f :: rest → k.nextWaiting = some (.primary, f) →
      let v := if f.home then homeView f.alloc f.cluster else farView f.alloc
      let n := rowBytes f.tag
      let served (d : Bank 6 DWord) (bad : Bool) : KernelRun := { r with far := { f with phase := .served d bad } :: rest }
      ∀ u0 : Nat,
      (f.op = .load → Answers (exec (.bankRequestService ⟨c, .clean, u0⟩) s) fun t =>
        OnlyCore c s t ∧ (t.core c).cistern = k.cistern ∧
        (t.core c).run .primary = some (served (loadElems k v f.tag f.row) (anyPoison k.cisPoison (v.units (n * f.row) n)))) ∧
      (∀ kind x y, f.op = .atomic kind x y → let a := atomRow k.cistern k.cisPoison v kind f.row x y
        Answers (exec (.bankRequestService ⟨c, .clean, u0⟩) s) fun t =>
          OnlyCore c s t ∧ (t.core c).cistern = a.1 ∧ (t.core c).run .primary = some (served a.2.1 a.2.2.1)) ∧
      (∀ u, f.units.head? = some u → Answers (exec (.bankRequestService ⟨c, .uncorrectable, u0⟩) s) (fun t =>
        u ∈ (t.core c).cisPoison ∧ (f.op = .load → (t.core c).run .primary = some (served (loadElems k v f.tag f.row) true))) ∧
        ∀ symbol, Answers (exec (.bankRequestService ⟨c, .corrected symbol, u0⟩) s) fun t =>
          t = (s.telemetry (dieOf c) (some c) 4 [2, BitVec.ofNat 64 u, symbol]).modCore c CoreSt.serveOne)) ∧
    -- ECC of a unit that a bundle or a command reads, and the transit CRC of one that is written
    (∀ u, u < Config.banks * Config.bankRows → Answers (exec (.bankRequestService ⟨c, .transit, u⟩) s) fun t =>
      t = ((s.telemetry (dieOf c) (some c) 5 [2, BitVec.ofNat 64 u, 2]).modCore c fun k =>
        { k with cisPoison := insertNat u k.cisPoison }).modCore c CoreSt.serveOne) ∧
    (∀ u symbol, k.nextWaiting = none → u < Config.banks * Config.bankRows →
      Answers (exec (.bankRequestService ⟨c, .uncorrectable, u⟩) s) (fun t => u ∈ (t.core c).cisPoison ∧ (t.core c).cistern = k.cistern) ∧
      Answers (exec (.bankRequestService ⟨c, .corrected symbol, u⟩) s) fun t =>
        t = s.telemetry (dieOf c) (some c) 4 [2, BitVec.ofNat 64 u, symbol]) ∧
    -- the accesses of remote atomics and commands at the banks: served, or kept waiting
    (∀ who banks act, ((∀ b ∈ banks, b ∉ k.lockedBanks ∧ b ∉ k.aheadOf who) →
        s.withBanks c who banks act = act (s.modCore c fun k => k.leaveBanks who)) ∧
      ((∃ b ∈ banks, b ∈ k.lockedBanks ∨ b ∈ k.aheadOf who) →
        s.withBanks c who banks act = s.modCore c fun k => k.joinBanks who banks) ∧
      (∀ b ∈ k.farBanks, b ∈ k.aheadOf who) ∧ (who.isRemote = false → ∀ m ∈ k.remoteQ, ∀ b ∈ remoteBanks k m, b ∈ k.aheadOf who)) ∧
    -- LANDING_ARRIVAL
    (∀ f rest d bad, k.run .primary = some r → r.far = f :: rest → f.phase = .served d bad →
      (landedIn k f.cluster < Config.landingBuf → Answers (exec (.landingArrival c f.cluster) s) fun t =>
        OnlyCore c s t ∧ (t.core c).run .primary = some { r with far := { f with phase := .landed d bad } :: rest }) ∧
      (Config.landingBuf ≤ landedIn k f.cluster → k.run .secondary = none →
        (f.due ≤ r.kc → Answers (exec (.landingArrival c f.cluster) s) fun t =>
          OnlyCore c s t ∧ (t.core c).run .primary = some { r with far := { f with phase := .landed d bad } :: rest }) ∧
        ((∀ g ∈ r.far, g.cluster = f.cluster → r.kc < g.due) → exec (.landingArrival c f.cluster) s = .next s))) ∧
    -- LANDING_DELIVERY
    (∀ f d, k.run pos = some r → r.inflight = [] → r.far = [f] → f.due ≤ r.kc → f.phase = .landed d false → f.arrive = none →
      tagPair f.tag = false → Answers (exec (.landingDelivery c pos) s) fun t =>
        OnlyCore c s t ∧ (t.core c).run pos = some { r with far := [] } ∧
        ((t.core c).clusters.read f.cluster).v.read f.dest = ⟨Bank.ofFn fun l => (d.read l).setWidth 32, f.tag⟩) ∧
    -- RESULT_WRITEBACK
    (∀ f, k.run pos = some r → r.inflight = [f] → r.far = [] → f.due ≤ r.kc → isContribution f.what = false → k.afterOther pos f = false →
      Answers (exec (.resultWriteback c pos) s) fun t =>
        OnlyCore c s t ∧ (∀ x, x ≠ f.cluster → (t.core c).clusters.read x = k.clusters.read x) ∧
        (∀ d x, f.what = .scalar d x → ∀ e, ((t.core c).clusters.read f.cluster).a.read e =
          if e = d then x else (k.clusters.read f.cluster).a.read e) ∧
        (∀ n, f.arrive = some n →
          let w := k.kb.read n
          let count := (w.extractLsb' 32 16).toNat + 1
          (count < (w.extractLsb' 0 16).toNat →
            (t.core c).kb.read n = w.extractLsb' 48 16 ++ BitVec.ofNat 16 count ++ w.extractLsb' 0 32) ∧
          (w.extractLsb' 0 16 = 0 → (t.core c).kb.read n = w) ∧
          ((w.extractLsb' 0 16).toNat = count → (t.core c).kb.read n = (w.extractLsb' 48 16 + 1) ++ (0 : BitVec 16) ++ w.extractLsb' 0 32))) ∧
    -- MPUSH_CONTRIBUTION
    (∀ f row ow cols sat, k.run pos = some r → r.inflight = [f] → r.far = [] → f.due ≤ r.kc → f.what = .contribution row ow cols sat →
      Answers (exec (.mpushContribution c pos) s) fun t =>
        OnlyCore c s t ∧ ∀ j, (((t.core c).clusters.read f.cluster).acc.read row).elems.read j =
          (foldProducts (if ow then ⟨0, .finite⟩ else ((k.clusters.read f.cluster).acc.read row).elems.read j) (cols.read j)).1) ∧
    -- LOCK_HOLD_END
    (k.run pos = some r → Answers (exec (.lockHoldEnd c pos) s) fun t => OnlyCore c s t ∧
      (t.core c).run pos = some { r with lock := r.lock.filter fun l => k.eng.clock ≤ l.ends } ∧
      ∀ l, l ∈ (t.core c).eng.left ↔ l ∈ k.eng.left ∧ k.eng.clock ≤ l.ends) ∧
    -- REMOTE_ATOMIC_MESSAGE
    (∀ m rest a f, k.remoteQ = m :: rest → m.target = c → m.src ≠ c → k.lockedBanks = [] → k.farBanks = [] →
      (∀ o ∈ k.eng.waiting, o.2.isRemote = true → o.2 = m.party) → k.handles.read m.handle = some a →
      (farView a).holds (atomBytes m.kind * m.row) (atomBytes m.kind) = true →
      (s.core m.src).run m.pos = some r → r.far = [f] → FarReq.answers m f = true → (s.core m.src).heldRemotes = [] →
      let x := atomRow k.cistern k.cisPoison (farView a) m.kind m.row m.x m.c
      Answers (exec (.remoteAtomicMessage c) s) fun t =>
        (t.core c).cistern = x.1 ∧ (t.core c).remoteQ = rest ∧
        (t.core m.src).run m.pos = some { r with far := [{ f with phase := .served x.2.1 x.2.2.1 }] }) ∧
    -- the next remote atomic of a party leaves its core when the one before has performed
    (∀ m n, k.remoteQ = [m] → m.target = c → m.src ≠ c → k.lockedBanks = [] → k.farBanks = [] →
      (∀ o ∈ k.eng.waiting, o.2.isRemote = true → o.2 = m.party) → (s.core m.src).heldRemotes = [n] → n.src = m.src →
      dieOf n.src = dieOf n.target → (∀ d, d ≠ c → ∀ y ∈ (s.core d).remoteQ, y.src ≠ m.src) → (∀ y ∈ s.meshMsgs, y.src ≠ m.src) →
      Answers (exec (.remoteAtomicMessage c) s) fun t => (t.core m.src).heldRemotes = [] ∧
        (t.core n.target).remoteQ = (if n.target = c then [] else (s.core n.target).remoteQ) ++ [n]) ∧
    -- KERNEL_END
    (∀ x, k.run pos = some r → k.eng.stopped = none → r.drained = true → r.arrivals = [] → r.merge = none → r.overflow = false →
      k.cmd r.entry = some x →
      let left (t : State) : Prop := (t.core c).run .secondary = none ∧
        (∀ l, r.lock = some l → k.eng.clock ≤ l.ends → l ∈ (t.core c).eng.left) ∧
        (t.core c).run .primary = (match pos with | .primary => k.run .secondary | .secondary => k.run .primary)
      (r.ending = some .halted → Answers (exec (.kernelEnd c pos) s) fun t =>
        left t ∧ (t.core c).cmd r.entry = some { x with phase := .moved, kend := 2 }) ∧
      (∀ code, r.ending = some (.ktrap code) → Answers (exec (.kernelEnd c pos) s) fun t =>
        left t ∧ (t.core c).cmd r.entry = some { x with phase := .moved, kend := 3, code := code, cause := 4 }) ∧
      (∀ kind b slot bundle, r.ending = some (.fault kind b slot bundle) → Answers (exec (.kernelEnd c pos) s) fun t =>
        left t ∧ (t.core c).commands = removeFirst (fun y => y.entry == x.entry) k.commands ∧
        (t.core c).cerr = { x with cause := 20, kend := 4 }.status ∧
        (t.core c).pending.getLast? = some (mkTrap cKfault (kfaultVal kind b pos slot bundle) r.word0 r.task (noSnap := r.noSnap))))

/-! ### Commands in service -/

/-- What becomes of a command in the table. Issue: SFREE frees its handle, SMARK completes at once, KERNEL starts its kernel, a command
that fails its check ends fatally with ENGINE, and a KERNEL that does with KFAULT (log 56). Its elements, one per turn and in order (log
10): SALLOC's rectangle is zeroed, SHAPE's record is read and checked, an element of SLOAD or SGATHER goes from memory to its places, one
of SSTORE or SSCATTER from the Cistern to memory, one of SCOPY from memory to memory, SCAN judges a candidate, an SSCADD adds at the
Wellhead, KSWAP reads and gives its image, a collective takes its contribution and writes its results. Completion signals, notifies and
leaves the table. A held task suspends; the host's answer lets a load or a command go on (R260, R306 to R335, R406, R407, R417). -/
def Obligations.CommandEvents : Prop :=
  ∀ (s : State) (c : CoreId),
    let k := s.core c
    (∀ (e : BitVec 6) (x : Cmd), k.cmd e = some x → k.swapHalted = false → k.halt = none →
    let gone : List Cmd := removeFirst (fun y => y.entry == e) k.commands
    -- COMMAND_ISSUE
    (canIssue k x = true →
      (∀ h hnd a, x.op = .sfree h hnd → k.handles.read hnd = some a → a.holder = x.task → (h.cnt && misaligned x.ctr 8) = false →
        Answers (exec (.commandIssue c e) s) fun t =>
          (∀ n, (t.core c).handles.read n = if n = hnd then none else k.handles.read n) ∧
          ∃ y, (t.core c).cmd e = some y ∧ y.phase = .moved ∧ y.errors = x.errors) ∧
      (∀ h ctr, x.op = .smark h ctr → h.cnt = false → h.waitSm = 0 →
        (k.sem.read h.signalSm).toNat + h.increment.toNat ≤ 65535 →
        Answers (exec (.commandIssue c e) s) fun t =>
          (t.core c).commands = gone ∧
          ∀ n, (t.core c).sem.read n =
            if n = h.signalSm ∧ n ≠ 0 then k.sem.read n + h.increment.setWidth 16 else k.sem.read n) ∧
      (∀ h knl shn hA hB hC hD ins outs ctr sh i pos, x.op = .kernel h knl shn hA hB hC hD ins outs ctr →
        k.shapes.read shn = some sh → sh.dyn = 0 → kernelCheck k x sh = true → k.imageOf knl = some i → i.spill = 0 →
        kernelSeat k x = some pos → h.waitSm = 0 → acquires h.order = false → (h.cnt && misaligned x.ctr 8) = false →
        Answers (exec (.commandIssue c e) s) fun t =>
          (t.core c).run pos = some (newRun knl i e x.word0 x.task x.launch (cmdIns x.op) (cmdOuts x.op) sh.recordCounts x.wid k.widths
            none) ∧
          (t.core c).cmd e = some { x with phase := .active, shape := some sh, counts := sh.recordCounts } ∧
          (pos = .primary → (t.core c).kcycle = 0 ∧ ∀ cl, (t.core c).clusters.read cl = (k.clusters.read cl).primaryStart cl x.wid) ∧
          (pos = .secondary → ∀ cl, (t.core c).clusters.read cl = (k.clusters.read cl).secondaryStart i cl x.wid)) ∧
      -- a collective's member is its core's at the issue, wherever its team runs later
      (∀ op comb grp p ms u, collArgs x.op = some (op, comb, grp) → s.partOf c = some p → s.group p grp = some ms →
        (s.consume c x).beginColl c x = some u → Answers (exec (.commandIssue c e) s) fun t =>
          ∃ y rank, (t.core c).cmd e = some y ∧ y.rank = some rank ∧ s.rankIn ms c = some rank ∧ y.seq = k.groupSeq.read grp) ∧
      (∀ h knl addr ctr, x.op = .kswap h knl addr ctr → k.imageOf knl = none →
        Answers (exec (.commandIssue c e) s) fun t =>
          (t.core c).commands = gone ∧ (t.core c).cerr = { x with cause := 17 }.status ∧
          (t.core c).pending.getLast? = some (mkTrap cEngine { x with cause := 17 }.status x.word0 x.task)) ∧
      ((if (collArgs x.op).isSome = true then (s.consume c x).beginColl c x else (s.consume c x).begin c x) = none →
        Answers (exec (.commandIssue c e) s) fun t =>
          (t.core c).commands = gone ∧ (t.core c).cerr = { x with cause := 17 }.status ∧
          (t.core c).pending.getLast? = some (if engineKind x.op = .kernel then mkTrap cKfault 0 x.word0 x.task
            else mkTrap cEngine { x with cause := 17 }.status x.word0 x.task))) ∧
    -- ENGINE_ELEMENT_ACCESS, WELLHEAD_SCATTER_ADD
    (x.phase = .active → x.pos < x.total → k.lockedBanks = [] → k.eng.owed = [] → k.aheadOf (.command e) = [] →
      (∀ o ∈ k.eng.waiting, o.2 ≠ .command e) →
      let moved (t : State) : Prop := ∃ y, (t.core c).cmd e = some y ∧ y.pos = x.pos + 1
      let read (ps : List (DWord × Nat)) (qs : List Piece) : Prop :=
        x.asked = [] ∧ s.probe c x ps = .ok qs ∧ qs.filterMap Piece.asks = []
      let one (bad : Bool) : Nat := if bad then 1 else 0
      (∀ h hnd bank nbanks row nrows a, x.op = .salloc h hnd bank nbanks row nrows → k.handles.read hnd = some a →
        Answers (exec (.engineElementAccess c e) s) fun t =>
          (t.core c).cmd e = some x.step ∧ OnlyCore c s t ∧
          ∀ u j, j < 64 →
            let b := u / Config.bankRows
            let i := u % Config.bankRows
            (t.core c).cistern.readByte (64 * u + j) =
              if a.bank ≤ b ∧ b < a.bank + a.nbanks ∧ a.row ≤ i ∧ i < a.row + a.nrows then 0 else k.cistern.readByte (64 * u + j)) ∧
      (∀ h addr n ctr qs, x.op = .shape h addr n ctr → read (pieces x.addr1 2 64) qs →
        let bs := (pieceBytes qs).map (·.1)
        let bad := (pieceBytes qs).any (·.2)
        (bad = false → (readShape bs).ok (wordAt bs 0) = true → Answers (exec (.engineElementAccess c e) s) fun t =>
          OnlyCore c s t ∧ (t.core c).shapes.read n = some (readShape bs) ∧ (t.core c).cmd e = some x.step) ∧
        ((bad = true ∨ (readShape bs).ok (wordAt bs 0) = false) → Answers (exec (.engineElementAccess c e) s) fun t =>
          (t.core c).shapes.read n = none ∧ (t.core c).commands = gone ∧
          (t.core c).cerr = { x.err 1 0 (one bad) with cause := 16 }.status)) ∧
      (∀ h tmode tag split addr hnd shn ctr sh a qs, x.op = .sload h tmode tag split addr hnd shn ctr → x.shape = some sh →
        k.handles.read hnd = some a → read (sh.pieces tag split x.addr1 (elemAddr k x sh x.pos)) qs →
        let bad := (pieceBytes qs).any (·.2)
        let w := k.writeSpots a (sh.spots tag (sh.placeOf tmode x.pos)) ((pieceBytes qs).map (·.1)) bad
        Answers (exec (.engineElementAccess c e) s) fun t =>
          OnlyCore c s t ∧ (t.core c).cistern = w.cistern ∧ (t.core c).cisPoison = w.cisPoison ∧
          (t.core c).cmd e = some (x.err 1 x.pos (one bad)).step) ∧
      (∀ h tag addr hnd shn idx ctr sh a i, x.op = .sgather h tag addr hnd shn idx ctr → x.shape = some sh →
        k.handles.read hnd = some a → k.handles.read idx = some i → indexBad k x i x.pos = false →
        (indexAddr k x sh i x.pos = none → Answers (exec (.engineElementAccess c e) s) (s.Became c (k.modCmd e fun _ => x.step))) ∧
        (∀ va qs, indexAddr k x sh i x.pos = some va → misaligned va (min sh.esize.toNat 8) = false →
          (∀ m ∈ sharing k x sh i x.pos, x.pos ≤ m) → read (sh.pieces tag false x.addr1 va) qs →
          let bad := (pieceBytes qs).any (·.2)
          let all := (sharing k x sh i x.pos).map (sh.spots tag)
          let w := all.foldl (fun k y => k.writeSpots a y ((pieceBytes qs).map (·.1)) bad) k
          Answers (exec (.engineElementAccess c e) s) fun t =>
            OnlyCore c s t ∧ (t.core c).cistern = w.cistern ∧ (t.core c).cisPoison = w.cisPoison ∧ moved t)) ∧
      (∀ h tag addr hnd shn idx ctr sh a i, x.op = .sscatter h tag addr hnd shn idx ctr → x.shape = some sh →
        k.handles.read hnd = some a → k.handles.read idx = some i → indexBad k x i x.pos = false →
        (indexAddr k x sh i x.pos = none → Answers (exec (.engineElementAccess c e) s) (s.Became c (k.modCmd e fun _ => x.step))) ∧
        (∀ va pa n u, indexAddr k x sh i x.pos = some va → misaligned va (min sh.esize.toNat 8) = false →
          (∀ m ∈ sharing k x sh i x.pos, m ≤ x.pos) → s.places c x (sh.pieces tag false x.addr1 va) = .ok ([(pa, n)], u) →
          u.tagged pa = false → inDevice pa n = true → (k.readSpots a (sh.spots tag x.pos)).1.length = n →
          Answers (exec (.engineElementAccess c e) s) fun t =>
            SameOutside pa n u t ∧ moved t ∧
            ∀ j, j < n → (k.readSpots a (sh.spots tag x.pos)).1[j]? = some (t.mem.readByte (pa + j)))) ∧
      (∀ h shn dst src sh qs pa n u, x.op = .scopy h shn dst src → x.shape = some sh →
        let off := BitVec.ofInt 64 (sh.sum k.widths x.wid 0 (digits x.counts x.pos))
        read (pieces (x.addr2 + off) 3 sh.esize.toNat) qs →
        s.places c x (pieces (x.addr1 + off) 3 sh.esize.toNat) = .ok ([(pa, n)], u) → u.tagged pa = false → inDevice pa n = true →
        (pieceBytes qs).length = n →
        Answers (exec (.engineElementAccess c e) s) fun t =>
          SameOutside pa n u t ∧ moved t ∧ ∀ j, j < n → ((pieceBytes qs).map (·.1))[j]? = some (t.mem.readByte (pa + j))) ∧
      (∀ h tag flush src list shn mask ctr sh a l m, x.op = .scan h tag flush false src list shn mask ctr → x.shape = some sh →
        k.handles.read src = some a → k.handles.read list = some l → k.handles.read mask = some m →
        let w := sh.esize.toNat
        let off := (sh.cbase.toNat + sh.sum k.widths x.wid 0 (digits x.counts x.pos)).toNat
        anyPoison k.cisPoison ((farView a).units off w) = false →
        let live := if elemNonzero tag flush (k.farNat a off w) then x.live ++ [x.pos] else x.live
        let done := (k.putFar l 0 (scanList live)).putFar m 0 (scanMask live x.total)
        Answers (exec (.engineElementAccess c e) s) fun t =>
          OnlyCore c s t ∧ (t.core c).cmd e = some { x with live := live }.step ∧
          (t.core c).cistern = if x.pos + 1 = x.total then done.cistern else k.cistern) ∧
      (∀ h knl addr ctr, x.op = .kswap h knl addr ctr → x.shape = none →
        (∀ qs, x.buffer.length < 64 → let need := 64 - x.buffer.length
          read (pieces (x.addr1 + BitVec.ofNat 64 x.buffer.length) (need / 64 + 2) need) qs →
          Answers (exec (.engineElementAccess c e) s) (s.Became c (k.modCmd e fun _ =>
            { x with buffer := x.buffer ++ pieceBytes qs, asked := [], phase := .active }))) ∧
        (let got := x.buffer.map (·.1)
         let y := readEntry (got.take 64)
         (64 ≤ got.length → y.start = 64 → y.count ≠ 0 → y.count ≤ Config.kstore → imageNeed got = 0 → s.swapPending c knl = true →
          exec (.engineElementAccess c e) s = .next s) ∧
         ∀ i, 64 ≤ got.length → y.start = 64 → y.count ≠ 0 → y.count ≤ Config.kstore → imageNeed got = 0 →
          s.swapPending c knl = false → x.buffer.any (·.2) = false → loadKernel y.frazin y (got.drop 64) = some i →
          Answers (exec (.engineElementAccess c e) s) fun t => moved t ∧
            ∀ d ∈ s.peers c, (t.core d).store = ((s.core d).takeImage knl { i with corrupt := [] }).store ∧
              -- the image that a kernel still runs keeps its room
              ∀ pos r, (s.core d).run pos = some r → r.handle = knl → r.image.bundles ≠ i.bundles →
                Config.kstore < r.image.bundles.length + i.bundles.length → (t.core d).store = (s.core d).store)) ∧
      (∀ op comb grp sh p ms rank, collArgs x.op = some (op, comb, grp) → x.shape = some sh → s.partOf c = some p →
        s.group p grp = some ms → x.rank = some rank → (∀ m ∈ ms, m.1 = s.devid ∧ s.partOf m.2 = some p) →
        let n := product sh.recordCounts
        let mine := givenBy op n ms.length rank
        (∀ qs, s.coll p grp x.seq = none → x.pos = 0 → read (bufferPieces k x sh mine) qs →
          Answers (exec (.engineElementAccess c e) s) fun t =>
            t.coll p grp x.seq = some ⟨p, grp, x.seq, op, comb, n, sh.esize.toNat, ms.length,
              [(rank, elemBytes sh.esize.toNat mine.length (pieceBytes qs))], false, false⟩ ∧
            OnlyCore c s { t with colls := s.colls } ∧ (t.core c).cmd e = some { x with pos := 1, asked := [], phase := .active }) ∧
        (∀ st u y, s.coll p grp x.seq = some st → x.pos ≠ 0 → st.mismatch = false → st.unreachable = false →
          st.members ≤ st.given.length → s.writeElems c x sh (st.results s.tick rank) = .ok (u, y) →
          Answers (exec (.engineElementAccess c e) s) fun t =>
            t.mem = u.mem ∧ (t.core c).cmd e = some { y with pos := 2 }.moveOn)) ∧
      (∀ h tag split addr hnd shn ctr sh a pa n u, x.op = .sstore h tag split addr hnd shn ctr → x.shape = some sh →
        k.handles.read hnd = some a →
        s.places c x (sh.pieces tag split x.addr1 (elemAddr k x sh x.pos)) = .ok ([(pa, n)], u) → u.tagged pa = false →
        inDevice pa n = true → (k.readSpots a (sh.spots tag x.pos)).1.length = n →
        Answers (exec (.engineElementAccess c e) s) fun t =>
          SameOutside pa n u t ∧ moved t ∧
          ∀ j, j < n → (k.readSpots a (sh.spots tag x.pos)).1[j]? = some (t.mem.readByte (pa + j))) ∧
      (∀ h tag form addr hnd shn idx ctr sh p a i va pa u, x.op = .sscadd h tag form addr hnd shn idx ctr → x.shape = some sh →
        pumpArgs x.op = some p → k.handles.read hnd = some a → k.handles.read idx = some i →
        indexAddr k x sh i x.pos = some va → addsHere k x sh i = true →
        s.places c x [(va, sh.esize.toNat)] = .ok ([(pa, sh.esize.toNat)], u) → u.tagged pa = false → inDevice pa sh.esize.toNat = true →
        let n := sh.esize.toNat
        let vals := (sharing k x sh i x.pos).map fun m => BitVec.ofNat 64 (ofBytesLE (k.readSpots a (sh.spots tag m)).1)
        Answers (exec (.wellheadScatterAdd c e) s) fun t =>
          SameOutside pa n u t ∧ moved t ∧
          t.mem.readNat pa n = (formAdd form n (BitVec.ofNat 64 (u.mem.readNat pa n)) (combineAll form n vals).1).1.toNat % 2 ^ (8 * n))) ∧
    -- COMMAND_COMPLETION
    (x.phase = .moved → s.swapHeld c x = true → x.hdr.cnt = false →
      (k.sem.read x.hdr.signalSm).toNat + x.hdr.increment.toNat ≤ 65535 → k.notifs.length < Config.notifications →
      Answers (exec (.commandCompletion c e) s) fun t =>
        (t.core c).commands = gone ∧
        (t.core c).notifs = (if x.hdr.ntf then k.notifs ++ [⟨x.task, x.word0, x.status⟩] else k.notifs) ∧
        (t.core c).cerr = (if x.cause = 0 then k.cerr else x.status) ∧
        ∀ n, (t.core c).sem.read n =
          if n = x.hdr.signalSm ∧ n ≠ 0 then k.sem.read n + x.hdr.increment.setWidth 16 else k.sem.read n) ∧
    -- ACQ_COMMAND_TIMEOUT
    (∀ r p, k.hold = some e → x.phase = .waiting → k.running = some r → k.sys = false → s.partOf c = some p →
      Answers (exec (.acqCommandTimeout c) s) fun t =>
        (t.core c).hold = none ∧ (t.core c).running = none ∧ (t.core c).commands = k.commands) ∧
    -- HOST_MEMORY_REPLY
    (∀ bytes failed q qs, x.phase = .hostWait → x.asked.filterMap Piece.asks = q :: qs → (s.linkOf .host).retired = false →
      Answers (exec (.hostMemoryReply (.command c e) bytes failed) s) (fun t => (t.core c).cmd e = some (x.answered bytes failed)) ∧
      (∀ pa, x.asked = [.host pa bytes.length] → x.pos < x.total →
        x.answered bytes failed = { x with asked := [.data bytes failed], phase := .active }))) ∧
    (∀ bytes h, k.hostHold = some h → (s.linkOf .host).retired = false →
      (Answers (exec (.hostMemoryReply (.control c) bytes false) s) fun t =>
        OnlyCore c s t ∧ (t.core c).hostHold = none ∧ (t.core c).pc = k.pc + 4 ∧ ∀ n, (t.core c).readG n =
          if n = h.dest ∧ n ≠ 0 then BitVec.ofNat 64 (ofBytesLE (bytes.take h.size)) else k.readG n) ∧
      (k.sys = false → k.tvec ≠ 0 → Answers (exec (.hostMemoryReply (.control c) bytes true) s) fun t =>
        (t.core c).hostHold = none ∧ (t.core c).sys = true ∧ (t.core c).pc = k.tvec ∧ (t.core c).tcause = 8 ∧
        (t.core c).tepc = k.pc ∧ (t.core c).tval = h.va))

/-! ### Tasks, teams and launches -/

/-- What becomes of tasks. An idle core picks up the first eligible record, unless a lower core of its team could, and runs it, with
the launch's widths where its last task was of another launch; a bad record (which records are bad, and that one leaves its queue, is
log 52) raises RECORD; a watched or swept word is re-read, and its task becomes ready when the condition holds; a parked child merges
at its turn, view by view and block by block, and leaves its team, and so does a poisoned one, which is held while a copy finds the pool
empty (log 21); a merge whose task areas hold poison is merge-faulted, and a record or a launch that holds it raises RECORD (R382, log 65);
a share that has no task left reports, and a launch whose device counter is 0 completes (R32, R37, R204, R219, R220, R221, R224, R225, R243,
R256, R276). -/
def Obligations.TaskEvents : Prop :=
  ∀ (s : State) (c : CoreId) (p : PartId),
    let k := s.core c
    -- TASK_PICKUP
    (∀ t r, s.partOf c = some p → s.teamOf c = some t → s.idles c = true → s.firstEligible p c t.ready = some r →
      (s.yields p c t r = true → exec (.taskPickup c) s = .next s) ∧ (s.yields p c t r = false →
      let u := s.modTeam (Team.is t.part t.launch t.index) fun t => { t with ready := t.ready.erase r }
      (u.recordBad p r = true ∨ u.poisonedIn p t.launch.toNat 64 = true → Answers (exec (.taskPickup c) s) fun v =>
        (v.core c).running = none ∧ (v.core c).pending = [mkTrap cRecord (r.setWidth 64) 0 r] ∧ v.teams = u.teams) ∧
      (u.recordBad p r = false → u.poisonedIn p t.launch.toNat 64 = false → u.taskState p r = 1 → Answers (exec (.taskPickup c) s) fun v =>
        (v.core c).running = some r ∧ (v.core c).pc = ((u.recWord p r 0).extractLsb' 0 48).setWidth 64 ∧
        (v.core c).g = (u.setTaskState p r 2).savedRegs p r ∧ (v.core c).inHandler = false ∧
        (v.core c).uie = (u.recWord p r 0).getLsbD 58 ∧ v.teams = u.teams ∧
        (v.core c).wid = (u.setTaskState p r 2).recWord p r 1 ∧ (v.core c).widthsOf = some (t.part, t.launch) ∧
        (v.core c).widths = if k.widthsOf = some (t.part, t.launch) then k.widths
          else (((u.setTaskState p r 2).read64In p (t.launch.toNat + 16)).extractLsb' 0 36).setWidth 64))) ∧
    -- MONITOR_REREAD, SWEEP_REREAD
    (∀ m pa, s.partOf c = some p → s.resolve c false m.va.toNat .load = .ok (pa, s) → isHost pa = false → s.poisoned pa 8 = false →
      let holds := meets m.mode (s.read64 pa) m.cmp
      let woken (v : State) : Prop := ∀ t, s.teamWith p m.task = some t →
        ∃ t' ∈ v.teams, t'.launch = t.launch ∧ t'.index = t.index ∧ t'.ready = t.ready ++ [m.task]
      (∀ n : BitVec 6, k.monitors[n.toNat]? = some m → m.dirty = true →
        (holds = true → Answers (exec (.monitorReread c n) s) fun v => (v.core c).monitors.length + 1 = k.monitors.length ∧ woken v) ∧
        (holds = false → Answers (exec (.monitorReread c n) s) fun v =>
          OnlyCore c s v ∧ (v.core c).monitors = k.monitors.set n.toNat { m with dirty := false })) ∧
      (k.sweep = [m] →
        (holds = true → Answers (exec (.sweepReread c) s) fun v => (v.core c).sweep = [] ∧ woken v) ∧
        (holds = false → Answers (exec (.sweepReread c) s) fun v =>
          OnlyCore c s v ∧ (v.core c).sweep = [{ m with dirty := false }]))) ∧
    -- CHILD_MERGE, POISONED_MERGE
    (∀ child, (s.taskInfo p child).isSome = true → (s.teams.filter (Team.holds p child)).length ≤ 1 → s.isTurn p child = true →
      (s.taskState p child = 4 → s.mergeBad p child = true → (s.core (s.mergeCore p (s.parentOf p child))).merging child = false →
        exec (.childMerge p child) s = .next (s.mergeFault p child (s.mergeBlock p child).1 (s.mergeBlock p child).2 cPoison)) ∧
      (s.taskState p child = 4 → (s.core (s.mergeCore p (s.parentOf p child))).merging child = true → exec (.childMerge p child) s = .next s) ∧
      (s.taskState p child = 4 → s.views p child = [] → s.mergeBad p child = false → (s.core (s.mergeCore p (s.parentOf p child))).merging child = false →
        Answers (exec (.childMerge p child) s) fun v => ∀ t ∈ v.teams, Team.holds p child t = false) ∧
      (s.taskState p child = 7 →
        (∀ u, s.poisonMarks p child = some u → Answers (exec (.poisonedMerge p child) s) fun v =>
          ∀ t ∈ v.teams, Team.holds p child t = false) ∧
        -- a copy that finds the pool empty holds the merge (R276)
        (s.poisonMarks p child = none → exec (.poisonedMerge p child) s = .next s)) ∧
      -- one view: its units from where the merge stands, then the status, then the next view, or a merge fault
      (∀ info l r x u bad sat, s.taskState p child = 4 → s.mergeBad p child = false → (s.core (s.mergeCore p (s.parentOf p child))).merging child = false →
        s.taskInfo p child = some info → info.view < 7 → s.viewEntry p child info.view = r →
        s.viewEntry p (s.parentOf p child) info.view = l → r.valid = true → l.valid = true → r.op ≠ 7 →
        x = MergeCtx.mk p child (s.mergeCore p (s.parentOf p child)) l.working r.working r.geom r.op →
        (x.mergeFrom (x.units - info.unit) info.unit s = (u, bad, sat, none) → exec (.childMerge p child) s =
          .next (((u.addStatus p (s.parentOf p child) bad sat).mergeAt p child (info.view + 1) 0).mergeViews p child 7)) ∧
        ∀ n cause va, x.mergeFrom (x.units - info.unit) info.unit s = (u, bad, sat, some (n, cause, va)) →
          exec (.childMerge p child) s = .next (((u.addStatus p (s.parentOf p child) bad sat).mergeAt p child info.view n).mergeFault
            p child info.view (((x.span n)[0]?).getD 0) cause)) ∧
      -- a fault of the task areas names the block at which the merge stands
      (∀ info x, s.taskInfo p child = some info → s.viewEntry p child info.view = x → x.op ≠ 7 →
        s.mergeBlock p child = (info.view, ((((s.mergeCtx p child info.view).span info.unit)[0]?).getD 0)))) ∧
    -- one block of a view that lies in memory on both sides: the parent's block becomes parent ⊕ child, or is poisoned and stays
    (∀ (x : MergeCtx) (n pa pb : Nat), x.op ≠ 6 → inCistern x.left = false → inCistern x.right = false →
      s.resolveIn x.part (tileAddr x.left + 64 * n) .store = .ok (pa, s) → s.resolveIn x.part (tileAddr x.left + 64 * n) .load = .ok (pa, s) →
      s.resolveIn x.part (tileAddr x.right + 64 * n) .load = .ok (pb, s) → isHost pa = false → isHost pb = false →
      inDevice pa 64 = true → s.tagged pa = false → s.poisoned pa 64 = false →
      let z := combineBytes x.op x.geom (s.bytesPhys pa 64) (s.bytesPhys pb 64)
      (s.poisoned pb 64 = false → z.1.length = 64 → ∃ v, x.mergeUnit s n = (v, false, z.2) ∧ SameOutside pa 64 s v ∧
        ∀ j, j < 64 → z.1[j]? = some (v.mem.readByte (pa + j))) ∧
      (s.poisoned pb 64 = true → ∃ v, x.mergeUnit s n = (v, true, false) ∧ v.mem = s.mem ∧ blockOf pa ∈ v.poison)) ∧
    -- the completion tree
    (∀ (a : Admitted) (t : Team) (pos : Nat),
      (s.admitted p t.launch = some a →
        let n := s.shareCounter a (t.index.toNat * t.size + pos)
        let u := s.treeAdd p n (-1)
        s.shareAdd p t pos 1 = s.treeAdd p n 1 ∧
        (u.readIn p n 8 ≠ 0 → s.shareAdd p t pos (-1) = u) ∧
        (u.readIn p n 8 = 0 → s.shareAdd p t pos (-1) = u.reportShare a ((t.dies[pos]?).getD 0))) ∧
      (∀ d, let h := s.treeRecord a.part a.header
        let die := h + 8 + 8 * d.toNat
        let u := s.treeAdd a.part die (-1)
        (u.readIn a.part die 8 ≠ 0 → s.reportShare a d = u) ∧
        (u.readIn a.part die 8 = 0 → s.reportShare a d = (u.treeAdd a.part h (-1)).maybeComplete a)) ∧
      (s.readIn a.part (s.treeRecord a.part a.header) 8 ≠ 0 → s.maybeComplete a = s) ∧
      (s.readIn a.part (s.treeRecord a.part a.header) 8 = 0 → let v := s.maybeComplete a
        v.launches = s.launches.filter (fun y => !(y.part == a.part && y.launch == a.launch)) ∧
        v.teams.map (fun t => (t.part, t.launch, t.index, t.tasks)) = (s.teams.filter fun y =>
          !(y.part == a.part && y.launch == a.launch)).map (fun t => (t.part, t.launch, t.index, t.tasks)) ∧
        ((s.read64In a.part (a.launch.toNat + 16)).getLsbD 40 = true → s.poisonedIn a.part a.launch.toNat 64 = false → v.host.istat.getLsbD a.part.toNat = true)))

/-- The placer and the loader. A launch whose work ID cannot hold it, or whose record holds poison (log 65), is refused and leaves its
queue; one that the period still has to wait for stays; one that can be placed is admitted with all its teams. A team starts on the free
cores; a lone team keeps its cores over its quantum (periods and their turns are log 48); a team that makes way for one admitted into the
period is saved and unbound, or halted where it cannot be (where a saved context then lies, log 64). A code object whose base is no page,
or that has no usable image, is not loaded, and the host hears; one that loads binds the kernels of the image chosen, at the lowest free
handles (log 26), on every core of the partition (R39, R91, R203, R250 to R252, R370, R373, R374, R432, R441). -/
def Obligations.PlacerEvents : Prop :=
  ∀ (s : State) (p : PartId) (l : Addr) (i : BitVec 32) (prefer : List CoreId),
    -- LAUNCH_ADMISSION
    (∀ q, s.headLaunch p = some (q, l) →
      let x := s.demand p l
      let y := s.part p
      let popped := s.modPart p fun y => { y with queues := y.queues.modify q (·.drop 1) }
      let size := (y.ctsize.extractLsb' 0 32).toNat
      let limit := min (max (y.pctl.extractLsb' 0 9).toNat 1) 256
      let free := takeFree y.ctUsed size (x.records + y.ctUsed.length) x.records 0
      let fits := x.cores ≤ (s.coresOf p).length ∧ x.cistern ≤ 12582912 ∧ y.ctbase.extractLsb' 12 36 ≠ 0 ∧ x.records ≤ size
      (s.poisonedIn p l.toNat 64 = true ∨ x.widthOk = false ∨ ¬fits → Answers (exec (.launchAdmission p prefer) s) fun t =>
        (t.part p).queues.read q = (y.queues.read q).drop 1 ∧ t.launches = s.launches ∧ t.teams = s.teams) ∧
      (s.poisonedIn p l.toNat 64 = false → x.widthOk = true → fits → (limit ≤ (s.launches.filter fun a => a.part == p).length ∨ free.length < x.records) →
        exec (.launchAdmission p prefer) s = .next s) ∧
      (∀ s1 s2, s.poisonedIn p l.toNat 64 = false → x.widthOk = true → fits →
        (s.launches.filter fun a => a.part == p).length < limit → x.records ≤ free.length →
        popped.placeTree x ((List.range x.records).zip free) = .ok s1 → s1.placeTasks x (List.range x.positions) = .ok s2 →
        0 < x.teams → (∀ t ∈ s.teams, t.saved = []) →
        Answers (exec (.launchAdmission p prefer) s) fun t =>
          (t.part p).queues.read q = (y.queues.read q).drop 1 ∧ t.teams.length = s.teams.length + x.teams ∧
          t.launches = s.launches ++ [⟨p, l, nth free 0 0, free.drop 1, x.teams, x.cores⟩])) ∧
    -- SWAP_IN
    (∀ t, let u := s.turnPeriod p
      nextTeam (u.teamsOf p) (u.freeCores p).length = some t → Team.is p l i t = true → t.saved = [] → t.everBound = false →
      Answers (exec (.swapIn p l i prefer) s) fun v =>
        ∃ t' ∈ v.teams, Team.is p l i t' = true ∧ t'.running = true ∧ t'.bound = pickCores (u.freeCores p) prefer t.size) ∧
    -- QUANTUM_END
    (∀ t, s.teamsOf p = [t] → Team.is p l i t = true → t.running = true → t.halted = false →
      Answers (exec (.quantumEnd p l i prefer) s) fun v => ∃ t' ∈ v.teams, Team.is p l i t' = true ∧ t'.running = true ∧
        t'.bound = t.bound ∧ t'.hadQuantum = false) ∧
    -- SWAP_OUT
    (∀ t, s.teams.find? (Team.is p l i) = some t → t.running = true → t.halted = false → s.canHalt t = true →
      ((s.teamsOf p).any fun w => w.inPeriod && w.joined && !w.hadQuantum && !w.running && !w.halted && decide ((s.freeCores p).length < w.size) &&
        t.prio.ult w.prio) = true →
      ((teamOrder ((s.teamsOf p).filter fun x => x.running && !x.halted)).getLast?.map (Team.is p l i)) = some true →
      (∀ u done, (t.bound.foldl (fun s c => s.haltCore c) s).saveContexts t t.bound.zipIdx [] = (u, .ok done) →
        Answers (exec (.swapOut p l i) s) fun v => ∃ t' ∈ v.teams, Team.is p l i t' = true ∧ t'.running = false ∧ t'.bound = [] ∧
          t'.saved.map (fun x => { x with place := .slot 0 }) = done.map fun x => { x with place := .slot 0 }) ∧
      (∀ u va, (t.bound.foldl (fun s c => s.haltCore c) s).saveContexts t t.bound.zipIdx [] = (u, .error va) →
        Answers (exec (.swapOut p l i) s) fun v => ∃ t' ∈ v.teams, Team.is p l i t' = true ∧ t'.halted = true ∧ t'.bound = t.bound)) ∧
    -- CODE_OBJECT_LOAD
    (∀ (obj base frames : Addr) (meetings : List Word),
      let refused := exec (.codeObjectLoad p obj base frames meetings) s =
        .next { s with host := { s.host with out := s.host.out ++ [.loadFailed p obj] } }
      (base.toNat % 4096 ≠ 0 → refused) ∧
      ((s.objBytes p obj 0 64).bind readHeader = none → refused) ∧
      (∀ x, (s.objBytes p obj 0 64).bind readHeader = some x →
        (s.chooseImage p obj x = none → refused) ∧
        ∀ ks, s.chooseImage p obj x = some ks →
          (s.freeHandles p ks.length = none → refused) ∧
          (s.roomFor p ks = false → refused) ∧
          ∀ h u, s.freeHandles p ks.length = some h → s.loadObject p obj base frames meetings = some u →
            exec (.codeObjectLoad p obj base frames meetings) s = .next u ∧
            (∀ c ∈ s.coresOf p, (u.core c).store = (s.core c).store ++ ks.zipIdx.map fun y => (BitVec.ofNat 12 (h + y.2), y.1)) ∧
            ∀ c, c ∉ s.coresOf p → (u.core c).store = (s.core c).store))

/-! ### Transactions and the fabric -/

/-- Transactions beyond their instructions, and packets. The next write of a member is staged, or dooms its transaction when the area is
full, or is dropped once it was aborted; the coordinator commits when every member voted and every write is acknowledged, and aborts a
doomed one; a commit applies what was staged, one write after another, and a write that cannot perform yet is held with those behind
it; the timeout dooms an undecided one; a target asks again over every path. Which transaction an event means where two groups use one id
is a free choice (log 91). Packets are acknowledged, taken once, sent again, and the ninth loss of one retires its path (R399, R401, R410,
R413, R414). What is staged stands in the partition and not at csr.xstage, so staging writes no memory (log 44); the form of the messages
is log 23. -/
def Obligations.TransactionAndFabricEvents : Prop :=
  ∀ (s : State) (p : PartId) (id : BitVec 32),
    -- XSTORE_STAGE
    (∀ w, (s.part p).incoming.find? (s.part p).nextWrite = some w →
      let s1 := (s.modPart p fun x => { x with incoming := x.incoming.erase w }).modTxn p w.name fun t =>
        { t with taken := t.taken ++ [(w.member, w.target)] }
      let room := ((s.part p).xlimit.extractLsb' 0 24).toNat
      let rest := (s.part p).incoming.erase w
      (∀ d, (s.txn p w.name).bind (·.decision) = some d → Answers (exec (.xstoreStage p) s) fun t =>
        (t.part p).incoming = rest ∧ (t.part p).staging = (s.part p).staging ∧ t.mem = s.mem) ∧
      ((s.txn p w.name).bind (·.decision) = none →
        (∀ pa, (s.part p).staging.length < room → s1.placeIn p w.addr.toNat .store = .ok pa → isHost pa = false →
          s.tagged pa = false → s.poisoned pa (2 ^ w.size.toNat) = false →
          Answers (exec (.xstoreStage p) s) fun t =>
            (t.part p).incoming = rest ∧ (t.part p).staging = (s.part p).staging ++ [w] ∧ t.mem = s.mem ∧
            ∀ core q, s.coordOf p w.name = some (s.devid, core) → s.partOf core = some q →
              ∃ y, t.txn q w.name = some y ∧ (w.member, w.target, w.nth) ∈ y.acked) ∧
        (∀ core q y, room ≤ (s.part p).staging.length → s.coordOf p w.name = some (s.devid, core) → s.partOf core = some q →
          s1.txn q w.name = some y → y.decision = none → Answers (exec (.xstoreStage p) s) fun t =>
            (t.part p).incoming = rest ∧ (t.part p).staging = (s.part p).staging ∧ t.mem = s.mem ∧
            ∃ z, t.txn q w.name = some z ∧ z.doom = some (y.doom.getD 3) ∧ z.decision = none ∧ z.votes = y.votes) ∧
        (∀ dev core, room ≤ (s.part p).staging.length → s.coordOf p w.name = some (dev, core) → dev ≠ s.devid → s.reachable dev = true →
          Answers (exec (.xstoreStage p) s) fun t => ∃ k, t.fabOut = s.fabOut ++ [k] ∧ k.peer = dev ∧
            k.msg = .staged core w.name w.member w.target w.nth (some 3)))) ∧
    -- TRANSACTION_DECISION, TRANSACTION_TIMEOUT
    (∀ f x, s.findTxn p id f = some x → x ∈ (s.part p).txns ∧ x.name.id = id ∧ f x = true) ∧
    (∀ x, s.canDecide p x = true ↔ x.decision = none ∧ s.coordinates p x.name = true ∧ (x.doom ≠ none ∨
      (∀ r, r < (s.txnMembers p x.name).length → ∃ v ∈ x.votes, v.1 = r) ∧ x.acked.length = (x.votes.map (·.2)).sum)) ∧
    ((∀ x ∈ (s.part p).txns, x.name.id = id → s.canDecide p x = false) → exec (.transactionDecision p id) s = .next s) ∧
    (∀ x, s.findTxn p id (s.canDecide p) = some x → s.txn p x.name = some x →
      (∀ reason, x.doom = some reason → Answers (exec (.transactionDecision p id) s) fun t =>
        (t.txn p x.name).bind (·.decision) = some false ∧ ∀ w ∈ (t.part p).staging, w.name ≠ x.name) ∧
      (x.doom = none → Answers (exec (.transactionDecision p id) s) fun t =>
          (t.txn p x.name).bind (·.decision) = some true ∧ (t.part p).staging = (s.part p).staging)) ∧
    (∀ x, s.findTxn p id (fun t => s.undecided p t && t.doom.isNone) = some x → s.txn p x.name = some x →
      Answers (exec (.transactionTimeout p id) s) (fun t =>
        t.txn p x.name = some { x with doom := some 4 } ∧ t.mem = s.mem)) ∧
    ((∀ x ∈ (s.part p).txns, x.name.id = id → x.decision ≠ none ∨ s.coordinates p x.name = false ∨ x.doom ≠ none) →
      exec (.transactionTimeout p id) s = .next s) ∧
    -- TRANSACTION_APPLY: after the transactions decided before it, its writes in staging order
    (∀ x, s.canApply p x = true ↔ x.decision = some true ∧ s.appliedHere p x = false ∧
      ∀ u ∈ (s.part p).txns, ¬(u.decision = some true ∧ u.order < x.order ∧ s.appliedHere p u = false)) ∧
    ((∀ x ∈ (s.part p).txns, x.name.id = id → s.canApply p x = false) → exec (.transactionApply p id) s = .next s) ∧
    (∀ x, s.findTxn p id (s.canApply p) = some x →
      let ws := (s.part p).staging.filter (fun w => w.name == x.name)
      ((∀ u, s.applyAll p ws = (u, []) →
          let v := u.modPart p fun y => { y with staging := dropStaged x.name y.staging }
          exec (.transactionApply p id) s = .next (v.reportDone p x.name) ∧
          (∀ dev core, u.coordOf p x.name = some (dev, core) → dev ≠ s.devid → (v.reportDone p x.name).mem = u.mem)) ∧
        (∀ u w held, s.applyAll p ws = (u, w :: held) → exec (.transactionApply p id) s =
          .next (u.modPart p fun y => { y with staging := dropStaged x.name y.staging ++ w :: held })))) ∧
    (s.applyAll p [] = (s, []) ∧ ∀ (w : Staged) (ws : List Staged),
      (∀ e, s.resolveIn p w.addr.toNat .store = .error e → s.applyAll p (w :: ws) = (s, w :: ws)) ∧
      (∀ pa u, s.resolveIn p w.addr.toNat .store = .ok (pa, u) → u.tagged pa = true → s.applyAll p (w :: ws) = (s, w :: ws)) ∧
      ∀ pa u, s.resolveIn p w.addr.toNat .store = .ok (pa, u) → u.tagged pa = false → inDevice pa (2 ^ w.size.toNat) = true →
        ∃ v, s.applyAll p (w :: ws) = v.applyAll p ws ∧ SameOutside pa (2 ^ w.size.toNat) u v ∧ v.poison = u.poison ∧ v.tags = u.tags ∧
          ∀ j, j < 2 ^ w.size.toNat → v.mem.readByte (pa + j) = w.data.extractLsb' (8 * j) 8) ∧
    -- DECISION_QUERY: one packet on every path that is in service
    (∀ x dev core, s.findTxn p id (fun t => t.decision.isNone) = some x → s.coordOf p x.name = some (dev, core) → dev ≠ s.devid →
      s.peerValid dev = true → Answers (exec (.decisionQuery p id) s) fun t => ∃ ks : List Packet, t.fabOut = s.fabOut ++ ks ∧
        ks.map (·.path) = s.pathsTo dev ∧ ∀ k ∈ ks, k.peer = dev ∧ k.msg = .query core x.name) ∧
    -- FABRIC_PACKET_RECEIVE
    (∀ k : Packet, s.peerValid k.peer = true →
      let ack : Packet := ⟨k.peer, k.path, k.seq, .ack k.seq⟩
      (∀ seq, k.msg = .ack seq → Answers (exec (.fabricPacketReceive k) s) fun t =>
        (t.path k.peer k.path).unacked = (s.path k.peer k.path).unacked.filter (fun y => y.1.seq != seq) ∧ t.fabOut = s.fabOut) ∧
      let by_ (core : CoreId) : TxnSt → TxnSt := TxnSt.carriedBy [.io (dieOf core)] [(k.peer, k.path)]
      (∀ core q name member sent y, k.msg = .vote core name member sent true → k.seq ∉ (s.path k.peer k.path).got →
        s.partOf core = some q → s.isMember q name.group member k.peer = true → s.txn q name = some y →
        Answers (exec (.fabricPacketReceive k) s) fun t =>
          t.fabOut = s.fabOut ++ [ack] ∧ k.seq ∈ (t.path k.peer k.path).got ∧
            t.txn q name = some (by_ core (y.voted member sent true))) ∧
      (∀ core q name member target nth y, k.msg = .staged core name member target nth none → k.seq ∉ (s.path k.peer k.path).got →
        s.partOf core = some q → s.isMember q name.group target k.peer = true → s.txn q name = some y →
        Answers (exec (.fabricPacketReceive k) s) fun t => t.fabOut = s.fabOut ++ [ack] ∧
          t.txn q name = some (by_ core { y with acked := (y.acked ++ [(member, target, nth)]).eraseDups })) ∧
      (∀ core q name reason y, k.msg = .decision core name true reason → k.seq ∉ (s.path k.peer k.path).got → s.partOf core = some q →
        s.isMember q name.group 0 k.peer = true → s.txn q name = some y → y.decision = none →
        Answers (exec (.fabricPacketReceive k) s) fun t =>
          t.fabOut = s.fabOut ++ [ack] ∧ t.txn q name = some (by_ core { y with decision := some true, order := (s.part q).decided }) ∧
          (t.part q).decided = (s.part q).decided + 1) ∧
      ((∀ seq, k.msg ≠ .ack seq) → k.msg ≠ .unsupported → k.seq ∈ (s.path k.peer k.path).got →
        exec (.fabricPacketReceive k) s = .next { s with fabOut := s.fabOut ++ [ack] })) ∧
    -- PACKET_RETRANSMIT
    (∀ peer path seq k tries, (s.path peer path).unacked.find? (fun k => k.1.seq == seq) = some (k, tries) →
      (s.path peer path).retired = false →
      (tries < 8 → Answers (exec (.packetRetransmit peer path seq) s) fun t =>
        t.fabOut = s.fabOut ++ [k] ∧ (k, tries + 1) ∈ (t.path peer path).unacked ∧
        (t.path peer path).replays = (s.path peer path).replays + 1) ∧
      (8 ≤ tries → Answers (exec (.packetRetransmit peer path seq) s) fun t => (t.path peer path).retired = true))

/-! ### The dies and the host -/

/-- Flits between dies. A sound flit is taken once and in the order of its path, not before one of its class that is being retried,
is acknowledged, and does what its type says; one out of order changes nothing; an unsound one is asked for again, or sent again at once
where it is a marker or an answer. The block that a write flit names is a free value, and sequences, markers and answers are log 23; what
is held at a Wellhead is log 96. Acknowledges empty the sender's buffer, a replay request sends a flit again, a marker leaves its link once
it is gathered, and the sixteenth failed replay retires the link, whose failed flits still go first of their class. A pseudo-channel's
slot serves one request: a read answers with the block, reported in telemetry where its ECC was corrected, poisoned where it fails, and
delivered poisoned where no path is left, and a write lands unless its block is live, poisoned where its transit CRC fails; a slot that
no request takes may serve an access of the die's own, whose ECC and transit CRC count too (R279, R302, R384, R385, R390, R395, R396,
R402, R403). What such a check meets is log 63, a read's poisoned data log 61. -/
def Obligations.FlitEvents : Prop :=
  ∀ (s : State) (f : Flit),
    let x := s.linkOf (linkIn f)
    let b := s.linkOf (linkBack f)
    let answer (n : BitVec 4) : Flit := sealFlit { newFlit n f.dst f.src f.seq 0 0 0 with path := f.path }
    let took (t : State) : Prop :=
      (t.linkOf (linkIn f)).received = f.seq ∧ (t.linkOf (linkBack f)).answers = b.answers ++ [answer 6] ∧ t.mem = s.mem
    let old := (s.dies.read f.dst).queue
    let fits := (x.failed f.seq .data).all fun n => n.cls == f.cls
    let again (cls : BitVec 4) (kind : FlitKind) (seq : BitVec 24) : FailedFlit := ⟨seq, cls, kind, s.failPlace⟩
    let data := [Instr.readRequestFlit f, .readDataFlit f, .writeFlit f, .atomicMessageFlit f]
    (flitOk f = true → x.retired = false →
      (soundFlit f = true → f.seq = x.received + 1 → s.heldBehind f = false → fits = true →
        (∀ pa, f.type = 1 → pa = (f.payload.extractLsb' 0 64).toNat → Config.dieBytes * f.dst.toNat ≤ pa →
          pa < Config.dieBytes * f.dst.toNat + Config.dieBytes → Answers (exec (.readRequestFlit f) s) fun t =>
            took t ∧ (t.dies.read f.dst).queue = old ++ [⟨(pa - Config.dieBytes * f.dst.toNat) / 64, false, f⟩]) ∧
        (f.type = 2 → Answers (exec (.readDataFlit f) s) fun t => (t.linkOf (linkIn f)).received = f.seq ∧
          (t.dies.read f.dst).ports = (s.dies.read f.dst).ports ++ [(f.rtag, f.payload, spoiltFlit f)] ∧
          (spoiltFlit f = false → took t)) ∧
        (f.type = 3 → Answers (exec (.writeFlit f) s) fun t =>
          took t ∧ (t.dies.read f.dst).queue = old ++ [⟨s.freeBlock, true, f⟩]) ∧
        (∀ m rest, f.type = 4 → s.meshMsgs = m :: rest → dieOf m.src = f.src → dieOf m.target = f.dst →
          Answers (exec (.atomicMessageFlit f) s) fun t =>
            took t ∧ t.meshMsgs = rest ∧ (t.core m.target).remoteQ = (s.core m.target).remoteQ ++ [m])) ∧
      (soundFlit f = true → (f.seq ≠ x.received + 1 ∨ s.heldBehind f = true ∨ fits = false) → ∀ i ∈ data, exec i s = .next s) ∧
      (soundFlit f = false → x.failed f.seq .data = none → ∀ i ∈ data, Answers (exec i s) fun t =>
        (t.linkOf (linkIn f)).failing = x.failing ++ [again (s.failedClass x f.seq) .data f.seq] ∧ (t.linkOf (linkIn f)).received = x.received ∧
        (t.linkOf (linkBack f)).answers = b.answers ++ [answer 7] ∧ t.mem = s.mem) ∧
      -- an acknowledge, a replay request or a marker that fails is sent again
      (∀ i kind, (i, kind) ∈ [(Instr.acknowledgeFlit f, FlitKind.answer), (.replayRequestFlit f, .answer), (.flushMarkerFlit f, .marker)] →
        soundFlit f = false → x.failed f.seq kind = none →
        Answers (exec i s) fun t => (t.linkOf (linkIn f)).failing = x.failing ++ [again (s.failedClass x f.seq) kind f.seq] ∧
          (t.linkOf (linkIn f)).replays = x.replays + 1 ∧ t.linkOf (linkBack f) = b ∧ t.mem = s.mem) ∧
      (soundFlit f = true → f.type = 5 → Answers (exec (.flushMarkerFlit f) s) fun t =>
        (t.linkOf (linkIn f)).markers = x.markers ++ [f] ∧ (t.linkOf (linkIn f)).failed f.seq .marker = none ∧ t.mem = s.mem)) ∧
    (flitOk f = true → soundFlit f = true → f.type = 6 → Answers (exec (.acknowledgeFlit f) s) fun t =>
      (t.linkOf (linkBack f)).buffer = b.buffer.filter (fun y => !seqLe y.seq f.seq)) ∧
    (∀ y, flitOk f = true → soundFlit f = true → f.type = 7 → b.buffer.find? (fun y => y.seq == f.seq) = some y →
      Answers (exec (.replayRequestFlit f) s) fun t => (t.linkOf (linkBack f)).replays = b.replays + 1 ∧
        (t.linkOf (linkBack f)).buffer = b.buffer ∧ (t.linkOf (linkBack f)).answers = b.answers ++ [y]) ∧
    (∀ d, ((s.links.flatMap fun x => x.markers).find? fun f => f.dst == d && s.gathered f) = some f →
      Answers (exec (.flushMarkerGather d) s) fun t => (t.linkOf (linkIn f)).markers = x.markers.erase f) ∧
    (∀ l seq, (∀ n m, l ≠ .fabric n m) → (s.linkOf l).retired = false →
      ((s.linkOf l).failed seq .data = none → Answers (exec (.flitCrcFailure l seq) s) fun t =>
        (t.linkOf l).failing = (s.linkOf l).failing ++ [again (s.failedClass (s.linkOf l) seq) .data seq] ∧ (t.linkOf l).retired = false) ∧
      (((s.linkOf l).failed seq .data).isSome = true → (s.linkOf l).fails < 15 → Answers (exec (.flitCrcFailure l seq) s) fun t =>
        (t.linkOf l).fails = (s.linkOf l).fails + 1 ∧ (t.linkOf l).retired = false) ∧
      (((s.linkOf l).failed seq .data).isSome = true → 15 ≤ (s.linkOf l).fails → Answers (exec (.flitCrcFailure l seq) s) fun t =>
        (t.linkOf l).retired = true ∧
        -- a failed flit that is still to be taken keeps its class's hold, on another path
        ∀ a b n y, l = .mesh a b n → y ∈ (s.linkOf l).failing → y.kind = .data → seqLe y.seq (s.linkOf l).received = false →
          (∀ z ∈ (s.linkOf l).buffer, z.seq ≠ y.seq) → (∃ m ∈ s.livePaths a b, m ≠ n) →
          ∃ m, m ≠ n ∧ ∃ z ∈ (t.linkOf (.mesh a b m)).failing, z.cls = y.cls ∧ z.kind = .data ∧ z.since = y.since)) ∧
    (∀ l, (∀ n m, l ≠ .fabric n m) → 0 < (s.linkOf l).replays → Answers (exec (.linkReplayReport l) s) fun t =>
      (t.linkOf l).replays = 0 ∧ t.mem = (s.replayRecord l (s.linkOf l).replays false).mem) ∧
    (∀ peer n, 0 < (s.path peer n).replays → Answers (exec (.linkReplayReport (.fabric peer n)) s) fun t =>
      (t.path peer n).replays = 0 ∧ t.mem = (s.replayRecord (.fabric peer n) (s.path peer n).replays false).mem) ∧
    -- WELLHEAD_SLOT_SERVICE
    (∀ (d : DieId) (ch : BitVec 8) (found : ScrubFinding) (own : Nat),
      let counted (block : Nat) (t : State) : Prop :=
        ∀ symbol, found = .corrected symbol → t.mem = (s.telemetry d none 4 [1, BitVec.ofNat 64 (blockAddr d block), symbol]).mem
      let unsaved : Prop := ∀ y ∈ s.teams, y.saved = []
      ((s.dies.read d).queue.find? (fun r => channelOf r.block == ch.toNat) = none →
        (found = .clean ∨ dieBlocks ≤ own ∨ channelOf own ≠ ch.toNat →
          Answers (exec (.wellheadSlotService d ⟨ch, found, own⟩) s) fun t => t.mem = s.mem ∧ t.cores = s.cores) ∧
        (own < dieBlocks → channelOf own = ch.toNat → Answers (exec (.wellheadSlotService d ⟨ch, found, own⟩) s) fun t =>
          counted own t ∧ (found = .uncorrectable ∨ found = .transit → unsaved → blockOf (blockAddr d own) ∈ t.poison) ∧
          (found = .transit → unsaved → t.mem = (s.telemetry d none 5 [1, BitVec.ofNat 64 (blockAddr d own), 2]).mem))) ∧
      ∀ r : WellReq, (s.dies.read d).queue.find? (fun r => channelOf r.block == ch.toNat) = some r →
      let pa := blockAddr d r.block
      let left (t : State) : Prop :=
        (t.dies.read d).queue = removeFirst (fun r => channelOf r.block == ch.toNat) (s.dies.read d).queue
      (r.write = true → s.tagged pa = false → inDevice pa 64 = true →
        (spoiltFlit r.flit = false → Answers (exec (.wellheadSlotService d ⟨ch, found, own⟩) s) fun t =>
          left t ∧ SameOutside pa 64 s t ∧ t.poison = s.poison ∧
          ∀ j, j < 64 → t.mem.readByte (pa + j) = r.flit.payload.extractLsb' (8 * j) 8) ∧
        (spoiltFlit r.flit = true → unsaved → Answers (exec (.wellheadSlotService d ⟨ch, found, own⟩) s) fun t =>
          blockOf pa ∈ t.poison)) ∧
      (r.write = true → s.tagged pa = true → Answers (exec (.wellheadSlotService d ⟨ch, found, own⟩) s) fun t => left t ∧ t.mem = s.mem) ∧
      (∀ n, r.write = false → s.choosePath d r.flit.src = some n → found = .clean ∨ found = .transit →
        Answers (exec (.wellheadSlotService d ⟨ch, found, own⟩) s) fun t =>
          let y := s.linkOf (.mesh d r.flit.src n)
          left t ∧ t.mem = s.mem ∧ (t.linkOf (.mesh d r.flit.src n)).buffer = y.buffer ++
            [sealFlit { s.dataFlit d r.flit pa with path := n, seq := y.nextSeq }]) ∧
      (∀ n symbol, r.write = false → s.choosePath d r.flit.src = some n → found = .corrected symbol →
        Answers (exec (.wellheadSlotService d ⟨ch, found, own⟩) s) fun t => left t ∧ counted r.block t) ∧
      (r.write = false → s.choosePath d r.flit.src = none → found = .clean ∨ found = .transit →
        Answers (exec (.wellheadSlotService d ⟨ch, found, own⟩) s) fun t => left t ∧
          (t.dies.read r.flit.src).ports = (s.dies.read r.flit.src).ports ++ [(r.flit.rtag, s.blockData pa, true)]) ∧
      (r.write = false → found = .uncorrectable → unsaved → Answers (exec (.wellheadSlotService d ⟨ch, found, own⟩) s) fun t =>
        blockOf pa ∈ t.poison ∧ ∀ n, s.choosePath d r.flit.src = some n →
          ∃ y ∈ (t.linkOf (.mesh d r.flit.src n)).buffer, spoiltFlit y = true ∧ y.rtag = r.flit.rtag))

/-- Background work of a die and its cores: owed refreshes are issued, blocks are scrubbed, periods and freezes reported in telemetry, the
guardband moves by 5 mV, a die over its power or temperature freezes or stops its cores, a corrected register error is reported, and an
uncorrectable one poisons its task, in its record, or ends its kernel (R283, R284, R386, R388 to R390, R424). While a LOCK at the target of
a request keeps it from performing, a kernel's end waits (log 90). -/
def Obligations.DieEvents : Prop :=
  ∀ (s : State) (d : DieId) (c : CoreId),
    let x := s.dies.read d
    let k := s.core c
    (∀ (w : BitVec 7) (b : BitVec 8), Answers (exec (.activationAlert d w b) s) fun t =>
      (t.dies.read d).owed = x.owed.filter (fun v => v != w)) ∧
    (∀ block, block < dieBlocks →
      Answers (exec (.scrubRead d block .clean) s) (fun t =>
        (t.dies.read d).scrubRead = x.scrubRead + 1 ∧ t.mem = s.mem ∧ t.poison = s.poison) ∧
      (∀ symbol, Answers (exec (.scrubRead d block (.corrected symbol)) s) fun t =>
        (t.dies.read d).scrubRead = x.scrubRead + 1 ∧ (t.dies.read d).scrubFixed = x.scrubFixed + 1 ∧ t.poison = s.poison) ∧
      Answers (exec (.scrubRead d block .uncorrectable) s) (fun t =>
        (t.dies.read d).scrubRead = x.scrubRead + 1 ∧ (t.dies.read d).scrubBad = x.scrubBad + 1 ∧
        ((∀ y ∈ s.teams, y.saved = []) → blockOf (blockAddr d block) ∈ t.poison))) ∧
    Answers (exec (.scrubPeriodEnd d) s) (fun t =>
      (t.dies.read d).scrubRead = 0 ∧ (t.dies.read d).scrubFixed = 0 ∧ (t.dies.read d).scrubBad = 0 ∧
      (t.dies.read d).scrubPeriod = x.scrubPeriod + 1 ∧
      t.mem = (s.telemetry d none 7 [BitVec.ofNat 64 x.scrubRead, BitVec.ofNat 64 x.scrubFixed, BitVec.ofNat 64 x.scrubBad,
        BitVec.ofNat 64 x.scrubPeriod]).mem) ∧
    (∀ margin, Answers (exec (.guardbandStep d true margin) s) (fun t => (t.dies.read d).guardband = x.guardband + 5) ∧
      Answers (exec (.guardbandStep d false margin) s) (fun t => (t.dies.read d).guardband = x.guardband - 5)) ∧
    Answers (exec (.freezeTelemetryReport c) s) (fun t =>
      (t.core c).eng.freezes = ⟨0, 0, 0, 0⟩ ∧ (t.core c).freeze = k.freeze ∧ (t.core c).g = k.g ∧
      let z := k.eng.freezes
      t.mem = if z = ⟨0, 0, 0, 0⟩ then s.mem else (s.telemetry (dieOf c) (some c) 1
        [BitVec.ofNat 64 z.landing, BitVec.ofNat 64 z.bank, BitVec.ofNat 64 z.fairness, BitVec.ofNat 64 z.power]).mem) ∧
    (∀ i ∈ [Instr.powerLimitFreeze d, .thermalFreeze d], (x.pcap ≠ 0 ∨ i = .thermalFreeze d) → Answers (exec i s) fun t =>
      t.mem = s.mem ∧ ∀ y, (t.core y).freeze = (if dieOf y = d then (s.core y).freeze + 1 else (s.core y).freeze) ∧
        (t.core y).eng.clock = (if dieOf y = d then (s.core y).eng.clock + 1 else (s.core y).eng.clock) ∧
        (t.core y).kcycle = (s.core y).kcycle ∧ (t.core y).clusters = (s.core y).clusters) ∧
    (x.pcap = 0 → exec (.powerLimitFreeze d) s = .next s) ∧
    Answers (exec (.thermalStop d) s) (fun t => (∀ y, dieOf y = d → (t.core y).halt ≠ none) ∧ t.host.istat.getLsbD 18 = true) ∧
    (∀ place symbol, Answers (exec (.registerEccError c ⟨place, .corrected symbol⟩) s) fun t =>
      (t.core c).g = k.g ∧ (t.core c).running = k.running ∧ (t.core c).pending = k.pending ∧ t.poison = s.poison ∧
      t.mem = (s.telemetry (eccDie c place).1 (eccDie c place).2 4 [eccKind place, eccIdent place, symbol]).mem) ∧
    (∀ place n, (place, n) ∈ [(EccPlace.controlRegister, (1 : DWord)), (.csr, 2)] →
      Answers (exec (.registerEccError c ⟨place, .uncorrectable⟩) s) fun t =>
        (t.core c).running = none ∧ (t.core c).pending = k.pending ++ [mkTrap cMcheck n 0 (k.running.getD 0)] ∧
        ∀ r p, k.running = some r → s.partOf c = some p →
          t.mem = ((s.setTaskState p r stPoisoned).telemetry (dieOf c) (some c) 5 [n + 5, 0, 1]).mem) ∧
    (∀ pos cl r, k.run pos = some r → r.live = true →
      (s.farSettles c = false → exec (.registerEccError c ⟨.cluster pos cl, .uncorrectable⟩) s = .next s) ∧
      (s.farSettles c = true → Answers (exec (.registerEccError c ⟨.cluster pos cl, .uncorrectable⟩) s) fun t => ∃ r', (t.core c).run pos = some r' ∧ 
        r'.ending = some (.fault 9 0 0 (BitVec.ofNat 12 r.idx)))) ∧
    (∀ n y, (s.teams.flatMap fun t => (t.saved.filter fun x => x.place == .shadow (dieOf c)).map fun _ => t)[n]? = some y →
      Answers (exec (.registerEccError c ⟨.context n, .uncorrectable⟩) s) fun t =>
        ∀ z ∈ t.teams, Team.is y.part y.launch y.index z = false) ∧
    (∀ r, k.run .primary = some r → r.live = true → Answers (exec (.registerEccError c ⟨.kernelStore, .uncorrectable⟩) s) fun t =>
      ∃ r', (t.core c).run .primary = some r' ∧ r.idx ∈ r'.image.corrupt)

/-- The host. Reads and writes through a window reach device memory, an answer that holds poison saying so (log 65), others read as ones
and write nothing; doorbells, interrupt bits, partition maps, hl.rctl; reset and power-on boot an image that verifies, and else leave
recovery state; recovery and attestation; over a link that is out of service nothing comes from the host (R244, R248, R385, R415, R416,
R418 to R422). -/
def Obligations.HostEvents : Prop :=
  ∀ (s : State) (off v : DWord),
    ((s.linkOf .host).retired = true → ∀ (len : Nat) (bytes : List Byte) (p : PartId) (n : BitVec 5),
      ∀ i ∈ [Instr.hostMemoryRead off len, .hostMemoryWrite off bytes, .hostDoorbell p v, .hostIstatClear v, .hostPmapWrite n v, .hostReset,
        .recoveryImageCommit, .attestationRequest], exec i s = .next s) ∧
    (firmwareFault s.host.image = none → Answers (exec .powerOn s) fun t =>
      t.mem = State.reset.mem ∧ t.host.flash = s.host.flash ∧ t.host.recovery = false) ∧
    (v.getLsbD 0 = false → (s.writePage 0x400 v).host.rctl = v &&& 0xFF00) ∧
    ((s.linkOf .host).retired = false →
    (∀ len pa, s.hostTarget off len false = .memory pa → Answers (exec (.hostMemoryRead off len) s) fun t =>
      t.host.out.getLast? = some (.readAnswer off (s.mem.read pa len) (s.poisoned pa len)) ∧ t.mem = s.mem) ∧
    (∀ len, s.hostTarget off len false = .nothing → Answers (exec (.hostMemoryRead off len) s) fun t =>
      t.host.out.getLast? = some (.readAnswer off (List.replicate len 0xFF) false)) ∧
    (∀ bytes pa, s.hostTarget off bytes.length true = .memory pa → (∀ b ∈ blocksOf pa bytes.length, b ∉ s.tags) →
      Answers (exec (.hostMemoryWrite off bytes) s) fun t =>
        SameOutside pa bytes.length s t ∧ (∀ j, j < bytes.length → bytes[j]? = some (t.mem.readByte (pa + j))) ∧
        ∀ c, (t.core c).monitors = (s.core c).monitors) ∧
    (∀ p, (2 ^ 48 ≤ v.toNat ∨ v.toNat % 64 ≠ 0) → Answers (exec (.hostDoorbell p v) s) fun t =>
      t = { s with host := { s.host with dstat := s.host.dstat.write p 0x0C00000000000000 } }) ∧
    (∀ p pa u w, v.toNat < 2 ^ 48 → v.toNat % 64 = 0 → s.host.recovery = false → s.resolveIn p v.toNat .store = .ok (pa, u) →
      isHost pa = false → u.tagged pa = false → u.poisoned pa 64 = false → u.queueLaunch p (v.setWidth 48) pa = w →
      Answers (exec (.hostDoorbell p v) s) fun t => t.host.dstat.read p = w.2) ∧
    (Answers (exec (.hostIstatClear v) s) fun t => t = { s with host := { s.host with istat := s.host.istat &&& ~~~v } }) ∧
    (∀ n, (∀ u, s.writePmap n v = some u → exec (.hostPmapWrite n v) s = .next u) ∧
      (s.writePmap n v = none → Answers (exec (.hostPmapWrite n v) s) fun t => t.pmaps = s.pmaps ∧ t.tags = s.tags)) ∧
    (∀ i ∈ [Instr.hostReset, .powerOn], firmwareFault s.host.image = none → Answers (exec i s) fun t =>
      t.mem = State.reset.mem ∧ t.cores = State.reset.cores ∧ t.parts = State.reset.parts ∧ t.cycle = 0 ∧
      t.host.flash = s.host.flash ∧ t.host.ien = s.host.ien ∧ t.host.dstat = s.host.dstat ∧ t.host.recovery = false) ∧
    (∀ e i, firmwareFault s.host.image = some e → i ∈ [Instr.hostReset, .powerOn] → Answers (exec i s) fun t =>
      t.host.recovery = true ∧ t.host.istat.getLsbD 17 = true) ∧
    (s.host.recovery = false → exec .recoveryImageCommit s = .next s) ∧
    (∀ img, s.host.recovery = true →
      img = s.host.recBuf.read 0 (max 4096 (min recoveryBytes (4096 + natAt (s.host.recBuf.read 0 16) 8 8))) →
      (firmwareFault img = none → Answers (exec .recoveryImageCommit s) fun t =>
        t.host.flash = some img ∧ t.host.recovery = false) ∧
      (∀ e, firmwareFault img = some e → Answers (exec .recoveryImageCommit s) fun t =>
        t.host.recovery = true ∧ t.host.flash = s.host.flash ∧ t.host.rctl = e.setWidth 64 <<< 8)) ∧
    Answers (exec .attestationRequest s) (fun t => t.host.report = s.attestReport ∧ t.host.attest = 2 ∧ t.mem = s.mem))

/-- What reset leaves: every core in partition 0, without a task, a command, a transaction or a handler for traps, its counters and
semaphores at zero, no launch admitted, the Cistern and memory zero (R31, R248, R258, R307, R356, R422). -/
def Obligations.ResetValues : Prop :=
  (∀ a, State.reset.mem.readByte a = 0) ∧ State.reset.tags = [] ∧ State.reset.poison = [] ∧ State.reset.cycle = 0 ∧
  State.reset.teams = [] ∧ State.reset.launches = [] ∧
  ∀ c, State.reset.partOf c = some 0 ∧ (State.reset.core c).tvec = 0 ∧ (State.reset.core c).running = none ∧
    (State.reset.core c).kcycle = 0 ∧ (State.reset.core c).freeze = 0 ∧ (State.reset.core c).kstat = 0 ∧
    (State.reset.core c).cerr = 0 ∧ (State.reset.core c).table = [] ∧ (State.reset.core c).txns = [] ∧
    (∀ n, (State.reset.core c).sem.read n = 0) ∧
    (∀ a, (State.reset.core c).cistern.readByte a = 0) ∧ ∀ h, (State.reset.core c).handles.read h = none
end

