-- ==== Sys2Proof/Laws/State.lean ====
section
/-! SUPPORT. One lemma per field per update of the state, so that no later proof unfolds a record update. -/

namespace Sys2Proof.Machine

/-! ### setCore -/

@[simp] theorem State.setCore_mem (s : State) (c : CoreId) (k : CoreSt) : (s.setCore c k).mem = s.mem := rfl
@[simp] theorem State.setCore_tags (s : State) (c : CoreId) (k : CoreSt) : (s.setCore c k).tags = s.tags := rfl
@[simp] theorem State.setCore_poison (s : State) (c : CoreId) (k : CoreSt) : (s.setCore c k).poison = s.poison := rfl
@[simp] theorem State.setCore_sizes (s : State) (c : CoreId) (k : CoreSt) : (s.setCore c k).sizes = s.sizes := rfl
@[simp] theorem State.setCore_parts (s : State) (c : CoreId) (k : CoreSt) : (s.setCore c k).parts = s.parts := rfl
@[simp] theorem State.setCore_pmaps (s : State) (c : CoreId) (k : CoreSt) : (s.setCore c k).pmaps = s.pmaps := rfl
@[simp] theorem State.setCore_dies (s : State) (c : CoreId) (k : CoreSt) : (s.setCore c k).dies = s.dies := rfl
@[simp] theorem State.setCore_teams (s : State) (c : CoreId) (k : CoreSt) : (s.setCore c k).teams = s.teams := rfl
@[simp] theorem State.setCore_launches (s : State) (c : CoreId) (k : CoreSt) : (s.setCore c k).launches = s.launches := rfl
@[simp] theorem State.setCore_links (s : State) (c : CoreId) (k : CoreSt) : (s.setCore c k).links = s.links := rfl
@[simp] theorem State.setCore_meshMsgs (s : State) (c : CoreId) (k : CoreSt) : (s.setCore c k).meshMsgs = s.meshMsgs := rfl
@[simp] theorem State.setCore_paths (s : State) (c : CoreId) (k : CoreSt) : (s.setCore c k).paths = s.paths := rfl
@[simp] theorem State.setCore_fabOut (s : State) (c : CoreId) (k : CoreSt) : (s.setCore c k).fabOut = s.fabOut := rfl
@[simp] theorem State.setCore_colls (s : State) (c : CoreId) (k : CoreSt) : (s.setCore c k).colls = s.colls := rfl
@[simp] theorem State.setCore_host (s : State) (c : CoreId) (k : CoreSt) : (s.setCore c k).host = s.host := rfl
@[simp] theorem State.setCore_cycle (s : State) (c : CoreId) (k : CoreSt) : (s.setCore c k).cycle = s.cycle := rfl
@[simp] theorem State.setCore_resets (s : State) (c : CoreId) (k : CoreSt) : (s.setCore c k).resets = s.resets := rfl
@[simp] theorem State.setCore_agenda (s : State) (c : CoreId) (k : CoreSt) : (s.setCore c k).agenda = s.agenda := rfl
@[simp] theorem State.setCore_tick (s : State) (c : CoreId) (k : CoreSt) : (s.setCore c k).tick = s.tick := rfl
@[simp] theorem State.setCore_active (s : State) (c : CoreId) (k : CoreSt) : (s.setCore c k).active = s.active := rfl

/-! ### modCore -/

@[simp] theorem State.modCore_mem (s : State) (c : CoreId) (f : CoreSt → CoreSt) : (s.modCore c f).mem = s.mem := rfl
@[simp] theorem State.modCore_tags (s : State) (c : CoreId) (f : CoreSt → CoreSt) : (s.modCore c f).tags = s.tags := rfl
@[simp] theorem State.modCore_poison (s : State) (c : CoreId) (f : CoreSt → CoreSt) : (s.modCore c f).poison = s.poison := rfl
@[simp] theorem State.modCore_sizes (s : State) (c : CoreId) (f : CoreSt → CoreSt) : (s.modCore c f).sizes = s.sizes := rfl
@[simp] theorem State.modCore_parts (s : State) (c : CoreId) (f : CoreSt → CoreSt) : (s.modCore c f).parts = s.parts := rfl
@[simp] theorem State.modCore_pmaps (s : State) (c : CoreId) (f : CoreSt → CoreSt) : (s.modCore c f).pmaps = s.pmaps := rfl
@[simp] theorem State.modCore_dies (s : State) (c : CoreId) (f : CoreSt → CoreSt) : (s.modCore c f).dies = s.dies := rfl
@[simp] theorem State.modCore_teams (s : State) (c : CoreId) (f : CoreSt → CoreSt) : (s.modCore c f).teams = s.teams := rfl
@[simp] theorem State.modCore_launches (s : State) (c : CoreId) (f : CoreSt → CoreSt) : (s.modCore c f).launches = s.launches := rfl
@[simp] theorem State.modCore_links (s : State) (c : CoreId) (f : CoreSt → CoreSt) : (s.modCore c f).links = s.links := rfl
@[simp] theorem State.modCore_meshMsgs (s : State) (c : CoreId) (f : CoreSt → CoreSt) : (s.modCore c f).meshMsgs = s.meshMsgs := rfl
@[simp] theorem State.modCore_paths (s : State) (c : CoreId) (f : CoreSt → CoreSt) : (s.modCore c f).paths = s.paths := rfl
@[simp] theorem State.modCore_fabOut (s : State) (c : CoreId) (f : CoreSt → CoreSt) : (s.modCore c f).fabOut = s.fabOut := rfl
@[simp] theorem State.modCore_colls (s : State) (c : CoreId) (f : CoreSt → CoreSt) : (s.modCore c f).colls = s.colls := rfl
@[simp] theorem State.modCore_host (s : State) (c : CoreId) (f : CoreSt → CoreSt) : (s.modCore c f).host = s.host := rfl
@[simp] theorem State.modCore_cycle (s : State) (c : CoreId) (f : CoreSt → CoreSt) : (s.modCore c f).cycle = s.cycle := rfl
@[simp] theorem State.modCore_resets (s : State) (c : CoreId) (f : CoreSt → CoreSt) : (s.modCore c f).resets = s.resets := rfl
@[simp] theorem State.modCore_agenda (s : State) (c : CoreId) (f : CoreSt → CoreSt) : (s.modCore c f).agenda = s.agenda := rfl
@[simp] theorem State.modCore_tick (s : State) (c : CoreId) (f : CoreSt → CoreSt) : (s.modCore c f).tick = s.tick := rfl
@[simp] theorem State.modCore_active (s : State) (c : CoreId) (f : CoreSt → CoreSt) : (s.modCore c f).active = s.active := rfl

/-! ### modCur -/

@[simp] theorem State.modCur_mem (s : State) (f : CoreSt → CoreSt) : (s.modCur f).mem = s.mem := rfl
@[simp] theorem State.modCur_tags (s : State) (f : CoreSt → CoreSt) : (s.modCur f).tags = s.tags := rfl
@[simp] theorem State.modCur_poison (s : State) (f : CoreSt → CoreSt) : (s.modCur f).poison = s.poison := rfl
@[simp] theorem State.modCur_sizes (s : State) (f : CoreSt → CoreSt) : (s.modCur f).sizes = s.sizes := rfl
@[simp] theorem State.modCur_parts (s : State) (f : CoreSt → CoreSt) : (s.modCur f).parts = s.parts := rfl
@[simp] theorem State.modCur_pmaps (s : State) (f : CoreSt → CoreSt) : (s.modCur f).pmaps = s.pmaps := rfl
@[simp] theorem State.modCur_dies (s : State) (f : CoreSt → CoreSt) : (s.modCur f).dies = s.dies := rfl
@[simp] theorem State.modCur_teams (s : State) (f : CoreSt → CoreSt) : (s.modCur f).teams = s.teams := rfl
@[simp] theorem State.modCur_launches (s : State) (f : CoreSt → CoreSt) : (s.modCur f).launches = s.launches := rfl
@[simp] theorem State.modCur_links (s : State) (f : CoreSt → CoreSt) : (s.modCur f).links = s.links := rfl
@[simp] theorem State.modCur_meshMsgs (s : State) (f : CoreSt → CoreSt) : (s.modCur f).meshMsgs = s.meshMsgs := rfl
@[simp] theorem State.modCur_paths (s : State) (f : CoreSt → CoreSt) : (s.modCur f).paths = s.paths := rfl
@[simp] theorem State.modCur_fabOut (s : State) (f : CoreSt → CoreSt) : (s.modCur f).fabOut = s.fabOut := rfl
@[simp] theorem State.modCur_colls (s : State) (f : CoreSt → CoreSt) : (s.modCur f).colls = s.colls := rfl
@[simp] theorem State.modCur_host (s : State) (f : CoreSt → CoreSt) : (s.modCur f).host = s.host := rfl
@[simp] theorem State.modCur_cycle (s : State) (f : CoreSt → CoreSt) : (s.modCur f).cycle = s.cycle := rfl
@[simp] theorem State.modCur_resets (s : State) (f : CoreSt → CoreSt) : (s.modCur f).resets = s.resets := rfl
@[simp] theorem State.modCur_agenda (s : State) (f : CoreSt → CoreSt) : (s.modCur f).agenda = s.agenda := rfl
@[simp] theorem State.modCur_tick (s : State) (f : CoreSt → CoreSt) : (s.modCur f).tick = s.tick := rfl
@[simp] theorem State.modCur_active (s : State) (f : CoreSt → CoreSt) : (s.modCur f).active = s.active := rfl

/-! ### eachCore -/

@[simp] theorem State.eachCore_mem (s : State) (f : CoreId → CoreSt → CoreSt) : (s.eachCore f).mem = s.mem := rfl
@[simp] theorem State.eachCore_tags (s : State) (f : CoreId → CoreSt → CoreSt) : (s.eachCore f).tags = s.tags := rfl
@[simp] theorem State.eachCore_poison (s : State) (f : CoreId → CoreSt → CoreSt) : (s.eachCore f).poison = s.poison := rfl
@[simp] theorem State.eachCore_sizes (s : State) (f : CoreId → CoreSt → CoreSt) : (s.eachCore f).sizes = s.sizes := rfl
@[simp] theorem State.eachCore_parts (s : State) (f : CoreId → CoreSt → CoreSt) : (s.eachCore f).parts = s.parts := rfl
@[simp] theorem State.eachCore_pmaps (s : State) (f : CoreId → CoreSt → CoreSt) : (s.eachCore f).pmaps = s.pmaps := rfl
@[simp] theorem State.eachCore_dies (s : State) (f : CoreId → CoreSt → CoreSt) : (s.eachCore f).dies = s.dies := rfl
@[simp] theorem State.eachCore_teams (s : State) (f : CoreId → CoreSt → CoreSt) : (s.eachCore f).teams = s.teams := rfl
@[simp] theorem State.eachCore_launches (s : State) (f : CoreId → CoreSt → CoreSt) : (s.eachCore f).launches = s.launches := rfl
@[simp] theorem State.eachCore_links (s : State) (f : CoreId → CoreSt → CoreSt) : (s.eachCore f).links = s.links := rfl
@[simp] theorem State.eachCore_meshMsgs (s : State) (f : CoreId → CoreSt → CoreSt) : (s.eachCore f).meshMsgs = s.meshMsgs := rfl
@[simp] theorem State.eachCore_paths (s : State) (f : CoreId → CoreSt → CoreSt) : (s.eachCore f).paths = s.paths := rfl
@[simp] theorem State.eachCore_fabOut (s : State) (f : CoreId → CoreSt → CoreSt) : (s.eachCore f).fabOut = s.fabOut := rfl
@[simp] theorem State.eachCore_colls (s : State) (f : CoreId → CoreSt → CoreSt) : (s.eachCore f).colls = s.colls := rfl
@[simp] theorem State.eachCore_host (s : State) (f : CoreId → CoreSt → CoreSt) : (s.eachCore f).host = s.host := rfl
@[simp] theorem State.eachCore_cycle (s : State) (f : CoreId → CoreSt → CoreSt) : (s.eachCore f).cycle = s.cycle := rfl
@[simp] theorem State.eachCore_resets (s : State) (f : CoreId → CoreSt → CoreSt) : (s.eachCore f).resets = s.resets := rfl
@[simp] theorem State.eachCore_agenda (s : State) (f : CoreId → CoreSt → CoreSt) : (s.eachCore f).agenda = s.agenda := rfl
@[simp] theorem State.eachCore_tick (s : State) (f : CoreId → CoreSt → CoreSt) : (s.eachCore f).tick = s.tick := rfl
@[simp] theorem State.eachCore_active (s : State) (f : CoreId → CoreSt → CoreSt) : (s.eachCore f).active = s.active := rfl

/-! ### modPart -/

@[simp] theorem State.modPart_mem (s : State) (p : PartId) (f : PartSt → PartSt) : (s.modPart p f).mem = s.mem := rfl
@[simp] theorem State.modPart_tags (s : State) (p : PartId) (f : PartSt → PartSt) : (s.modPart p f).tags = s.tags := rfl
@[simp] theorem State.modPart_poison (s : State) (p : PartId) (f : PartSt → PartSt) : (s.modPart p f).poison = s.poison := rfl
@[simp] theorem State.modPart_sizes (s : State) (p : PartId) (f : PartSt → PartSt) : (s.modPart p f).sizes = s.sizes := rfl
@[simp] theorem State.modPart_cores (s : State) (p : PartId) (f : PartSt → PartSt) : (s.modPart p f).cores = s.cores := rfl
@[simp] theorem State.modPart_pmaps (s : State) (p : PartId) (f : PartSt → PartSt) : (s.modPart p f).pmaps = s.pmaps := rfl
@[simp] theorem State.modPart_dies (s : State) (p : PartId) (f : PartSt → PartSt) : (s.modPart p f).dies = s.dies := rfl
@[simp] theorem State.modPart_teams (s : State) (p : PartId) (f : PartSt → PartSt) : (s.modPart p f).teams = s.teams := rfl
@[simp] theorem State.modPart_launches (s : State) (p : PartId) (f : PartSt → PartSt) : (s.modPart p f).launches = s.launches := rfl
@[simp] theorem State.modPart_links (s : State) (p : PartId) (f : PartSt → PartSt) : (s.modPart p f).links = s.links := rfl
@[simp] theorem State.modPart_meshMsgs (s : State) (p : PartId) (f : PartSt → PartSt) : (s.modPart p f).meshMsgs = s.meshMsgs := rfl
@[simp] theorem State.modPart_paths (s : State) (p : PartId) (f : PartSt → PartSt) : (s.modPart p f).paths = s.paths := rfl
@[simp] theorem State.modPart_fabOut (s : State) (p : PartId) (f : PartSt → PartSt) : (s.modPart p f).fabOut = s.fabOut := rfl
@[simp] theorem State.modPart_colls (s : State) (p : PartId) (f : PartSt → PartSt) : (s.modPart p f).colls = s.colls := rfl
@[simp] theorem State.modPart_host (s : State) (p : PartId) (f : PartSt → PartSt) : (s.modPart p f).host = s.host := rfl
@[simp] theorem State.modPart_cycle (s : State) (p : PartId) (f : PartSt → PartSt) : (s.modPart p f).cycle = s.cycle := rfl
@[simp] theorem State.modPart_resets (s : State) (p : PartId) (f : PartSt → PartSt) : (s.modPart p f).resets = s.resets := rfl
@[simp] theorem State.modPart_agenda (s : State) (p : PartId) (f : PartSt → PartSt) : (s.modPart p f).agenda = s.agenda := rfl
@[simp] theorem State.modPart_tick (s : State) (p : PartId) (f : PartSt → PartSt) : (s.modPart p f).tick = s.tick := rfl
@[simp] theorem State.modPart_active (s : State) (p : PartId) (f : PartSt → PartSt) : (s.modPart p f).active = s.active := rfl

/-! ### modDie -/

@[simp] theorem State.modDie_mem (s : State) (d : DieId) (f : DieSt → DieSt) : (s.modDie d f).mem = s.mem := rfl
@[simp] theorem State.modDie_tags (s : State) (d : DieId) (f : DieSt → DieSt) : (s.modDie d f).tags = s.tags := rfl
@[simp] theorem State.modDie_poison (s : State) (d : DieId) (f : DieSt → DieSt) : (s.modDie d f).poison = s.poison := rfl
@[simp] theorem State.modDie_sizes (s : State) (d : DieId) (f : DieSt → DieSt) : (s.modDie d f).sizes = s.sizes := rfl
@[simp] theorem State.modDie_cores (s : State) (d : DieId) (f : DieSt → DieSt) : (s.modDie d f).cores = s.cores := rfl
@[simp] theorem State.modDie_parts (s : State) (d : DieId) (f : DieSt → DieSt) : (s.modDie d f).parts = s.parts := rfl
@[simp] theorem State.modDie_pmaps (s : State) (d : DieId) (f : DieSt → DieSt) : (s.modDie d f).pmaps = s.pmaps := rfl
@[simp] theorem State.modDie_teams (s : State) (d : DieId) (f : DieSt → DieSt) : (s.modDie d f).teams = s.teams := rfl
@[simp] theorem State.modDie_launches (s : State) (d : DieId) (f : DieSt → DieSt) : (s.modDie d f).launches = s.launches := rfl
@[simp] theorem State.modDie_links (s : State) (d : DieId) (f : DieSt → DieSt) : (s.modDie d f).links = s.links := rfl
@[simp] theorem State.modDie_meshMsgs (s : State) (d : DieId) (f : DieSt → DieSt) : (s.modDie d f).meshMsgs = s.meshMsgs := rfl
@[simp] theorem State.modDie_paths (s : State) (d : DieId) (f : DieSt → DieSt) : (s.modDie d f).paths = s.paths := rfl
@[simp] theorem State.modDie_fabOut (s : State) (d : DieId) (f : DieSt → DieSt) : (s.modDie d f).fabOut = s.fabOut := rfl
@[simp] theorem State.modDie_colls (s : State) (d : DieId) (f : DieSt → DieSt) : (s.modDie d f).colls = s.colls := rfl
@[simp] theorem State.modDie_host (s : State) (d : DieId) (f : DieSt → DieSt) : (s.modDie d f).host = s.host := rfl
@[simp] theorem State.modDie_cycle (s : State) (d : DieId) (f : DieSt → DieSt) : (s.modDie d f).cycle = s.cycle := rfl
@[simp] theorem State.modDie_resets (s : State) (d : DieId) (f : DieSt → DieSt) : (s.modDie d f).resets = s.resets := rfl
@[simp] theorem State.modDie_agenda (s : State) (d : DieId) (f : DieSt → DieSt) : (s.modDie d f).agenda = s.agenda := rfl
@[simp] theorem State.modDie_tick (s : State) (d : DieId) (f : DieSt → DieSt) : (s.modDie d f).tick = s.tick := rfl
@[simp] theorem State.modDie_active (s : State) (d : DieId) (f : DieSt → DieSt) : (s.modDie d f).active = s.active := rfl

/-! ### modHost -/

@[simp] theorem State.modHost_mem (s : State) (f : HostSt → HostSt) : (s.modHost f).mem = s.mem := rfl
@[simp] theorem State.modHost_tags (s : State) (f : HostSt → HostSt) : (s.modHost f).tags = s.tags := rfl
@[simp] theorem State.modHost_poison (s : State) (f : HostSt → HostSt) : (s.modHost f).poison = s.poison := rfl
@[simp] theorem State.modHost_sizes (s : State) (f : HostSt → HostSt) : (s.modHost f).sizes = s.sizes := rfl
@[simp] theorem State.modHost_cores (s : State) (f : HostSt → HostSt) : (s.modHost f).cores = s.cores := rfl
@[simp] theorem State.modHost_parts (s : State) (f : HostSt → HostSt) : (s.modHost f).parts = s.parts := rfl
@[simp] theorem State.modHost_pmaps (s : State) (f : HostSt → HostSt) : (s.modHost f).pmaps = s.pmaps := rfl
@[simp] theorem State.modHost_dies (s : State) (f : HostSt → HostSt) : (s.modHost f).dies = s.dies := rfl
@[simp] theorem State.modHost_teams (s : State) (f : HostSt → HostSt) : (s.modHost f).teams = s.teams := rfl
@[simp] theorem State.modHost_launches (s : State) (f : HostSt → HostSt) : (s.modHost f).launches = s.launches := rfl
@[simp] theorem State.modHost_links (s : State) (f : HostSt → HostSt) : (s.modHost f).links = s.links := rfl
@[simp] theorem State.modHost_meshMsgs (s : State) (f : HostSt → HostSt) : (s.modHost f).meshMsgs = s.meshMsgs := rfl
@[simp] theorem State.modHost_paths (s : State) (f : HostSt → HostSt) : (s.modHost f).paths = s.paths := rfl
@[simp] theorem State.modHost_fabOut (s : State) (f : HostSt → HostSt) : (s.modHost f).fabOut = s.fabOut := rfl
@[simp] theorem State.modHost_colls (s : State) (f : HostSt → HostSt) : (s.modHost f).colls = s.colls := rfl
@[simp] theorem State.modHost_cycle (s : State) (f : HostSt → HostSt) : (s.modHost f).cycle = s.cycle := rfl
@[simp] theorem State.modHost_resets (s : State) (f : HostSt → HostSt) : (s.modHost f).resets = s.resets := rfl
@[simp] theorem State.modHost_agenda (s : State) (f : HostSt → HostSt) : (s.modHost f).agenda = s.agenda := rfl
@[simp] theorem State.modHost_tick (s : State) (f : HostSt → HostSt) : (s.modHost f).tick = s.tick := rfl
@[simp] theorem State.modHost_active (s : State) (f : HostSt → HostSt) : (s.modHost f).active = s.active := rfl

/-! ### modTeam -/

@[simp] theorem State.modTeam_mem (s : State) (p : Team → Bool) (f : Team → Team) : (s.modTeam p f).mem = s.mem := rfl
@[simp] theorem State.modTeam_tags (s : State) (p : Team → Bool) (f : Team → Team) : (s.modTeam p f).tags = s.tags := rfl
@[simp] theorem State.modTeam_poison (s : State) (p : Team → Bool) (f : Team → Team) : (s.modTeam p f).poison = s.poison := rfl
@[simp] theorem State.modTeam_sizes (s : State) (p : Team → Bool) (f : Team → Team) : (s.modTeam p f).sizes = s.sizes := rfl
@[simp] theorem State.modTeam_cores (s : State) (p : Team → Bool) (f : Team → Team) : (s.modTeam p f).cores = s.cores := rfl
@[simp] theorem State.modTeam_parts (s : State) (p : Team → Bool) (f : Team → Team) : (s.modTeam p f).parts = s.parts := rfl
@[simp] theorem State.modTeam_pmaps (s : State) (p : Team → Bool) (f : Team → Team) : (s.modTeam p f).pmaps = s.pmaps := rfl
@[simp] theorem State.modTeam_dies (s : State) (p : Team → Bool) (f : Team → Team) : (s.modTeam p f).dies = s.dies := rfl
@[simp] theorem State.modTeam_launches (s : State) (p : Team → Bool) (f : Team → Team) : (s.modTeam p f).launches = s.launches := rfl
@[simp] theorem State.modTeam_links (s : State) (p : Team → Bool) (f : Team → Team) : (s.modTeam p f).links = s.links := rfl
@[simp] theorem State.modTeam_meshMsgs (s : State) (p : Team → Bool) (f : Team → Team) : (s.modTeam p f).meshMsgs = s.meshMsgs := rfl
@[simp] theorem State.modTeam_paths (s : State) (p : Team → Bool) (f : Team → Team) : (s.modTeam p f).paths = s.paths := rfl
@[simp] theorem State.modTeam_fabOut (s : State) (p : Team → Bool) (f : Team → Team) : (s.modTeam p f).fabOut = s.fabOut := rfl
@[simp] theorem State.modTeam_colls (s : State) (p : Team → Bool) (f : Team → Team) : (s.modTeam p f).colls = s.colls := rfl
@[simp] theorem State.modTeam_host (s : State) (p : Team → Bool) (f : Team → Team) : (s.modTeam p f).host = s.host := rfl
@[simp] theorem State.modTeam_cycle (s : State) (p : Team → Bool) (f : Team → Team) : (s.modTeam p f).cycle = s.cycle := rfl
@[simp] theorem State.modTeam_resets (s : State) (p : Team → Bool) (f : Team → Team) : (s.modTeam p f).resets = s.resets := rfl
@[simp] theorem State.modTeam_agenda (s : State) (p : Team → Bool) (f : Team → Team) : (s.modTeam p f).agenda = s.agenda := rfl
@[simp] theorem State.modTeam_tick (s : State) (p : Team → Bool) (f : Team → Team) : (s.modTeam p f).tick = s.tick := rfl
@[simp] theorem State.modTeam_active (s : State) (p : Team → Bool) (f : Team → Team) : (s.modTeam p f).active = s.active := rfl

/-! ### setTag -/

@[simp] theorem State.setTag_mem (s : State) (b : Nat) (on : Bool) : (s.setTag b on).mem = s.mem := rfl
@[simp] theorem State.setTag_poison (s : State) (b : Nat) (on : Bool) : (s.setTag b on).poison = s.poison := rfl
@[simp] theorem State.setTag_sizes (s : State) (b : Nat) (on : Bool) : (s.setTag b on).sizes = s.sizes := rfl
@[simp] theorem State.setTag_cores (s : State) (b : Nat) (on : Bool) : (s.setTag b on).cores = s.cores := rfl
@[simp] theorem State.setTag_parts (s : State) (b : Nat) (on : Bool) : (s.setTag b on).parts = s.parts := rfl
@[simp] theorem State.setTag_pmaps (s : State) (b : Nat) (on : Bool) : (s.setTag b on).pmaps = s.pmaps := rfl
@[simp] theorem State.setTag_dies (s : State) (b : Nat) (on : Bool) : (s.setTag b on).dies = s.dies := rfl
@[simp] theorem State.setTag_teams (s : State) (b : Nat) (on : Bool) : (s.setTag b on).teams = s.teams := rfl
@[simp] theorem State.setTag_launches (s : State) (b : Nat) (on : Bool) : (s.setTag b on).launches = s.launches := rfl
@[simp] theorem State.setTag_links (s : State) (b : Nat) (on : Bool) : (s.setTag b on).links = s.links := rfl
@[simp] theorem State.setTag_meshMsgs (s : State) (b : Nat) (on : Bool) : (s.setTag b on).meshMsgs = s.meshMsgs := rfl
@[simp] theorem State.setTag_paths (s : State) (b : Nat) (on : Bool) : (s.setTag b on).paths = s.paths := rfl
@[simp] theorem State.setTag_fabOut (s : State) (b : Nat) (on : Bool) : (s.setTag b on).fabOut = s.fabOut := rfl
@[simp] theorem State.setTag_colls (s : State) (b : Nat) (on : Bool) : (s.setTag b on).colls = s.colls := rfl
@[simp] theorem State.setTag_host (s : State) (b : Nat) (on : Bool) : (s.setTag b on).host = s.host := rfl
@[simp] theorem State.setTag_cycle (s : State) (b : Nat) (on : Bool) : (s.setTag b on).cycle = s.cycle := rfl
@[simp] theorem State.setTag_resets (s : State) (b : Nat) (on : Bool) : (s.setTag b on).resets = s.resets := rfl
@[simp] theorem State.setTag_agenda (s : State) (b : Nat) (on : Bool) : (s.setTag b on).agenda = s.agenda := rfl
@[simp] theorem State.setTag_tick (s : State) (b : Nat) (on : Bool) : (s.setTag b on).tick = s.tick := rfl
@[simp] theorem State.setTag_active (s : State) (b : Nat) (on : Bool) : (s.setTag b on).active = s.active := rfl

/-! ### setPoison -/

@[simp] theorem State.setPoison_mem (s : State) (b : Nat) (on : Bool) : (s.setPoison b on).mem = s.mem := rfl
@[simp] theorem State.setPoison_tags (s : State) (b : Nat) (on : Bool) : (s.setPoison b on).tags = s.tags := rfl
@[simp] theorem State.setPoison_sizes (s : State) (b : Nat) (on : Bool) : (s.setPoison b on).sizes = s.sizes := rfl
@[simp] theorem State.setPoison_cores (s : State) (b : Nat) (on : Bool) : (s.setPoison b on).cores = s.cores := rfl
@[simp] theorem State.setPoison_parts (s : State) (b : Nat) (on : Bool) : (s.setPoison b on).parts = s.parts := rfl
@[simp] theorem State.setPoison_pmaps (s : State) (b : Nat) (on : Bool) : (s.setPoison b on).pmaps = s.pmaps := rfl
@[simp] theorem State.setPoison_dies (s : State) (b : Nat) (on : Bool) : (s.setPoison b on).dies = s.dies := rfl
@[simp] theorem State.setPoison_teams (s : State) (b : Nat) (on : Bool) : (s.setPoison b on).teams = s.teams := rfl
@[simp] theorem State.setPoison_launches (s : State) (b : Nat) (on : Bool) : (s.setPoison b on).launches = s.launches := rfl
@[simp] theorem State.setPoison_links (s : State) (b : Nat) (on : Bool) : (s.setPoison b on).links = s.links := rfl
@[simp] theorem State.setPoison_meshMsgs (s : State) (b : Nat) (on : Bool) : (s.setPoison b on).meshMsgs = s.meshMsgs := rfl
@[simp] theorem State.setPoison_paths (s : State) (b : Nat) (on : Bool) : (s.setPoison b on).paths = s.paths := rfl
@[simp] theorem State.setPoison_fabOut (s : State) (b : Nat) (on : Bool) : (s.setPoison b on).fabOut = s.fabOut := rfl
@[simp] theorem State.setPoison_colls (s : State) (b : Nat) (on : Bool) : (s.setPoison b on).colls = s.colls := rfl
@[simp] theorem State.setPoison_host (s : State) (b : Nat) (on : Bool) : (s.setPoison b on).host = s.host := rfl
@[simp] theorem State.setPoison_cycle (s : State) (b : Nat) (on : Bool) : (s.setPoison b on).cycle = s.cycle := rfl
@[simp] theorem State.setPoison_resets (s : State) (b : Nat) (on : Bool) : (s.setPoison b on).resets = s.resets := rfl
@[simp] theorem State.setPoison_agenda (s : State) (b : Nat) (on : Bool) : (s.setPoison b on).agenda = s.agenda := rfl
@[simp] theorem State.setPoison_tick (s : State) (b : Nat) (on : Bool) : (s.setPoison b on).tick = s.tick := rfl
@[simp] theorem State.setPoison_active (s : State) (b : Nat) (on : Bool) : (s.setPoison b on).active = s.active := rfl

/-! ### setG -/

@[simp] theorem State.setG_mem (s : State) (r : BitVec 5) (x : DWord) : (s.setG r x).mem = s.mem := rfl
@[simp] theorem State.setG_tags (s : State) (r : BitVec 5) (x : DWord) : (s.setG r x).tags = s.tags := rfl
@[simp] theorem State.setG_poison (s : State) (r : BitVec 5) (x : DWord) : (s.setG r x).poison = s.poison := rfl
@[simp] theorem State.setG_sizes (s : State) (r : BitVec 5) (x : DWord) : (s.setG r x).sizes = s.sizes := rfl
@[simp] theorem State.setG_parts (s : State) (r : BitVec 5) (x : DWord) : (s.setG r x).parts = s.parts := rfl
@[simp] theorem State.setG_pmaps (s : State) (r : BitVec 5) (x : DWord) : (s.setG r x).pmaps = s.pmaps := rfl
@[simp] theorem State.setG_dies (s : State) (r : BitVec 5) (x : DWord) : (s.setG r x).dies = s.dies := rfl
@[simp] theorem State.setG_teams (s : State) (r : BitVec 5) (x : DWord) : (s.setG r x).teams = s.teams := rfl
@[simp] theorem State.setG_launches (s : State) (r : BitVec 5) (x : DWord) : (s.setG r x).launches = s.launches := rfl
@[simp] theorem State.setG_links (s : State) (r : BitVec 5) (x : DWord) : (s.setG r x).links = s.links := rfl
@[simp] theorem State.setG_meshMsgs (s : State) (r : BitVec 5) (x : DWord) : (s.setG r x).meshMsgs = s.meshMsgs := rfl
@[simp] theorem State.setG_paths (s : State) (r : BitVec 5) (x : DWord) : (s.setG r x).paths = s.paths := rfl
@[simp] theorem State.setG_fabOut (s : State) (r : BitVec 5) (x : DWord) : (s.setG r x).fabOut = s.fabOut := rfl
@[simp] theorem State.setG_colls (s : State) (r : BitVec 5) (x : DWord) : (s.setG r x).colls = s.colls := rfl
@[simp] theorem State.setG_host (s : State) (r : BitVec 5) (x : DWord) : (s.setG r x).host = s.host := rfl
@[simp] theorem State.setG_cycle (s : State) (r : BitVec 5) (x : DWord) : (s.setG r x).cycle = s.cycle := rfl
@[simp] theorem State.setG_resets (s : State) (r : BitVec 5) (x : DWord) : (s.setG r x).resets = s.resets := rfl
@[simp] theorem State.setG_agenda (s : State) (r : BitVec 5) (x : DWord) : (s.setG r x).agenda = s.agenda := rfl
@[simp] theorem State.setG_tick (s : State) (r : BitVec 5) (x : DWord) : (s.setG r x).tick = s.tick := rfl
@[simp] theorem State.setG_active (s : State) (r : BitVec 5) (x : DWord) : (s.setG r x).active = s.active := rfl

/-! ### setPc -/

@[simp] theorem State.setPc_mem (s : State) (x : DWord) : (s.setPc x).mem = s.mem := rfl
@[simp] theorem State.setPc_tags (s : State) (x : DWord) : (s.setPc x).tags = s.tags := rfl
@[simp] theorem State.setPc_poison (s : State) (x : DWord) : (s.setPc x).poison = s.poison := rfl
@[simp] theorem State.setPc_sizes (s : State) (x : DWord) : (s.setPc x).sizes = s.sizes := rfl
@[simp] theorem State.setPc_parts (s : State) (x : DWord) : (s.setPc x).parts = s.parts := rfl
@[simp] theorem State.setPc_pmaps (s : State) (x : DWord) : (s.setPc x).pmaps = s.pmaps := rfl
@[simp] theorem State.setPc_dies (s : State) (x : DWord) : (s.setPc x).dies = s.dies := rfl
@[simp] theorem State.setPc_teams (s : State) (x : DWord) : (s.setPc x).teams = s.teams := rfl
@[simp] theorem State.setPc_launches (s : State) (x : DWord) : (s.setPc x).launches = s.launches := rfl
@[simp] theorem State.setPc_links (s : State) (x : DWord) : (s.setPc x).links = s.links := rfl
@[simp] theorem State.setPc_meshMsgs (s : State) (x : DWord) : (s.setPc x).meshMsgs = s.meshMsgs := rfl
@[simp] theorem State.setPc_paths (s : State) (x : DWord) : (s.setPc x).paths = s.paths := rfl
@[simp] theorem State.setPc_fabOut (s : State) (x : DWord) : (s.setPc x).fabOut = s.fabOut := rfl
@[simp] theorem State.setPc_colls (s : State) (x : DWord) : (s.setPc x).colls = s.colls := rfl
@[simp] theorem State.setPc_host (s : State) (x : DWord) : (s.setPc x).host = s.host := rfl
@[simp] theorem State.setPc_cycle (s : State) (x : DWord) : (s.setPc x).cycle = s.cycle := rfl
@[simp] theorem State.setPc_resets (s : State) (x : DWord) : (s.setPc x).resets = s.resets := rfl
@[simp] theorem State.setPc_agenda (s : State) (x : DWord) : (s.setPc x).agenda = s.agenda := rfl
@[simp] theorem State.setPc_tick (s : State) (x : DWord) : (s.setPc x).tick = s.tick := rfl
@[simp] theorem State.setPc_active (s : State) (x : DWord) : (s.setPc x).active = s.active := rfl

/-! ### advance -/

@[simp] theorem State.advance_mem (s : State) : s.advance.mem = s.mem := rfl
@[simp] theorem State.advance_tags (s : State) : s.advance.tags = s.tags := rfl
@[simp] theorem State.advance_poison (s : State) : s.advance.poison = s.poison := rfl
@[simp] theorem State.advance_sizes (s : State) : s.advance.sizes = s.sizes := rfl
@[simp] theorem State.advance_parts (s : State) : s.advance.parts = s.parts := rfl
@[simp] theorem State.advance_pmaps (s : State) : s.advance.pmaps = s.pmaps := rfl
@[simp] theorem State.advance_dies (s : State) : s.advance.dies = s.dies := rfl
@[simp] theorem State.advance_teams (s : State) : s.advance.teams = s.teams := rfl
@[simp] theorem State.advance_launches (s : State) : s.advance.launches = s.launches := rfl
@[simp] theorem State.advance_links (s : State) : s.advance.links = s.links := rfl
@[simp] theorem State.advance_meshMsgs (s : State) : s.advance.meshMsgs = s.meshMsgs := rfl
@[simp] theorem State.advance_paths (s : State) : s.advance.paths = s.paths := rfl
@[simp] theorem State.advance_fabOut (s : State) : s.advance.fabOut = s.fabOut := rfl
@[simp] theorem State.advance_colls (s : State) : s.advance.colls = s.colls := rfl
@[simp] theorem State.advance_host (s : State) : s.advance.host = s.host := rfl
@[simp] theorem State.advance_cycle (s : State) : s.advance.cycle = s.cycle := rfl
@[simp] theorem State.advance_resets (s : State) : s.advance.resets = s.resets := rfl
@[simp] theorem State.advance_agenda (s : State) : s.advance.agenda = s.agenda := rfl
@[simp] theorem State.advance_tick (s : State) : s.advance.tick = s.tick := rfl
@[simp] theorem State.advance_active (s : State) : s.advance.active = s.active := rfl

/-! ### result -/

@[simp] theorem State.result_mem (s : State) (d : BitVec 5) (x : DWord) : (s.result d x).mem = s.mem := rfl
@[simp] theorem State.result_tags (s : State) (d : BitVec 5) (x : DWord) : (s.result d x).tags = s.tags := rfl
@[simp] theorem State.result_poison (s : State) (d : BitVec 5) (x : DWord) : (s.result d x).poison = s.poison := rfl
@[simp] theorem State.result_sizes (s : State) (d : BitVec 5) (x : DWord) : (s.result d x).sizes = s.sizes := rfl
@[simp] theorem State.result_parts (s : State) (d : BitVec 5) (x : DWord) : (s.result d x).parts = s.parts := rfl
@[simp] theorem State.result_pmaps (s : State) (d : BitVec 5) (x : DWord) : (s.result d x).pmaps = s.pmaps := rfl
@[simp] theorem State.result_dies (s : State) (d : BitVec 5) (x : DWord) : (s.result d x).dies = s.dies := rfl
@[simp] theorem State.result_teams (s : State) (d : BitVec 5) (x : DWord) : (s.result d x).teams = s.teams := rfl
@[simp] theorem State.result_launches (s : State) (d : BitVec 5) (x : DWord) : (s.result d x).launches = s.launches := rfl
@[simp] theorem State.result_links (s : State) (d : BitVec 5) (x : DWord) : (s.result d x).links = s.links := rfl
@[simp] theorem State.result_meshMsgs (s : State) (d : BitVec 5) (x : DWord) : (s.result d x).meshMsgs = s.meshMsgs := rfl
@[simp] theorem State.result_paths (s : State) (d : BitVec 5) (x : DWord) : (s.result d x).paths = s.paths := rfl
@[simp] theorem State.result_fabOut (s : State) (d : BitVec 5) (x : DWord) : (s.result d x).fabOut = s.fabOut := rfl
@[simp] theorem State.result_colls (s : State) (d : BitVec 5) (x : DWord) : (s.result d x).colls = s.colls := rfl
@[simp] theorem State.result_host (s : State) (d : BitVec 5) (x : DWord) : (s.result d x).host = s.host := rfl
@[simp] theorem State.result_cycle (s : State) (d : BitVec 5) (x : DWord) : (s.result d x).cycle = s.cycle := rfl
@[simp] theorem State.result_resets (s : State) (d : BitVec 5) (x : DWord) : (s.result d x).resets = s.resets := rfl
@[simp] theorem State.result_agenda (s : State) (d : BitVec 5) (x : DWord) : (s.result d x).agenda = s.agenda := rfl
@[simp] theorem State.result_tick (s : State) (d : BitVec 5) (x : DWord) : (s.result d x).tick = s.tick := rfl
@[simp] theorem State.result_active (s : State) (d : BitVec 5) (x : DWord) : (s.result d x).active = s.active := rfl

/-! ### passTime -/

@[simp] theorem State.passTime_mem (s : State) : s.passTime.mem = s.mem := rfl
@[simp] theorem State.passTime_tags (s : State) : s.passTime.tags = s.tags := rfl
@[simp] theorem State.passTime_poison (s : State) : s.passTime.poison = s.poison := rfl
@[simp] theorem State.passTime_sizes (s : State) : s.passTime.sizes = s.sizes := rfl
@[simp] theorem State.passTime_cores (s : State) : s.passTime.cores = s.cores := rfl
@[simp] theorem State.passTime_parts (s : State) : s.passTime.parts = s.parts := rfl
@[simp] theorem State.passTime_pmaps (s : State) : s.passTime.pmaps = s.pmaps := rfl
@[simp] theorem State.passTime_dies (s : State) : s.passTime.dies = s.dies := rfl
@[simp] theorem State.passTime_teams (s : State) : s.passTime.teams = s.teams := rfl
@[simp] theorem State.passTime_launches (s : State) : s.passTime.launches = s.launches := rfl
@[simp] theorem State.passTime_links (s : State) : s.passTime.links = s.links := rfl
@[simp] theorem State.passTime_meshMsgs (s : State) : s.passTime.meshMsgs = s.meshMsgs := rfl
@[simp] theorem State.passTime_paths (s : State) : s.passTime.paths = s.paths := rfl
@[simp] theorem State.passTime_fabOut (s : State) : s.passTime.fabOut = s.fabOut := rfl
@[simp] theorem State.passTime_colls (s : State) : s.passTime.colls = s.colls := rfl
@[simp] theorem State.passTime_host (s : State) : s.passTime.host = s.host := rfl
@[simp] theorem State.passTime_resets (s : State) : s.passTime.resets = s.resets := rfl
@[simp] theorem State.passTime_agenda (s : State) : s.passTime.agenda = s.agenda := rfl
@[simp] theorem State.passTime_active (s : State) : s.passTime.active = s.active := rfl

/-! ### writeG -/

@[simp] theorem CoreSt.writeG_pc (k : CoreSt) (r : BitVec 5) (x : DWord) : (k.writeG r x).pc = k.pc := by
  unfold CoreSt.writeG; split <;> [rfl; (split <;> rfl)]
@[simp] theorem CoreSt.writeG_running (k : CoreSt) (r : BitVec 5) (x : DWord) : (k.writeG r x).running = k.running := by
  unfold CoreSt.writeG; split <;> [rfl; (split <;> rfl)]
@[simp] theorem CoreSt.writeG_wid (k : CoreSt) (r : BitVec 5) (x : DWord) : (k.writeG r x).wid = k.wid := by
  unfold CoreSt.writeG; split <;> [rfl; (split <;> rfl)]
@[simp] theorem CoreSt.writeG_widths (k : CoreSt) (r : BitVec 5) (x : DWord) : (k.writeG r x).widths = k.widths := by
  unfold CoreSt.writeG; split <;> [rfl; (split <;> rfl)]
@[simp] theorem CoreSt.writeG_widthsOf (k : CoreSt) (r : BitVec 5) (x : DWord) : (k.writeG r x).widthsOf = k.widthsOf := by
  unfold CoreSt.writeG; split <;> [rfl; (split <;> rfl)]
@[simp] theorem CoreSt.writeG_sys (k : CoreSt) (r : BitVec 5) (x : DWord) : (k.writeG r x).sys = k.sys := by
  unfold CoreSt.writeG; split <;> [rfl; (split <;> rfl)]
@[simp] theorem CoreSt.writeG_skip (k : CoreSt) (r : BitVec 5) (x : DWord) : (k.writeG r x).skip = k.skip := by
  unfold CoreSt.writeG; split <;> [rfl; (split <;> rfl)]
@[simp] theorem CoreSt.writeG_idle (k : CoreSt) (r : BitVec 5) (x : DWord) : (k.writeG r x).idle = k.idle := by
  unfold CoreSt.writeG; split <;> [rfl; (split <;> rfl)]
@[simp] theorem CoreSt.writeG_skipArmed (k : CoreSt) (r : BitVec 5) (x : DWord) : (k.writeG r x).skipArmed = k.skipArmed := by
  unfold CoreSt.writeG; split <;> [rfl; (split <;> rfl)]
@[simp] theorem CoreSt.writeG_tvec (k : CoreSt) (r : BitVec 5) (x : DWord) : (k.writeG r x).tvec = k.tvec := by
  unfold CoreSt.writeG; split <;> [rfl; (split <;> rfl)]
@[simp] theorem CoreSt.writeG_tepc (k : CoreSt) (r : BitVec 5) (x : DWord) : (k.writeG r x).tepc = k.tepc := by
  unfold CoreSt.writeG; split <;> [rfl; (split <;> rfl)]
@[simp] theorem CoreSt.writeG_tcause (k : CoreSt) (r : BitVec 5) (x : DWord) : (k.writeG r x).tcause = k.tcause := by
  unfold CoreSt.writeG; split <;> [rfl; (split <;> rfl)]
@[simp] theorem CoreSt.writeG_tval (k : CoreSt) (r : BitVec 5) (x : DWord) : (k.writeG r x).tval = k.tval := by
  unfold CoreSt.writeG; split <;> [rfl; (split <;> rfl)]
@[simp] theorem CoreSt.writeG_tval2 (k : CoreSt) (r : BitVec 5) (x : DWord) : (k.writeG r x).tval2 = k.tval2 := by
  unfold CoreSt.writeG; split <;> [rfl; (split <;> rfl)]
@[simp] theorem CoreSt.writeG_tscratch (k : CoreSt) (r : BitVec 5) (x : DWord) : (k.writeG r x).tscratch = k.tscratch := by
  unfold CoreSt.writeG; split <;> [rfl; (split <;> rfl)]
@[simp] theorem CoreSt.writeG_trec (k : CoreSt) (r : BitVec 5) (x : DWord) : (k.writeG r x).trec = k.trec := by
  unfold CoreSt.writeG; split <;> [rfl; (split <;> rfl)]
@[simp] theorem CoreSt.writeG_ksnap (k : CoreSt) (r : BitVec 5) (x : DWord) : (k.writeG r x).ksnap = k.ksnap := by
  unfold CoreSt.writeG; split <;> [rfl; (split <;> rfl)]
@[simp] theorem CoreSt.writeG_pending (k : CoreSt) (r : BitVec 5) (x : DWord) : (k.writeG r x).pending = k.pending := by
  unfold CoreSt.writeG; split <;> [rfl; (split <;> rfl)]
@[simp] theorem CoreSt.writeG_halt (k : CoreSt) (r : BitVec 5) (x : DWord) : (k.writeG r x).halt = k.halt := by
  unfold CoreSt.writeG; split <;> [rfl; (split <;> rfl)]
@[simp] theorem CoreSt.writeG_uvec (k : CoreSt) (r : BitVec 5) (x : DWord) : (k.writeG r x).uvec = k.uvec := by
  unfold CoreSt.writeG; split <;> [rfl; (split <;> rfl)]
@[simp] theorem CoreSt.writeG_uepc (k : CoreSt) (r : BitVec 5) (x : DWord) : (k.writeG r x).uepc = k.uepc := by
  unfold CoreSt.writeG; split <;> [rfl; (split <;> rfl)]
@[simp] theorem CoreSt.writeG_ucause (k : CoreSt) (r : BitVec 5) (x : DWord) : (k.writeG r x).ucause = k.ucause := by
  unfold CoreSt.writeG; split <;> [rfl; (split <;> rfl)]
@[simp] theorem CoreSt.writeG_ustat (k : CoreSt) (r : BitVec 5) (x : DWord) : (k.writeG r x).ustat = k.ustat := by
  unfold CoreSt.writeG; split <;> [rfl; (split <;> rfl)]
@[simp] theorem CoreSt.writeG_uie (k : CoreSt) (r : BitVec 5) (x : DWord) : (k.writeG r x).uie = k.uie := by
  unfold CoreSt.writeG; split <;> [rfl; (split <;> rfl)]
@[simp] theorem CoreSt.writeG_inHandler (k : CoreSt) (r : BitVec 5) (x : DWord) : (k.writeG r x).inHandler = k.inHandler := by
  unfold CoreSt.writeG; split <;> [rfl; (split <;> rfl)]
@[simp] theorem CoreSt.writeG_ovf (k : CoreSt) (r : BitVec 5) (x : DWord) : (k.writeG r x).ovf = k.ovf := by
  unfold CoreSt.writeG; split <;> [rfl; (split <;> rfl)]
@[simp] theorem CoreSt.writeG_notifs (k : CoreSt) (r : BitVec 5) (x : DWord) : (k.writeG r x).notifs = k.notifs := by
  unfold CoreSt.writeG; split <;> [rfl; (split <;> rfl)]
@[simp] theorem CoreSt.writeG_kcycle (k : CoreSt) (r : BitVec 5) (x : DWord) : (k.writeG r x).kcycle = k.kcycle := by
  unfold CoreSt.writeG; split <;> [rfl; (split <;> rfl)]
@[simp] theorem CoreSt.writeG_freeze (k : CoreSt) (r : BitVec 5) (x : DWord) : (k.writeG r x).freeze = k.freeze := by
  unfold CoreSt.writeG; split <;> [rfl; (split <;> rfl)]
@[simp] theorem CoreSt.writeG_kstat (k : CoreSt) (r : BitVec 5) (x : DWord) : (k.writeG r x).kstat = k.kstat := by
  unfold CoreSt.writeG; split <;> [rfl; (split <;> rfl)]
@[simp] theorem CoreSt.writeG_kstat2 (k : CoreSt) (r : BitVec 5) (x : DWord) : (k.writeG r x).kstat2 = k.kstat2 := by
  unfold CoreSt.writeG; split <;> [rfl; (split <;> rfl)]
@[simp] theorem CoreSt.writeG_cerr (k : CoreSt) (r : BitVec 5) (x : DWord) : (k.writeG r x).cerr = k.cerr := by
  unfold CoreSt.writeG; split <;> [rfl; (split <;> rfl)]
@[simp] theorem CoreSt.writeG_kb (k : CoreSt) (r : BitVec 5) (x : DWord) : (k.writeG r x).kb = k.kb := by
  unfold CoreSt.writeG; split <;> [rfl; (split <;> rfl)]
@[simp] theorem CoreSt.writeG_discidx (k : CoreSt) (r : BitVec 5) (x : DWord) : (k.writeG r x).discidx = k.discidx := by
  unfold CoreSt.writeG; split <;> [rfl; (split <;> rfl)]
@[simp] theorem CoreSt.writeG_hold (k : CoreSt) (r : BitVec 5) (x : DWord) : (k.writeG r x).hold = k.hold := by
  unfold CoreSt.writeG; split <;> [rfl; (split <;> rfl)]
@[simp] theorem CoreSt.writeG_holdSys (k : CoreSt) (r : BitVec 5) (x : DWord) : (k.writeG r x).holdSys = k.holdSys := by
  unfold CoreSt.writeG; split <;> [rfl; (split <;> rfl)]
@[simp] theorem CoreSt.writeG_stale (k : CoreSt) (r : BitVec 5) (x : DWord) : (k.writeG r x).stale = k.stale := by
  unfold CoreSt.writeG; split <;> [rfl; (split <;> rfl)]
@[simp] theorem CoreSt.writeG_hostHold (k : CoreSt) (r : BitVec 5) (x : DWord) : (k.writeG r x).hostHold = k.hostHold := by
  unfold CoreSt.writeG; split <;> [rfl; (split <;> rfl)]
@[simp] theorem CoreSt.writeG_txns (k : CoreSt) (r : BitVec 5) (x : DWord) : (k.writeG r x).txns = k.txns := by
  unfold CoreSt.writeG; split <;> [rfl; (split <;> rfl)]
@[simp] theorem CoreSt.writeG_groupSeq (k : CoreSt) (r : BitVec 5) (x : DWord) : (k.writeG r x).groupSeq = k.groupSeq := by
  unfold CoreSt.writeG; split <;> [rfl; (split <;> rfl)]
@[simp] theorem CoreSt.writeG_txnSeq (k : CoreSt) (r : BitVec 5) (x : DWord) : (k.writeG r x).txnSeq = k.txnSeq := by
  unfold CoreSt.writeG; split <;> [rfl; (split <;> rfl)]
@[simp] theorem CoreSt.writeG_monitors (k : CoreSt) (r : BitVec 5) (x : DWord) : (k.writeG r x).monitors = k.monitors := by
  unfold CoreSt.writeG; split <;> [rfl; (split <;> rfl)]
@[simp] theorem CoreSt.writeG_sweep (k : CoreSt) (r : BitVec 5) (x : DWord) : (k.writeG r x).sweep = k.sweep := by
  unfold CoreSt.writeG; split <;> [rfl; (split <;> rfl)]
@[simp] theorem CoreSt.writeG_comparators (k : CoreSt) (r : BitVec 5) (x : DWord) : (k.writeG r x).comparators = k.comparators := by
  unfold CoreSt.writeG; split <;> [rfl; (split <;> rfl)]
@[simp] theorem CoreSt.writeG_tlb (k : CoreSt) (r : BitVec 5) (x : DWord) : (k.writeG r x).tlb = k.tlb := by
  unfold CoreSt.writeG; split <;> [rfl; (split <;> rfl)]
@[simp] theorem CoreSt.writeG_engTlb (k : CoreSt) (r : BitVec 5) (x : DWord) : (k.writeG r x).engTlb = k.engTlb := by
  unfold CoreSt.writeG; split <;> [rfl; (split <;> rfl)]
@[simp] theorem CoreSt.writeG_bound (k : CoreSt) (r : BitVec 5) (x : DWord) : (k.writeG r x).bound = k.bound := by
  unfold CoreSt.writeG; split <;> [rfl; (split <;> rfl)]
@[simp] theorem CoreSt.writeG_swapHalted (k : CoreSt) (r : BitVec 5) (x : DWord) : (k.writeG r x).swapHalted = k.swapHalted := by
  unfold CoreSt.writeG; split <;> [rfl; (split <;> rfl)]
@[simp] theorem CoreSt.writeG_sem (k : CoreSt) (r : BitVec 5) (x : DWord) : (k.writeG r x).sem = k.sem := by
  unfold CoreSt.writeG; split <;> [rfl; (split <;> rfl)]
@[simp] theorem CoreSt.writeG_shapes (k : CoreSt) (r : BitVec 5) (x : DWord) : (k.writeG r x).shapes = k.shapes := by
  unfold CoreSt.writeG; split <;> [rfl; (split <;> rfl)]
@[simp] theorem CoreSt.writeG_handles (k : CoreSt) (r : BitVec 5) (x : DWord) : (k.writeG r x).handles = k.handles := by
  unfold CoreSt.writeG; split <;> [rfl; (split <;> rfl)]
@[simp] theorem CoreSt.writeG_table (k : CoreSt) (r : BitVec 5) (x : DWord) : (k.writeG r x).table = k.table := by
  unfold CoreSt.writeG; split <;> [rfl; (split <;> rfl)]
@[simp] theorem CoreSt.writeG_cistern (k : CoreSt) (r : BitVec 5) (x : DWord) : (k.writeG r x).cistern = k.cistern := by
  unfold CoreSt.writeG; split <;> [rfl; (split <;> rfl)]
@[simp] theorem CoreSt.writeG_cisPoison (k : CoreSt) (r : BitVec 5) (x : DWord) : (k.writeG r x).cisPoison = k.cisPoison := by
  unfold CoreSt.writeG; split <;> [rfl; (split <;> rfl)]
@[simp] theorem CoreSt.writeG_remoteQ (k : CoreSt) (r : BitVec 5) (x : DWord) : (k.writeG r x).remoteQ = k.remoteQ := by
  unfold CoreSt.writeG; split <;> [rfl; (split <;> rfl)]
@[simp] theorem CoreSt.writeG_heldRemotes (k : CoreSt) (r : BitVec 5) (x : DWord) : (k.writeG r x).heldRemotes = k.heldRemotes := by
  unfold CoreSt.writeG; split <;> [rfl; (split <;> rfl)]
@[simp] theorem CoreSt.writeG_store (k : CoreSt) (r : BitVec 5) (x : DWord) : (k.writeG r x).store = k.store := by
  unfold CoreSt.writeG; split <;> [rfl; (split <;> rfl)]
@[simp] theorem CoreSt.writeG_storePending (k : CoreSt) (r : BitVec 5) (x : DWord) : (k.writeG r x).storePending = k.storePending := by
  unfold CoreSt.writeG; split <;> [rfl; (split <;> rfl)]
@[simp] theorem CoreSt.writeG_mergeImages (k : CoreSt) (r : BitVec 5) (x : DWord) : (k.writeG r x).mergeImages = k.mergeImages := by
  unfold CoreSt.writeG; split <;> [rfl; (split <;> rfl)]
@[simp] theorem CoreSt.writeG_eng (k : CoreSt) (r : BitVec 5) (x : DWord) : (k.writeG r x).eng = k.eng := by
  unfold CoreSt.writeG; split <;> [rfl; (split <;> rfl)]
@[simp] theorem CoreSt.writeG_clusters (k : CoreSt) (r : BitVec 5) (x : DWord) : (k.writeG r x).clusters = k.clusters := by
  unfold CoreSt.writeG; split <;> [rfl; (split <;> rfl)]

/-! ### pend -/

@[simp] theorem CoreSt.pend_pc (k : CoreSt) (t : Trap) : (k.pend t).pc = k.pc := rfl
@[simp] theorem CoreSt.pend_g (k : CoreSt) (t : Trap) : (k.pend t).g = k.g := rfl
@[simp] theorem CoreSt.pend_shadowG (k : CoreSt) (t : Trap) : (k.pend t).shadowG = k.shadowG := rfl
@[simp] theorem CoreSt.pend_running (k : CoreSt) (t : Trap) : (k.pend t).running = k.running := rfl
@[simp] theorem CoreSt.pend_wid (k : CoreSt) (t : Trap) : (k.pend t).wid = k.wid := rfl
@[simp] theorem CoreSt.pend_widths (k : CoreSt) (t : Trap) : (k.pend t).widths = k.widths := rfl
@[simp] theorem CoreSt.pend_widthsOf (k : CoreSt) (t : Trap) : (k.pend t).widthsOf = k.widthsOf := rfl
@[simp] theorem CoreSt.pend_sys (k : CoreSt) (t : Trap) : (k.pend t).sys = k.sys := rfl
@[simp] theorem CoreSt.pend_skip (k : CoreSt) (t : Trap) : (k.pend t).skip = k.skip := rfl
@[simp] theorem CoreSt.pend_idle (k : CoreSt) (t : Trap) : (k.pend t).idle = k.idle := rfl
@[simp] theorem CoreSt.pend_skipArmed (k : CoreSt) (t : Trap) : (k.pend t).skipArmed = k.skipArmed := rfl
@[simp] theorem CoreSt.pend_tvec (k : CoreSt) (t : Trap) : (k.pend t).tvec = k.tvec := rfl
@[simp] theorem CoreSt.pend_tepc (k : CoreSt) (t : Trap) : (k.pend t).tepc = k.tepc := rfl
@[simp] theorem CoreSt.pend_tcause (k : CoreSt) (t : Trap) : (k.pend t).tcause = k.tcause := rfl
@[simp] theorem CoreSt.pend_tval (k : CoreSt) (t : Trap) : (k.pend t).tval = k.tval := rfl
@[simp] theorem CoreSt.pend_tval2 (k : CoreSt) (t : Trap) : (k.pend t).tval2 = k.tval2 := rfl
@[simp] theorem CoreSt.pend_tscratch (k : CoreSt) (t : Trap) : (k.pend t).tscratch = k.tscratch := rfl
@[simp] theorem CoreSt.pend_trec (k : CoreSt) (t : Trap) : (k.pend t).trec = k.trec := rfl
@[simp] theorem CoreSt.pend_ksnap (k : CoreSt) (t : Trap) : (k.pend t).ksnap = k.ksnap := rfl
@[simp] theorem CoreSt.pend_halt (k : CoreSt) (t : Trap) : (k.pend t).halt = k.halt := rfl
@[simp] theorem CoreSt.pend_uvec (k : CoreSt) (t : Trap) : (k.pend t).uvec = k.uvec := rfl
@[simp] theorem CoreSt.pend_uepc (k : CoreSt) (t : Trap) : (k.pend t).uepc = k.uepc := rfl
@[simp] theorem CoreSt.pend_ucause (k : CoreSt) (t : Trap) : (k.pend t).ucause = k.ucause := rfl
@[simp] theorem CoreSt.pend_ustat (k : CoreSt) (t : Trap) : (k.pend t).ustat = k.ustat := rfl
@[simp] theorem CoreSt.pend_uie (k : CoreSt) (t : Trap) : (k.pend t).uie = k.uie := rfl
@[simp] theorem CoreSt.pend_inHandler (k : CoreSt) (t : Trap) : (k.pend t).inHandler = k.inHandler := rfl
@[simp] theorem CoreSt.pend_ovf (k : CoreSt) (t : Trap) : (k.pend t).ovf = k.ovf := rfl
@[simp] theorem CoreSt.pend_notifs (k : CoreSt) (t : Trap) : (k.pend t).notifs = k.notifs := rfl
@[simp] theorem CoreSt.pend_kcycle (k : CoreSt) (t : Trap) : (k.pend t).kcycle = k.kcycle := rfl
@[simp] theorem CoreSt.pend_freeze (k : CoreSt) (t : Trap) : (k.pend t).freeze = k.freeze := rfl
@[simp] theorem CoreSt.pend_kstat (k : CoreSt) (t : Trap) : (k.pend t).kstat = k.kstat := rfl
@[simp] theorem CoreSt.pend_kstat2 (k : CoreSt) (t : Trap) : (k.pend t).kstat2 = k.kstat2 := rfl
@[simp] theorem CoreSt.pend_cerr (k : CoreSt) (t : Trap) : (k.pend t).cerr = k.cerr := rfl
@[simp] theorem CoreSt.pend_kb (k : CoreSt) (t : Trap) : (k.pend t).kb = k.kb := rfl
@[simp] theorem CoreSt.pend_discidx (k : CoreSt) (t : Trap) : (k.pend t).discidx = k.discidx := rfl
@[simp] theorem CoreSt.pend_hold (k : CoreSt) (t : Trap) : (k.pend t).hold = k.hold := rfl
@[simp] theorem CoreSt.pend_holdSys (k : CoreSt) (t : Trap) : (k.pend t).holdSys = k.holdSys := rfl
@[simp] theorem CoreSt.pend_stale (k : CoreSt) (t : Trap) : (k.pend t).stale = k.stale := rfl
@[simp] theorem CoreSt.pend_hostHold (k : CoreSt) (t : Trap) : (k.pend t).hostHold = k.hostHold := rfl
@[simp] theorem CoreSt.pend_txns (k : CoreSt) (t : Trap) : (k.pend t).txns = k.txns := rfl
@[simp] theorem CoreSt.pend_groupSeq (k : CoreSt) (t : Trap) : (k.pend t).groupSeq = k.groupSeq := rfl
@[simp] theorem CoreSt.pend_txnSeq (k : CoreSt) (t : Trap) : (k.pend t).txnSeq = k.txnSeq := rfl
@[simp] theorem CoreSt.pend_monitors (k : CoreSt) (t : Trap) : (k.pend t).monitors = k.monitors := rfl
@[simp] theorem CoreSt.pend_sweep (k : CoreSt) (t : Trap) : (k.pend t).sweep = k.sweep := rfl
@[simp] theorem CoreSt.pend_comparators (k : CoreSt) (t : Trap) : (k.pend t).comparators = k.comparators := rfl
@[simp] theorem CoreSt.pend_tlb (k : CoreSt) (t : Trap) : (k.pend t).tlb = k.tlb := rfl
@[simp] theorem CoreSt.pend_engTlb (k : CoreSt) (t : Trap) : (k.pend t).engTlb = k.engTlb := rfl
@[simp] theorem CoreSt.pend_bound (k : CoreSt) (t : Trap) : (k.pend t).bound = k.bound := rfl
@[simp] theorem CoreSt.pend_swapHalted (k : CoreSt) (t : Trap) : (k.pend t).swapHalted = k.swapHalted := rfl
@[simp] theorem CoreSt.pend_sem (k : CoreSt) (t : Trap) : (k.pend t).sem = k.sem := rfl
@[simp] theorem CoreSt.pend_shapes (k : CoreSt) (t : Trap) : (k.pend t).shapes = k.shapes := rfl
@[simp] theorem CoreSt.pend_handles (k : CoreSt) (t : Trap) : (k.pend t).handles = k.handles := rfl
@[simp] theorem CoreSt.pend_table (k : CoreSt) (t : Trap) : (k.pend t).table = k.table := rfl
@[simp] theorem CoreSt.pend_cistern (k : CoreSt) (t : Trap) : (k.pend t).cistern = k.cistern := rfl
@[simp] theorem CoreSt.pend_cisPoison (k : CoreSt) (t : Trap) : (k.pend t).cisPoison = k.cisPoison := rfl
@[simp] theorem CoreSt.pend_remoteQ (k : CoreSt) (t : Trap) : (k.pend t).remoteQ = k.remoteQ := rfl
@[simp] theorem CoreSt.pend_heldRemotes (k : CoreSt) (t : Trap) : (k.pend t).heldRemotes = k.heldRemotes := rfl
@[simp] theorem CoreSt.pend_store (k : CoreSt) (t : Trap) : (k.pend t).store = k.store := rfl
@[simp] theorem CoreSt.pend_storePending (k : CoreSt) (t : Trap) : (k.pend t).storePending = k.storePending := rfl
@[simp] theorem CoreSt.pend_mergeImages (k : CoreSt) (t : Trap) : (k.pend t).mergeImages = k.mergeImages := rfl
@[simp] theorem CoreSt.pend_eng (k : CoreSt) (t : Trap) : (k.pend t).eng = k.eng := rfl
@[simp] theorem CoreSt.pend_clusters (k : CoreSt) (t : Trap) : (k.pend t).clusters = k.clusters := rfl

/-! ### modCmd -/

@[simp] theorem CoreSt.modCmd_pc (k : CoreSt) (e : BitVec 6) (f : Cmd → Cmd) : (k.modCmd e f).pc = k.pc := rfl
@[simp] theorem CoreSt.modCmd_g (k : CoreSt) (e : BitVec 6) (f : Cmd → Cmd) : (k.modCmd e f).g = k.g := rfl
@[simp] theorem CoreSt.modCmd_shadowG (k : CoreSt) (e : BitVec 6) (f : Cmd → Cmd) : (k.modCmd e f).shadowG = k.shadowG := rfl
@[simp] theorem CoreSt.modCmd_running (k : CoreSt) (e : BitVec 6) (f : Cmd → Cmd) : (k.modCmd e f).running = k.running := rfl
@[simp] theorem CoreSt.modCmd_wid (k : CoreSt) (e : BitVec 6) (f : Cmd → Cmd) : (k.modCmd e f).wid = k.wid := rfl
@[simp] theorem CoreSt.modCmd_widths (k : CoreSt) (e : BitVec 6) (f : Cmd → Cmd) : (k.modCmd e f).widths = k.widths := rfl
@[simp] theorem CoreSt.modCmd_widthsOf (k : CoreSt) (e : BitVec 6) (f : Cmd → Cmd) : (k.modCmd e f).widthsOf = k.widthsOf := rfl
@[simp] theorem CoreSt.modCmd_sys (k : CoreSt) (e : BitVec 6) (f : Cmd → Cmd) : (k.modCmd e f).sys = k.sys := rfl
@[simp] theorem CoreSt.modCmd_skip (k : CoreSt) (e : BitVec 6) (f : Cmd → Cmd) : (k.modCmd e f).skip = k.skip := rfl
@[simp] theorem CoreSt.modCmd_idle (k : CoreSt) (e : BitVec 6) (f : Cmd → Cmd) : (k.modCmd e f).idle = k.idle := rfl
@[simp] theorem CoreSt.modCmd_skipArmed (k : CoreSt) (e : BitVec 6) (f : Cmd → Cmd) : (k.modCmd e f).skipArmed = k.skipArmed := rfl
@[simp] theorem CoreSt.modCmd_tvec (k : CoreSt) (e : BitVec 6) (f : Cmd → Cmd) : (k.modCmd e f).tvec = k.tvec := rfl
@[simp] theorem CoreSt.modCmd_tepc (k : CoreSt) (e : BitVec 6) (f : Cmd → Cmd) : (k.modCmd e f).tepc = k.tepc := rfl
@[simp] theorem CoreSt.modCmd_tcause (k : CoreSt) (e : BitVec 6) (f : Cmd → Cmd) : (k.modCmd e f).tcause = k.tcause := rfl
@[simp] theorem CoreSt.modCmd_tval (k : CoreSt) (e : BitVec 6) (f : Cmd → Cmd) : (k.modCmd e f).tval = k.tval := rfl
@[simp] theorem CoreSt.modCmd_tval2 (k : CoreSt) (e : BitVec 6) (f : Cmd → Cmd) : (k.modCmd e f).tval2 = k.tval2 := rfl
@[simp] theorem CoreSt.modCmd_tscratch (k : CoreSt) (e : BitVec 6) (f : Cmd → Cmd) : (k.modCmd e f).tscratch = k.tscratch := rfl
@[simp] theorem CoreSt.modCmd_trec (k : CoreSt) (e : BitVec 6) (f : Cmd → Cmd) : (k.modCmd e f).trec = k.trec := rfl
@[simp] theorem CoreSt.modCmd_ksnap (k : CoreSt) (e : BitVec 6) (f : Cmd → Cmd) : (k.modCmd e f).ksnap = k.ksnap := rfl
@[simp] theorem CoreSt.modCmd_pending (k : CoreSt) (e : BitVec 6) (f : Cmd → Cmd) : (k.modCmd e f).pending = k.pending := rfl
@[simp] theorem CoreSt.modCmd_halt (k : CoreSt) (e : BitVec 6) (f : Cmd → Cmd) : (k.modCmd e f).halt = k.halt := rfl
@[simp] theorem CoreSt.modCmd_uvec (k : CoreSt) (e : BitVec 6) (f : Cmd → Cmd) : (k.modCmd e f).uvec = k.uvec := rfl
@[simp] theorem CoreSt.modCmd_uepc (k : CoreSt) (e : BitVec 6) (f : Cmd → Cmd) : (k.modCmd e f).uepc = k.uepc := rfl
@[simp] theorem CoreSt.modCmd_ucause (k : CoreSt) (e : BitVec 6) (f : Cmd → Cmd) : (k.modCmd e f).ucause = k.ucause := rfl
@[simp] theorem CoreSt.modCmd_ustat (k : CoreSt) (e : BitVec 6) (f : Cmd → Cmd) : (k.modCmd e f).ustat = k.ustat := rfl
@[simp] theorem CoreSt.modCmd_uie (k : CoreSt) (e : BitVec 6) (f : Cmd → Cmd) : (k.modCmd e f).uie = k.uie := rfl
@[simp] theorem CoreSt.modCmd_inHandler (k : CoreSt) (e : BitVec 6) (f : Cmd → Cmd) : (k.modCmd e f).inHandler = k.inHandler := rfl
@[simp] theorem CoreSt.modCmd_ovf (k : CoreSt) (e : BitVec 6) (f : Cmd → Cmd) : (k.modCmd e f).ovf = k.ovf := rfl
@[simp] theorem CoreSt.modCmd_notifs (k : CoreSt) (e : BitVec 6) (f : Cmd → Cmd) : (k.modCmd e f).notifs = k.notifs := rfl
@[simp] theorem CoreSt.modCmd_kcycle (k : CoreSt) (e : BitVec 6) (f : Cmd → Cmd) : (k.modCmd e f).kcycle = k.kcycle := rfl
@[simp] theorem CoreSt.modCmd_freeze (k : CoreSt) (e : BitVec 6) (f : Cmd → Cmd) : (k.modCmd e f).freeze = k.freeze := rfl
@[simp] theorem CoreSt.modCmd_kstat (k : CoreSt) (e : BitVec 6) (f : Cmd → Cmd) : (k.modCmd e f).kstat = k.kstat := rfl
@[simp] theorem CoreSt.modCmd_kstat2 (k : CoreSt) (e : BitVec 6) (f : Cmd → Cmd) : (k.modCmd e f).kstat2 = k.kstat2 := rfl
@[simp] theorem CoreSt.modCmd_cerr (k : CoreSt) (e : BitVec 6) (f : Cmd → Cmd) : (k.modCmd e f).cerr = k.cerr := rfl
@[simp] theorem CoreSt.modCmd_kb (k : CoreSt) (e : BitVec 6) (f : Cmd → Cmd) : (k.modCmd e f).kb = k.kb := rfl
@[simp] theorem CoreSt.modCmd_discidx (k : CoreSt) (e : BitVec 6) (f : Cmd → Cmd) : (k.modCmd e f).discidx = k.discidx := rfl
@[simp] theorem CoreSt.modCmd_hold (k : CoreSt) (e : BitVec 6) (f : Cmd → Cmd) : (k.modCmd e f).hold = k.hold := rfl
@[simp] theorem CoreSt.modCmd_holdSys (k : CoreSt) (e : BitVec 6) (f : Cmd → Cmd) : (k.modCmd e f).holdSys = k.holdSys := rfl
@[simp] theorem CoreSt.modCmd_stale (k : CoreSt) (e : BitVec 6) (f : Cmd → Cmd) : (k.modCmd e f).stale = k.stale := rfl
@[simp] theorem CoreSt.modCmd_hostHold (k : CoreSt) (e : BitVec 6) (f : Cmd → Cmd) : (k.modCmd e f).hostHold = k.hostHold := rfl
@[simp] theorem CoreSt.modCmd_txns (k : CoreSt) (e : BitVec 6) (f : Cmd → Cmd) : (k.modCmd e f).txns = k.txns := rfl
@[simp] theorem CoreSt.modCmd_groupSeq (k : CoreSt) (e : BitVec 6) (f : Cmd → Cmd) : (k.modCmd e f).groupSeq = k.groupSeq := rfl
@[simp] theorem CoreSt.modCmd_txnSeq (k : CoreSt) (e : BitVec 6) (f : Cmd → Cmd) : (k.modCmd e f).txnSeq = k.txnSeq := rfl
@[simp] theorem CoreSt.modCmd_monitors (k : CoreSt) (e : BitVec 6) (f : Cmd → Cmd) : (k.modCmd e f).monitors = k.monitors := rfl
@[simp] theorem CoreSt.modCmd_sweep (k : CoreSt) (e : BitVec 6) (f : Cmd → Cmd) : (k.modCmd e f).sweep = k.sweep := rfl
@[simp] theorem CoreSt.modCmd_comparators (k : CoreSt) (e : BitVec 6) (f : Cmd → Cmd) : (k.modCmd e f).comparators = k.comparators := rfl
@[simp] theorem CoreSt.modCmd_tlb (k : CoreSt) (e : BitVec 6) (f : Cmd → Cmd) : (k.modCmd e f).tlb = k.tlb := rfl
@[simp] theorem CoreSt.modCmd_engTlb (k : CoreSt) (e : BitVec 6) (f : Cmd → Cmd) : (k.modCmd e f).engTlb = k.engTlb := rfl
@[simp] theorem CoreSt.modCmd_bound (k : CoreSt) (e : BitVec 6) (f : Cmd → Cmd) : (k.modCmd e f).bound = k.bound := rfl
@[simp] theorem CoreSt.modCmd_swapHalted (k : CoreSt) (e : BitVec 6) (f : Cmd → Cmd) : (k.modCmd e f).swapHalted = k.swapHalted := rfl
@[simp] theorem CoreSt.modCmd_sem (k : CoreSt) (e : BitVec 6) (f : Cmd → Cmd) : (k.modCmd e f).sem = k.sem := rfl
@[simp] theorem CoreSt.modCmd_shapes (k : CoreSt) (e : BitVec 6) (f : Cmd → Cmd) : (k.modCmd e f).shapes = k.shapes := rfl
@[simp] theorem CoreSt.modCmd_handles (k : CoreSt) (e : BitVec 6) (f : Cmd → Cmd) : (k.modCmd e f).handles = k.handles := rfl
@[simp] theorem CoreSt.modCmd_cistern (k : CoreSt) (e : BitVec 6) (f : Cmd → Cmd) : (k.modCmd e f).cistern = k.cistern := rfl
@[simp] theorem CoreSt.modCmd_cisPoison (k : CoreSt) (e : BitVec 6) (f : Cmd → Cmd) : (k.modCmd e f).cisPoison = k.cisPoison := rfl
@[simp] theorem CoreSt.modCmd_remoteQ (k : CoreSt) (e : BitVec 6) (f : Cmd → Cmd) : (k.modCmd e f).remoteQ = k.remoteQ := rfl
@[simp] theorem CoreSt.modCmd_heldRemotes (k : CoreSt) (e : BitVec 6) (f : Cmd → Cmd) : (k.modCmd e f).heldRemotes = k.heldRemotes := rfl
@[simp] theorem CoreSt.modCmd_store (k : CoreSt) (e : BitVec 6) (f : Cmd → Cmd) : (k.modCmd e f).store = k.store := rfl
@[simp] theorem CoreSt.modCmd_storePending (k : CoreSt) (e : BitVec 6) (f : Cmd → Cmd) : (k.modCmd e f).storePending = k.storePending := rfl
@[simp] theorem CoreSt.modCmd_mergeImages (k : CoreSt) (e : BitVec 6) (f : Cmd → Cmd) : (k.modCmd e f).mergeImages = k.mergeImages := rfl
@[simp] theorem CoreSt.modCmd_eng (k : CoreSt) (e : BitVec 6) (f : Cmd → Cmd) : (k.modCmd e f).eng = k.eng := rfl
@[simp] theorem CoreSt.modCmd_clusters (k : CoreSt) (e : BitVec 6) (f : Cmd → Cmd) : (k.modCmd e f).clusters = k.clusters := rfl

/-! ### setRun -/

@[simp] theorem CoreSt.setRun_pc (k : CoreSt) (pos : KPos) (r : KernelRun) : (k.setRun pos r).pc = k.pc := rfl
@[simp] theorem CoreSt.setRun_g (k : CoreSt) (pos : KPos) (r : KernelRun) : (k.setRun pos r).g = k.g := rfl
@[simp] theorem CoreSt.setRun_shadowG (k : CoreSt) (pos : KPos) (r : KernelRun) : (k.setRun pos r).shadowG = k.shadowG := rfl
@[simp] theorem CoreSt.setRun_running (k : CoreSt) (pos : KPos) (r : KernelRun) : (k.setRun pos r).running = k.running := rfl
@[simp] theorem CoreSt.setRun_wid (k : CoreSt) (pos : KPos) (r : KernelRun) : (k.setRun pos r).wid = k.wid := rfl
@[simp] theorem CoreSt.setRun_widths (k : CoreSt) (pos : KPos) (r : KernelRun) : (k.setRun pos r).widths = k.widths := rfl
@[simp] theorem CoreSt.setRun_widthsOf (k : CoreSt) (pos : KPos) (r : KernelRun) : (k.setRun pos r).widthsOf = k.widthsOf := rfl
@[simp] theorem CoreSt.setRun_sys (k : CoreSt) (pos : KPos) (r : KernelRun) : (k.setRun pos r).sys = k.sys := rfl
@[simp] theorem CoreSt.setRun_skip (k : CoreSt) (pos : KPos) (r : KernelRun) : (k.setRun pos r).skip = k.skip := rfl
@[simp] theorem CoreSt.setRun_idle (k : CoreSt) (pos : KPos) (r : KernelRun) : (k.setRun pos r).idle = k.idle := rfl
@[simp] theorem CoreSt.setRun_skipArmed (k : CoreSt) (pos : KPos) (r : KernelRun) : (k.setRun pos r).skipArmed = k.skipArmed := rfl
@[simp] theorem CoreSt.setRun_tvec (k : CoreSt) (pos : KPos) (r : KernelRun) : (k.setRun pos r).tvec = k.tvec := rfl
@[simp] theorem CoreSt.setRun_tepc (k : CoreSt) (pos : KPos) (r : KernelRun) : (k.setRun pos r).tepc = k.tepc := rfl
@[simp] theorem CoreSt.setRun_tcause (k : CoreSt) (pos : KPos) (r : KernelRun) : (k.setRun pos r).tcause = k.tcause := rfl
@[simp] theorem CoreSt.setRun_tval (k : CoreSt) (pos : KPos) (r : KernelRun) : (k.setRun pos r).tval = k.tval := rfl
@[simp] theorem CoreSt.setRun_tval2 (k : CoreSt) (pos : KPos) (r : KernelRun) : (k.setRun pos r).tval2 = k.tval2 := rfl
@[simp] theorem CoreSt.setRun_tscratch (k : CoreSt) (pos : KPos) (r : KernelRun) : (k.setRun pos r).tscratch = k.tscratch := rfl
@[simp] theorem CoreSt.setRun_trec (k : CoreSt) (pos : KPos) (r : KernelRun) : (k.setRun pos r).trec = k.trec := rfl
@[simp] theorem CoreSt.setRun_ksnap (k : CoreSt) (pos : KPos) (r : KernelRun) : (k.setRun pos r).ksnap = k.ksnap := rfl
@[simp] theorem CoreSt.setRun_pending (k : CoreSt) (pos : KPos) (r : KernelRun) : (k.setRun pos r).pending = k.pending := rfl
@[simp] theorem CoreSt.setRun_halt (k : CoreSt) (pos : KPos) (r : KernelRun) : (k.setRun pos r).halt = k.halt := rfl
@[simp] theorem CoreSt.setRun_uvec (k : CoreSt) (pos : KPos) (r : KernelRun) : (k.setRun pos r).uvec = k.uvec := rfl
@[simp] theorem CoreSt.setRun_uepc (k : CoreSt) (pos : KPos) (r : KernelRun) : (k.setRun pos r).uepc = k.uepc := rfl
@[simp] theorem CoreSt.setRun_ucause (k : CoreSt) (pos : KPos) (r : KernelRun) : (k.setRun pos r).ucause = k.ucause := rfl
@[simp] theorem CoreSt.setRun_ustat (k : CoreSt) (pos : KPos) (r : KernelRun) : (k.setRun pos r).ustat = k.ustat := rfl
@[simp] theorem CoreSt.setRun_uie (k : CoreSt) (pos : KPos) (r : KernelRun) : (k.setRun pos r).uie = k.uie := rfl
@[simp] theorem CoreSt.setRun_inHandler (k : CoreSt) (pos : KPos) (r : KernelRun) : (k.setRun pos r).inHandler = k.inHandler := rfl
@[simp] theorem CoreSt.setRun_ovf (k : CoreSt) (pos : KPos) (r : KernelRun) : (k.setRun pos r).ovf = k.ovf := rfl
@[simp] theorem CoreSt.setRun_notifs (k : CoreSt) (pos : KPos) (r : KernelRun) : (k.setRun pos r).notifs = k.notifs := rfl
@[simp] theorem CoreSt.setRun_kcycle (k : CoreSt) (pos : KPos) (r : KernelRun) : (k.setRun pos r).kcycle = k.kcycle := rfl
@[simp] theorem CoreSt.setRun_freeze (k : CoreSt) (pos : KPos) (r : KernelRun) : (k.setRun pos r).freeze = k.freeze := rfl
@[simp] theorem CoreSt.setRun_kstat (k : CoreSt) (pos : KPos) (r : KernelRun) : (k.setRun pos r).kstat = k.kstat := rfl
@[simp] theorem CoreSt.setRun_kstat2 (k : CoreSt) (pos : KPos) (r : KernelRun) : (k.setRun pos r).kstat2 = k.kstat2 := rfl
@[simp] theorem CoreSt.setRun_cerr (k : CoreSt) (pos : KPos) (r : KernelRun) : (k.setRun pos r).cerr = k.cerr := rfl
@[simp] theorem CoreSt.setRun_kb (k : CoreSt) (pos : KPos) (r : KernelRun) : (k.setRun pos r).kb = k.kb := rfl
@[simp] theorem CoreSt.setRun_discidx (k : CoreSt) (pos : KPos) (r : KernelRun) : (k.setRun pos r).discidx = k.discidx := rfl
@[simp] theorem CoreSt.setRun_hold (k : CoreSt) (pos : KPos) (r : KernelRun) : (k.setRun pos r).hold = k.hold := rfl
@[simp] theorem CoreSt.setRun_holdSys (k : CoreSt) (pos : KPos) (r : KernelRun) : (k.setRun pos r).holdSys = k.holdSys := rfl
@[simp] theorem CoreSt.setRun_stale (k : CoreSt) (pos : KPos) (r : KernelRun) : (k.setRun pos r).stale = k.stale := rfl
@[simp] theorem CoreSt.setRun_hostHold (k : CoreSt) (pos : KPos) (r : KernelRun) : (k.setRun pos r).hostHold = k.hostHold := rfl
@[simp] theorem CoreSt.setRun_txns (k : CoreSt) (pos : KPos) (r : KernelRun) : (k.setRun pos r).txns = k.txns := rfl
@[simp] theorem CoreSt.setRun_groupSeq (k : CoreSt) (pos : KPos) (r : KernelRun) : (k.setRun pos r).groupSeq = k.groupSeq := rfl
@[simp] theorem CoreSt.setRun_txnSeq (k : CoreSt) (pos : KPos) (r : KernelRun) : (k.setRun pos r).txnSeq = k.txnSeq := rfl
@[simp] theorem CoreSt.setRun_monitors (k : CoreSt) (pos : KPos) (r : KernelRun) : (k.setRun pos r).monitors = k.monitors := rfl
@[simp] theorem CoreSt.setRun_sweep (k : CoreSt) (pos : KPos) (r : KernelRun) : (k.setRun pos r).sweep = k.sweep := rfl
@[simp] theorem CoreSt.setRun_comparators (k : CoreSt) (pos : KPos) (r : KernelRun) : (k.setRun pos r).comparators = k.comparators := rfl
@[simp] theorem CoreSt.setRun_tlb (k : CoreSt) (pos : KPos) (r : KernelRun) : (k.setRun pos r).tlb = k.tlb := rfl
@[simp] theorem CoreSt.setRun_engTlb (k : CoreSt) (pos : KPos) (r : KernelRun) : (k.setRun pos r).engTlb = k.engTlb := rfl
@[simp] theorem CoreSt.setRun_bound (k : CoreSt) (pos : KPos) (r : KernelRun) : (k.setRun pos r).bound = k.bound := rfl
@[simp] theorem CoreSt.setRun_swapHalted (k : CoreSt) (pos : KPos) (r : KernelRun) : (k.setRun pos r).swapHalted = k.swapHalted := rfl
@[simp] theorem CoreSt.setRun_sem (k : CoreSt) (pos : KPos) (r : KernelRun) : (k.setRun pos r).sem = k.sem := rfl
@[simp] theorem CoreSt.setRun_shapes (k : CoreSt) (pos : KPos) (r : KernelRun) : (k.setRun pos r).shapes = k.shapes := rfl
@[simp] theorem CoreSt.setRun_handles (k : CoreSt) (pos : KPos) (r : KernelRun) : (k.setRun pos r).handles = k.handles := rfl
@[simp] theorem CoreSt.setRun_table (k : CoreSt) (pos : KPos) (r : KernelRun) : (k.setRun pos r).table = k.table := rfl
@[simp] theorem CoreSt.setRun_cistern (k : CoreSt) (pos : KPos) (r : KernelRun) : (k.setRun pos r).cistern = k.cistern := rfl
@[simp] theorem CoreSt.setRun_cisPoison (k : CoreSt) (pos : KPos) (r : KernelRun) : (k.setRun pos r).cisPoison = k.cisPoison := rfl
@[simp] theorem CoreSt.setRun_remoteQ (k : CoreSt) (pos : KPos) (r : KernelRun) : (k.setRun pos r).remoteQ = k.remoteQ := rfl
@[simp] theorem CoreSt.setRun_heldRemotes (k : CoreSt) (pos : KPos) (r : KernelRun) : (k.setRun pos r).heldRemotes = k.heldRemotes := rfl
@[simp] theorem CoreSt.setRun_store (k : CoreSt) (pos : KPos) (r : KernelRun) : (k.setRun pos r).store = k.store := rfl
@[simp] theorem CoreSt.setRun_storePending (k : CoreSt) (pos : KPos) (r : KernelRun) : (k.setRun pos r).storePending = k.storePending := rfl
@[simp] theorem CoreSt.setRun_mergeImages (k : CoreSt) (pos : KPos) (r : KernelRun) : (k.setRun pos r).mergeImages = k.mergeImages := rfl
@[simp] theorem CoreSt.setRun_clusters (k : CoreSt) (pos : KPos) (r : KernelRun) : (k.setRun pos r).clusters = k.clusters := rfl

/-! ### Cores -/

@[simp] theorem State.core_setCore (s : State) (c d : CoreId) (k : CoreSt) :
    (s.setCore c k).core d = if c = d then k else s.core d := by
  simp [State.core, State.setCore]

@[simp] theorem State.core_modCore (s : State) (c d : CoreId) (f : CoreSt → CoreSt) :
    (s.modCore c f).core d = if c = d then f (s.core c) else s.core d := by
  simp [State.modCore]

@[simp] theorem State.core_modCur (s : State) (d : CoreId) (f : CoreSt → CoreSt) :
    (s.modCur f).core d = if s.active = d then f s.cur else s.core d := by
  simp [State.modCur, State.cur]

@[simp] theorem State.cur_modCur (s : State) (f : CoreSt → CoreSt) : (s.modCur f).cur = f s.cur := by
  simp [State.cur]

@[simp] theorem State.cur_setCore (s : State) (c : CoreId) (k : CoreSt) :
    (s.setCore c k).cur = if c = s.active then k else s.cur := by
  simp [State.cur]

@[simp] theorem State.core_eachCore (s : State) (c : CoreId) (f : CoreId → CoreSt → CoreSt) :
    (s.eachCore f).core c = f c (s.core c) := by
  simp [State.core, State.eachCore]

/-- A core put back as it was. -/
@[simp] theorem State.setCore_core (s : State) (c : CoreId) : s.setCore c (s.core c) = s := by
  have h : s.cores.write c (s.cores.read c) = s.cores := by
    apply Vector.ext; intro i hi
    simp only [Bank.write, Bank.read, Vector.getElem_set]
    split
    · subst_vars; rfl
    · rfl
  simp [State.setCore, State.core, h]

/-- An update of one core leaves everything else. -/
theorem State.onlyCore_setCore (s : State) (c : CoreId) (k : CoreSt) :
    (∀ x, x ≠ c → (s.setCore c k).core x = s.core x) ∧ { s.setCore c k with cores := s.cores } = s := by
  refine ⟨fun x h => ?_, rfl⟩
  simp [h.symm]

/-! ### Partitions and dies -/

@[simp] theorem State.part_modPart (s : State) (p q : PartId) (f : PartSt → PartSt) :
    (s.modPart p f).part q = if p = q then f (s.part p) else s.part q := by
  simp [State.part, State.modPart, Bank.modify]

@[simp] theorem State.part_modCore (s : State) (c : CoreId) (f : CoreSt → CoreSt) (q : PartId) :
    (s.modCore c f).part q = s.part q := rfl

@[simp] theorem State.partOf_modCore (s : State) (c d : CoreId) (f : CoreSt → CoreSt) : (s.modCore c f).partOf d = s.partOf d := rfl
@[simp] theorem State.partOf_setCore (s : State) (c d : CoreId) (k : CoreSt) : (s.setCore c k).partOf d = s.partOf d := rfl

/-! ### The registers of a control core (R30, R336) -/

@[simp] theorem CoreSt.readG_zero (k : CoreSt) : k.readG 0 = 0 := rfl

/-- What a write to gd leaves to be read: the value at gd unless it is g0, every other register as before. -/
theorem CoreSt.readG_writeG (k : CoreSt) (d r : BitVec 5) (x : DWord) :
    (k.writeG d x).readG r = if r = d ∧ r ≠ 0 then x else k.readG r := by
  have key : ∀ a b : BitVec 5, shadowed a = true → shadowed b = true → (a.extractLsb' 0 3 = b.extractLsb' 0 3 ↔ a = b) := by
    decide
  unfold CoreSt.writeG CoreSt.readG
  simp only [BitVec.ofNat_eq_ofNat, beq_iff_eq, ne_eq]
  by_cases h0 : r = 0#5
  · subst h0; simp
  · by_cases hd : d = 0#5
    · subst hd; simp [h0]
    · by_cases hi : k.inHandler = true
      · by_cases s1 : shadowed d = true <;> by_cases s2 : shadowed r = true
        · by_cases e : r = d
          · subst e; simp [h0, hi, s1]
          · have : d.extractLsb' 0 3 ≠ r.extractLsb' 0 3 := fun q => e ((key _ _ s1 s2).1 q).symm
            simp [h0, hd, hi, s1, s2, e, this]
        · have e : r ≠ d := by rintro rfl; exact s2 s1
          simp [h0, hd, hi, s1, s2, e]
        · have e : r ≠ d := by rintro rfl; exact s1 s2
          simp [h0, hd, hi, s1, s2, e]
        · by_cases e : r = d
          · subst e; simp [h0, hi, s1]
          · simp [h0, hd, hi, s1, s2, e, Ne.symm e]
      · by_cases e : r = d
        · subst e; simp [h0, hi]
        · simp [h0, hd, hi, e, Ne.symm e]

end Sys2Proof.Machine
end

