-- ==== Sys2Proof/Laws/Memory.lean ====
section
/-! SUPPORT. Memory: reads after writes, and the canonical form that every memory operation keeps. -/

namespace Sys2Proof.Machine

/-! ### Cells -/

theorem readCells_writeCells (cs : List Host.Cell) (a : Nat) (x : Byte) (b : Nat) :
    readCells (writeCells cs a x) b = if b = a then x else readCells cs b := by
  induction cs generalizing x with
  | nil =>
    unfold writeCells
    split
    · rename_i hx; subst hx; by_cases hb : b = a <;> simp [readCells, hb]
    · by_cases hb : b = a
      · simp [readCells, hb]
      · simp [readCells, hb, Ne.symm hb]
  | cons c rest ih =>
    obtain ⟨k, y⟩ := c
    unfold writeCells
    split
    · rename_i hk; subst hk
      split
      · rename_i hx; subst hx
        rw [ih]
        by_cases hb : b = k
        · simp [hb]
        · simp [readCells, hb, Ne.symm hb]
      · by_cases hb : b = k
        · simp [readCells, hb]
        · simp [readCells, hb, Ne.symm hb]
    · rename_i hk
      split
      · by_cases hb : b = a
        · simp [readCells, hb]
        · simp [readCells, hb, Ne.symm hb]
      · unfold readCells
        rw [ih]
        by_cases hb : k = b
        · subst hb; simp [hk]
        · simp [hb]

theorem cellsOk_weaken {lo lo' : Nat} {cs : List Host.Cell} (h : lo' ≤ lo) (ok : cellsOk lo cs = true) : cellsOk lo' cs = true := by
  cases cs with
  | nil => rfl
  | cons c rest =>
    simp only [cellsOk, Bool.and_eq_true, decide_eq_true_eq] at *
    exact ⟨⟨by omega, ok.1.2⟩, ok.2⟩

/-- Writing a byte keeps the canonical form, also above a bound that the address is not below. -/
theorem cellsOk_writeCells {lo a : Nat} {x : Byte} {cs : List Host.Cell} (ok : cellsOk lo cs = true) (h : lo ≤ a) :
    cellsOk lo (writeCells cs a x) = true := by
  induction cs generalizing lo x with
  | nil => unfold writeCells; split <;> simp_all [cellsOk]
  | cons c rest ih =>
    obtain ⟨k, y⟩ := c
    simp only [cellsOk, Bool.and_eq_true, decide_eq_true_eq] at ok
    obtain ⟨⟨hk, hy⟩, hr⟩ := ok
    unfold writeCells
    split
    · rename_i e; subst e
      split
      · -- the byte at k goes; nothing else of the rest lies there
        have gone : ∀ (l : Nat) (ds : List Host.Cell), k < l → cellsOk l ds = true → writeCells ds k 0 = ds := by
          intro l ds hl hd
          induction ds generalizing l with
          | nil => rfl
          | cons d ds ihd =>
            obtain ⟨j, z⟩ := d
            simp only [cellsOk, Bool.and_eq_true, decide_eq_true_eq] at hd
            unfold writeCells
            rw [if_neg (by omega), if_neg (by simp), ihd (j + 1) (by omega) hd.2]
        rw [gone (k + 1) rest (by omega) hr]
        exact cellsOk_weaken (by omega) hr
      · simp_all [cellsOk]
    · rename_i e
      split
      · rename_i q
        simp only [cellsOk, Bool.and_eq_true, decide_eq_true_eq]
        exact ⟨⟨h, by simpa using q.1⟩, ⟨by omega, hy⟩, hr⟩
      · rename_i q
        simp only [cellsOk, Bool.and_eq_true, decide_eq_true_eq]
        refine ⟨⟨hk, hy⟩, ?_⟩
        by_cases hx : x = 0
        · subst hx
          by_cases ha : k < a
          · exact ih hr (by omega)
          · -- no cell of the rest lies at a
            have gone : ∀ (l : Nat) (ds : List Host.Cell), a < l → cellsOk l ds = true → writeCells ds a 0 = ds := by
              intro l ds hl hd
              induction ds generalizing l with
              | nil => rfl
              | cons d ds ihd =>
                obtain ⟨j, z⟩ := d
                simp only [cellsOk, Bool.and_eq_true, decide_eq_true_eq] at hd
                unfold writeCells
                rw [if_neg (by omega), if_neg (by simp), ihd (j + 1) (by omega) hd.2]
            rw [gone (k + 1) rest (by omega) hr]
            exact hr
        · exact ih hr (by push Not at q; have := q hx; omega)

theorem cellsOk_filter {lo : Nat} {cs : List Host.Cell} (p : Host.Cell → Bool) (ok : cellsOk lo cs = true) :
    cellsOk lo (cs.filter p) = true := by
  induction cs generalizing lo with
  | nil => rfl
  | cons c rest ih =>
    obtain ⟨k, y⟩ := c
    simp only [cellsOk, Bool.and_eq_true, decide_eq_true_eq] at ok
    simp only [List.filter]
    split
    · simp only [cellsOk, Bool.and_eq_true, decide_eq_true_eq]; exact ⟨ok.1, ih ok.2⟩
    · exact cellsOk_weaken (by omega) (ih ok.2)

/-! ### Memories -/

@[simp] theorem Memory.readByte_writeByte (m : Memory) (a b : Nat) (x : Byte) :
    (m.writeByte a x).readByte b = if b = a then x else m.readByte b :=
  readCells_writeCells m.cells a x b

theorem Memory.wf_writeByte {m : Memory} (h : m.wf = true) (a : Nat) (x : Byte) : (m.writeByte a x).wf = true :=
  cellsOk_writeCells h (Nat.zero_le a)

theorem Memory.wf_write {m : Memory} (h : m.wf = true) (a : Nat) (bs : List Byte) : (m.write a bs).wf = true := by
  induction bs generalizing m a with
  | nil => exact h
  | cons x xs ih => exact ih (Memory.wf_writeByte h a x) (a + 1)

theorem Memory.wf_writeNat {m : Memory} (h : m.wf = true) (a n x : Nat) : (m.writeNat a n x).wf = true := Memory.wf_write h a _

theorem Memory.wf_filter {m : Memory} (h : m.wf = true) (p : Host.Cell → Bool) : (⟨m.cells.filter p⟩ : Memory).wf = true :=
  cellsOk_filter p h

theorem Memory.wf_empty : (⟨[]⟩ : Memory).wf = true := rfl

/-- What a write of bytes leaves to be read: the bytes where they went, everything else as before. -/
theorem Memory.readByte_write (m : Memory) (a : Nat) (bs : List Byte) (b : Nat) :
    (m.write a bs).readByte b = if a ≤ b ∧ b < a + bs.length then bs.getD (b - a) 0 else m.readByte b := by
  induction bs generalizing m a with
  | nil => simp only [Memory.write, List.length_nil]; rw [if_neg (by omega)]
  | cons x xs ih =>
    simp only [Memory.write, ih, Memory.readByte_writeByte, List.length_cons]
    by_cases h1 : b = a
    · subst h1
      rw [if_neg (by omega), if_pos rfl, if_pos (by omega)]
      simp
    · by_cases h2 : a + 1 ≤ b ∧ b < a + 1 + xs.length
      · rw [if_pos h2, if_pos (by omega)]
        obtain ⟨n, rfl⟩ : ∃ n, b = a + 1 + n := ⟨b - (a + 1), by omega⟩
        have : a + 1 + n - a = n + 1 := by omega
        simp [this]
      · rw [if_neg h2, if_neg h1, if_neg (by omega)]

@[simp] theorem Memory.length_read (m : Memory) (a n : Nat) : (m.read a n).length = n := by
  induction n generalizing a with
  | zero => rfl
  | succ n ih => simp [Memory.read, ih]

theorem Memory.getD_read (m : Memory) (a n i : Nat) (h : i < n) : (m.read a n).getD i 0 = m.readByte (a + i) := by
  induction n generalizing a i with
  | zero => omega
  | succ n ih =>
    cases i with
    | zero => simp [Memory.read]
    | succ i =>
      have := ih (a + 1) i (by omega)
      simp only [Memory.read, List.getD_cons_succ, this]
      congr 1; omega

/-- Two memories that agree on the bytes give the same number. -/
theorem Memory.read_congr {m m' : Memory} {a n : Nat} (h : ∀ i, i < n → m.readByte (a + i) = m'.readByte (a + i)) :
    m.read a n = m'.read a n := by
  induction n generalizing a with
  | zero => rfl
  | succ n ih =>
    simp only [Memory.read]
    rw [show m.readByte a = m'.readByte a from by simpa using h 0 (by omega)]
    rw [ih (a := a + 1) (fun i hi => by have := h (i + 1) (by omega); rwa [show a + (i + 1) = a + 1 + i by omega] at this)]

/-! ### The Cistern -/

theorem wf_putUnit {m : Memory} (h : m.wf = true) (w : CisWrite) : (putUnit m w).wf = true := by
  unfold putUnit
  generalize List.range 64 = js
  induction js generalizing m with
  | nil => exact h
  | cons j js ih =>
    simp only [List.foldl_cons]
    apply ih
    split
    · exact Memory.wf_writeByte h _ _
    · exact h

/-- The cells of a list of writes. -/
theorem cellsOk_foldl_writeCells {α : Type} (f : α → Nat) (g : α → Byte) (es : List α) {cs : List Host.Cell}
    (h : cellsOk 0 cs = true) : cellsOk 0 (es.foldl (fun cs e => writeCells cs (f e) (g e)) cs) = true := by
  induction es generalizing cs with
  | nil => exact h
  | cons e es ih => exact ih (cellsOk_writeCells h (Nat.zero_le _))

/-! ### Physical memory -/

/-- All that a write of bytes can do: device memory, the sizes of its blocks, the re-read marks of monitors, and, for host
memory, a message. -/
theorem State.writePhys_cases (s : State) (pa : Nat) (bs : List Byte) (seen : Bool) :
    (isHost pa = true ∧ s.writePhys pa bs seen =
      { s with host := { s.host with out := s.host.out ++ [.store (pa - Config.hostMemBase) bs] } }) ∨
    (isHost pa = false ∧ inDevice pa bs.length = true ∧ (s.writePhys pa bs seen).mem = s.mem.write pa bs ∧
      { s.writePhys pa bs seen with mem := s.mem, sizes := s.sizes, cores := s.cores } = s ∧
      ∀ c, { (s.writePhys pa bs seen).core c with monitors := (s.core c).monitors } = s.core c) ∨
    (isHost pa = false ∧ inDevice pa bs.length = false ∧ s.writePhys pa bs seen = s) := by
  unfold State.writePhys
  split
  · exact .inl ⟨‹_›, rfl⟩
  · rename_i h
    simp only [Bool.not_eq_true] at h
    split
    · rename_i hd
      refine .inr (.inl ⟨h, hd, rfl, rfl, fun c => ?_⟩)
      cases seen
      · rfl
      · simp [State.core]
    · rename_i hd
      simp only [Bool.not_eq_true] at hd
      exact .inr (.inr ⟨h, hd, rfl⟩)

theorem State.wf_writePhys {s : State} (h : s.mem.wf = true) (pa : Nat) (bs : List Byte) (seen : Bool) :
    (s.writePhys pa bs seen).mem.wf = true := by
  rcases s.writePhys_cases pa bs seen with ⟨_, e⟩ | ⟨_, _, e, _⟩ | ⟨_, _, e⟩
  · rw [e]; exact h
  · rw [e]; exact Memory.wf_write h pa bs
  · rw [e]; exact h

theorem State.wf_copyFrame {s : State} (h : s.mem.wf = true) (a b n : Nat) : (s.copyFrame a b n).mem.wf = true :=
  cellsOk_foldl_writeCells _ _ _ (cellsOk_filter _ h)

/-- A write of bytes leaves every byte of device memory outside of them. -/
theorem State.sameOutside_writePhys (s : State) (pa : Nat) (bs : List Byte) (seen : Bool) :
    SameOutside pa bs.length s (s.writePhys pa bs seen) := by
  intro a ha
  rcases s.writePhys_cases pa bs seen with ⟨_, e⟩ | ⟨_, _, e, _⟩ | ⟨_, _, e⟩
  · rw [e]
  · rw [e, Memory.readByte_write, if_neg ha]
  · rw [e]

/-- Memory after reset has its canonical form. -/
theorem wf_reset_mem : State.reset.mem.wf = true := rfl

end Sys2Proof.Machine
end

