-- ==== Sys2Proof/Laws/Ops.lean ====
section
/-! SUPPORT. What each shared operation of a control core can do, said once: writing a result, going on, taking a trap. -/

namespace Sys2Proof.Machine

theorem answers_next {t : State} {P : State → Prop} (h : P t) : Answers (.next t) P := ⟨t, rfl, h⟩

/-! ### Results -/

/-- The core after a write to gd differs from the core before in its two register sets alone. -/
theorem CoreSt.sansRegs_writeG (k : CoreSt) (d : BitVec 5) (x y : DWord) :
    ({ k.writeG d x with pc := y } : CoreSt).sansRegs = k.sansRegs := by
  unfold CoreSt.writeG CoreSt.sansRegs
  split
  · rfl
  · split <;> rfl

/-- Writing a result and going on. -/
theorem State.wrote_result (s : State) (d : BitVec 5) (x : DWord) : s.Wrote d x (s.result d x) := by
  have hc : (s.result d x).cur = { s.cur.writeG d x with pc := s.cur.pc + 4 } := by
    simp [State.result, State.advance, State.setG, State.cur, State.modCur, CoreSt.writeG]
    split <;> [rfl; (split <;> rfl)]
  have hg : ∀ r, (s.result d x).g r = (s.cur.writeG d x).readG r := by
    intro r; simp only [State.g, hc]; rfl
  have key : ∀ a b : BitVec 5, shadowed a = true → shadowed b = true → a.extractLsb' 0 3 = b.extractLsb' 0 3 → a = b := by
    decide
  refine ⟨?_, ?_, ?_, ?_, ?_, ?_, ?_, ?_⟩
  · intro h
    have h : d ≠ 0#5 := h
    rw [hg, CoreSt.readG_writeG]; simp [h]
  · rw [hg]; rfl
  · intro r h; rw [hg, CoreSt.readG_writeG]; simp [h, State.g]
  · intro r h
    rw [hc]
    show (s.cur.writeG d x).g.read r = _
    unfold CoreSt.writeG
    split
    · rfl
    · split
      · rfl
      · rename_i h0 h1
        rcases h with h | ⟨h, h'⟩
        · simp [Ne.symm h]
        · simp [h, h'] at h1
  · intro j h
    rw [hc]
    show (s.cur.writeG d x).shadowG.read j = _
    unfold CoreSt.writeG
    split
    · rfl
    · split
      · rename_i h0 h1
        simp only [Bool.and_eq_true] at h1
        rcases h with h | h
        · rw [h] at h1; exact absurd h1.1 (by decide)
        · have : d.extractLsb' 0 3 ≠ j := by
            intro e
            apply h
            have g : ∀ a : BitVec 5, shadowed a = true → a = (3 : BitVec 2) ++ a.extractLsb' 0 3 := by decide
            rw [← e]; exact g d h1.2
          simp [this]
      · rfl
  · rw [hc]
  · rw [hc]; exact CoreSt.sansRegs_writeG _ _ _ _
  · refine ⟨fun c h => ?_, rfl⟩
    simp [State.result, State.advance, State.setG, State.modCur, Ne.symm h]

/-- Going on to the next word. -/
theorem State.went_advance (s : State) : s.Went (s.cur.pc + 4) s.advance := by
  refine ⟨by simp [State.advance, State.cur, State.modCur], fun c h => ?_, rfl⟩
  simp [State.advance, State.modCur, Ne.symm h]

theorem State.went_setPc (s : State) (x : DWord) : s.Went x (s.setPc x) := by
  refine ⟨by simp [State.setPc, State.cur, State.modCur], fun c h => ?_, rfl⟩
  simp [State.setPc, State.modCur, Ne.symm h]

/-! ### Traps (R355 to R360) -/

theorem causeWord_plain (cause : Byte) : causeWord cause 0 false false 0 = zext cause := by
  have z8 (n : Nat) : (BitVec.setWidth 64 (0 : Byte)) <<< n = (0#64) := by
    rw [show BitVec.setWidth 64 (0 : Byte) = 0#64 from rfl, BitVec.zero_shiftLeft]
  have z1 (n : Nat) : (BitVec.setWidth 64 (BitVec.ofBool false)) <<< n = (0#64) := by
    rw [show BitVec.setWidth 64 (BitVec.ofBool false) = 0#64 from rfl, BitVec.zero_shiftLeft]
  have z6 (n : Nat) : (BitVec.setWidth 64 (0 : BitVec 6)) <<< n = (0#64) := by
    rw [show BitVec.setWidth 64 (0 : BitVec 6) = 0#64 from rfl, BitVec.zero_shiftLeft]
  unfold causeWord
  simp only [zext, z8, z1, z6, BitVec.or_zero]

/-- Entering a trap, where a handler is set. -/
theorem State.trappedOn_enterTrap (s : State) (c : CoreId) (cause epc val : DWord) (h : (s.core c).tvec ≠ 0) :
    s.TrappedOn c cause epc val (s.enterTrap c cause epc val 0 (s.core c).record) := by
  have hb : ((s.core c).tvec == 0) = false := by simpa using h
  unfold State.enterTrap
  simp only [State.core_modCore, if_pos, hb, Bool.false_eq_true, if_false]
  refine ⟨by simp, fun x hx => by simp [Ne.symm hx], rfl⟩

/-- Without a handler a core stops in the trap that it takes. -/
theorem State.enterTrap_stops (s : State) (c : CoreId) (cause epc val val2 rec_ : DWord) (h : (s.core c).tvec = 0) :
    ∃ u : State, s.enterTrap c cause epc val val2 rec_ = u.stopCore c 1 := by
  unfold State.enterTrap
  simp only [State.core_modCore, if_pos, h, beq_self_eq_true]
  exact ⟨_, rfl⟩

/-- A synchronous trap from task mode. -/
theorem State.trapped_syncTrap (s : State) (cause : Byte) (epc val : DWord) (h : s.CanTrap) :
    s.Trapped cause epc val (s.syncTrap cause epc val) := by
  unfold State.syncTrap
  rw [h.1]
  simp only [Bool.false_eq_true, if_false, causeWord_plain]
  exact s.trappedOn_enterTrap s.active _ _ _ h.2

/-- In system mode it is a double trap. -/
theorem State.syncTrap_double (s : State) (cause : Byte) (epc val val2 : DWord) (h : s.cur.sys = true) :
    s.syncTrap cause epc val val2 = s.stopCore s.active 2 := by
  unfold State.syncTrap; rw [h]; rfl

theorem State.trapped_faultNow (s : State) (cause : Byte) (val : DWord) (h : s.CanTrap) :
    s.Trapped cause s.cur.pc val (s.faultNow cause val) := s.trapped_syncTrap cause _ val h

/-! ### Flits -/

/-- The CRC of a flit covers everything but itself, so sealing changes nothing that it covers. -/
theorem seal_eq (f : Flit) : sealFlit f = { f with crc := crc32 (flitBytes f) } := rfl
theorem bytes_crc (f : Flit) (c : Word) : flitBytes { f with crc := c } = flitBytes f := rfl
theorem seal_bytes (f : Flit) : flitBytes (sealFlit f) = flitBytes f := bytes_crc f _
theorem seal_crc (f : Flit) : (sealFlit f).crc = crc32 (flitBytes f) := by rw [seal_eq]

/-- A sealed flit of an assigned type is sound, whatever its block's transit CRC. -/
theorem sound_of (f : Flit) (h : (f.type != 0 && f.type.ult 8 && f.reserved == 0 && f.reserved2 == 0) = true) :
    soundFlit (sealFlit f) = true := by
  unfold soundFlit
  rw [seal_bytes, seal_crc, beq_self_eq_true, Bool.and_true]
  rw [seal_eq]
  exact h

/-! ### Writes of the device itself, arrivals, links -/

theorem State.writeOwn_live {s : State} {pa : Nat} (bs : List Byte) (h : s.tagged pa = true) : s.writeOwn pa bs = s := by
  simp [State.writeOwn, h]
theorem State.writeOwn_plain {s : State} {pa : Nat} (bs : List Byte) (h : s.tagged pa = false) : s.writeOwn pa bs = s.writePhys pa bs := by
  simp [State.writeOwn, h]

/-- A copy on write whose table entries lie in a live block is not made (log 93). -/
theorem State.copyOnWrite_live {s : State} {m : Mapping} (p : PartId) (va : Nat) (h : s.entryLive m.kind = true) :
    s.copyOnWrite p va m = none := by
  simp [State.copyOnWrite, h]

/-- A bundle none of whose operations retires at its issue makes no arrival then (R237). -/
theorem CoreSt.arriveNow_late {es : List Eff} (k : CoreSt) (pos : KPos) (h : ∀ e ∈ es, e.lat ≠ 0) : k.arriveNow pos es = k := by
  rw [CoreSt.arriveNow, List.filter_eq_nil_iff.2 (fun e he => by simpa using h e he), List.foldl_nil]

@[simp] theorem State.sendRemotes_nil (s : State) (c : CoreId) : s.sendRemotes c [] = s := rfl

@[simp] theorem LinkSt.failed_mended (x : LinkSt) (seq : BitVec 24) (kind : FlitKind) : (x.mended seq kind).failed seq kind = none := by
  simp only [LinkSt.failed, LinkSt.mended, List.find?_eq_none, List.mem_filter, Bool.not_eq_true', and_imp]
  exact fun _ _ h => by rw [h]; decide

end Sys2Proof.Machine
end

