-- ==== Sys2Proof/Laws/PerInstr.lean ====
section
/-! SUPPORT. The family Encoding: one lemma for each instruction about the words that encode it. -/

namespace Sys2Proof.Laws.Encoding

/-- An instruction is encoded in one form at most: one word of a control core, four of a command, eight of a bundle that holds
one slot operation, or none (R80, R85, R94). -/
def Statement (i : Instr) : Prop :=
  (encode i).length = (encodeWord i).isSome.toNat + 4 * (encodeCommand i).isSome.toNat + 8 * (slotCode i).isSome.toNat

theorem add (d a b : BitVec 5) : Statement (.add d a b) := rfl
theorem sub (d a b : BitVec 5) : Statement (.sub d a b) := rfl
theorem and (d a b : BitVec 5) : Statement (.and d a b) := rfl
theorem or (d a b : BitVec 5) : Statement (.or d a b) := rfl
theorem xor (d a b : BitVec 5) : Statement (.xor d a b) := rfl
theorem sll (d a b : BitVec 5) : Statement (.sll d a b) := rfl
theorem srl (d a b : BitVec 5) : Statement (.srl d a b) := rfl
theorem sra (d a b : BitVec 5) : Statement (.sra d a b) := rfl
theorem slt (d a b : BitVec 5) : Statement (.slt d a b) := rfl
theorem sltu (d a b : BitVec 5) : Statement (.sltu d a b) := rfl
theorem min (d a b : BitVec 5) : Statement (.min d a b) := rfl
theorem max (d a b : BitVec 5) : Statement (.max d a b) := rfl
theorem minu (d a b : BitVec 5) : Statement (.minu d a b) := rfl
theorem maxu (d a b : BitVec 5) : Statement (.maxu d a b) := rfl
theorem sextB (d a : BitVec 5) : Statement (.sextB d a) := rfl
theorem sextH (d a : BitVec 5) : Statement (.sextH d a) := rfl
theorem sextW (d a : BitVec 5) : Statement (.sextW d a) := rfl
theorem mul (d a b : BitVec 5) : Statement (.mul d a b) := rfl
theorem mulh (d a b : BitVec 5) : Statement (.mulh d a b) := rfl
theorem mulhu (d a b : BitVec 5) : Statement (.mulhu d a b) := rfl
theorem div (d a b : BitVec 5) : Statement (.div d a b) := rfl
theorem divu (d a b : BitVec 5) : Statement (.divu d a b) := rfl
theorem rem (d a b : BitVec 5) : Statement (.rem d a b) := rfl
theorem remu (d a b : BitVec 5) : Statement (.remu d a b) := rfl
theorem addi (d a : BitVec 5) (imm : BitVec 16) : Statement (.addi d a imm) := rfl
theorem andi (d a : BitVec 5) (imm : BitVec 16) : Statement (.andi d a imm) := rfl
theorem ori (d a : BitVec 5) (imm : BitVec 16) : Statement (.ori d a imm) := rfl
theorem xori (d a : BitVec 5) (imm : BitVec 16) : Statement (.xori d a imm) := rfl
theorem slti (d a : BitVec 5) (imm : BitVec 16) : Statement (.slti d a imm) := rfl
theorem sltiu (d a : BitVec 5) (imm : BitVec 16) : Statement (.sltiu d a imm) := rfl
theorem slli (d a : BitVec 5) (n : BitVec 6) : Statement (.slli d a n) := rfl
theorem srli (d a : BitVec 5) (n : BitVec 6) : Statement (.srli d a n) := rfl
theorem srai (d a : BitVec 5) (n : BitVec 6) : Statement (.srai d a n) := rfl
theorem lui (d : BitVec 5) (imm : BitVec 16) : Statement (.lui d imm) := rfl
theorem shori (d a : BitVec 5) (imm : BitVec 16) : Statement (.shori d a imm) := rfl
theorem ldB (d a : BitVec 5) (cls : BitVec 4) (off : BitVec 12) : Statement (.ldB d a cls off) := rfl
theorem ldH (d a : BitVec 5) (cls : BitVec 4) (off : BitVec 12) : Statement (.ldH d a cls off) := rfl
theorem ldW (d a : BitVec 5) (cls : BitVec 4) (off : BitVec 12) : Statement (.ldW d a cls off) := rfl
theorem ldD (d a : BitVec 5) (cls : BitVec 4) (off : BitVec 12) : Statement (.ldD d a cls off) := rfl
theorem stB (src a : BitVec 5) (cls : BitVec 4) (off : BitVec 12) : Statement (.stB src a cls off) := rfl
theorem stH (src a : BitVec 5) (cls : BitVec 4) (off : BitVec 12) : Statement (.stH src a cls off) := rfl
theorem stW (src a : BitVec 5) (cls : BitVec 4) (off : BitVec 12) : Statement (.stW src a cls off) := rfl
theorem stD (src a : BitVec 5) (cls : BitVec 4) (off : BitVec 12) : Statement (.stD src a cls off) := rfl
theorem beq (a b : BitVec 5) (off : BitVec 16) : Statement (.beq a b off) := rfl
theorem bne (a b : BitVec 5) (off : BitVec 16) : Statement (.bne a b off) := rfl
theorem blt (a b : BitVec 5) (off : BitVec 16) : Statement (.blt a b off) := rfl
theorem bge (a b : BitVec 5) (off : BitVec 16) : Statement (.bge a b off) := rfl
theorem bltu (a b : BitVec 5) (off : BitVec 16) : Statement (.bltu a b off) := rfl
theorem bgeu (a b : BitVec 5) (off : BitVec 16) : Statement (.bgeu a b off) := rfl
theorem jal (off : BitVec 26) : Statement (.jal off) := rfl
theorem jalr (d a : BitVec 5) (imm : BitVec 16) : Statement (.jalr d a imm) := rfl
theorem exit : Statement .exit := rfl
theorem yield : Statement .yield := rfl
theorem spawn (d a b : BitVec 5) : Statement (.spawn d a b) := rfl
theorem sync (d : BitVec 5) : Statement (.sync d) := rfl
theorem view (op : BitVec 3) (d a b : BitVec 5) : Statement (.view op d a b) := rfl
theorem viewDrop (d a b : BitVec 5) : Statement (.viewDrop d a b) := rfl
theorem meet (sfx : SyncSfx) (d a b : BitVec 5) : Statement (.meet sfx d a b) := rfl
theorem minit (d a b : BitVec 5) : Statement (.minit d a b) := rfl
theorem mread (d a : BitVec 5) : Statement (.mread d a) := rfl
theorem mfree (d a : BitVec 5) : Statement (.mfree d a) := rfl
theorem waitge (sfx : SyncSfx) (a b : BitVec 5) : Statement (.waitge sfx a b) := rfl
theorem waitaddr (mode : BitVec 2) (sfx : SyncSfx) (d a b : BitVec 5) : Statement (.waitaddr mode sfx d a b) := rfl
theorem wake (a : BitVec 5) : Statement (.wake a) := rfl
theorem qpop (d a : BitVec 5) : Statement (.qpop d a) := rfl
theorem qpopNb (d a : BitVec 5) : Statement (.qpopNb d a) := rfl
theorem qpush (d a b : BitVec 5) : Statement (.qpush d a b) := rfl
theorem qclose (d a : BitVec 5) : Statement (.qclose d a) := rfl
theorem launch (d a : BitVec 5) : Statement (.launch d a) := rfl
theorem fence (scope : BitVec 2) (mask : BitVec 16) : Statement (.fence scope mask) := rfl
theorem xbegin (d a : BitVec 5) : Statement (.xbegin d a) := rfl
theorem xstore (size : BitVec 2) (d a b : BitVec 5) : Statement (.xstore size d a b) := rfl
theorem xcommit (d : BitVec 5) : Statement (.xcommit d) := rfl
theorem xabort (d : BitVec 5) : Statement (.xabort d) := rfl
theorem amoW (op : BitVec 3) (sfx : SyncSfx) (d a b : BitVec 5) : Statement (.amoW op sfx d a b) := rfl
theorem amoD (op : BitVec 3) (sfx : SyncSfx) (d a b : BitVec 5) : Statement (.amoD op sfx d a b) := rfl
theorem ldAcq (size : BitVec 2) (cls : BitVec 4) (scope : BitVec 2) (d a : BitVec 5) : Statement (.ldAcq size cls scope d a) := rfl
theorem stRel (size : BitVec 2) (cls : BitVec 4) (scope : BitVec 2) (a b : BitVec 5) : Statement (.stRel size cls scope a b) := rfl
theorem csrr (d : BitVec 5) (csr : BitVec 12) : Statement (.csrr d csr) := rfl
theorem csrw (d a : BitVec 5) (csr : BitVec 12) : Statement (.csrw d a csr) := rfl
theorem csrs (d a : BitVec 5) (csr : BitVec 12) : Statement (.csrs d a csr) := rfl
theorem csrc (d a : BitVec 5) (csr : BitVec 12) : Statement (.csrc d a csr) := rfl
theorem trap (code : BitVec 16) : Statement (.trap code) := rfl
theorem sysret : Statement .sysret := rfl
theorem uiret : Statement .uiret := rfl
theorem snapsave (d a b : BitVec 5) : Statement (.snapsave d a b) := rfl
theorem snapload (d a b : BitVec 5) : Statement (.snapload d a b) := rfl
theorem brk : Statement .brk := rfl
theorem dbrd (d a : BitVec 5) : Statement (.dbrd d a) := rfl
theorem dbwr (a b : BitVec 5) : Statement (.dbwr a b) := rfl
theorem untag (a : BitVec 5) : Statement (.untag a) := rfl
theorem shape (h : CmdHdr) (addr : Word) (sh : BitVec 5) (ctr : BitVec 15) : Statement (.shape h addr sh ctr) := rfl
theorem salloc (h : CmdHdr) (hnd : BitVec 6) (bank nbanks : BitVec 7) (row : BitVec 11) (nrows : BitVec 12) : Statement (.salloc h hnd bank nbanks row nrows) := rfl
theorem sfree (h : CmdHdr) (hnd : BitVec 6) : Statement (.sfree h hnd) := rfl
theorem sload (h : CmdHdr) (tmode : BitVec 2) (tag : Tag) (split : Bool) (addr : Word) (hnd : BitVec 6) (sh : BitVec 5) (ctr : BitVec 15) : Statement (.sload h tmode tag split addr hnd sh ctr) := rfl
theorem sstore (h : CmdHdr) (tag : Tag) (split : Bool) (addr : Word) (hnd : BitVec 6) (sh : BitVec 5) (ctr : BitVec 15) : Statement (.sstore h tag split addr hnd sh ctr) := rfl
theorem sgather (h : CmdHdr) (tag : Tag) (addr : Word) (hnd : BitVec 6) (sh : BitVec 5) (idx : BitVec 6) (ctr : BitVec 15) : Statement (.sgather h tag addr hnd sh idx ctr) := rfl
theorem sscatter (h : CmdHdr) (tag : Tag) (addr : Word) (hnd : BitVec 6) (sh : BitVec 5) (idx : BitVec 6) (ctr : BitVec 15) : Statement (.sscatter h tag addr hnd sh idx ctr) := rfl
theorem sscadd (h : CmdHdr) (tag : Tag) (form : BitVec 2) (addr : Word) (hnd : BitVec 6) (sh : BitVec 5) (idx : BitVec 6) (ctr : BitVec 15) : Statement (.sscadd h tag form addr hnd sh idx ctr) := rfl
theorem scopy (h : CmdHdr) (sh : BitVec 5) (dst src : Word) : Statement (.scopy h sh dst src) := rfl
theorem scan (h : CmdHdr) (tag : Tag) (flush row : Bool) (src list : BitVec 6) (sh : BitVec 5) (mask : BitVec 6) (ctr : BitVec 15) : Statement (.scan h tag flush row src list sh mask ctr) := rfl
theorem kernel (h : CmdHdr) (knl : BitVec 12) (sh : BitVec 5) (hA hB hC hD : BitVec 6) (ins outs : BitVec 4) (ctr : BitVec 15) : Statement (.kernel h knl sh hA hB hC hD ins outs ctr) := rfl
theorem kswap (h : CmdHdr) (knl : BitVec 12) (addr : Word) (ctr : BitVec 15) : Statement (.kswap h knl addr ctr) := rfl
theorem collAllred (h : CmdHdr) (addr : Word) (comb : BitVec 4) (sh : BitVec 5) (grp : BitVec 4) (ctr : BitVec 15) : Statement (.collAllred h addr comb sh grp ctr) := rfl
theorem collRedsc (h : CmdHdr) (addr : Word) (comb : BitVec 4) (sh : BitVec 5) (grp : BitVec 4) (ctr : BitVec 15) : Statement (.collRedsc h addr comb sh grp ctr) := rfl
theorem collAllgat (h : CmdHdr) (addr : Word) (comb : BitVec 4) (sh : BitVec 5) (grp : BitVec 4) (ctr : BitVec 15) : Statement (.collAllgat h addr comb sh grp ctr) := rfl
theorem collBcast (h : CmdHdr) (addr : Word) (comb : BitVec 4) (sh : BitVec 5) (grp : BitVec 4) (ctr : BitVec 15) : Statement (.collBcast h addr comb sh grp ctr) := rfl
theorem smark (h : CmdHdr) (ctr : BitVec 15) : Statement (.smark h ctr) := rfl
theorem slotNop (h : SlotHdr) : Statement (.slotNop h) := rfl
theorem br (h : SlotHdr) (target : BitVec 12) : Statement (.br h target) := rfl
theorem loop (h : SlotHdr) (lvl : BitVec 3) (a : BitVec 5) (byShape : Bool) (len : BitVec 6) : Statement (.loop h lvl a byShape len) := rfl
theorem loopi (h : SlotHdr) (lvl : BitVec 3) (trip : BitVec 7) (len : BitVec 6) : Statement (.loopi h lvl trip len) := rfl
theorem loopSw (h : SlotHdr) (lvl : BitVec 3) (a : BitVec 5) (byShape : Bool) (stages : BitVec 3) (ii : BitVec 4) : Statement (.loopSw h lvl a byShape stages ii) := rfl
theorem loopiSw (h : SlotHdr) (lvl : BitVec 3) (trip : BitVec 6) (stages : BitVec 3) (ii : BitVec 4) : Statement (.loopiSw h lvl trip stages ii) := rfl
theorem pand (h : SlotHdr) (pd pa pb : BitVec 4) : Statement (.pand h pd pa pb) := rfl
theorem por (h : SlotHdr) (pd pa pb : BitVec 4) : Statement (.por h pd pa pb) := rfl
theorem pxor (h : SlotHdr) (pd pa pb : BitVec 4) : Statement (.pxor h pd pa pb) := rfl
theorem pandn (h : SlotHdr) (pd pa pb : BitVec 4) : Statement (.pandn h pd pa pb) := rfl
theorem cmp (h : SlotHdr) (cc k : BitVec 3) (a b : BitVec 5) : Statement (.cmp h cc k a b) := rfl
theorem cmpi (h : SlotHdr) (cc k : BitVec 3) (a : BitVec 5) (imm : Imm) : Statement (.cmpi h cc k a imm) := rfl
theorem movi (h : SlotHdr) (d : BitVec 5) (imm : Imm) : Statement (.movi h d imm) := rfl
theorem lwait (h : SlotHdr) (n : BitVec 4) : Statement (.lwait h n) := rfl
theorem lock (h : SlotHdr) (n : BitVec 4) (a : BitVec 5) : Statement (.lock h n a) := rfl
theorem ktrap (h : SlotHdr) (code : BitVec 16) : Statement (.ktrap h code) := rfl
theorem halt (h : SlotHdr) : Statement (.halt h) := rfl
theorem sMov (h : SlotHdr) (d a : BitVec 5) : Statement (.sMov h d a) := rfl
theorem sAdd (h : SlotHdr) (d a b : BitVec 5) : Statement (.sAdd h d a b) := rfl
theorem sSub (h : SlotHdr) (d a b : BitVec 5) : Statement (.sSub h d a b) := rfl
theorem sAnd (h : SlotHdr) (d a b : BitVec 5) : Statement (.sAnd h d a b) := rfl
theorem sOr (h : SlotHdr) (d a b : BitVec 5) : Statement (.sOr h d a b) := rfl
theorem sXor (h : SlotHdr) (d a b : BitVec 5) : Statement (.sXor h d a b) := rfl
theorem sSll (h : SlotHdr) (d a b : BitVec 5) : Statement (.sSll h d a b) := rfl
theorem sSrl (h : SlotHdr) (d a b : BitVec 5) : Statement (.sSrl h d a b) := rfl
theorem sSra (h : SlotHdr) (d a b : BitVec 5) : Statement (.sSra h d a b) := rfl
theorem sMul (h : SlotHdr) (d a b : BitVec 5) : Statement (.sMul h d a b) := rfl
theorem sMulh (h : SlotHdr) (d a b : BitVec 5) : Statement (.sMulh h d a b) := rfl
theorem sMin (h : SlotHdr) (d a b : BitVec 5) : Statement (.sMin h d a b) := rfl
theorem sMax (h : SlotHdr) (d a b : BitVec 5) : Statement (.sMax h d a b) := rfl
theorem sMinu (h : SlotHdr) (d a b : BitVec 5) : Statement (.sMinu h d a b) := rfl
theorem sMaxu (h : SlotHdr) (d a b : BitVec 5) : Statement (.sMaxu h d a b) := rfl
theorem sAddi (h : SlotHdr) (d : BitVec 5) (imm : Imm) : Statement (.sAddi h d imm) := rfl
theorem sAndi (h : SlotHdr) (d : BitVec 5) (imm : Imm) : Statement (.sAndi h d imm) := rfl
theorem sOri (h : SlotHdr) (d : BitVec 5) (imm : Imm) : Statement (.sOri h d imm) := rfl
theorem sXori (h : SlotHdr) (d : BitVec 5) (imm : Imm) : Statement (.sXori h d imm) := rfl
theorem sSlli (h : SlotHdr) (d : BitVec 5) (n : BitVec 6) : Statement (.sSlli h d n) := rfl
theorem sSrli (h : SlotHdr) (d : BitVec 5) (n : BitVec 6) : Statement (.sSrli h d n) := rfl
theorem sSrai (h : SlotHdr) (d : BitVec 5) (n : BitVec 6) : Statement (.sSrai h d n) := rfl
theorem rdlc (h : SlotHdr) (d : BitVec 5) (lvl : BitVec 3) : Statement (.rdlc h d lvl) := rfl
theorem wfield (h : SlotHdr) (d : BitVec 5) (k : BitVec 3) : Statement (.wfield h d k) := rfl
theorem vmov (h : SlotHdr) (d a : BitVec 5) : Statement (.vmov h d a) := rfl
theorem vsel (h : SlotHdr) (d a b : BitVec 5) : Statement (.vsel h d a b) := rfl
theorem vand (h : SlotHdr) (d a b : BitVec 5) : Statement (.vand h d a b) := rfl
theorem vor (h : SlotHdr) (d a b : BitVec 5) : Statement (.vor h d a b) := rfl
theorem vxor (h : SlotHdr) (d a b : BitVec 5) : Statement (.vxor h d a b) := rfl
theorem vnot (h : SlotHdr) (d a : BitVec 5) : Statement (.vnot h d a) := rfl
theorem vfshl (h : SlotHdr) (d a b : BitVec 5) : Statement (.vfshl h d a b) := rfl
theorem vfshr (h : SlotHdr) (d a b : BitVec 5) : Statement (.vfshr h d a b) := rfl
theorem vperm (h : SlotHdr) (d a b : BitVec 5) : Statement (.vperm h d a b) := rfl
theorem vpopc (h : SlotHdr) (nz : Bool) (d a : BitVec 5) : Statement (.vpopc h nz d a) := rfl
theorem vtopk (h : SlotHdr) (nz : Bool) (d a k : BitVec 5) : Statement (.vtopk h nz d a k) := rfl
theorem vqmov (h : SlotHdr) (dir : Bool) (v : BitVec 5) (q : BitVec 4) : Statement (.vqmov h dir v q) := rfl
theorem vadd (h : SlotHdr) (f : BitVec 4) (d a b : BitVec 5) : Statement (.vadd h f d a b) := rfl
theorem vsub (h : SlotHdr) (f : BitVec 4) (d a b : BitVec 5) : Statement (.vsub h f d a b) := rfl
theorem vmul (h : SlotHdr) (f : BitVec 4) (d a b : BitVec 5) : Statement (.vmul h f d a b) := rfl
theorem vfma (h : SlotHdr) (f : BitVec 4) (d a b : BitVec 5) : Statement (.vfma h f d a b) := rfl
theorem vdiv (h : SlotHdr) (f : BitVec 4) (d a b : BitVec 5) : Statement (.vdiv h f d a b) := rfl
theorem vmin (h : SlotHdr) (f : BitVec 4) (d a b : BitVec 5) : Statement (.vmin h f d a b) := rfl
theorem vmax (h : SlotHdr) (f : BitVec 4) (d a b : BitVec 5) : Statement (.vmax h f d a b) := rfl
theorem vabs (h : SlotHdr) (f : BitVec 4) (d a : BitVec 5) : Statement (.vabs h f d a) := rfl
theorem vneg (h : SlotHdr) (f : BitVec 4) (d a : BitVec 5) : Statement (.vneg h f d a) := rfl
theorem vsqrt (h : SlotHdr) (f : BitVec 4) (d a : BitVec 5) : Statement (.vsqrt h f d a) := rfl
theorem vcmp (h : SlotHdr) (f : BitVec 4) (cond k : BitVec 3) (a b : BitVec 5) : Statement (.vcmp h f cond k a b) := rfl
theorem vcvt (h : SlotHdr) (f : BitVec 4) (d a b : BitVec 5) : Statement (.vcvt h f d a b) := rfl
theorem vbcast (h : SlotHdr) (f : BitVec 4) (d a : BitVec 5) : Statement (.vbcast h f d a) := rfl
theorem vshl (h : SlotHdr) (f : BitVec 4) (d a b : BitVec 5) : Statement (.vshl h f d a b) := rfl
theorem vshr (h : SlotHdr) (f : BitVec 4) (d a b : BitVec 5) : Statement (.vshr h f d a b) := rfl
theorem vred (h : SlotHdr) (f : BitVec 4) (d a : BitVec 5) (op grp : BitVec 3) : Statement (.vred h f d a op grp) := rfl
theorem vscan (h : SlotHdr) (f : BitVec 4) (d a : BitVec 5) (op : BitVec 2) (excl : Bool) (grp : BitVec 3) : Statement (.vscan h f d a op excl grp) := rfl
theorem mloadb (h : SlotHdr) (f : BitVec 4) (r : BitVec 6) (src : MatSrc) : Statement (.mloadb h f r src) := rfl
theorem mpush (h : SlotHdr) (f : BitVec 4) (r : BitVec 6) (src : MatSrc) : Statement (.mpush h f r src) := rfl
theorem mpushSc (h : SlotHdr) (r : BitVec 6) (src : MatSrc) : Statement (.mpushSc h r src) := rfl
theorem mloadbWide (h : SlotHdr) (f : BitVec 2) (r : BitVec 6) (src : MatSrc) : Statement (.mloadbWide h f r src) := rfl
theorem mpushWide (h : SlotHdr) (f : BitVec 2) (r : BitVec 6) (src : MatSrc) : Statement (.mpushWide h f r src) := rfl
theorem macc (h : SlotHdr) (r : BitVec 6) (x pol allRows clr : Bool) : Statement (.macc h r x pol allRows clr) := rfl
theorem mdrain (h : SlotHdr) (f : BitVec 4) (dest : BitVec 5) (r : BitVec 6) (x : Bool) (p : BitVec 2) (toTile : Bool) : Statement (.mdrain h f dest r x p toTile) := rfl
theorem trin (h : SlotHdr) (f : BitVec 4) (v : BitVec 5) (p : BitVec 2) : Statement (.trin h f v p) := rfl
theorem trout (h : SlotHdr) (dest : BitVec 5) (p : BitVec 2) (toTile : Bool) : Statement (.trout h dest p toTile) := rfl
theorem trclr (h : SlotHdr) : Statement (.trclr h) := rfl
theorem stld (h : SlotHdr) (i : BitVec 4) (e : BitVec 8) : Statement (.stld h i e) := rfl
theorem stlda (h : SlotHdr) (a : BitVec 5) (half : Bool) : Statement (.stlda h a half) := rfl
theorem cfgset (h : SlotHdr) (flags : BitVec 5) (low : BitVec 4) : Statement (.cfgset h flags low) := rfl
theorem cfgclr (h : SlotHdr) (flags : BitVec 5) (low : BitVec 4) : Statement (.cfgclr h flags low) := rfl
theorem cfgrd (h : SlotHdr) (d : BitVec 5) : Statement (.cfgrd h d) := rfl
theorem margin (h : SlotHdr) (a : BitVec 5) : Statement (.margin h a) := rfl
theorem manchor (h : SlotHdr) (r : BitVec 6) (allRows x : Bool) (a : BitVec 5) : Statement (.manchor h r allRows x a) := rfl
theorem hbound (h : SlotHdr) (a : BitVec 5) : Statement (.hbound h a) := rfl
theorem tmark (h : SlotHdr) (r : BitVec 6) (x : Bool) (mode : BitVec 2) (mk : BitVec 3) : Statement (.tmark h r x mode mk) := rfl
theorem tclr (h : SlotHdr) : Statement (.tclr h) := rfl
theorem mset (h : SlotHdr) (mk : BitVec 3) (a : BitVec 5) : Statement (.mset h mk a) := rfl
theorem mand (h : SlotHdr) (md ma mb : BitVec 3) : Statement (.mand h md ma mb) := rfl
theorem mor (h : SlotHdr) (md ma mb : BitVec 3) : Statement (.mor h md ma mb) := rfl
theorem mnot (h : SlotHdr) (md ma : BitVec 3) : Statement (.mnot h md ma) := rfl
theorem mmova (h : SlotHdr) (d : BitVec 5) (mk : BitVec 3) : Statement (.mmova h d mk) := rfl
theorem retag (h : SlotHdr) (tile : Bool) (reg : BitVec 5) (tag : Tag) : Statement (.retag h tile reg tag) := rfl
theorem cld (h : SlotHdr) (f : BitVec 4) (v : BitVec 5) (hnd : BitVec 6) (row : BitVec 5) : Statement (.cld h f v hnd row) := rfl
theorem cst (h : SlotHdr) (v : BitVec 5) (hnd : BitVec 6) (row : BitVec 5) : Statement (.cst h v hnd row) := rfl
theorem cldU (h : SlotHdr) (f : BitVec 4) (v : BitVec 5) (hnd : BitVec 6) (x : Ext) : Statement (.cldU h f v hnd x) := rfl
theorem cstU (h : SlotHdr) (v : BitVec 5) (hnd : BitVec 6) (x : Ext) : Statement (.cstU h v hnd x) := rfl
theorem cstM (h : SlotHdr) (v : BitVec 5) (hnd : BitVec 6) (x : Ext) : Statement (.cstM h v hnd x) := rfl
theorem cldFar (h : SlotHdr) (f : BitVec 4) (v : BitVec 5) (hnd : BitVec 6) (x : Ext) : Statement (.cldFar h f v hnd x) := rfl
theorem catom (h : SlotHdr) (k : BitVec 4) (v : BitVec 5) (hnd : BitVec 6) (x : Ext) : Statement (.catom h k v hnd x) := rfl
theorem catomFar (h : SlotHdr) (k : BitVec 4) (v : BitVec 5) (hnd : BitVec 6) (x : Ext) : Statement (.catomFar h k v hnd x) := rfl
theorem swsend (h : SlotHdr) (d v : BitVec 5) (q : BitVec 2) (a : BitVec 4) : Statement (.swsend h d v q a) := rfl
theorem swrecv (h : SlotHdr) (d v : BitVec 5) (q : BitVec 2) (a : BitVec 4) : Statement (.swrecv h d v q a) := rfl
theorem swbcast (h : SlotHdr) (d v : BitVec 5) (q : BitVec 2) (cl : ClusterId) : Statement (.swbcast h d v q cl) := rfl
theorem kernelBundleIssue (c : CoreId) : Statement (.kernelBundleIssue c) := rfl
theorem secondaryFairnessIssue (c : CoreId) : Statement (.secondaryFairnessIssue c) := rfl
theorem bankRequestService (x : BankCheck) : Statement (.bankRequestService x) := rfl
theorem landingArrival (c : CoreId) (cl : ClusterId) : Statement (.landingArrival c cl) := rfl
theorem kernelEnd (c : CoreId) (pos : KPos) : Statement (.kernelEnd c pos) := rfl
theorem remoteAtomicMessage (c : CoreId) : Statement (.remoteAtomicMessage c) := rfl
theorem commandIssue (c : CoreId) (entry : BitVec 6) : Statement (.commandIssue c entry) := rfl
theorem engineElementAccess (c : CoreId) (entry : BitVec 6) : Statement (.engineElementAccess c entry) := rfl
theorem wellheadScatterAdd (c : CoreId) (entry : BitVec 6) : Statement (.wellheadScatterAdd c entry) := rfl
theorem commandCompletion (c : CoreId) (entry : BitVec 6) : Statement (.commandCompletion c entry) := rfl
theorem acqCommandTimeout (c : CoreId) : Statement (.acqCommandTimeout c) := rfl
theorem taskPickup (c : CoreId) : Statement (.taskPickup c) := rfl
theorem monitorReread (c : CoreId) (n : BitVec 6) : Statement (.monitorReread c n) := rfl
theorem sweepReread (c : CoreId) : Statement (.sweepReread c) := rfl
theorem userInterruptDelivery (c : CoreId) : Statement (.userInterruptDelivery c) := rfl
theorem asyncTrapTake (c : CoreId) : Statement (.asyncTrapTake c) := rfl
theorem childMerge (p : PartId) (child : Addr) : Statement (.childMerge p child) := rfl
theorem poisonedMerge (p : PartId) (child : Addr) : Statement (.poisonedMerge p child) := rfl
theorem launchAdmission (p : PartId) (prefer : List CoreId) : Statement (.launchAdmission p prefer) := rfl
theorem quantumEnd (p : PartId) (rec : Addr) (team : BitVec 32) (prefer : List CoreId) : Statement (.quantumEnd p rec team prefer) := rfl
theorem swapIn (p : PartId) (rec : Addr) (team : BitVec 32) (prefer : List CoreId) : Statement (.swapIn p rec team prefer) := rfl
theorem illegalInstruction (c : CoreId) (word : Word) : Statement (.illegalInstruction c word) := rfl
theorem fetchFault (c : CoreId) : Statement (.fetchFault c) := rfl
theorem xstoreStage (p : PartId) : Statement (.xstoreStage p) := rfl
theorem transactionDecision (p : PartId) (id : BitVec 32) : Statement (.transactionDecision p id) := rfl
theorem transactionApply (p : PartId) (id : BitVec 32) : Statement (.transactionApply p id) := rfl
theorem hostMemoryReply (r : HostReader) (bytes : List Byte) (failed : Bool) : Statement (.hostMemoryReply r bytes failed) := rfl
theorem swapOut (p : PartId) (rec : Addr) (team : BitVec 32) : Statement (.swapOut p rec team) := rfl
theorem codeObjectLoad (p : PartId) (obj base frames : Addr) (meetings : List Word) : Statement (.codeObjectLoad p obj base frames meetings) := rfl
theorem resultWriteback (c : CoreId) (pos : KPos) : Statement (.resultWriteback c pos) := rfl
theorem mpushContribution (c : CoreId) (pos : KPos) : Statement (.mpushContribution c pos) := rfl
theorem landingDelivery (c : CoreId) (pos : KPos) : Statement (.landingDelivery c pos) := rfl
theorem lockHoldEnd (c : CoreId) (pos : KPos) : Statement (.lockHoldEnd c pos) := rfl
theorem wellheadSlotService (d : DieId) (x : SlotCheck) : Statement (.wellheadSlotService d x) := rfl
theorem activationAlert (d : DieId) (wellhead : BitVec 7) (bank : BitVec 8) : Statement (.activationAlert d wellhead bank) := rfl
theorem scrubRead (d : DieId) (block : Nat) (found : ScrubFinding) : Statement (.scrubRead d block found) := rfl
theorem scrubPeriodEnd (d : DieId) : Statement (.scrubPeriodEnd d) := rfl
theorem guardbandStep (d : DieId) (up : Bool) (pathMargin : DWord) : Statement (.guardbandStep d up pathMargin) := rfl
theorem freezeTelemetryReport (c : CoreId) : Statement (.freezeTelemetryReport c) := rfl
theorem linkReplayReport (l : Link) : Statement (.linkReplayReport l) := rfl
theorem powerLimitFreeze (d : DieId) : Statement (.powerLimitFreeze d) := rfl
theorem thermalFreeze (d : DieId) : Statement (.thermalFreeze d) := rfl
theorem thermalStop (d : DieId) : Statement (.thermalStop d) := rfl
theorem registerEccError (c : CoreId) (x : EccError) : Statement (.registerEccError c x) := rfl
theorem readRequestFlit (f : Flit) : Statement (.readRequestFlit f) := rfl
theorem readDataFlit (f : Flit) : Statement (.readDataFlit f) := rfl
theorem writeFlit (f : Flit) : Statement (.writeFlit f) := rfl
theorem atomicMessageFlit (f : Flit) : Statement (.atomicMessageFlit f) := rfl
theorem flushMarkerFlit (f : Flit) : Statement (.flushMarkerFlit f) := rfl
theorem acknowledgeFlit (f : Flit) : Statement (.acknowledgeFlit f) := rfl
theorem replayRequestFlit (f : Flit) : Statement (.replayRequestFlit f) := rfl
theorem flushMarkerGather (d : DieId) : Statement (.flushMarkerGather d) := rfl
theorem fabricPacketReceive (k : Packet) : Statement (.fabricPacketReceive k) := rfl
theorem packetRetransmit (peer : BitVec 16) (path : BitVec 4) (seq : BitVec 32) : Statement (.packetRetransmit peer path seq) := rfl
theorem transactionTimeout (p : PartId) (id : BitVec 32) : Statement (.transactionTimeout p id) := rfl
theorem decisionQuery (p : PartId) (id : BitVec 32) : Statement (.decisionQuery p id) := rfl
theorem hostMemoryRead (off : DWord) (len : Nat) : Statement (.hostMemoryRead off len) := rfl
theorem hostMemoryWrite (off : DWord) (bytes : List Byte) : Statement (.hostMemoryWrite off bytes) := rfl
theorem hostDoorbell (p : PartId) (va : DWord) : Statement (.hostDoorbell p va) := rfl
theorem hostIstatClear (v : DWord) : Statement (.hostIstatClear v) := rfl
theorem hostReset : Statement .hostReset := rfl
theorem powerOn : Statement .powerOn := rfl
theorem recoveryImageCommit : Statement .recoveryImageCommit := rfl
theorem attestationRequest : Statement .attestationRequest := rfl
theorem hostPmapWrite (n : BitVec 5) (v : DWord) : Statement (.hostPmapWrite n v) := rfl
theorem kstatFlagClear (c : CoreId) (v : DWord) : Statement (.kstatFlagClear c v) := rfl
theorem cerrClear (c : CoreId) (v : DWord) : Statement (.cerrClear c v) := rfl
theorem uctlWrite (c : CoreId) (v : DWord) : Statement (.uctlWrite c v) := rfl
theorem kbWrite (c : CoreId) (n : BitVec 2) (v : DWord) : Statement (.kbWrite c n v) := rfl
theorem pmapWrite (c : CoreId) (n : BitVec 5) (v : DWord) : Statement (.pmapWrite c n v) := rfl
theorem tlbInvalidate (c : CoreId) (v : DWord) : Statement (.tlbInvalidate c v) := rfl
theorem snapStart (c : CoreId) (v : DWord) : Statement (.snapStart c v) := rfl
theorem poolWrite (c : CoreId) (v : DWord) : Statement (.poolWrite c v) := rfl
theorem cgroupWrite (c : CoreId) (v : DWord) : Statement (.cgroupWrite c v) := rfl
theorem refctlWrite (c : CoreId) (v : DWord) : Statement (.refctlWrite c v) := rfl
theorem resumeEngineCommand (c : CoreId) (v : DWord) : Statement (.resumeEngineCommand c v) := rfl
theorem resumeMerge (c : CoreId) (v : DWord) : Statement (.resumeMerge c v) := rfl
theorem resumeKernelEngine (c : CoreId) (v : DWord) : Statement (.resumeKernelEngine c v) := rfl
theorem retryTeamSave (c : CoreId) (v : DWord) : Statement (.retryTeamSave c v) := rfl
theorem releaseHaltedTeam (c : CoreId) (v : DWord) : Statement (.releaseHaltedTeam c v) := rfl
theorem registerWrite (c : CoreId) (n : BitVec 12) (v : DWord) : Statement (.registerWrite c n v) := rfl
theorem flitCrcFailure (l : Link) (seq : BitVec 24) : Statement (.flitCrcFailure l seq) := rfl

end Sys2Proof.Laws.Encoding
end

