-- ==== Sys2Proof/Tests/Slice0.lean ====
section
/-! SUPPORT. The model's own tests: one word or bundle for each instruction with an encoding, written out from the field tables of
chapters 04, 06, 07 and 08 and from the spec's worked examples; a term that each check of well-formedness refuses; and for every
statement with hypotheses a concrete state and operands that meet them, clause by clause. -/

namespace Sys2Proof.Tests

open Sys2Proof Sys2Proof.Machine

set_option Elab.async false

/-! ### Decoding -/

/-- Register forms of major 0x00 (R80, R83). -/
theorem test_decode_register :
    decode 0x0229B000 0 0 0 = .ok (.add 17 9 22) ∧
    decode 0x0229B001 0 0 0 = .ok (.sub 17 9 22) ∧
    decode 0x0229B002 0 0 0 = .ok (.and 17 9 22) ∧
    decode 0x0229B003 0 0 0 = .ok (.or 17 9 22) ∧
    decode 0x0229B004 0 0 0 = .ok (.xor 17 9 22) ∧
    decode 0x0229B008 0 0 0 = .ok (.sll 17 9 22) ∧
    decode 0x0229B009 0 0 0 = .ok (.srl 17 9 22) ∧
    decode 0x0229B00A 0 0 0 = .ok (.sra 17 9 22) ∧
    decode 0x0229B010 0 0 0 = .ok (.slt 17 9 22) ∧
    decode 0x0229B011 0 0 0 = .ok (.sltu 17 9 22) ∧
    decode 0x0229B012 0 0 0 = .ok (.min 17 9 22) ∧
    decode 0x0229B013 0 0 0 = .ok (.max 17 9 22) := by
  decide +kernel

/-- Register forms of major 0x00 (R80, R83). -/
theorem test_decode_register_more :
    decode 0x0229B014 0 0 0 = .ok (.minu 17 9 22) ∧
    decode 0x0229B015 0 0 0 = .ok (.maxu 17 9 22) ∧
    decode 0x0229B020 0 0 0 = .ok (.mul 17 9 22) ∧
    decode 0x0229B021 0 0 0 = .ok (.mulh 17 9 22) ∧
    decode 0x0229B022 0 0 0 = .ok (.mulhu 17 9 22) ∧
    decode 0x0229B024 0 0 0 = .ok (.div 17 9 22) ∧
    decode 0x0229B025 0 0 0 = .ok (.divu 17 9 22) ∧
    decode 0x0229B026 0 0 0 = .ok (.rem 17 9 22) ∧
    decode 0x0229B027 0 0 0 = .ok (.remu 17 9 22) ∧
    decode 0x02290018 0 0 0 = .ok (.sextB 17 9) ∧
    decode 0x02290019 0 0 0 = .ok (.sextH 17 9) ∧
    decode 0x0229001A 0 0 0 = .ok (.sextW 17 9) := by
  decide +kernel

/-- I forms (R80, R82). -/
theorem test_decode_immediate :
    decode 0x06298005 0 0 0 = .ok (.addi 17 9 0x8005) ∧
    decode 0x0A298005 0 0 0 = .ok (.andi 17 9 0x8005) ∧
    decode 0x0E298005 0 0 0 = .ok (.ori 17 9 0x8005) ∧
    decode 0x12298005 0 0 0 = .ok (.xori 17 9 0x8005) ∧
    decode 0x16298005 0 0 0 = .ok (.slti 17 9 0x8005) ∧
    decode 0x1A298005 0 0 0 = .ok (.sltiu 17 9 0x8005) ∧
    decode 0x2E298005 0 0 0 = .ok (.shori 17 9 0x8005) ∧
    decode 0x7E298005 0 0 0 = .ok (.jalr 17 9 0x8005) ∧
    decode 0x1E290021 0 0 0 = .ok (.slli 17 9 33) ∧
    decode 0x22290021 0 0 0 = .ok (.srli 17 9 33) ∧
    decode 0x26290021 0 0 0 = .ok (.srai 17 9 33) ∧
    decode 0x2A208005 0 0 0 = .ok (.lui 17 0x8005) := by
  decide +kernel

/-- M forms (R80, R82). -/
theorem test_decode_memory :
    decode 0x4229D801 0 0 0 = .ok (.ldB 17 9 13 0x801) ∧
    decode 0x4629D801 0 0 0 = .ok (.ldH 17 9 13 0x801) ∧
    decode 0x4A29D801 0 0 0 = .ok (.ldW 17 9 13 0x801) ∧
    decode 0x4E29D801 0 0 0 = .ok (.ldD 17 9 13 0x801) ∧
    decode 0x5229D801 0 0 0 = .ok (.stB 17 9 13 0x801) ∧
    decode 0x5629D801 0 0 0 = .ok (.stH 17 9 13 0x801) ∧
    decode 0x5A29D801 0 0 0 = .ok (.stW 17 9 13 0x801) ∧
    decode 0x5E29D801 0 0 0 = .ok (.stD 17 9 13 0x801) := by
  decide +kernel

/-- Branches and JAL (R80, R82). -/
theorem test_decode_branch :
    decode 0x62298005 0 0 0 = .ok (.beq 17 9 0x8005) ∧
    decode 0x66298005 0 0 0 = .ok (.bne 17 9 0x8005) ∧
    decode 0x6A298005 0 0 0 = .ok (.blt 17 9 0x8005) ∧
    decode 0x6E298005 0 0 0 = .ok (.bge 17 9 0x8005) ∧
    decode 0x72298005 0 0 0 = .ok (.bltu 17 9 0x8005) ∧
    decode 0x76298005 0 0 0 = .ok (.bgeu 17 9 0x8005) ∧
    decode 0x7A000001 0 0 0 = .ok (.jal 0x2000001) := by
  decide +kernel

/-- Tasks and views (R82, R216, R217, R221). -/
theorem test_decode_task :
    decode 0x80000000 0 0 0 = .ok (.exit) ∧
    decode 0x80000001 0 0 0 = .ok (.yield) ∧
    decode 0x84A63800 0 0 0 = .ok (.spawn 5 6 7) ∧
    decode 0x89000000 0 0 0 = .ok (.sync 8) ∧
    decode 0x8C821801 0 0 0 = .ok (.view 1 4 2 3) ∧
    decode 0x8E29B00F 0 0 0 = .ok (.viewDrop 17 9 22) := by
  decide +kernel

/-- The synchronising majors (R82, R84, R85, R298). -/
theorem test_decode_sync :
    decode 0x9229B0BE 0 0 0 = .ok (.meet ⟨11, 3, 2⟩ 17 9 22) ∧
    decode 0x9629B000 0 0 0 = .ok (.minit 17 9 22) ∧
    decode 0x96290200 0 0 0 = .ok (.mread 17 9) ∧
    decode 0x96290400 0 0 0 = .ok (.mfree 17 9) ∧
    decode 0x98063804 0 0 0 = .ok (.waitge ⟨0, 1, 0⟩ 6 7) ∧
    decode 0x9E29B2B7 0 0 0 = .ok (.waitaddr 2 ⟨11, 1, 3⟩ 17 9 22) ∧
    decode 0x9C090400 0 0 0 = .ok (.wake 9) ∧
    decode 0xA2290000 0 0 0 = .ok (.qpop 17 9) ∧
    decode 0xA2290200 0 0 0 = .ok (.qpopNb 17 9) ∧
    decode 0xA229B400 0 0 0 = .ok (.qpush 17 9 22) ∧
    decode 0xA2290600 0 0 0 = .ok (.qclose 17 9) := by
  decide +kernel

/-- The synchronising majors (R82, R84, R85, R298). -/
theorem test_decode_sync_more :
    decode 0xA6290000 0 0 0 = .ok (.launch 17 9) ∧
    decode 0xA8200006 0 0 0 = .ok (.fence 1 6) ∧
    decode 0xAE290000 0 0 0 = .ok (.xbegin 17 9) ∧
    decode 0xAE29B202 0 0 0 = .ok (.xstore 2 17 9 22) ∧
    decode 0xAE200400 0 0 0 = .ok (.xcommit 17) ∧
    decode 0xAE200600 0 0 0 = .ok (.xabort 17) ∧
    decode 0xB229B7B9 0 0 0 = .ok (.amoW 7 ⟨11, 2, 1⟩ 17 9 22) ∧
    decode 0xB629B4B6 0 0 0 = .ok (.amoD 4 ⟨11, 1, 2⟩ 17 9 22) ∧
    decode 0xBA2902B3 0 0 0 = .ok (.ldAcq 2 11 3 17 9) ∧
    decode 0xB809B5B2 0 0 0 = .ok (.stRel 1 11 2 9 22) := by
  decide +kernel

/-- System instructions (R82, R125, R337). -/
theorem test_decode_system :
    decode 0xC2291815 0 0 0 = .ok (.csrw 17 9 0x815) ∧
    decode 0xC2292815 0 0 0 = .ok (.csrs 17 9 0x815) ∧
    decode 0xC2293815 0 0 0 = .ok (.csrc 17 9 0x815) ∧
    decode 0xC2200815 0 0 0 = .ok (.csrr 17 0x815) ∧
    decode 0xC400BEEF 0 0 0 = .ok (.trap 0xBEEF) ∧
    decode 0xC8000000 0 0 0 = .ok (.sysret) ∧
    decode 0xCC000000 0 0 0 = .ok (.uiret) ∧
    decode 0xD229B000 0 0 0 = .ok (.snapsave 17 9 22) ∧
    decode 0xD229B001 0 0 0 = .ok (.snapload 17 9 22) ∧
    decode 0xD4000000 0 0 0 = .ok (.brk) ∧
    decode 0xD6290001 0 0 0 = .ok (.dbrd 17 9) ∧
    decode 0xD409B002 0 0 0 = .ok (.dbwr 9 22) ∧
    decode 0xD8090000 0 0 0 = .ok (.untag 9) := by
  decide +kernel

/-- Stream commands (R87 to R93), every common field in use; KERNEL is the worked example of R93. -/
theorem test_decode_commands :
    decode 0xF815B400 0x07020901 0xA4000010 0xA8004003 =
      .ok (.shape ⟨5, 2, true, true, 1, 7, 2, 9, 1⟩ 0xA4000010 21 0x4003) ∧
    decode 0xF825A400 0x07020901 0x86D06000 0xBB900000 =
      .ok (.salloc ⟨5, 2, true, false, 1, 7, 2, 9, 1⟩ 33 90 6 1500 2048) ∧
    decode 0xF835A400 0x07020901 0x84000000 0x00000000 =
      .ok (.sfree ⟨5, 2, true, false, 1, 7, 2, 9, 1⟩ 33) ∧
    decode 0xF845B630 0x07020901 0xA4000010 0x86A04003 =
      .ok (.sload ⟨5, 2, true, true, 1, 7, 2, 9, 1⟩ 2 6 false 0xA4000010 33 21 0x4003) ∧
    decode 0xF855B464 0x07020901 0xA4000010 0x86A04003 =
      .ok (.sstore ⟨5, 2, true, true, 1, 7, 2, 9, 1⟩ 12 true 0xA4000010 33 21 0x4003) ∧
    decode 0xF865B440 0x07020901 0xA4000010 0x86B64003 =
      .ok (.sgather ⟨5, 2, true, true, 1, 7, 2, 9, 1⟩ 8 0xA4000010 33 21 44 0x4003) ∧
    decode 0xF875B440 0x07020901 0xA4000010 0x86B64003 =
      .ok (.sscatter ⟨5, 2, true, true, 1, 7, 2, 9, 1⟩ 8 0xA4000010 33 21 44 0x4003) ∧
    decode 0xF885B46A 0x07020901 0xA4000010 0x86B64003 =
      .ok (.sscadd ⟨5, 2, true, true, 1, 7, 2, 9, 1⟩ 13 2 0xA4000010 33 21 44 0x4003) ∧
    decode 0xF895A415 0x07020901 0xA4000010 0x00123456 =
      .ok (.scopy ⟨5, 2, true, false, 1, 7, 2, 9, 1⟩ 21 0xA4000010 0x123456) ∧
    decode 0xF8A5B423 0x07020901 0x86CAC003 0xDC000000 =
      .ok (.scan ⟨5, 2, true, true, 1, 7, 2, 9, 1⟩ 4 true true 33 44 21 55 0x4003) ∧
    decode 0xF8B00000 0x01020201 0x00510000 0x04200032 =
      .ok (.kernel ⟨0, 0, false, false, 0, 1, 2, 2, 1⟩ 5 2 1 2 0 0 3 2 0) ∧
    decode 0xF8C5B400 0x07020901 0xABC04003 0xA4000010 =
      .ok (.kswap ⟨5, 2, true, true, 1, 7, 2, 9, 1⟩ 0xABC 0xA4000010 0x4003) ∧
    decode 0xF8D5B400 0x07020901 0xA4000010 0x05ACC003 =
      .ok (.collAllred ⟨5, 2, true, true, 1, 7, 2, 9, 1⟩ 0xA4000010 5 21 9 0x4003) ∧
    decode 0xF8D5B400 0x07020901 0xA4000010 0x15ACC003 =
      .ok (.collRedsc ⟨5, 2, true, true, 1, 7, 2, 9, 1⟩ 0xA4000010 5 21 9 0x4003) ∧
    decode 0xF8D5B400 0x07020901 0xA4000010 0x25ACC003 =
      .ok (.collAllgat ⟨5, 2, true, true, 1, 7, 2, 9, 1⟩ 0xA4000010 5 21 9 0x4003) ∧
    decode 0xF8D5B400 0x07020901 0xA4000010 0x35ACC003 =
      .ok (.collBcast ⟨5, 2, true, true, 1, 7, 2, 9, 1⟩ 0xA4000010 5 21 9 0x4003) ∧
    decode 0xF8E5B400 0x07020901 0x00004003 0x00000000 =
      .ok (.smark ⟨5, 2, true, true, 1, 7, 2, 9, 1⟩ 0x4003) := by
  decide +kernel

/-- Slot A and the empty operation (R96, R133; CMP and CMPI as in R140, LOOPI.SW as in R138). -/
theorem test_decode_control :
    decodeBundle 0x0100000000000000000000000000000000000000000000000000000000000000 =
      .ok [.slotNop ⟨.H, 0, none⟩] ∧
    decodeBundle 0x800000005010ABC0000000000000000000000000000000000000000000000000 =
      .ok [.br ⟨.A, 5, none⟩ 0xABC] ∧
    decodeBundle 0x8000000050269BE0000000000000000000000000000000000000000000000000 =
      .ok [.loop ⟨.A, 5, none⟩ 3 9 true 62] ∧
    decodeBundle 0x80000000503B9070000000000000000000000000000000000000000000000000 =
      .ok [.loopi ⟨.A, 5, none⟩ 5 100 7] ∧
    decodeBundle 0x80000000504696D0000000000000000000000000000000000000000000000000 =
      .ok [.loopSw ⟨.A, 5, none⟩ 3 9 false 6 13] ∧
    decodeBundle 0x8000000000501200000000000000000000000000000000000000000000000000 =
      .ok [.loopiSw ⟨.A, 0, none⟩ 0 2 2 0] ∧
    decodeBundle 0x8000000050872B00000000000000000000000000000000000000000000000000 =
      .ok [.pand ⟨.A, 5, none⟩ 7 2 11] ∧
    decodeBundle 0x8000000050972B00000000000000000000000000000000000000000000000000 =
      .ok [.por ⟨.A, 5, none⟩ 7 2 11] ∧
    decodeBundle 0x8000000050A72B00000000000000000000000000000000000000000000000000 =
      .ok [.pxor ⟨.A, 5, none⟩ 7 2 11] ∧
    decodeBundle 0x8000000050B72B00000000000000000000000000000000000000000000000000 =
      .ok [.pandn ⟨.A, 5, none⟩ 7 2 11] ∧
    decodeBundle 0x8000000001243380000000000000000000000000000000000000000000000000 =
      .ok [.cmp ⟨.A, 0, none⟩ 2 2 3 7] ∧
    decodeBundle 0x4000000000000000192500000000000000000000000000000000000000000000 =
      .ok [.cmpi ⟨.B, 0, none⟩ 1 1 5 (.short 0)] ∧
    decodeBundle 0x80000000528000B0000000000000000000000000000000000000000000000000 =
      .ok [.lwait ⟨.A, 5, none⟩ 11] ∧
    decodeBundle 0x800000005309B000000000000000000000000000000000000000000000000000 =
      .ok [.lock ⟨.A, 5, none⟩ 9 22] ∧
    decodeBundle 0x80000000538BEEF0000000000000000000000000000000000000000000000000 =
      .ok [.ktrap ⟨.A, 5, none⟩ 0xBEEF] ∧
    decodeBundle 0x8000000053900000000000000000000000000000000000000000000000000000 =
      .ok [.halt ⟨.A, 5, none⟩] := by
  decide +kernel

/-- Slot B (R97, R100, R133, R146), two with long immediates (R18), one with an arrival (R17). -/
theorem test_decode_scalar :
    decodeBundle 0x400000000000000520889C000000000000000000000000000000000000000000 =
      .ok [.movi ⟨.B, 5, none⟩ 17 (.short 0x9C)] ∧
    decodeBundle 0x4000000000000005218A40000000000000000000000000000000000000000000 =
      .ok [.sMov ⟨.B, 5, none⟩ 17 9] ∧
    decodeBundle 0x4000408000000005228A6C000000000000000000000000000000000000000000 =
      .ok [.sAdd ⟨.B, 5, some 2⟩ 17 9 22] ∧
    decodeBundle 0x4000000000000005238A6C000000000000000000000000000000000000000000 =
      .ok [.sSub ⟨.B, 5, none⟩ 17 9 22] ∧
    decodeBundle 0x4000000000000005248A6C000000000000000000000000000000000000000000 =
      .ok [.sAnd ⟨.B, 5, none⟩ 17 9 22] ∧
    decodeBundle 0x4000000000000005258A6C000000000000000000000000000000000000000000 =
      .ok [.sOr ⟨.B, 5, none⟩ 17 9 22] ∧
    decodeBundle 0x4000000000000005268A6C000000000000000000000000000000000000000000 =
      .ok [.sXor ⟨.B, 5, none⟩ 17 9 22] ∧
    decodeBundle 0x4000000000000005278A6C000000000000000000000000000000000000000000 =
      .ok [.sSll ⟨.B, 5, none⟩ 17 9 22] ∧
    decodeBundle 0x4000000000000005288A6C000000000000000000000000000000000000000000 =
      .ok [.sSrl ⟨.B, 5, none⟩ 17 9 22] ∧
    decodeBundle 0x4000000000000005298A6C000000000000000000000000000000000000000000 =
      .ok [.sSra ⟨.B, 5, none⟩ 17 9 22] ∧
    decodeBundle 0x40000000000000052A8A6C000000000000000000000000000000000000000000 =
      .ok [.sMul ⟨.B, 5, none⟩ 17 9 22] ∧
    decodeBundle 0x40000000000000052B8A6C000000000000000000000000000000000000000000 =
      .ok [.sMulh ⟨.B, 5, none⟩ 17 9 22] ∧
    decodeBundle 0x40000000000000052C8A6C000000000000000000000000000000000000000000 =
      .ok [.sMin ⟨.B, 5, none⟩ 17 9 22] := by
  decide +kernel

/-- Slot B (R97, R100, R133, R146), two with long immediates (R18), one with an arrival (R17). -/
theorem test_decode_scalar_more :
    decodeBundle 0x40000000000000052D8A6C000000000000000000000000000000000000000000 =
      .ok [.sMax ⟨.B, 5, none⟩ 17 9 22] ∧
    decodeBundle 0x40000000000000052E8A6C000000000000000000000000000000000000000000 =
      .ok [.sMinu ⟨.B, 5, none⟩ 17 9 22] ∧
    decodeBundle 0x40000000000000052F8A6C000000000000000000000000000000000000000000 =
      .ok [.sMaxu ⟨.B, 5, none⟩ 17 9 22] ∧
    decodeBundle 0x6020000000000005308885ABCDEF100000000000000000000000000000000000 =
      .ok [.sAddi ⟨.B, 5, none⟩ 17 (.long36 0xABCDEF185)] ∧
    decodeBundle 0x7030000000000005318885ABCDEF112345670000000000000000000000000000 =
      .ok [.sAndi ⟨.B, 5, none⟩ 17 (.long64 0x1234567ABCDEF185)] ∧
    decodeBundle 0x4000000000000005328885000000000000000000000000000000000000000000 =
      .ok [.sOri ⟨.B, 5, none⟩ 17 (.short 0x85)] ∧
    decodeBundle 0x400000000000000533887F000000000000000000000000000000000000000000 =
      .ok [.sXori ⟨.B, 5, none⟩ 17 (.short 0x7F)] ∧
    decodeBundle 0x4000000000000005348821000000000000000000000000000000000000000000 =
      .ok [.sSlli ⟨.B, 5, none⟩ 17 33] ∧
    decodeBundle 0x4000000000000005358821000000000000000000000000000000000000000000 =
      .ok [.sSrli ⟨.B, 5, none⟩ 17 33] ∧
    decodeBundle 0x4000000000000005368821000000000000000000000000000000000000000000 =
      .ok [.sSrai ⟨.B, 5, none⟩ 17 33] ∧
    decodeBundle 0x4000000000000005388D00000000000000000000000000000000000000000000 =
      .ok [.rdlc ⟨.B, 5, none⟩ 17 5] ∧
    decodeBundle 0x4000000000000005398B00000000000000000000000000000000000000000000 =
      .ok [.wfield ⟨.B, 5, none⟩ 17 3] := by
  decide +kernel

/-- Slots C and D (R97, R101, R133; VFMA as in R151). -/
theorem test_decode_vector :
    decodeBundle 0x20000000000000000000005028A6C00000000000000000000000000000000000 =
      .ok [.vsel ⟨.C, 5, none⟩ 17 9 22] ∧
    decodeBundle 0x20000000000000000000005038A6C00000000000000000000000000000000000 =
      .ok [.vand ⟨.C, 5, none⟩ 17 9 22] ∧
    decodeBundle 0x20000000000000000000005048A6C00000000000000000000000000000000000 =
      .ok [.vor ⟨.C, 5, none⟩ 17 9 22] ∧
    decodeBundle 0x20000000000000000000005058A6C00000000000000000000000000000000000 =
      .ok [.vxor ⟨.C, 5, none⟩ 17 9 22] ∧
    decodeBundle 0x20000000000000000000005078A6C00000000000000000000000000000000000 =
      .ok [.vfshl ⟨.C, 5, none⟩ 17 9 22] ∧
    decodeBundle 0x20000000000000000000005088A6C00000000000000000000000000000000000 =
      .ok [.vfshr ⟨.C, 5, none⟩ 17 9 22] ∧
    decodeBundle 0x20000000000000000000005098A6C00000000000000000000000000000000000 =
      .ok [.vperm ⟨.C, 5, none⟩ 17 9 22] ∧
    decodeBundle 0x100010C00000000000000000000005018A400000000000000000000000000000 =
      .ok [.vmov ⟨.D, 5, some 3⟩ 17 9] ∧
    decodeBundle 0x20000000000000000000005068A4000000000000000000000000000000000000 =
      .ok [.vnot ⟨.C, 5, none⟩ 17 9] ∧
    decodeBundle 0x1000000000000000000000000000050A8A410000000000000000000000000000 =
      .ok [.vpopc ⟨.D, 5, none⟩ true 17 9] ∧
    decodeBundle 0x1000000000000000000000000000050B826D0000000000000000000000000000 =
      .ok [.vtopk ⟨.D, 5, none⟩ true 16 9 22] ∧
    decodeBundle 0x200000000000000000000050C8B4000000000000000000000000000000000000 =
      .ok [.vqmov ⟨.C, 5, none⟩ true 17 6] ∧
    decodeBundle 0x20000000000000000000005188A6C00000000000000000000000000000000000 =
      .ok [.vadd ⟨.C, 5, none⟩ 8 17 9 22] ∧
    decodeBundle 0x20000000000000000000005288A6C00000000000000000000000000000000000 =
      .ok [.vsub ⟨.C, 5, none⟩ 8 17 9 22] ∧
    decodeBundle 0x20000000000000000000005388A6C00000000000000000000000000000000000 =
      .ok [.vmul ⟨.C, 5, none⟩ 8 17 9 22] := by
  decide +kernel

/-- Slots C and D (R97, R101, R133; VFMA as in R151). -/
theorem test_decode_vector_more :
    decodeBundle 0x20000000000000000000005588A6C00000000000000000000000000000000000 =
      .ok [.vmin ⟨.C, 5, none⟩ 8 17 9 22] ∧
    decodeBundle 0x20000000000000000000005688A6C00000000000000000000000000000000000 =
      .ok [.vmax ⟨.C, 5, none⟩ 8 17 9 22] ∧
    decodeBundle 0x1000000000000000000000000000051D822C0000000000000000000000000000 =
      .ok [.vadd ⟨.D, 5, none⟩ 13 16 8 22] ∧
    decodeBundle 0x2000000000000000000000248184400000000000000000000000000000000000 =
      .ok [.vfma ⟨.C, 2, none⟩ 8 3 1 2] ∧
    decodeBundle 0x100000000000000000000000000005A9822C0000000000000000000000000000 =
      .ok [.vdiv ⟨.D, 5, none⟩ 9 16 8 22] ∧
    decodeBundle 0x20000000000000000000005B68A4000000000000000000000000000000000000 =
      .ok [.vabs ⟨.C, 5, none⟩ 6 17 9] ∧
    decodeBundle 0x20000000000000000000005B68A4200000000000000000000000000000000000 =
      .ok [.vneg ⟨.C, 5, none⟩ 6 17 9] ∧
    decodeBundle 0x20000000000000000000005B68A4400000000000000000000000000000000000 =
      .ok [.vsqrt ⟨.C, 5, none⟩ 6 17 9] ∧
    decodeBundle 0x200000000000000000000007849B400000000000000000000000000000000000 =
      .ok [.vcmp ⟨.C, 0, none⟩ 8 4 2 9 22] ∧
    decodeBundle 0x1000000000000000000000000000058C8A6C0000000000000000000000000000 =
      .ok [.vcvt ⟨.D, 5, none⟩ 12 17 9 22] ∧
    decodeBundle 0x200000000000000000000059F8A4000000000000000000000000000000000000 =
      .ok [.vbcast ⟨.C, 5, none⟩ 15 17 9] ∧
    decodeBundle 0x20000000000000000000005C48A6C00000000000000000000000000000000000 =
      .ok [.vshl ⟨.C, 5, none⟩ 4 17 9 22] ∧
    decodeBundle 0x20000000000000000000005DF8A6C00000000000000000000000000000000000 =
      .ok [.vshr ⟨.C, 5, none⟩ 15 17 9 22] ∧
    decodeBundle 0x20000000000000000000005E48A6600000000000000000000000000000000000 =
      .ok [.vred ⟨.C, 5, none⟩ 4 17 9 4 6] ∧
    decodeBundle 0x100000000000000000000000000005F88A6D0000000000000000000000000000 =
      .ok [.vscan ⟨.D, 5, none⟩ 8 17 9 2 true 5] := by
  decide +kernel

/-- Slots E and F (R102, R175, R184, R185, R439; one MDRAIN as in R183). -/
theorem test_decode_matrix :
    decodeBundle 0x08000000000000000000000000000000000051C85A5000000000000000000000 =
      .ok [.mloadb ⟨.E, 5, none⟩ 12 33 ⟨1, true, 0x25⟩] ∧
    decodeBundle 0x0800000000000000000000000000000000005218628000000000000000000000 =
      .ok [.mpush ⟨.E, 5, none⟩ 1 33 ⟨2, false, 0x28⟩] ∧
    decodeBundle 0x08000000000000000000000000000000000053084D0000000000000000000000 =
      .ok [.mpushSc ⟨.E, 5, none⟩ 33 ⟨0, true, 0x50⟩] ∧
    decodeBundle 0x0800000000000000000000000000000000005638700000000000000000000000 =
      .ok [.mloadbWide ⟨.E, 5, none⟩ 3 33 ⟨3, false, 0⟩] ∧
    decodeBundle 0x0800000000000000000000000000000000005728527000000000000000000000 =
      .ok [.mpushWide ⟨.E, 5, none⟩ 2 33 ⟨1, false, 0x27⟩] ∧
    decodeBundle 0x08000000000000000000000000000000000054086C0000000000000000000000 =
      .ok [.macc ⟨.E, 5, none⟩ 33 true false true true] ∧
    decodeBundle 0x0800000000000000000000000000000000000584010000000000000000000000 =
      .ok [.mdrain ⟨.E, 0, none⟩ 8 8 0 true 0 false] ∧
    decodeBundle 0x0800000000000000000000000000000000005562C26000000000000000000000 =
      .ok [.mdrain ⟨.E, 5, none⟩ 6 5 33 false 1 true] ∧
    decodeBundle 0x04000000000000000000000000000000000000000005118E0000000000000000 =
      .ok [.trin ⟨.F, 5, none⟩ 1 17 3] ∧
    decodeBundle 0x04000000000000000000000000000000000000000005202D0000000000000000 =
      .ok [.trout ⟨.F, 5, none⟩ 5 2 true] ∧
    decodeBundle 0x0400000000000000000000000000000000000000000530000000000000000000 =
      .ok [.trclr ⟨.F, 5, none⟩] := by
  decide +kernel

/-- Slot H (R102, R187; HBOUND and TMARK as in R193 and R194). -/
theorem test_decode_config :
    decodeBundle 0x010000000000000000000000000000000000000000000000000000000501B085 =
      .ok [.stld ⟨.H, 5, none⟩ 11 0x85] ∧
    decodeBundle 0x0100000000000000000000000000000000000000000000000000000005028C00 =
      .ok [.stlda ⟨.H, 5, none⟩ 17 true] ∧
    decodeBundle 0x0100000000000000000000000000000000000000000000000000000005081309 =
      .ok [.cfgset ⟨.H, 5, none⟩ 19 9] ∧
    decodeBundle 0x0100000000000000000000000000000000000000000000000000000005091309 =
      .ok [.cfgclr ⟨.H, 5, none⟩ 19 9] ∧
    decodeBundle 0x01000000000000000000000000000000000000000000000000000000050A8800 =
      .ok [.cfgrd ⟨.H, 5, none⟩ 17] ∧
    decodeBundle 0x01000000000000000000000000000000000000000000000000000000050B8800 =
      .ok [.margin ⟨.H, 5, none⟩ 17] ∧
    decodeBundle 0x01000000000000000000000000000000000000000000000000000000051086B0 =
      .ok [.manchor ⟨.H, 5, none⟩ 33 true false 22] ∧
    decodeBundle 0x0100000000000000000000000000000000000000000000000000000000184800 =
      .ok [.hbound ⟨.H, 0, none⟩ 9] ∧
    decodeBundle 0x0100000000000000000000000000000000000000000000000000000000190390 =
      .ok [.tmark ⟨.H, 0, none⟩ 0 true 3 1] ∧
    decodeBundle 0x01000000000000000000000000000000000000000000000000000000051A0000 =
      .ok [.tclr ⟨.H, 5, none⟩] ∧
    decodeBundle 0x010000000000000000000000000000000000000000000000000000000520B600 =
      .ok [.mset ⟨.H, 5, none⟩ 5 22] ∧
    decodeBundle 0x010000000000000000000000000000000000000000000000000000000521AB80 =
      .ok [.mand ⟨.H, 5, none⟩ 5 2 7] ∧
    decodeBundle 0x010000000000000000000000000000000000000000000000000000000522AB80 =
      .ok [.mor ⟨.H, 5, none⟩ 5 2 7] ∧
    decodeBundle 0x010000000000000000000000000000000000000000000000000000000523A800 =
      .ok [.mnot ⟨.H, 5, none⟩ 5 2] ∧
    decodeBundle 0x0100000000000000000000000000000000000000000000000000000005248D00 =
      .ok [.mmova ⟨.H, 5, none⟩ 17 5] ∧
    decodeBundle 0x0100000000000000000000000000000000000000000000000000000005289980 =
      .ok [.retag ⟨.H, 5, none⟩ true 6 12] := by
  decide +kernel

/-- Slot G (R98, R103, R133, R200; CLD.FAR as in R167, SWSEND as in R201). -/
theorem test_decode_cistern :
    decodeBundle 0x020000000000000000000000000000000000000000000000005188C3A0000000 =
      .ok [.cld ⟨.G, 5, none⟩ 8 17 33 0x1A] ∧
    decodeBundle 0x020000000000000000000000000000000000000000000000005308C2A0000000 =
      .ok [.cst ⟨.G, 5, none⟩ 17 33 0x0A] ∧
    decodeBundle 0x0301000000000000000000000000000000000000000000000054D84207FF003F =
      .ok [.cldU ⟨.G, 5, none⟩ 13 16 33 ⟨false, 2047, 0, 63⟩] ∧
    decodeBundle 0x030100000000000000000000000000000000000000000000005328C2081F0001 =
      .ok [.cstU ⟨.G, 5, none⟩ 17 33 ⟨true, 31, 0, 1⟩] ∧
    decodeBundle 0x030100000000000000000000000000000000000000000000005318C20005B000 =
      .ok [.cstM ⟨.G, 5, none⟩ 17 33 ⟨false, 5, 22, 0⟩] ∧
    decodeBundle 0x030100000000000000000000000000000000000000000000000284880802000E =
      .ok [.cldFar ⟨.G, 0, none⟩ 8 9 4 ⟨true, 2, 0, 14⟩] ∧
    decodeBundle 0x0301000000000000000000000000000000000000000000000055C8C20005B008 =
      .ok [.catom ⟨.G, 5, none⟩ 12 17 33 ⟨false, 5, 22, 8⟩] ∧
    decodeBundle 0x030100000000000000000000000000000000000000000000005628420809B07F =
      .ok [.catomFar ⟨.G, 5, none⟩ 2 16 33 ⟨true, 9, 22, 127⟩] ∧
    decodeBundle 0x0200000000000000000000000000000000000000000000000007029030000000 =
      .ok [.swsend ⟨.G, 0, none⟩ 5 4 0 3] ∧
    decodeBundle 0x020000000000000000000000000000000000000000000000005718A670000000 =
      .ok [.swrecv ⟨.G, 5, none⟩ 17 9 2 7] ∧
    decodeBundle 0x020000000000000000000000000000000000000000000000005728A7F0000000 =
      .ok [.swbcast ⟨.G, 5, none⟩ 17 9 3 15] := by
  decide +kernel

/-- Words that the spec works out elsewhere (R267, R326, R309, R368, R379, R381, R361). -/
theorem test_decode_examples :
    decode 0xB4821800 0 0 0 = .ok (.amoD 0 ⟨0, 0, 0⟩ 4 2 3) ∧ decode 0xB0821F04 0 0 0 = .ok (.amoW 7 ⟨0, 1, 0⟩ 4 2 3) ∧
    decode 0xF8A00033 0 0x08328000 0x10000000 = .ok (.scan ⟨0, 0, false, false, 0, 0, 0, 0, 0⟩ 6 true true 2 3 5 4 0) ∧
    decode 0xF8E00400 0x03010000 0 0 = .ok (.smark ⟨0, 0, false, false, 1, 3, 1, 0, 0⟩ 0) ∧
    decode 0xD0853000 0 0 0 = .ok (.snapsave 4 5 6) ∧ decode 0xD0853001 0 0 0 = .ok (.snapload 4 5 6) ∧
    decode 0xD4850001 0 0 0 = .ok (.dbrd 4 5) ∧ decode 0xD4053002 0 0 0 = .ok (.dbwr 5 6) ∧
    decode 0xD8050000 0 0 0 = .ok (.untag 5) ∧ decode 0xC4000012 0 0 0 = .ok (.trap 0x12) := by decide +kernel

/-! ### Well-formedness: what each check refuses -/

def cmdHdr : CmdHdr := ⟨0, 0, false, false, 0, 0, 0, 0, 0⟩
def cntHdr : CmdHdr := { cmdHdr with cnt := true }
def inSlot (s : Slot) : SlotHdr := ⟨s, 0, none⟩

/-- Control-core words and commands (R85, R93). -/
theorem test_illFormed_control :
    ([.waitge ⟨0, 2, 0⟩ 1 2, .waitaddr 0 ⟨0, 3, 0⟩ 1 2 3, .fence 0 0,
      .smark { cmdHdr with threshold := 1 } 0, .smark { cmdHdr with increment := 1 } 0, .smark cmdHdr 1, .smark cntHdr 0x4020,
      .shape cmdHdr 0 0 1, .sload cmdHdr 3 8 false 0 1 0 0, .sstore cmdHdr 8 false 0 1 0 1, .sgather cmdHdr 8 0 1 0 2 1,
      .sscatter cmdHdr 8 0 1 0 2 1, .sscadd cmdHdr 8 3 0 1 0 2 0, .scan cmdHdr 8 false false 1 2 0 3 1, .kswap cmdHdr 0 0 1,
      .salloc cntHdr 1 0 1 0 1, .salloc cmdHdr 1 0 0 0 1, .salloc cmdHdr 1 0 1 0 0, .sfree cntHdr 1, .scopy cntHdr 0 0 0,
      .kernel cmdHdr 5 0 0 0 0 0 0 0 0, .kernel cmdHdr 5 0 1 2 0 0 1 0 0, .collAllred cmdHdr 0 6 0 0 0,
      .collRedsc cmdHdr 0 6 0 0 0, .collAllgat cmdHdr 0 6 0 0 0, .collBcast cmdHdr 0 6 0 0 0] : List Instr).all
        (fun i => !i.wf) = true := by decide +kernel

/-- Slots A, B, C and D (R96, R100, R101, R132, R133). -/
theorem test_illFormed_scalarVector :
    ([.slotNop ⟨.A, 1, none⟩, .br (inSlot .B) 0, .loop (inSlot .A) 6 0 false 0, .loopi (inSlot .A) 6 0 0,
      .loopSw (inSlot .A) 6 0 false 0 0, .loopiSw (inSlot .A) 7 0 0 0, .lock (inSlot .A) 0 1, .cmp (inSlot .C) 0 1 2 3,
      .movi (inSlot .C) 1 (.short 0), .sAdd (inSlot .A) 1 2 3, .rdlc (inSlot .B) 1 6, .wfield (inSlot .B) 1 6, .vmov (inSlot .E) 1 2,
      .vpopc (inSlot .C) false 1 2, .vtopk (inSlot .D) false 1 2 3, .vqmov (inSlot .C) true 1 3, .vadd (inSlot .C) 14 1 2 3,
      .vadd (inSlot .C) 5 1 2 4, .vmul (inSlot .C) 13 2 4 6, .vfma (inSlot .C) 4 1 2 3, .vmin (inSlot .C) 13 2 4 6,
      .vabs (inSlot .C) 2 1 2, .vsqrt (inSlot .C) 4 1 2, .vcmp (inSlot .C) 15 0 1 2 3, .vcvt (inSlot .C) 0 1 2 0,
      .vcvt (inSlot .C) 6 1 2 4, .vbcast (inSlot .C) 12 1 2,
      .vshl (inSlot .C) 8 1 2 3, .vred (inSlot .C) 4 1 2 5 1, .vred (inSlot .C) 4 1 2 0 0, .vred (inSlot .C) 4 1 2 0 7,
      .vred (inSlot .C) 8 1 2 3 1, .vred (inSlot .C) 13 2 4 1 1, .vscan (inSlot .C) 4 1 2 0 false 1, .vscan (inSlot .D) 1 1 2 0 false 1,
      .vscan (inSlot .D) 4 1 2 3 false 1, .vscan (inSlot .D) 13 2 4 1 false 1] : List Instr).all (fun i => !i.wf) = true := by
  decide +kernel

/-- Slots E to H: operands, the extension word and the least landings (R98, R167, R175, R183 to R187, R263). -/
theorem test_illFormed_matrixCistern :
    ([.mloadb (inSlot .E) 3 0 ⟨0, false, 0⟩, .mloadb (inSlot .E) 1 0 ⟨0, false, 1⟩, .mloadb (inSlot .E) 12 0 ⟨1, false, 2⟩,
      .mloadb (inSlot .E) 1 0 ⟨2, false, 4⟩, .mloadb (inSlot .E) 1 0 ⟨3, false, 1⟩, .mpush (inSlot .E) 1 0 ⟨3, false, 0⟩,
      .mpushSc (inSlot .F) 0 ⟨0, false, 0⟩, .mdrain (inSlot .E) 5 0 0 false 0 false, .mdrain (inSlot .E) 8 0 0 false 1 false,
      .mdrain (inSlot .E) 8 0 0 false 0 true, .mdrain (inSlot .E) 6 8 0 false 0 true, .mdrain (inSlot .E) 13 1 0 false 0 false,
      .trin (inSlot .F) 6 0 2, .trin (inSlot .F) 8 0 1, .trout (inSlot .F) 8 0 true, .tmark (inSlot .H) 0 false 0 0,
      .stld (inSlot .G) 0 0, .retag (inSlot .H) false 1 0, .retag (inSlot .H) false 1 16, .retag (inSlot .H) true 8 1,
      .retag (inSlot .H) false 1 5, .cld (inSlot .G) 0 1 0 0, .cld (inSlot .G) 9 1 0 0, .cldU (inSlot .G) 8 1 0 ⟨true, 32, 0, 0⟩,
      .cldU (inSlot .G) 8 1 0 ⟨false, 0, 1, 0⟩, .cldU (inSlot .G) 8 1 0 ⟨false, 0, 0, 64⟩, .cstM (inSlot .G) 1 0 ⟨false, 0, 1, 1⟩,
      .cldFar (inSlot .G) 8 1 0 ⟨false, 0, 0, 11⟩, .catom (inSlot .G) 13 1 0 ⟨false, 0, 1, 8⟩,
      .catom (inSlot .G) 2 1 0 ⟨false, 0, 2, 8⟩, .catom (inSlot .G) 0 1 0 ⟨false, 0, 1, 7⟩,
      .catomFar (inSlot .G) 0 1 0 ⟨false, 0, 1, 11⟩] : List Instr).all (fun i => !i.wf) = true := by decide +kernel

/-! ### States for the witnesses -/

/-- A TLB entry that maps everything to itself. -/
def flat : TlbEntry := ⟨0, 0, 2 ^ 48, 0, 2 ^ 48, 0, true, true, true⟩

/-- Registers with a few values. -/
def regs (xs : List (BitVec 5 × DWord)) : Bank 5 DWord := xs.foldl (fun b x => b.write x.1 x.2) (Bank.fill 0)

/-- A core that runs a task at 0x1000, with a handler for its traps and memory mapped to itself. -/
def task : CoreSt :=
  { CoreSt.reset with running := some 0x20000, tvec := 0x4000, pc := 0x1000, tlb := [flat] }

/-- The device after reset with core 0 as given. -/
def onCore (k : CoreSt) : State := State.reset.setCore 0 k

/-- The task with a few registers. -/
def withRegs (xs : List (BitVec 5 × DWord)) : State := onCore { task with g := regs xs }

/-- The task in system mode. -/
def system (xs : List (BitVec 5 × DWord)) : State := onCore { task with g := regs xs, sys := true }

theorem task_canTrap (xs : List (BitVec 5 × DWord)) : (withRegs xs).CanTrap := by
  constructor <;> simp [withRegs, onCore, State.cur, State.reset, task, CoreSt.reset]

/-! ### Witnesses: encodings and the step -/

/-- What a computation answers, from a check of its answer. -/
theorem ok_of {ε α : Type} {e : Except ε α} (p : α → Bool) (h : (match e with | .ok x => p x | .error _ => false) = true) :
    ∃ x, e = .ok x ∧ p x = true := by
  cases e <;> simp_all

theorem error_of {α : Type} {e : Except Byte α} (k : Byte)
    (h : (match e with | .ok _ => false | .error x => x == k) = true) : e = .error k := by
  cases e <;> simp_all

/-- Some answer of a computation that gives one, some reason of one that does not. -/
theorem ok_some {ε α : Type} {e : Except ε α} (h : (match e with | .ok _ => true | .error _ => false) = true) : ∃ x, e = .ok x := by
  cases e <;> simp_all
theorem error_some {ε α : Type} {e : Except ε α} (h : (match e with | .ok _ => false | .error _ => true) = true) : ∃ x, e = .error x := by
  cases e <;> simp_all

theorem witness_ControlRoundTrip :
    (Instr.waitge ⟨15, 1, 3⟩ 31 31).wf = true ∧ encodeWord (.waitge ⟨15, 1, 3⟩ 31 31) = some 0x981FF8F7 ∧
    (Instr.smark cntHdr 0x401F).wf = true ∧ encodeCommand (.smark cntHdr 0x401F) = some (0xF8E01000, 0, 0x401F, 0) := by
  decide +kernel

theorem witness_SlotsRoundTrip :
    (Instr.cldFar (inSlot .G) 8 31 63 ⟨true, 31, 0, 12⟩).wf = true ∧
    slotCode (.cldFar (inSlot .G) 8 31 63 ⟨true, 31, 0, 12⟩) = some ⟨inSlot .G, 0x28, 0xFFE0, [0x81F000C]⟩ := by decide +kernel

theorem witness_DecodedIsEncoded : decode 0x00842800 0 0 0 = .ok (.add 4 4 5) := by decide +kernel

/-- A core that stands before ADDI. -/
def beforeAddi : State := { (withRegs []).writePhys 0x1000 [0x01, 0x00, 0xE0, 0x04] with agenda := [.control 0] }

theorem witness_StepRunsDecoded :
    let s' : State := { ({ beforeAddi with agenda := [] } : State).passTime with active := 0 }
    s'.trapDue 0 = false ∧ s'.notifDue 0 = none ∧ s'.ready 0 = true ∧ s'.breakDue 0 = none ∧ s'.fetched 0 = .instr (.addi 7 0 1) := by
  decide +kernel

theorem witness_StoppedCoresStay :
    let stopped : State := { onCore { task with halt := some 1 } with agenda := [.control 0] }
    let recovering : State := { withRegs [] with agenda := [.control 0], host := { HostSt.reset with recovery := true } }
    (stopped.core 0).halt ≠ none ∧ recovering.host.recovery = true := by decide +kernel

theorem witness_MemoryFormKept : MemInv State.reset ∧ ∃ t, step { State.reset with agenda := [.control 0] } = .next t := by
  refine ⟨⟨rfl, rfl, fun c => ?_, by simp [State.reset]⟩, _, rfl⟩
  simp [State.core, State.reset, CoreSt.reset]; rfl

/-! ### Witnesses: the control core -/

theorem witness_DivisionResults :
    (withRegs [(1, 0x8000000000000000), (2, -1)]).g 1 = 0x8000000000000000 ∧
    (withRegs [(1, 0x8000000000000000), (2, -1)]).g 2 = -1 := by decide +kernel

/-- Branches: each condition holds and fails; the last target inside the space and the first outside. -/
theorem witness_BranchResults :
    let s := withRegs [(1, -1), (2, 1)]
    s.g 1 ≠ s.g 2 ∧ s.g 1 = s.g 1 ∧ (s.g 1).toInt < (s.g 2).toInt ∧ ¬(s.g 2).toInt < (s.g 1).toInt ∧
    (s.g 2).toNat < (s.g 1).toNat ∧ ¬(s.g 1).toNat < (s.g 2).toNat ∧ (s.g 1).toInt ≤ (s.g 2).toInt ∧ ¬(s.g 2).toInt ≤ (s.g 1).toInt ∧
    (s.g 2).toNat ≤ (s.g 1).toNat ∧ ¬(s.g 1).toNat ≤ (s.g 2).toNat ∧
    (let high := onCore { task with pc := 0xFFFFFFFFFFF8 }
     (high.cur.pc + (1 : BitVec 16).signExtend 64 * 4).toNat < 2 ^ 48 ∧
     2 ^ 48 ≤ (high.cur.pc + (2 : BitVec 16).signExtend 64 * 4).toNat ∧ high.cur.sys = false ∧ high.cur.tvec ≠ 0) := by
  decide +kernel

/-- Jumps: targets of a word, off a word, and the first beyond the space. -/
theorem witness_JumpResults :
    let s := withRegs [(1, 0xFFFFFFFFFFFC), (2, 0x2002)]
    (2 ^ 48 ≤ (s.g 1 + (1 : BitVec 16).signExtend 64 * 4).toNat ∧
      2 ^ 48 ≤ ((onCore { task with pc := 0xFFFFFFFFFFFC }).cur.pc + (1 : BitVec 26).signExtend 64 * 4).toNat) ∧
    (s.cur.pc + (0x3FFFFFF : BitVec 26).signExtend 64 * 4).toNat < 2 ^ 48 ∧
    (s.g 1 + (0 : BitVec 16).signExtend 64 * 4).toNat < 2 ^ 48 ∧ (s.g 1 + (0 : BitVec 16).signExtend 64 * 4).toNat % 4 = 0 ∧
    (s.g 2 + (0 : BitVec 16).signExtend 64 * 4).toNat % 4 ≠ 0 ∧ s.cur.sys = false ∧ s.cur.tvec ≠ 0 := by decide +kernel

/-- Addresses: the first outside the space, the last misaligned one, the last that is reached. -/
theorem witness_AccessFaults (acc : Access) :
    (2 : Nat) ^ 48 ≤ (0x1000000000000 : DWord).toNat ∧ (0xFFFFFFFFFFFF : DWord).toNat < 2 ^ 48 ∧
    (0xFFFFFFFFFFFF : DWord).toNat % 8 ≠ 0 ∧
    (onCore { task with tlb := [] }).reach 0x5000 8 acc true = .error ⟨cTranslate, 0x5000⟩ ∧
    (onCore { task with tlb := [] }).CanTrap := by
  refine ⟨by decide, by decide, by decide, ?_, by constructor <;> decide⟩
  cases acc <;> rfl

theorem witness_LoadResults :
    let s := withRegs []
    let bad : State := { s with poison := [0x140] }
    (∃ pa u, s.reach 0x5000 8 .load true = .ok (pa, u) ∧ isHost pa = false ∧ s.poisoned pa 8 = false) ∧
    (∃ pa u, bad.reach 0x5038 8 .load true = .ok (pa, u) ∧ isHost pa = false ∧ bad.poisoned pa 8 = true ∧ bad.CanTrap) ∧
    ∃ pa u, s.reach (BitVec.ofNat 64 Config.hostMemBase) 8 .load true = .ok (pa, u) ∧ isHost pa = true := by
  exact ⟨⟨0x5000, _, rfl, rfl, rfl⟩, ⟨0x5038, _, rfl, rfl, rfl, by constructor <;> decide⟩, ⟨Config.hostMemBase, _, rfl, rfl⟩⟩

theorem witness_StoreResults :
    let s := withRegs []
    let t : State := { s with tags := [0x140] }
    (s.reach 0x5000 8 .store true = .ok (0x5000, s) ∧ s.tagged 0x5000 = false ∧ inDevice 0x5000 8 = true ∧
      (∀ p m, s.partOf s.active = some p → s.lookup p 0x5000 = some m → m.snapped = false)) ∧
    (t.reach 0x5038 8 .store true = .ok (0x5038, t) ∧ t.tagged 0x5038 = true ∧ t.CanTrap) ∧
    s.reach (BitVec.ofNat 64 Config.hostMemBase) 8 .store true = .ok (Config.hostMemBase, s) ∧ s.tagged Config.hostMemBase = false ∧
    isHost Config.hostMemBase = true := by
  refine ⟨⟨rfl, rfl, rfl, fun p m h h' => ?_⟩, ⟨rfl, rfl, by constructor <;> decide⟩, rfl, rfl, rfl⟩
  have : (withRegs []).partOf (withRegs []).active = some 0 := rfl
  rw [this] at h; cases h
  exact absurd h' (by rw [show (withRegs []).lookup 0 0x5000 = none from rfl]; exact nofun)

theorem witness_AmoResults (n : Nat) (hn : n = 4 ∨ n = 8) :
    let s := withRegs [(1, 0x5000)]
    let t : State := { s with tags := [0x140] }
    let p : State := { s with poison := [0x140] }
    (s.reach (s.g 1) n .store = .ok (0x5000, s) ∧ s.tagged 0x5000 = false ∧ s.poisoned 0x5000 n = false ∧ inDevice 0x5000 n = true) ∧
    (t.reach (t.g 1) n .store = .ok (0x5000, t) ∧ t.tagged 0x5000 = true ∧ t.CanTrap) ∧
    (p.reach (p.g 1) n .store = .ok (0x5000, p) ∧ p.tagged 0x5000 = false ∧ p.poisoned 0x5000 n = true ∧ p.CanTrap) := by
  rcases hn with rfl | rfl <;>
    exact ⟨⟨rfl, rfl, rfl, rfl⟩, ⟨rfl, rfl, by constructor <;> decide⟩, rfl, rfl, rfl, by constructor <;> decide⟩

/-- System mode, for CsrReads, CsrWrites and the other statements that ask for it. -/
theorem witness_system : (system []).cur.sys = true ∧ (0xFF : BitVec 8) ≠ 0 := by decide +kernel

/-- CsrRefusals: a number that names nothing, the first and the last system number, a CSR that is read only. -/
theorem witness_CsrRefusals :
    csrOf 0x7FF = none ∧ (0x800 : BitVec 12).getLsbD 11 = true ∧ (0xFFF : BitVec 12).getLsbD 11 = true ∧
    (∃ r, csrOf 0x000 = some r ∧ (withRegs []).csrReadOnly (withRegs []).active r = true) ∧ (withRegs []).CanTrap :=
  ⟨by decide, by decide, by decide, ⟨_, rfl, rfl⟩, task_canTrap []⟩

/-! ### Witnesses: system software -/

/-- Memory with some bytes, and entry 0 of a range table at 0x800 that maps the first GiB to itself. -/
def mapped (k : CoreSt) (cells : List Host.Cell) : State :=
  { onCore k with
    mem := ⟨(0x807, 0xF0) :: (0x80B, 0x40) :: cells⟩
    parts := (Bank.fill PartSt.reset).write 0 { PartSt.reset with rtbase := 0x800 } }

theorem witness_PartitionRegisterEffects :
    let s := withRegs []
    s.partOf 0 = some 0 ∧ s.pmapsOk (s.pmaps.write 2 0) = true ∧ s.pmapsOk (s.pmaps.write 2 1) = false ∧
    (s.part 0).held = [] ∧ s.teams = [] ∧ (1 : DWord).getLsbD 0 = true ∧ (63 : DWord).toNat % 64 ≠ 0 := by decide +kernel

/-- A descriptor at 0x5000 that names range 0, whose overlay lies at 1 MiB, and generation 7; the last range that a table holds is 63. -/
def snapState : State := mapped task [(0x81A, 0x10), (0x5000, 7), (0x5008, 1)]
theorem witness_SnapMarksRange :
    let s := snapState
    let w (j : Nat) : DWord := s.read64 (0x5000 + 8 * j)
    s.poisoned 0x5000 64 = false ∧ s.poisoned (s.part 0).rangeTable 32 = false ∧
    ({ s with poison := [blockOf (s.part 0).rangeTable] } : State).poisoned (s.part 0).rangeTable 32 = true ∧
    ({ s with tags := [blockOf (s.part 0).rangeTable] } : State).tagged (s.part 0).rangeTable = true ∧
    s.partOf 0 = some 0 ∧ inDevice 0x5000 64 = true ∧ w 0 = (7 : Byte).setWidth 64 ∧ w 1 = 1 <<< 0 ∧ w 2 = 0 ∧ w 3 = 0 ∧ w 4 = 0 ∧
    w 5 = 0 ∧ w 6 = 0 ∧ w 7 = 0 ∧ (s.part 0).rangeTable ≠ 0 ∧ inDevice (s.part 0).rangeTable 2048 = true ∧
    (let e := s.rangeEntry 0 0
     let n := if e.ok = true then (e.limit - e.base) / 65536 else 0
     e.valid = true ∧ e.snapped = false ∧ e.overlay % 8 = 0 ∧ n = 16384 ∧ inDevice e.overlay (8 * n) = true ∧
     (s.part 0).rangeTable + 32 * 0 + 8 ≤ e.overlay) := by decide +kernel

def cmdOf (i : Instr) (phase : CmdPhase) (total pos : Nat) : Cmd :=
  ⟨0, i, 0x1000, 0x20000, 0, 0x30000, 0, 0, 0, phase, none, none, [], total, pos, [], none, [], [], [], 0, 0, 0, false, 0, 0, 0⟩

def oneTeam : Team :=
  ⟨0, 0x30000, 0, 0, 0, 1, [0], true, true, false, true, false, false, [], [⟨0x20000, 0, 0, 0, 0, [], false, [], false⟩], [0], []⟩

/-- A core with a command that stopped at an element, one that stopped at its end, and a halted team. -/
theorem witness_ResumeEffects :
    let k : CoreSt := { task with
      bound := some ⟨0, 0x30000, 0, 0⟩, table := [cmdOf (.smark cmdHdr 0) (.stopped 1 0x5000) 8 3] }
    let s : State := { onCore k with teams := [{ oneTeam with halted := true }] }
    let away : State := { s with pmaps := ((Bank.fill 0).write 0 1).write 1 0 }
    away.inPart 0 1 = false ∧ s.inPart 0 0 = true ∧ (s.core 0).cmd 0 = some (cmdOf (.smark cmdHdr 0) (.stopped 1 0x5000) 8 3) ∧
    (s.core 0).swapHalted = false ∧ s.teamOf 0 = some { oneTeam with halted := true } := by decide +kernel

/-- The retry of kind 4 succeeds for a team of no bound core. -/
theorem witness_ResumeEffects_retry :
    let t : Team := { oneTeam with halted := true, bound := [] }
    let s : State := { onCore { task with bound := some ⟨0, 0x30000, 0, 0⟩ } with teams := [t] }
    s.teamOf 0 = some t ∧ t.halted = true ∧ (s.swapTeam t).2 = true := by decide +kernel

/-- A record at 0x20000 whose state is merge-faulted, in the view where its task stands, and one that runs. -/
theorem witness_ResumeEffects_merge :
    let s : State := { mapped task [(0x20006, 0x05)] with teams := [oneTeam] }
    (let u := (s.setTaskState 0 0x20000 stParked).modTask 0 0x20000 fun i => { i with held := false }
     ¬(u.isTurn 0 0x20000 = true ∧ u.mergeBad 0 0x20000 = false)) ∧
    s.partOf 0 = some 0 ∧ s.taskState 0 0x20000 = stMergeFaulted ∧ s.taskInfo 0 0x20000 = some ⟨0x20000, 0, 0, 0, 0, [], false, [], false⟩ ∧
    ((s.recWord 0 0x20000 4).setWidth 3).toNat = 0 ∧ (mapped task [(0x20006, 0x02)]).taskState 0 0x20000 ≠ stMergeFaulted := by
  decide +kernel

/-- CanTrap, for every statement whose only hypothesis it is. -/
theorem witness_canTrap : (withRegs []).CanTrap := task_canTrap []

theorem witness_StoppingTraps :
    (onCore { task with tvec := 0 }).cur.sys = false ∧ (onCore { task with tvec := 0 }).cur.tvec = 0 ∧
    (system []).cur.sys = true := by decide +kernel

def oneTrap : Trap := mkTrap cRecord 5 6 0x20000

theorem witness_SysretReturns :
    (system []).cur.sys = true ∧ (system []).cur.idle = false ∧ (system []).cur.pending = [] ∧
    (onCore { task with sys := true, idle := true, running := none }).cur.idle = true ∧
    (let s := onCore { task with sys := true, pending := [oneTrap] }
     s.cur.idle = false ∧ s.cur.pending = [oneTrap] ∧ s.cur.tvec ≠ 0 ∧ s.cur.running.isSome = true) := by decide +kernel

theorem witness_UserHandler :
    let n : Notif := ⟨0x20000, 0x1000, 0⟩
    (onCore { task with uie := true, uvec := 0x6000, notifs := [n] }).notifDue 0 = some n ∧
    (onCore { task with inHandler := true }).cur.inHandler = true ∧ (withRegs []).cur.inHandler = false := by decide +kernel

theorem witness_TurnTraps :
    (let s := onCore { task with pending := [oneTrap] }
     s.trapDue 0 = true ∧ (s.core 0).pending = [oneTrap] ∧ (s.core 0).tvec ≠ 0) ∧
    (let s := withRegs []
     s.ready 0 = true ∧ (s.core 0).sys = false ∧ (s.core 0).tvec ≠ 0 ∧
     ({ s with mem := ⟨[(0x1003, 0xFC)]⟩ } : State).fetched 0 = .illegal 0xFC000000) ∧
    (onCore { task with tlb := [] }).fetched 0 = .fault ⟨cTranslate, 0x1000⟩ := by decide +kernel

theorem witness_DebugWords :
    debugTarget 0xF = some (.comparator 7 true) ∧ debugTarget 0 = some (.comparator 0 false) ∧
    (let s := system [(1, 0x5002)]
     (s.g 1).toNat < 2 ^ 48 ∧ (s.g 1).toNat % 64 = 2 ∧ s.reach (s.g 1 &&& ~~~(3 : DWord)) 64 .store = .ok (0x5000, s)) :=
  ⟨rfl, rfl, by decide +kernel, by decide +kernel, rfl⟩

/-- An image header of one block at 0x5000: count 1, kind 1, version 3, the magic, the valid bit, the crc of nothing. -/
def imageCells : List Host.Cell := [(0x5000, 1), (0x5004, 1), (0x5005, 3), (0x5006, 0x5E), (0x5007, 0xA2), (0x500F, 0x80)]
theorem witness_SnapshotResults :
    let k : CoreSt := { task with sys := true, eng := { Engine.reset with stopped := some 2 }, g := regs [(1, 0x80), (3, 0x5000)] }
    let s := mapped k imageCells
    s.cur.sys = true ∧ (s.g 3).toNat < 2 ^ 48 ∧ (s.g 3).toNat % 4096 = 0 ∧ s.snapTarget (s.g 1) = none ∧ s.snapTarget (s.g 2) = some 0 ∧
    (s.core 0).eng.stopped.isSome = true ∧ (system []).cur.eng.stopped = none ∧
    ∃ h bs, s.readImage 0 0x5000 1 = some h ∧ sameKernels (s.core 0) h = true ∧ s.loadImage 0 0x5000 1 = some bs := by
  refine ⟨by decide +kernel, by decide +kernel, by decide +kernel, by decide +kernel, by decide +kernel, by decide +kernel,
    by decide +kernel, _, _, rfl, by decide +kernel, rfl⟩

/-! ### Witnesses: tasks -/

/-- A running task of a team, its record and frame mapped: frame at 0x21000. -/
def inTeam (k : CoreSt) (cells : List Host.Cell) : State :=
  { mapped k ([(0x20011, 0x10), (0x20012, 0x02)] ++ cells) with teams := [oneTeam] }

theorem witness_YieldSuspends :
    (inTeam task []).self = some (0, 0x20000) ∧ (inTeam task []).teamWith 0 0x20000 = some oneTeam ∧
    (inTeam task []).cur.inHandler = false ∧
    (inTeam { task with inHandler := true } []).cur.inHandler = true ∧ (inTeam task []).cur.sys = false ∧
    (inTeam task []).cur.tvec ≠ 0 := by decide +kernel

/-- A task whose area holds poison, and one whose area holds none. -/
theorem witness_areas :
    (inTeam task []).areaBad 0 0x20000 = false ∧ ({ inTeam task [] with poison := [0x844] } : State).areaBad 0 0x20000 = true ∧
    ({ inTeam task [] with poison := [0x847] } : State).areaBad 0 0x20000 = true ∧ (inTeam task []).cur.sys = false ∧
    (inTeam task []).cur.tvec ≠ 0 := by decide +kernel

/-- A geometry of one block and a tile in memory; the last view index is free, and then taken; a child is unmerged. -/
theorem witness_ViewResults :
    let k : CoreSt := { task with g := regs [(2, 0x5000), (3, 1), (4, 6), (5, 7)] }
    let s := inTeam k []
    let full := inTeam k [(0x21138, 0x10), (0x21158, 0x10), (0x21178, 0x10), (0x21198, 0x10), (0x211B8, 0x10), (0x211D8, 0x10)]
    let parent := inTeam k [(0x21108, 1)]
    s.self = some (0, 0x20000) ∧ (List.range 7).find? (fun i => !(s.viewEntry 0 0x20000 i).valid) = some 0 ∧
    (List.range 7).find? (fun i => !(full.viewEntry 0 0x20000 i).valid) = some 6 ∧
    s.areaWord 0 0x20000 1 = 0 ∧ viewOk s.cur 0x20000 0 (s.g 2) (s.g 3) = true ∧ viewOk s.cur 0x20000 0 (s.g 2) (s.g 0) = false ∧
    parent.areaWord 0 0x20000 1 ≠ 0 ∧ (full.viewEntry 0 0x20000 5).valid = true ∧ (full.viewEntry 0 0x20000 6).valid = false ∧
    (s.g 4).toNat < 7 ∧ 7 ≤ (s.g 5).toNat ∧ s.cur.sys = false ∧ s.cur.tvec ≠ 0 := by decide +kernel

/-- SPAWN: entries at the edge of the space and off a word; a task that can spawn; a pool without a slot. -/
theorem witness_SpawnResults :
    let k : CoreSt := { task with g := regs [(2, 0x1000000000000), (3, 0xFFFFFFFFFFFF), (4, 0x6000), (5, 0x7000)] }
    let s := inTeam k []
    2 ^ 48 ≤ (s.g 2).toNat ∧ (s.g 3).toNat < 2 ^ 48 ∧ (s.g 3).toNat % 4 ≠ 0 ∧ (s.g 4).toNat % 4 = 0 ∧ (s.g 5).toNat % 64 = 0 ∧
    s.self = some (0, 0x20000) ∧ s.cur.viewHandlesOk 0x20000 (s.views 0 0x20000) = true ∧
    (s.recWord 0 0x20000 7).extractLsb' 56 8 ≠ 255 ∧ s.teamWith 0 0x20000 = some oneTeam ∧ s.views 0 0x20000 = [] ∧
    oneTeam.slotsFor s.active s.cur [] [] = some [] ∧ s.cur.sys = false ∧ s.cur.tvec ≠ 0 ∧
    -- the deepest task, a block at the edge of the space and one off a block, a view of a handle that is not live
    ((inTeam k [(0x2003F, 0xFF)]).recWord 0 0x20000 7).extractLsb' 56 8 = 255 ∧ (s.g 4).toNat < 2 ^ 48 ∧ (s.g 3).toNat % 64 ≠ 0 ∧
    (let u := inTeam k [(0x21127, 0x81), (0x21138, 0x10)]
     u.cur.viewHandlesOk 0x20000 (u.views 0 0x20000) = false) := by decide +kernel

/-- A block that can be written, and one that holds a live record. -/
theorem witness_SpawnResults_block :
    let s := inTeam { task with g := regs [(4, 0x6000), (5, 0x7000)] } []
    let live : State := { s with tags := [0x1C0] }
    let bytes (s : State) : List Byte := s.childBytes 0 0x20000 (s.g 4) ((s.g 5).setWidth 48) 1
      (childEntries (s.views 0 0x20000) [] ((s.g 5).toNat + 576))
    (∃ u, s.storeBlocks (s.g 5).toNat ((bytes s).length / 64) (bytes s) = .ok u) ∧
    ∃ e, live.storeBlocks (live.g 5).toNat ((bytes live).length / 64) (bytes live) = .error e :=
  ⟨ok_some (by decide +kernel), error_some (by decide +kernel)⟩

/-- A view of a tile of two blocks in handle 1, whose pool, handle 2, holds one block. -/
theorem witness_SpawnResults_full :
    let a : Alloc := ⟨0, 2, 0, 1, 0x20000, 0x30000⟩
    let b : Alloc := ⟨0, 1, 1, 1, 0x20000, 0x30000⟩
    let k : CoreSt := { task with handles := ((Bank.fill none).write 1 (some a)).write 2 (some b) }
    let s := inTeam k [(0x21127, 0x81), (0x21128, 2), (0x2112D, 2), (0x21138, 0x10)]
    s.cur.viewHandlesOk 0x20000 (s.views 0 0x20000) = true ∧ (s.views 0 0x20000).length = 1 ∧
    oneTeam.slotsFor 0 s.cur (s.views 0 0x20000) [] = none := by decide +kernel

theorem witness_SyncAndExit :
    let s := inTeam task []
    let busy := inTeam { task with table := [cmdOf (.smark cmdHdr 0) .waiting 0 0] } []
    s.self = some (0, 0x20000) ∧ s.cur.inHandler = false ∧ s.areaWord 0 0x20000 1 = 0 ∧
    (inTeam task [(0x21108, 1)]).areaWord 0 0x20000 1 ≠ 0 ∧ busy.cur.hasCommand 0x20000 = true ∧ s.cur.hasCommand 0x20000 = false := by
  decide +kernel

/-! ### Witnesses: meetings, waits, queues, launches, transactions -/

/-- A meeting record at 0x5000: parties 0 and 1, quorum 2, tag 5, operator OR, a limit of 2 for party 0; `arrived` parties, and
`count` of them, stand in the open round. -/
def meetCells (arrived count : Byte) : List Host.Cell :=
  ([(0x5000, 3)] : List Host.Cell) ++ (if arrived = 0 then [] else [(0x5008, arrived)]) ++
    ([(0x5019, 0x60), (0x5020, 5), (0x5022, if count = 0 then 2 else 0x82), (0x5024, 8), (0x5028, 2)] : List Host.Cell)
def meetState (arrived count : Byte) (k : CoreSt) : State := { mapped k (meetCells arrived count) with tags := [0x140] }

theorem witness_MeetingManagement :
    let k : CoreSt := { task with g := regs [(1, 0x5000), (2, 0x5040)] }
    let s := meetState 0 0 k
    let off : State := { s with tags := [] }
    (∃ x, s.loadDev (s.g 1) 64 = .ok (x, 0x5000)) ∧
    (s.reach (s.g 1) 64 .store = .ok (0x5000, s) ∧ s.tagged 0x5000 = true) ∧
    (off.reach (off.g 1) 64 .store = .ok (0x5000, off) ∧ off.tagged 0x5000 = false) ∧
    (off.meeting 0x5040).bad = true ∧ (off.meeting 0x5000).bad = false ∧ inDevice 0x5000 64 = true ∧
    (∃ x, off.loadDev (off.g 2) 64 = .ok (x, 0x5040)) :=
  ⟨⟨_, rfl⟩, ⟨rfl, by decide⟩, ⟨rfl, by decide⟩, by decide +kernel, by decide +kernel, by decide, ⟨_, rfl⟩⟩

/-- MEET: the statuses at the edges of what they ask: the next tag, the same, the last lag within the limit, the first beyond. -/
theorem witness_MeetResults :
    let word (tag : BitVec 16) (i : BitVec 6) : DWord := tag ++ (0x140 : BitVec 42) ++ i
    let lag (tag : BitVec 16) (m : Meeting) : Int := (tag - m.tag).toInt
    let s := meetState 0 0 { task with g := regs [(1, word 5 0)] }
    let m := s.meeting 0x5000
    (⟨0, 2, 0⟩ : SyncSfx).order.getLsbD 0 = false ∧ (s.g 1).extractLsb' 6 42 ++ (0 : BitVec 6) = (0x5000 : Addr) ∧
    s.reach 0x5000 64 .store = .ok (0x5000, s) ∧ s.partOf s.active = some 0 ∧ s.poisoned 0x5000 64 = false ∧
    ({ s with tags := [] } : State).tagged 0x5000 = false ∧ s.tagged 0x5000 = true ∧ inDevice 0x5000 64 = true ∧ m.bad = false ∧
    m.members.getLsbD 2 = false ∧ m.members.getLsbD 0 = true ∧ 0 < lag 6 m ∧ lag 5 m = 0 ∧
    ((meetState 1 0 task).meeting 0x5000).arrived.getLsbD 0 = true ∧ m.arrived.getLsbD 0 = false ∧ m.count + 1 < m.quorum ∧
    ((meetState 0 1 task).meeting 0x5000).count + 1 = ((meetState 0 1 task).meeting 0x5000).quorum ∧
    lag 3 m < 0 ∧ (-(lag 3 m)).toNat ≤ m.limit 0 ∧ lag 2 m < 0 ∧ m.limit 0 < (-(lag 2 m)).toNat := by
  refine ⟨?_, ?_, rfl, ?_, ?_, ?_, ?_, ?_, ?_, ?_, ?_, ?_, ?_, ?_, ?_, ?_, ?_, ?_, ?_, ?_, ?_⟩ <;> decide +kernel

/-- MEET: a tagged block that is no record, an acquire by a task and in a user handler, the round that closes without waiters, and its
buffer, which can be written. -/
theorem witness_MeetResults_close :
    let bad : State := { withRegs [] with tags := [0x140] }
    let s := meetState 0 1 task
    let m := s.meeting 0x5000
    let m' := (m.arrive 0 5 1).2
    (bad.tagged 0x5000 = true ∧ (bad.meeting 0x5000).bad = true) ∧ (⟨0, 1, 0⟩ : SyncSfx).order.getLsbD 0 = true ∧
    s.cur.running = some 0x20000 ∧ s.cur.inHandler = false ∧ (meetState 0 1 { task with inHandler := true }).cur.inHandler = true ∧
    (s.publish 0 m').map (fun w => ((w.1.writePhys 0x5000 (m'.next w.2).bytes).waitersAt 4 0x5000 fun x => x == m.tag.setWidth 64).isEmpty) =
      some true ∧ m.op ≠ 6 ∧
    isHost 0x6000 = false ∧ s.tagged 0x6000 = false ∧ s.poisoned 0x6000 8 = false ∧ inDevice 0x6000 8 = true ∧
    s.resolveIn 0 m.buffer.toNat .store = .ok (0x6000, s) := by
  refine ⟨?_, ?_, ?_, ?_, ?_, ?_, ?_, ?_, ?_, ?_, ?_, rfl⟩ <;> decide +kernel

/-- A round that closes while its buffer's range is snapped and the frame pool is empty. -/
theorem witness_MeetResults_pool :
    let s : State := { mapped task (meetCells 0 1 ++ [(0x6000, 7)]) with tags := [0x140] }
    let u : State := { s with mem := ([(0x807, 0xF8), (0x81A, 0x10)] : List Host.Cell).foldl (fun m x => m.writeByte x.1 x.2) s.mem }
    let m := u.meeting 0x5000
    m.bad = false ∧ m.count + 1 = m.quorum ∧ u.publish 0 (m.arrive 0 5 1).2 = none ∧ u.cur.sys = false ∧ u.cur.tvec ≠ 0 := by
  decide +kernel

theorem witness_WordWaits :
    let s := inTeam { task with g := regs [(1, 0x5000), (2, 5), (3, 6)] } [(0x5000, 5)]
    s.loadDev (s.g 1) 8 = .ok (5, 0x5000) ∧ s.cur.inHandler = false ∧ BitVec.ofNat 64 5 = s.g 2 ∧ BitVec.ofNat 64 5 ≠ s.g 3 ∧
    (s.g 2).ule (BitVec.ofNat 64 5) = true ∧ (s.g 3).ule (BitVec.ofNat 64 5) = false ∧ (s.g 2).sle (BitVec.ofNat 64 5) = true ∧
    (s.g 3).sle (BitVec.ofNat 64 5) = false ∧ (s.g 2).toNat ≤ 5 % 2 ^ 64 ∧ 5 % 2 ^ 64 < (s.g 3).toNat ∧ s.self = some (0, 0x20000) ∧
    (onCore { task with inHandler := true }).cur.inHandler = true ∧ (onCore { task with inHandler := true }).CanTrap := by
  refine ⟨rfl, ?_, ?_, ?_, ?_, ?_, ?_, ?_, ?_, ?_, ?_, ?_, ?_, ?_⟩ <;> decide +kernel

/-- WAKE: an address in the space, and the first beyond it. -/
theorem witness_WordWaits_wake :
    let s := withRegs [(1, 0x5004), (2, 0x1000000000000)]
    (s.g 1).toNat < 2 ^ 48 ∧ s.resolve s.active false (64 * ((s.g 1).toNat / 64)) .load = .ok (0x5000, s) ∧ 2 ^ 48 ≤ (s.g 2).toNat :=
  ⟨by decide, rfl, by decide⟩

/-- A queue descriptor at 0x5000 with two entries at 0x6000, `tail` entries pushed and none popped. -/
def queueState (ctl : Byte) (tail : Byte) (more : List Host.Cell) : State :=
  mapped { task with g := regs [(1, 0x5000), (2, 0x7000)] }
    ([(0x5001, 0x60), (0x5008, 1)] ++ (if ctl = 0 then [] else [(0x5009, ctl)]) ++
      (if tail = 0 then [] else [(0x5018, tail)]) ++ more)

theorem witness_QueueResults :
    let q (ctl tail : Byte) : Queue := (queueState ctl tail []).queueAt 0x5000
    let bad (ctl tail : Byte) : Bool := (queueState ctl tail []).queueBad 0x5000 (q ctl tail)
    let s := queueState 0 1 []
    (s.queueCheck (s.g 1) = .ok (0x5000, s) ∧ s.partOf s.active = some 0 ∧ s.cur.inHandler = false ∧ inDevice 0x5000 64 = true) ∧
    (queueState 0 1 [(0x5030, 1)]).queueBad 0x5000 (q 0 1) = true ∧
    (bad 0 0 = false ∧ bad 0 1 = false ∧ bad 0 2 = false ∧ bad 1 0 = false ∧ bad 1 1 = false) ∧
    (0 < (q 0 1).used ∧ (∃ e, s.loadDev ((q 0 1).entry (q 0 1).head) 8 = .ok (e, 0x6000)) ∧ (q 0 1).closed = false ∧ (q 0 1).first = 0 ∧
      (q 0 1).used < (q 0 1).capacity ∧ ∃ at_ v, s.storeAt ((q 0 1).entry (q 0 1).tail) 8 = .ok (at_, v) ∧ isHost at_ = false) ∧
    ((q 1 0).used = 0 ∧ (q 1 0).closed = true) ∧ ((q 0 0).used = 0 ∧ (q 0 0).closed = false) ∧ (q 0 2).used = (q 0 2).capacity := by
  refine ⟨⟨rfl, ?_, ?_, ?_⟩, ?_, ?_, ⟨?_, ⟨_, rfl⟩, ?_, ?_, ?_, _, _, rfl, rfl⟩, ?_, ?_, ?_⟩ <;> decide +kernel

/-- A queue whose entries lie in host memory; a waiter at 0x20000, its record sound or poisoned; a task that can wait. -/
theorem witness_QueueResults_waiters :
    let far : State := mapped { task with g := regs [(1, 0x5000)] } [(0x5005, 0x80), (0x5008, 1)]
    let s := queueState 0 0 [(0x5022, 2), (0x502A, 2)]
    let bad : State := { s with poison := [0x800] }
    let q := s.queueAt 0x5000
    (∃ at_ v, far.storeAt ((far.queueAt 0x5000).entry (far.queueAt 0x5000).tail) 8 = .ok (at_, v) ∧ isHost at_ = true) ∧
    (q.closed = false ∧ q.used = 0 ∧ q.first = 0x20000 ∧ s.queueBad 0x5000 q = false ∧ s.cur.running = some 0x20000 ∧ s.CanTrap) ∧
    s.badWaiter 0 1 q.first = none ∧ bad.badWaiter 0 1 (bad.queueAt 0x5000).first = some 0x20000 ∧
    s.badWaiter 0 (s.teams.foldl (fun n t => n + t.tasks.length) 0) q.first = none ∧
    (let t : State := { bad with teams := [oneTeam] }
     t.badWaiter 0 (t.teams.foldl (fun n t => n + t.tasks.length) 0) (t.queueAt 0x5000).first = some 0x20000) := by
  refine ⟨⟨_, _, rfl, rfl⟩, ⟨?_, ?_, ?_, ?_, ?_, ?_, ?_⟩, ?_, ?_, ?_, ?_⟩ <;> decide +kernel

/-- A launch record of one team of one core at 0x5000, with a status byte. -/
def launchState (status : Byte) : State :=
  mapped { task with g := regs [(1, 0x5000)] }
    ([(0x5018, 1), (0x501C, 1), (0x5029, 0x70)] ++ if status = 0 then [] else [(0x5038, status)])

theorem witness_LaunchResults :
    let s := launchState 3
    let w (s : State) (i : Nat) : DWord := s.read64 (0x5000 + 8 * i)
    (s.queueCheck (s.g 1) = .ok (0x5000, s) ∧ s.partOf s.active = some 0) ∧
    ((w (launchState 1) 7).setWidth 8 = (1 : Byte) ∧ (w (launchState 2) 7).setWidth 8 = (2 : Byte)) ∧
    ((w s 7).setWidth 8 = (3 : Byte) ∧ launchBad (w s) = false) ∧
    ((w (withRegs []) 7).setWidth 8 = (0 : Byte) ∧ launchBad (w (withRegs [])) = true) := by
  refine ⟨⟨rfl, ?_⟩, ?_, ?_, ?_⟩ <;> decide +kernel

/-- Group 0 has one member, core 0 of this device; its table is at 0x8000. -/
def groupCells : List Host.Cell := [(0x8000, 1), (0x8002, 1), (0x8009, 0x90)]
def txnState (txns : List OpenTxn) (known : List TxnSt) (xs : List (BitVec 5 × DWord)) : State :=
  let s := inTeam { task with txns := txns, g := regs xs } groupCells
  s.modPart 0 fun x => { x with cgroup := 0x8000, txns := known }

def seven : TxnName := ⟨7, 0, 0⟩
/-- Transaction 7 of group 0: its one vote has come, no write has been sent. -/
def oneTxn : TxnSt := ⟨seven, [(0, 1)], [(0, 0, 0)], none, none, 0, [], [], false, [], []⟩
def oneOpen : OpenTxn := ⟨0x20000, seven, 0, [], false⟩

theorem witness_TransactionInstructions :
    let s := txnState [] [] [(1, 7), (2, 0x6000)]
    let y : TxnSt := { oneTxn with decision := some true, finished := true }
    let t := txnState [oneOpen] [y] [(1, 7), (2, 0x6000)]
    let z : TxnSt := { oneTxn with votes := [] }
    let u := txnState [oneOpen] [z] []
    (s.self = some (0, 0x20000) ∧ s.cur.inHandler = false) ∧
    (s.cur.txnOf 0x20000 = none ∧ (s.g 2).toNat < 2 ^ 48 ∧ (s.g 2).toNat % 2 ^ (3 : BitVec 2).toNat = 0) ∧
    (s.g 0).setWidth 32 = (0 : BitVec 32) ∧
    ((s.g 1).extractLsb' 36 28 = 0 ∧ (s.g 1).setWidth 32 ≠ (0 : BitVec 32) ∧
      s.group 0 ((s.g 1).extractLsb' 32 4) = some [(0, 0)] ∧ s.self? [(0, 0)] = some 0) ∧
    (t.cur.txnOf 0x20000 = some oneOpen ∧ t.txn 0 seven = some y ∧ y.finished = true ∧ y.decision = some true) ∧
    (t.group 0 seven.group = some [(0, 0)] ∧ ([(0, 0)] : List Member)[(t.g 0).toNat]? = some (t.devid, 0) ∧ t.partOf 0 = some 0) ∧
    -- XCOMMIT of a transaction that is still undecided, at its own coordinator
    (u.cur.txnOf 0x20000 = some oneOpen ∧ u.txn 0 seven = some z ∧ z.finished = false ∧ ([(0, 0)] : List Member).head? = some (u.devid, 0) ∧
      ∀ w ∈ z.votes, w.1 ≠ 0) := by
  decide +kernel

/-- A partition that knows a transaction of group 0, whose one member is core 0 of a device; peer 5 stands in the peer table. -/
def txnPartState (device : Byte) (xlimit : DWord) (x : TxnSt) (incoming staging : List Staged) : State :=
  let cells := groupCells ++ (if device = 0 then [] else [(0x9000, device)]) ++ [(0x2000B4, 1)]
  let s := (mapped task cells).modPart 0 fun y =>
    { y with cgroup := 0x8000, xlimit := xlimit, txns := [x], incoming := incoming, staging := staging }
  s.modHost fun h => { h with fabtab := 0x200000 }

/-- A valid peer can be reached when no path has been retired. -/
theorem reachable_of (s : State) (peer : BitVec 16) (hv : s.peerValid peer = true) (hp : s.paths = []) : s.reachable peer = true := by
  have h : ∀ n, (s.path peer n).retired = false := fun n => by unfold State.path; rw [hp]; rfl
  have e : s.pathsTo peer = allPaths.map fun n => (Config.freeValue s.tick).extractLsb' 0 4 + n := by
    unfold State.pathsTo
    exact List.filter_eq_self.2 fun n _ => by rw [h]; rfl
  unfold State.reachable
  rw [hv, e]
  rfl

/-- Groups of two: this core has rank 1 in the group, whose coordinator stands on device 5. -/
theorem witness_TransactionInstructions_far :
    let s := { inTeam { task with txns := [oneOpen] }
        [(0x8000, 2), (0x8002, 1), (0x8009, 0x90), (0x9000, 5), (0x2000B4, 1)] with active := 0 }
    let s := (s.modPart 0 fun x => { x with cgroup := 0x8000, txns := [{ oneTxn with votes := [] }] }).modHost fun h =>
      { h with fabtab := 0x200000 }
    s.group 0 0 = some [(5, 0), (0, 0)] ∧ s.self? [(5, 0), (0, 0)] = some 1 ∧ (5 : BitVec 16) ≠ s.devid ∧ s.peerValid 5 = true ∧
    s.paths = [] := by decide +kernel

/-! ### Witnesses: commands -/

/-- Entries of the table occupied, from 0 up. -/
def occupied (n : Nat) : List Cmd := (List.range n).map fun i => { cmdOf (.smark cmdHdr 0) .waiting 0 0 with entry := BitVec.ofNat 6 i }

theorem witness_CommandsEnter :
    let acq : Instr := .smark { cmdHdr with order := 1 } 0
    let i : Instr := .smark cmdHdr 0
    (encodeCommand acq = some (0xF8E00400, 0, 0, 0) ∧ acquires (cmdHeader acq).order = true ∧
      (onCore { task with inHandler := true }).cur.inHandler = true) ∧
    (encodeCommand i = some (0xF8E00000, 0, 0, 0) ∧ acquires (cmdHeader i).order = false) ∧
    (∀ e : BitVec 6, ∃ c ∈ (onCore { task with table := occupied 64 }).cur.table, c.entry = e) ∧
    (let s := onCore { task with table := occupied 63 }
     (∀ c ∈ s.cur.table, c.entry ≠ 63) ∧ ∀ e' : BitVec 6, e'.toNat < (63 : BitVec 6).toNat → ∃ c ∈ s.cur.table, c.entry = e') := by
  decide +kernel

/-! ### Witnesses: slot operations and the kernel engine -/

/-- A kernel image of one bundle, `addi a1, a1, 5` in slot B. -/
def oneBundle : KImage := ⟨0, 0, 0, 0, 0, 0, 0, 0, false, 0, [soloBundle ⟨inSlot .B, 0x30, 0x0805, []⟩], [], []⟩

def run0 : KernelRun :=
  ⟨5, oneBundle, 0, 0, [], 0, 0, 0x1000, 0x20000, 0x30000, [1], [2], [], 0, 0, [], [], none, none, false, false, none, false, false⟩

/-- A core whose vector registers hold FP32 zeros, p2 true in cluster 0 alone, with its kernels. -/
def engineCore (a b : Option KernelRun) : CoreSt :=
  let cl : Cluster := { Cluster.reset with v := Bank.fill ⟨Bank.fill 0, 8⟩ }
  { task with
    eng := { Engine.reset with primary := a, secondary := b }
    clusters := (Bank.fill cl).write 0 { cl with p := cl.p.write 2 true } }
def kern (r : KernelRun) : State := onCore (engineCore (some r) none)

theorem issues_kern (r : KernelRun) (hl : r.live = true) (hc : r.Clear) : (kern r).Issues r := ⟨rfl, rfl, rfl, rfl, hl, hc⟩

theorem clear_of (r : KernelRun) (h : r.inflight = []) (h' : r.far = []) : r.Clear := by constructor <;> simp [h, h']
theorem clear_run0 : run0.Clear := clear_of _ rfl rfl

theorem witness_Issues : (kern run0).Issues run0 := issues_kern _ rfl clear_run0

/-- A plain operation, a landing count that is met, and a lock on banks that none owes. -/
theorem witness_SlotOperationsIssue :
    (∃ x, slotScalarI (· + ·) 1 (.short 5) ((kern run0).slotCtx run0 (inSlot .B)) = .ok x ∧ (x.wait.isNone && x.ctl.isEmpty) = true) ∧
    (∃ x, slotLwait 0 ((kern run0).slotCtx run0 (inSlot .A)) = .ok x ∧ (x.wait == some 0) = true) ∧
    (∀ c, outstanding (kern run0).cur run0 c ≤ 0) ∧
    (∃ x, slotLock 1 1 ((kern run0).slotCtx run0 (inSlot .A)) = .ok x ∧ (x.ctl.length == 1) = true) ∧
    (kern run0).cur.eng.owed = [] :=
  ⟨ok_of (fun (x : Issue) => x.wait.isNone && x.ctl.isEmpty) (by decide +kernel), ok_of (fun (x : Issue) => x.wait == some 0) (by decide +kernel),
    fun _ => Nat.le.refl, ok_of (fun (x : Issue) => x.ctl.length == 1) (by decide +kernel), rfl⟩

theorem quiet_kern (r : KernelRun) (h : r.far = []) : (kern r).quietFar r := by
  refine ⟨h, rfl, fun c m hm => ?_, nofun⟩
  have e : ((kern r).core c).remoteQ = [] := by
    by_cases e : (0 : CoreId) = c
    · subst e; rfl
    · have h : (kern r).core c = State.reset.core c := by unfold kern onCore; rw [State.core_setCore, if_neg e]
      rw [h]; unfold State.core State.reset; rw [Bank.read_fill]; rfl
  rw [e] at hm; cases hm

theorem witness_SlotFaultsEndKernel :
    (kern run0).quietFar run0 ∧ slotCld 8 1 3 0 ((kern run0).slotCtx run0 (inSlot .G)) = .error kCistern :=
  ⟨quiet_kern _ rfl, error_of _ (by decide +kernel)⟩

/-- Guard 0 is true in every cluster, guard 1 in none, guard 2 in cluster 0 alone. -/
theorem witness_guards :
    (∀ c, (kern run0).guardOn (inSlot .A) c) ∧ (∀ c, ¬(kern run0).guardOn ⟨.A, 1, none⟩ c) ∧
    (kern run0).guardOn ⟨.A, 2, none⟩ 0 ∧ ¬(kern run0).guardOn ⟨.A, 2, none⟩ 15 := by
  unfold State.guardOn; decide +kernel

/-- A core that runs one kernel, its clusters as given. -/
def withClusters (r : KernelRun) (cl : ClusterId → Cluster) : State :=
  onCore { task with eng := { Engine.reset with primary := some r }, clusters := Bank.ofFn cl }

/-- Registers of every tag that the clauses name: v1 and v2 I32, v3 IDX, v4 and v5 RAW32, v6 and v7 FP32; a1 the cluster's own number. -/
def vectors : State := withClusters run0 fun c =>
  { Cluster.reset with
    v := ([(1, 4), (2, 4), (3, 14), (4, 15), (5, 15), (6, 8), (7, 8)] : List (BitVec 5 × Tag)).foldl
      (fun b x => b.write x.1 ⟨Bank.fill 0, x.2⟩) (Bank.fill ⟨Bank.fill 0, 4⟩)
    a := (Bank.fill 0).write 1 (c.setWidth 64) }

theorem witness_VectorSlotResults :
    vectors.Issues run0 ∧ vectors.cur.tick.eng.rates = [] ∧ (inSlot .C).arrive = none ∧ ∀ c : ClusterId,
    let tag (x : BitVec 5) : Tag := ((vectors.cluster c).v.read (physV run0.rb x)).tag
    let other (c : ClusterId) : ClusterId := ((vectors.cluster c).a.read ((1 : BitVec 4).setWidth 5)).extractLsb' 0 4
    tagNarrow (tag 1) = true ∧ tag 1 ≠ 12 ∧ tag 1 = 4 ∧ tag 2 = 4 ∧ tag 3 = 14 ∧ tag 4 = 15 ∧ tag 5 = 15 ∧ tag 6 = 8 ∧ tag 7 = 8 ∧
    other c = c ∧ (6 : BitVec 3).toNat ≤ 6 :=
  ⟨⟨rfl, rfl, rfl, rfl, rfl, clear_run0⟩, rfl, rfl, by decide +kernel⟩

/-- Tile 1 in FP8 with a B of that class, tile 2 and another B in B4 whose scales are all 0, tile 3 in U8, a transposer that holds FP8, a
bound that is not a number; v1 in FP8. -/
def tiled (b : Tag) : Cluster :=
  { Cluster.reset with
    v := (Bank.fill ⟨Bank.fill 0, 8⟩).write 1 ⟨Bank.fill 0, 10⟩
    t := ((Bank.fill TReg.reset).write 1 { TReg.reset with tag := 10 }).write 2 { TReg.reset with tag := 12 }
      |>.write 3 { TReg.reset with tag := 2 }
    resident := Bank.fill ⟨0, 0, b⟩
    tr := { Transposer.reset with tag := 10, wp := 5 }
    tb := { Bound.reset with nan := true } }
def tiles (b : Tag) : State := withClusters run0 fun _ => tiled b
theorem cluster_tiles (b : Tag) (c : ClusterId) : (tiles b).cluster c = tiled b := Bank.read_ofFn _ _

theorem witness_ConfigSlotResults :
    let src (t : BitVec 3) : MatSrc := ⟨0, false, t ++ (0 : BitVec 4)⟩
    (tiles 10).Issues run0 ∧ (src 1).kind = 0 ∧ retagGroup true 11 ≠ 0 ∧ retagGroup false 11 ≠ 0 ∧ tagPair (tagOf 6) = false ∧
    tagNarrow (tagOf 10) = true ∧ (rowIndex Cluster.reset 62 false ≠ 63 ∧ rowIndex Cluster.reset 63 false = 63) ∧ ∀ c : ClusterId,
    let k := (tiles 10).cluster c
    let m := (tiles 12).cluster c
    k.tb.nan = true ∧ retagGroup true (k.t.read ((1 : BitVec 5).extractLsb' 0 3)).tag = retagGroup true 11 ∧
    (tagNarrow (k.v.read (physV run0.rb 1)).tag = true ∧ retagGroup false (k.v.read (physV run0.rb 1)).tag = retagGroup false 11) ∧
    (k.t.read ((src 1).low.extractLsb' 4 3)).tag = tagOf 10 ∧ (∀ j, matClass (k.resident.read j).tag = matClass (tagOf 10)) ∧
    ((m.t.read ((src 2).low.extractLsb' 4 3)).tag = 12 ∧ allInt ((m.t.read 2).scales.read 0) = true ∧
      ∀ j, (m.resident.read j).tag = 12 ∧ allInt (m.resident.read j).scales = true) ∧
    ((k.v.read (physV run0.rb 1)).tag = tagOf 10 ∧ k.tr.tag = tagOf 10) ∧
    (tagNarrow k.tr.tag = true ∧ (3 : BitVec 2).toNat < 32 / tagWidth k.tr.tag) ∧ (tagValid k.tr.tag = true ∧ tagWidth k.tr.tag = 8) :=
  ⟨⟨rfl, rfl, rfl, rfl, rfl, clear_run0⟩, rfl, by decide, by decide, by decide, by decide, by decide +kernel, fun c => by
    rw [cluster_tiles, cluster_tiles]
    decide +kernel⟩

theorem witness_ConfigSlotResults_wide (g : BitVec 2) :
    (tiles (wideTag g)).Issues run0 ∧ ∀ c : ClusterId,
    let k := (tiles (wideTag g)).cluster c
    (k.t.read 3).tag = 2 ∧ ∀ j, matClass (k.resident.read j).tag = matClass (wideTag g) :=
  ⟨⟨rfl, rfl, rfl, rfl, rfl, clear_run0⟩, fun c => by
    rw [cluster_tiles]
    exact ⟨rfl, fun j => by simp [tiled]⟩⟩

/-- Handle 1 (an input) and handle 2 (an output) cover a row of every bank. -/
def withHandles (r : KernelRun) : State :=
  onCore { engineCore (some r) none with
    handles := ((Bank.fill none).write 1 (some ⟨0, 96, 0, 1, 0x20000, 0x30000⟩)).write 2 (some ⟨0, 96, 1, 1, 0x20000, 0x30000⟩) }

theorem witness_CisternSlotResults :
    (withHandles run0).Issues run0 ∧ (withHandles run0).cur.handles.read 1 = some ⟨0, 96, 0, 1, 0x20000, 0x30000⟩ ∧ 1 ∈ run0.ins ∧
    (∀ c : ClusterId, let v := homeView ⟨0, 96, 0, 1, 0x20000, 0x30000⟩ c
      let off := 256 * nearRow ((withHandles run0).cluster c) 0
      v.holds off 256 = true ∧ anyPoison (withHandles run0).cur.cisPoison (v.units off 256) = false) ∧
    (withHandles run0).cur.handles.read 2 = some ⟨0, 96, 1, 1, 0x20000, 0x30000⟩ ∧ 2 ∈ run0.outs ∧ 1 + 1 ≤ Config.bankRows :=
  ⟨⟨rfl, rfl, rfl, rfl, rfl, clear_run0⟩, rfl, by decide, by decide +kernel, rfl, by decide, by decide⟩

/-- CST: what every cluster reads and where it goes. -/
theorem witness_CisternSlotResults_store :
    (∀ c, ∃ v, readVec ((withHandles run0).cluster c) run0.rb (fun _ => true) 1 = .ok v ∧ (v.tag == 8) = true) ∧
    ∀ c, (homeView ⟨0, 96, 1, 1, 0x20000, 0x30000⟩ c).holds (rowBytes 8 * nearRow ((withHandles run0).cluster c) 0) (rowBytes 8) =
      true := by
  refine ⟨fun c => ok_of (fun (v : VOp) => v.tag == 8) ?_, ?_⟩
  · revert c; decide +kernel
  · decide +kernel

/-- CLD.U and CLD.FAR at the last byte of a handle, CST.M with its mask, the atomics on a handle that is an input and an output, for this
core and for core 1 of its die. -/
def farKernel : State :=
  let r : KernelRun := { run0 with outs := [1] }
  let k := (withClusters r fun _ => { Cluster.reset with
    v := (Bank.fill ⟨Bank.fill 0, 8⟩).write 1 ⟨Bank.fill 0, 4⟩
    a := (Bank.fill 0).write 1 0x8100000000000000 }).cur
  onCore { k with handles := (Bank.fill none).write 1 (some ⟨0, 96, 0, 4, 0x20000, 0x30000⟩) }

theorem witness_CisternSlotResults_far :
    let r : KernelRun := { run0 with outs := [1] }
    let al : Alloc := ⟨0, 96, 0, 4, 0x20000, 0x30000⟩
    let near : Ext := ⟨false, 1, 1, 63⟩
    let away : Ext := ⟨true, 1, 1, 64⟩
    farKernel.Issues r ∧ farKernel.cur.handles.read 1 = some al ∧ 1 ∈ r.ins ∧ 1 ∈ r.outs ∧ farKernel.cur.cisPoison = [] ∧
    atomTag 0 4 = true ∧ ∀ c : ClusterId,
    let k := farKernel.cluster c
    let a := k.a.read (away.row.extractLsb' 0 5)
    (homeView al c).holds (256 * extRow k near + near.low.toNat) 256 = true ∧ (farView al).holds (256 * extRow k near) 256 = true ∧
    (homeView al c).holds (atomBytes 0 * extRow k near) (atomBytes 0) = true ∧
    (near.mode = false ∧ (farView al).holds (atomBytes 0 * near.row.toNat) (atomBytes 0) = true) ∧
    (away.mode = true ∧ a.getLsbD 63 = true ∧ a.extractLsb' 56 7 = 1 ∧ (1 : CoreId) ≠ farKernel.active ∧
      1 ∈ farKernel.peers farKernel.active ∧ dieOf 1 = dieOf farKernel.active) :=
  ⟨⟨rfl, rfl, rfl, rfl, rfl, clear_of _ rfl rfl⟩, rfl, by decide, by decide, rfl, by decide, by decide +kernel⟩

/-- Core 0 holds no remote atomic and none of its own is out; one of cluster 3 is. -/
theorem witness_CisternSlotResults_remote :
    let m : RemoteAtomic := ⟨0, 1, .primary, 3, 20, 1, 0, 0, Bank.fill 0, Bank.fill 0, 4⟩
    let f : FarReq := ⟨0, 3, 20, .atomic 0 (Bank.fill 0) (Bank.fill 0), false, ⟨0, 96, 0, 1, 0x20000, 0x30000⟩, 0, 4, 8, none, .remote⟩
    let s : State := farKernel.modCore 1 fun k => { k with remoteQ := [m] }
    farKernel.cur.heldRemotes = [] ∧ farKernel.remotesOut farKernel.active = [] ∧ s.remotesOut s.active = [m] ∧ m.pos = .primary ∧
    m.cluster = 3 ∧ [f].any (FarReq.answers m) = true := by decide +kernel

/-- R237: what retires at its issue arrives then, here the second of two that close barrier 1; what retires later does not. -/
theorem test_arriveNow :
    let k : CoreSt := { task with kb := (Bank.fill 0).write 1 0x100000002 }
    let e (lat : Nat) : Eff := { lat := lat, cluster := 3, what := .nothing, arrive := some 1 }
    (k.arriveNow .primary [e 0, e 4]).kb.read 1 = 0x1000000000002 ∧ (k.arriveNow .primary [e 4]).kb.read 1 = 0x100000002 := by
  decide +kernel

/-- What CST.M's mask and the atomics' operands read as. -/
theorem witness_CisternSlotResults_operands :
    ∀ c, (∃ v, readVec (farKernel.cluster c) run0.rb (fun t => t == 15 || t == 4) 1 = .ok v ∧ (v.tag == 4) = true) ∧
      ∃ v, readVec (farKernel.cluster c) run0.rb (atomTag 0) 1 = .ok v ∧ (v.tag == 4) = true := by
  intro c
  refine ⟨ok_of (fun (v : VOp) => v.tag == 4) ?_, ok_of (fun (v : VOp) => v.tag == 4) ?_⟩ <;> revert c <;> decide +kernel

/-- A request that waits, due at kc 20, from cluster 3. -/
def oneFar : FarReq := ⟨0, 3, 20, .load, false, ⟨0, 96, 0, 1, 0x20000, 0x30000⟩, 0, 4, 8, none, .waiting⟩

theorem witness_SteeringResults :
    run0.loops = [] ∧ (2 : BitVec 7) ≠ 0 ∧ (5 : BitVec 3).toNat < 6 ∧ (∀ c, outstanding (kern run0).cur run0 c ≤ (0 : BitVec 4).toNat) ∧
    (let r := { run0 with far := [oneFar] }
     (kern r).Issues r ∧ (0 : BitVec 4).toNat < outstanding (kern r).cur r 3) ∧
    (∀ c, ((kern run0).cluster c).a.read 1 = 0) ∧ (∀ b ∈ lockBanks 0, b < Config.banks ∧ ∀ o ∈ (kern run0).cur.eng.owed, o.1 ≠ b) := by
  refine ⟨rfl, by decide, by decide, fun _ => Nat.le.refl, ⟨issues_kern _ rfl ⟨?_, ?_⟩, by decide +kernel⟩, by decide +kernel, by decide +kernel⟩
  · simp [run0]
  · intro f hf
    simp at hf; subst hf; decide

/-- Trip counts of 9 in a3. -/
theorem witness_SteeringResults_trip :
    let s := withClusters run0 fun _ => { Cluster.reset with a := (Bank.fill 0).write 3 9 }
    s.Issues run0 ∧ run0.loops = [] ∧ (∀ c, s.guardOn (inSlot .A) c) ∧ (∀ c, (s.cluster c).a.read 3 = 9) ∧ (9 : DWord) ≠ 0 ∧
    (9 : BitVec 6) ≠ 0 ∧ (5 : BitVec 3).toNat < 6 :=
  ⟨⟨rfl, rfl, rfl, rfl, rfl, clear_run0⟩, rfl, by unfold State.guardOn; decide +kernel, by decide +kernel, by decide, by decide, by decide⟩

/-- A body whose last bundle issues: another iteration follows, or none. -/
theorem witness_SteeringResults_loop (n : Nat) :
    let r : KernelRun := { run0 with idx := 1, loops := [⟨0, 1, 1, n, false, n, 0⟩] }
    (kern r).Issues r ∧ r.loops = [⟨0, 1, 1, n, false, n, 0⟩] ∧
    ((((kern r).cluster 0).lc.toList[(0 : BitVec 3).toNat]?).getD 0).toNat + 1 = 1 := ⟨⟨rfl, rfl, rfl, rfl, rfl, clear_of _ rfl rfl⟩, rfl, rfl⟩

theorem witness_EngineEvents_issue :
    let k := engineCore (some run0) none
    k.Issues run0 ∧ (run0.image.bundles[run0.idx]?).map decodeBundle = some (.ok [.sAddi (inSlot .B) 1 (.short 5)]) ∧
    bundleMatch k run0 = none ∧ run0.idx ∉ run0.image.corrupt ∧ run0.image.moveAt run0.idx = none ∧
    ∃ x, joinOps ((onCore k).slotCtxOn 0 run0) run0 [.sAddi (inSlot .B) 1 (.short 5)] = .ok x ∧
      (x.wait.isNone && x.ctl.isEmpty) = true := by
  refine ⟨⟨rfl, rfl, rfl, rfl, rfl, clear_run0⟩, by decide +kernel, by decide +kernel, by decide, rfl, ?_⟩
  exact ⟨_, rfl, by decide +kernel⟩

theorem witness_EngineEvents_fairness :
    let k : CoreSt := engineCore (some run0) (some run0)
    let k : CoreSt := { k with eng := { k.eng with blocked := 255 } }
    k.run .primary = some run0 ∧ run0.Clear ∧ k.run .secondary = some run0 ∧ run0.live = true ∧ k.eng.stopped = none ∧ k.halt = none ∧
    Config.fairness ≤ k.eng.blocked ∧ (match planRun k.tick .secondary 0 ((onCore k).peers 0) none with
      | .issue _ => true
      | _ => false) = true :=
  ⟨rfl, clear_run0, rfl, rfl, rfl, rfl, Nat.le.refl, by decide +kernel⟩

/-- A core's remote atomic at core 0, whose banks a LOCK there holds: it cannot perform yet (log 90). -/
def heldAtomic : State :=
  let m : RemoteAtomic := ⟨1, 0, .primary, 3, 20, 1, 0, 0, Bank.fill 0, Bank.fill 0, 4⟩
  let r : KernelRun := { run0 with far := [{ oneFar with phase := .remote, op := .atomic 0 (Bank.fill 0) (Bank.fill 0) }] }
  let s := withHandles { run0 with lock := some ⟨List.range 64, 1, 99⟩ }
  let s := { (s.setCore 1 (engineCore (some r) none)) with active := 0 }
  s.modCore 0 fun k => { k with remoteQ := [m], sys := true, g := regs [(1, 1)] }
theorem witness_farSettles :
    heldAtomic.farSettles 1 = false ∧ heldAtomic.snapTarget (heldAtomic.g 1) = some 0 ∧ ((heldAtomic.g 1).setWidth 7 : CoreId) = 1 ∧
    (kern run0).farSettles 0 = true ∧ (mapped task []).farSettles 0 = true := by decide +kernel

/-- Requests: one that waits, an atomic that waits, one served, one landed and due, a buffer with no entry left. -/
theorem witness_EngineEvents_requests :
    let far (f : FarReq) : KernelRun := { run0 with far := [f], kc := 20 }
    let k (f : FarReq) : CoreSt := engineCore (some (far f)) none
    let at_ (p : FarPhase) : FarReq := { oneFar with phase := p }
    let landed : FarReq := at_ (.landed (Bank.fill 0) false)
    let add : FarReq := { oneFar with op := .atomic 0 (Bank.fill 0) (Bank.fill 0) }
    (k oneFar).run .primary = some (far oneFar) ∧ (k oneFar).nextWaiting = some (.primary, oneFar) ∧ oneFar.op = .load ∧
    (k add).nextWaiting = some (.primary, add) ∧ oneFar.units.head? = some 0 ∧
    landedIn (k (at_ (.served (Bank.fill 0) false))) 3 < Config.landingBuf ∧
    Config.landingBuf ≤ landedIn (engineCore (some { run0 with far := at_ (.served (Bank.fill 0) false) :: List.replicate 16 landed }) none) 3 ∧
    (landed.due ≤ (far landed).kc ∧ landed.arrive = none ∧ tagPair landed.tag = false ∧ (far landed).inflight = []) := by
  refine ⟨rfl, ?_, rfl, ?_, ?_, ?_, ?_, ?_, rfl, ?_, rfl⟩ <;> decide +kernel

/-- Data at a full landing buffer, due and not due; a core none of whose requests waits; banks that are free, taken and locked. -/
theorem witness_EngineEvents_landing :
    let f : FarReq := { oneFar with phase := .served (Bank.fill 0) false }
    let landed : FarReq := { oneFar with phase := .landed (Bank.fill 0) false }
    let k (kc : Nat) : CoreSt := engineCore (some { run0 with kc := kc, far := f :: List.replicate 16 landed }) none
    Config.landingBuf ≤ landedIn (k 20) f.cluster ∧ (k 20).run .secondary = none ∧ f.due ≤ 20 ∧
    (∀ g ∈ f :: List.replicate 16 landed, g.cluster = f.cluster → 19 < g.due) ∧ (k 20).nextWaiting = none ∧
    0 < Config.banks * Config.bankRows ∧ (∀ b ∈ [0], b ∉ (k 20).lockedBanks ∧ b ∉ (k 20).aheadOf (.command 0)) ∧
    ∃ b ∈ (engineCore (some { run0 with far := [oneFar] }) none).farBanks,
      b ∈ (engineCore (some { run0 with far := [oneFar] }) none).aheadOf (.command 0) := by decide +kernel

/-- Results that are due: a scalar with an arrival at a barrier of count 1, of count 2, and without a count; a contribution. -/
theorem witness_EngineEvents_results :
    let f : InFlight := ⟨0, 1, 3, .scalar 4 7, some 1⟩
    let g : InFlight := ⟨0, 1, 3, .contribution 5 true (Bank.fill []) false, none⟩
    let r (f : InFlight) : KernelRun := { run0 with inflight := [f], kc := 1 }
    let k (n : DWord) : CoreSt := { engineCore (some (r f)) none with kb := (Bank.fill 0).write 1 n }
    (k 1).run .primary = some (r f) ∧ f.due ≤ (r f).kc ∧ isContribution f.what = false ∧ (k 1).afterOther .primary f = false ∧ (r f).far = [] ∧
    ((((k 2).kb.read 1).extractLsb' 32 16).toNat + 1 < (((k 2).kb.read 1).extractLsb' 0 16).toNat) ∧
    ((k 0).kb.read 1).extractLsb' 0 16 = 0 ∧
    (((k 1).kb.read 1).extractLsb' 0 16).toNat = (((k 1).kb.read 1).extractLsb' 32 16).toNat + 1 ∧
    (engineCore (some (r g)) none).run .primary = some (r g) ∧ g.due ≤ (r g).kc := by
  refine ⟨rfl, ?_, rfl, ?_, rfl, ?_, ?_, ?_, rfl, ?_⟩ <;> decide +kernel

/-- A remote atomic of core 1 that has come to core 0, with the request that waits for its answer. -/
theorem witness_EngineEvents_remote :
    let m : RemoteAtomic := ⟨1, 0, .primary, 3, 20, 1, 0, 0, Bank.fill 0, Bank.fill 0, 4⟩
    let f : FarReq := { oneFar with phase := .remote, op := .atomic 0 (Bank.fill 0) (Bank.fill 0) }
    let r : KernelRun := { run0 with far := [f] }
    let s : State := { ({ withHandles run0 with cores := (withHandles run0).cores.write 1 (engineCore (some r) none) } : State) with
      active := 0 }
    let s := s.modCore 0 fun k => { k with remoteQ := [m] }
    (s.core 0).remoteQ = [m] ∧ m.target = 0 ∧ m.src ≠ 0 ∧ (s.core 0).lockedBanks = [] ∧ (s.core 0).farBanks = [] ∧ (s.core 0).eng.waiting = [] ∧
    (∃ a, (s.core 0).handles.read m.handle = some a ∧ (farView a).holds (atomBytes m.kind * m.row) (atomBytes m.kind) = true) ∧
    (s.core m.src).run m.pos = some r ∧ FarReq.answers m f = true ∧ (s.core m.src).heldRemotes = [] := by
  refine ⟨rfl, rfl, by decide, rfl, rfl, rfl, ⟨_, rfl, by decide +kernel⟩, rfl, by decide +kernel, rfl⟩

/-- Core 1 holds one behind it, of the same cluster, to core 2. -/
theorem witness_EngineEvents_held :
    let m : RemoteAtomic := ⟨1, 0, .primary, 3, 20, 1, 0, 0, Bank.fill 0, Bank.fill 0, 4⟩
    let n : RemoteAtomic := { m with target := 2, due := 21 }
    let s : State := ((onCore task).modCore 0 fun k => { k with remoteQ := [m] }).modCore 1 fun k => { k with heldRemotes := [n] }
    (s.core 0).remoteQ = [m] ∧ (s.core 0).lockedBanks = [] ∧ (s.core 0).farBanks = [] ∧ (s.core 0).eng.waiting = [] ∧
    (s.core 1).heldRemotes = [n] ∧ dieOf 1 = dieOf 2 ∧ (∀ d, d ≠ 0 → ∀ y ∈ (s.core d).remoteQ, y.src ≠ 1) ∧ s.meshMsgs = [] := by
  decide +kernel

/-- A hold of an ended kernel, before and after its 64 cc. -/
theorem witness_EngineEvents_left :
    let l : LockHold := ⟨[0], 3, 64⟩
    let r : KernelRun := { run0 with lock := some l }
    let k : CoreSt := engineCore (some r) none
    k.run .primary = some r ∧ k.eng.clock ≤ l.ends ∧ ¬({ k.eng with clock := 65 } : Engine).clock ≤ l.ends := by decide +kernel

/-- A kernel that has ended in each way, with its command in the table. -/
theorem witness_EngineEvents_end (e : KEnd) :
    let r : KernelRun := { run0 with ending := some e }
    let x : Cmd := cmdOf (.kernel cmdHdr 5 0 1 2 0 0 3 2 0) .active 0 0
    let k : CoreSt := { engineCore (some r) none with table := [x] }
    k.run .primary = some r ∧ k.eng.stopped = none ∧ r.drained = true ∧ r.arrivals = [] ∧ r.merge = none ∧ r.overflow = false ∧
    k.cmd r.entry = some x := ⟨rfl, rfl, rfl, rfl, rfl, rfl, rfl⟩

/-! ### Witnesses: commands in service -/

def oneShape : Shape :=
  ⟨0, 0, 1, 0, 4, Vector.replicate 6 1, Vector.replicate 6 4, 0, 0⟩
/-- A command at its first element of four, with its shape, at 0x6000 in memory. -/
def serving (i : Instr) : Cmd := { cmdOf i .active 4 0 with shape := some oneShape, counts := [4], addr1 := 0x6000 }
def servingCore (i : Instr) : CoreSt :=
  { task with
    engTlb := [flat], table := [serving i]
    handles := ((Bank.fill none).write 1 (some ⟨0, 96, 0, 1, 0x20000, 0x30000⟩)).write 2 (some ⟨0, 96, 1, 1, 0x20000, 0x30000⟩) }

/-- Commands that can issue: one that frees a handle it holds, one that signals to the limit of its semaphore, one that names no
kernel. -/
theorem witness_CommandEvents_issue :
    let h : CmdHdr := { cmdHdr with signalSm := 3, increment := 255 }
    let x (i : Instr) : Cmd := cmdOf i .waiting 0 0
    let k (i : Instr) : CoreSt := { servingCore i with table := [x i], sem := (Bank.fill 0).write 3 65280 }
    (k (.sfree cmdHdr 1)).cmd 0 = some (x (.sfree cmdHdr 1)) ∧ (k (.sfree cmdHdr 1)).swapHalted = false ∧
    canIssue (k (.sfree cmdHdr 1)) (x (.sfree cmdHdr 1)) = true ∧
    ((k (.sfree cmdHdr 1)).handles.read 1).map Alloc.holder = some (x (.sfree cmdHdr 1)).task ∧
    (cmdHdr.cnt && misaligned (x (.sfree cmdHdr 1)).ctr 8) = false ∧
    canIssue (k (.smark h 0)) (x (.smark h 0)) = true ∧
    ((k (.smark h 0)).sem.read h.signalSm).toNat + h.increment.toNat ≤ 65535 ∧ h.waitSm = 0 ∧ h.cnt = false ∧
    canIssue (k (.collAllred cmdHdr 0 0 0 0 0)) (x (.collAllred cmdHdr 0 0 0 0 0)) = true ∧
    canIssue (k (.kswap cmdHdr 9 0 0)) (x (.kswap cmdHdr 9 0 0)) = true ∧ (k (.kswap cmdHdr 9 0 0)).imageOf 9 = none := by
  decide +kernel

/-- Commands whose checks at issue fail: a load without its shape, a kernel that no image is bound to. -/
theorem witness_CommandEvents_fails :
    ∀ i ∈ ([.sload cmdHdr 0 4 false 0 1 5 0, .kernel cmdHdr 5 0 1 2 0 0 1 2 0] : List Instr),
      let x : Cmd := cmdOf i .waiting 0 0
      let k : CoreSt := { servingCore i with table := [x] }
      let s := onCore k
      canIssue k x = true ∧ k.cmd 0 = some x ∧ (collArgs x.op).isSome = false ∧ ((s.consume 0 x).begin 0 x).isNone = true := by decide +kernel

theorem witness_CommandEvents_elements :
    let salloc : Instr := .salloc cmdHdr 1 0 96 0 1
    let sstore : Instr := .sstore cmdHdr 4 false 0 1 0 0
    let sscadd : Instr := .sscadd cmdHdr 4 1 0 1 0 2 0
    let x := serving sscadd
    let k := servingCore sscadd
    ((serving salloc).phase = .active ∧ (serving salloc).pos < (serving salloc).total ∧ (servingCore salloc).lockedBanks = [] ∧
      (servingCore salloc).eng.owed = [] ∧ (servingCore salloc).aheadOf (.command 0) = [] ∧ (servingCore salloc).eng.waiting = [] ∧
      (servingCore salloc).cmd 0 = some (serving salloc)) ∧
    (oneShape.pieces 4 false 0x6000 (elemAddr (servingCore sstore) (serving sstore) oneShape 0) = [(0x6000, 4)] ∧
      ((servingCore sstore).readSpots ⟨0, 96, 0, 1, 0x20000, 0x30000⟩ (oneShape.spots 4 0)).1.length = 4) ∧
    (indexAddr k x oneShape ⟨0, 96, 1, 1, 0x20000, 0x30000⟩ 0 = some 0x6000 ∧
      addsHere k x oneShape ⟨0, 96, 1, 1, 0x20000, 0x30000⟩ = true ∧ (pumpArgs sscadd).isSome = true) ∧
    (onCore k).tagged 0x6000 = false ∧ inDevice 0x6000 4 = true := by decide +kernel

/-- What a command reads is all in the device; what it writes is one place, in the device and not live. -/
theorem reads_of {s : State} {x : Cmd} {ps : List (DWord × Nat)}
    (h : (match s.probe 0 x ps with | .ok qs => (qs.filterMap Piece.asks).isEmpty | .error _ => false) = true) :
    ∃ qs, s.probe 0 x ps = .ok qs ∧ qs.filterMap Piece.asks = [] := by
  cases e : s.probe 0 x ps with
  | error _ => rw [e] at h; cases h
  | ok qs => rw [e] at h; exact ⟨qs, rfl, List.isEmpty_iff.1 h⟩

theorem places_of {s : State} {x : Cmd} {ps : List (DWord × Nat)}
    (h : (match s.places 0 x ps with | .ok ([(pa, n)], u) => !u.tagged pa && inDevice pa n | _ => false) = true) :
    ∃ pa n u, s.places 0 x ps = .ok ([(pa, n)], u) ∧ u.tagged pa = false ∧ inDevice pa n = true := by
  split at h
  · rename_i pa n u e
    simp only [Bool.and_eq_true, Bool.not_eq_true'] at h
    exact ⟨pa, n, u, e, h⟩
  · cases h

/-- Commands at their first element; handle 3 is a second output. -/
def elements (i : Instr) (cells : List Host.Cell) : State :=
  let k := servingCore i
  { onCore { k with handles := k.handles.write 3 (some ⟨0, 96, 2, 1, 0x20000, 0x30000⟩) } with mem := ⟨cells⟩ }

theorem witness_CommandEvents_place :
    let put : Instr := .sstore cmdHdr 4 false 0 1 0 0
    let copy : Instr := .scopy cmdHdr 0 0 0
    let x := serving put
    (∃ pa n u, (elements put []).places 0 x (oneShape.pieces 4 false x.addr1 (elemAddr (servingCore put) x oneShape 0)) =
        .ok ([(pa, n)], u) ∧ u.tagged pa = false ∧ inDevice pa n = true) ∧
    (∃ pa n u, (elements copy []).places 0 (serving copy) (pieces (0x6000 : DWord) 3 4) = .ok ([(pa, n)], u) ∧
      u.tagged pa = false ∧ inDevice pa n = true) ∧
    ∃ qs, (elements copy []).probe 0 (serving copy) (pieces (0 : DWord) 3 4) = .ok qs ∧ qs.filterMap Piece.asks = [] :=
  ⟨places_of (by decide +kernel), places_of (by decide +kernel), reads_of (by decide +kernel)⟩

/-- SHAPE: a record that R315 takes, of elements of one byte, and one of zeros, which it does not. -/
theorem witness_CommandEvents_shape :
    let i : Instr := .shape cmdHdr 0 1 0
    let s (n : Byte) : State := elements i (if n = 0 then [] else [(0x6000, n)])
    let x := serving i
    let taken (n : Byte) : Bool := match (s n).probe 0 x (pieces x.addr1 2 64) with
      | .ok qs => let bs := (pieceBytes qs).map (·.1)
        (readShape bs).ok (wordAt bs 0) && !(pieceBytes qs).any (·.2)
      | .error _ => false
    x.asked = [] ∧ (∃ qs, (s 1).probe 0 x (pieces x.addr1 2 64) = .ok qs ∧ qs.filterMap Piece.asks = []) ∧
    taken 1 = true ∧ taken 0 = false := ⟨rfl, reads_of (by decide +kernel), by decide +kernel, by decide +kernel⟩

/-- SLOAD; SGATHER and SSCATTER at an index, and at the sentinel. -/
theorem witness_CommandEvents_gather :
    let load : Instr := .sload cmdHdr 0 4 false 0 2 0 0
    let gather : Instr := .sgather cmdHdr 4 0 2 0 1 0
    let scatter : Instr := .sscatter cmdHdr 4 0 1 0 2 0
    let x := serving gather
    let k := (elements gather []).core 0
    let a : Alloc := ⟨0, 96, 0, 1, 0x20000, 0x30000⟩
    let b : Alloc := ⟨0, 96, 1, 1, 0x20000, 0x30000⟩
    let sentinel : CoreSt := { k with cistern := (List.range 4).foldl (fun m j => m.writeByte (64 * (farView a).unit 1 + j) 0xFF) ⟨[]⟩ }
    (∃ qs, (elements load []).probe 0 (serving load) (oneShape.pieces 4 false 0x6000 (elemAddr k (serving load) oneShape 0)) = .ok qs ∧
      qs.filterMap Piece.asks = []) ∧
    (∃ qs, (elements gather []).probe 0 x (oneShape.pieces 4 false x.addr1 0x6000) = .ok qs ∧ qs.filterMap Piece.asks = []) ∧
    (∃ pa n u, (elements scatter []).places 0 (serving scatter) (oneShape.pieces 4 false (serving scatter).addr1 0x6000) =
      .ok ([(pa, n)], u) ∧ u.tagged pa = false ∧ inDevice pa n = true) ∧
    (x.shape = some oneShape ∧ k.handles.read 1 = some a ∧ k.handles.read 2 = some b ∧ indexBad k x a 0 = false ∧
      indexAddr k x oneShape a 0 = some 0x6000 ∧ misaligned 0x6000 (min oneShape.esize.toNat 8) = false ∧
      (∀ m ∈ sharing k x oneShape a 0, 0 ≤ m) ∧ indexAddr sentinel x oneShape a 0 = none ∧ indexBad sentinel x a 0 = false) ∧
    (let y := serving scatter
     let k := (elements scatter []).core 0
     indexBad k y b 3 = false ∧ indexAddr k y oneShape b 0 = some 0x6000 ∧
      (k.readSpots a (oneShape.spots 4 0)).1.length = 4 ∧ sharing k { y with total := 1 } oneShape b 0 = [0]) :=
  ⟨reads_of (by decide +kernel), reads_of (by decide +kernel), places_of (by decide +kernel), by decide +kernel, by decide +kernel⟩

/-- SCAN; KSWAP before its entry and with all of an image of one empty bundle. -/
theorem witness_CommandEvents_scan :
    let scan : Instr := .scan cmdHdr 4 false false 1 2 0 3 0
    let k := (elements scan []).core 0
    let swap : Instr := .kswap cmdHdr 5 0 0
    let x : Cmd := { serving swap with shape := none }
    let got : List Byte := [64, 0, 0, 0, 1] ++ List.replicate 91 0
    let e := readEntry (got.take 64)
    (serving scan).shape = some oneShape ∧ k.handles.read 1 = some ⟨0, 96, 0, 1, 0x20000, 0x30000⟩ ∧
    k.handles.read 2 = some ⟨0, 96, 1, 1, 0x20000, 0x30000⟩ ∧ k.handles.read 3 = some ⟨0, 96, 2, 1, 0x20000, 0x30000⟩ ∧ k.cisPoison = [] ∧
    x.buffer.length < 64 ∧ x.shape = none ∧ (64 ≤ got.length ∧ e.start = 64 ∧ e.count ≠ 0 ∧ e.count ≤ Config.kstore ∧ imageNeed got = 0 ∧
      (loadKernel e.frazin e (got.drop 64)).isSome = true) ∧ (elements swap []).swapPending 0 5 = false ∧
    (onCore { k with storePending := [(5, oneBundle)] }).swapPending 0 5 = true := by decide +kernel
theorem witness_CommandEvents_swap :
    let swap : Instr := .kswap cmdHdr 5 0 0
    let x : Cmd := { serving swap with shape := none }
    ∃ qs, (elements swap []).probe 0 x (pieces (x.addr1 + BitVec.ofNat 64 x.buffer.length) 3 64) = .ok qs ∧ qs.filterMap Piece.asks = [] :=
  reads_of (by decide +kernel)

/-- COLL.ALLRED of a group whose only member is this core: before its contribution, and when every member has given its own. -/
theorem witness_CommandEvents_collective :
    let i : Instr := .collAllred cmdHdr 0 0 0 0 0
    let s : State := { elements i groupCells with agenda := [] }
    let s := s.modPart 0 fun y => { y with cgroup := 0x8000 }
    let x := { serving i with rank := some 0 }
    let n := product oneShape.recordCounts
    let st : CollSt := ⟨0, 0, 0, 0, 0, n, 4, 1, [(0, List.replicate n (0, false))], false, false⟩
    let u : State := { s with colls := [st] }
    collArgs x.op = some (0, 0, 0) ∧ x.shape = some oneShape ∧ s.partOf 0 = some 0 ∧ s.group 0 0 = some [(0, 0)] ∧
    x.rank = some 0 ∧ (∀ m ∈ ([(0, 0)] : List Member), m.1 = s.devid ∧ s.partOf m.2 = some 0) ∧ s.coll 0 0 x.seq = none ∧
    x.pos = 0 ∧ (match s.probe 0 x (bufferPieces (s.core 0) x oneShape (givenBy 0 n 1 0)) with
      | .ok qs => (qs.filterMap Piece.asks).isEmpty
      | .error _ => false) = true ∧
    u.coll 0 0 x.seq = some st ∧ st.members ≤ st.given.length ∧
    (match u.writeElems 0 x oneShape (st.results u.tick 0) with
      | .ok _ => true
      | .error _ => false) = true := by
  refine ⟨?_, ?_, ?_, ?_, ?_, fun m hm => ?_, ?_, ?_, ?_, ?_, ?_, ?_⟩
  case refine_6 => obtain rfl := List.mem_singleton.1 hm; exact ⟨rfl, rfl⟩
  all_goals decide +kernel

/-- A collective that can begin; an image that does not fit beside the one that a kernel of its handle runs. -/
theorem witness_CommandEvents_begin :
    let i : Instr := .collAllred cmdHdr 0 1 0 0 0
    let x : Cmd := cmdOf i .waiting 0 0
    let k : CoreSt := { (elements i groupCells).core 0 with table := [x], shapes := (Bank.fill none).write 0 (some oneShape) }
    let s : State := ((elements i groupCells).setCore 0 k).modPart 0 fun y => { y with cgroup := 0x8000 }
    let r : KernelRun := { run0 with image := { run0.image with bundles := List.replicate 4096 0 } }
    collArgs x.op = some (0, 1, 0) ∧ s.partOf 0 = some 0 ∧ s.group 0 0 = some [(0, 0)] ∧ ((s.consume 0 x).beginColl 0 x).isSome = true ∧
    Config.kstore < r.image.bundles.length + oneBundle.bundles.length ∧ r.image.bundles ≠ oneBundle.bundles := by decide +kernel

/-- A kernel of one bundle that can start, on a free engine and beside one that holds none of its registers. -/
theorem witness_CommandEvents_kernel :
    let i : Instr := .kernel cmdHdr 5 0 1 2 0 0 1 2 0
    let x : Cmd := cmdOf i .waiting 0 0
    let k : CoreSt := { servingCore i with
      table := [x], shapes := (Bank.fill none).write 0 (some oneShape), store := [(5, oneBundle)] }
    let both : CoreSt := { k with eng := { k.eng with primary := some run0 } }
    k.cmd 0 = some x ∧ k.shapes.read 0 = some oneShape ∧ oneShape.dyn = 0 ∧ kernelCheck k x oneShape = true ∧ k.imageOf 5 = some oneBundle ∧
    oneBundle.spill = 0 ∧ kernelSeat k x = some .primary ∧ canIssue k x = true ∧ acquires cmdHdr.order = false ∧
    kernelCheck both x oneShape = true ∧ kernelSeat both x = some .secondary ∧ canIssue both x = true ∧ k.halt = none := by decide +kernel

/-- Completion, the timeout of a held task, and the host's answers. -/
theorem witness_CommandEvents_end :
    let x : Cmd := { cmdOf (.smark { cmdHdr with signalSm := 3, increment := 1 } 0) .moved 0 0 with cause := 9 }
    let y : Cmd := cmdOf (.smark cmdHdr 0) .waiting 0 0
    let k : CoreSt := { task with table := [x], sem := (Bank.fill 0).write 3 65534 }
    let held : CoreSt := { task with table := [y], hold := some 0 }
    x.phase = .moved ∧ (onCore k).swapHeld 0 x = true ∧ x.hdr.cnt = false ∧
    (k.sem.read x.hdr.signalSm).toNat + x.hdr.increment.toNat ≤ 65535 ∧ k.notifs.length < Config.notifications ∧
    held.hold = some 0 ∧ held.cmd 0 = some y ∧ y.phase = .waiting ∧ held.running = some 0x20000 ∧ held.sys = false ∧
    (onCore held).partOf 0 = some 0 ∧ (onCore held).linkOf .host = freshLink .host ∧ (freshLink .host).retired = false ∧
    (let w : Cmd := { cmdOf (.sload cmdHdr 0 4 false 0 1 0 0) .hostWait 1 0 with asked := [.host 5 8] }
     w.phase = .hostWait ∧ w.asked.filterMap Piece.asks = [(5, 8)] ∧ w.asked = [.host 5 (List.replicate 8 (0 : Byte)).length]) ∧
    ({ task with hostHold := some ⟨5, 8, 1, 5⟩ } : CoreSt).hostHold = some ⟨5, 8, 1, 5⟩ ∧ task.sys = false ∧ task.tvec ≠ 0 := by
  decide +kernel

/-! ### Witnesses: tasks, teams and launches -/

/-- An idle core of a team with a record in its queue; the record's word 0 as given. -/
def idleTeam (word0 : List Host.Cell) : State :=
  { mapped { task with running := none, bound := some ⟨0, 0x30000, 0, 0⟩ } word0 with teams := [{ oneTeam with ready := [0x20000] }] }

theorem witness_TaskEvents_pickup :
    let t : Team := { oneTeam with ready := [0x20000] }
    let s := idleTeam [(0x20006, 1)]
    let u (s : State) : State := s.modTeam (Team.is t.part t.launch t.index) fun t => { t with ready := t.ready.erase 0x20000 }
    s.partOf 0 = some 0 ∧ s.teamOf 0 = some t ∧ s.idles 0 = true ∧ s.yields 0 0 t 0x20000 = false ∧ s.firstEligible 0 0 t.ready = some 0x20000 ∧
    (s.core 0).widthsOf ≠ some (t.part, t.launch) ∧ (u s).recordBad 0 0x20000 = false ∧ (u s).poisonedIn 0 t.launch.toNat 64 = false ∧
    (u s).taskState 0 0x20000 = 1 ∧ (u (idleTeam [(0x20007, 0x80)])).recordBad 0 0x20000 = true ∧
    (u { s with poison := [0xC00] }).poisonedIn 0 t.launch.toNat 64 = true := by decide +kernel

/-- A second idle core of the team, whose number is higher, leaves the record to the first. -/
theorem witness_TaskEvents_yields :
    let t : Team := { oneTeam with ready := [0x20000], bound := [0, 1], size := 2 }
    let k : CoreSt := { task with running := none, bound := some ⟨0, 0x30000, 0, 0⟩ }
    let s : State := { (mapped k [(0x20006, 1)]).setCore 1 { k with bound := some ⟨0, 0x30000, 0, 1⟩ } with teams := [t] }
    s.partOf 1 = some 0 ∧ s.teamOf 1 = some t ∧ s.idles 1 = true ∧ s.firstEligible 0 1 t.ready = some 0x20000 ∧
    s.yields 0 1 t 0x20000 = true := by decide +kernel

/-- A word that is watched and changed: its condition holds, and does not. -/
theorem witness_TaskEvents_reread :
    let m (cmp : DWord) : Monitor := ⟨0x20000, 0x5000, 0x5000, 2, cmp, false, true⟩
    let s := inTeam { task with running := none, monitors := [m 5], sweep := [m 6] } [(0x5000, 5)]
    s.partOf 0 = some 0 ∧ isHost 0x5000 = false ∧ s.poisoned 0x5000 8 = false ∧
    (s.core 0).monitors[(0 : BitVec 6).toNat]? = some (m 5) ∧ (m 5).dirty = true ∧ (s.core 0).sweep = [m 6] ∧
    meets 2 (s.read64 0x5000) 5 = true ∧ meets 2 (s.read64 0x5000) 6 = false ∧ s.teamWith 0 0x20000 = some oneTeam := by
  decide +kernel
theorem witness_TaskEvents_reread_place :
    let s := inTeam { task with running := none } [(0x5000, 5)]
    s.resolve 0 false 0x5000 .load = .ok (0x5000, s) := rfl

/-- A task at 0x20000 with one child at 0x22000, whose record has a state; parent and sibling words as given. -/
def family (state : Byte) : State :=
  let t : Team := { oneTeam with tasks := [⟨0x20000, 0, 0, 0, 0, [], false, [], false⟩, ⟨0x22000, 0, 0, 0, 0, [], false, [], false⟩] }
  { mapped task [(0x20006, 3), (0x20011, 0x10), (0x20012, 0x02), (0x2001F, 0x60), (0x21101, 0x20), (0x21102, 0x02), (0x21108, 1), (0x22006, state),
      (0x22007, 0x08),
      (0x22011, 0x30), (0x22012, 0x02), (0x2202A, 0x02)] with teams := [t] }

theorem witness_TaskEvents_merge :
    (∀ st ∈ ([4, 7] : List Byte), let s := family st
      (s.taskInfo 0 0x22000).isSome = true ∧ (s.teams.filter (Team.holds 0 0x22000)).length ≤ 1 ∧ s.isTurn 0 0x22000 = true) ∧
    (family 4).taskState 0 0x22000 = 4 ∧ (family 7).taskState 0 0x22000 = 7 ∧ (family 4).views 0 0x22000 = [] ∧ (family 4).mergeBad 0 0x22000 = false ∧
    ({ family 4 with poison := [0x8C4] } : State).mergeBad 0 0x22000 = true ∧ ({ family 4 with poison := [0x8C4] } : State).isTurn 0 0x22000 = true ∧
    ((family 4).core ((family 4).mergeCore 0 ((family 4).parentOf 0 0x22000))).merging 0x22000 = false ∧
    ({ task with eng := { task.eng with primary := some { run0 with merge := some ⟨0x22000, 0⟩ } } } : CoreSt).merging 0x22000 = true := by
  decide +kernel

/-- A parked child with one view of one block: the parent's working block at 0x5000 (or, `high`, where nothing is mapped), its own at
0x6000. -/
def viewFamily (high : Bool) : State :=
  let cells : List Host.Cell := [(0x21128, 1), (0x21131, 0x50), (0x21138, 0x10), (0x23128, 1), (0x23131, 0x60), (0x23138, 0x10)] ++
    if high then [(0x21135, 0x10)] else []
  let s := family 4
  { s with mem := cells.foldl (fun m x => m.writeByte x.1 x.2) s.mem }

/-- A poisoned child with a view of one block in a range that is snapped, or not, and no frame in the pool. -/
def poisonFamily (snapped : Bool) : State :=
  let cells : List Host.Cell := [(0x22006, 7), (0x807, if snapped then 0xF8 else 0xF0), (0x81A, 0x10)]
  let s := viewFamily false
  { s with mem := cells.foldl (fun m x => m.writeByte x.1 x.2) s.mem }

theorem witness_TaskEvents_poison :
    (∀ b : Bool, let s := poisonFamily b
      (s.taskInfo 0 0x22000).isSome = true ∧ (s.teams.filter (Team.holds 0 0x22000)).length ≤ 1 ∧ s.isTurn 0 0x22000 = true ∧
      s.taskState 0 0x22000 = 7) ∧
    (poisonFamily true).poisonMarks 0 0x22000 = none ∧
    ((poisonFamily false).poisonMarks 0 0x22000).map (fun u => u.poisoned 0x5000 64) = some true := by decide +kernel

theorem witness_TaskEvents_views :
    let i : TaskInfo := ⟨0x22000, 0, 0, 0, 0, [], false, [], false⟩
    let check (s : State) : Option (Nat × Byte × Nat) × Bool :=
      let l := s.viewEntry 0 (s.parentOf 0 0x22000) 0
      let r := s.viewEntry 0 0x22000 0
      let x := MergeCtx.mk 0 0x22000 (s.mergeCore 0 (s.parentOf 0 0x22000)) l.working r.working r.geom r.op
      ((x.mergeFrom (x.units - 0) 0 s).2.2.2, l.valid && r.valid && r.op != 7)
    let ready (s : State) : Bool := s.isTurn 0 0x22000 && s.taskState 0 0x22000 == 4 && s.taskInfo 0 0x22000 == some i &&
      !s.mergeBad 0 0x22000 && !(s.core (s.mergeCore 0 (s.parentOf 0 0x22000))).merging 0x22000
    ready (viewFamily false) = true ∧ check (viewFamily false) = (none, true) ∧
    ready (viewFamily true) = true ∧ (check (viewFamily true)).1.isSome = true ∧ (check (viewFamily true)).2 = true := by decide +kernel

/-- The two blocks, the child's sound and poisoned. -/
theorem witness_TaskEvents_block :
    let s := viewFamily false
    let bad : State := { s with poison := [0x180] }
    let x : MergeCtx := ⟨0, 0x22000, 0, 0x5000, 0x6000, 1, 0⟩
    (s.resolveIn 0 (tileAddr x.left + 64 * 0) .store = .ok (0x5000, s) ∧ s.resolveIn 0 (tileAddr x.left + 64 * 0) .load = .ok (0x5000, s) ∧
      s.resolveIn 0 (tileAddr x.right + 64 * 0) .load = .ok (0x6000, s)) ∧
    (inCistern x.left = false ∧ inCistern x.right = false ∧ x.op ≠ 6 ∧ isHost 0x5000 = false ∧ isHost 0x6000 = false ∧
      inDevice 0x5000 64 = true ∧ s.tagged 0x5000 = false ∧ s.poisoned 0x5000 64 = false ∧ s.poisoned 0x6000 64 = false ∧
      bad.poisoned 0x6000 64 = true ∧ bad.poisoned 0x5000 64 = false ∧
      (combineBytes x.op x.geom (s.bytesPhys 0x5000 64) (s.bytesPhys 0x6000 64)).1.length = 64) :=
  ⟨⟨rfl, rfl, rfl⟩, by decide +kernel⟩

/-- A share with one task and with two; a launch that has ended, with and without its interrupt, and one that has not. -/
theorem witness_TaskEvents_completion :
    let a : Admitted := ⟨0, 0x30000, 0, [1], 1, 1⟩
    let s (cells : List Host.Cell) : State :=
      let t := (mapped task cells).modPart 0 fun x => { x with ctbase := 0xA000, ctsize := 2, ctUsed := [0, 1] }
      { t with launches := [a], teams := [oneTeam] }
    let left (cells : List Host.Cell) : Nat := ((s cells).treeAdd 0 ((s cells).shareCounter a 0) (-1)).readIn 0 ((s cells).shareCounter a 0) 8
    (s []).admitted 0 oneTeam.launch = some a ∧ left [(0xA040, 1)] = 0 ∧ left [(0xA040, 2)] ≠ 0 ∧
    (let die := (s []).treeRecord 0 a.header + 8 + 8 * (0 : DieId).toNat
     ((s [(0xA008, 1)]).treeAdd 0 die (-1)).readIn 0 die 8 = 0 ∧ ((s [(0xA008, 2)]).treeAdd 0 die (-1)).readIn 0 die 8 ≠ 0) ∧
    (s []).readIn 0 ((s []).treeRecord 0 a.header) 8 = 0 ∧ (s [(0xA000, 1)]).readIn 0 ((s []).treeRecord 0 a.header) 8 ≠ 0 ∧
    ((s [(0x30015, 1)]).read64In 0 (a.launch.toNat + 16)).getLsbD 40 = true ∧ (s [(0x30015, 1)]).poisonedIn 0 a.launch.toNat 64 = false := by decide +kernel

/-! ### Witnesses: the placer and the loader -/

/-- A launch record at 0x5000 of one team of one core (`teams` and `cores` as given), at the head of queue 0; the completion tree at
0xA000 with two records. -/
def launching (teams cores : Byte) (pctl : DWord) (used : List Nat) (launches : List Admitted) : State :=
  let s := mapped task [(0x5018, teams), (0x501C, cores), (0x5029, 0x70)]
  { s.modPart 0 fun x => { x with
      ctbase := 0xA000, ctsize := 2, pctl := pctl, ctUsed := used, queues := x.queues.write 0 [0x5000] } with launches := launches }

theorem witness_PlacerEvents_admission :
    let s := launching 1 1 16 [] []
    let x := s.demand 0 0x5000
    let y := s.part 0
    let free (s : State) (x : Demand) : List Nat :=
      takeFree (s.part 0).ctUsed 2 (x.records + (s.part 0).ctUsed.length) x.records 0
    let lack (t : State) : Bool := decide ((free t (t.demand 0 0x5000)).length < (t.demand 0 0x5000).records)
    s.headLaunch 0 = some (0, 0x5000) ∧ s.poisonedIn 0 0x5000 64 = false ∧ ({ s with poison := [0x140] } : State).poisonedIn 0 0x5000 64 = true ∧
    ((launching 2 1 16 [] []).demand 0 0x5000).widthOk = false ∧ x.widthOk = true ∧
    ((launching 1 129 16 [] []).coresOf 0).length < ((launching 1 129 16 [] []).demand 0 0x5000).cores ∧
    (x.cores ≤ (s.coresOf 0).length ∧ x.cistern ≤ 12582912 ∧ y.ctbase.extractLsb' 12 36 ≠ 0 ∧ x.records ≤ 2) ∧
    (let t := launching 1 1 0 [] [⟨0, 0x9000, 0, [], 1, 1⟩]
     min (max ((t.part 0).pctl.extractLsb' 0 9).toNat 1) 256 ≤ (t.launches.filter fun a => a.part == 0).length) ∧
    lack (launching 1 1 16 [0] []) = true ∧
    (s.launches.filter fun a => a.part == 0).length < min (max (y.pctl.extractLsb' 0 9).toNat 1) 256 ∧
    free s x = [0, 1] ∧ 0 < x.teams ∧ s.teams = [] ∧ x.positions = 1 := by decide +kernel

theorem witness_PlacerEvents_place :
    let s := launching 1 1 16 [] []
    let popped := s.modPart 0 fun y => { y with queues := y.queues.modify 0 (·.drop 1) }
    let x := s.demand 0 0x5000
    ∃ s1, popped.placeTree x ((List.range 2).zip [0, 1]) = .ok s1 ∧ ∃ s2, s1.placeTasks x (List.range 1) = .ok s2 :=
  ⟨_, rfl, _, rfl⟩

/-- A team that waits for cores, a lone team, a team that makes way for one of higher priority. -/
theorem witness_PlacerEvents_teams :
    let waits : Team := { oneTeam with bound := [], everBound := false, running := false }
    let s : State := { onCore task with teams := [waits] }
    let u := s.turnPeriod 0
    let lone : State := { onCore task with teams := [oneTeam] }
    let big : Team := { waits with index := 1, prio := 1, size := 128, joined := true }
    let both : State := { onCore { task with bound := some ⟨0, 0x30000, 0, 0⟩ } with teams := [oneTeam, big] }
    (nextTeam (u.teamsOf 0) (u.freeCores 0).length).map (fun t => Team.is 0 0x30000 0 t && t.saved.isEmpty && !t.everBound) = some true ∧
    lone.teamsOf 0 = [oneTeam] ∧ Team.is 0 0x30000 0 oneTeam = true ∧ oneTeam.running = true ∧ oneTeam.halted = false ∧
    both.teams.find? (Team.is 0 0x30000 0) = some oneTeam ∧ both.canHalt oneTeam = true ∧
    ((both.teamsOf 0).any fun w => w.inPeriod && w.joined && !w.hadQuantum && !w.running && !w.halted && decide ((both.freeCores 0).length < w.size) &&
      oneTeam.prio.ult w.prio) = true ∧
    ((teamOrder ((both.teamsOf 0).filter fun x => x.running && !x.halted)).getLast?.map (Team.is 0 0x30000 0)) = some true := by
  decide +kernel

/-- A save that has room, and one that finds the die's shadow storage full and no slot. -/
theorem witness_PlacerEvents_save :
    let s : State := { onCore task with teams := [oneTeam] }
    let full : Team := { oneTeam with index := 2, bound := [], saved := [⟨0, 0, .shadow 0, 134217728, CoreSt.reset⟩] }
    let t : State := { s with teams := [oneTeam, full] }
    (∃ u done, s.saveContexts oneTeam [(0, 0)] [] = (u, .ok done)) ∧ ∃ u va, t.saveContexts oneTeam [(0, 0)] [] = (u, .error va) :=
  ⟨⟨_, _, rfl⟩, _, _, rfl⟩

/-- A code object at 0x5000 of one kernel of one empty bundle, its image of a revision (the device's is 0x0201), on a core with a
kernel store. -/
def objectState (rev : Byte) (store : List (BitVec 12 × KImage)) : State :=
  mapped { task with store := store }
    [(0x5000, 0x46), (0x5001, 0x58), (0x5002, 0x5A), (0x5003, 0x4F), (0x5004, 1), (0x5006, 1), (0x5008, 1), (0x5010, 0x40), (0x5041, rev),
      (0x5042, rev + 1), (0x5048, 0x80), (0x5080, 0x40), (0x5084, 1)]

/-- The object loads; without its magic, and with an image of another device, it does not. -/
theorem witness_PlacerEvents_load :
    let header (s : State) : Option CodeHeader := (s.objBytes 0 0x5000 0 64).bind readHeader
    let kernels (s : State) : Option Nat := ((header s).bind fun x => s.chooseImage 0 0x5000 x).map List.length
    (0x3800 : Addr).toNat % 4096 ≠ 0 ∧ header (mapped task []) = none ∧ (header (objectState 1 [])).isSome = true ∧
    kernels (objectState 1 []) = some 1 ∧ (header (objectState 9 [])).isSome = true ∧ kernels (objectState 9 []) = none ∧
    (objectState 1 []).freeHandles 0 1 = some 0 ∧ ((objectState 1 []).loadObject 0 0x5000 0x3000 0x7000 []).isSome = true := by
  decide +kernel

theorem object_store (rev : Byte) (store : List (BitVec 12 × KImage)) : ((objectState rev store).core 0).store = store := rfl
theorem object_core (rev : Byte) (store : List (BitVec 12 × KImage)) : 0 ∈ (objectState rev store).coresOf 0 := by
  rw [show (objectState rev store).coresOf 0 = State.reset.coresOf 0 from rfl]
  decide +kernel

/-- A kernel store in which every handle is bound, and one without room for a bundle more. -/
theorem witness_PlacerEvents_full :
    (objectState 1 ((List.range 4096).map fun n => (BitVec.ofNat 12 n, oneBundle))).freeHandles 0 1 = none ∧
    (objectState 1 [(0, { oneBundle with bundles := List.replicate 4096 0 })]).roomFor 0 [oneBundle] = false := by
  refine ⟨?_, by decide +kernel⟩
  unfold State.freeHandles
  rw [List.find?_eq_none]
  intro h hh hall
  rw [List.all_eq_true] at hall
  have lt : h < 4096 := List.mem_range.1 hh
  have e := hall h (List.mem_flatMap.2 ⟨0, object_core _ _, by
    rw [object_store]
    exact List.mem_map.2 ⟨(BitVec.ofNat 12 h, oneBundle), List.mem_map.2 ⟨h, List.mem_range.2 lt, rfl⟩, by simp; omega⟩⟩)
  simp at e

/-! ### Witnesses: transactions and the fabric -/

def oneWrite : Staged := ⟨seven, 0, 0, 0, 0x6000, 3, 9⟩

/-- The area with room and full; before the decision, after an abort; the coordinator here and on device 5; a commit whose write can
perform, one that waits for an earlier one. -/
theorem witness_TransactionEvents :
    let s := txnPartState 0 16 oneTxn [oneWrite] []
    let full := txnPartState 0 0 oneTxn [oneWrite] []
    let full1 := (full.modPart 0 fun x => { x with incoming := x.incoming.erase oneWrite }).modTxn 0 seven fun t =>
      { t with taken := t.taken ++ [(0, 0)] }
    let far := txnPartState 5 0 oneTxn [oneWrite] []
    let gone := txnPartState 0 16 { oneTxn with decision := some false } [oneWrite] []
    let doomed := { oneTxn with doom := some 3 }
    let silent := { oneTxn with votes := [] }
    let owing := { oneTxn with votes := [(0, 2)] }
    let decided := { oneTxn with decision := some false }
    let won := { oneTxn with decision := some true, order := 1 }
    let can (x : TxnSt) : Option TxnSt × Option TxnSt × Bool :=
      let s := txnPartState 0 16 x [] []
      (s.findTxn 0 7 (s.canDecide 0), s.findTxn 0 7 (fun t => s.undecided 0 t && t.doom.isNone), s.coordinates 0 x.name)
    let w := txnPartState 0 16 won [] [oneWrite]
    let older : TxnSt := { won with name := ⟨8, 0, 1⟩, order := 0 }
    let behind := w.modPart 0 fun y => { y with txns := [won, older] }
    ((s.part 0).incoming.find? (s.part 0).nextWrite = some oneWrite ∧ (s.txn 0 seven).bind (·.decision) = none ∧
      (s.part 0).staging.length < ((s.part 0).xlimit.extractLsb' 0 24).toNat ∧ isHost 0x6000 = false ∧ s.tagged 0x6000 = false ∧
      s.poisoned 0x6000 (2 ^ oneWrite.size.toNat) = false ∧ s.coordOf 0 seven = some (s.devid, 0)) ∧
    ((gone.part 0).incoming.find? (gone.part 0).nextWrite = some oneWrite ∧ (gone.txn 0 seven).bind (·.decision) = some false) ∧
    ((full.part 0).incoming.find? (full.part 0).nextWrite = some oneWrite ∧ (full.txn 0 seven).bind (·.decision) = none ∧
      ((full.part 0).xlimit.extractLsb' 0 24).toNat ≤ (full.part 0).staging.length ∧ full.coordOf 0 seven = some (full.devid, 0) ∧
      full.partOf 0 = some 0 ∧ full1.txn 0 seven = some { oneTxn with taken := [(0, 0)] }) ∧
    ((far.part 0).incoming.find? (far.part 0).nextWrite = some oneWrite ∧ (far.txn 0 seven).bind (·.decision) = none ∧
      ((far.part 0).xlimit.extractLsb' 0 24).toNat ≤ (far.part 0).staging.length ∧ far.coordOf 0 seven = some (5, 0) ∧
      (5 : BitVec 16) ≠ far.devid ∧ far.peerValid 5 = true ∧ far.paths = []) ∧
    (∀ x ∈ [oneTxn, doomed, silent, owing], (txnPartState 0 16 x [] []).txn 0 seven = some x) ∧
    (can oneTxn = (some oneTxn, some oneTxn, true) ∧ can doomed = (some doomed, none, true) ∧ can silent = (none, some silent, true) ∧
      can owing = (none, some owing, true) ∧ can decided = (none, none, true)) ∧
    (w.findTxn 0 7 (w.canApply 0) = some won ∧
      (w.part 0).staging.filter (fun w => w.name == won.name) = [oneWrite] ∧ w.tagged 0x6000 = false ∧
      inDevice 0x6000 (2 ^ oneWrite.size.toNat) = true) ∧
    (∀ x ∈ (behind.part 0).txns, x.name.id = 7 → behind.canApply 0 x = false) := by
  decide +kernel

/-- Where a staged write goes; one whose page has no entry cannot perform yet. -/
theorem witness_TransactionEvents_place :
    let s := txnPartState 0 16 oneTxn [] [oneWrite]
    let s1 := ((txnPartState 0 16 oneTxn [oneWrite] []).modPart 0 fun x => { x with incoming := x.incoming.erase oneWrite }).modTxn 0 seven
      fun t => { t with taken := t.taken ++ [(0, 0)] }
    let off := (onCore task).modPart 0 fun x => { x with staging := [oneWrite] }
    (s1.placeIn 0 0x6000 .store = .ok 0x6000 ∧ s.resolveIn 0 0x6000 .store = .ok (0x6000, s) ∧ ∃ u, s.applyAll 0 [oneWrite] = (u, [])) ∧
    (∃ e, off.resolveIn 0 0x6000 .store = .error e) ∧ off.applyAll 0 [oneWrite] = (off, [oneWrite]) :=
  ⟨⟨rfl, rfl, _, rfl⟩, ⟨_, rfl⟩, rfl⟩

/-- A coordinator on device 5, which can be reached. -/
theorem witness_TransactionEvents_query :
    let s := txnPartState 5 16 oneTxn [] []
    s.findTxn 0 7 (fun t => t.decision.isNone) = some oneTxn ∧ s.coordOf 0 seven = some (5, 0) ∧ (5 : BitVec 16) ≠ s.devid ∧
    s.peerValid 5 = true ∧ s.paths = [] ∧ (∃ w, (s.part 0).xlimit = 16 ∧ w = oneWrite) := by
  refine ⟨?_, ?_, ?_, ?_, rfl, _, rfl, rfl⟩ <;> decide +kernel

/-- Packets of peer 5: an acknowledge, a vote and a decision of its member, one that came before; the eighth try and the ninth. -/
theorem witness_FabricEvents :
    let k (m : FabMsg) : Packet := ⟨5, 2, 9, m⟩
    let p (n : Nat) : PathSt := ⟨5, 2, 10, [], [(k (.query 0 seven), n)], 7, false⟩
    let s (n : Nat) : State := { txnPartState 5 16 oneTxn [] [] with paths := [p n] }
    let back : State := { s 0 with paths := [{ p 0 with got := [9] }] }
    (s 0).peerValid 5 = true ∧ (k (.vote 0 seven 0 1 true)).seq ∉ ((s 0).path 5 2).got ∧ (s 0).partOf 0 = some 0 ∧
    (s 0).isMember 0 seven.group 0 5 = true ∧ (s 0).txn 0 seven = some oneTxn ∧ oneTxn.decision = none ∧
    (9 : BitVec 32) ∈ (back.path 5 2).got ∧ (k (.staged 0 seven 0 0 0 none)).seq ∉ ((s 0).path 5 2).got ∧ 0 < ((s 0).path 5 2).replays ∧
    ((s 7).path 5 2).unacked.find? (fun k => k.1.seq == 9) = some (k (.query 0 seven), 7) ∧
    ((s 8).path 5 2).unacked.find? (fun k => k.1.seq == 9) = some (k (.query 0 seven), 8) ∧ ((s 7).path 5 2).retired = false := by
  decide +kernel

/-! ### Witnesses: the dies and the host -/

/-- A flit of a type from die 1 to die 0, the first of its path, with the address of a block; one with a reserved field set; one whose
block fails its transit CRC. -/
def flitOf (type : BitVec 4) : Flit := sealFlit (newFlit type 1 0 0 0 5 0x5000)
def badFlit : Flit := { flitOf 1 with reserved := 1 }
def spoilt (type : BitVec 4) : Flit := sealFlit { newFlit type 1 0 0 0 5 0x5000 with transit := transitCrc 0x5000 + 1 }

theorem witness_FlitEvents_checks :
    (∀ t ∈ ([1, 2, 3, 4, 5, 6, 7] : List (BitVec 4)), flitOk (flitOf t) = true ∧ soundFlit (flitOf t) = true ∧ (flitOf t).type = t) ∧
    soundFlit badFlit = false ∧ spoiltFlit (flitOf 2) = false ∧ soundFlit (spoilt 2) = true ∧ spoiltFlit (spoilt 2) = true := by
  have ok : ∀ t, flitOk (flitOf t) = true := fun t => by
    show ((0 : BitVec 3).ult 6 && (1 : DieId) != 0) = true
    decide
  have bad : (badFlit.reserved == 0) = false := rfl
  refine ⟨fun t ht => ⟨ok t, sound_of _ ?_, rfl⟩, ?_, ?_, sound_of _ (by decide), ?_⟩
  · revert t; decide
  · unfold soundFlit
    rw [bad, Bool.and_false, Bool.false_and, Bool.false_and]
  · simp only [spoiltFlit, flitOf, sealFlit, newFlit, bne_self_eq_false]
  · simp only [spoiltFlit, spoilt, sealFlit, newFlit, bne_iff_ne]
    generalize transitCrc 0x5000 = x
    bv_omega

theorem witness_FlitEvents :
    let s := State.reset
    let f := flitOf 1
    let m : RemoteAtomic := ⟨32, 0, .primary, 3, 20, 1, 0, 0, Bank.fill 0, Bank.fill 0, 4⟩
    let back : LinkSt := { freshLink (linkBack f) with buffer := [f], replays := 1, failing := [⟨4, 0, .data, 1⟩], fails := 14 }
    let held : LinkSt := { freshLink (linkIn f) with received := 0, markers := [flitOf 5] }
    -- the second path retries a flit of the same class
    let other : LinkSt := { freshLink (.mesh 1 0 1) with buffer := [{ f with path := 1 }], failing := [⟨0, 0, .data, 1⟩] }
    let t : State := { s with links := [back, held], meshMsgs := [m] }
    let behind : State := { s with links := [other] }
    let misfit : State := { s with links := [{ freshLink (linkIn f) with failing := [⟨f.seq, 1, .data, 1⟩] }] }
    (s.linkOf (linkIn f)).retired = false ∧ f.seq = (s.linkOf (linkIn f)).received + 1 ∧ s.heldBehind f = false ∧
    f.seq ≠ (t.linkOf (linkIn f)).received + 1 ∧ behind.heldBehind f = true ∧ f.seq = (behind.linkOf (linkIn f)).received + 1 ∧
    (∀ kind ∈ [FlitKind.data, .answer, .marker], (s.linkOf (linkIn f)).failed f.seq kind = none) ∧ ((s.linkOf (linkIn f)).failed f.seq .data).all (fun n => n.cls == f.cls) = true ∧
    (misfit.linkOf (linkIn f)).failed f.seq .data = some ⟨f.seq, 1, .data, 1⟩ ∧
    ((misfit.linkOf (linkIn f)).failed f.seq .data).all (fun n => n.cls == f.cls) = false ∧ Config.dieBytes * f.dst.toNat ≤ 0x5000 ∧
    0x5000 < Config.dieBytes * f.dst.toNat + Config.dieBytes ∧ (f.payload.extractLsb' 0 64).toNat = 0x5000 ∧ dieOf m.src = f.src ∧
    dieOf m.target = f.dst ∧ t.meshMsgs = [m] ∧ (t.linkOf (linkBack f)).buffer.find? (fun y => y.seq == f.seq) = some f ∧
    ((t.links.flatMap fun x => x.markers).find? fun f => f.dst == 0 && t.gathered f) = some (flitOf 5) ∧
    (t.linkOf (linkBack f)).failed 5 .data = none ∧ ((t.linkOf (linkBack f)).failed 4 .data).isSome = true ∧
    (t.linkOf (linkBack f)).fails < 15 ∧ 15 ≤ ({ back with fails := 15 } : LinkSt).fails ∧
    0 < (t.linkOf (linkBack f)).replays ∧ (t.linkOf (linkBack f)).retired = false := by
  refine ⟨?_, ?_, ?_, ?_, ?_, ?_, ?_, ?_, ?_, ?_, ?_, ?_, ?_, ?_, ?_, rfl, rfl, rfl, ?_, ?_, ?_, ?_, ?_, ?_⟩ <;> decide +kernel

/-- A path at its fifteenth failed replay, with a failed flit that no buffer holds; the other paths are in service. -/
theorem witness_FlitEvents_retire :
    let y : FailedFlit := ⟨4, 2, .data, 1⟩
    let x : LinkSt := { freshLink (.mesh 1 0 0) with failing := [y], fails := 15 }
    let s : State := { State.reset with links := [x] }
    s.linkOf (.mesh 1 0 0) = x ∧ (x.failed 4 .data).isSome = true ∧ y ∈ x.failing ∧ seqLe y.seq x.received = false ∧ x.buffer = [] ∧
    1 ∈ s.livePaths 1 0 ∧ x.retired = false := by decide +kernel

theorem witness_FlitEvents_slots :
    let r (write : Bool) : WellReq := ⟨0x140, write, flitOf 3⟩
    let s (r : WellReq) : State := { State.reset with dies := (Bank.fill DieSt.reset).write 0 { DieSt.reset with queue := [r] } }
    (∀ r : WellReq, r.block = 0x140 → ((s r).dies.read 0).queue.find? (fun x => channelOf x.block == (128 : BitVec 8).toNat) = some r) ∧
    ((State.reset.dies.read 0).queue.find? (fun x => channelOf x.block == (128 : BitVec 8).toNat)) = none ∧
    (s (r true)).tagged (blockAddr 0 0x140) = false ∧ ({ s (r true) with tags := [0x140] } : State).tagged (blockAddr 0 0x140) = true ∧
    inDevice (blockAddr 0 0x140) 64 = true ∧ (s (r false)).choosePath 0 (r false).flit.src = some 0 ∧
    -- no path is left; an access of the die's own
    ({ s (r false) with links := (List.range 6).map fun n => { freshLink (.mesh 0 1 (BitVec.ofNat 3 n)) with retired := true } } : State).choosePath
      0 (r false).flit.src = none ∧ 0x140 < dieBlocks ∧ channelOf 0x140 = (128 : BitVec 8).toNat ∧ channelOf 0x141 ≠ (128 : BitVec 8).toNat ∧
    State.reset.teams = [] := by
  refine ⟨fun r h => ?_, ?_, ?_, ?_, ?_, ?_, ?_, ?_, ?_, ?_, ?_⟩
  · show [r].find? _ = some r
    rw [List.find?_cons_of_pos]
    rw [h]; decide
  all_goals decide +kernel

theorem witness_DieEvents :
    (0 : Nat) < dieBlocks ∧ ({ DieSt.reset with pcap := 1 } : DieSt).pcap ≠ 0 ∧ DieSt.reset.pcap = 0 ∧
    (engineCore (some run0) none).run .primary = some run0 ∧ run0.live = true ∧ (Instr.thermalFreeze 0) ∈ [Instr.powerLimitFreeze 0, .thermalFreeze 0] :=
  ⟨by decide, by decide, rfl, rfl, rfl, by simp⟩

/-- A team with a context in the shadow storage of die 0. -/
theorem witness_DieEvents_context :
    let t : Team := { oneTeam with bound := [], running := false, saved := [⟨0, 0, .shadow 0, 4096, CoreSt.reset⟩] }
    let s : State := { State.reset with teams := [t] }
    (s.teams.flatMap fun t => (t.saved.filter fun x => x.place == .shadow (dieOf 0)).map fun _ => t)[0]? = some t := rfl

/-- A window onto the first 64 KiB for reads and writes, the offsets at its end and beyond it; doorbells; a recovery buffer of zeros,
which is no image. That an image verifies rests on the cryptography, which is opaque (log 15): no witness can show it. -/
theorem witness_HostEvents :
    let s := (mapped task []).modHost fun h => { h with hwin := h.hwin.write 0 0x4300000000000000 }
    s.hostTarget 0x1000000FFF8 8 false = .memory 0xFFF8 ∧ s.hostTarget 0x1000000FFF9 8 false = .nothing ∧
    s.hostTarget 0x10000005000 8 true = .memory 0x5000 ∧ (∀ b ∈ blocksOf 0x5000 8, b ∉ s.tags) ∧
    2 ^ 48 ≤ (0x1000000000000 : DWord).toNat ∧ (63 : DWord).toNat % 64 ≠ 0 ∧ (0x5000 : DWord).toNat < 2 ^ 48 ∧
    (0x5000 : DWord).toNat % 64 = 0 ∧ s.host.recovery = false ∧ isHost 0x5000 = false ∧ s.tagged 0x5000 = false ∧
    s.poisoned 0x5000 64 = false ∧ (s.writePmap 2 0).isSome = true ∧ s.writePmap 2 1 = none ∧
    firmwareFault ({ HostSt.reset with flash := some [] } : HostSt).image = some 1 ∧ (s.linkOf .host).retired = false ∧
    ({ s with links := [{ freshLink .host with retired := true }] } : State).linkOf .host = { freshLink .host with retired := true } ∧
    (0xFF00 : DWord).getLsbD 0 = false := by
  refine ⟨by rfl, by rfl, by rfl, ?_, ?_, ?_, ?_, ?_, ?_, ?_, ?_, ?_, ?_, ?_, ?_, ?_, ?_, ?_⟩ <;> decide +kernel
theorem witness_HostEvents_doorbell :
    let s := mapped task []
    s.resolveIn 0 0x5000 .store = .ok (0x5000, s) := rfl
theorem witness_HostEvents_recovery :
    let s : State := { State.reset with host := { HostSt.reset with recovery := true } }
    s.host.recovery = true ∧
    firmwareFault (s.host.recBuf.read 0 (max 4096 (min recoveryBytes (4096 + natAt (s.host.recBuf.read 0 16) 8 8)))) = some 1 := by
  decide +kernel

/-! ### Results that the spec works out -/

/-- The drains of R73's table: the bits. -/
theorem test_drains :
    ((⟨0, .nan⟩ : AccElem).drain 0 6 0 false true).1 = 0x7E00 ∧ ((⟨0, .posInf⟩ : AccElem).drain 0 6 0 false true).1 = 0x7BFF ∧
    ((⟨0, .posInf⟩ : AccElem).drain 0 6 0 false false).1 = 0x7C00 ∧ ((⟨0, .negInf⟩ : AccElem).drain 0 10 0 false false).1 = 0x7F ∧
    ((⟨0, .negInf⟩ : AccElem).drain 0 10 0 false true).1 = 0xFE ∧ ((⟨500, .finite⟩ : AccElem).drain 0 10 0 false false).1 = 0x7F ∧
    ((⟨500, .finite⟩ : AccElem).drain 0 10 0 false true).1 = 0x7E ∧ ((⟨-3, .finite⟩ : AccElem).drain (-2) 6 0 false false).1 = 0xBA00 ∧
    ((⟨0, .posInf⟩ : AccElem).drain 0 13 0 false false).1 = 0x7FFFFFFFFFFFFFFF := by decide +kernel

/-- The work ID of R37's example: widths 2:3:0:4:6:0 from field 5 down. -/
theorem test_workId :
    let widths : DWord := (2 <<< 30) ||| (3 <<< 24) ||| (4 <<< 12) ||| (6 <<< 6)
    workField widths 0x5665 5 = 2 ∧ workField widths 0x5665 4 = 5 ∧ workField widths 0x5665 3 = 0 ∧
    workField widths 0x5665 2 = 9 ∧ workField widths 0x5665 1 = 37 ∧ workField widths 0x5665 0 = 0 := by decide +kernel

/-- What a step leaves in a register and in pc. -/
def stepGives (s : State) (d : BitVec 5) (x pc : DWord) : Bool :=
  match step s with
  | .next t => t.g d == x && t.cur.pc == pc
  | _ => false

/-- The words of N21 and R123 as the first instruction after reset (log 8): g7 is 1; g1 links. -/
theorem test_firstInstruction :
    stepGives (State.reset.withFetchWord 32 0x04E00001) 7 1 0x10004 = true ∧
    stepGives (State.reset.withFetchWord 32 0x78000002) 1 0x10004 0x10008 = true := by decide +kernel

/-- The edges of R110: division by zero, and the most negative number by -1. -/
theorem test_division :
    let s := withRegs [(1, 0x8000000000000000), (2, -1)]
    let gives (i : Instr) (x : DWord) : Bool := match exec i s with
      | .next t => t.g 3 == x
      | _ => false
    gives (.div 3 1 0) (-1) = true ∧ gives (.rem 3 1 0) 0x8000000000000000 = true ∧ gives (.div 3 1 2) 0x8000000000000000 = true ∧
    gives (.rem 3 1 2) 0 = true ∧ gives (.mulh 3 1 1) 0x4000000000000000 = true ∧ gives (.mulhu 3 2 2) (-2) = true := by
  decide +kernel

/-- R435's example: its three Frazin bundles become eleven native ones, the add at 6 and the store at 10. -/
theorem test_frazin :
    let code := bytesLE 20 0x5200000000000000002028030000000000180820 ++ bytesLE 20 0x2000000000000000000000000018104200000000 ++
      bytesLE 20 0x9200000000390000000000000000000000301020
    let e : KEntry := ⟨64, 3, true, false, { oneBundle with bundles := [], amask := -1, vmask := -1, mmask := 255 }⟩
    (translate 3 code e).map (fun i => i.bundles.map decodeBundle) = some
      ([.ok [.movi (inSlot .B) 5 (.short 3), .cld (inSlot .G) 8 1 1 0]] ++ List.replicate 5 (.ok []) ++
        [.ok [.vadd (inSlot .C) 8 2 1 1]] ++ List.replicate 3 (.ok []) ++ [.ok [.halt (inSlot .A), .cst (inSlot .G) 2 1 0]]) := by
  decide +kernel

/-- R433: the literal is that of the one operation whose low byte it could be, here MOVI's and not CMPI's. -/
theorem test_frazin_literal :
    let code := bytesLE 20 0xC080000000182500002030000000000000000000 ++ bytesLE 16 0x40200000
    let e : KEntry := ⟨64, 1, true, false, { oneBundle with bundles := [], amask := -1, vmask := -1, mmask := 255 }⟩
    (translate 1 code e).map (fun i => i.bundles.map decodeBundle) = some
      [.ok [.cmpi (inSlot .A) 0 1 5 (.short 0), .movi (inSlot .B) 6 (.long36 0x40200000)]] := by
  decide +kernel

/-- A store and what a load reads there, byte order included (R3). -/
theorem test_storeLoad :
    let s := withRegs [(1, 0x5000), (2, 0x1122334455667788)]
    (match exec (.stD 2 1 0 1) s with
      | .next t => (match exec (.ldH 3 1 0 5) t with
        | .next u => u.g 3 == 0x5566
        | _ => false)
      | _ => false) = true := by decide +kernel

end Sys2Proof.Tests
end

section
/-! PROOF. Canonical form of every memory, kept by every step (R3, R258, R268, R420): first what the operations of one core do to
its Cistern, then what each operation of the device does to the invariant `MemInv`, in the order of the model, then the step. -/

namespace Sys2Proof.Machine

/-! ### A Cistern that an operation of its core leaves as it is -/

@[simp] theorem CoreSt.ite_cistern (p : Prop) [Decidable p] (j k : CoreSt) :
    (if p then j else k).cistern = if p then j.cistern else k.cistern := apply_ite CoreSt.cistern p j k

theorem CoreSt.ite_cistern_same {p : Prop} [Decidable p] {j k : CoreSt} (h : j.cistern = k.cistern) :
    (if p then j else k).cistern = k.cistern := by
  split
  · exact h
  · rfl

/-- A fold of operations that each leave the Cistern leaves it. -/
theorem foldl_cistern {α : Type} {f : CoreSt → α → CoreSt} (hf : ∀ k x, (f k x).cistern = k.cistern) (xs : List α) (k : CoreSt) :
    (xs.foldl f k).cistern = k.cistern := by
  induction xs generalizing k with
  | nil => rfl
  | cons x xs ih => rw [List.foldl_cons, ih, hf]

@[simp] theorem CoreSt.raise_cistern (k : CoreSt) (c : ClusterId) (f : FpFlags) : (k.raise c f).cistern = k.cistern := rfl
@[simp] theorem CoreSt.raiseSubst_cistern (k : CoreSt) : k.raiseSubst.cistern = k.cistern := rfl
@[simp] theorem CoreSt.raiseClamp_cistern (k : CoreSt) (pos : KPos) : (k.raiseClamp pos).cistern = k.cistern := by
  cases pos <;> rfl

theorem CoreSt.signal_cistern {k j : CoreSt} {sm n : BitVec 8} (e : k.signal sm n = some j) : j.cistern = k.cistern := by
  unfold CoreSt.signal at e
  split at e
  · cases e; rfl
  · dsimp only at e
    split at e
    · cases e
    · cases e; rfl

@[simp] theorem CoreSt.arrive_cistern (k : CoreSt) (n : BitVec 2) : (k.arrive n).1.cistern = k.cistern := by
  unfold CoreSt.arrive
  dsimp only
  split
  · rfl
  · split
    · rfl
    · split
      · next e => exact (CoreSt.signal_cistern e).trans rfl
      · rfl

@[simp] theorem CoreSt.modRun_cistern (k : CoreSt) (pos : KPos) (f : KernelRun → KernelRun) : (k.modRun pos f).cistern = k.cistern := by
  unfold CoreSt.modRun
  split <;> rfl

@[simp] theorem CoreSt.land_cistern (k : CoreSt) (pos : KPos) (c : ClusterId) (w : RegWrite) (a : Option (BitVec 2)) :
    (k.land pos c w a).cistern = k.cistern := by
  unfold CoreSt.land
  cases a <;> simp

@[simp] theorem CoreSt.settle_cistern (k : CoreSt) : k.settle.cistern = k.cistern := by
  simp [CoreSt.settle, foldl_cistern]

@[simp] theorem CoreSt.eachCluster_cistern (k : CoreSt) (f : Cluster → Cluster) : (k.eachCluster f).cistern = k.cistern := rfl

@[simp] theorem loopBack_cistern (e : Nat) (k : CoreSt) (r : KernelRun) (ls : List LoopSt) : (loopBack e k r ls).1.cistern = k.cistern := by
  induction ls generalizing k r with
  | nil => rfl
  | cons l ls ih =>
    unfold loopBack
    split
    · dsimp only
      split
      · simp
      · simp [ih]
    · rfl

@[simp] theorem steerRun_cistern (k : CoreSt) (r : KernelRun) (ctl : List Ctl) : (steerRun k r ctl).1.cistern = k.cistern := by
  unfold steerRun
  split
  · simp
  · rfl
  · dsimp only
    split <;> simp
  · simp
  · rfl
  · rfl

@[simp] theorem CoreSt.arriveNow_cistern (k : CoreSt) (pos : KPos) (es : List Eff) : (k.arriveNow pos es).cistern = k.cistern := by
  simp [CoreSt.arriveNow, foldl_cistern]

@[simp] theorem CoreSt.frozenCc_cistern (k : CoreSt) (n : Nat) (f : FreezeCounts → FreezeCounts) :
    (k.frozenCc n f).cistern = k.cistern := rfl
@[simp] theorem CoreSt.bankFreeze_cistern (k : CoreSt) (n : Nat) : (k.bankFreeze n).cistern = k.cistern := rfl
@[simp] theorem CoreSt.failRun_cistern (k : CoreSt) (pos : KPos) (e : KEnd) : (k.failRun pos e).cistern = k.cistern :=
  k.modRun_cistern pos _
@[simp] theorem CoreSt.tickRates_cistern (k : CoreSt) (fair : Bool) : (k.tickRates fair).cistern = k.cistern := rfl
@[simp] theorem CoreSt.tick_cistern (k : CoreSt) : k.tick.cistern = k.cistern := rfl
@[simp] theorem CoreSt.modWaitList_cistern (k : CoreSt) (swept : Bool) (f : List Monitor → List Monitor) :
    (k.modWaitList swept f).cistern = k.cistern := by cases swept <;> rfl
@[simp] theorem CoreSt.freeHandles_cistern (k : CoreSt) (r : Addr) : (k.freeHandles r).cistern = k.cistern := rfl
@[simp] theorem CoreSt.leaveBanks_cistern (k : CoreSt) (who : BankParty) : (k.leaveBanks who).cistern = k.cistern := rfl

@[simp] theorem CoreSt.startKernel_cistern (k : CoreSt) (pos : KPos) (r : KernelRun) : (k.startKernel pos r).cistern = k.cistern := by
  cases pos <;> rfl

@[simp] theorem CoreSt.launchKernel_cistern (k : CoreSt) (c : Cmd) (counts : List Nat) (widths : DWord) :
    (k.launchKernel c counts widths).cistern = k.cistern := by
  unfold CoreSt.launchKernel
  split
  · dsimp only
    rw [CoreSt.startKernel_cistern]
    split <;> rfl
  · rfl

@[simp] theorem CoreSt.activate_cistern (k : CoreSt) (c : Cmd) (sh : Option Shape) (counts : List Nat) (n : Nat) :
    (k.activate c sh counts n).cistern = k.cistern := rfl
@[simp] theorem CoreSt.notify_cistern (k : CoreSt) (n : Notif) : (k.notify n).cistern = k.cistern := by
  unfold CoreSt.notify
  split <;> rfl
@[simp] theorem CoreSt.takeImage_cistern (k : CoreSt) (n : BitVec 12) (i : KImage) : (k.takeImage n i).cistern = k.cistern := by
  unfold CoreSt.takeImage
  dsimp only
  split <;> rfl
@[simp] theorem CoreSt.takePendingImages_cistern (k : CoreSt) : k.takePendingImages.cistern = k.cistern :=
  foldl_cistern (fun k (x : BitVec 12 × KImage) => k.takeImage_cistern x.1 x.2) _ k
@[simp] theorem CoreSt.raiseSat_cistern (k : CoreSt) (on : Bool) : (k.raiseSat on).cistern = k.cistern := by cases on <;> rfl
@[simp] theorem CoreSt.landOne_cistern (k : CoreSt) (c : ClusterId) : (k.landOne c).cistern = k.cistern := by
  simp [CoreSt.landOne]

@[simp] theorem CoreSt.reply_cistern (k : CoreSt) (m : RemoteAtomic) (ph : FarPhase) : (k.reply m ph).cistern = k.cistern := by
  unfold CoreSt.reply
  grind [CoreSt.setRun_cistern]

@[simp] theorem CoreSt.writeBack_cistern (k : CoreSt) (pos : KPos) (sel : RegWrite → Bool) :
    (k.writeBack pos sel).cistern = k.cistern := by
  unfold CoreSt.writeBack
  split
  · rfl
  · dsimp only
    split <;> simp

@[simp] theorem CoreSt.restoreEngine_cistern (k : CoreSt) (bs : List Byte) : (k.restoreEngine bs).cistern = k.cistern := rfl
@[simp] theorem CoreSt.restoreMerge_cistern (k : CoreSt) (pos : KPos) (x : MergeImage) : (k.restoreMerge pos x).cistern = k.cistern := by
  cases pos <;> rfl
@[simp] theorem CoreSt.arriveAll_cistern (k : CoreSt) (ns : List (BitVec 2)) : (k.arriveAll ns).1.cistern = k.cistern := by
  induction ns generalizing k with
  | nil => rfl
  | cons n ns ih => simp [CoreSt.arriveAll, ih]
@[simp] theorem CoreSt.vacate_cistern (k : CoreSt) (pos : KPos) : (k.vacate pos).cistern = k.cistern := by
  unfold CoreSt.vacate
  cases pos
  · dsimp only
    split <;> rfl
  · rfl
@[simp] theorem CoreSt.endKernel_cistern (k : CoreSt) (pos : KPos) (r : KernelRun) (stop : BitVec 4) (code : BitVec 16) :
    (k.endKernel pos r stop code).cistern = k.cistern := by
  unfold CoreSt.endKernel
  cases pos <;> simp
@[simp] theorem CoreSt.fresh_cistern (k : CoreSt) : k.fresh.cistern = k.cistern := rfl
@[simp] theorem CoreSt.toSave_cistern (k : CoreSt) : k.toSave.cistern = k.cistern := by simp [CoreSt.toSave]
@[simp] theorem CoreSt.leaveTeam_cistern (k : CoreSt) : k.leaveTeam.cistern = k.cistern := by simp [CoreSt.leaveTeam]
@[simp] theorem CoreSt.unhalt_cistern (k : CoreSt) : k.unhalt.cistern = k.cistern := rfl
@[simp] theorem CoreSt.enterUser_cistern (k : CoreSt) (n : Notif) : (k.enterUser n).cistern = k.cistern := rfl
@[simp] theorem CoreSt.begin_cistern (k : CoreSt) : k.begin_.cistern = k.cistern := by simp [CoreSt.begin_]

/-! ### A Cistern that an operation of its core writes -/

theorem Memory.ite_wf {p : Prop} [Decidable p] {m n : Memory} (hm : m.wf = true) (hn : n.wf = true) :
    (if p then m else n).wf = true := by
  split
  · exact hm
  · exact hn

/-- A fold of operations that each keep the canonical form keeps it. -/
theorem foldl_wf {α : Type} {f : Memory → α → Memory} (hf : ∀ m x, m.wf = true → (f m x).wf = true) (xs : List α) {m : Memory}
    (h : m.wf = true) : (xs.foldl f m).wf = true := by
  induction xs generalizing m with
  | nil => exact h
  | cons x xs ih => exact ih (hf m x h)

/-- A fold over a core whose steps keep its Cistern's form keeps it. -/
theorem foldl_cistern_wf {α : Type} {f : CoreSt → α → CoreSt} (hf : ∀ k x, k.cistern.wf = true → (f k x).cistern.wf = true)
    (xs : List α) {k : CoreSt} (h : k.cistern.wf = true) : (xs.foldl f k).cistern.wf = true := by
  induction xs generalizing k with
  | nil => exact h
  | cons x xs ih => exact ih (hf k x h)

/-- The rows of a far atomic: the elements of units that are not poisoned are written (R264). -/
theorem atomRow_wf {m : Memory} (h : m.wf = true) (bad : List Nat) (v : View) (kind : BitVec 4) (row : Nat) (x c : Bank 6 DWord) :
    (atomRow m bad v kind row x c).1.wf = true :=
  foldl_wf (fun _ _ hm => Memory.ite_wf hm (Memory.wf_writeNat hm _ _ _)) _ h

/-- A bundle's writes of units are all that its commit does to the Cistern (R47). -/
theorem CoreSt.commit_wf {k : CoreSt} {pos : KPos} {i : Issue} (h : k.cistern.wf = true) : (k.commit pos i).cistern.wf = true := by
  unfold CoreSt.commit
  split
  · exact h
  · cases pos
    all_goals
      simp only [ite_cistern, raiseSubst_cistern, raiseClamp_cistern, raise_cistern, ite_self, implies_true, foldl_cistern,
        arriveNow_cistern, setRun_cistern, steerRun_cistern]
      refine foldl_cistern_wf (fun _ w hk => wf_putUnit hk w) _ (foldl_cistern_wf ?_ _ h)
      exact fun _ _ hk => hk

theorem CoreSt.putFar_wf {k : CoreSt} {a : Alloc} {off : Nat} {bs : List Byte} (h : k.cistern.wf = true) :
    (k.putFar a off bs).cistern.wf = true :=
  foldl_wf (fun _ w hm => wf_putUnit hm w) _ h

theorem CoreSt.carry_wf {k : CoreSt} {pos : KPos} {p : Plan} (h : k.cistern.wf = true) : (k.carry pos p).cistern.wf = true := by
  unfold CoreSt.carry
  split
  · exact CoreSt.commit_wf h
  · simpa using h
  · exact h

theorem engineCc_wf {k : CoreSt} (h : k.cistern.wf = true) (me : CoreId) (peers : List CoreId) (given : Option (List Instr)) :
    (engineCc k me peers given).core.cistern.wf = true := by
  unfold engineCc
  extract_lets +onlyGivenNames k₁ second fair collide quiet
  split
  · exact h
  · split
    · exact h
    · extract_lets +onlyGivenNames k₂ second
      have h₂ : k₂.cistern.wf = true := by simpa [k₂, k₁] using h
      split
      · extract_lets +onlyGivenNames p e k₃
        split
        · exact h₂
        · split
          · exact h₂
          · simpa using CoreSt.carry_wf (k := k₃.frozen 1 _) (pos := .secondary) (p := p) h₂
      · extract_lets +onlyGivenNames p q blocked e k₃
        split
        · exact h₂
        · split
          · exact h₂
          · split
            · exact h₂
            · simpa using CoreSt.carry_wf (pos := .secondary) (p := q) (CoreSt.carry_wf (k := k₃) (pos := .primary) (p := p) h₂)

theorem CoreSt.fillCopies_wf {k : CoreSt} {es : List (Nat × ViewEntry)} (h : k.cistern.wf = true) :
    (k.fillCopies es).cistern.wf = true := by
  refine foldl_cistern_wf (fun k e hk => ?_) _ h
  split
  · exact CoreSt.putFar_wf hk
  · exact hk

theorem CoreSt.writeSpots_wf {k : CoreSt} {a : Alloc} {ss : List (List Spot)} {bs : List Byte} {bad : Bool}
    (h : k.cistern.wf = true) : (k.writeSpots a ss bs bad).cistern.wf = true :=
  foldl_wf (fun _ _ hm => Memory.wf_writeByte hm _ _) _ h

theorem CoreSt.clearRect_wf {k : CoreSt} {a : Alloc} (h : k.cistern.wf = true) : (k.clearRect a).cistern.wf = true :=
  Memory.wf_filter h _

theorem CoreSt.serve_wf {k : CoreSt} {f : FarReq} (h : k.cistern.wf = true) : (k.serve f).1.cistern.wf = true := by
  unfold CoreSt.serve
  dsimp only
  split
  · exact h
  · simpa using atomRow_wf h _ _ _ _ _ _

theorem CoreSt.serveOne_wf {k : CoreSt} (h : k.cistern.wf = true) : k.serveOne.cistern.wf = true := by
  unfold CoreSt.serveOne
  split
  · exact h
  · simpa using CoreSt.serve_wf h

theorem CoreSt.serveAll_wf {k : CoreSt} {n : Nat} (h : k.cistern.wf = true) : (k.serveAll n).cistern.wf = true := by
  induction n generalizing k with
  | zero => exact h
  | succ n ih => exact ih (CoreSt.serveOne_wf h)

theorem CoreSt.restoreCistern_wf {k : CoreSt} {bs : List Byte} (h : k.cistern.wf = true) : (k.restoreCistern bs).cistern.wf = true :=
  foldl_wf (fun _ _ hm => Memory.wf_write hm _ _) _ h

theorem CoreSt.restoreImage_wf {k : CoreSt} {bs : List Byte} (h : k.cistern.wf = true) : (k.restoreImage bs).cistern.wf = true :=
  CoreSt.restoreCistern_wf (k := (k.restoreEngine bs).restoreSection _) h

end Sys2Proof.Machine
end
section
/-! PROOF. The invariant `MemInv` under the state's own operations: one rule for each. -/

namespace Sys2Proof.Machine

/-- An outcome whose next state, if it has one, has every memory in canonical form. -/
def Keeps (o : Out) : Prop := ∀ t, o = .next t → MemInv t

section
variable {s t : State}

theorem MemInv.next (h : MemInv s) : Keeps (.next s) := by
  rintro _ ⟨⟩
  exact h

/-- Where every memory is the same, so is its form. -/
theorem MemInv.frame (h : MemInv s) (hm : t.mem = s.mem) (hr : t.host.recBuf = s.host.recBuf) (hc : t.cores = s.cores)
    (ht : t.teams = s.teams) : MemInv t := by
  unfold MemInv State.core at *
  rw [hm, hr, hc, ht]
  exact h

theorem MemInv.core_wf (h : MemInv s) (c : CoreId) : (s.core c).cistern.wf = true := h.2.2.1 c
theorem MemInv.mem_wf (h : MemInv s) : s.mem.wf = true := h.1
theorem MemInv.recBuf_wf (h : MemInv s) : s.host.recBuf.wf = true := h.2.1
theorem MemInv.saved_wf (h : MemInv s) {t : Team} (ht : t ∈ s.teams) {x : Context} (hx : x ∈ t.saved) :
    x.core.cistern.wf = true := h.2.2.2 t ht x hx

/-! ### Control flow -/

theorem MemInv.ite {p : Prop} [Decidable p] (h : MemInv s) (h' : MemInv t) : MemInv (if p then s else t) := by
  split
  · exact h
  · exact h'

theorem MemInv.ite_fst {α : Type} {p : Prop} [Decidable p] {x y : State × α} (h : MemInv x.1) (h' : MemInv y.1) :
    MemInv (if p then x else y).1 := by
  split
  · exact h
  · exact h'

theorem MemInv.foldl {α : Type} {f : State → α → State} {xs : List α} (h : MemInv s)
    (hf : ∀ s x, MemInv s → MemInv (f s x)) : MemInv (xs.foldl f s) := by
  induction xs generalizing s with
  | nil => exact h
  | cons x xs ih => exact ih (hf s x h)

theorem MemInv.foldlM {α : Type} {f : State → α → Option State} {xs : List α} (h : MemInv s)
    (hf : ∀ s x, MemInv s → ∀ t ∈ f s x, MemInv t) : ∀ t ∈ xs.foldlM f s, MemInv t := by
  induction xs generalizing s with
  | nil =>
    rintro _ ⟨⟩
    exact h
  | cons x xs ih =>
    intro t ht
    rw [List.foldlM_cons] at ht
    obtain ⟨u, hu, ht⟩ := Option.bind_eq_some_iff.mp ht
    exact ih (hf s x h u hu) t ht

theorem MemInv.getD {o : Option State} (ho : ∀ t ∈ o, MemInv t) (h : MemInv s) : MemInv (o.getD s) := by
  cases o with
  | none => exact h
  | some t => exact ho t rfl

theorem MemInv.fst {α : Type} {x : State × α} {a : α} (h : MemInv x.1) (e : x = (t, a)) : MemInv t := by
  rw [e] at h
  exact h

theorem MemInv.snd {α : Type} {x : α × State} {a : α} (h : MemInv x.2) (e : x = (a, t)) : MemInv t := by
  rw [e] at h
  exact h

/-! ### Cores -/

theorem MemInv.setCore {c : CoreId} {k : CoreSt} (h : MemInv s) (hk : k.cistern.wf = true) : MemInv (s.setCore c k) := by
  refine ⟨h.mem_wf, h.recBuf_wf, fun d => ?_, fun _ ht _ hx => h.saved_wf ht hx⟩
  rw [State.core_setCore]
  split
  · exact hk
  · exact h.core_wf d

/-- An operation on one core that keeps its Cistern's form. -/
theorem MemInv.modCore_wf {c : CoreId} {f : CoreSt → CoreSt} (h : MemInv s)
    (hf : ∀ k, k.cistern.wf = true → (f k).cistern.wf = true) : MemInv (s.modCore c f) := h.setCore (hf _ (h.core_wf c))

/-- An operation on one core that leaves its Cistern. -/
theorem MemInv.modCore {c : CoreId} {f : CoreSt → CoreSt} (h : MemInv s) (hf : ∀ k, (f k).cistern = k.cistern) :
    MemInv (s.modCore c f) := h.modCore_wf fun k hk => (hf k).symm ▸ hk

theorem MemInv.modCur_wf {f : CoreSt → CoreSt} (h : MemInv s)
    (hf : ∀ k, k.cistern.wf = true → (f k).cistern.wf = true) : MemInv (s.modCur f) := h.modCore_wf hf

theorem MemInv.modCur {f : CoreSt → CoreSt} (h : MemInv s) (hf : ∀ k, (f k).cistern = k.cistern) :
    MemInv (s.modCur f) := h.modCore hf

theorem MemInv.eachCore {f : CoreId → CoreSt → CoreSt} (h : MemInv s) (hf : ∀ c k, (f c k).cistern = k.cistern) :
    MemInv (s.eachCore f) := by
  refine ⟨h.mem_wf, h.recBuf_wf, fun d => ?_, fun _ ht _ hx => h.saved_wf ht hx⟩
  rw [State.core_eachCore, hf]
  exact h.core_wf d

/-! ### Teams -/

theorem mem_replaceFirst {α : Type} {p : α → Bool} {f : α → α} {xs : List α} {y : α} (hy : y ∈ replaceFirst p f xs) :
    y ∈ xs ∨ ∃ x ∈ xs, y = f x := by
  induction xs with
  | nil => exact .inl hy
  | cons x xs ih =>
    unfold replaceFirst at hy
    split at hy
    · rcases List.mem_cons.mp hy with rfl | hy
      · exact .inr ⟨x, List.mem_cons_self, rfl⟩
      · exact .inl (List.mem_cons_of_mem _ hy)
    · rcases List.mem_cons.mp hy with rfl | hy
      · exact .inl List.mem_cons_self
      · rcases ih hy with hy | ⟨z, hz, e⟩
        · exact .inl (List.mem_cons_of_mem _ hy)
        · exact .inr ⟨z, List.mem_cons_of_mem _ hz, e⟩

/-- The saved contexts of a team all have their Cisterns in canonical form. -/
def Team.SavedOk (t : Team) : Prop := ∀ x ∈ t.saved, x.core.cistern.wf = true

theorem MemInv.savedOk (h : MemInv s) {t : Team} (ht : t ∈ s.teams) : t.SavedOk := fun _ hx => h.saved_wf ht hx

theorem MemInv.setTeams {ts : List Team} (h : MemInv s) (hts : ∀ t ∈ ts, t.SavedOk) : MemInv { s with teams := ts } :=
  ⟨h.mem_wf, h.recBuf_wf, h.core_wf, hts⟩

theorem MemInv.modTeam_ok {p : Team → Bool} {f : Team → Team} (h : MemInv s) (hf : ∀ t, t.SavedOk → (f t).SavedOk) :
    MemInv (s.modTeam p f) := by
  refine h.setTeams fun t ht => ?_
  rcases mem_replaceFirst ht with ht | ⟨u, hu, rfl⟩
  · exact h.savedOk ht
  · exact hf u (h.savedOk hu)

theorem MemInv.modTeam {p : Team → Bool} {f : Team → Team} (h : MemInv s) (hf : ∀ t, (f t).saved = t.saved) :
    MemInv (s.modTeam p f) := h.modTeam_ok fun t ht x hx => ht x (hf t ▸ hx)

/-! ### Everything else that is not a memory -/

theorem MemInv.modPart {p : PartId} {f : PartSt → PartSt} (h : MemInv s) : MemInv (s.modPart p f) := h
theorem MemInv.modDie {d : DieId} {f : DieSt → DieSt} (h : MemInv s) : MemInv (s.modDie d f) := h
theorem MemInv.setTag {b : Nat} {on : Bool} (h : MemInv s) : MemInv (s.setTag b on) := h
theorem MemInv.setPoison {b : Nat} {on : Bool} (h : MemInv s) : MemInv (s.setPoison b on) := h
theorem MemInv.modHost {f : HostSt → HostSt} (h : MemInv s) (hf : ∀ x, (f x).recBuf = x.recBuf) : MemInv (s.modHost f) :=
  ⟨h.mem_wf, (hf s.host).symm ▸ h.recBuf_wf, h.core_wf, fun _ => h.savedOk⟩

/-! ### Device memory -/

theorem MemInv.writePhys {pa : Nat} {bs : List Byte} {seen : Bool} (h : MemInv s) : MemInv (s.writePhys pa bs seen) := by
  rcases s.writePhys_cases pa bs seen with ⟨_, e⟩ | ⟨_, _, hm, e, hc⟩ | ⟨_, _, e⟩
  · rw [e]
    exact h
  · have hh : (s.writePhys pa bs seen).host = s.host := by simpa using congrArg State.host e
    have ht : (s.writePhys pa bs seen).teams = s.teams := by simpa using congrArg State.teams e
    refine ⟨hm ▸ Memory.wf_write h.mem_wf pa bs, hh ▸ h.recBuf_wf, fun c => ?_, fun _ hu => h.savedOk (ht ▸ hu)⟩
    have : ((s.writePhys pa bs seen).core c).cistern = (s.core c).cistern := by
      simpa using congrArg CoreSt.cistern (hc c)
    exact this ▸ h.core_wf c
  · rw [e]
    exact h

theorem MemInv.copyFrame {src dst n : Nat} (h : MemInv s) : MemInv (s.copyFrame src dst n) :=
  ⟨State.wf_copyFrame h.mem_wf src dst n, h.recBuf_wf, h.core_wf, fun _ => h.savedOk⟩

end
end Sys2Proof.Machine
end
section
/-! PROOF. Every operation of the device keeps `MemInv`, in the order of the model; a function that answers several things keeps it in
the state among them. An instruction whose meaning is one of these operations is left to `exec_keeps` at the end. -/

namespace Sys2Proof.Machine

section
variable {s : State}

/-! ### The named operations: registers, physical memory, telemetry, the host, traps -/

theorem MemInv.setG {r : BitVec 5} {x : DWord} (h : MemInv s) : MemInv (s.setG r x) := h.modCur fun _ => by simp

theorem MemInv.setPc {x : DWord} (h : MemInv s) : MemInv (s.setPc x) := h.modCur fun _ => rfl

theorem MemInv.advance (h : MemInv s) : MemInv s.advance := h.modCur fun _ => rfl

theorem MemInv.result {d : BitVec 5} {x : DWord} (h : MemInv s) : MemInv (s.result d x) := h.setG.advance

theorem MemInv.putPhys {pa n x : Nat} (h : MemInv s) : MemInv (s.putPhys pa n x) := h.writePhys

theorem MemInv.poisonAll {bs : List Nat} (h : MemInv s) : MemInv (s.poisonAll bs) := h.foldl (fun _ _ ht => ht.setPoison)

theorem MemInv.writeOwn {pa : Nat} {bs : List Byte} (h : MemInv s) : MemInv (s.writeOwn pa bs) := MemInv.ite h h.writePhys

theorem MemInv.telemetry {d : DieId} {core : Option CoreId} {kind : Nat} {words : List DWord}
    (h : MemInv s) : MemInv (s.telemetry d core kind words) := MemInv.ite h h.writeOwn.modDie

theorem MemInv.reportPoison {pa : Nat} (h : MemInv s) : MemInv (s.reportPoison pa) := h.telemetry

theorem MemInv.hostIrq {bit : Nat} (h : MemInv s) : MemInv (s.hostIrq bit) := h

theorem MemInv.stopCore {c : CoreId} {why : BitVec 2} (h : MemInv s) : MemInv (s.stopCore c why) :=
  MemInv.hostIrq (MemInv.telemetry (h.modCore fun _ => rfl))

theorem MemInv.enterTrap {c : CoreId} {cause epc val val2 rec : DWord} (h : MemInv s) : MemInv (s.enterTrap c cause epc val val2 rec) :=
  MemInv.ite (MemInv.stopCore (h.modCore fun _ => rfl)) (h.modCore fun _ => rfl)

theorem MemInv.syncTrap {cause : Byte} {epc val val2 : DWord} (h : MemInv s) : MemInv (s.syncTrap cause epc val val2) :=
  MemInv.ite h.stopCore h.enterTrap

theorem MemInv.faultNow {cause : Byte} {val : DWord} (h : MemInv s) : MemInv (s.faultNow cause val) := h.syncTrap

theorem MemInv.freshCode {pa n : Nat} (h : MemInv s) : MemInv (s.freshCode pa n) := h.eachCore fun _ _ => rfl

theorem MemInv.takePending {c : CoreId} (h : MemInv s) : MemInv (s.takePending c) := by
  unfold State.takePending
  extract_lets +onlyGivenNames k
  split
  · exact h
  · exact MemInv.enterTrap (h.setCore (h.core_wf c))

theorem MemInv.leaveTrap (h : MemInv s) : MemInv s.leaveTrap :=
  MemInv.takePending (MemInv.ite (h.modCur fun _ => rfl) (h.modCur fun _ => rfl))

/-! ### Branches and jumps (R122 to R124) -/

theorem MemInv.jump {t : DWord} {link : Option (BitVec 5)} {align : Bool} (h : MemInv s) : MemInv (s.jump t link align) := by
  unfold State.jump
  split
  · exact h.faultNow
  · split
    · exact h.faultNow
    · split
      · exact h.setG.setPc
      · exact h.setPc

theorem MemInv.branch {taken : Bool} {off : BitVec 16} (h : MemInv s) : MemInv (s.branch taken off) := MemInv.ite h.jump h.advance

/-! ### Translation and copies on write (R268 to R276) -/

theorem MemInv.takeFrame {p : PartId} {big : Bool} (h : MemInv s) : ∀ x ∈ s.takeFrame p big, MemInv x.1 := by
  unfold State.takeFrame
  extract_lets +onlyGivenNames d n at_ frame
  split
  · rintro _ ⟨⟩
  · cases s.poisoned at_ 8 || s.liveIn frame (if big then 65536 else 4096)
    · rintro _ ⟨⟩
      exact h.putPhys
    · rintro _ ⟨⟩

theorem MemInv.logCopy {p : PartId} {va old new : Nat} {gen : Byte} {size : Nat}
    (h : MemInv s) : MemInv (s.logCopy p va old new gen size) := h.writeOwn.putPhys

theorem MemInv.dropTlb {p : PartId} {base size : Nat} (h : MemInv s) : MemInv (s.dropTlb p base size) := h.eachCore fun _ _ => rfl

theorem MemInv.moveMonitors {p : PartId} {va size old new : Nat} (h : MemInv s) : MemInv (s.moveMonitors p va size old new) := by
  unfold State.moveMonitors
  exact h.eachCore fun _ _ => CoreSt.ite_cistern_same rfl

theorem MemInv.copyUnit {p : PartId} {va size old new entry : Nat} {w : DWord} {gen : Byte}
    (h : MemInv s) : MemInv (s.copyUnit p va size old new entry w gen) := h.copyFrame.writeOwn.dropTlb.moveMonitors.logCopy

theorem MemInv.splitLarge {p : PartId} {va entry : Nat} {w : DWord} (h : MemInv s) : ∀ t ∈ s.splitLarge p va entry w, MemInv t := by
  unfold State.splitLarge
  split
  · rintro _ ⟨⟩
  · rename_i e₁
    have h₁ := h.takeFrame _ e₁
    split
    · rintro _ ⟨⟩
    · rename_i e₂
      have h₂ := h₁.takeFrame _ e₂
      rintro _ ⟨⟩
      exact h₂.writePhys.writeOwn.dropTlb.copyUnit

theorem MemInv.splitHuge {p : PartId} {va entry : Nat} {w : DWord} (h : MemInv s) : ∀ t ∈ s.splitHuge p va entry w, MemInv t := by
  unfold State.splitHuge
  split
  · rintro _ ⟨⟩
  · rename_i e₁
    have h₁ := h.takeFrame _ e₁
    exact h₁.writePhys.writeOwn.dropTlb.splitLarge

theorem MemInv.copyOnWrite {p : PartId} {va : Nat} {m : Mapping} (h : MemInv s) : ∀ t ∈ s.copyOnWrite p va m, MemInv t := by
  unfold State.copyOnWrite
  split
  · rintro _ ⟨⟩
  · split
    · rintro _ ⟨⟩
      exact h
    · split
      · rintro _ ⟨⟩
      · rename_i e₁
        have h₁ := h.takeFrame _ e₁
        rintro _ ⟨⟩
        exact h₁.copyUnit
    · split
      · split
        · rintro _ ⟨⟩
        · rename_i e₁
          have h₁ := h.takeFrame _ e₁
          rintro _ ⟨⟩
          exact h₁.copyUnit
      · split
        · exact h.splitLarge
        · split
          · exact h.writePhys.dropTlb.splitHuge
          · exact h.splitHuge

theorem MemInv.resolveIn {p : PartId} {va : Nat} {acc : Access} (h : MemInv s) : ∀ x, s.resolveIn p va acc = .ok x → MemInv x.2 := by
  unfold State.resolveIn
  split
  · rintro _ ⟨⟩
  · split
    · rintro _ ⟨⟩
    · split
      · split
        · rintro _ ⟨⟩
        · rename_i e₁
          have h₁ := h.copyOnWrite _ e₁
          split
          · rintro _ ⟨⟩
          · rintro _ ⟨⟩
            exact h₁
      · rintro _ ⟨⟩
        exact h

theorem MemInv.resolve {c : CoreId} {engine : Bool} {va : Nat} {acc : Access}
    (h : MemInv s) : ∀ x, s.resolve c engine va acc = .ok x → MemInv x.2 := by
  unfold State.resolve
  extract_lets +onlyGivenNames _
  split
  · rintro _ ⟨⟩
  · split
    · rintro _ ⟨⟩
      exact h
    · exact h.resolveIn

theorem MemInv.resolveFor {c : CoreId} {x : Cmd} {va : Nat} {acc : Access}
    (h : MemInv s) : ∀ y, s.resolveFor c x va acc = .ok y → MemInv y.2 := by
  unfold State.resolveFor
  split
  · rintro _ ⟨⟩
    exact h
  · exact h.resolve

theorem MemInv.tlbFill {c : CoreId} {engine : Bool} {va : Nat} (h : MemInv s) : MemInv (s.tlbFill c engine va) := by
  unfold State.tlbFill
  split
  · exact h
  · exact h.modCore fun _ => by simp

theorem MemInv.tlbDrop {c : CoreId} {engine : Bool} {n : Nat} (h : MemInv s) : MemInv (s.tlbDrop c engine n) := h.modCore fun _ => by simp

theorem MemInv.reach {va : DWord} {n : Nat} {acc : Access} {host : Bool}
    (h : MemInv s) : ∀ x, s.reach va n acc host = .ok x → MemInv x.2 := by
  unfold State.reach
  split
  · rintro _ ⟨⟩
  · split
    · rintro _ ⟨⟩
    · rename_i e₁
      have h₁ := h.resolve _ e₁
      split
      · rintro _ ⟨⟩
      · rintro _ ⟨⟩
        exact h₁

theorem MemInv.storeAt {va : DWord} {n : Nat} (h : MemInv s) : ∀ x, s.storeAt va n = .ok x → MemInv x.2 := by
  unfold State.storeAt
  split
  · rintro _ ⟨⟩
  · rename_i e₁
    have h₁ := h.reach _ e₁
    split
    · rintro _ ⟨⟩
    · rintro _ ⟨⟩
      exact h₁

theorem MemInv.refuse {e : Refused} (h : MemInv s) : MemInv (s.refuse e) := h.faultNow

theorem MemInv.hold {p : PartId} {hdr : HeldWrite} (h : MemInv s) : MemInv (s.hold p hdr) := h.modPart

theorem MemInv.writeAs {live : Bool} {p : PartId} {va : Nat} {bs : List Byte} (h : MemInv s) : MemInv (s.writeAs live p va bs) := by
  unfold State.writeAs
  split
  · exact h.hold
  · split
    · rename_i e₁
      have h₁ := h.resolveIn _ e₁
      exact MemInv.ite h h₁.writePhys
    · exact MemInv.ite h.hold h

theorem MemInv.writeIn {p : PartId} {va : Nat} {bs : List Byte} (h : MemInv s) : MemInv (s.writeIn p va bs) := h.writeAs

theorem MemInv.putLive {p : PartId} {va n x : Nat} (h : MemInv s) : MemInv (s.putLive p va n x) := h.writeAs

theorem MemInv.putIn {p : PartId} {va n x : Nat} (h : MemInv s) : MemInv (s.putIn p va n x) := h.writeIn

/-! ### Loads, stores and atomics of a control core (R116 to R120, R267, R298) -/

theorem MemInv.holdHost {pa n : Nat} {d : BitVec 5} {va : DWord} (h : MemInv s) : MemInv (s.holdHost pa n d va) := h.modCur fun _ => rfl

theorem MemInv.loadTo {d : BitVec 5} {va : DWord} {n : Nat} (h : MemInv s) : MemInv (s.loadTo d va n) := by
  unfold State.loadTo
  split
  · exact h.refuse
  · rename_i e₁
    have h₁ := h.reach _ e₁
    exact MemInv.ite h.holdHost (MemInv.ite h.faultNow h.result)

theorem MemInv.noteStale {cls : BitVec 4} {pa n : Nat} (h : MemInv s) : MemInv (s.noteStale cls pa n) :=
  MemInv.ite h (h.modCur fun _ => rfl)

theorem MemInv.storeFrom {cls : BitVec 4} {va : DWord} {n : Nat} {x : DWord} (h : MemInv s) : MemInv (s.storeFrom cls va n x) := by
  unfold State.storeFrom
  split
  · exact h.refuse
  · rename_i e₁
    have h₁ := h.storeAt _ e₁
    exact h₁.noteStale.putPhys.advance

theorem MemInv.amo {op : BitVec 3} {cls : BitVec 4} {n : Nat} {d a b : BitVec 5} (h : MemInv s) : MemInv (s.amo op cls n d a b) := by
  unfold State.amo
  extract_lets +onlyGivenNames _
  split
  · exact h.refuse
  · rename_i e₁
    have h₁ := h.reach _ e₁
    split
    · exact h.faultNow
    · split
      · exact h.faultNow
      · extract_lets +onlyGivenNames _ s₂
        have h₂ : MemInv s₂ := by
          unfold s₂
          split
          · exact h₁.noteStale.putPhys
          · exact h₁
        exact h₂.result

/-! ### Tasks: suspending, waking, picking up, the completion tree (R34 to R37, R203 to R206, R242 to R244, R256) -/

theorem MemInv.setRecWord {p : PartId} {r : Addr} {i : Nat} {x : DWord} (h : MemInv s) : MemInv (s.setRecWord p r i x) := h.putIn

theorem MemInv.setTaskState {p : PartId} {r : Addr} {st : BitVec 4} (h : MemInv s) : MemInv (s.setTaskState p r st) := h.setRecWord

theorem MemInv.setRecFlag {p : PartId} {r : Addr} {n : Nat} {on : Bool} (h : MemInv s) : MemInv (s.setRecFlag p r n on) := h.setRecWord

theorem MemInv.setAreaWord {p : PartId} {r : Addr} {i : Nat} {x : DWord} (h : MemInv s) : MemInv (s.setAreaWord p r i x) := h.putIn

theorem MemInv.modTask {p : PartId} {r : Addr} {f : TaskInfo → TaskInfo} (h : MemInv s) : MemInv (s.modTask p r f) :=
  h.modTeam fun _ => rfl

theorem MemInv.enqueue {p : PartId} {r : Addr} (h : MemInv s) : MemInv (s.enqueue p r) := h.modTeam fun _ => rfl

theorem MemInv.setViewEntry {p : PartId} {r : Addr} {i : Nat} {v : ViewEntry} (h : MemInv s) : MemInv (s.setViewEntry p r i v) := h.writeIn

theorem MemInv.writeBlocks {p : PartId} {va n : Nat} {bs : List Byte} (h : MemInv s) : MemInv (s.writeBlocks p va n bs) := by
  induction n generalizing s va bs with
  | zero => exact h
  | succ n ih => exact ih h.writeIn

theorem MemInv.suspend {c : CoreId} {st kind : BitVec 4} {target : Addr} {thr pc : DWord} {dest : BitVec 5}
    (h : MemInv s) : MemInv (s.suspend c st kind target thr pc dest) := by
  unfold State.suspend
  extract_lets +onlyGivenNames _
  split
  · extract_lets +onlyGivenNames s₁ s₂ s₃ _ _ s₄ _ _ s₅ s₆ s₇
    have h₁ : MemInv s₁ := h.writeBlocks
    have h₂ : MemInv s₂ := h₁.setRecWord
    have h₃ : MemInv s₃ := h₂.setRecWord
    have h₄ : MemInv s₄ := h₃.setRecWord
    have h₅ : MemInv s₅ := h₄.setRecWord
    have h₆ : MemInv s₆ := h₅.modCore fun _ => rfl
    have h₇ : MemInv s₇ := h₆.modTask
    exact MemInv.ite h₇.enqueue h₇
  · exact h

theorem MemInv.suspendNext {st kind : BitVec 4} {target : Addr} {thr : DWord} {dest : BitVec 5}
    (h : MemInv s) : MemInv (s.suspendNext st kind target thr dest) := h.suspend.advance

theorem MemInv.wake {p : PartId} {r : Addr} {value : Option DWord} (h : MemInv s) : MemInv (s.wake p r value) := by
  unfold State.wake
  extract_lets +onlyGivenNames _ s₁ s₂
  have h₁ : MemInv s₁ := by
    unfold s₁
    split
    · exact MemInv.ite h.setRecWord h.setRecWord.putIn
    · exact h
  have h₂ : MemInv s₂ := h₁.setRecWord.setTaskState
  exact h₂.modTask.enqueue

theorem MemInv.wakeAll {p : PartId} {rs : List Addr} {value : Option DWord} (h : MemInv s) : MemInv (s.wakeAll p rs value) :=
  h.foldl (fun _ _ ht => ht.wake)

theorem MemInv.arm {c : CoreId} {m : Monitor} (h : MemInv s) : MemInv (s.arm c m) :=
  MemInv.ite (h.setCore (h.core_wf _)) (MemInv.telemetry (h.setCore (h.core_wf _)))

theorem MemInv.reread {c : CoreId} {m : Monitor} (h : MemInv s) : MemInv (s.reread c m).1 := by
  unfold State.reread
  split
  · rename_i e₁
    have h₁ := h.resolve _ e₁
    split
    · exact h
    · extract_lets +onlyGivenNames _
      split
      · exact h.wake
      · exact h
  · exact h

theorem MemInv.rereadAt {c : CoreId} {swept : Bool} {n : Nat} (h : MemInv s) : MemInv (s.rereadAt c swept n).1 := by
  unfold State.rereadAt
  split
  · exact h
  · extract_lets +onlyGivenNames s₁
    have h₁ : MemInv s₁ := h.modCore fun _ => by simp
    split
    rename_i e₁
    have h₂ := h₁.reread.fst e₁
    exact MemInv.ite (h₂.modCore fun _ => by simp) h₂

theorem MemInv.rereadFrom {c : CoreId} {swept : Bool} {sel : State → Monitor → Bool} {fuel i : Nat} (h : MemInv s) :
    MemInv (s.rereadFrom c swept sel fuel i) := by
  induction fuel generalizing s i with
  | zero => exact h
  | succ fuel ih =>
    unfold State.rereadFrom
    split
    · exact h
    · split
      · exact ih h.rereadAt
      · exact ih h

theorem MemInv.rereadCore {c : CoreId} {sel : State → Monitor → Bool} (h : MemInv s) : MemInv (s.rereadCore c sel) :=
  h.rereadFrom.rereadFrom

theorem execMonitorReread_keeps {c : CoreId} {n : BitVec 6} (h : MemInv s) : Keeps (execMonitorReread c n s) := by
  unfold execMonitorReread
  split
  · exact MemInv.next (MemInv.ite h.rereadAt h)
  · exact h.next

theorem MemInv.runTask {p : PartId} {c : CoreId} {t : Team} {r : Addr} (h : MemInv s) : MemInv (s.runTask p c t r) :=
  h.setTaskState.modCore fun _ => rfl

theorem execTaskPickup_keeps {c : CoreId} (h : MemInv s) : Keeps (execTaskPickup c s) := by
  unfold execTaskPickup
  split
  · split
    · split
      · exact h.next
      · split
        · exact h.next
        · extract_lets +onlyGivenNames s₁
          have h₁ : MemInv s₁ := h.modTeam fun _ => rfl
          split
          · exact MemInv.next (h₁.modCore fun _ => by simp)
          · split
            · exact h₁.next
            · exact h₁.runTask.next
    · exact h.next
  · exact h.next

theorem MemInv.reportIn {p : PartId} {va n : Nat} (h : MemInv s) : MemInv (s.reportIn p va n) := by
  unfold State.reportIn
  split
  · exact MemInv.ite h.reportPoison h
  · exact h

theorem MemInv.treeAdd {p : PartId} {va : Nat} {n : ℤ} (h : MemInv s) : MemInv (s.treeAdd p va n) := h.reportIn.putLive

theorem MemInv.addRefused {va : Nat} {l : Addr} (h : MemInv s) : MemInv (s.addRefused va l) := h.telemetry

theorem MemInv.addCount {p : PartId} {va : Nat} {l : Addr} (h : MemInv s) : MemInv (s.addCount p va l) := by
  unfold State.addCount
  split
  · exact h.hold
  · split
    · exact MemInv.ite h.hold h.addRefused
    · rename_i e₁
      have h₁ := h.resolveIn _ e₁
      exact MemInv.ite h.addRefused h₁.putPhys

theorem MemInv.countLaunch {p : PartId} {l : Addr} (h : MemInv s) : MemInv (s.countLaunch p l) := MemInv.ite h.addRefused h.addCount

theorem MemInv.setLaunchStatus {p : PartId} {l : Addr} {st : Nat} (h : MemInv s) : MemInv (s.setLaunchStatus p l st) := h.putIn

theorem MemInv.freeTree {a : Admitted} (h : MemInv s) : MemInv (s.freeTree a) := by
  unfold State.freeTree
  extract_lets +onlyGivenNames all s₁ s₂ gone s₃ forget s₄
  have h₁ : MemInv s₁ := h.foldl fun s i hs => by
    split
    · exact hs.setTag
    · exact hs
  have h₃ : MemInv s₃ := MemInv.eachCore h₁ fun _ k => by
    split
    · exact CoreSt.ite_cistern_same rfl
    · rfl
  have hf : ∀ k, (forget k).cistern = k.cistern := fun k => CoreSt.ite_cistern_same rfl
  have h₄ : MemInv s₄ := h₃.eachCore fun _ k => hf k
  refine h₄.setTeams fun t ht x hx => ?_
  obtain ⟨u, hu, rfl⟩ := List.mem_map.mp ht
  obtain ⟨y, hy, rfl⟩ := List.mem_map.mp hx
  rw [hf]
  exact h₄.saved_wf (List.mem_of_mem_filter hu) hy

theorem MemInv.maybeComplete {a : Admitted} (h : MemInv s) : MemInv (s.maybeComplete a) :=
  MemInv.ite (MemInv.freeTree (MemInv.ite h.setLaunchStatus.countLaunch.hostIrq h.setLaunchStatus.countLaunch)) h

theorem MemInv.reportShare {a : Admitted} {d : DieId} (h : MemInv s) : MemInv (s.reportShare a d) :=
  MemInv.ite h.treeAdd.treeAdd.maybeComplete h.treeAdd

theorem MemInv.shareAdd {p : PartId} {t : Team} {pos : Nat} {n : ℤ} (h : MemInv s) : MemInv (s.shareAdd p t pos n) := by
  unfold State.shareAdd
  split
  · exact h
  · exact MemInv.ite h.treeAdd.reportShare h.treeAdd

theorem MemInv.countTask {p : PartId} {r : Addr} (h : MemInv s) : MemInv (s.countTask p r) := by
  unfold State.countTask
  split
  · exact MemInv.ite h h.modTask.shareAdd
  · exact h

theorem MemInv.forgetTask {p : PartId} {r : Addr} (h : MemInv s) : MemInv (s.forgetTask p r) := h.modTeam fun _ => rfl

/-! ### Meetings, waits, queues and launches (R227 to R247) -/

theorem MemInv.illegal {i : Instr} (h : MemInv s) : MemInv (s.illegal i) := h.faultNow

theorem MemInv.taskFault {i : Instr} (h : MemInv s) : MemInv (s.taskFault i) := h.faultNow

theorem MemInv.wakeSet {ws : List (PartId × Addr)} {value : Option DWord} (h : MemInv s) : MemInv (s.wakeSet ws value) :=
  h.foldl (fun _ _ ht => ht.wakeAll)

theorem MemInv.publish {p : PartId} {m : Meeting} (h : MemInv s) : ∀ x ∈ s.publish p m, MemInv x.1 := by
  unfold State.publish
  split
  · rintro _ ⟨⟩
    exact h
  · split
    · split
      · rintro _ ⟨⟩
      · rintro _ ⟨⟩
        exact h
    · rename_i e₁
      have h₁ := h.resolveIn _ e₁
      rintro _ ⟨⟩
      exact MemInv.ite_fst h h₁.putPhys

theorem MemInv.closeRound {p : PartId} {pa : Nat} {m : Meeting} (h : MemInv s) : ∀ t ∈ s.closeRound p pa m, MemInv t := by
  intro t ht
  obtain ⟨x, hx, rfl⟩ := Option.map_eq_some_iff.mp ht
  exact (h.publish x hx).writePhys.wakeSet

theorem MemInv.meetAt {old : State} {p : PartId} {pa : Nat} {va : Addr} {acq : Bool} {d : BitVec 5} {x : DWord} {r : BitVec 16}
    {i : BitVec 6} (h : MemInv s) (ho : MemInv old) : MemInv (s.meetAt old p pa va acq d x r i) := by
  unfold State.meetAt
  extract_lets +onlyGivenNames m
  split
  · exact ho.result
  · split
    extract_lets +onlyGivenNames w
    split
    · split
      · rename_i e₁
        exact (h.closeRound _ e₁).result
      · exact ho.refuse
    · split
      · exact MemInv.ite h.writePhys.setG.suspendNext h.writePhys.result
      · exact ho.result

theorem execMeet_keeps {sfx : SyncSfx} {d a b : BitVec 5} (h : MemInv s) : Keeps (execMeet sfx d a b s) := by
  unfold execMeet
  extract_lets +onlyGivenNames ga va acq
  split
  · exact h.illegal.next
  · split
    · exact h.refuse.next
    · exact h.next
    · rename_i e₁ _
      have h₁ := h.reach _ e₁
      split
      · exact h.faultNow.next
      · split
        · exact h.result.next
        · exact (h₁.meetAt h).next

theorem execMinit_keeps {d a b : BitVec 5} (h : MemInv s) : Keeps (execMinit d a b s) := by
  unfold execMinit
  split
  · exact h.refuse.next
  · exact h.refuse.next
  · exact h.refuse.next
  · rename_i e₁
    have h₁ := h.reach _ e₁
    extract_lets +onlyGivenNames _
    split
    · exact h.result.next
    · split
      · exact h.result.next
      · exact h₁.writePhys.setTag.result.next

theorem execMread_keeps {d a : BitVec 5} (h : MemInv s) : Keeps (execMread d a s) := by
  unfold execMread
  split
  · exact h.refuse.next
  · exact h.result.next

theorem MemInv.unlive {pa : Nat} (h : MemInv s) : MemInv (s.unlive pa) := h.setTag.wakeSet

theorem execMfree_keeps {d a : BitVec 5} (h : MemInv s) : Keeps (execMfree d a s) := by
  unfold execMfree
  split
  · exact h.refuse.next
  · rename_i e₁
    have h₁ := h.reach _ e₁
    split
    · exact h₁.unlive.result.next
    · exact h.result.next

theorem MemInv.waitWord {kind : BitVec 4} {counter : Bool} {mode : BitVec 2} {d : BitVec 5} {va cmp : DWord}
    (h : MemInv s) : MemInv (s.waitWord kind counter mode d va cmp) := by
  unfold State.waitWord
  split
  · exact h.refuse
  · split
    · exact MemInv.ite h.advance h.result
    · split
      · exact h.advance
      · exact h.suspendNext.arm

theorem execWaitge_keeps {sfx : SyncSfx} {a b : BitVec 5} (h : MemInv s) : Keeps (execWaitge sfx a b s) := by
  unfold execWaitge
  split
  · exact h.illegal.next
  · exact h.waitWord.next

theorem execWaitaddr_keeps {mode : BitVec 2} {sfx : SyncSfx} {d a b : BitVec 5} (h : MemInv s) : Keeps (execWaitaddr mode sfx d a b s) := by
  unfold execWaitaddr
  split
  · exact h.illegal.next
  · exact h.waitWord.next

theorem execWake_keeps {a : BitVec 5} (h : MemInv s) : Keeps (execWake a s) := by
  unfold execWake
  extract_lets +onlyGivenNames _
  split
  · exact h.advance.next
  · rename_i e₁
    have h₁ := h.resolve _ e₁
    split
    · exact h.advance.next
    · exact MemInv.next (MemInv.advance (h.foldl (fun _ _ ht => ht.rereadCore)))

theorem MemInv.putQueue {pa : Nat} {q : Queue} (h : MemInv s) : MemInv (s.putQueue pa q) := h.writePhys

theorem MemInv.queueCheck {va : DWord} (h : MemInv s) : ∀ x, s.queueCheck va = .ok x → MemInv x.2 := by
  unfold State.queueCheck
  split
  · rintro _ ⟨⟩
  · rename_i e₁
    have h₁ := h.reach _ e₁
    split
    · rintro _ ⟨⟩
    · split
      · rintro _ ⟨⟩
      · rintro _ ⟨⟩
        exact h₁

theorem MemInv.wakeQueue {p : PartId} {n : Nat} {q : Queue} (h : MemInv s) : MemInv (s.wakeQueue p n q).1 := by
  induction n generalizing s q with
  | zero => exact h
  | succ n ih =>
    unfold State.wakeQueue
    split
    · exact h
    · exact ih h.wake

theorem MemInv.qpop {nb : Bool} {d a : BitVec 5} (h : MemInv s) : MemInv (s.qpop nb d a) := by
  unfold State.qpop
  extract_lets +onlyGivenNames _
  split
  · exact h.refuse
  · exact h
  · rename_i e₁ _
    have h₁ := h.queueCheck _ e₁
    extract_lets +onlyGivenNames _
    split
    · exact h.result
    · split
      · split
        · exact h.refuse
        · exact h₁.putQueue.result
      · split
        · exact h.result
        · split
          · exact h.result
          · split
            · exact h.advance
            · exact MemInv.suspendNext (MemInv.ite h₁.putQueue h₁.setRecWord.putQueue)

theorem execQpop_keeps {d a : BitVec 5} (h : MemInv s) : Keeps (execQpop d a s) := by
  unfold execQpop
  split
  · exact h.illegal.next
  · exact h.qpop.next

theorem execQpush_keeps {d a b : BitVec 5} (h : MemInv s) : Keeps (execQpush d a b s) := by
  unfold execQpush
  extract_lets +onlyGivenNames _
  split
  · exact h.refuse.next
  · exact h.next
  · rename_i e₁ _
    have h₁ := h.queueCheck _ e₁
    extract_lets +onlyGivenNames _
    split
    · exact h.result.next
    · split
      · exact h.result.next
      · split
        · exact h.faultNow.next
        · split
          · exact h₁.putQueue.wake.result.next
          · split
            · exact h.result.next
            · split
              · exact h.refuse.next
              · rename_i e₂
                have h₂ := h₁.storeAt _ e₂
                split
                · exact h.refuse.next
                · exact h₂.putPhys.putQueue.result.next

theorem execQclose_keeps {d a : BitVec 5} (h : MemInv s) : Keeps (execQclose d a s) := by
  unfold execQclose
  split
  · exact h.refuse.next
  · exact h.next
  · rename_i e₁ _
    have h₁ := h.queueCheck _ e₁
    extract_lets +onlyGivenNames q
    split
    · exact h.result.next
    · split
      · exact h.result.next
      · extract_lets +onlyGivenNames q' n
        split
        · exact h.faultNow.next
        · split
          rename_i e₂
          exact ((MemInv.ite_fst h₁.wakeQueue h₁).fst e₂).putQueue.result.next

theorem MemInv.queueLaunch {p : PartId} {va : Addr} {pa : Nat} (h : MemInv s) : MemInv (s.queueLaunch p va pa).1 := by
  unfold State.queueLaunch
  extract_lets +onlyGivenNames _ _
  split
  · exact h
  · split
    · exact h
    · extract_lets +onlyGivenNames _ _ s₁ s₂
      have h₁ : MemInv s₁ := h.putPhys
      have h₂ : MemInv s₂ := by
        unfold s₂
        split
        · exact h₁.putIn
        · exact h₁
      exact h₂.modPart

theorem execLaunch_keeps {d a : BitVec 5} (h : MemInv s) : Keeps (execLaunch d a s) := by
  unfold execLaunch
  extract_lets +onlyGivenNames _
  split
  · exact h.refuse.next
  · exact h.next
  · rename_i e₁ _
    have h₁ := h.queueCheck _ e₁
    split
    · rename_i e₂
      have h₂ := h₁.queueLaunch.fst e₂
      exact MemInv.next (MemInv.result (MemInv.ite h₂ h))

theorem execYield_keeps (h : MemInv s) : Keeps (execYield s) := by
  unfold execYield
  split
  · exact h.illegal.next
  · exact h.suspendNext.next

/-! ### Views, children, SYNC and EXIT (R46, R213 to R221) -/

theorem MemInv.linkViews {p : PartId} {r : Addr} (h : MemInv s) : MemInv (s.linkViews p r) := h.setRecFlag.setRecWord

theorem MemInv.unlinkViews {p : PartId} {r : Addr} (h : MemInv s) : MemInv (s.unlinkViews p r) := MemInv.ite h.setRecWord h

theorem MemInv.areaFault {p : PartId} {r : Addr} (h : MemInv s) : MemInv (s.areaFault p r) := h.faultNow

theorem execView_keeps {op : BitVec 3} {d a b : BitVec 5} (h : MemInv s) : Keeps (execView op d a b s) := by
  unfold execView
  extract_lets +onlyGivenNames _
  split
  · exact h.taskFault.next
  · split
    · exact h.areaFault.next
    · split
      · exact h.taskFault.next
      · split
        · exact h.taskFault.next
        · exact h.setViewEntry.linkViews.result.next

theorem execViewDrop_keeps {d a b : BitVec 5} (h : MemInv s) : Keeps (execViewDrop d a b s) := by
  unfold execViewDrop
  extract_lets +onlyGivenNames _
  split
  · exact h.taskFault.next
  · extract_lets +onlyGivenNames _
    split
    · exact h.areaFault.next
    · split
      · exact h.taskFault.next
      · extract_lets +onlyGivenNames _
        split
        · exact h.taskFault.next
        · exact h.setViewEntry.unlinkViews.result.next

theorem MemInv.storeBlocks {va n : Nat} {bs : List Byte} (h : MemInv s) : ∀ t, s.storeBlocks va n bs = .ok t → MemInv t := by
  induction n generalizing s va bs with
  | zero =>
    rintro _ ⟨⟩
    exact h
  | succ n ih =>
    unfold State.storeBlocks
    split
    · rintro _ ⟨⟩
    · rename_i e₁
      have h₁ := h.reach _ e₁
      split
      · rintro _ ⟨⟩
      · exact ih h₁.writePhys

theorem MemInv.adopt {p : PartId} {parent child : Addr} {slots : List (BitVec 6 × Nat)}
    (h : MemInv s) : MemInv (s.adopt p parent child slots) := by
  unfold State.adopt
  extract_lets +onlyGivenNames s₁ s₂
  have h₁ : MemInv s₁ := h.setAreaWord
  have h₂ : MemInv s₂ := h₁.setAreaWord
  split
  · exact MemInv.shareAdd (h₂.modTeam fun _ => rfl)
  · exact h₂

theorem execSpawn_keeps {d a b : BitVec 5} (h : MemInv s) : Keeps (execSpawn d a b s) := by
  unfold execSpawn
  extract_lets +onlyGivenNames _ _ _
  split
  · exact h.faultNow.next
  · split
    · exact h.faultNow.next
    · split
      · exact h.faultNow.next
      · split
        · exact h.faultNow.next
        · split
          · exact h.taskFault.next
          · extract_lets +onlyGivenNames _ _ _
            split
            · exact h.areaFault.next
            · split
              · exact h.taskFault.next
              · split
                · exact h.taskFault.next
                · split
                  · exact h.result.next
                  · extract_lets +onlyGivenNames _ _ _
                    split
                    · exact h.refuse.next
                    · rename_i e₁
                      have h₁ := h.storeBlocks _ e₁
                      exact MemInv.next (MemInv.result (MemInv.adopt (h₁.modCur_wf fun _ hk => CoreSt.fillCopies_wf hk)))

theorem MemInv.endGeneration {p : PartId} {r : Addr} (h : MemInv s) : MemInv (s.endGeneration p r).1 := h.setAreaWord.setAreaWord

theorem execSync_keeps {d : BitVec 5} (h : MemInv s) : Keeps (execSync d s) := by
  unfold execSync
  split
  · exact h.illegal.next
  · split
    · exact h.advance.next
    · split
      · exact h.areaFault.next
      · split
        · split
          · rename_i e₁
            have h₁ := h.endGeneration.fst e₁
            exact h₁.result.next
        · exact h.suspendNext.next

theorem MemInv.endTask {p : PartId} {r : Addr} (h : MemInv s) : MemInv (s.endTask p r) := by
  unfold State.endTask
  extract_lets +onlyGivenNames c s₁ child s₂ s₃ s₄
  have h₁ : MemInv s₁ := h.modCur fun _ => by simp
  have h₃ : MemInv s₃ := h₁.suspend.modCore fun _ => rfl
  have h₄ : MemInv s₄ := MemInv.ite h₃ h₃.countTask
  exact MemInv.ite h₄ h₄.forgetTask

theorem execExit_keeps (h : MemInv s) : Keeps (execExit s) := by
  unfold execExit
  split
  · exact h.illegal.next
  · split
    · exact h.advance.next
    · split
      · exact h.areaFault.next
      · split
        · exact h.suspend.next
        · split
          · rename_i e₁
            have h₁ := h.endGeneration.fst e₁
            split
            · exact h₁.suspend.next
            · exact h₁.endTask.next

/-! ### Traps raised by instructions, returns, code words and side-bands (R360, R361, R376 to R381) -/

theorem MemInv.codeWord {va : DWord} {acc : Access} (h : MemInv s) : ∀ x, s.codeWord va acc = .ok x → MemInv x.2 := by
  unfold State.codeWord
  split
  · rintro _ ⟨⟩
  · rename_i e₁
    have h₁ := h.reach _ e₁
    split
    · rintro _ ⟨⟩
    · rintro _ ⟨⟩
      exact h₁

theorem execDbrd_keeps {d a : BitVec 5} (h : MemInv s) : Keeps (execDbrd d a s) := by
  unfold execDbrd
  split
  · exact h.illegal.next
  · split
    · exact h.illegal.next
    · exact h.result.next
    · split
      · exact h.refuse.next
      · rename_i e₁
        have h₁ := h.codeWord _ e₁
        exact h.result.next

theorem execDbwr_keeps {a b : BitVec 5} (h : MemInv s) : Keeps (execDbwr a b s) := by
  unfold execDbwr
  split
  · exact h.illegal.next
  · split
    · exact h.illegal.next
    · exact MemInv.next (MemInv.advance (h.modCur fun _ => rfl))
    · split
      · exact h.refuse.next
      · rename_i e₁
        have h₁ := h.codeWord _ e₁
        split
        · exact h.refuse.next
        · exact h₁.putPhys.freshCode.advance.next

theorem execUntag_keeps {a : BitVec 5} (h : MemInv s) : Keeps (execUntag a s) := by
  unfold execUntag
  extract_lets +onlyGivenNames _
  split
  · exact h.illegal.next
  · split
    · exact h.faultNow.next
    · split
      · exact h.faultNow.next
      · split
        · exact h.refuse.next
        · rename_i e₁
          have h₁ := h.reach _ e₁
          extract_lets +onlyGivenNames s₂ s₃
          have h₂ : MemInv s₂ := MemInv.ite h₁.unlive h₁
          have h₃ : MemInv s₃ := MemInv.ite h₂.setPoison h₂
          exact h₃.advance.next

theorem MemInv.breakAt {n : Nat} (h : MemInv s) : MemInv (s.breakAt n) := h.faultNow.modCur fun _ => rfl

/-! ### Commands as the control core enters them (R86 to R93, R305) -/

theorem MemInv.illegalCmd {i : Instr} (h : MemInv s) : MemInv (s.illegalCmd i) := h.faultNow

theorem MemInv.enter {i : Instr} {hdr : CmdHdr} {a1 a2 : Word} {ctr : BitVec 15} (h : MemInv s) : MemInv (s.enter i hdr a1 a2 ctr) := by
  unfold State.enter
  split
  · exact h.illegalCmd
  · split
    · exact h
    · exact h.modCur fun _ => rfl

/-! ### Places of a command that the host has to answer -/

theorem MemInv.places {c : CoreId} {x : Cmd} {ps : List (DWord × Nat)} (h : MemInv s) :
    ∀ y, s.places c x ps = .ok y → MemInv y.2 := by
  induction ps generalizing s with
  | nil =>
    rintro _ ⟨⟩
    exact h
  | cons q ps ih =>
    unfold State.places
    split
    · rintro _ ⟨⟩
    · split
      · rintro _ ⟨⟩
      · rename_i e₁
        have h₁ := h.resolveFor _ e₁
        split
        · rintro _ ⟨⟩
        · rename_i e₂
          have h₂ := ih h₁ _ e₂
          rintro _ ⟨⟩
          exact h₂

theorem MemInv.putPieces {bad : Bool} {ps : List (Nat × Nat)} {bs : List Byte} (h : MemInv s) : MemInv (s.putPieces bad ps bs) := by
  induction ps generalizing s bs with
  | nil => exact h
  | cons q ps ih => exact ih (MemInv.ite h.writePhys.poisonAll h.writePhys)

/-! ### Flits and links (R302, R384, R385, R395, R396) -/

theorem MemInv.putLink {x : LinkSt} (h : MemInv s) : MemInv (s.putLink x) := h

theorem MemInv.modLink {l : Link} {f : LinkSt → LinkSt} (h : MemInv s) : MemInv (s.modLink l f) := h.putLink

theorem MemInv.sendFlit? {f : Flit} (h : MemInv s) : ∀ t ∈ s.sendFlit? f, MemInv t := by
  intro t ht
  obtain ⟨_, _, rfl⟩ := Option.map_eq_some_iff.mp ht
  exact h.modLink

theorem MemInv.answerFlit {type : BitVec 4} {f : Flit} (h : MemInv s) : MemInv (s.answerFlit type f) := h.modLink

theorem MemInv.sendAgain? {a b : DieId} {u : Unsent} (h : MemInv s) : ∀ t ∈ s.sendAgain? a b u, MemInv t := by
  intro t ht
  obtain ⟨_, _, rfl⟩ := Option.map_eq_some_iff.mp ht
  exact h.modLink

theorem MemInv.takeFlit {f : Flit} (h : MemInv s) : ∀ t ∈ s.takeFlit f, MemInv t := by
  unfold State.takeFlit
  extract_lets +onlyGivenNames _
  split
  · rintro _ ⟨⟩
    exact h.putLink.answerFlit
  · rintro _ ⟨⟩

/-! ### The dependency table: issue, completion, fatal ends (R304 to R313, R327 to R335) -/

theorem MemInv.modCmd {c : CoreId} {e : BitVec 6} {f : Cmd → Cmd} (h : MemInv s) : MemInv (s.modCmd c e f) := h.modCore fun _ => by simp

theorem MemInv.dropCmd {c : CoreId} {cmd : Cmd} (h : MemInv s) : MemInv (s.dropCmd c cmd) := by
  unfold State.dropCmd
  extract_lets +onlyGivenNames s₁
  have h₁ : MemInv s₁ := h.modCore fun _ => by simp
  split
  · exact MemInv.ite h₁.wake h₁
  · exact h₁

theorem MemInv.fatal {c : CoreId} {cmd : Cmd} {cause : Byte} (h : MemInv s) : MemInv (s.fatal c cmd cause) :=
  MemInv.dropCmd (h.modCore fun _ => by simp)

theorem MemInv.stopCmd {c : CoreId} {cmd : Cmd} {cause : Byte} {va : DWord} (h : MemInv s) : MemInv (s.stopCmd c cmd cause va) :=
  h.modCore fun _ => by simp

theorem MemInv.askHost {c : CoreId} {x : Cmd} {ps : List Piece} (h : MemInv s) : MemInv (s.askHost c x ps) := h.modCmd

theorem MemInv.readingBytes {c : CoreId} {x : Cmd} {ps : List (DWord × Nat)} {go : List (Byte × Bool) → State} (h : MemInv s)
    (hgo : ∀ bs, MemInv (go bs)) : MemInv (s.readingBytes c x ps go) := by
  unfold State.readingBytes
  split
  · exact hgo _
  · split
    · exact h.stopCmd
    · split
      · exact hgo _
      · exact h.askHost

theorem MemInv.openWindows {c : CoreId} {e : BitVec 6} (h : MemInv s) : MemInv (s.openWindows c e) := by
  unfold State.openWindows
  split
  · exact MemInv.ite h h.modCmd
  · exact h

theorem MemInv.begin {c : CoreId} {x : Cmd} (h : MemInv s) : ∀ t ∈ s.begin c x, MemInv t := by
  unfold State.begin
  extract_lets +onlyGivenNames k sh put
  clear_value sh
  have hput : ∀ j : CoreSt, j.cistern = k.cistern → ∀ t ∈ put j, MemInv t := by
    rintro j e _ ⟨⟩
    exact h.setCore (e ▸ h.core_wf c)
  split
  · rintro _ ⟨⟩
  · split
    · split
      · rintro _ ⟨⟩
      · exact hput _ (by simp)
    · extract_lets +onlyGivenNames a limit s₁
      have h₁ : MemInv s₁ := h.setCore (h.core_wf c)
      clear_value limit
      split
      · rintro _ ⟨⟩
      · split
        · rintro _ ⟨⟩
          exact h₁.setRecFlag
        · rintro _ ⟨⟩
          exact h₁
    · split
      · split
        · rintro _ ⟨⟩
        · extract_lets +onlyGivenNames k₁ s₁
          have h₁ : MemInv s₁ := h.setCore (h.core_wf c)
          split
          · rintro _ ⟨⟩
            exact MemInv.ite h₁ h₁.setRecFlag
          · rintro _ ⟨⟩
            exact h₁
      · rintro _ ⟨⟩
    · exact hput _ (by simp)
    · split
      · rintro _ ⟨⟩
      · exact hput _ (by simp)
    · split
      · exact hput _ (by simp)
      · rintro _ ⟨⟩
    · split
      · exact hput _ (by simp)
      · rintro _ ⟨⟩
    · split
      · exact hput _ (by simp)
      · rintro _ ⟨⟩
    · split
      · split
        · exact hput _ (by simp)
        · rintro _ ⟨⟩
      · rintro _ ⟨⟩
    · rintro _ ⟨⟩

theorem MemInv.consume {c : CoreId} {x : Cmd} (h : MemInv s) : MemInv (s.consume c x) := by
  unfold State.consume
  extract_lets +onlyGivenNames _ s₁
  have h₁ : MemInv s₁ := h.modCore fun _ => rfl
  split
  · exact MemInv.ite h₁.wake h₁
  · exact h₁

theorem MemInv.finish {c : CoreId} {x : Cmd} {add : Option (Nat × Nat × State)} (h : MemInv s) (hadd : ∀ y ∈ add, MemInv y.2.2) :
    MemInv (s.finish c x add) := by
  unfold State.finish
  extract_lets +onlyGivenNames hdr
  split
  · exact h.fatal
  · extract_lets +onlyGivenNames s₁ st
    have h₁ : MemInv s₁ := by
      unfold s₁
      split
      · exact (hadd _ rfl).putPhys
      · exact h
    refine MemInv.dropCmd (h₁.modCore fun k => ?_)
    have hs : ((k.signal hdr.signalSm hdr.increment).getD k).cistern = k.cistern := by
      cases e : k.signal hdr.signalSm hdr.increment with
      | none => rfl
      | some j => exact CoreSt.signal_cistern e
    simp [hs]

theorem MemInv.counterAt {c : CoreId} {x : Cmd} (h : MemInv s) : ∀ o, s.counterAt c x = .ok o → ∀ y ∈ o, MemInv y.2.2 := by
  unfold State.counterAt
  split
  · rintro _ ⟨⟩
  · rename_i e₁
    have h₁ := h.resolve _ e₁
    split
    · rintro _ ⟨⟩ y hy
      split at hy
      · cases hy
      · cases hy
        exact h₁
    · split
      · rintro _ ⟨⟩ _ ⟨⟩
      · rintro _ ⟨⟩ _ ⟨⟩
        exact h₁

theorem MemInv.complete {c : CoreId} {x : Cmd} (h : MemInv s) : MemInv (s.complete c x) := by
  unfold State.complete
  split
  · split
    · exact h.askHost
    · split
      · exact h.stopCmd
      · exact h.fatal
      · rename_i e₁
        exact h.finish (h.counterAt _ e₁)
  · exact h.finish fun _ hy => nomatch hy

theorem execCommandCompletion_keeps {c : CoreId} {entry : BitVec 6} (h : MemInv s) : Keeps (execCommandCompletion c entry s) := by
  unfold execCommandCompletion
  split
  · exact MemInv.next (MemInv.ite h.complete h)
  · exact h.next

theorem execAcqCommandTimeout_keeps {c : CoreId} (h : MemInv s) : Keeps (execAcqCommandTimeout c s) := by
  unfold execAcqCommandTimeout
  extract_lets +onlyGivenNames _
  split
  · split
    · exact MemInv.next (MemInv.suspend (h.modCore fun _ => rfl))
    · exact h.next
  · exact h.next

/-! ### The fabric: packets, collectives, transactions (R398 to R414) -/

/-- A path is no memory. -/
theorem MemInv.setPath {x : PathSt} (h : MemInv s) : MemInv (s.setPath x) := h.frame rfl rfl rfl rfl

theorem MemInv.sendOn {peer : BitVec 16} {m : FabMsg} {n : BitVec 4} (h : MemInv s) : MemInv (s.sendOn peer m n) := h

theorem MemInv.sendFab {peer : BitVec 16} {m : FabMsg} {every : Bool} (h : MemInv s) : MemInv (s.sendFab peer m every) :=
  MemInv.ite h (h.foldl (fun _ _ ht => ht.sendOn))

theorem MemInv.beginColl {c : CoreId} {x : Cmd} (h : MemInv s) : ∀ t ∈ s.beginColl c x, MemInv t := by
  unfold State.beginColl
  extract_lets +onlyGivenNames _
  split
  · split
    · rintro _ ⟨⟩
    · extract_lets +onlyGivenNames _ _ _
      split
      · rintro _ ⟨⟩
      · rintro _ ⟨⟩
        exact h.setCore (by simpa using h.core_wf _)
  · rintro _ ⟨⟩

theorem MemInv.contribute {p : PartId} {g : BitVec 4} {seq : BitVec 32} {members rank : Nat} {op comb : BitVec 4} {n esize : Nat}
    {data : List (Byte × Bool)} (h : MemInv s) : MemInv (s.contribute p g seq members rank op comb n esize data) := by
  unfold State.contribute
  split
  · exact h
  · exact MemInv.ite h h

theorem MemInv.writeElems {c : CoreId} {x : Cmd} {sh : Shape} {es : List (Nat × List (Byte × Bool) × Bool)} (h : MemInv s) :
    ∀ y, s.writeElems c x sh es = .ok y → MemInv y.1 := by
  induction es generalizing s x with
  | nil =>
    rintro _ ⟨⟩
    exact h
  | cons q es ih =>
    unfold State.writeElems
    split
    · rintro _ ⟨⟩
    · rename_i e₁
      have h₁ := h.places _ e₁
      extract_lets +onlyGivenNames bad x
      split
      · exact ih h₁
      · exact ih h₁.putPieces

theorem MemInv.tidyColls (h : MemInv s) : MemInv s.tidyColls := h

theorem MemInv.collStep {c : CoreId} {x : Cmd} (h : MemInv s) : MemInv (s.collStep c x) := by
  unfold State.collStep
  split
  · split
    · exact h
    · extract_lets +onlyGivenNames rank n st
      clear_value st
      split
      · exact h.fatal.tidyColls
      · split
        · exact h.fatal.tidyColls
        · split
          · refine h.readingBytes fun bs => ?_
            extract_lets +onlyGivenNames data s₁ s₂
            have h₁ : MemInv s₁ := h.foldl fun _ _ hs => hs.contribute
            exact MemInv.modCmd (MemInv.foldl h₁ fun _ _ hs => hs.sendFab)
          · split
            · exact h
            · split
              · exact h
              · split
                · exact h.stopCmd
                · rename_i e₁
                  exact (h.writeElems _ e₁).modCmd.tidyColls
  · exact h

theorem MemInv.modTxn {p : PartId} {x : TxnName} {f : TxnSt → TxnSt} (h : MemInv s) : MemInv (s.modTxn p x f) := h.modPart

theorem MemInv.openTxn {p : PartId} {x : TxnName} (h : MemInv s) : MemInv (s.openTxn p x) := MemInv.ite h h.modPart

theorem MemInv.overMesh {p : PartId} {x : TxnName} {a b : DieId} (h : MemInv s) : MemInv (s.overMesh p x a b) := MemInv.ite h h.modTxn

theorem MemInv.sendTxn {p : PartId} {x : TxnName} {a : DieId} {peer : BitVec 16} {m : FabMsg} {every : Bool}
    (h : MemInv s) : MemInv (s.sendTxn p x a peer m every) := h.modTxn.sendFab

theorem MemInv.toCoord {p : PartId} {x : TxnName} {a : DieId} {here : PartId → State → State} {m : CoreId → FabMsg} {every : Bool}
    (h : MemInv s) (hhere : ∀ q t, MemInv t → MemInv (here q t)) : MemInv (s.toCoord p x a here m every) := by
  unfold State.toCoord
  split
  · exact h
  · split
    · split
      · exact hhere _ _ h.overMesh.openTxn
      · exact h
    · exact h.sendTxn

theorem MemInv.doomAt {p : PartId} {x : TxnName} {reason : Byte} (h : MemInv s) : MemInv (s.doomAt p x reason) := h.modTxn

theorem MemInv.doom {p : PartId} {x : TxnName} {member target nth : Nat} {reason : Byte}
    (h : MemInv s) : MemInv (s.doom p x member target nth reason) := h.toCoord (fun _ _ ht => ht.doomAt)

theorem MemInv.ackAt {p : PartId} {x : TxnName} {member target nth : Nat} (h : MemInv s) : MemInv (s.ackAt p x member target nth) :=
  h.modTxn

theorem MemInv.ackStaged {p : PartId} {w : Staged} (h : MemInv s) : MemInv (s.ackStaged p w) := h.toCoord (fun _ _ ht => ht.ackAt)

theorem MemInv.vote {p : PartId} {x : TxnName} {rank sent : Nat} {commit : Bool} (h : MemInv s) : MemInv (s.vote p x rank sent commit) :=
  h.toCoord (fun _ _ ht => ht.modTxn)

theorem MemInv.releaseTxn {p : PartId} {x : TxnName} {commit : Bool} {reason : Byte} (h : MemInv s) :
    MemInv (s.releaseTxn p x commit reason) := by
  unfold State.releaseTxn
  extract_lets +onlyGivenNames mine close held waiting s₁ closeIn s₂
  have h₁ : MemInv s₁ := h.modTxn.eachCore fun _ _ => CoreSt.ite_cistern_same rfl
  have h₂ : MemInv s₂ := by
    refine h₁.setTeams fun t ht y hy => ?_
    obtain ⟨u, hu, rfl⟩ := List.mem_map.mp ht
    unfold closeIn at hy
    split at hy
    · obtain ⟨z, hz, rfl⟩ := List.mem_map.mp hy
      exact (h₁.saved_wf hu hz : z.core.cistern.wf = true)
    · exact h₁.saved_wf hu hy
  exact h₂.wakeSet

theorem MemInv.tryFinish {p : PartId} {x : TxnName} (h : MemInv s) : MemInv (s.tryFinish p x) := by
  unfold State.tryFinish
  extract_lets +onlyGivenNames _
  split
  · exact h
  · split
    · exact h
    · exact MemInv.ite h (MemInv.foldl (h.foldl (fun _ _ ht => ht.sendTxn)) (fun _ _ ht => ht.releaseTxn))

theorem MemInv.doneAt {p : PartId} {x : TxnName} {ranks : List Nat} (h : MemInv s) : MemInv (s.doneAt p x ranks) := h.modTxn.tryFinish

theorem MemInv.reportDone {p : PartId} {x : TxnName} (h : MemInv s) : MemInv (s.reportDone p x) :=
  h.modTxn.foldl (fun _ _ ht => ht.toCoord (fun _ _ hu => hu.doneAt))

theorem MemInv.discard {p : PartId} {x : TxnName} (h : MemInv s) : MemInv (s.discard p x) := h.modPart

theorem MemInv.decided {p : PartId} {x : TxnName} {commit : Bool} {reason : Byte} (h : MemInv s) : MemInv (s.decided p x commit reason) :=
  MemInv.ite h.openTxn (MemInv.ite h.openTxn.modTxn.modPart h.openTxn.modTxn.modPart.discard.reportDone)

theorem MemInv.closeTxn {r : Addr} (h : MemInv s) : MemInv (s.closeTxn r) := h.modCur fun _ => rfl

theorem execXbegin_keeps {d a : BitVec 5} (h : MemInv s) : Keeps (execXbegin d a s) := by
  unfold execXbegin
  extract_lets +onlyGivenNames _ _ _
  split
  · exact h.result.next
  · split
    · exact h.result.next
    · split
      · exact h.result.next
      · split
        · exact h.result.next
        · exact MemInv.next (MemInv.result (h.openTxn.modCur fun _ => rfl))

theorem MemInv.storeHere {p q : PartId} {core : CoreId} {w : Staged} (h : MemInv s) : MemInv (s.storeHere p q core w) :=
  h.overMesh.openTxn.modPart

theorem execXstore_keeps {size : BitVec 2} {d a b : BitVec 5} (h : MemInv s) : Keeps (execXstore size d a b s) := by
  unfold execXstore
  extract_lets +onlyGivenNames _ _
  split
  · exact h.refuse.next
  · split
    · exact h.taskFault.next
    · split
      · exact h.taskFault.next
      · split
        · exact h.taskFault.next
        · extract_lets +onlyGivenNames _
          split
          · extract_lets +onlyGivenNames _ _ _ s₁
            have h₁ : MemInv s₁ := h.modCur fun _ => rfl
            split
            · split
              · exact h₁.storeHere.advance.next
              · exact h₁.doom.advance.next
            · exact h₁.sendTxn.advance.next
          · exact h.taskFault.next

theorem execXcommit_keeps {d : BitVec 5} (h : MemInv s) : Keeps (execXcommit d s) := by
  unfold execXcommit
  split
  · exact h.illegal.next
  · split
    · exact h.result.next
    · split
      · exact h.result.next
      · split
        · split
          · exact h.closeTxn.result.next
          · exact MemInv.next (MemInv.suspendNext (MemInv.vote (h.modCur fun _ => rfl)))
        · exact h.result.next

theorem execXabort_keeps {d : BitVec 5} (h : MemInv s) : Keeps (execXabort d s) := by
  unfold execXabort
  split
  · exact h.illegal.next
  · split
    · exact h.result.next
    · split
      · exact h.result.next
      · exact h.vote.closeTxn.result.next

theorem execXstoreStage_keeps {p : PartId} (h : MemInv s) : Keeps (execXstoreStage p s) := by
  unfold execXstoreStage
  extract_lets +onlyGivenNames _
  split
  · exact h.next
  · extract_lets +onlyGivenNames s₁
    have h₁ : MemInv s₁ := h.modPart.modTxn
    split
    · exact h₁.next
    · extract_lets +onlyGivenNames _
      split
      · exact h₁.doom.next
      · split
        · exact h₁.doom.next
        · split
          · exact h₁.doom.next
          · exact h₁.modPart.ackStaged.next

theorem execTransactionDecision_keeps {p : PartId} {id : BitVec 32} (h : MemInv s) : Keeps (execTransactionDecision p id s) := by
  unfold execTransactionDecision
  split
  · exact h.next
  · extract_lets +onlyGivenNames _
    split
    · extract_lets +onlyGivenNames s₁
      have h₁ : MemInv s₁ := h.foldl (fun _ _ ht => ht.sendTxn)
      exact MemInv.next (h₁.foldl (fun _ _ ht => ht.decided))

theorem execTransactionTimeout_keeps {p : PartId} {id : BitVec 32} (h : MemInv s) : Keeps (execTransactionTimeout p id s) := by
  unfold execTransactionTimeout
  split
  · exact h.next
  · exact h.doomAt.next

theorem MemInv.applyStaged {p : PartId} {w : Staged} (h : MemInv s) : ∀ t ∈ s.applyStaged p w, MemInv t := by
  unfold State.applyStaged
  split
  · rintro _ ⟨⟩
  · rename_i e₁
    have h₁ := h.resolveIn _ e₁
    split
    · rintro _ ⟨⟩
    · rintro _ ⟨⟩
      exact h₁.putPhys

theorem MemInv.applyAll {p : PartId} {ws : List Staged} (h : MemInv s) : MemInv (s.applyAll p ws).1 := by
  induction ws generalizing s with
  | nil => exact h
  | cons w ws ih =>
    unfold State.applyAll
    split
    · rename_i e₁
      exact ih (h.applyStaged _ e₁)
    · exact h

theorem execTransactionApply_keeps {p : PartId} {id : BitVec 32} (h : MemInv s) : Keeps (execTransactionApply p id s) := by
  unfold execTransactionApply
  split
  · exact h.next
  · split
    · rename_i e₁
      have h₁ := h.applyAll.fst e₁
      exact MemInv.next (MemInv.ite h₁.modPart.reportDone h₁.modPart)

theorem execDecisionQuery_keeps {p : PartId} {id : BitVec 32} (h : MemInv s) : Keeps (execDecisionQuery p id s) := by
  unfold execDecisionQuery
  split
  · exact h.next
  · exact MemInv.next (h.toCoord (fun _ _ ht => h))

theorem MemInv.receiveAt {p : PartId} {peer : BitVec 16} {m : FabMsg} (h : MemInv s) : MemInv (s.receiveAt p peer m) := by
  unfold State.receiveAt
  split
  · exact MemInv.ite h.contribute h
  · exact MemInv.ite h.openTxn.modPart h
  · exact MemInv.ite h.openTxn.modTxn h
  · split
    · exact MemInv.ite h.openTxn.ackAt h
    · exact h.openTxn.doomAt
  · exact MemInv.ite h.decided h
  · exact MemInv.ite h.doneAt h
  · split
    · exact MemInv.ite h h.releaseTxn
    · exact h
  · split
    · exact h.foldl (fun _ _ ht => ht.sendTxn)
    · exact h
  · exact h
  · exact h

theorem MemInv.receive {peer : BitVec 16} {path : BitVec 4} {m : FabMsg} (h : MemInv s) : MemInv (s.receive peer path m) := by
  unfold State.receive
  split
  · exact h
  · split
    · exact h
    · extract_lets +onlyGivenNames s₁
      have h₁ : MemInv s₁ := h.receiveAt
      split
      · exact h₁.modTxn
      · exact h₁

/-- A packet's message is received once; a copy of it is acknowledged again and no more. -/
theorem acknowledged_keeps {k : Packet} {x y : PathSt} {m : FabMsg} {out : List Packet} (h : MemInv s) : Keeps
    (if x.got.contains k.seq then .next { s with fabOut := out }
    else .next ((State.setPath { s with fabOut := out } y).receive k.peer k.path m)) := by
  have h₁ : MemInv { s with fabOut := out } := h.frame rfl rfl rfl rfl
  split
  · exact h₁.next
  · exact MemInv.next (MemInv.receive (MemInv.setPath h₁))

theorem execFabricPacketReceive_keeps {k : Packet} (h : MemInv s) : Keeps (execFabricPacketReceive k s) := by
  unfold execFabricPacketReceive
  split
  · exact h.next
  · cases k.msg
    case ack => exact MemInv.next (MemInv.setPath h)
    case unsupported => exact h.next
    all_goals exact acknowledged_keeps h

theorem MemInv.doomCarried {gone : TxnSt → Bool} (h : MemInv s) : MemInv (s.doomCarried gone) :=
  h.foldl (fun _ _ ht => ht.foldl (fun _ _ hu => hu.doom))

theorem MemInv.retirePath {x : PathSt} (h : MemInv s) : MemInv (s.retirePath x) := by
  unfold State.retirePath
  extract_lets +onlyGivenNames s₁ s₂ s₃ touches
  have h₁ : MemInv s₁ := MemInv.setPath h
  have h₃ : MemInv s₃ := h₁.telemetry.doomCarried
  clear_value s₃
  split
  · exact h₃.foldl fun _ _ hs => hs.sendFab
  · exact h₃.frame rfl rfl rfl rfl

theorem execPacketRetransmit_keeps {peer : BitVec 16} {path : BitVec 4} {seq : BitVec 32} (h : MemInv s) :
    Keeps (execPacketRetransmit peer path seq s) := by
  unfold execPacketRetransmit
  extract_lets +onlyGivenNames x
  split
  · exact h.next
  · split
    · exact h.next
    · split
      · exact h.retirePath.next
      · exact MemInv.next (h.frame rfl rfl rfl rfl)

/-! ### Elements of commands, read and written one at a time (R260, R308, R320 to R328) -/

theorem MemInv.putCmd {c : CoreId} {x : Cmd} (h : MemInv s) : MemInv (s.putCmd c x) := h.modCmd

theorem MemInv.withBanks {c : CoreId} {who : BankParty} {banks : List Nat} {act : State → State} (h : MemInv s)
    (hact : ∀ t, MemInv t → MemInv (act t)) : MemInv (s.withBanks c who banks act) := by
  unfold State.withBanks
  split
  · exact h.modCore fun _ => rfl
  · exact hact _ (h.modCore fun _ => rfl)

theorem MemInv.reading {c : CoreId} {x : Cmd} {ps : List (DWord × Nat)} {go : List Byte → Bool → State} (h : MemInv s)
    (hgo : ∀ bs bad, MemInv (go bs bad)) : MemInv (s.reading c x ps go) := h.readingBytes fun _ => hgo _ _

theorem MemInv.writing {c : CoreId} {x : Cmd} {ps : List (DWord × Nat)} {bs : List Byte} {bad : Bool}
    (h : MemInv s) : MemInv (s.writing c x ps bs bad) := by
  unfold State.writing
  split
  · exact h.stopCmd
  · rename_i e₁
    have h₁ := h.places _ e₁
    exact MemInv.ite h₁.putCmd h₁.putPieces.putCmd

theorem MemInv.cmdBanks {c : CoreId} {x : Cmd} {banks : List Nat} {act : State → State} (h : MemInv s)
    (hact : ∀ t, MemInv t → MemInv (act t)) : MemInv (s.cmdBanks c x banks act) := h.withBanks hact

theorem MemInv.loadStep {c : CoreId} {x : Cmd} {sh : Shape} {p : PumpArgs} {a : Alloc} (h : MemInv s) : MemInv (s.loadStep c x sh p a) :=
  h.reading (fun _ _ => h.cmdBanks (fun _ ht => MemInv.putCmd (ht.modCore_wf fun _ hk => CoreSt.writeSpots_wf hk)))

theorem MemInv.storeStep {c : CoreId} {x : Cmd} {sh : Shape} {p : PumpArgs} {a : Alloc} (h : MemInv s) : MemInv (s.storeStep c x sh p a) :=
  h.cmdBanks (fun _ ht => ht.writing)

theorem MemInv.copyStep {c : CoreId} {x : Cmd} {sh : Shape} (h : MemInv s) : MemInv (s.copyStep c x sh) := h.reading (fun _ _ => h.writing)

theorem MemInv.fillStep {c : CoreId} {x : Cmd} {sh : Shape} {p : PumpArgs} {a : Alloc} {cause : Byte} (h : MemInv s) :
    MemInv (s.fillStep c x sh p a cause) := by
  unfold State.fillStep
  extract_lets +onlyGivenNames ss
  refine h.cmdBanks fun s hs => ?_
  extract_lets +onlyGivenNames s₁
  have h₁ : MemInv s₁ := MemInv.putCmd (hs.modCore_wf fun _ => CoreSt.writeSpots_wf)
  split
  · exact h₁.telemetry
  · exact h₁

theorem MemInv.gatherStep {c : CoreId} {x : Cmd} {sh : Shape} {p : PumpArgs} {a i : Alloc} (h : MemInv s) :
    MemInv (s.gatherStep c x sh p a i) := by
  unfold State.gatherStep
  extract_lets +onlyGivenNames k
  split
  · exact h.fillStep
  · split
    · exact h.putCmd
    · split
      · exact h.fillStep
      · extract_lets +onlyGivenNames all
        split
        · exact h.putCmd
        · refine h.reading fun bs bad => ?_
          extract_lets +onlyGivenNames ss
          refine h.cmdBanks fun s hs => ?_
          exact MemInv.putCmd (hs.modCore_wf fun _ hk => foldl_cistern_wf (fun _ _ => CoreSt.writeSpots_wf) ss hk)

theorem MemInv.scatterStep {c : CoreId} {x : Cmd} {sh : Shape} {p : PumpArgs} {a i : Alloc}
    (h : MemInv s) : MemInv (s.scatterStep c x sh p a i) := by
  unfold State.scatterStep
  extract_lets +onlyGivenNames _
  split
  · exact h.putCmd
  · split
    · exact h.putCmd
    · exact MemInv.ite h.putCmd (MemInv.ite h.putCmd (h.cmdBanks (fun _ ht => ht.writing)))

theorem MemInv.passStep {c : CoreId} {x : Cmd} {sh : Shape} {i : Alloc} (h : MemInv s) : MemInv (s.passStep c x sh i) := by
  unfold State.passStep
  extract_lets +onlyGivenNames _
  split
  · exact h
  · split
    · exact h.putCmd
    · split
      · exact MemInv.ite h.putCmd h.putCmd
      · exact h.putCmd

theorem MemInv.addStep {c : CoreId} {x : Cmd} {sh : Shape} {form : BitVec 2} {p : PumpArgs} {a i : Alloc} (h : MemInv s) :
    MemInv (s.addStep c x sh form p a i) := by
  unfold State.addStep
  extract_lets +onlyGivenNames k
  split
  · exact h
  · split
    · exact h
    · extract_lets +onlyGivenNames n all ss
      refine h.cmdBanks fun s hs => ?_
      extract_lets +onlyGivenNames vals
      split
      extract_lets +onlyGivenNames bad
      split
      · exact hs.stopCmd
      · rename_i e₁
        have h₁ := hs.places _ e₁
        extract_lets +onlyGivenNames pa
        split
        · exact h₁.askHost
        · split
          · exact h₁.putCmd
          · exact h₁.putPieces.putCmd

theorem MemInv.scanStep {c : CoreId} {x : Cmd} {sh : Shape} {tag : Tag} {flush row : Bool} {a l m : Alloc} (h : MemInv s) :
    MemInv (s.scanStep c x sh tag flush row a l m) := by
  unfold State.scanStep
  extract_lets +onlyGivenNames k w off elems last banks
  refine h.cmdBanks fun s hs => ?_
  extract_lets +onlyGivenNames bad on seen x s₁
  have h₁ : MemInv s₁ := MemInv.ite (hs.modCore_wf fun _ hk => CoreSt.putFar_wf (CoreSt.putFar_wf hk)) hs
  exact h₁.putCmd

theorem MemInv.shapeStep {c : CoreId} {x : Cmd} {n : BitVec 5} (h : MemInv s) : MemInv (s.shapeStep c x n) :=
  h.reading (fun _ _ => MemInv.ite (MemInv.fatal (h.modCore fun _ => rfl)) (MemInv.putCmd (h.modCore fun _ => rfl)))

theorem MemInv.clearStep {c : CoreId} {x : Cmd} {hnd : BitVec 6} (h : MemInv s) : MemInv (s.clearStep c x hnd) := by
  unfold State.clearStep
  split
  · exact h.putCmd
  · exact h.cmdBanks (fun _ ht => MemInv.putCmd (ht.modCore_wf fun _ hk => CoreSt.clearRect_wf hk))

theorem MemInv.swapImage {c : CoreId} {x : Cmd} {knl : BitVec 12} (h : MemInv s) : MemInv (s.swapImage c x knl) := by
  unfold State.swapImage
  extract_lets +onlyGivenNames _ _
  split
  · exact h.fatal
  · exact MemInv.putCmd (h.foldl (fun _ _ ht => ht.modCore fun _ => by simp))

theorem MemInv.swapStep {c : CoreId} {x : Cmd} {knl : BitVec 12} (h : MemInv s) : MemInv (s.swapStep c x knl) :=
  MemInv.ite h.fatal (MemInv.ite (MemInv.ite h h.swapImage) (h.readingBytes (fun _ => h.putCmd)))

theorem execCommandIssue_keeps {c : CoreId} {entry : BitVec 6} (h : MemInv s) : Keeps (execCommandIssue c entry s) := by
  unfold execCommandIssue
  extract_lets +onlyGivenNames k
  split
  · exact h.next
  · rename_i x _
    split
    · exact h.next
    · extract_lets +onlyGivenNames s₁
      have h₁ : MemInv s₁ := h.consume
      have h₂ : ∀ t, (if (collArgs x.op).isSome then s₁.beginColl c x else s₁.begin c x) = some t → MemInv t := by
        split
        · exact h₁.beginColl
        · exact h₁.begin
      split
      · exact h₁.fatal.next
      · rename_i e₁
        split
        · exact (h₂ _ e₁).complete.next
        · exact (h₂ _ e₁).openWindows.next

theorem execEngineElementAccess_keeps {c : CoreId} {entry : BitVec 6} (h : MemInv s) : Keeps (execEngineElementAccess c entry s) := by
  unfold execEngineElementAccess
  extract_lets +onlyGivenNames k
  split
  · exact h.next
  · split
    · exact h.next
    · split
      · exact h.shapeStep.next
      · exact h.clearStep.next
      · exact h.swapStep.next
      · exact h.copyStep.next
      · split
        · exact h.scanStep.next
        · exact h.next
      · split
        · split
          · exact MemInv.next (MemInv.ite h.loadStep h.storeStep)
          · refine MemInv.next ?_
            split
            · exact h.gatherStep
            · exact h.scatterStep
            · exact h.passStep
          · exact h.next
        · exact h.collStep.next
      · exact h.next

theorem execWellheadScatterAdd_keeps {c : CoreId} {entry : BitVec 6} (h : MemInv s) : Keeps (execWellheadScatterAdd c entry s) := by
  unfold execWellheadScatterAdd
  extract_lets +onlyGivenNames _
  split
  · exact h.next
  · split
    · exact h.next
    · split
      · split
        · exact h.addStep.next
        · exact h.next
      · exact h.next

/-! ### Variable-latency requests and remote atomics (R51, R259, R263 to R266) -/

theorem MemInv.bankEcc {c : CoreId} {unit : Nat} {found : ScrubFinding} (h : MemInv s) : MemInv (s.bankEcc c unit found) := by
  unfold State.bankEcc
  extract_lets +onlyGivenNames _ _ _
  split
  · exact h.telemetry
  · exact h.telemetry.modCore fun _ => rfl
  · exact h.telemetry.modCore fun _ => rfl
  · exact h

theorem MemInv.serveRemote {m : RemoteAtomic} (h : MemInv s) : MemInv (s.serveRemote m) := by
  unfold State.serveRemote
  extract_lets +onlyGivenNames k fail
  have hf : MemInv fail := h.modCore fun _ => by simp
  split
  · exact hf
  · extract_lets +onlyGivenNames v
    split
    · exact hf
    · exact MemInv.modCore (h.setCore (atomRow_wf (h.core_wf _) _ _ _ _ _ _)) fun _ => by simp

theorem MemInv.shipRemote {m : RemoteAtomic} (h : MemInv s) : MemInv (s.shipRemote m) := by
  unfold State.shipRemote
  split
  · exact h.modCore fun _ => rfl
  · extract_lets +onlyGivenNames _
    split
    · rename_i e₁
      have h₁ := h.sendFlit? _ e₁
      exact h₁
    · exact h.modCore fun _ => by simp

theorem MemInv.shipHeld {c : CoreId} {kept ms : List RemoteAtomic} (h : MemInv s) : MemInv (s.shipHeld c kept ms) := by
  induction ms generalizing s kept with
  | nil => exact h.modCore fun _ => rfl
  | cons m ms ih =>
    unfold State.shipHeld
    extract_lets +onlyGivenNames k
    split
    · exact ih h
    · exact ih h.shipRemote

theorem MemInv.releaseRemotes {c : CoreId} (h : MemInv s) : MemInv (s.releaseRemotes c) := by
  unfold State.releaseRemotes
  split
  · exact h
  · exact h.shipHeld

theorem MemInv.sendRemotes {c : CoreId} {ms : List RemoteAtomic} (h : MemInv s) : MemInv (s.sendRemotes c ms) :=
  MemInv.ite h (MemInv.releaseRemotes (h.modCore fun _ => rfl))

theorem MemInv.performRemote {m : RemoteAtomic} (h : MemInv s) : MemInv (s.performRemote m) := h.serveRemote.releaseRemotes

theorem execRemoteAtomicMessage_keeps {c : CoreId} (h : MemInv s) : Keeps (execRemoteAtomicMessage c s) := by
  unfold execRemoteAtomicMessage
  split
  · exact h.next
  · exact MemInv.next (h.withBanks (fun _ ht => MemInv.performRemote (ht.modCore fun _ => rfl)))

/-- A landed request's results are written to registers. -/
theorem execLandingDelivery_keeps {c : CoreId} {pos : KPos} (h : MemInv s) : Keeps (execLandingDelivery c pos s) := by
  refine MemInv.next (h.modCore fun k => ?_)
  dsimp only
  split
  · rfl
  · split
    · rfl
    · exact foldl_cistern (fun k (d : Due) => k.land_cistern pos d.cluster d.what d.arrive) _ _

theorem MemInv.performAll {d : CoreId} {ms : List RemoteAtomic} (h : MemInv s) : MemInv (s.performAll d ms) := by
  unfold State.performAll
  split
  · exact h
  · exact MemInv.foldl (h.modCore_wf fun _ hk => CoreSt.serveAll_wf hk) (fun _ _ ht => MemInv.performRemote (ht.modCore fun _ => by simp))

theorem MemInv.finishFar {c : CoreId} (h : MemInv s) : MemInv (s.finishFar c) := by
  unfold State.finishFar
  extract_lets +onlyGivenNames todo s₁ s₂
  have h₁ : MemInv s₁ := MemInv.modCore (s := { s with meshMsgs := _ }) h fun _ => rfl
  have h₂ : MemInv s₂ := h₁.foldl fun _ _ hs => hs.performAll
  exact h₂.modCore_wf fun k hk => by simpa using CoreSt.serveAll_wf hk

theorem MemInv.stopEngine {c : CoreId} {reason : BitVec 4} (h : MemInv s) : MemInv (s.stopEngine c reason) :=
  h.finishFar.modCore fun _ => by simp

/-! ### Snapshot images (R365 to R368) -/

theorem MemInv.writeImage {p : PartId} {va : Nat} {bs : List ImageBlock} (h : MemInv s) : MemInv (s.writeImage p va bs).1 := by
  induction bs generalizing s va with
  | nil => exact h
  | cons b bs ih =>
    unfold State.writeImage
    split
    · exact h
    · rename_i e₁
      have h₁ := h.resolveIn _ e₁
      split
      · exact h
      · exact ih (MemInv.ite h₁.writePhys.setPoison h₁.writePhys)

theorem MemInv.writeWhole {p : PartId} {va : Nat} {header : Bool → List Byte} {body : List ImageBlock} (h : MemInv s) :
    MemInv (s.writeWhole p va header body).1 := by
  unfold State.writeWhole
  split
  · rename_i e₁
    exact (h.writeImage.fst e₁).writeImage
  · exact h.writeImage

theorem MemInv.saveEngine {p : PartId} {va : Nat} {k : CoreSt} {c : CoreId} {reason : BitVec 4} {launch : Addr} {bad : Option ClusterId}
    (h : MemInv s) : MemInv (s.saveEngine p va k c reason launch bad).1 := h.writeWhole

theorem execSnapsave_keeps {d a b : BitVec 5} (h : MemInv s) : Keeps (execSnapsave d a b s) := by
  unfold execSnapsave
  split
  · exact h.illegal.next
  · split
    · exact h.refuse.next
    · split
      · exact h.result.next
      · extract_lets +onlyGivenNames _
        split
        · exact h.next
        · extract_lets +onlyGivenNames s₁
          have h₁ : MemInv s₁ := h.stopEngine
          split
          · rename_i e₂
            have h₂ := h₁.saveEngine.fst e₂
            exact h₂.result.next

theorem execSnapload_keeps {d a b : BitVec 5} (h : MemInv s) : Keeps (execSnapload d a b s) := by
  unfold execSnapload
  split
  · exact h.illegal.next
  · split
    · exact h.refuse.next
    · split
      · exact h.result.next
      · extract_lets +onlyGivenNames _ _ _
        split
        · exact h.result.next
        · split
          · exact h.result.next
          · exact MemInv.next (MemInv.result (h.modCore fun _ => by simp))

/-! ### A cc of a kernel engine (R208, R209, R364, R369, R376) -/

theorem MemInv.owedSnapshotAs {c : CoreId} {k : CoreSt} {reason : BitVec 4} {launch : Addr} {spoilt : Option ClusterId}
    (h : MemInv s) : MemInv (s.owedSnapshotAs c k reason launch spoilt).1 := by
  unfold State.owedSnapshotAs
  split
  · exact h
  · split
    · exact h
    · exact h.saveEngine

theorem MemInv.owedSnapshot {c : CoreId} {k : CoreSt} {reason : BitVec 4} {launch : Addr}
    (h : MemInv s) : MemInv (s.owedSnapshot c k reason launch).1 := h.owedSnapshotAs

theorem MemInv.keepMerge {c : CoreId} {k : CoreSt} {pos : KPos} {spoilt : Option ClusterId}
    (h : MemInv s) : MemInv (s.keepMerge c k pos spoilt) := by
  unfold State.keepMerge
  split
  · exact h
  · exact h.modCore fun _ => rfl

theorem MemInv.bundleBreak {c : CoreId} {pos : KPos} (h : MemInv s) : MemInv (s.bundleBreak c pos) := by
  unfold State.bundleBreak
  split
  · exact h
  · extract_lets +onlyGivenNames s₁
    have h₁ : MemInv s₁ := h.stopEngine
    split
    rename_i e₁
    have h₂ := (MemInv.ite_fst h₁ h₁.owedSnapshot).fst e₁
    exact h₂.modCore fun _ => rfl

theorem MemInv.snapFault {c : CoreId} {k : CoreSt} {pos : KPos} (h : MemInv s) : MemInv (s.snapFault c k pos) := by
  unfold State.snapFault
  split
  · exact h
  · exact MemInv.ite h.keepMerge (h.owedSnapshot.modCore fun _ => by simp)

theorem MemInv.engineStep {c : CoreId} {given : Option (List Instr)} (h : MemInv s) : MemInv (s.engineStep c given) := by
  unfold State.engineStep
  extract_lets +onlyGivenNames peers lead falls
  split
  · exact h.modCore fun _ => rfl
  · extract_lets +onlyGivenNames s₁ k before o s₂ s₃ s₄
    have h₁ : MemInv s₁ := MemInv.ite h.finishFar h
    have h₂ : MemInv s₂ := MemInv.sendRemotes (h₁.setCore (engineCc_wf (h₁.core_wf c) _ _ _))
    have h₃ : MemInv s₃ := MemInv.ite h₂.snapFault h₂
    have h₄ : MemInv s₄ := MemInv.ite h₃.snapFault h₃
    split
    · exact h₄.bundleBreak
    · exact h₄

theorem MemInv.issueSolo {i : Instr} (h : MemInv s) : MemInv (s.issueSolo i) := by
  unfold State.issueSolo
  split
  · exact h.engineStep
  · exact h

/-! ### Merging children into their parents (R213 to R226) -/

theorem MemInv.tileWrite {p : PartId} {c : CoreId} {tile : DWord} {b : Nat} {bs : List Byte}
    (h : MemInv s) : MemInv (s.tileWrite p c tile b bs) := by
  unfold State.tileWrite
  split
  · split
    · exact h
    · exact h.modCore_wf fun _ hk => CoreSt.putFar_wf hk
  · split
    · exact h
    · rename_i e₁
      have h₁ := h.resolveIn _ e₁
      exact h₁.writePhys

theorem MemInv.tilePoison? {p : PartId} {c : CoreId} {tile : DWord} {b : Nat}
    (h : MemInv s) : ∀ t ∈ s.tilePoison? p c tile b, MemInv t := by
  unfold State.tilePoison?
  split
  · split
    · rintro _ ⟨⟩
      exact h
    · rintro _ ⟨⟩
      exact h.modCore fun _ => rfl
  · split
    · split
      · rintro _ ⟨⟩
      · rintro _ ⟨⟩
        exact h
    · rename_i e₁
      have h₁ := h.resolveIn _ e₁
      rintro _ ⟨⟩
      exact MemInv.ite h h₁.setPoison

theorem MemInv.spoil {x : MergeCtx} {b : Nat} {fresh : Bool} (h : MemInv s) : MemInv (MergeCtx.spoil x s b fresh) :=
  have h₁ := MemInv.getD h.tilePoison? h
  MemInv.ite h₁.modTask h₁

theorem MemInv.mergeUnit {x : MergeCtx} {n : Nat} (h : MemInv s) : MemInv (MergeCtx.mergeUnit x s n).1 := by
  unfold MergeCtx.mergeUnit
  extract_lets +onlyGivenNames _ _ _ _
  split
  · exact h.foldl (fun _ _ ht => ht.tileWrite)
  · exact h.foldl (fun _ _ ht => MemInv.ite ht ht.spoil)

theorem MemInv.mergeFrom {x : MergeCtx} {fuel n : Nat} (h : MemInv s) : MemInv (x.mergeFrom fuel n s).1 := by
  induction fuel generalizing s n with
  | zero => exact h
  | succ fuel ih =>
    unfold MergeCtx.mergeFrom
    split
    · exact h
    · exact ih h.mergeUnit

theorem MemInv.addStatus {p : PartId} {parent : Addr} {poison sat : Bool} (h : MemInv s) : MemInv (s.addStatus p parent poison sat) :=
  h.setAreaWord

theorem MemInv.oneMerged {p : PartId} {parent : Addr} (h : MemInv s) : MemInv (s.oneMerged p parent) :=
  MemInv.ite h.setAreaWord.endGeneration.wake h.setAreaWord

theorem MemInv.mergeFault {p : PartId} {child : Addr} {view block : Nat} {sub : Byte}
    (h : MemInv s) : MemInv (s.mergeFault p child view block sub) := h.setRecWord.setTaskState.modTask.modCore fun _ => by simp

theorem MemInv.mergeAt {p : PartId} {child : Addr} {view unit : Nat} (h : MemInv s) : MemInv (s.mergeAt p child view unit) := h.modTask

theorem MemInv.startMerge {p : PartId} {child : Addr} {i : Nat} {l r : ViewEntry} (h : MemInv s) : MemInv (s.startMerge p child i l r) := by
  unfold State.startMerge
  extract_lets +onlyGivenNames _ _ _
  split
  · split
    · exact h.mergeFault
    · split
      · exact h.setCore (by simpa using h.core_wf _)
      · exact h
  · split
    · exact h.mergeFault
    · split
      · exact h
      · exact MemInv.ite h.mergeFault (h.setCore (by simpa using h.core_wf _))

theorem MemInv.mergeDone {p : PartId} {child : Addr} (h : MemInv s) : MemInv (s.mergeDone p child) :=
  h.setTaskState.countTask.forgetTask.oneMerged

theorem MemInv.mergeViews {p : PartId} {child : Addr} {fuel : Nat} (h : MemInv s) : MemInv (s.mergeViews p child fuel) := by
  induction fuel generalizing s with
  | zero => exact h.mergeDone
  | succ fuel ih =>
    unfold State.mergeViews
    split
    · exact h
    · split
      · exact h.mergeDone
      · extract_lets +onlyGivenNames parent r l
        split
        · exact ih h.mergeAt
        · split
          · exact h.startMerge
          · extract_lets +onlyGivenNames x
            split
            rename_i e₁
            have h₁ := h.mergeFrom.fst e₁
            extract_lets +onlyGivenNames s₂
            have h₂ : MemInv s₂ := h₁.addStatus
            split
            · exact h₂.mergeAt.mergeFault
            · exact ih h₂.mergeAt

theorem execChildMerge_keeps {p : PartId} {child : Addr} (h : MemInv s) : Keeps (execChildMerge p child s) := by
  unfold execChildMerge
  split
  · exact h.next
  · extract_lets +onlyGivenNames _
    split
    · exact h.setTaskState.countTask.forgetTask.next
    · split
      · exact h.next
      · split
        · exact h.mergeFault.next
        · split
          · exact h.mergeViews.next
          · exact h.next

theorem MemInv.mergeKernelDone {c : CoreId} {child : Addr} {view : BitVec 3} {halted : Bool}
    (h : MemInv s) : MemInv (s.mergeKernelDone c child view halted) := by
  unfold State.mergeKernelDone
  split
  · exact h
  · exact MemInv.ite h.mergeAt.mergeViews h.mergeFault

theorem MemInv.resumeChild {p : PartId} {child : Addr} (h : MemInv s) : MemInv (s.resumeChild p child) := by
  unfold State.resumeChild
  extract_lets +onlyGivenNames w₄ v b s₁ s₂
  have h₁ : MemInv s₁ := MemInv.ite h h.mergeAt
  have h₂ : MemInv s₂ := h₁.setTaskState.modTask
  exact MemInv.ite (MemInv.ite h₂.mergeViews h₂) h

theorem MemInv.retryMerges {p : PartId} (h : MemInv s) : MemInv (s.retryMerges p) := h.foldl (fun _ _ ht => ht.resumeChild)

theorem MemInv.poisonViews {p : PartId} {child : Addr} (h : MemInv s) : ∀ t ∈ s.poisonViews p child, MemInv t := by
  intro t ht
  obtain ⟨u, hu, rfl⟩ := Option.map_eq_some_iff.mp ht
  refine MemInv.addStatus (h.foldlM (fun s v hs => ?_) u hu)
  dsimp only
  split
  · exact hs.foldlM fun _ _ hs => hs.tilePoison?
  · rintro _ ⟨⟩
    exact hs

theorem MemInv.poisonBelow {p : PartId} {r : Addr} {fuel : Nat} (h : MemInv s) : ∀ t ∈ s.poisonBelow p r fuel, MemInv t := by
  induction fuel generalizing s r with
  | zero =>
    rintro _ ⟨⟩
    exact h
  | succ fuel ih =>
    refine h.foldlM fun s x hs t ht => ?_
    obtain ⟨u, hu, rfl⟩ := Option.map_eq_some_iff.mp ht
    obtain ⟨v, hv, hu⟩ := Option.bind_eq_some_iff.mp hu
    have h₁ : MemInv u := (ih hs v hv).poisonViews u hu
    exact (MemInv.setAreaWord (MemInv.ite h₁ h₁.setTaskState)).countTask.forgetTask

theorem MemInv.poisonMarks {p : PartId} {child : Addr} (h : MemInv s) : ∀ t ∈ s.poisonMarks p child, MemInv t := by
  intro t ht
  obtain ⟨u, hu, ht⟩ := Option.bind_eq_some_iff.mp ht
  exact (h.poisonBelow u hu).poisonViews t ht

theorem execPoisonedMerge_keeps {p : PartId} {child : Addr} (h : MemInv s) : Keeps (execPoisonedMerge p child s) := by
  unfold execPoisonedMerge
  extract_lets +onlyGivenNames _
  split
  · split
    · rename_i e₁
      have h₁ := h.poisonBelow _ e₁
      exact h₁.countTask.forgetTask.next
    · exact h.next
  · split
    · split
      · rename_i e₁
        have h₁ := h.poisonMarks _ e₁
        exact h₁.countTask.forgetTask.oneMerged.next
      · exact h.next
    · exact h.next

/-! ### The end of a kernel (R130, R212, R327) -/

theorem MemInv.kernelFault {c : CoreId} {pos : KPos} {r : KernelRun} {x : Cmd} {kind bcause : Byte} {slot : BitVec 3} {bundle : BitVec 12}
    (h : MemInv s) : MemInv (s.kernelFault c pos r x kind bcause slot bundle) := MemInv.dropCmd (h.modCore fun _ => by simp)

theorem execKernelEnd_keeps {c : CoreId} {pos : KPos} (h : MemInv s) : Keeps (execKernelEnd c pos s) := by
  unfold execKernelEnd
  split
  · exact h.next
  · rename_i r _
    split
    · exact h.next
    · have hk : ((s.core c).arriveAll r.arrivals).1.cistern.wf = true := by simpa using h.core_wf c
      split
      rename_i k full ek
      rw [ek] at hk
      extract_lets +onlyGivenNames full_ e
      clear_value e
      split
      extract_lets +onlyGivenNames s₁ s₂
      have h₁ : MemInv s₁ := h.setCore (by simpa using hk)
      have h₂ : MemInv s₂ := by
        unfold s₂
        split
        · exact MemInv.ite (h₁.modCore fun _ => rfl) h₁
        · exact h₁
      split
      · exact h₂.mergeKernelDone.next
      · exact h₂.next
      · split
        · exact h₂.fatal.next
        · split
          · exact h₂.modCmd.next
          · exact h₂.modCmd.next
          · exact h₂.kernelFault.next

/-! ### Core contexts (R371, R373) -/

theorem MemInv.writeContext {p : PartId} {n : Nat} {k : CoreSt} {c : CoreId} {launch : Addr}
    (h : MemInv s) : MemInv (s.writeContext p n k c launch).1 := h.writeWhole

/-! ### The team placer: admission, binding, swaps (R245 to R257, R370 to R375) -/

theorem MemInv.turnPeriod {p : PartId} (h : MemInv s) : MemInv (s.turnPeriod p) := by
  unfold State.turnPeriod
  extract_lets +onlyGivenNames ts
  split
  · exact h
  · refine MemInv.modPart (h.setTeams fun t ht => ?_)
    obtain ⟨u, hu, rfl⟩ := List.mem_map.mp ht
    have hs : u.SavedOk := h.savedOk hu
    split
    · exact hs
    · exact hs

theorem MemInv.setAffinity {p : PartId} {r : Addr} {c : CoreId} (h : MemInv s) : MemInv (s.setAffinity p r c) := h.setRecWord

theorem MemInv.countShares {a : Admitted} {dies : List DieId} (h : MemInv s) : MemInv (s.countShares a dies) :=
  MemInv.treeAdd (h.foldl (fun _ _ ht => MemInv.ite ht.treeAdd.treeAdd ht.treeAdd))

theorem MemInv.rearm {c : CoreId} (h : MemInv s) : MemInv (s.rearm c) := h.modCore fun _ => rfl

theorem State.restoreContext_wf {p : PartId} {x : Context} {k : CoreSt} (h : x.core.cistern.wf = true) :
    (s.restoreContext p x k).cistern.wf = true := by
  unfold State.restoreContext
  rw [CoreSt.unhalt_cistern]
  split
  · exact h
  · split
    · exact CoreSt.restoreImage_wf (k := k.adoptContext x.core) h
    · exact h

/-- A fold over the elements of a list that each keep the invariant. -/
theorem MemInv.foldl_mem {α : Type} {f : State → α → State} {xs : List α} (h : MemInv s)
    (hf : ∀ x ∈ xs, ∀ s, MemInv s → MemInv (f s x)) : MemInv (xs.foldl f s) := by
  induction xs generalizing s with
  | nil => exact h
  | cons x xs ih => exact ih (hf x List.mem_cons_self s h) fun y hy => hf y (List.mem_cons_of_mem _ hy)

theorem MemInv.bindTeam {t : Team} {cores : List CoreId} (h : MemInv s) (ht : t.SavedOk) : MemInv (s.bindTeam t cores) := by
  unfold State.bindTeam
  extract_lets +onlyGivenNames p sel put
  have hput : ∀ (s : State) (n : Nat) (c : CoreId) (f : CoreSt → CoreSt), MemInv s →
      (∀ k, k.cistern.wf = true → (f k).cistern.wf = true) → MemInv (put s n c f) :=
    fun _ _ _ _ hs hf => hs.modCore_wf hf
  split
  · extract_lets +onlyGivenNames s₁ s₂ s₃
    have h₁ : MemInv s₁ := h.foldl fun _ _ hs => MemInv.ite hs.setAffinity hs
    have h₂ : MemInv s₂ := h₁.foldl_mem fun x hx _ hs => hput _ _ _ _ hs fun _ _ => State.restoreContext_wf (ht x hx)
    have h₃ : MemInv s₃ := h₂.modTeam_ok fun _ _ => List.forall_mem_nil _
    exact h₃.foldl fun _ _ hs => hs.rearm.rereadCore
  · extract_lets +onlyGivenNames s₁ s₂ dies s₃
    have h₁ : MemInv s₁ := h.foldl fun _ _ hs => hput _ _ _ _ hs fun _ hk => hk
    have h₂ : MemInv s₂ := h₁.foldl fun _ _ hs => hs.setAffinity
    have h₃ : MemInv s₃ := by
      unfold s₃
      split
      · exact h₂.countShares
      · exact h₂
    exact h₃.modTeam fun _ => rfl

theorem MemInv.poisonTeam {t : Team} (h : MemInv s) : MemInv (s.poisonTeam t) := by
  unfold State.poisonTeam
  extract_lets +onlyGivenNames p s₁ s₂ s₃
  have h₁ : MemInv s₁ := h.foldl fun _ _ hs => hs.setTaskState
  have h₂ : MemInv s₂ := h₁.setTeams fun _ ht => h₁.savedOk (List.mem_of_mem_filter ht)
  have h₃ : MemInv s₃ := by
    unfold s₃
    split
    · exact h₂
    · exact h₂.foldl fun _ _ hs => MemInv.ite hs.reportIn hs.reportIn.putLive.reportShare
  split
  · exact h₃.modCore fun _ => rfl
  · exact h₃

theorem mem_insertTeam {t u : Team} {ts : List Team} (h : t ∈ insertTeam u ts) : t = u ∨ t ∈ ts := by
  induction ts with
  | nil => exact .inl (List.mem_singleton.mp h)
  | cons v ts ih =>
    unfold insertTeam at h
    split at h
    · exact List.mem_cons.mp h
    · rcases List.mem_cons.mp h with rfl | h
      · exact .inr List.mem_cons_self
      · exact (ih h).imp_right (List.mem_cons_of_mem _)

theorem mem_teamOrder {t : Team} {ts : List Team} (h : t ∈ teamOrder ts) : t ∈ ts := by
  have fold : ∀ (xs acc : List Team), t ∈ xs.foldl (fun xs t => insertTeam t xs) acc → t ∈ acc ∨ t ∈ xs := by
    intro xs
    induction xs with
    | nil => exact fun _ => .inl
    | cons x xs ih =>
      intro acc h
      rcases ih _ h with h | h
      · rcases mem_insertTeam h with rfl | h
        · exact .inr List.mem_cons_self
        · exact .inl h
      · exact .inr (List.mem_cons_of_mem _ h)
  exact (fold ts [] h).resolve_left List.not_mem_nil

theorem mem_of_nextTeam {t : Team} {ts : List Team} {n : Nat} (h : nextTeam ts n = some t) : t ∈ ts :=
  List.mem_of_mem_filter (mem_teamOrder (List.mem_of_find?_eq_some h))

/-- The team that the placer starts next is one of the device's. -/
theorem MemInv.nextTeam_savedOk {t : Team} {p : PartId} {n : Nat} (h : MemInv s) (e : nextTeam (s.teamsOf p) n = some t) : t.SavedOk :=
  h.savedOk (List.mem_of_mem_filter (mem_of_nextTeam e))

theorem MemInv.startTeam {t : Team} {prefer : List CoreId} (h : MemInv s) (ht : t.SavedOk) : MemInv (s.startTeam t prefer) :=
  MemInv.ite (h.bindTeam ht) h.poisonTeam

theorem MemInv.startTeams {p : PartId} {prefer : List CoreId} {fuel : Nat} (h : MemInv s) : MemInv (s.startTeams p prefer fuel) := by
  induction fuel generalizing s with
  | zero => exact h
  | succ fuel ih =>
    unfold State.startTeams
    split
    · rename_i e₁
      exact ih (h.startTeam (h.nextTeam_savedOk e₁))
    · exact h

/-- What has been saved of a team so far stays in canonical form, and each core's Cistern joins it as it stands. -/
theorem MemInv.saveContexts_saved {t : Team} {cs : List (CoreId × Nat)} {done : List Context} (h : MemInv s)
    (hd : ∀ x ∈ done, x.core.cistern.wf = true) :
    MemInv (s.saveContexts t cs done).1 ∧ ∀ xs, (s.saveContexts t cs done).2 = .ok xs → ∀ x ∈ xs, x.core.cistern.wf = true := by
  induction cs generalizing s done with
  | nil =>
    refine ⟨h, ?_⟩
    rintro _ ⟨⟩ x hx
    exact hd x (List.mem_reverse.mp hx)
  | cons a cs ih =>
    obtain ⟨c, pos⟩ := a
    have hs : ∀ y : Context, y.core = (s.core c).toSave → ∀ x ∈ y :: done, x.core.cistern.wf = true := by
      intro y hy x hx
      rcases List.mem_cons.mp hx with rfl | hx
      · rw [hy, CoreSt.toSave_cistern]
        exact h.core_wf c
      · exact hd x hx
    unfold State.saveContexts
    extract_lets +onlyGivenNames k bytes here
    split
    · exact ih h (hs _ rfl)
    · extract_lets +onlyGivenNames taken
      split
      · exact ⟨h, fun _ e => nomatch e⟩
      · split
        · rename_i e₁
          exact ⟨h.writeContext.fst e₁, fun _ e => nomatch e⟩
        · rename_i e₁
          exact ih (h.writeContext.fst e₁) (hs _ rfl)

theorem MemInv.haltCore {c : CoreId} (h : MemInv s) : MemInv (s.haltCore c) :=
  MemInv.foldl (h.stopEngine.modCore fun _ => rfl) (fun _ _ ht => ht.performRemote)

theorem MemInv.saveFailed {t : Team} {c : CoreId} {va : Nat} (h : MemInv s) : MemInv (s.saveFailed t c va) := h.telemetry

theorem MemInv.spillOne {t : Team} {x : Context} (h : MemInv s) : MemInv (s.spillOne t x) := by
  unfold State.spillOne
  split
  · exact h.saveFailed
  · split
    · rename_i e₁
      exact (h.writeContext.fst e₁).saveFailed
    · rename_i e₁
      refine (h.writeContext.fst e₁).modTeam_ok fun t ht y hy => ?_
      obtain ⟨z, hz, rfl⟩ := List.mem_map.mp hy
      rw [apply_ite Context.core, ite_self]
      exact ht z hz

theorem MemInv.spill {p : PartId} (h : MemInv s) : MemInv (s.spill p) := by
  unfold State.spill
  extract_lets +onlyGivenNames _
  split
  · exact h.spillOne
  · exact h

theorem MemInv.swapTeam {t : Team} (h : MemInv s) : MemInv (s.swapTeam t).1 := by
  unfold State.swapTeam
  extract_lets +onlyGivenNames sel s₁
  have h₁ : MemInv s₁ := h.foldl fun _ _ hs => hs.haltCore
  have hs := h₁.saveContexts_saved (t := t) (cs := t.bound.zipIdx) (List.forall_mem_nil _)
  split
  · rename_i e₁
    rw [e₁] at hs
    obtain ⟨h₂, hd⟩ := hs
    extract_lets +onlyGivenNames s₃ s₄
    have h₃ : MemInv s₃ := h₂.foldl fun _ _ hs => hs.modCore CoreSt.leaveTeam_cistern
    have h₄ : MemInv s₄ := h₃.modTeam_ok fun _ _ => hd _ rfl
    exact h₄.spill
  · rename_i e₁
    rw [e₁] at hs
    exact MemInv.modCore (MemInv.saveFailed (MemInv.modTeam hs.1 fun _ => rfl)) fun _ => rfl

theorem execQuantumEnd_keeps {p : PartId} {rec_ : Addr} {team : BitVec 32} {prefer : List CoreId}
    (h : MemInv s) : Keeps (execQuantumEnd p rec_ team prefer s) := by
  unfold execQuantumEnd
  extract_lets +onlyGivenNames _
  split
  · exact h.next
  · split
    · exact h.next
    · extract_lets +onlyGivenNames s₁ s₂
      have h₁ : MemInv s₁ := MemInv.turnPeriod (h.modTeam fun _ => rfl)
      have h₂ : MemInv s₂ := h₁.startTeams
      extract_lets +onlyGivenNames _ _
      split
      · exact h₂.next
      · split
        · rename_i e₃
          have h₃ := h₂.swapTeam.fst e₃
          exact h₃.startTeams.next
        · rename_i e₃
          have h₃ := h₂.swapTeam.fst e₃
          exact h₃.next

theorem execSwapOut_keeps {p : PartId} {rec_ : Addr} {team : BitVec 32} (h : MemInv s) : Keeps (execSwapOut p rec_ team s) := by
  unfold execSwapOut
  extract_lets +onlyGivenNames _
  split
  · exact h.next
  · extract_lets +onlyGivenNames _ _ _ _
    split
    · exact h.swapTeam.next
    · exact h.next

theorem execSwapIn_keeps {p : PartId} {rec_ : Addr} {team : BitVec 32} {prefer : List CoreId} (h : MemInv s) :
    Keeps (execSwapIn p rec_ team prefer s) := by
  unfold execSwapIn
  extract_lets +onlyGivenNames s₁
  have h₁ : MemInv s₁ := h.turnPeriod
  split
  · rename_i e₁
    exact MemInv.next (MemInv.ite (h₁.startTeam (h₁.nextTeam_savedOk e₁)) h)
  · exact h.next

theorem MemInv.retrySave {c : CoreId} (h : MemInv s) : MemInv (s.retrySave c) := by
  unfold State.retrySave
  split
  · exact MemInv.ite (MemInv.ite h.swapTeam.startTeams h.swapTeam) h
  · exact h

theorem MemInv.releaseTeam {c : CoreId} (h : MemInv s) : MemInv (s.releaseTeam c) := by
  unfold State.releaseTeam
  split
  · exact MemInv.ite (MemInv.foldl (h.modTeam fun _ => rfl) (fun _ _ ht => ht.modCore fun _ => by simp)) h
  · exact h

theorem MemInv.placeBytes {p : PartId} {va n : Nat} {bs : List Byte} (h : MemInv s) :
    ∀ t, s.placeBytes p va n bs = .ok t → MemInv t := by
  induction n generalizing s va bs with
  | zero =>
    rintro _ ⟨⟩
    exact h
  | succ n ih =>
    unfold State.placeBytes
    split
    · rintro _ ⟨⟩
    · rename_i e₁
      have h₁ := h.resolveIn _ e₁
      split
      · rintro _ ⟨⟩
      · split
        · rintro _ ⟨⟩
        · exact ih h₁.writePhys

theorem MemInv.placeTasks {x : Demand} {is : List Nat} (h : MemInv s) : ∀ t, s.placeTasks x is = .ok t → MemInv t := by
  induction is generalizing s with
  | nil =>
    rintro _ ⟨⟩
    exact h
  | cons i is ih =>
    unfold State.placeTasks
    extract_lets +onlyGivenNames r
    split
    · rintro _ ⟨⟩
    · rename_i e₁
      exact ih (h.placeBytes _ e₁)

theorem MemInv.placeTree {x : Demand} {ns : List (Nat × Nat)} (h : MemInv s) : ∀ t, s.placeTree x ns = .ok t → MemInv t := by
  induction ns generalizing s with
  | nil =>
    rintro _ ⟨⟩
    exact h
  | cons n ns ih =>
    unfold State.placeTree
    extract_lets +onlyGivenNames bytes va
    split
    · rintro _ ⟨⟩
    · rename_i e₁
      have h₁ := h.placeBytes _ e₁
      split
      · exact ih h₁.setTag
      · rintro _ ⟨⟩

theorem MemInv.refuseLaunch {x : Demand} {st : Nat} (h : MemInv s) : MemInv (s.refuseLaunch x st) := h.setLaunchStatus.countLaunch

theorem MemInv.addTeams {x : Demand} {a : Admitted} (h : MemInv s) : MemInv (s.addTeams x a) := by
  unfold State.addTeams
  extract_lets +onlyGivenNames age n s₁
  have h₁ : MemInv s₁ := by
    refine h.setTeams fun t ht => ?_
    rcases List.mem_append.mp ht with ht | ht
    · exact h.savedOk ht
    · obtain ⟨_, _, rfl⟩ := List.mem_map.mp ht
      exact List.forall_mem_nil _
  exact h₁.modPart

theorem execLaunchAdmission_keeps {p : PartId} {prefer : List CoreId} (h : MemInv s) : Keeps (execLaunchAdmission p prefer s) := by
  unfold execLaunchAdmission
  split
  · exact h.next
  · extract_lets +onlyGivenNames _ _ s₁
    have h₁ : MemInv s₁ := h.modPart
    extract_lets +onlyGivenNames _
    split
    · exact h₁.reportIn.refuseLaunch.next
    · split
      · exact h₁.refuseLaunch.next
      · split
        · exact h₁.refuseLaunch.next
        · extract_lets +onlyGivenNames _ _
          split
          · exact h.next
          · extract_lets +onlyGivenNames _
            split
            · exact h₁.telemetry.refuseLaunch.next
            · rename_i e₂
              have h₂ := h₁.placeTree _ e₂
              split
              · exact h₁.telemetry.refuseLaunch.next
              · rename_i e₃
                have h₃ := h₂.placeTasks _ e₃
                extract_lets +onlyGivenNames _ s₄ s₅ s₆
                have h₄ : MemInv s₄ := h₃.modPart.setLaunchStatus
                have h₅ : MemInv s₅ := h₄.addTeams.turnPeriod
                have h₆ : MemInv s₆ := h₅.startTeams
                exact MemInv.next (MemInv.ite h₆.maybeComplete h₆)

/-! ### What writing a CSR does (R125 to R127, R248, R253, R273 to R276, R363, R400) -/

theorem MemInv.clearKstat {c : CoreId} {v : DWord} (h : MemInv s) : MemInv (s.clearKstat c v) := h.modCore fun _ => rfl

theorem MemInv.clearCerr {c : CoreId} {v : DWord} (h : MemInv s) : MemInv (s.clearCerr c v) := h.modCore fun _ => rfl

theorem MemInv.writeUctl {c : CoreId} {raw v : DWord} (h : MemInv s) : MemInv (s.writeUctl c raw v) := h.modCore fun _ => rfl

theorem MemInv.writeKb {c : CoreId} {n : BitVec 2} {v : DWord} (h : MemInv s) : MemInv (s.writeKb c n v) := h.modCore fun _ => rfl

theorem MemInv.writePmap {n : BitVec 5} {v : DWord} (h : MemInv s) : ∀ t ∈ s.writePmap n v, MemInv t := by
  unfold State.writePmap
  extract_lets +onlyGivenNames _
  split
  · rintro _ ⟨⟩
    exact h
  · rintro _ ⟨⟩

theorem MemInv.writeTlbinv {c : CoreId} {v : DWord} (h : MemInv s) : MemInv (s.writeTlbinv c v) := by
  unfold State.writeTlbinv
  split
  · exact h
  · exact MemInv.ite h.dropTlb h.dropTlb

theorem MemInv.snapRange {p : PartId} {g : Byte} {i : Nat} (h : MemInv s) : MemInv (s.snapRange p g i) :=
  MemInv.ite h (MemInv.ite (h.writeOwn.foldl (fun _ _ ht => MemInv.ite ht.writeOwn ht)) h.writeOwn)

theorem MemInv.snapPage {p : PartId} {g : Byte} {va : DWord} (h : MemInv s) : ∀ t ∈ s.snapPage p g va, MemInv t := by
  unfold State.snapPage
  split
  · rintro _ ⟨⟩
  · split
    · split
      · split
        · rintro _ ⟨⟩
          exact h.writeOwn
        · rintro _ ⟨⟩
      · rintro _ ⟨⟩
    · rintro _ ⟨⟩

theorem MemInv.snapPages {p : PartId} {g : Byte} {list n i : Nat} (h : MemInv s) : MemInv (s.snapPages p g list n i).1 := by
  induction n generalizing s i with
  | zero => exact h
  | succ n ih =>
    unfold State.snapPages
    split
    · rename_i e₁
      refine ih ?_
      split at e₁
      · cases e₁
      · exact h.snapPage _ e₁
    · exact h

theorem MemInv.snap {c : CoreId} {v : DWord} (h : MemInv s) : MemInv (s.snap c v) := by
  unfold State.snap
  split
  · exact h
  · extract_lets +onlyGivenNames a w done bad g s₁
    have h₁ : MemInv s₁ := MemInv.ite h (h.foldl fun _ _ ht => MemInv.ite ht.snapRange ht)
    exact MemInv.ite h.modPart h₁.snapPages.dropTlb.modPart

theorem MemInv.retryHeld {p : PartId} {hs : List HeldWrite} (h : MemInv s) : MemInv (s.retryHeld p hs) := by
  refine h.foldl fun s w hw => ?_
  cases w with
  | bytes => exact hw.writeAs
  | count => exact hw.addCount

theorem MemInv.writePool {c : CoreId} {v : DWord} (h : MemInv s) : MemInv (s.writePool c v) := by
  unfold State.writePool
  split
  · exact h
  · extract_lets +onlyGivenNames s₁ _ _ s₂
    have h₁ : MemInv s₁ := h.modPart
    have h₂ : MemInv s₂ := h₁.modPart.retryHeld
    exact MemInv.retryMerges (h₂.foldl (fun _ _ ht => ht.modCore fun _ => rfl))

theorem MemInv.writeCgroup {c : CoreId} {v : DWord} (h : MemInv s) : MemInv (s.writeCgroup c v) := by
  unfold State.writeCgroup
  split
  · exact h
  · extract_lets +onlyGivenNames s₁ s₂ s₃
    have h₃ : MemInv s₃ := h.frame rfl rfl rfl rfl
    exact h₃.foldl fun _ _ hs => hs.modCore fun _ => rfl

theorem MemInv.writeRefctl {c : CoreId} {v : DWord} (h : MemInv s) : MemInv (s.writeRefctl c v) := h.modDie

theorem MemInv.resumeCommand {c : CoreId} {v : DWord} (h : MemInv s) : MemInv (s.resumeCommand c v) := MemInv.ite h.modCmd h

theorem MemInv.resumeMergeOf {c : CoreId} {v : DWord} (h : MemInv s) : MemInv (s.resumeMergeOf c v) := by
  unfold State.resumeMergeOf
  split
  · exact h.resumeChild
  · exact h

theorem MemInv.resumeEngine {c : CoreId} {v : DWord} (h : MemInv s) : MemInv (s.resumeEngine c v) := MemInv.ite (h.modCore fun _ => rfl) h

theorem MemInv.resumeSave {c : CoreId} {v : DWord} (h : MemInv s) : MemInv (s.resumeSave c v) := MemInv.ite h.retrySave h

theorem MemInv.resumeTeam {c : CoreId} {v : DWord} (h : MemInv s) : MemInv (s.resumeTeam c v) := MemInv.ite h.releaseTeam h

theorem MemInv.writeResume {c : CoreId} {v : DWord} (h : MemInv s) : MemInv (s.writeResume c v) := by
  unfold State.writeResume
  split
  · exact h.resumeCommand
  · exact h.resumeMergeOf
  · exact h.resumeEngine
  · exact h.resumeSave
  · exact h.resumeTeam
  · exact h

theorem MemInv.writeReg {c : CoreId} {r : Csr} {v : DWord} (h : MemInv s) : MemInv (s.writeReg c r v) := by
  unfold State.writeReg
  extract_lets +onlyGivenNames core part die
  have hcore : ∀ f : CoreSt → CoreSt, (∀ k, (f k).cistern = k.cistern) → MemInv (core f) := fun _ hf => h.modCore hf
  have hpart : ∀ f : PartSt → PartSt, MemInv (part f) := fun f => by
    unfold part
    split
    · exact h.modPart
    · exact h
  have hdie : ∀ f : DieSt → DieSt, MemInv (die f) := fun _ => h.modDie
  cases r
  case uvec | uepc | discidx | tvec | tepc | tscratch | tstat | ksnap => exact hcore _ fun _ => rfl
  case ptroot | rtbase | quantum | pctl | ctbase | ctsize | swapbase | swapslots | xstage | xlimit | xtimeout => exact hpart _
  case telbase | scrub | pcap => exact hdie _
  all_goals exact h

theorem MemInv.writeCsr {c : CoreId} {r : Csr} {raw v : DWord} (h : MemInv s) : ∀ t ∈ s.writeCsr c r raw v, MemInv t := by
  unfold State.writeCsr
  split
  · rintro _ ⟨⟩
    exact h.clearKstat
  · rintro _ ⟨⟩
    exact h.clearCerr
  · rintro _ ⟨⟩
    exact h.writeUctl
  · rintro _ ⟨⟩
    exact h.writeKb
  · exact h.writePmap
  · rintro _ ⟨⟩
    exact h.writeTlbinv
  · rintro _ ⟨⟩
    exact h.snap
  · rintro _ ⟨⟩
    exact h.writePool
  · rintro _ ⟨⟩
    exact h.writeCgroup
  · rintro _ ⟨⟩
    exact h.writeRefctl
  · rintro _ ⟨⟩
    exact h.writeResume
  · rintro _ ⟨⟩
    exact h.writeReg

theorem MemInv.csrModify {i : Instr} {f : DWord → DWord → DWord} {d a : BitVec 5} {n : BitVec 12}
    (h : MemInv s) : MemInv (s.csrModify i f d a n) := by
  unfold State.csrModify
  split
  · exact h.illegal
  · extract_lets +onlyGivenNames _
    split
    · exact h.illegal
    · rename_i e₁
      have h₁ := h.writeCsr _ e₁
      exact h₁.result

theorem execCsrr_keeps {d : BitVec 5} {csr : BitVec 12} (h : MemInv s) : Keeps (execCsrr d csr s) := by
  unfold execCsrr
  split
  · exact h.illegal.next
  · exact h.result.next

theorem execRegisterWrite_keeps {c : CoreId} {n : BitVec 12} {v : DWord} (h : MemInv s) : Keeps (execRegisterWrite c n v s) := by
  refine MemInv.next ?_
  split
  · exact h.writeReg
  · exact h

/-! ### Wellheads, links between dies, scrubbing, register errors (R277 to R284, R385 to R390, R394 to R403) -/

theorem MemInv.poisonBlock {b : Nat} (h : MemInv s) : MemInv (s.poisonBlock b) := h.setPoison.foldl (fun _ _ ht => ht.poisonTeam)

theorem MemInv.blockEcc {d : DieId} {pa : Nat} {a : ScrubFinding} (h : MemInv s) : MemInv (s.blockEcc d pa a) := by
  unfold State.blockEcc
  split
  · exact h
  · exact h.telemetry
  · exact h.telemetry.poisonBlock
  · exact h

theorem MemInv.failTransit {d : DieId} {pa : Nat} (h : MemInv s) : MemInv (s.failTransit d pa) := h.telemetry.poisonBlock

theorem MemInv.ownCheck {d : DieId} {pa : Nat} {found : ScrubFinding} (h : MemInv s) : MemInv (s.ownCheck d pa found) :=
  MemInv.ite h.failTransit h.blockEcc

theorem MemInv.writeHome {d : DieId} {f : Flit} {pa : Nat} (h : MemInv s) : MemInv (s.writeHome d f pa) :=
  MemInv.ite h (MemInv.ite h.writePhys.failTransit h.writePhys)

theorem MemInv.popMesh {a b : DieId} (h : MemInv s) : ∀ x ∈ s.popMesh a b, MemInv x.2 := by
  intro x hx
  obtain ⟨_, _, rfl⟩ := Option.map_eq_some_iff.mp hx
  exact h.frame rfl rfl rfl rfl

theorem MemInv.deliverPoisoned {f : Flit} (h : MemInv s) : MemInv (s.deliverPoisoned f) := by
  unfold State.deliverPoisoned
  extract_lets +onlyGivenNames s₁
  have h₁ : MemInv s₁ := h.telemetry
  split
  · exact h₁.modDie
  · split
    · exact h₁.modDie
    · split
      · exact h₁.poisonBlock
      · split
        · split
          · rename_i e₂
            have h₂ := h₁.popMesh _ e₂
            exact MemInv.releaseRemotes (h₂.modCore fun _ => by simp)
          · exact h₁
        · exact h₁

theorem execWellheadSlotService_keeps {d : DieId} {x : SlotCheck} (h : MemInv s) : Keeps (execWellheadSlotService d x s) := by
  unfold execWellheadSlotService
  extract_lets +onlyGivenNames _ _
  split
  · exact MemInv.next (MemInv.ite h.modDie.ownCheck h.modDie)
  · extract_lets +onlyGivenNames s₁
    have h₁ : MemInv s₁ := h.modDie
    extract_lets +onlyGivenNames _
    split
    · exact h₁.writeHome.next
    · exact MemInv.next (MemInv.getD h₁.blockEcc.sendFlit? h₁.blockEcc.deliverPoisoned)

theorem MemInv.replayRecord {l : Link} {n : Nat} {gone : Bool} (h : MemInv s) : MemInv (s.replayRecord l n gone) := h.telemetry

theorem MemInv.linkReport {x : LinkSt} {gone : Bool} (h : MemInv s) : MemInv (s.linkReport x gone) := h.replayRecord.putLink

theorem MemInv.hostFailed {pa : Nat} {reason : DWord} (h : MemInv s) : MemInv (s.hostFailed pa reason) := h.telemetry

theorem MemInv.endHold {c : CoreId} {hdr : HostLoad} {bytes : List Byte} {failed : Bool} {reason : DWord}
    (h : MemInv s) : MemInv (s.endHold c hdr bytes failed reason) := by
  unfold State.endHold
  extract_lets +onlyGivenNames s₁
  have h₁ : MemInv s₁ := h.modCore fun _ => rfl
  split
  · extract_lets +onlyGivenNames s₂
    have h₂ : MemInv { s₂ with active := c } := h₁.hostFailed.frame rfl rfl rfl rfl
    exact h₂.faultNow.frame rfl rfl rfl rfl
  · exact h₁.modCore fun _ => by simp

theorem MemInv.failHost (h : MemInv s) : MemInv s.failHost := by
  refine h.foldl fun s c hs => ?_
  extract_lets +onlyGivenNames asks s₁ s₂
  have h₁ : MemInv s₁ := hs.foldl fun _ _ hs => hs.hostFailed
  have h₂ : MemInv s₂ := h₁.modCore fun _ => rfl
  split
  · exact h₂.endHold
  · exact h₂

theorem MemInv.giveUp {u : Unsent} (h : MemInv s) : MemInv (s.giveUp u) := by
  unfold State.giveUp
  split
  · exact h.deliverPoisoned
  · exact h

theorem MemInv.retireLink {l : Link} (h : MemInv s) : MemInv (s.retireLink l) := by
  unfold State.retireLink
  extract_lets +onlyGivenNames _ s₁ s₂ s₃ s₄
  have h₁ : MemInv s₁ := h.linkReport.modLink
  have h₂ : MemInv s₂ := by
    unfold s₂
    split
    · exact h₁.foldl (fun _ _ ht => MemInv.getD ht.sendAgain? ht.giveUp)
    · exact h₁
  have h₃ : MemInv s₃ := h₂.foldl (fun _ _ ht => ht.foldl (fun _ _ hu => hu.modLink))
  have h₄ : MemInv s₄ := h₃.doomCarried
  exact MemInv.ite h₄.failHost h₄

theorem MemInv.askAgain {l : Link} {seq : BitVec 24} {kind : FlitKind} (h : MemInv s) : MemInv (s.askAgain l seq kind) := by
  unfold State.askAgain
  split
  · exact h.answerFlit
  · exact h.modLink

theorem MemInv.failFlit {l : Link} {seq : BitVec 24} {kind : FlitKind} (h : MemInv s) : MemInv (s.failFlit l seq kind) := by
  unfold State.failFlit
  extract_lets +onlyGivenNames _
  split
  · exact h
  · exact MemInv.ite h (MemInv.ite (MemInv.ite h.putLink.retireLink h.putLink.askAgain) h.putLink.askAgain)

theorem execLinkReplayReport_keeps {l : Link} (h : MemInv s) : Keeps (execLinkReplayReport l s) := by
  unfold execLinkReplayReport
  split
  · exact MemInv.next (MemInv.ite h h.replayRecord.setPath)
  · exact MemInv.next (MemInv.ite h h.linkReport)

theorem MemInv.flitArrives {type : BitVec 4} {f : Flit} {act : State → State} (h : MemInv s)
    (hact : ∀ t, MemInv t → MemInv (act t)) : MemInv (s.flitArrives type f act) := by
  unfold State.flitArrives
  split
  · exact h
  · split
    · exact h.failFlit
    · split
      · exact h
      · split
        · exact h
        · rename_i e₁
          exact hact _ (h.takeFlit _ e₁)

theorem execAtomicMessageFlit_keeps {f : Flit} (h : MemInv s) : Keeps (execAtomicMessageFlit f s) := by
  refine MemInv.next (h.flitArrives fun s hs => ?_)
  split
  · exact hs
  · rename_i e₁
    exact (hs.popMesh _ e₁).modCore fun _ => rfl

theorem execFlushMarkerFlit_keeps {f : Flit} (h : MemInv s) : Keeps (execFlushMarkerFlit f s) := by
  unfold execFlushMarkerFlit
  split
  · split
    · exact h.failFlit.next
    · split
      · exact h.next
      · exact h.modLink.next
  · exact h.next

theorem MemInv.answerArrives {type : BitVec 4} {f : Flit} {act : State → State} (h : MemInv s)
    (hact : ∀ t, MemInv t → MemInv (act t)) : MemInv (s.answerArrives type f act) := by
  unfold State.answerArrives
  split
  · exact h
  · split
    · exact h.failFlit
    · split
      · exact h
      · exact hact _ h.modLink

theorem execReplayRequestFlit_keeps {f : Flit} (h : MemInv s) : Keeps (execReplayRequestFlit f s) := by
  refine MemInv.next (h.answerArrives fun s hs => ?_)
  split
  · exact hs.modLink
  · exact hs

theorem execFlushMarkerGather_keeps {d : DieId} (h : MemInv s) : Keeps (execFlushMarkerGather d s) := by
  unfold execFlushMarkerGather
  split
  · exact h.next
  · exact h.modLink.next

theorem execScrubRead_keeps {d : DieId} {block : Nat} {found : ScrubFinding} (h : MemInv s) : Keeps (execScrubRead d block found s) := by
  unfold execScrubRead
  split
  · exact h.next
  · extract_lets +onlyGivenNames _ s₁
    have h₁ : MemInv s₁ := h.modDie
    split
    · exact h₁.next
    · exact h₁.next
    · exact h₁.modDie.telemetry.next
    · exact h₁.modDie.telemetry.poisonBlock.next

theorem execFreezeTelemetryReport_keeps {c : CoreId} (h : MemInv s) : Keeps (execFreezeTelemetryReport c s) := by
  unfold execFreezeTelemetryReport
  extract_lets +onlyGivenNames _
  split
  · exact h.next
  · exact MemInv.next (h.telemetry.modCore fun _ => rfl)

theorem MemInv.freezeDie {d : DieId} (h : MemInv s) : MemInv (s.freezeDie d) := h.eachCore fun _ _ => by simp

theorem MemInv.poisonTask {c : CoreId} {kind : DWord} (h : MemInv s) : MemInv (s.poisonTask c kind) := by
  unfold State.poisonTask
  extract_lets +onlyGivenNames _ _ s₁ s₂
  have h₁ : MemInv s₁ := by
    unfold s₁
    split
    · exact h.setTaskState
    · exact h
  have h₂ : MemInv s₂ := h₁.telemetry
  exact h₂.modCore fun _ => by simp

theorem MemInv.regErr {c : CoreId} {pos : KPos} {cl : ClusterId} (h : MemInv s) : MemInv (s.regErr c pos cl) := by
  unfold State.regErr
  split
  · exact h
  · split
    · exact h
    · extract_lets +onlyGivenNames s₁
      have h₁ : MemInv s₁ := h.telemetry.finishFar
      split
      rename_i e₁
      have h₂ := (MemInv.ite_fst h₁.keepMerge h₁.owedSnapshotAs).fst e₁
      exact h₂.modCore fun _ => by simp

theorem MemInv.spoilContext {c : CoreId} {n : Nat} (h : MemInv s) : MemInv (s.spoilContext c n) := by
  unfold State.spoilContext
  extract_lets +onlyGivenNames _
  split
  · exact h.telemetry.poisonTeam
  · exact h

theorem execRegisterEccError_keeps {c : CoreId} {x : EccError} (h : MemInv s) : Keeps (execRegisterEccError c x s) := by
  unfold execRegisterEccError
  split
  · exact h.next
  · exact h.next
  · exact h.telemetry.next
  · split
    · exact h.poisonTask.next
    · exact h.poisonTask.next
    · exact h.regErr.next
    · exact h.spoilContext.next
    · exact h.next
    · exact MemInv.next (h.telemetry.modCore fun _ => by simp)

/-! ### The Host Link: the register page, reset, boot, recovery (R415 to R422) -/

theorem MemInv.fromHost {act : State → State} (h : MemInv s) (hact : ∀ t, MemInv t → MemInv (act t)) : Keeps (s.fromHost act) :=
  MemInv.next (MemInv.ite h (hact s h))

theorem reset_memInv : MemInv State.reset := by
  refine ⟨rfl, rfl, fun c => ?_, fun t ht => nomatch ht⟩
  simp [State.core, State.reset, CoreSt.reset]
  rfl

/-- A boot starts from the memories of reset; of the host page it clears the recovery buffer. -/
theorem State.boot_memInv {x : HostSt} : MemInv (s.boot x) := by
  unfold State.boot
  extract_lets +onlyGivenNames y s₁
  have h₁ : MemInv s₁ := ⟨rfl, rfl, reset_memInv.core_wf, fun _ => reset_memInv.savedOk⟩
  split
  · exact h₁
  · exact MemInv.hostIrq (h₁.modHost fun _ => rfl)

theorem MemInv.commitRecovery (h : MemInv s) : MemInv s.commitRecovery := by
  unfold State.commitRecovery
  split
  · exact h
  · extract_lets +onlyGivenNames _ img
    split
    · exact State.boot_memInv
    · exact h.modHost fun _ => rfl

theorem MemInv.attest (h : MemInv s) : MemInv s.attest := h.modHost fun _ => rfl

theorem MemInv.ringDoor {p : PartId} {va : DWord} (h : MemInv s) : MemInv (s.ringDoor p va) := by
  unfold State.ringDoor
  extract_lets +onlyGivenNames done bad
  have hdone : ∀ (s : State) (w : DWord), MemInv s → MemInv (done s w) := fun _ _ hs => hs.modHost fun _ => rfl
  have hbad : MemInv bad := hdone _ _ h
  split
  · exact hbad
  · split
    · exact hbad
    · rename_i e₁
      have h₁ := h.resolveIn _ e₁
      split
      · exact hbad
      · split
        rename_i e₂
        exact MemInv.ite (hdone _ _ (h₁.queueLaunch.fst e₂)) (hdone _ _ h)

theorem MemInv.clearIstat {v : DWord} (h : MemInv s) : MemInv (s.clearIstat v) := h.modHost fun _ => rfl

theorem MemInv.hostRefused {off how : DWord} (h : MemInv s) : MemInv (s.hostRefused off how) := h.telemetry

theorem MemInv.hostPmap {n : BitVec 5} {v : DWord} (h : MemInv s) : MemInv (s.hostPmap n v) := MemInv.getD h.writePmap h.hostRefused

theorem MemInv.writePage {o : Nat} {v : DWord} (h : MemInv s) : MemInv (s.writePage o v) := by
  unfold State.writePage
  split
  · exact h.ringDoor
  · split
    · exact h.clearIstat
    · split
      · exact h.modHost fun _ => rfl
      · split
        · exact MemInv.ite State.boot_memInv h
        · split
          · extract_lets +onlyGivenNames s₁
            have h₁ : MemInv s₁ := h.modHost fun _ => rfl
            exact MemInv.ite h₁.commitRecovery h₁
          · split
            · exact MemInv.ite h.attest (h.modHost fun _ => rfl)
            · split
              · exact h.modHost fun _ => rfl
              · exact MemInv.ite h.hostPmap h

theorem MemInv.answerHost {off : DWord} {bs : List Byte} {failed : Bool} (h : MemInv s) : MemInv (s.answerHost off bs failed) :=
  h.modHost fun _ => rfl

theorem execHostMemoryRead_keeps {off : DWord} {len : Nat} (h : MemInv s) : Keeps (execHostMemoryRead off len s) := by
  refine h.fromHost fun s hs => ?_
  split
  · exact hs.answerHost
  · exact hs.answerHost
  · exact hs.answerHost
  · exact hs.hostRefused.answerHost

theorem MemInv.hostWrite {bs : List Nat} {pa : Nat} {xs : List Byte} (h : MemInv s) : MemInv (s.hostWrite bs pa xs) := by
  induction bs generalizing s pa xs with
  | nil => exact h
  | cons b bs ih => exact ih (MemInv.ite h h.writePhys)

theorem execHostMemoryWrite_keeps {off : DWord} {bytes : List Byte} (h : MemInv s) : Keeps (execHostMemoryWrite off bytes s) := by
  refine h.fromHost fun s hs => ?_
  split
  · exact hs.foldl fun _ _ hs => hs.writePage
  · exact ⟨hs.mem_wf, Memory.wf_write hs.recBuf_wf _ _, hs.core_wf, fun _ => hs.savedOk⟩
  · exact hs.hostWrite
  · exact hs.hostRefused

theorem execHostMemoryReply_keeps {r : HostReader} {bytes : List Byte} {failed : Bool}
    (h : MemInv s) : Keeps (execHostMemoryReply r bytes failed s) := by
  unfold execHostMemoryReply
  extract_lets +onlyGivenNames _
  split
  · split
    · exact h.endHold.next
    · exact h.next
  · split
    · exact h.next
    · split
      · exact MemInv.next (MemInv.modCmd (MemInv.ite h.hostFailed h))
      · exact h.next

/-! ### The loader (R426 to R441) -/

theorem MemInv.placeBlock {p : PartId} {va n : Nat} {bs : List Byte} (h : MemInv s) : ∀ t ∈ s.placeBlock p va n bs, MemInv t := by
  induction n generalizing s va bs with
  | zero =>
    rintro _ ⟨⟩
    exact h
  | succ n ih =>
    unfold State.placeBlock
    split
    · rintro _ ⟨⟩
    · rename_i e₁
      have h₁ := h.resolveIn _ e₁
      split
      · rintro _ ⟨⟩
      · exact ih h₁.writePhys.freshCode

theorem MemInv.tagMeeting {p : PartId} {va : Nat} (h : MemInv s) : MemInv (s.tagMeeting p va) := by
  unfold State.tagMeeting
  split
  · exact h.setTag
  · exact h

theorem MemInv.storeKernels {p : PartId} {hdr : Nat} {ks : List KImage} (h : MemInv s) : MemInv (s.storeKernels p hdr ks) :=
  h.foldl (fun _ _ ht => ht.modCore fun _ => rfl)

theorem MemInv.loadObject {p : PartId} {obj base frames : Addr} {meetings : List Word} (h : MemInv s) :
    ∀ t ∈ s.loadObject p obj base frames meetings, MemInv t := by
  intro t ht
  obtain ⟨hd, _, ht⟩ := Option.bind_eq_some_iff.mp ht
  obtain ⟨ks, _, ht⟩ := Option.bind_eq_some_iff.mp ht
  obtain ⟨handle, _, ht⟩ := Option.bind_eq_some_iff.mp ht
  obtain ⟨block, _, ht⟩ := Option.bind_eq_some_iff.mp ht
  obtain ⟨rb, _, ht⟩ := Option.bind_eq_some_iff.mp ht
  obtain ⟨lb, _, ht⟩ := Option.bind_eq_some_iff.mp ht
  obtain ⟨bs, _, ht⟩ := Option.bind_eq_some_iff.mp ht
  split at ht
  · cases ht
  · obtain ⟨u, hu, rfl⟩ := Option.map_eq_some_iff.mp ht
    exact MemInv.storeKernels ((h.placeBlock u hu).foldl fun _ _ hs => hs.tagMeeting)

theorem execCodeObjectLoad_keeps {p : PartId} {obj base frames : Addr} {meetings : List Word} (h : MemInv s) :
    Keeps (execCodeObjectLoad p obj base frames meetings s) := by
  refine MemInv.next ?_
  split
  · rename_i e₁
    exact h.loadObject _ e₁
  · exact h.modHost fun _ => rfl

/-! ### A control core's turn (R85, R86, R335, R336, R359, R376) -/

theorem MemInv.asCore {c : CoreId} {f : State → State} (h : MemInv s) (hf : ∀ t, MemInv t → MemInv (f t)) : MemInv (s.asCore c f) :=
  hf { s with active := c } h

theorem execUserInterruptDelivery_keeps {c : CoreId} (h : MemInv s) : Keeps (execUserInterruptDelivery c s) := by
  unfold execUserInterruptDelivery
  split
  · exact MemInv.next (h.modCore fun _ => by simp)
  · exact h.next

theorem execFetchFault_keeps {c : CoreId} (h : MemInv s) : Keeps (execFetchFault c s) := by
  unfold execFetchFault
  split
  · exact MemInv.next (MemInv.ite (h.asCore (fun _ ht => ht.refuse)) h)
  · exact h.next

theorem MemInv.begin_ {i : Instr} (h : MemInv s) : MemInv (s.begin_ i) := by
  unfold State.begin_
  split
  · exact h
  · exact h
  · exact h.modCur fun _ => by simp

theorem MemInv.passTime (h : MemInv s) : MemInv s.passTime := h

/-! ### Whose turn it is -/

theorem MemInv.nextTurn (h : MemInv s) : MemInv s.nextTurn.2 := by
  unfold State.nextTurn
  split
  · exact h
  · exact h

/-! ### Every instruction and event, and the step -/

/-- Every meaning keeps the form of memory: that of the operation it is made of. -/
theorem exec_keeps (i : Instr) (h : MemInv s) : Keeps (exec i s) := by
  cases i <;> dsimp only [exec]
  case add | sub | and | or | xor | sll | srl | sra | slt | sltu | min | max | minu | maxu | sextB | sextH | sextW | mul | mulh | mulhu
       | div | divu | rem | remu | addi | andi | ori | xori | slti | sltiu | slli | srli | srai | lui | shori => exact h.result.next
  case ldB | ldH | ldW | ldD | ldAcq => exact h.loadTo.next
  case stB | stH | stW | stD | stRel => exact h.storeFrom.next
  case beq | bne | blt | bge | bltu | bgeu => exact h.branch.next
  case jal | jalr => exact h.jump.next
  case exit => exact execExit_keeps h
  case yield => exact execYield_keeps h
  case spawn => exact execSpawn_keeps h
  case sync => exact execSync_keeps h
  case view => exact execView_keeps h
  case viewDrop => exact execViewDrop_keeps h
  case meet => exact execMeet_keeps h
  case minit => exact execMinit_keeps h
  case mread => exact execMread_keeps h
  case mfree => exact execMfree_keeps h
  case waitge => exact execWaitge_keeps h
  case waitaddr => exact execWaitaddr_keeps h
  case wake => exact execWake_keeps h
  case qpop => exact execQpop_keeps h
  case qpopNb => exact h.qpop.next
  case qpush => exact execQpush_keeps h
  case qclose => exact execQclose_keeps h
  case launch => exact execLaunch_keeps h
  case fence => exact MemInv.next (MemInv.advance (h.modCur fun _ => rfl))
  case xbegin => exact execXbegin_keeps h
  case xstore => exact execXstore_keeps h
  case xcommit => exact execXcommit_keeps h
  case xabort => exact execXabort_keeps h
  case amoW | amoD => exact h.amo.next
  case csrr => exact execCsrr_keeps h
  case csrw | csrs | csrc => exact h.csrModify.next
  case trap => exact h.syncTrap.next
  case sysret => exact MemInv.next (MemInv.ite h.leaveTrap h.illegal)
  case uiret => exact MemInv.next (MemInv.ite (h.modCur fun _ => rfl) h.illegal)
  case snapsave => exact execSnapsave_keeps h
  case snapload => exact execSnapload_keeps h
  case brk => exact h.faultNow.next
  case dbrd => exact execDbrd_keeps h
  case dbwr => exact execDbwr_keeps h
  case untag => exact execUntag_keeps h
  case shape | salloc | sfree | sload | sstore | sgather | sscatter | sscadd | scopy | scan | kernel | kswap | collAllred | collRedsc
       | collAllgat | collBcast | smark => exact h.enter.next
  case slotNop | br | loop | loopi | loopSw | loopiSw | pand | por | pxor | pandn | cmp | cmpi | movi | lwait | lock | ktrap | halt
       | sMov | sAdd | sSub | sAnd | sOr | sXor | sSll | sSrl | sSra | sMul | sMulh | sMin | sMax | sMinu | sMaxu | sAddi | sAndi | sOri
       | sXori | sSlli | sSrli | sSrai | rdlc | wfield | vmov | vsel | vand | vor | vxor | vnot | vfshl | vfshr | vperm | vpopc | vtopk
       | vqmov | vadd | vsub | vmul | vfma | vdiv | vmin | vmax | vabs | vneg | vsqrt | vcmp | vcvt | vbcast | vshl | vshr | vred
       | vscan | mloadb | mpush | mpushSc | mloadbWide | mpushWide | macc | mdrain | trin | trout | trclr | stld | stlda | cfgset
       | cfgclr | cfgrd | margin | manchor | hbound | tmark | tclr | mset | mand | mor | mnot | mmova | retag | cld | cst | cldU | cstU
       | cstM | cldFar | catom | catomFar | swsend | swrecv | swbcast => exact h.issueSolo.next
  case kernelBundleIssue => exact MemInv.next (MemInv.ite h h.engineStep)
  case secondaryFairnessIssue => exact MemInv.next (MemInv.ite h.engineStep h)
  case bankRequestService => exact MemInv.next (h.bankEcc.modCore_wf fun _ hk => CoreSt.serveOne_wf hk)
  case landingArrival | resultWriteback | mpushContribution | lockHoldEnd => exact MemInv.next (h.modCore fun _ => by simp)
  case kernelEnd => exact execKernelEnd_keeps h
  case remoteAtomicMessage => exact execRemoteAtomicMessage_keeps h
  case commandIssue => exact execCommandIssue_keeps h
  case engineElementAccess => exact execEngineElementAccess_keeps h
  case wellheadScatterAdd => exact execWellheadScatterAdd_keeps h
  case commandCompletion => exact execCommandCompletion_keeps h
  case acqCommandTimeout => exact execAcqCommandTimeout_keeps h
  case taskPickup => exact execTaskPickup_keeps h
  case monitorReread => exact execMonitorReread_keeps h
  case sweepReread => exact h.rereadFrom.next
  case userInterruptDelivery => exact execUserInterruptDelivery_keeps h
  case asyncTrapTake => exact MemInv.next (MemInv.ite h.takePending h)
  case childMerge => exact execChildMerge_keeps h
  case poisonedMerge => exact execPoisonedMerge_keeps h
  case launchAdmission => exact execLaunchAdmission_keeps h
  case quantumEnd => exact execQuantumEnd_keeps h
  case swapIn => exact execSwapIn_keeps h
  case illegalInstruction => exact MemInv.next (MemInv.ite (h.asCore (fun _ ht => ht.faultNow)) h)
  case fetchFault => exact execFetchFault_keeps h
  case xstoreStage => exact execXstoreStage_keeps h
  case transactionDecision => exact execTransactionDecision_keeps h
  case transactionApply => exact execTransactionApply_keeps h
  case hostMemoryReply => exact execHostMemoryReply_keeps h
  case swapOut => exact execSwapOut_keeps h
  case codeObjectLoad => exact execCodeObjectLoad_keeps h
  case landingDelivery => exact execLandingDelivery_keeps h
  case wellheadSlotService => exact execWellheadSlotService_keeps h
  case activationAlert | guardbandStep => exact h.modDie.telemetry.next
  case scrubRead => exact execScrubRead_keeps h
  case scrubPeriodEnd => exact h.telemetry.modDie.next
  case freezeTelemetryReport => exact execFreezeTelemetryReport_keeps h
  case linkReplayReport => exact execLinkReplayReport_keeps h
  case powerLimitFreeze => exact MemInv.next (MemInv.ite h h.freezeDie)
  case thermalFreeze => exact h.freezeDie.next
  case thermalStop => exact MemInv.next (MemInv.hostIrq (h.foldl (fun _ _ ht => MemInv.ite ht ht.stopCore)))
  case registerEccError => exact execRegisterEccError_keeps h
  case readRequestFlit => exact MemInv.next (h.flitArrives (fun _ ht => MemInv.ite ht.modDie ht))
  case readDataFlit => exact MemInv.next (h.flitArrives (fun _ ht => MemInv.modDie (MemInv.ite ht.telemetry ht)))
  case writeFlit => exact MemInv.next (h.flitArrives (fun _ ht => ht.modDie))
  case atomicMessageFlit => exact execAtomicMessageFlit_keeps h
  case flushMarkerFlit => exact execFlushMarkerFlit_keeps h
  case acknowledgeFlit => exact MemInv.next (h.answerArrives (fun _ ht => ht.modLink))
  case replayRequestFlit => exact execReplayRequestFlit_keeps h
  case flushMarkerGather => exact execFlushMarkerGather_keeps h
  case fabricPacketReceive => exact execFabricPacketReceive_keeps h
  case packetRetransmit => exact execPacketRetransmit_keeps h
  case transactionTimeout => exact execTransactionTimeout_keeps h
  case decisionQuery => exact execDecisionQuery_keeps h
  case hostMemoryRead => exact execHostMemoryRead_keeps h
  case hostMemoryWrite => exact execHostMemoryWrite_keeps h
  case hostDoorbell => exact h.fromHost (fun _ ht => ht.ringDoor)
  case hostIstatClear => exact h.fromHost (fun _ ht => ht.clearIstat)
  case hostReset => exact h.fromHost fun _ _ => State.boot_memInv
  case powerOn => exact State.boot_memInv.next
  case recoveryImageCommit => exact h.fromHost (fun _ ht => ht.commitRecovery)
  case attestationRequest => exact h.fromHost (fun _ ht => ht.attest)
  case hostPmapWrite => exact h.fromHost (fun _ ht => ht.hostPmap)
  case kstatFlagClear => exact h.clearKstat.next
  case cerrClear => exact h.clearCerr.next
  case uctlWrite => exact h.writeUctl.next
  case kbWrite => exact h.writeKb.next
  case pmapWrite => exact MemInv.next (MemInv.ite (MemInv.getD h.writePmap h) h)
  case tlbInvalidate => exact h.writeTlbinv.next
  case snapStart => exact h.snap.next
  case poolWrite => exact h.writePool.next
  case cgroupWrite => exact h.writeCgroup.next
  case refctlWrite => exact h.writeRefctl.next
  case resumeEngineCommand => exact h.resumeCommand.next
  case resumeMerge => exact h.resumeMergeOf.next
  case resumeKernelEngine => exact h.resumeEngine.next
  case retryTeamSave => exact h.resumeSave.next
  case releaseHaltedTeam => exact h.resumeTeam.next
  case registerWrite => exact execRegisterWrite_keeps h
  case flitCrcFailure => exact h.failFlit.next

/-- A step keeps the form of memory: the turn that is due is taken by a meaning, a breakpoint, or a change of a TLB. -/
theorem step_keeps (h : MemInv s) : Keeps (step s) := by
  unfold step
  split
  rename_i e₁
  have h₁ := h.nextTurn.snd e₁
  extract_lets +onlyGivenNames s₂
  have h₂ : MemInv s₂ := h₁.passTime
  split
  · extract_lets +onlyGivenNames s₃
    have h₃ : MemInv s₃ := h₂.frame rfl rfl rfl rfl
    split
    · exact h₃.next
    · exact h₃.breakAt.next
    · exact exec_keeps _ h₃.begin_
  · split
    · exact exec_keeps _ h₂
    · exact h₂.next
  · exact h₂.tlbFill.next
  · exact h₂.tlbDrop.next

end
end Sys2Proof.Machine
end

/-- Settles O8: the form of every memory is an invariant that each operation of the device keeps, so each instruction and event does,
and so does the step. -/
theorem Sys2Proof.memoryFormKept : Obligations.MemoryFormKept := fun _ t h e => Machine.step_keeps h t e

section
/-! PROOF. What reset leaves (R31, R248, R258, R307, R356, R422). -/

namespace Sys2Proof.Machine

/-- The whole first word of partition 0's map, and the whole second, is ones: every core of the device is in it (R248). -/
theorem mapHas_reset_zero (c : CoreId) : mapHas State.reset.pmaps 0 c = true := by
  have h : State.reset.pmaps.read ((0 : PartId) ++ c.extractLsb' 6 1) = BitVec.allOnes 64 := by
    have hbit : c.extractLsb' 6 1 = 0 ∨ c.extractLsb' 6 1 = 1 := by bv_omega
    rcases hbit with e | e <;> rw [e] <;> rfl
  rw [mapHas, h, BitVec.getLsbD_allOnes]
  exact decide_eq_true (c.extractLsb' 0 6).isLt

theorem partOf_reset (c : CoreId) : State.reset.partOf c = some 0 :=
  List.find?_cons_of_pos (mapHas_reset_zero c)

theorem core_reset (c : CoreId) : State.reset.core c = CoreSt.reset := Bank.read_fill _ c

end Sys2Proof.Machine
end

/-- Settles O60: every core after reset is `CoreSt.reset`, and the partition maps put it in partition 0. -/
theorem Sys2Proof.resetValues : Obligations.ResetValues := by
  refine ⟨fun _ => rfl, rfl, rfl, rfl, rfl, rfl, fun c => ⟨Machine.partOf_reset c, ?_⟩⟩
  rw [Machine.core_reset]
  exact ⟨rfl, rfl, rfl, rfl, rfl, rfl, rfl, rfl, fun n => Bank.read_fill _ n, fun _ => rfl, fun h => Bank.read_fill _ h⟩

section
/-! PROOF. CSRR (R31, R125, R212, R332, R335, R356, R425). -/

namespace Sys2Proof.Machine

/-- CSRR of a CSR that the core's mode may read gives gd what the CSR reads, and nothing else changes (R125, R127). -/
theorem csrr_answers {s : State} {n : BitVec 12} {r : Csr} (d : BitVec 5) (hr : csrOf n = some r)
    (hm : csrSystem n = true → s.cur.sys = true) : Answers (exec (.csrr d n) s) (s.Wrote d (s.readCsr s.active r)) := by
  have ha : s.csrAccess n false = some r := by
    cases hs : csrSystem n
    · simp [State.csrAccess, hr, hs]
    · simp [State.csrAccess, hr, hs, hm hs]
  refine ⟨s.result d (s.readCsr s.active r), ?_, s.wrote_result d _⟩
  show execCsrr d n s = _
  rw [execCsrr, ha]

theorem csrOf_kb (n : BitVec 2) : csrOf ((0x010 : BitVec 10) ++ n) = some (.kb n) := by
  revert n; decide

theorem csrOf_sm {n : BitVec 8} (h : n ≠ 0) : csrOf ((1 : BitVec 4) ++ n) = some (.sm n) := by
  revert n; decide

theorem csrSystem_kb (n : BitVec 2) : csrSystem ((0x010 : BitVec 10) ++ n) = false := by
  revert n; decide

theorem csrSystem_sm (n : BitVec 8) : csrSystem ((1 : BitVec 4) ++ n) = false := by
  revert n; decide

/-- The bits of csr.uctl and csr.tstat, with zeros above them. -/
theorem zext_three (a b c : Bool) : zext (BitVec.ofBool a ++ BitVec.ofBool b ++ BitVec.ofBool c) =
    (0 : BitVec 61) ++ BitVec.ofBool a ++ BitVec.ofBool b ++ BitVec.ofBool c := by
  revert a b c; decide

theorem zext_four (a b c e : Bool) : zext (BitVec.ofBool a ++ BitVec.ofBool b ++ BitVec.ofBool c ++ BitVec.ofBool e) =
    (0 : BitVec 60) ++ BitVec.ofBool a ++ BitVec.ofBool b ++ BitVec.ofBool c ++ BitVec.ofBool e := by
  revert a b c e; decide

end Sys2Proof.Machine
end

section
open Sys2Proof.Machine

/-- Settles O18: every number of the table is a CSR that the core's mode may read (`csrr_answers`), and the statement writes out what each
reads. -/
theorem Sys2Proof.csrReads : Obligations.CsrReads := by
  intro s d
  have task {n : BitVec 12} {r : Csr} (hr : csrOf n = some r) (hn : csrSystem n = false) :=
    csrr_answers (s := s) d hr fun h => absurd h (by simp [hn])
  refine ⟨⟨task (n := 0x000) rfl rfl, task (n := 0x001) rfl rfl, task (n := 0x002) rfl rfl, task (n := 0x003) rfl rfl,
    task (n := 0x010) rfl rfl, task (n := 0x011) rfl rfl, task (n := 0x012) rfl rfl, task (n := 0x013) rfl rfl,
    task (n := 0x020) rfl rfl, task (n := 0x021) rfl rfl, task (n := 0x022) rfl rfl, task (n := 0x030) rfl rfl,
    task (n := 0x031) rfl rfl, task (n := 0x032) rfl rfl, task (n := 0x033) rfl rfl, ?_, task (n := 0x050) rfl rfl,
    task (n := 0x051) rfl rfl, fun n => task (csrOf_kb n) (csrSystem_kb n), fun n h => task (csrOf_sm h) (csrSystem_sm n)⟩, ?_⟩
  · rw [← zext_three]
    exact task (n := 0x034) rfl rfl
  · intro hsys
    have system {n : BitVec 12} {r : Csr} (hr : csrOf n = some r) := csrr_answers (s := s) d hr fun _ => hsys
    refine ⟨system (n := 0x810) rfl, system (n := 0x811) rfl, system (n := 0x812) rfl, system (n := 0x813) rfl,
      system (n := 0x814) rfl, system (n := 0x815) rfl, ?_, system (n := 0x817) rfl, system (n := 0x81B) rfl⟩
    rw [← zext_four]
    exact system (n := 0x816) rfl

end

section
/-! PROOF. The kernel engine's events: the fairness cc. The statement has the primary's run unchanged by it; but a remote atomic that the
secondary issues lets the core send those that it holds (R266, R294), and one of the primary's for which the mesh has no path left comes back
poisoned in that cc (R385). -/

namespace Sys2Proof.Machine

/-- A remote atomic that the primary of core 0 issued to core 32, on another die, and that its core still holds. -/
def strandedRemote : RemoteAtomic := ⟨0, 32, .primary, 3, 20, 1, 0, 0, Bank.fill 0, Bank.fill 0, 4⟩

/-- The request that waits for it. -/
def strandedRequest : FarReq :=
  ⟨0, 3, 20, .atomic 0 (Bank.fill 0) (Bank.fill 0), false, ⟨0, 0, 0, 0, 0, 0⟩, 0, 4, 4, none, .remote⟩

/-- A kernel of the bundles of a few operations, each alone, that has issued no bundle and waits for a few requests. -/
def kernelOf (ops : List Instr) (far : List FarReq) : KernelRun :=
  ⟨0, ⟨0, 0, 0, 0, 0, 0, 0, 0, false, 0, (ops.filterMap slotCode).map soloBundle, [], []⟩, 0, 0, [], 0, 0, 0, 0, 0, [1], [1], [], 0, 0, [],
    far, none, none, false, false, none, false, false⟩

def strandedPrimary : KernelRun := kernelOf [] [strandedRequest]

/-- The secondary's bundle is a CATOM.FAR of 32-bit adds to the core that a1 names. -/
def remoteSecondary : KernelRun := kernelOf [.catomFar ⟨.G, 0, none⟩ 0 1 1 ⟨true, 1, 1, 64⟩] []

/-- Core 0 with both kernels, the primary's atomic held, and the fairness cc due; a1 names core 1. -/
def strandedCore : CoreSt :=
  { CoreSt.reset with
    eng := { Engine.reset with primary := some strandedPrimary, secondary := some remoteSecondary, blocked := Config.fairness }
    clusters := Bank.fill { Cluster.reset with v := Bank.fill ⟨Bank.fill 0, 4⟩, a := (Bank.fill 0).write 1 0x8100000000000000 }
    heldRemotes := [strandedRemote] }

/-- No path leads from die 0 to die 1. -/
def strandedState : State :=
  { State.reset.setCore 0 strandedCore with
    links := ((List.range 6).map (BitVec.ofNat 3)).map fun p => { freshLink (.mesh 0 1 p) with retired := true } }

theorem remoteSecondary_clear : remoteSecondary.Clear := by
  constructor <;> intro f hf <;> cases hf

theorem strandedPrimary_clear : strandedPrimary.Clear := by
  constructor <;> intro f hf
  · cases hf
  · obtain rfl := List.mem_singleton.1 hf
    decide

/-- The secondary's bundle is an issue. -/
theorem strandedState_issues : ∃ x, planRun strandedCore.tick .secondary 0 (strandedState.peers 0) none = .issue x := by
  have h : (planRun strandedCore.tick .secondary 0 (strandedState.peers 0) none).issues = true := by decide +kernel
  revert h
  cases planRun strandedCore.tick .secondary 0 (strandedState.peers 0) none with
  | issue x => exact fun _ => ⟨x, rfl⟩
  | _ => exact fun h => nomatch h

/-- Whether a request of the primary of core 0 still waits for its remote atomic. -/
def State.primaryWaits (s : State) : Bool := ((s.core 0).run .primary).any fun r => r.far.any fun f => f.phase == .remote

/-- In the fairness cc the stranded atomic comes back: its request waits no longer. -/
theorem fairness_returns_stranded : (match exec (.secondaryFairnessIssue 0) strandedState with
    | .next t => t.primaryWaits
    | _ => true) = false := by decide +kernel

end Sys2Proof.Machine
end

section
open Sys2Proof.Machine

/-- Refutes O52 at SECONDARY_FAIRNESS_ISSUE, which says that the primary's run stays as it is: in `strandedState` the secondary issues a
remote atomic, so that core 0 sends what it holds, and the primary's, for which no path is left, comes back poisoned. -/
theorem Sys2Proof.not_engineEvents : ¬ Obligations.EngineEvents := by
  intro h
  obtain ⟨-, fairness, -⟩ := h strandedState 0 .primary strandedPrimary
  obtain ⟨x, hx⟩ := strandedState_issues
  obtain ⟨t, ht, hrun, -⟩ := fairness remoteSecondary x rfl strandedPrimary_clear rfl remoteSecondary_clear rfl rfl rfl Nat.le.refl hx
  have back := fairness_returns_stranded
  rw [ht] at back
  have waits : t.primaryWaits = true := by
    unfold State.primaryWaits
    rw [hrun]
    rfl
  exact absurd (back.symm.trans waits) (by decide)

end

section
/-! PROOF. What a cc of a core's kernel engine leaves of the core (R43, R47, R48). -/

namespace Sys2Proof.Machine

/-! ### The parts of a core that its engine leaves as they are -/

/-- A core less what kernels compute with: the clusters, the Cistern, the status words and the engine. -/
def CoreSt.sansUnits (k : CoreSt) : CoreSt :=
  { k with clusters := Bank.fill Cluster.reset, cistern := ⟨[]⟩, cisPoison := [], kstat := 0, kstat2 := 0, eng := Engine.reset }

/-- What remains of it but for the barriers, the semaphores and the counters, which kernels move. -/
def CoreSt.control (k : CoreSt) : CoreSt := { k.sansUnits with kb := Bank.fill 0, sem := Bank.fill 0, kcycle := 0, freeze := 0 }

/-- What each step of a fold keeps, the fold keeps. -/
theorem foldl_keeps {α β σ : Type} (p : σ → β) {f : σ → α → σ} (hf : ∀ k x, p (f k x) = p k) (xs : List α) (k : σ) :
    p (xs.foldl f k) = p k := by
  induction xs generalizing k with
  | nil => rfl
  | cons x xs ih => rw [List.foldl_cons, ih, hf]

@[simp] theorem CoreSt.ite_sansUnits (p : Prop) [Decidable p] (j k : CoreSt) :
    (if p then j else k).sansUnits = if p then j.sansUnits else k.sansUnits := apply_ite CoreSt.sansUnits p j k

@[simp] theorem CoreSt.modRun_sansUnits (k : CoreSt) (pos : KPos) (f : KernelRun → KernelRun) : (k.modRun pos f).sansUnits = k.sansUnits := by
  unfold CoreSt.modRun; split <;> rfl
@[simp] theorem CoreSt.eachCluster_sansUnits (k : CoreSt) (f : Cluster → Cluster) : (k.eachCluster f).sansUnits = k.sansUnits := rfl

@[simp] theorem loopBack_sansUnits (e : Nat) (k : CoreSt) (r : KernelRun) (ls : List LoopSt) :
    (loopBack e k r ls).1.sansUnits = k.sansUnits := by
  induction ls generalizing k r with
  | nil => rfl
  | cons l ls ih =>
    unfold loopBack
    split
    · dsimp only
      split
      · simp
      · simp [ih]
    · rfl

@[simp] theorem steerRun_sansUnits (k : CoreSt) (r : KernelRun) (ctl : List Ctl) : (steerRun k r ctl).1.sansUnits = k.sansUnits := by
  unfold steerRun
  split
  · simp
  · rfl
  · dsimp only
    split <;> simp
  · simp
  · rfl
  · rfl

/-! ### Arrivals -/

/-- Two cores whose barriers and semaphores agree. -/
def CoreSt.SameBarriers (j k : CoreSt) : Prop := j.kb = k.kb ∧ j.sem = k.sem

theorem CoreSt.SameBarriers.of_sansUnits {j k : CoreSt} (h : j.sansUnits = k.sansUnits) : j.SameBarriers k :=
  ⟨congrArg (·.kb) h, congrArg (·.sem) h⟩

theorem CoreSt.SameBarriers.trans {i j k : CoreSt} (h : i.SameBarriers j) (h' : j.SameBarriers k) : i.SameBarriers k :=
  ⟨h.1.trans h'.1, h.2.trans h'.2⟩

theorem CoreSt.SameBarriers.symm {j k : CoreSt} (h : j.SameBarriers k) : k.SameBarriers j := ⟨h.1.symm, h.2.symm⟩

/-- An arrival is a function of the barriers and semaphores alone: the core after it, and whether the closure overflowed. -/
theorem CoreSt.arrive_eq (k : CoreSt) (n : BitVec 2) : k.arrive n =
    ({ k with kb := (k.arrive n).1.kb, sem := (k.arrive n).1.sem }, (k.arrive n).2) := by
  unfold CoreSt.arrive CoreSt.signal
  dsimp only
  split
  · rfl
  · split
    · rfl
    · split
      · rename_i e
        split at e
        · cases e; rfl
        · split at e
          · cases e
          · cases e; rfl
      · rfl

/-- The semaphore that a signal reaches, and what it holds then, are functions of the semaphores alone. -/
def signalled (sem : Bank 8 (BitVec 16)) (sm n : BitVec 8) : Option (Bank 8 (BitVec 16)) :=
  if sm == 0 || n == 0 then some sem
  else if 65535 < (sem.read sm).toNat + n.toNat then none
  else some (sem.write sm (BitVec.ofNat 16 ((sem.read sm).toNat + n.toNat)))

theorem CoreSt.signal_eq (k : CoreSt) (sm n : BitVec 8) : k.signal sm n = (signalled k.sem sm n).map fun x => { k with sem := x } := by
  unfold CoreSt.signal signalled
  split
  · rfl
  · dsimp only
    split <;> rfl

theorem CoreSt.SameBarriers.arrive {j k : CoreSt} (h : j.SameBarriers k) (n : BitVec 2) : (j.arrive n).1.SameBarriers (k.arrive n).1 := by
  obtain ⟨hkb, hsem⟩ := h
  unfold CoreSt.arrive
  simp only [CoreSt.signal_eq, hkb, hsem]
  split
  · exact ⟨hkb, hsem⟩
  · split
    · exact ⟨rfl, rfl⟩
    · cases signalled k.sem ((k.kb.read n).extractLsb' 16 8) ((k.kb.read n).extractLsb' 24 8) with
      | none => exact ⟨rfl, rfl⟩
      | some x => exact ⟨rfl, rfl⟩

theorem CoreSt.arrive_eng (k : CoreSt) (n : BitVec 2) : (k.arrive n).1.eng = k.eng := congrArg (·.1.eng) (k.arrive_eq n)
theorem CoreSt.arrive_control (k : CoreSt) (n : BitVec 2) : (k.arrive n).1.control = k.control := congrArg (·.1.control) (k.arrive_eq n)

theorem CoreSt.control_of_sansUnits {j k : CoreSt} (h : j.sansUnits = k.sansUnits) : j.control = k.control :=
  congrArg (fun x => { x with kb := Bank.fill 0, sem := Bank.fill 0, kcycle := 0, freeze := 0 }) h

/-! ### A result lands -/

/-- A result in its cluster, with its flags raised, before its arrival. -/
def CoreSt.put (k : CoreSt) (c : ClusterId) (w : RegWrite) : CoreSt :=
  let x := (k.clusters.read c).put w
  let k : CoreSt := { k with clusters := k.clusters.write c x.1 }
  if x.2 == {} then k else k.raise c x.2

theorem CoreSt.land_some (k : CoreSt) (pos : KPos) (c : ClusterId) (w : RegWrite) (n : BitVec 2) : k.land pos c w (some n) =
    if ((k.put c w).arrive n).2 then ((k.put c w).arrive n).1.modRun pos fun r => { r with overflow := true }
    else ((k.put c w).arrive n).1 := rfl

@[simp] theorem CoreSt.put_sansUnits (k : CoreSt) (c : ClusterId) (w : RegWrite) : (k.put c w).sansUnits = k.sansUnits := by
  unfold CoreSt.put; dsimp only; split <;> rfl
theorem CoreSt.put_eng (k : CoreSt) (c : ClusterId) (w : RegWrite) : (k.put c w).eng = k.eng := by
  unfold CoreSt.put; dsimp only; split <;> rfl

theorem CoreSt.land_control (k : CoreSt) (pos : KPos) (c : ClusterId) (w : RegWrite) (a : Option (BitVec 2)) :
    (k.land pos c w a).control = k.control := by
  have hp := control_of_sansUnits (k.put_sansUnits c w)
  cases a with
  | none => exact hp
  | some n =>
    rw [land_some]
    split
    · exact (control_of_sansUnits (modRun_sansUnits ..)).trans (((k.put c w).arrive_control n).trans hp)
    · exact ((k.put c w).arrive_control n).trans hp

theorem CoreSt.SameBarriers.land {j k : CoreSt} (h : j.SameBarriers k) (pos pos' : KPos) (c c' : ClusterId) (w w' : RegWrite)
    (a : Option (BitVec 2)) : (j.land pos c w a).SameBarriers (k.land pos' c' w' a) := by
  have hp : (j.put c w).SameBarriers (k.put c' w') :=
    (of_sansUnits (j.put_sansUnits c w)).trans (h.trans (of_sansUnits (k.put_sansUnits c' w')).symm)
  have drop (k : CoreSt) (pos : KPos) (b : Bool) :
      (if b then k.modRun pos fun r => { r with overflow := true } else k).SameBarriers k := by
    cases b
    · exact ⟨rfl, rfl⟩
    · exact of_sansUnits (modRun_sansUnits ..)
  cases a with
  | none => exact hp
  | some n => exact (drop ..).trans ((hp.arrive n).trans (drop ..).symm)

/-- What lands can only mark a kernel's semaphores as overflowed. -/
theorem CoreSt.land_run (k : CoreSt) (pos : KPos) (c : ClusterId) (w : RegWrite) (a : Option (BitVec 2)) {r : KernelRun}
    (h : k.run pos = some r) : ∃ b, (k.land pos c w a).run pos = some { r with overflow := b } := by
  have hput : (k.put c w).run pos = some r := by rw [CoreSt.run, put_eng]; exact h
  cases a with
  | none => exact ⟨r.overflow, hput⟩
  | some n =>
    have harr : ((k.put c w).arrive n).1.run pos = some r := by rw [CoreSt.run, arrive_eng]; exact hput
    rw [land_some]
    split
    · refine ⟨true, ?_⟩
      rw [CoreSt.modRun, harr]
      cases pos <;> rfl
    · exact ⟨r.overflow, harr⟩

/-! ### What retires at its issue -/

theorem CoreSt.arriveNow_eq (k : CoreSt) (pos : KPos) (es : List Eff) : k.arriveNow pos es =
    (es.filter fun e => e.lat == 0).foldl (fun k e => k.land pos e.cluster e.what e.arrive) k := rfl

theorem CoreSt.arriveNow_control (k : CoreSt) (pos : KPos) (es : List Eff) : (k.arriveNow pos es).control = k.control := by
  rw [arriveNow_eq]
  induction es.filter (fun e => e.lat == 0) generalizing k with
  | nil => rfl
  | cons e es ih => rw [List.foldl_cons, ih, land_control]

theorem CoreSt.arriveNow_run (k : CoreSt) (pos : KPos) (es : List Eff) {r : KernelRun} (h : k.run pos = some r) :
    ∃ b, (k.arriveNow pos es).run pos = some { r with overflow := b } := by
  rw [arriveNow_eq]
  induction es.filter (fun e => e.lat == 0) generalizing k r with
  | nil => exact ⟨r.overflow, h⟩
  | cons e es ih =>
    obtain ⟨b, hb⟩ := k.land_run pos e.cluster e.what e.arrive h
    obtain ⟨b', hb'⟩ := ih _ hb
    exact ⟨b', hb'⟩

/-- The arrivals at an issue depend on which operations retire then and on their barriers alone. -/
theorem CoreSt.SameBarriers.arriveNow {j k : CoreSt} (h : j.SameBarriers k) (pos : KPos) (es : List Eff) {f : Eff → Eff}
    (hlat : ∀ e, (f e).lat = e.lat) (harr : ∀ e, (f e).arrive = e.arrive) :
    (j.arriveNow pos (es.map f)).SameBarriers (k.arriveNow pos es) := by
  have hcomp : ((fun e => e.lat == 0) ∘ f) = fun e : Eff => e.lat == 0 := funext fun e => congrArg (· == 0) (hlat e)
  rw [arriveNow_eq, arriveNow_eq, List.filter_map, List.foldl_map, hcomp]
  induction es.filter (fun e => e.lat == 0) generalizing j k with
  | nil => exact h
  | cons e es ih =>
    rw [List.foldl_cons, List.foldl_cons, harr]
    exact ih (h.land pos pos (f e).cluster e.cluster (f e).what e.what e.arrive)

end Sys2Proof.Machine
end

section
/-! PROOF. A cc in which the primary issues a bundle and the core has no other kernel (R43, R47, R48, R129). -/

namespace Sys2Proof.Machine

/-! ### The steering of a bundle -/

theorem loopBack_snd (e : Nat) (k : CoreSt) (r : KernelRun) (ls : List LoopSt) :
    let t := (loopBack e k r ls).2
    t.kc = r.kc ∧ t.far = r.far ∧ t.inflight = r.inflight ∧ t.ending = r.ending := by
  induction ls generalizing k r with
  | nil => exact ⟨rfl, rfl, rfl, rfl⟩
  | cons l ls ih =>
    unfold loopBack
    dsimp only
    split
    · split
      · cases l.sw <;> exact ⟨rfl, rfl, rfl, rfl⟩
      · cases l.sw
        · exact ih _ _
        · exact ih _ { r with rb := r.rb - 1 }
    · exact ⟨rfl, rfl, rfl, rfl⟩

def KernelRun.faulted (r : KernelRun) : Bool :=
  match r.ending with
  | some (.fault _ _ _ _) => true
  | _ => false

/-- Control changes neither a kernel's kc nor what it has in flight, and it does not end it at a fault. -/
theorem steerRun_snd (k : CoreSt) (r : KernelRun) (ctl : List Ctl) (h : r.faulted = false) :
    let t := (steerRun k r ctl).2
    t.kc = r.kc ∧ t.far = r.far ∧ t.inflight = r.inflight ∧ t.faulted = false := by
  have back (e : Nat) (k : CoreSt) (r' : KernelRun) (hr : r'.kc = r.kc ∧ r'.far = r.far ∧ r'.inflight = r.inflight ∧ r'.ending = r.ending) :
      let t := (loopBack e k r' r'.loops).2
      t.kc = r.kc ∧ t.far = r.far ∧ t.inflight = r.inflight ∧ t.faulted = false := by
    obtain ⟨hkc, hfar, hin, hend⟩ := loopBack_snd e k r' r'.loops
    obtain ⟨hkc', hfar', hin', hend'⟩ := hr
    refine ⟨hkc.trans hkc', hfar.trans hfar', hin.trans hin', ?_⟩
    rw [KernelRun.faulted, hend, hend']
    exact h
  unfold steerRun
  dsimp only
  split
  · exact back _ _ r ⟨rfl, rfl, rfl, rfl⟩
  · exact ⟨rfl, rfl, rfl, h⟩
  · split
    · exact back _ _ r ⟨rfl, rfl, rfl, rfl⟩
    · exact ⟨rfl, rfl, rfl, h⟩
  · exact back _ _ { r with lock := _ } ⟨rfl, rfl, rfl, rfl⟩
  · exact ⟨rfl, rfl, rfl, rfl⟩
  · exact ⟨rfl, rfl, rfl, rfl⟩

/-! ### A bundle takes effect -/

/-- A core whose units a bundle has written at its issue. -/
def CoreSt.touched (k : CoreSt) (pos : KPos) (i : Issue) : CoreSt :=
  let k := i.now.foldl (fun k x => { k with clusters := k.clusters.modify x.1 x.2 }) k
  let k := i.cis.foldl (fun k w =>
    { k with cistern := putUnit k.cistern w
             cisPoison := if w.mask == -1 then removeNat w.unit k.cisPoison else k.cisPoison }) k
  let k := i.flags.foldl (fun k x => if x.2 == {} then k else k.raise x.1 x.2) k
  let k := if i.clamp then k.raiseClamp pos else k
  if i.subst then k.raiseSubst else k

/-- The same core with its rate limits started, before results are put in flight and control moves on. -/
def CoreSt.atIssue (k : CoreSt) (pos : KPos) (i : Issue) : CoreSt :=
  let k := k.touched pos i
  { k with eng := { k.eng with
    rates := i.rates.foldl (fun rs g => (g, k.eng.issued, k.eng.issued + k.eng.fair) :: rs.filter fun e => e.1 != g) k.eng.rates } }

/-- What no write of the clusters, the Cistern and the status words changes, a bundle leaves at its issue. -/
theorem CoreSt.touched_keeps {β : Type} (p : CoreSt → β)
    (hp : ∀ (k : CoreSt) cl ci po st st2, p { k with clusters := cl, cistern := ci, cisPoison := po, kstat := st, kstat2 := st2 } = p k)
    (k : CoreSt) (pos : KPos) (i : Issue) : p (k.touched pos i) = p k := by
  have clusters (k : CoreSt) (x) : p { k with clusters := x } = p k := hp k x k.cistern k.cisPoison k.kstat k.kstat2
  have cistern (k : CoreSt) (x y) : p { k with cistern := x, cisPoison := y } = p k := hp k k.clusters x y k.kstat k.kstat2
  have raise (k : CoreSt) (c f) : p (k.raise c f) = p k := hp k (k.raise c f).clusters k.cistern k.cisPoison (k.raise c f).kstat k.kstat2
  have clamp (k : CoreSt) : p (k.raiseClamp pos) = p k := by
    cases pos
    · exact hp k k.clusters k.cistern k.cisPoison _ k.kstat2
    · exact hp k k.clusters k.cistern k.cisPoison k.kstat _
  have subst (k : CoreSt) : p k.raiseSubst = p k := hp k k.clusters k.cistern k.cisPoison _ k.kstat2
  unfold CoreSt.touched
  dsimp only
  rw [apply_ite p, subst, ite_self, apply_ite p, clamp, ite_self, foldl_keeps p, foldl_keeps p, foldl_keeps p]
  · exact fun k x => clusters k _
  · exact fun k w => cistern k _ _
  · intro k x
    rw [apply_ite p, raise, ite_self]

/-- A kernel with the results and requests of a bundle in flight. -/
def KernelRun.launched (r : KernelRun) (g : Engine) (i : Issue) : KernelRun :=
  stepLock { r with
    inflight := r.inflight ++ (i.effs.filter fun e => e.lat != 0).map fun e => ⟨g.stamp e.slot, r.kc + e.lat, e.cluster, e.what, e.arrive⟩
    far := r.far ++ i.far
    clamp := r.clamp || i.clamp }

/-- The core and its kernel after a bundle's control. -/
def CoreSt.steered (k : CoreSt) (pos : KPos) (i : Issue) (r : KernelRun) : CoreSt × KernelRun :=
  steerRun (k.atIssue pos i) (r.launched (k.atIssue pos i).eng i) i.ctl

theorem CoreSt.commit_primary {k : CoreSt} {r : KernelRun} (i : Issue) (h : k.run .primary = some r) : k.commit .primary i =
    let x := k.steered .primary i r
    { (x.1.setRun .primary { x.2 with kc := x.2.kc + 1, skipMatch := false }).arriveNow .primary i.effs with kcycle := x.2.kc + 1 } := by
  unfold CoreSt.commit
  rw [h]
  rfl

theorem CoreSt.atIssue_sansUnits (k : CoreSt) (pos : KPos) (i : Issue) : (k.atIssue pos i).sansUnits = k.sansUnits :=
  touched_keeps CoreSt.sansUnits (fun _ _ _ _ _ _ => rfl) k pos i

theorem CoreSt.atIssue_stamp (k : CoreSt) (pos : KPos) (i : Issue) : (k.atIssue pos i).eng.stamp = k.eng.stamp :=
  touched_keeps (fun k => k.eng.stamp) (fun _ _ _ _ _ _ => rfl) k pos i

theorem CoreSt.atIssue_cistern (k : CoreSt) (pos : KPos) {i : Issue} (h : i.cis = []) : (k.atIssue pos i).cistern = k.cistern := by
  unfold CoreSt.atIssue CoreSt.touched
  rw [h]
  simp [foldl_cistern]

/-! ### The cc -/

theorem CoreSt.setRun_run {k : CoreSt} {pos : KPos} {r : KernelRun} (h : k.run pos = some r) : k.setRun pos r = k := by
  cases pos with
  | primary => exact congrArg (fun x => ({ k with eng := { k.eng with primary := x } } : CoreSt)) h.symm
  | secondary => exact congrArg (fun x => ({ k with eng := { k.eng with secondary := x } } : CoreSt)) h.symm

theorem KernelRun.Clear.not_late {r : KernelRun} (h : r.Clear) : r.late = false := by
  have hfar : (r.far.any fun f => f.due ≤ r.kc && !f.arrived) = false := by
    rw [List.any_eq_false]
    exact fun f hf => by simp [Nat.not_le.2 (h.2 f hf)]
  rw [KernelRun.late, hfar, Bool.and_false]

theorem KernelRun.Clear.flights {r : KernelRun} (h : r.Clear) : (r.inflight.filter fun f => f.due ≤ r.kc) = [] :=
  List.filter_eq_nil_iff.2 fun f hf => by simpa using h.1 f hf

theorem KernelRun.Clear.requests {r : KernelRun} (h : r.Clear) : (r.far.filter fun f => f.due ≤ r.kc) = [] :=
  List.filter_eq_nil_iff.2 fun f hf => by simpa using h.2 f hf

theorem KernelRun.Clear.dueResults {r : KernelRun} (h : r.Clear) : dueResults r = [] := by
  unfold Machine.dueResults
  rw [h.flights, h.requests]
  exact ite_self []

theorem KernelRun.Clear.dropDue {r : KernelRun} (h : r.Clear) : dropDue r = r := by
  have hin : (r.inflight.filter fun f => !(f.due ≤ r.kc)) = r.inflight :=
    List.filter_eq_self.2 fun f hf => by simpa using h.1 f hf
  unfold Machine.dropDue
  rw [h.not_late, hin, List.filter_eq_self.2 fun f hf => by simp [Nat.not_le.2 (h.2 f hf)]]
  rfl

/-- A core whose only kernel has nothing due settles as it is. -/
theorem CoreSt.Issues.settle {k : CoreSt} {r : KernelRun} (h : k.Issues r) : k.settle = k := by
  have hdrop : (k.modRun .primary Machine.dropDue).modRun .secondary Machine.dropDue = k := by
    have h1 : k.modRun .primary Machine.dropDue = k := by
      rw [CoreSt.modRun, h.run]
      exact (congrArg (k.setRun .primary) h.clear.dropDue).trans (setRun_run h.run)
    rw [h1, CoreSt.modRun, h.alone]
  have hdue : k.allDue = [] := by
    unfold CoreSt.allDue
    simp only [h.run, h.alone, h.clear.dueResults]
    rfl
  rw [CoreSt.settle, hdue, hdrop]
  rfl

theorem CoreSt.Issues.tick {k : CoreSt} {r : KernelRun} (h : k.Issues r) : k.tick.Issues r :=
  ⟨h.run, h.alone, h.going, h.standing, h.live, h.clear⟩

/-- A core after the cc in which its only kernel issues a bundle. -/
def CoreSt.issued (k : CoreSt) (y : Issue) : CoreSt :=
  ((({ k.tick with eng := { k.tick.eng with blocked := 0 } } : CoreSt).commit .primary y).tickRates false).bankFreeze (bankExtra y.units)

theorem engineCc_issue {k : CoreSt} {r : KernelRun} {me : CoreId} {peers : List CoreId} {given : Option (List Instr)} {y : Issue}
    (h : k.Issues r) (hp : planRun k.tick .primary me peers given = .issue y) : engineCc k me peers given = ⟨k.issued y, y.remote, none⟩ := by
  have hrun : k.tick.eng.primary = some r := h.run
  have halone : k.tick.eng.secondary = none := h.alone
  have hgo : k.tick.eng.stopped = none := h.going
  have hstand : k.tick.halt = none := h.standing
  unfold engineCc
  extract_lets +onlyGivenNames k₁ second fair collide quiet
  have hstop : (k₁.eng.stopped.isSome || k₁.halt.isSome) = false := by simp [k₁, hgo, hstand]
  have hlate : (k₁.eng.primary.any KernelRun.late || (fair || !collide) && k₁.eng.secondary.any KernelRun.late) = false := by
    simp [k₁, hrun, halone, h.clear.not_late]
  rw [hstop, hlate, if_neg Bool.false_ne_true, if_neg Bool.false_ne_true]
  extract_lets +onlyGivenNames k₂ second₂
  have hk : k₂ = k.tick := h.tick.settle
  have hsecond : second₂ = false := by simp [second₂, hk, halone]
  rw [hsecond, Bool.and_false, if_neg Bool.false_ne_true, hk]
  extract_lets +onlyGivenNames p q
  have hissue : p = .issue y := hp
  have hidle : q = .idle := rfl
  rw [hissue, hidle]
  show CycleOut.mk (CoreSt.bankFreeze _ (bankExtra (y.units ++ []))) (y.remote ++ []) none = _
  rw [List.append_nil, List.append_nil]
  rfl

/-! ### What the cc leaves -/

theorem CoreSt.bankFreeze_control (k : CoreSt) (n : Nat) : (k.bankFreeze n).control = k.control := rfl
theorem CoreSt.tickRates_control (k : CoreSt) (fair : Bool) : (k.tickRates fair).control = k.control := rfl
theorem CoreSt.bankFreeze_barriers (k : CoreSt) (n : Nat) : (k.bankFreeze n).SameBarriers k := ⟨rfl, rfl⟩
theorem CoreSt.tickRates_barriers (k : CoreSt) (fair : Bool) : (k.tickRates fair).SameBarriers k := ⟨rfl, rfl⟩
theorem CoreSt.bankFreeze_run (k : CoreSt) (n : Nat) (pos : KPos) : (k.bankFreeze n).run pos = k.run pos := by cases pos <;> rfl
theorem CoreSt.tickRates_run (k : CoreSt) (pos : KPos) : (k.tickRates false).run pos = k.run pos := by cases pos <;> rfl

/-- The core that a bundle's commit starts from in a cc in which it issues. -/
def CoreSt.begun (k : CoreSt) : CoreSt := { k.tick with eng := { k.tick.eng with blocked := 0 } }

theorem CoreSt.issued_eq (k : CoreSt) (y : Issue) :
    k.issued y = ((k.begun.commit .primary y).tickRates false).bankFreeze (bankExtra y.units) := rfl

theorem CoreSt.steered_sansUnits (k : CoreSt) (i : Issue) (r : KernelRun) : (k.steered .primary i r).1.sansUnits = k.sansUnits := by
  rw [steered, steerRun_sansUnits, atIssue_sansUnits]

theorem CoreSt.run_setRun (k : CoreSt) (pos : KPos) (r : KernelRun) : (k.setRun pos r).run pos = some r := by cases pos <;> rfl

section
variable {k : CoreSt} {r : KernelRun} (y : Issue) (h : k.Issues r)
include h

theorem CoreSt.Issues.commit_begun : k.begun.commit .primary y =
    let x := k.begun.steered .primary y r
    { (x.1.setRun .primary { x.2 with kc := x.2.kc + 1, skipMatch := false }).arriveNow .primary y.effs with kcycle := x.2.kc + 1 } :=
  CoreSt.commit_primary y h.run

theorem CoreSt.Issues.issued_control : (k.issued y).control = k.control := by
  rw [issued_eq, bankFreeze_control, tickRates_control, h.commit_begun]
  exact (arriveNow_control ..).trans (control_of_sansUnits (steered_sansUnits ..))

theorem CoreSt.Issues.issued_barriers : (k.issued y).SameBarriers (k.begun.arriveNow .primary y.effs) := by
  rw [issued_eq, h.commit_begun]
  refine (bankFreeze_barriers ..).trans ((tickRates_barriers ..).trans ?_)
  have hj : ((k.begun.steered .primary y r).1.setRun .primary
      { (k.begun.steered .primary y r).2 with kc := (k.begun.steered .primary y r).2.kc + 1, skipMatch := false }).SameBarriers k.begun :=
    .of_sansUnits (steered_sansUnits ..)
  have harr := hj.arriveNow .primary y.effs (f := id) (fun _ => rfl) fun _ => rfl
  rw [List.map_id] at harr
  exact harr

theorem CoreSt.Issues.not_ended : r.ending = none := by
  have hl := h.live
  rw [KernelRun.live, Bool.and_eq_true] at hl
  exact Option.isNone_iff_eq_none.1 hl.1

theorem CoreSt.Issues.steered_snd :
    let t := (k.begun.steered .primary y r).2
    t.kc = r.kc ∧ t.far = r.far ++ y.far ∧
    t.inflight = r.inflight ++ (y.effs.filter fun e => e.lat != 0).map (fun e =>
      ⟨k.tick.eng.stamp e.slot, r.kc + e.lat, e.cluster, e.what, e.arrive⟩) ∧ t.faulted = false := by
  have hfault : (r.launched (k.begun.atIssue .primary y).eng y).faulted = false := by
    show r.faulted = false
    rw [KernelRun.faulted, h.not_ended]
  obtain ⟨hkc, hfar, hin, hfault⟩ := steerRun_snd (k.begun.atIssue .primary y) (r.launched (k.begun.atIssue .primary y).eng y) y.ctl hfault
  refine ⟨hkc, hfar, hin.trans ?_, hfault⟩
  show r.inflight ++ (y.effs.filter fun e => e.lat != 0).map (fun e =>
    ⟨(k.begun.atIssue .primary y).eng.stamp e.slot, r.kc + e.lat, e.cluster, e.what, e.arrive⟩) = _
  rw [atIssue_stamp]
  rfl

omit h in
theorem CoreSt.steered_plain (hloops : r.loops = []) (hctl : y.ctl = []) : (k.begun.steered .primary y r).2 =
    { r.launched (k.begun.atIssue .primary y).eng y with loops := [], idx := r.idx + 1 } := by
  rw [steered, hctl]
  show (loopBack r.idx _ _ r.loops).2 = _
  rw [hloops]
  rfl

/-- The kernel after its bundle, a kc on; csr.kcycle follows it. -/
theorem CoreSt.Issues.issued_run_eq : ∃ b,
    (k.issued y).run .primary =
      some { (k.begun.steered .primary y r).2 with kc := (k.begun.steered .primary y r).2.kc + 1, skipMatch := false, overflow := b } ∧
    (k.issued y).kcycle = (k.begun.steered .primary y r).2.kc + 1 := by
  obtain ⟨b, hb⟩ := CoreSt.arriveNow_run _ .primary y.effs (CoreSt.run_setRun (k.begun.steered .primary y r).1 .primary
    { (k.begun.steered .primary y r).2 with kc := (k.begun.steered .primary y r).2.kc + 1, skipMatch := false })
  refine ⟨b, ?_, ?_⟩
  · rw [issued_eq, bankFreeze_run, tickRates_run, h.commit_begun]
    exact hb
  · rw [issued_eq, h.commit_begun]
    rfl

/-- The kernel after its bundle: the bundle's results and requests in flight, not ended at a fault, and out of loops at the next bundle. -/
theorem CoreSt.Issues.issued_run : ∃ r', (k.issued y).run .primary = some r' ∧ (k.issued y).kcycle = r.kc + 1 ∧ r'.kc = r.kc + 1 ∧
    r'.far = r.far ++ y.far ∧
    r'.inflight = r.inflight ++ (y.effs.filter fun e => e.lat != 0).map (fun e =>
      ⟨k.tick.eng.stamp e.slot, r.kc + e.lat, e.cluster, e.what, e.arrive⟩) ∧
    r'.faulted = false ∧ (r.loops = [] → y.ctl = [] → r'.idx = r.idx + 1 ∧ r'.loops = [] ∧ r'.ending = none) := by
  obtain ⟨b, hrun, hcycle⟩ := h.issued_run_eq y
  obtain ⟨hkc, hfar, hin, hfault⟩ := h.steered_snd y
  refine ⟨_, hrun, hcycle.trans (congrArg (· + 1) hkc), congrArg (· + 1) hkc, hfar, hin, hfault, fun hloops hctl => ?_⟩
  rw [CoreSt.steered_plain y hloops hctl]
  exact ⟨rfl, rfl, h.not_ended⟩

theorem CoreSt.Issues.issued_cistern (hcis : y.cis = []) : (k.issued y).cistern = k.cistern := by
  rw [issued_eq, bankFreeze_cistern, tickRates_cistern, h.commit_begun]
  show (CoreSt.arriveNow _ _ _).cistern = _
  rw [arriveNow_cistern, setRun_cistern, steered, steerRun_cistern, atIssue_cistern _ _ hcis]
  rfl

end

end Sys2Proof.Machine
end

section
/-! PROOF. What sending a core's remote atomics leaves (R265, R266, R294, R385), and a slot operation as a bundle of its own
(R43, R47, R48, R129). -/

namespace Sys2Proof.Machine

/-! ### Remote atomics leave their core -/

/-- A core `k` that was `j` before remote atomics were sent: the queues of remote atomics have changed, and of its kernels no more than
the requests that wait. -/
structure CoreSt.SentFrom (j k : CoreSt) : Prop where
  rest : { k with remoteQ := j.remoteQ, heldRemotes := j.heldRemotes, eng := j.eng } = j
  run : ∀ pos r, j.run pos = some r → ∃ far, k.run pos = some { r with far := far }

theorem CoreSt.SentFrom.of_eng {j k : CoreSt} (hrest : { k with remoteQ := j.remoteQ, heldRemotes := j.heldRemotes, eng := j.eng } = j)
    (heng : k.eng = j.eng) : j.SentFrom k := by
  refine ⟨hrest, fun pos r h => ⟨r.far, ?_⟩⟩
  rw [CoreSt.run, heng]
  exact h

theorem CoreSt.SentFrom.refl (k : CoreSt) : k.SentFrom k := .of_eng rfl rfl

theorem CoreSt.SentFrom.trans {i j k : CoreSt} (h : i.SentFrom j) (h' : j.SentFrom k) : i.SentFrom k := by
  refine ⟨?_, fun pos r hr => ?_⟩
  · rw [← h.rest, ← h'.rest]
  · obtain ⟨far, hj⟩ := h.run pos r hr
    obtain ⟨far', hk⟩ := h'.run pos _ hj
    exact ⟨far', hk⟩

theorem CoreSt.sentFrom_setRun {k : CoreSt} {pos : KPos} {r : KernelRun} (far : List FarReq) (h : k.run pos = some r) :
    k.SentFrom (k.setRun pos { r with far := far }) := by
  refine ⟨rfl, fun q x hx => ?_⟩
  cases pos <;> cases q
  case primary.primary | secondary.secondary =>
    obtain rfl : r = x := Option.some.inj (h.symm.trans hx)
    exact ⟨far, rfl⟩
  case primary.secondary | secondary.primary => exact ⟨x.far, hx⟩

theorem CoreSt.sentFrom_reply (k : CoreSt) (m : RemoteAtomic) (ph : FarPhase) : k.SentFrom (k.reply m ph) := by
  unfold CoreSt.reply
  extract_lets +onlyGivenNames f
  have hf (pos : KPos) : ∀ k' ∈ f k pos, k.SentFrom k' := by
    intro k' hk'
    simp only [f] at hk'
    split at hk'
    · rename_i r hr
      split at hk'
      · cases hk'
        exact sentFrom_setRun _ hr
      · cases hk'
    · cases hk'
  split
  · rename_i k' e
    exact hf _ _ e
  · cases e : f k (if m.pos == .primary then .secondary else .primary) with
    | none => exact .refl k
    | some k' => exact hf _ _ e

/-- A state `t` that was `s` before remote atomics were sent. -/
structure State.SentFrom (s t : State) : Prop where
  mem : t.mem = s.mem
  tags : t.tags = s.tags
  poison : t.poison = s.poison
  active : t.active = s.active
  core : ∀ c, (s.core c).SentFrom (t.core c)

theorem State.SentFrom.refl (s : State) : s.SentFrom s := ⟨rfl, rfl, rfl, rfl, fun _ => .refl _⟩

theorem State.SentFrom.trans {s t u : State} (h : s.SentFrom t) (h' : t.SentFrom u) : s.SentFrom u :=
  ⟨h'.mem.trans h.mem, h'.tags.trans h.tags, h'.poison.trans h.poison, h'.active.trans h.active, fun c => (h.core c).trans (h'.core c)⟩

theorem State.sentFrom_modCore (s : State) (c : CoreId) {f : CoreSt → CoreSt} (hf : ∀ k : CoreSt, k.SentFrom (f k)) :
    s.SentFrom (s.modCore c f) := by
  refine ⟨rfl, rfl, rfl, rfl, fun x => ?_⟩
  rw [State.core_modCore]
  split
  · next e => exact e ▸ hf _
  · exact .refl _

theorem State.sentFrom_shipRemote (s : State) (m : RemoteAtomic) : s.SentFrom (s.shipRemote m) := by
  unfold State.shipRemote
  split
  · exact s.sentFrom_modCore _ fun k => .of_eng rfl rfl
  · extract_lets +onlyGivenNames cls
    split
    · rename_i t e
      obtain ⟨p, -, rfl⟩ := Option.map_eq_some_iff.1 e
      exact ⟨rfl, rfl, rfl, rfl, fun _ => .refl _⟩
    · exact s.sentFrom_modCore _ fun k => k.sentFrom_reply m _

theorem State.sentFrom_shipHeld (s : State) (c : CoreId) (kept ms : List RemoteAtomic) : s.SentFrom (s.shipHeld c kept ms) := by
  induction ms generalizing s kept with
  | nil => exact s.sentFrom_modCore c fun k => .of_eng rfl rfl
  | cons m ms ih =>
    unfold State.shipHeld
    extract_lets +onlyGivenNames k
    split
    · exact ih ..
    · exact (s.sentFrom_shipRemote m).trans (ih ..)

theorem State.sentFrom_releaseRemotes (s : State) (c : CoreId) : s.SentFrom (s.releaseRemotes c) := by
  unfold State.releaseRemotes
  split
  · exact .refl s
  · exact s.sentFrom_shipHeld ..

theorem State.sentFrom_sendRemotes (s : State) (c : CoreId) (ms : List RemoteAtomic) : s.SentFrom (s.sendRemotes c ms) := by
  unfold State.sendRemotes
  split
  · exact .refl s
  · exact (s.sentFrom_modCore c (f := fun k => { k with heldRemotes := k.heldRemotes ++ ms }) fun k => .of_eng rfl rfl).trans
      (State.sentFrom_releaseRemotes ..)

/-- Atomics to cores of their own die wait at their targets, so no request comes back. -/
theorem State.shipHeld_eng (s : State) (c : CoreId) (kept : List RemoteAtomic) {ms : List RemoteAtomic}
    (h : ∀ m ∈ ms, dieOf m.src = dieOf m.target) (x : CoreId) : ((s.shipHeld c kept ms).core x).eng = (s.core x).eng := by
  have hmod (s : State) (c : CoreId) {f : CoreSt → CoreSt} (hf : ∀ k, (f k).eng = k.eng) : ((s.modCore c f).core x).eng = (s.core x).eng := by
    rw [State.core_modCore]
    split
    · next e => rw [hf, e]
    · rfl
  induction ms generalizing s kept with
  | nil => exact hmod s c fun _ => rfl
  | cons m ms ih =>
    have hms : ∀ m ∈ ms, dieOf m.src = dieOf m.target := fun m hm => h m (List.mem_cons_of_mem _ hm)
    have hship : ((s.shipRemote m).core x).eng = (s.core x).eng := by
      rw [State.shipRemote, h m List.mem_cons_self, beq_self_eq_true, if_pos rfl]
      exact hmod s _ fun _ => rfl
    unfold State.shipHeld
    extract_lets +onlyGivenNames k
    split
    · exact ih s _ hms
    · exact (ih _ _ hms).trans hship

/-- A core that holds no atomic sends what it issues to its own die, and its kernels stay as they are. -/
theorem State.sendRemotes_eng {s : State} {c : CoreId} {ms : List RemoteAtomic} (hheld : (s.core c).heldRemotes = [] ∨ ms = [])
    (h : ∀ m ∈ ms, dieOf m.src = dieOf m.target) : ((s.sendRemotes c ms).core c).eng = (s.core c).eng := by
  rcases ms with - | ⟨m, ms⟩
  · rfl
  · have hnone : (s.core c).heldRemotes = [] := hheld.resolve_right (List.cons_ne_nil _ _)
    have hheld' : ((s.modCore c fun k => { k with heldRemotes := k.heldRemotes ++ m :: ms }).core c).heldRemotes = m :: ms := by
      rw [State.core_modCore, if_pos rfl]
      exact congrArg (· ++ m :: ms) hnone
    show ((State.releaseRemotes _ c).core c).eng = _
    rw [State.releaseRemotes, hheld']
    refine (State.shipHeld_eng _ c [] h c).trans ?_
    rw [State.core_modCore, if_pos rfl]

/-! ### A slot operation alone -/

/-- A slot operation is a bundle of its own. -/
theorem exec_slot {i : Instr} {x : SlotHdr × (Ctx → SlotResult)} (h : slotSem i = some x) (s : State) : exec i s = .next (s.issueSolo i) := by
  -- only the slot operations have a meaning for their slot, and each is executed as a bundle of its own
  cases i <;> cases h
  all_goals rfl

/-- What a slot operation alone issues. -/
def Issue.alone (x : Issue) (h : SlotHdr) : Issue := (x.inSlot h.slot.num).add {}

theorem Issue.alone_effs (x : Issue) (h : SlotHdr) : (x.alone h).effs = x.effs.map fun e => { e with slot := h.slot.num } := List.append_nil _
theorem Issue.alone_cis (x : Issue) (h : SlotHdr) : (x.alone h).cis = x.cis := List.append_nil _
theorem Issue.alone_far (x : Issue) (h : SlotHdr) : (x.alone h).far = x.far := List.append_nil _
theorem Issue.alone_remote (x : Issue) (h : SlotHdr) : (x.alone h).remote = x.remote := List.append_nil _
theorem Issue.alone_ctl (x : Issue) (h : SlotHdr) : (x.alone h).ctl = x.ctl := List.append_nil _

/-- An operation whose checks hold and that nothing holds back is planned as an issue (R130, R142, R262). -/
theorem planRun_solo {k : CoreSt} {r : KernelRun} {me : CoreId} {peers : List CoreId} {i : Instr} {h : SlotHdr} {f : Ctx → SlotResult} {x : Issue}
    (hk : k.Issues r) (hi : slotSem i = some (h, f)) (hx : f ⟨k, r, .primary, h, me, peers, k.eng.rateNow .primary⟩ = .ok x)
    (hback : holdsBack k r x = false) : planRun k .primary me peers (some [i]) = .issue (x.alone h) := by
  have hnone : r.far.find? (fun f => f.due ≤ r.kc) = none :=
    List.find?_eq_none.2 fun f hf => by simpa using hk.clear.2 f hf
  have hsolo : soloIssue (fun h => ⟨k, r, .primary, h, me, peers, k.eng.rateNow .primary⟩) i = some x := by
    rw [soloIssue, hi]
    exact congrArg Except.toOption hx
  have hjoin : joinOps (fun h => ⟨k, r, .primary, h, me, peers, k.eng.rateNow .primary⟩) r [i] = .ok (x.alone h) := by
    simp only [joinOps, hi, hx]
    rfl
  unfold planRun
  simp only [hk.run, hk.live, hk.clear.not_late, hnone, Bool.not_true, Bool.false_eq_true, if_false]
  unfold planOps
  simp only [List.filterMap_cons, hsolo, List.filterMap_nil, List.any_cons, List.any_nil, hback, Bool.or_false, Bool.false_eq_true, if_false,
    hjoin]

/-- Neither an LWAIT whose requests are in nor a LOCK on banks that none owes holds its bundle back. -/
theorem holdsBack_false {k : CoreSt} {r : KernelRun} {x : Issue} (hwait : ∀ n, x.wait = some n → ∀ c, outstanding k r c ≤ n)
    (hlock : ∀ banks n, Ctl.lock banks n ∈ x.ctl → ∀ b ∈ banks, ∀ o ∈ k.eng.owed, o.1 ≠ b) : holdsBack k r x = false := by
  unfold holdsBack
  rw [Bool.or_eq_false_iff]
  constructor
  · split
    · next n hn => exact List.any_eq_false.2 fun c _ => by simpa using hwait n hn c
    · rfl
  · refine List.any_eq_false.2 fun c hc => ?_
    split
    · next banks n =>
      rw [Bool.not_eq_true, List.any_eq_false]
      intro o ho hb
      exact hlock banks n hc o.1 (List.contains_iff_mem.1 hb) o ho rfl
    · exact Bool.false_ne_true

/-- The cc in which the only kernel of a core issues: the core as `issued` gives it, and its remote atomics sent. -/
theorem State.engineStep_issue {s : State} {c : CoreId} {r : KernelRun} {given : Option (List Instr)} {y : Issue} (h : (s.core c).Issues r)
    (hp : planRun (s.core c).tick .primary c (s.peers c) given = .issue y) :
    s.engineStep c given = (s.setCore c ((s.core c).issued y)).sendRemotes c y.remote := by
  obtain ⟨r', hrun, -, -, -, -, hfault, -⟩ := h.issued_run y
  have hprimary : faultsNow (s.core c) ((s.core c).issued y).eng .primary = false := by
    have hrun' : ((s.core c).issued y).eng.run .primary = some r' := hrun
    unfold faultsNow
    rw [h.run, hrun']
    show (r.ending.isNone && r'.faulted) = false
    rw [hfault, Bool.and_false]
  have hsecondary : faultsNow (s.core c) ((s.core c).issued y).eng .secondary = false := by
    unfold faultsNow
    rw [h.alone]
  unfold State.engineStep
  simp only [engineCc_issue h hp, hprimary, hsecondary, Bool.or_false, Option.isSome_none, Bool.false_and, Bool.false_eq_true, if_false]

/-- What the core holds after a slot operation alone, and the state is it with the remote atomics sent. -/
theorem State.exec_alone {s : State} {i : Instr} {h : SlotHdr} {f : Ctx → SlotResult} {r : KernelRun} {x : Issue}
    (hi : slotSem i = some (h, f)) (hr : s.Issues r) (hx : f (s.slotCtx r h) = .ok x)
    (hwait : ∀ n, x.wait = some n → ∀ c, outstanding s.cur r c ≤ n)
    (hlock : ∀ banks n, Ctl.lock banks n ∈ x.ctl → ∀ b ∈ banks, ∀ o ∈ s.cur.eng.owed, o.1 ≠ b) :
    exec i s = .next ((s.setCore s.active (s.cur.issued (x.alone h))).sendRemotes s.active x.remote) := by
  have hplan := planRun_solo (CoreSt.Issues.tick hr) hi hx (holdsBack_false hwait hlock)
  rw [exec_slot hi, State.issueSolo, hr.run]
  exact congrArg Host.Outcome.next ((State.engineStep_issue hr hplan).trans (by rw [x.alone_remote h]; rfl))

end Sys2Proof.Machine
end

section
open Sys2Proof.Machine

/-- Settles O44: the core after the cc is `issued`, whose parts the lemmas above give one by one, and the remote atomics that leave it then
change the queues of remote atomics and the requests that wait, and nothing else. -/
theorem Sys2Proof.slotOperationsIssue : Obligations.SlotOperationsIssue := by
  intro s i h f r x hi hr hx hwait hlock
  rw [State.exec_alone hi hr hx hwait hlock]
  let k := s.cur.issued (x.alone h)
  let u := s.setCore s.active k
  have hu : u.core s.active = k := by rw [State.core_setCore, if_pos rfl]
  have hsent : u.SentFrom (u.sendRemotes s.active x.remote) := u.sentFrom_sendRemotes ..
  have hcur : (u.sendRemotes s.active x.remote).cur = (u.sendRemotes s.active x.remote).core s.active := congrArg _ hsent.active
  have hcore : k.SentFrom (u.sendRemotes s.active x.remote).cur := by
    rw [hcur, ← hu]
    exact hsent.core s.active
  obtain ⟨r', hrun, hcycle, hkc, hfar, hin, -, hplain⟩ := CoreSt.Issues.issued_run (x.alone h) hr
  have hcontrol : k.control = s.cur.control := CoreSt.Issues.issued_control _ hr
  have hbar : k.SameBarriers (s.cur.arriveNow .primary x.effs) := (CoreSt.Issues.issued_barriers _ hr).trans (by
    rw [x.alone_effs h]
    exact CoreSt.SameBarriers.arriveNow (j := s.cur.begun) (k := s.cur) ⟨rfl, rfl⟩ .primary x.effs (f := fun e => { e with slot := h.slot.num })
      (fun _ => rfl) fun _ => rfl)
  obtain ⟨far, hrun'⟩ := hcore.run .primary r' hrun
  refine answers_next ⟨(congrArg (·.kcycle) hcore.rest).trans hcycle, (congrArg (·.g) hcore.rest).trans (congrArg (·.g) hcontrol),
    (congrArg (·.pc) hcore.rest).trans (congrArg (·.pc) hcontrol), (congrArg (·.handles) hcore.rest).trans (congrArg (·.handles) hcontrol),
    hsent.mem, hsent.tags, hsent.poison, fun hcis => ?_, (congrArg (·.kb) hcore.rest).trans hbar.1,
    (congrArg (·.sem) hcore.rest).trans hbar.2, fun hremote => ?_, _, hrun', hkc, fun hheld hnear => ?_, hin.trans ?_, fun hloops hctl => ?_⟩
  · exact (congrArg (·.cistern) hcore.rest).trans (CoreSt.Issues.issued_cistern _ hr (by rw [x.alone_cis h, hcis]))
  · rw [hremote, State.sendRemotes_nil]
    exact ⟨fun c hc => by rw [State.core_setCore, if_neg (Ne.symm hc)], rfl⟩
  · have heng : (u.sendRemotes s.active x.remote).cur.eng = k.eng := by
      rw [hcur, State.sendRemotes_eng ?_ hnear, hu]
      rw [hu]
      exact hheld.imp_left fun hh => (congrArg (·.heldRemotes) hcontrol).trans hh
    have hsame : some { r' with far := far } = some r' := hrun'.symm.trans ((congrArg (Engine.run · .primary) heng).trans hrun)
    have hfar' : far = r'.far := congrArg (·.far) (Option.some.inj hsame)
    rw [hfar', hfar, x.alone_far h]
  · rw [x.alone_effs h, List.filter_map, List.map_map]
    rfl
  · exact hplain hloops (by rw [x.alone_ctl h, hctl])

end

section
/-! PROOF. What the writes that the device makes for itself leave as it is: of every core all but its monitors, its TLBs and the code
words that it may still fetch; the queues of launches, the launches and the teams (R235, R268 to R276, log 11). -/

namespace Sys2Proof.Machine

/-- A core less what a write to memory can change of it: monitored words, translations, code words. Where a team or a launch leaves the
rotation, the binding goes as well. -/
def CoreSt.own (k : CoreSt) : CoreSt :=
  { k with monitors := [], sweep := [], stale := [], tlb := [], engTlb := [], table := k.commands, bound := none, widthsOf := none }

/-- `t` has the cores of `s` but for monitors, translations, code words and bindings. -/
def State.SameCores (s t : State) : Prop := t.active = s.active ∧ t.pmaps = s.pmaps ∧ ∀ c, (t.core c).own = (s.core c).own

/-- `t` has the launches of `s`, admitted and queued. -/
def State.SameLaunches (s t : State) : Prop := t.launches = s.launches ∧ ∀ p, (t.part p).queues = (s.part p).queues

/-- `t` has the launches and the teams of `s`. -/
def State.SameRota (s t : State) : Prop := s.SameLaunches t ∧ t.teams = s.teams

/-- `t` is `s` after writes that the device made for itself. -/
def State.Written (s t : State) : Prop := s.SameCores t ∧ s.SameRota t

section
variable {s t u : State}

theorem State.SameCores.core (h : s.SameCores t) (c : CoreId) : (t.core c).own = (s.core c).own := h.2.2 c
theorem State.SameCores.active (h : s.SameCores t) : t.active = s.active := h.1
theorem State.SameCores.cur (h : s.SameCores t) : t.cur.own = s.cur.own := by
  rw [State.cur, h.active]
  exact h.core s.active
theorem State.SameCores.partOf (h : s.SameCores t) (c : CoreId) : t.partOf c = s.partOf c := by
  unfold State.partOf
  rw [h.2.1]
theorem State.SameCores.coresOf (h : s.SameCores t) (p : PartId) : t.coresOf p = s.coresOf p := by
  unfold State.coresOf
  rw [h.2.1]
theorem State.SameLaunches.launches (h : s.SameLaunches t) : t.launches = s.launches := h.1
theorem State.SameLaunches.queues (h : s.SameLaunches t) (p : PartId) : (t.part p).queues = (s.part p).queues := h.2 p
theorem State.Written.cores (h : s.Written t) : s.SameCores t := h.1
theorem State.Written.rota (h : s.Written t) : s.SameRota t := h.2
theorem State.SameRota.sched (h : s.SameRota t) : s.SameLaunches t := h.1
theorem State.SameRota.teams (h : s.SameRota t) : t.teams = s.teams := h.2

theorem State.SameCores.refl (s : State) : s.SameCores s := ⟨rfl, rfl, fun _ => rfl⟩
theorem State.SameCores.trans (h : s.SameCores t) (h' : t.SameCores u) : s.SameCores u :=
  ⟨h'.1.trans h.1, h'.2.1.trans h.2.1, fun c => (h'.core c).trans (h.core c)⟩
theorem State.SameLaunches.refl (s : State) : s.SameLaunches s := ⟨rfl, fun _ => rfl⟩
theorem State.SameLaunches.trans (h : s.SameLaunches t) (h' : t.SameLaunches u) : s.SameLaunches u :=
  ⟨h'.1.trans h.1, fun p => (h'.queues p).trans (h.queues p)⟩
theorem State.SameRota.refl (s : State) : s.SameRota s := ⟨.refl s, rfl⟩
theorem State.SameRota.trans (h : s.SameRota t) (h' : t.SameRota u) : s.SameRota u := ⟨h.sched.trans h'.sched, h'.teams.trans h.teams⟩
theorem State.Written.refl (s : State) : s.Written s := ⟨.refl s, .refl s⟩
theorem State.Written.trans (h : s.Written t) (h' : t.Written u) : s.Written u := ⟨h.cores.trans h'.cores, h.rota.trans h'.rota⟩

/-! ### Updates of the state -/

theorem State.SameCores.modCore {c : CoreId} {f : CoreSt → CoreSt} (h : s.SameCores t) (hf : (f (t.core c)).own = (t.core c).own) :
    s.SameCores (t.modCore c f) := by
  refine ⟨h.1, h.2.1, fun x => ?_⟩
  rw [State.core_modCore]
  split
  · next e =>
    subst e
    exact hf.trans (h.core _)
  · exact h.core x

theorem State.SameCores.eachCore {f : CoreId → CoreSt → CoreSt} (h : s.SameCores t) (hf : ∀ c k, (f c k).own = k.own) :
    s.SameCores (t.eachCore f) := by
  refine ⟨h.1, h.2.1, fun x => ?_⟩
  rw [State.core_eachCore, hf]
  exact h.core x

theorem State.Written.modCore {c : CoreId} {f : CoreSt → CoreSt} (h : s.Written t) (hf : (f (t.core c)).own = (t.core c).own) :
    s.Written (t.modCore c f) := ⟨h.cores.modCore hf, h.rota⟩

theorem State.Written.eachCore {f : CoreId → CoreSt → CoreSt} (h : s.Written t) (hf : ∀ c k, (f c k).own = k.own) :
    s.Written (t.eachCore f) := ⟨h.cores.eachCore hf, h.rota⟩

theorem State.SameLaunches.modPart {p : PartId} {f : PartSt → PartSt} (h : s.SameLaunches t) (hf : ∀ x, (f x).queues = x.queues) :
    s.SameLaunches (t.modPart p f) := by
  refine ⟨h.1, fun q => ?_⟩
  rw [← h.queues q, State.part, State.modPart, Bank.read_modify]
  split
  · next e => exact (hf _).trans (e ▸ rfl)
  · rfl

theorem State.Written.modPart {p : PartId} {f : PartSt → PartSt} (h : s.Written t) (hf : ∀ x, (f x).queues = x.queues) :
    s.Written (t.modPart p f) := ⟨h.cores, h.rota.sched.modPart hf, h.rota.teams⟩

theorem State.Written.modDie {d : DieId} {f : DieSt → DieSt} (h : s.Written t) : s.Written (t.modDie d f) := h
theorem State.Written.setTag {b : Nat} {on : Bool} (h : s.Written t) : s.Written (t.setTag b on) := h
theorem State.Written.setPoison {b : Nat} {on : Bool} (h : s.Written t) : s.Written (t.setPoison b on) := h
theorem State.Written.hostIrq {bit : Nat} (h : s.Written t) : s.Written (t.hostIrq bit) := h
theorem State.Written.copyFrame {src dst n : Nat} (h : s.Written t) : s.Written (t.copyFrame src dst n) := h

theorem State.Written.ite {p : Prop} [Decidable p] (h : s.Written t) (h' : s.Written u) : s.Written (if p then t else u) := by
  split
  · exact h
  · exact h'

theorem State.Written.foldl {α : Type} {f : State → α → State} {xs : List α} (h : s.Written t)
    (hf : ∀ u x, s.Written u → s.Written (f u x)) : s.Written (xs.foldl f t) := by
  induction xs generalizing t with
  | nil => exact h
  | cons x xs ih => exact ih (hf t x h)

/-! ### Writes at physical addresses, telemetry -/

theorem State.Written.writePhys {pa : Nat} {bs : List Byte} {seen : Bool} (h : s.Written t) : s.Written (t.writePhys pa bs seen) := by
  unfold State.writePhys
  split
  · exact h
  · split
    · cases seen
      · exact h
      · exact h.eachCore (f := fun _ k => { k with monitors := k.monitors.map (Monitor.see (blocksOf pa bs.length)) }) fun _ _ => rfl
    · exact h

theorem State.Written.putPhys {pa n x : Nat} (h : s.Written t) : s.Written (t.putPhys pa n x) := h.writePhys

theorem State.Written.writeOwn {pa : Nat} {bs : List Byte} (h : s.Written t) : s.Written (t.writeOwn pa bs) := h.ite h.writePhys

theorem State.Written.telemetry {d : DieId} {core : Option CoreId} {kind : Nat} {words : List DWord} (h : s.Written t) :
    s.Written (t.telemetry d core kind words) := h.ite h.writeOwn.modDie

theorem State.Written.reportPoison {pa : Nat} (h : s.Written t) : s.Written (t.reportPoison pa) := h.telemetry

theorem State.Written.freshCode {pa n : Nat} (h : s.Written t) : s.Written (t.freshCode pa n) := h.eachCore fun _ _ => rfl

/-! ### Copies on write and writes in a partition's memory -/

theorem State.Written.takeFrame {p : PartId} {big : Bool} (h : s.Written t) : ∀ x ∈ t.takeFrame p big, s.Written x.1 := by
  unfold State.takeFrame
  extract_lets +onlyGivenNames d n at_ frame
  split
  · rintro _ ⟨⟩
  · cases t.poisoned at_ 8 || t.liveIn frame (if big then 65536 else 4096)
    · rintro _ ⟨⟩
      exact h.putPhys
    · rintro _ ⟨⟩

theorem State.Written.logCopy {p : PartId} {va old new : Nat} {gen : Byte} {size : Nat} (h : s.Written t) :
    s.Written (t.logCopy p va old new gen size) := h.writeOwn.putPhys

/-- A command table without the translations that its commands made at their issue is the same whichever of them are kept. -/
theorem commands_filter (xs : List Cmd) (keep : TlbEntry → Bool) :
    (xs.map fun x => { x with windows := x.windows.filter keep }).map (fun x => { x with windows := [] }) =
      xs.map fun x => { x with windows := [] } := by
  rw [List.map_map]
  rfl

theorem State.Written.dropTlb {p : PartId} {base size : Nat} (h : s.Written t) : s.Written (t.dropTlb p base size) :=
  h.eachCore fun _ k => congrArg (fun x => { k.own with table := x }) (commands_filter k.table _)

theorem State.Written.moveMonitors {p : PartId} {va size old new : Nat} (h : s.Written t) :
    s.Written (t.moveMonitors p va size old new) := by
  unfold State.moveMonitors
  refine h.eachCore fun c k => ?_
  split <;> rfl

theorem State.Written.copyUnit {p : PartId} {va size old new entry : Nat} {w : DWord} {gen : Byte} (h : s.Written t) :
    s.Written (t.copyUnit p va size old new entry w gen) := h.copyFrame.writeOwn.dropTlb.moveMonitors.logCopy

theorem State.Written.splitLarge {p : PartId} {va entry : Nat} {w : DWord} (h : s.Written t) :
    ∀ u ∈ t.splitLarge p va entry w, s.Written u := by
  unfold State.splitLarge
  split
  · rintro _ ⟨⟩
  · rename_i e₁
    have h₁ := h.takeFrame _ e₁
    split
    · rintro _ ⟨⟩
    · rename_i e₂
      have h₂ := h₁.takeFrame _ e₂
      rintro _ ⟨⟩
      exact h₂.writePhys.writeOwn.dropTlb.copyUnit

theorem State.Written.splitHuge {p : PartId} {va entry : Nat} {w : DWord} (h : s.Written t) :
    ∀ u ∈ t.splitHuge p va entry w, s.Written u := by
  unfold State.splitHuge
  split
  · rintro _ ⟨⟩
  · rename_i e₁
    have h₁ := h.takeFrame _ e₁
    exact h₁.writePhys.writeOwn.dropTlb.splitLarge

theorem State.Written.copyOnWrite {p : PartId} {va : Nat} {m : Mapping} (h : s.Written t) : ∀ u ∈ t.copyOnWrite p va m, s.Written u := by
  unfold State.copyOnWrite
  split
  · rintro _ ⟨⟩
  · split
    · rintro _ ⟨⟩
      exact h
    · split
      · rintro _ ⟨⟩
      · rename_i e₁
        rintro _ ⟨⟩
        exact (h.takeFrame _ e₁).copyUnit
    · split
      · split
        · rintro _ ⟨⟩
        · rename_i e₁
          rintro _ ⟨⟩
          exact (h.takeFrame _ e₁).copyUnit
      · split
        · exact h.splitLarge
        · split
          · exact h.writePhys.dropTlb.splitHuge
          · exact h.splitHuge

theorem State.Written.resolveIn {p : PartId} {va : Nat} {acc : Access} (h : s.Written t) : ∀ x, t.resolveIn p va acc = .ok x → s.Written x.2 := by
  unfold State.resolveIn
  split
  · rintro _ ⟨⟩
  · split
    · rintro _ ⟨⟩
    · split
      · split
        · rintro _ ⟨⟩
        · rename_i e₁
          split
          · rintro _ ⟨⟩
          · rintro _ ⟨⟩
            exact h.copyOnWrite _ e₁
      · rintro _ ⟨⟩
        exact h

theorem State.Written.hold {p : PartId} {x : HeldWrite} (h : s.Written t) : s.Written (t.hold p x) := h.modPart fun _ => rfl

theorem State.Written.writeAs {live : Bool} {p : PartId} {va : Nat} {bs : List Byte} (h : s.Written t) : s.Written (t.writeAs live p va bs) := by
  unfold State.writeAs
  split
  · exact h.hold
  · split
    · rename_i e₁
      exact h.ite (h.resolveIn _ e₁).writePhys
    · exact h.hold.ite h

theorem State.Written.writeIn {p : PartId} {va : Nat} {bs : List Byte} (h : s.Written t) : s.Written (t.writeIn p va bs) := h.writeAs
theorem State.Written.putLive {p : PartId} {va n x : Nat} (h : s.Written t) : s.Written (t.putLive p va n x) := h.writeAs
theorem State.Written.putIn {p : PartId} {va n x : Nat} (h : s.Written t) : s.Written (t.putIn p va n x) := h.writeIn
theorem State.Written.setRecWord {p : PartId} {r : Addr} {i : Nat} {x : DWord} (h : s.Written t) : s.Written (t.setRecWord p r i x) := h.putIn
theorem State.Written.setAreaWord {p : PartId} {r : Addr} {i : Nat} {x : DWord} (h : s.Written t) : s.Written (t.setAreaWord p r i x) := h.putIn
theorem State.Written.setTaskState {p : PartId} {r : Addr} {st : BitVec 4} (h : s.Written t) : s.Written (t.setTaskState p r st) :=
  h.setRecWord

theorem State.Written.writeBlocks {p : PartId} {va n : Nat} {bs : List Byte} (h : s.Written t) : s.Written (t.writeBlocks p va n bs) := by
  induction n generalizing t va bs with
  | zero => exact h
  | succ n ih => exact ih h.writeIn

/-! ### Counters of the completion tree and of a launch -/

theorem State.Written.reportIn {p : PartId} {va n : Nat} (h : s.Written t) : s.Written (t.reportIn p va n) := by
  unfold State.reportIn
  split
  · exact h.reportPoison.ite h
  · exact h

theorem State.Written.treeAdd {p : PartId} {va : Nat} {n : Int} (h : s.Written t) : s.Written (t.treeAdd p va n) := h.reportIn.putLive

theorem State.Written.addRefused {va : Nat} {l : Addr} (h : s.Written t) : s.Written (t.addRefused va l) := h.telemetry

theorem State.Written.addCount {p : PartId} {va : Nat} {l : Addr} (h : s.Written t) : s.Written (t.addCount p va l) := by
  unfold State.addCount
  split
  · exact h.hold
  · split
    · exact h.hold.ite h.addRefused
    · rename_i e₁
      exact h.addRefused.ite (h.resolveIn _ e₁).putPhys

theorem State.Written.countLaunch {p : PartId} {l : Addr} (h : s.Written t) : s.Written (t.countLaunch p l) := h.addRefused.ite h.addCount

theorem State.Written.setLaunchStatus {p : PartId} {l : Addr} {st : Nat} (h : s.Written t) : s.Written (t.setLaunchStatus p l st) := h.putIn

end
end Sys2Proof.Machine
end

section
/-! PROOF. SYNC and EXIT (R46, R218, R221, R382). -/

namespace Sys2Proof.Machine

/-! ### Tasks and shares: what leaves every core as it is -/

section
variable {s t u : State}

theorem State.SameCores.written (h : s.SameCores t) (h' : t.Written u) : s.SameCores u := h.trans h'.cores

theorem State.SameCores.ite {p : Prop} [Decidable p] (h : s.SameCores t) (h' : s.SameCores u) : s.SameCores (if p then t else u) := by
  split
  · exact h
  · exact h'

theorem State.SameCores.modTask {p : PartId} {r : Addr} {f : TaskInfo → TaskInfo} (h : s.SameCores t) : s.SameCores (t.modTask p r f) := h
theorem State.SameCores.enqueue {p : PartId} {r : Addr} (h : s.SameCores t) : s.SameCores (t.enqueue p r) := h
theorem State.SameCores.forgetTask {p : PartId} {r : Addr} (h : s.SameCores t) : s.SameCores (t.forgetTask p r) := h

theorem State.SameCores.foldl {α : Type} {f : State → α → State} {xs : List α} (h : s.SameCores t)
    (hf : ∀ u x, s.SameCores u → s.SameCores (f u x)) : s.SameCores (xs.foldl f t) := by
  induction xs generalizing t with
  | nil => exact h
  | cons x xs ih => exact ih (hf t x h)

theorem State.SameCores.freeTree {a : Admitted} (h : s.SameCores t) : s.SameCores (t.freeTree a) := by
  unfold State.freeTree
  extract_lets +onlyGivenNames all s₁ s₂ gone s₃ forget s₄
  have h₁ : s.SameCores s₁ := h.foldl fun u i hu => by
    split
    · exact hu
    · exact hu
  have h₂ : s.SameCores s₂ := h₁
  have h₃ : s.SameCores s₃ := h₂.eachCore fun c k => by
    split
    · split <;> rfl
    · rfl
  have h₄ : s.SameCores s₄ := h₃.eachCore fun c k => by
    simp only [forget]
    split <;> rfl
  exact h₄

theorem State.SameCores.maybeComplete {a : Admitted} (h : s.SameCores t) : s.SameCores (t.maybeComplete a) := by
  unfold State.maybeComplete
  split
  · extract_lets +onlyGivenNames irq s₁ s₂ s₃
    have h₂ : s.SameCores s₂ := h.written (State.Written.refl t).setLaunchStatus.countLaunch
    have h₃ : s.SameCores s₃ := h₂.written ((State.Written.refl s₂).hostIrq.ite (.refl s₂))
    exact h₃.freeTree
  · exact h

theorem State.SameCores.reportShare {a : Admitted} {d : DieId} (h : s.SameCores t) : s.SameCores (t.reportShare a d) := by
  unfold State.reportShare
  extract_lets +onlyGivenNames hdr s₁
  have h₁ : s.SameCores s₁ := h.written (State.Written.refl t).treeAdd
  exact (h₁.written (State.Written.refl s₁).treeAdd).maybeComplete.ite h₁

theorem State.SameCores.shareAdd {p : PartId} {x : Team} {pos : Nat} {n : Int} (h : s.SameCores t) : s.SameCores (t.shareAdd p x pos n) := by
  unfold State.shareAdd
  split
  · exact h
  · extract_lets +onlyGivenNames c s₁
    have h₁ : s.SameCores s₁ := h.written (State.Written.refl t).treeAdd
    exact h₁.reportShare.ite h₁

theorem State.SameCores.countTask {p : PartId} {r : Addr} (h : s.SameCores t) : s.SameCores (t.countTask p r) := by
  unfold State.countTask
  split
  · exact h.ite (State.SameCores.shareAdd h.modTask)
  · exact h

/-! ### Suspending -/

/-- A core whose task has suspended. -/
def CoreSt.asleep (k : CoreSt) : CoreSt := { k with running := none, uie := false }

/-- A suspension writes memory, takes the task off its core, and changes the team's list of tasks. -/
theorem State.suspend_cores {c : CoreId} {r : Addr} {p : PartId} (hr : (s.core c).running = some r) (hp : s.partOf c = some p)
    (st kind : BitVec 4) (target : Addr) (thr pc : DWord) (dest : BitVec 5) :
    ∃ u, s.Written u ∧ (u.modCore c CoreSt.asleep).SameCores (s.suspend c st kind target thr pc dest) := by
  unfold State.suspend
  extract_lets +onlyGivenNames k
  have hk : k.running = some r := hr
  rw [hk, hp]
  dsimp -zeta only
  extract_lets +onlyGivenNames s₁ s₂ s₃ w7 aff s₄ w0 w0' s₅ s₆ s₇
  have h₅ : s.Written s₅ := (State.Written.refl s).writeBlocks.setRecWord.setRecWord.setRecWord.setRecWord
  have h₇ : (s₅.modCore c CoreSt.asleep).SameCores s₇ := State.SameCores.modTask (.refl _)
  exact ⟨s₅, h₅, h₇.enqueue.ite h₇⟩

theorem State.self_eq {p : PartId} {r : Addr} (h : s.self = some (p, r)) : s.cur.running = some r ∧ s.partOf s.active = some p := by
  unfold State.self at h
  split at h
  · rename_i q x hq hx
    cases h
    exact ⟨hx, hq⟩
  · cases h

/-- What a core's own words are, whatever its monitors and translations. -/
theorem State.SameCores.hasCommand (h : s.SameCores t) (r : Addr) : t.cur.hasCommand r = s.cur.hasCommand r := by
  have key (k : CoreSt) : k.hasCommand r = k.commands.any fun c => c.task == r := by
    unfold CoreSt.hasCommand CoreSt.commands
    rw [List.any_map]
    rfl
  rw [key, key]
  exact congrArg (fun k : CoreSt => k.table.any fun c => c.task == r) h.cur

theorem State.SameCores.g (h : s.SameCores t) (r : BitVec 5) : t.g r = s.g r := by
  have own : t.cur.own.readG r = s.cur.own.readG r := congrArg (CoreSt.readG · r) h.cur
  exact own

/-- A result after writes of the device itself. -/
theorem State.Written.gave (h : s.Written t) (d : BitVec 5) (x : DWord) : s.Gave d x (t.result d x) := by
  obtain ⟨hdest, hzero, hregs, -, -, hpc, -, -⟩ := t.wrote_result d x
  exact ⟨hdest, hzero, fun r hr => (hregs r hr).trans (h.cores.g r), hpc.trans (congrArg (·.pc + 4) h.cores.cur)⟩

theorem State.cur_modCore {c : CoreId} (h : c = s.active) (f : CoreSt → CoreSt) : (s.modCore c f).cur = f s.cur := by
  subst h
  exact s.cur_modCur f

/-- What a suspension leaves of the active core. -/
theorem State.suspend_cur {r : Addr} {p : PartId} (hr : s.cur.running = some r) (hp : s.partOf s.active = some p)
    (st kind : BitVec 4) (target : Addr) (thr pc : DWord) (dest : BitVec 5) :
    let t := s.suspend s.active st kind target thr pc dest
    t.active = s.active ∧ t.cur.own = s.cur.own.asleep := by
  obtain ⟨u, hu, hsame⟩ := State.suspend_cores hr hp st kind target thr pc dest
  refine ⟨hsame.active.trans hu.cores.active, hsame.cur.trans ?_⟩
  rw [State.cur_modCore hu.cores.active.symm]
  exact congrArg CoreSt.asleep hu.cores.cur

/-- The running task and the partition of the active core, after writes. -/
theorem State.SameCores.runs {r : Addr} {p : PartId} (h : s.SameCores t) (hr : s.cur.running = some r) (hp : s.partOf s.active = some p) :
    t.cur.running = some r ∧ t.partOf t.active = some p :=
  ⟨(congrArg (·.running) h.cur).trans hr, by rw [h.partOf, h.active, hp]⟩

theorem State.slept_of_own {t : State} (h : t.cur.own = s.cur.own.asleep) : s.Slept t :=
  ⟨congrArg (·.running) h, congrArg (·.uie) h, congrArg (·.g) h, congrArg (·.shadowG) h⟩

theorem State.Slept.advance {t : State} (h : s.Slept t) : s.Slept t.advance := by
  unfold State.Slept State.advance at *
  rw [State.cur_modCur]
  exact h

/-- A suspension, perhaps after writes of the device itself. -/
theorem State.Written.suspend_slept {r : Addr} {p : PartId} (h : s.Written t) (hr : s.cur.running = some r)
    (hp : s.partOf s.active = some p) (st kind : BitVec 4) (target : Addr) (thr pc : DWord) (dest : BitVec 5) :
    s.Slept (t.suspend t.active st kind target thr pc dest) := by
  obtain ⟨hr', hp'⟩ := h.cores.runs hr hp
  exact slept_of_own ((State.suspend_cur hr' hp' st kind target thr pc dest).2.trans (congrArg CoreSt.asleep h.cores.cur))

/-! ### The end of a task -/

/-- A core whose task has ended: it runs none, and no handle, transaction or notification of the task is left. -/
def CoreSt.ended (k : CoreSt) (r : Addr) : CoreSt :=
  { (k.freeHandles r).asleep with txns := k.txns.filter fun t => t.task != r, notifs := k.notifs.filter fun n => n.task != r }

theorem State.endTask_cur {r : Addr} {p : PartId} (hr : s.cur.running = some r) (hp : s.partOf s.active = some p) :
    (s.endTask p r).cur.own = s.cur.own.ended r := by
  unfold State.endTask
  extract_lets +onlyGivenNames c s₁ child s₂ s₃ s₄
  have h₁ : s₁.cur = { s.cur.freeHandles r with txns := s.cur.txns.filter fun t => t.task != r } := s.cur_modCur _
  have hr₁ : s₁.cur.running = some r := (congrArg (·.running) h₁).trans hr
  obtain ⟨hactive, hown⟩ : s₂.active = s₁.active ∧ s₂.cur.own = s₁.cur.own.asleep :=
    State.suspend_cur (s := s₁) hr₁ hp (if child then stParked else stExited) 0 0 0 s₁.cur.pc 0
  have h₃ : s₃.cur.own = s.cur.own.ended r := by
    have e : s₃.cur = { s₂.cur with notifs := s₂.cur.notifs.filter fun n => n.task != r } := State.cur_modCore hactive.symm _
    rw [e]
    show ({ s₂.cur.own with notifs := s₂.cur.own.notifs.filter fun n => n.task != r } : CoreSt) = _
    rw [hown, h₁]
    rfl
  have h₄ : s₃.SameCores s₄ := (State.SameCores.refl s₃).ite (State.SameCores.countTask (.refl s₃))
  have h₅ : s₃.SameCores (if child then s₄ else s₄.forgetTask p r) := h₄.ite h₄.forgetTask
  exact h₅.cur.trans h₃

theorem State.endGeneration_written (s : State) (p : PartId) (r : Addr) : s.Written (s.endGeneration p r).1 :=
  (State.Written.refl s).setAreaWord.setAreaWord

end
end Sys2Proof.Machine
end

section
open Sys2Proof.Machine

/-- Settles O36: a trap, writes of the device itself with a result after them, a suspension, or the end of the task, by what stands in the
task area and the command table. -/
theorem Sys2Proof.syncAndExit : Obligations.SyncAndExit := by
  intro s d p r hself hhandler
  obtain ⟨hr, hp⟩ := State.self_eq hself
  have hsync : exec (.sync d) s = execSync d s := rfl
  have hexit : exec .exit s = execExit s := rfl
  rw [hsync, hexit, execSync, execExit, hhandler, hself]
  have hgen := s.endGeneration_written p r
  refine ⟨fun hbad htrap => ?_, fun hbad => ⟨fun hnone => ?_, fun hsome => ?_, fun hnone hcmd => ?_, fun hnone hcmd => ?_⟩⟩
  · simp only [hbad, Bool.false_eq_true, if_false, if_true]
    exact ⟨answers_next (State.trapped_faultNow s _ _ htrap), answers_next (State.trapped_faultNow s _ _ htrap)⟩
  · simp only [hbad, hnone, Bool.false_eq_true, if_false, beq_self_eq_true, if_true]
    exact answers_next (hgen.gave d _)
  · have hne : (s.areaWord p r 1 == 0) = false := by simpa using hsome
    simp only [hbad, hne, bne, Bool.not_false, Bool.false_eq_true, if_false, if_true]
    have hslept := (State.Written.refl s).suspend_slept hr hp stWaiting 6 0 0
    exact ⟨answers_next (hslept (s.cur.pc + 4) d).advance, answers_next (hslept s.cur.pc 0)⟩
  · have hcmd' : (s.endGeneration p r).1.cur.hasCommand r = true := (hgen.cores.hasCommand r).trans hcmd
    simp only [hbad, hnone, bne_self_eq_false, hcmd', Bool.false_eq_true, if_false, if_true]
    exact answers_next (hgen.suspend_slept hr hp stWaiting 7 0 0 _ 0)
  · have hcmd' : (s.endGeneration p r).1.cur.hasCommand r = false := (hgen.cores.hasCommand r).trans hcmd
    simp only [hbad, hnone, bne_self_eq_false, hcmd', Bool.false_eq_true, if_false]
    obtain ⟨hr', hp'⟩ := hgen.cores.runs hr hp
    have hown : ((s.endGeneration p r).1.endTask p r).cur.own = s.cur.own.ended r :=
      (State.endTask_cur hr' hp').trans (congrArg (CoreSt.ended · r) hgen.cores.cur)
    refine answers_next ⟨⟨congrArg (·.running) hown, congrArg (·.uie) hown, congrArg (·.g) hown, congrArg (·.shadowG) hown⟩,
      fun h => ?_, fun n hn => ?_, congrArg (·.table) hown⟩
    · exact (congrArg (fun k : CoreSt => k.handles.read h) hown).trans (Bank.read_ofFn _ h)
    · have hnotifs : ((s.endGeneration p r).1.endTask p r).cur.notifs = s.cur.notifs.filter fun n => n.task != r :=
        congrArg (·.notifs) hown
      rw [hnotifs] at hn
      exact bne_iff_ne.1 (List.mem_filter.1 hn).2

end

section
/-! PROOF. What the placer leaves of the launches and the teams (R203, R250 to R252, R370 to R374). -/

namespace Sys2Proof.Machine

section
variable {s t u : State}

/-! ### Images, contexts and records that the placer writes -/

theorem State.Written.fst {α : Type} {x : State × α} {a : α} (h : s.Written x.1) (e : x = (t, a)) : s.Written t := by
  rw [e] at h
  exact h

theorem State.Written.writeImage {p : PartId} {va : Nat} {bs : List ImageBlock} (h : s.Written t) : s.Written (t.writeImage p va bs).1 := by
  induction bs generalizing t va with
  | nil => exact h
  | cons b bs ih =>
    unfold State.writeImage
    split
    · exact h
    · rename_i pa u e₁
      split
      · exact h
      · have h₁ : s.Written (u.writePhys pa b.1) := (h.resolveIn _ e₁).writePhys
        exact ih (h₁.setPoison.ite h₁)

theorem State.Written.writeWhole {p : PartId} {va : Nat} {header : Bool → List Byte} {body : List ImageBlock} (h : s.Written t) :
    s.Written (t.writeWhole p va header body).1 := by
  unfold State.writeWhole
  split
  · rename_i e₁
    exact (h.writeImage.fst e₁).writeImage
  · exact h.writeImage

theorem State.Written.writeContext {p : PartId} {n : Nat} {k : CoreSt} {c : CoreId} {l : Addr} (h : s.Written t) :
    s.Written (t.writeContext p n k c l).1 := h.writeWhole

theorem State.Written.saveContexts {x : Team} {cs : List (CoreId × Nat)} {done : List Context} (h : s.Written t) :
    s.Written (t.saveContexts x cs done).1 := by
  induction cs generalizing t done with
  | nil => exact h
  | cons a cs ih =>
    unfold State.saveContexts
    extract_lets +onlyGivenNames k bytes here
    split
    · exact ih h
    · extract_lets +onlyGivenNames taken
      split
      · exact h
      · split
        · rename_i e₁
          exact h.writeContext.fst e₁
        · rename_i e₁
          exact ih (h.writeContext.fst e₁)

theorem State.Written.saveFailed {x : Team} {c : CoreId} {va : Nat} (h : s.Written t) : s.Written (t.saveFailed x c va) := h.telemetry

theorem State.Written.setAffinity {p : PartId} {r : Addr} {c : CoreId} (h : s.Written t) : s.Written (t.setAffinity p r c) := h.setRecWord

theorem State.Written.countShares {a : Admitted} {dies : List DieId} (h : s.Written t) : s.Written (t.countShares a dies) := by
  unfold State.countShares
  refine State.Written.treeAdd (h.foldl fun u d hu => ?_)
  exact hu.treeAdd.treeAdd.ite hu.treeAdd

theorem State.Written.placeBytes {p : PartId} {va n : Nat} {bs : List Byte} (h : s.Written t) :
    ∀ u, t.placeBytes p va n bs = .ok u → s.Written u := by
  induction n generalizing t va bs with
  | zero =>
    rintro _ ⟨⟩
    exact h
  | succ n ih =>
    unfold State.placeBytes
    split
    · rintro _ ⟨⟩
    · rename_i e₁
      split
      · rintro _ ⟨⟩
      · split
        · rintro _ ⟨⟩
        · exact ih (h.resolveIn _ e₁).writePhys

theorem State.Written.placeTasks {x : Demand} {is : List Nat} (h : s.Written t) : ∀ u, t.placeTasks x is = .ok u → s.Written u := by
  induction is generalizing t with
  | nil =>
    rintro _ ⟨⟩
    exact h
  | cons i is ih =>
    unfold State.placeTasks
    extract_lets +onlyGivenNames r
    split
    · rintro _ ⟨⟩
    · rename_i e₁
      exact ih (h.placeBytes _ e₁)

theorem State.Written.placeTree {x : Demand} {is : List (Nat × Nat)} (h : s.Written t) : ∀ u, t.placeTree x is = .ok u → s.Written u := by
  induction is generalizing t with
  | nil =>
    rintro _ ⟨⟩
    exact h
  | cons i is ih =>
    unfold State.placeTree
    extract_lets +onlyGivenNames bytes va
    split
    · rintro _ ⟨⟩
    · rename_i e₁
      split
      · exact ih (h.placeBytes _ e₁).setTag
      · rintro _ ⟨⟩

theorem State.Written.refuseLaunch {x : Demand} {st : Nat} (h : s.Written t) : s.Written (t.refuseLaunch x st) := h.setLaunchStatus.countLaunch

/-! ### Cores that are halted: the launches and the teams stay -/

theorem State.SameRota.written (h : s.SameRota t) (h' : t.Written u) : s.SameRota u := h.trans h'.rota
theorem State.SameRota.modCore {c : CoreId} {f : CoreSt → CoreSt} (h : s.SameRota t) : s.SameRota (t.modCore c f) := h

theorem State.SameRota.ite {p : Prop} [Decidable p] (h : s.SameRota t) (h' : s.SameRota u) : s.SameRota (if p then t else u) := by
  split
  · exact h
  · exact h'

theorem State.SameRota.foldl {α : Type} {f : State → α → State} {xs : List α} (h : s.SameRota t)
    (hf : ∀ u x, s.SameRota u → s.SameRota (f u x)) : s.SameRota (xs.foldl f t) := by
  induction xs generalizing t with
  | nil => exact h
  | cons x xs ih => exact ih (hf t x h)

theorem State.SameRota.shipRemote {m : RemoteAtomic} (h : s.SameRota t) : s.SameRota (t.shipRemote m) := by
  unfold State.shipRemote
  split
  · exact h
  · extract_lets +onlyGivenNames cls
    split
    · rename_i e
      obtain ⟨p, -, rfl⟩ := Option.map_eq_some_iff.1 e
      exact h
    · exact h

theorem State.SameRota.shipHeld {c : CoreId} {kept ms : List RemoteAtomic} (h : s.SameRota t) : s.SameRota (t.shipHeld c kept ms) := by
  induction ms generalizing t kept with
  | nil => exact h
  | cons m ms ih =>
    unfold State.shipHeld
    extract_lets +onlyGivenNames k
    split
    · exact ih h
    · exact ih h.shipRemote

theorem State.SameRota.releaseRemotes {c : CoreId} (h : s.SameRota t) : s.SameRota (t.releaseRemotes c) := by
  unfold State.releaseRemotes
  split
  · exact h
  · exact h.shipHeld

theorem State.SameRota.serveRemote {m : RemoteAtomic} (h : s.SameRota t) : s.SameRota (t.serveRemote m) := by
  unfold State.serveRemote
  extract_lets +onlyGivenNames k fail
  split
  · exact h
  · extract_lets +onlyGivenNames v
    exact State.SameRota.ite h h

theorem State.SameRota.performRemote {m : RemoteAtomic} (h : s.SameRota t) : s.SameRota (t.performRemote m) := h.serveRemote.releaseRemotes

theorem State.SameRota.performAll {d : CoreId} {ms : List RemoteAtomic} (h : s.SameRota t) : s.SameRota (t.performAll d ms) := by
  unfold State.performAll
  split
  · exact h
  · exact State.SameRota.foldl (State.SameRota.modCore h) fun _ _ hu => State.SameRota.performRemote (State.SameRota.modCore hu)

theorem State.SameRota.finishFar {c : CoreId} (h : s.SameRota t) : s.SameRota (t.finishFar c) := by
  unfold State.finishFar
  extract_lets +onlyGivenNames todo s₁ s₂
  have h₁ : s.SameRota s₁ := h
  have h₂ : s.SameRota s₂ := h₁.foldl fun _ _ hu => hu.performAll
  exact h₂.modCore

theorem State.SameRota.stopEngine {c : CoreId} {reason : BitVec 4} (h : s.SameRota t) : s.SameRota (t.stopEngine c reason) := h.finishFar.modCore

theorem State.SameRota.haltCore {c : CoreId} (h : s.SameRota t) : s.SameRota (t.haltCore c) :=
  State.SameRota.foldl (State.SameRota.modCore h.stopEngine) fun _ _ hu => hu.performRemote

end
end Sys2Proof.Machine
end

section
/-! PROOF. Admission, swapping in and the end of a quantum (R39, R203, R250 to R252). -/

namespace Sys2Proof.Machine

/-! ### The lists of teams -/

theorem length_replaceFirst {α : Type} (p : α → Bool) (f : α → α) (xs : List α) : (replaceFirst p f xs).length = xs.length := by
  induction xs with
  | nil => rfl
  | cons x xs ih =>
    unfold replaceFirst
    split
    · rfl
    · exact congrArg (· + 1) ih

/-- The element that `replaceFirst` changes is the one that `find?` finds. -/
theorem mem_replaceFirst_of_find {α : Type} {p : α → Bool} {x : α} (f : α → α) {xs : List α} (h : xs.find? p = some x) :
    f x ∈ replaceFirst p f xs := by
  induction xs with
  | nil => cases h
  | cons y ys ih =>
    unfold replaceFirst
    cases hp : p y with
    | true =>
      rw [List.find?_cons_of_pos hp] at h
      cases h
      exact List.mem_cons_self
    | false =>
      rw [List.find?_cons_of_neg (by simp [hp])] at h
      exact List.mem_cons_of_mem _ (ih h)

/-- Each element is still there, or what it is replaced with. -/
theorem replaceFirst_keeps {α : Type} (p : α → Bool) (f : α → α) {xs : List α} {x : α} (h : x ∈ xs) :
    x ∈ replaceFirst p f xs ∨ f x ∈ replaceFirst p f xs := by
  induction xs with
  | nil => cases h
  | cons y ys ih =>
    unfold replaceFirst
    rcases List.mem_cons.1 h with rfl | h
    · split
      · exact .inr List.mem_cons_self
      · exact .inl List.mem_cons_self
    · split
      · exact .inl (List.mem_cons_of_mem _ h)
      · exact (ih h).imp (List.mem_cons_of_mem _) (List.mem_cons_of_mem _)

theorem Team.is_iff {p : PartId} {l : Addr} {i : BitVec 32} {t : Team} : Team.is p l i t = true ↔ t.part = p ∧ t.launch = l ∧ t.index = i := by
  unfold Team.is
  rw [Bool.and_eq_true, Bool.and_eq_true, beq_iff_eq, beq_iff_eq, beq_iff_eq, and_assoc]

section
variable {s t u : State}

/-! ### Starting teams -/

/-- `t` has the launches of `s` and as many teams, none of them with a saved context where none of `s` has one. -/
def State.Rotates (s t : State) : Prop :=
  s.SameLaunches t ∧ t.teams.length = s.teams.length ∧ ((∀ x ∈ s.teams, x.saved = []) → ∀ x ∈ t.teams, x.saved = [])

theorem State.Rotates.sched (h : s.Rotates t) : s.SameLaunches t := h.1
theorem State.Rotates.length (h : s.Rotates t) : t.teams.length = s.teams.length := h.2.1
theorem State.Rotates.refl (s : State) : s.Rotates s := ⟨.refl s, rfl, fun h => h⟩
theorem State.Rotates.trans (h : s.Rotates t) (h' : t.Rotates u) : s.Rotates u :=
  ⟨h.sched.trans h'.sched, h'.length.trans h.length, fun hs => h'.2.2 (h.2.2 hs)⟩
theorem State.SameRota.rotates (h : s.SameRota t) : s.Rotates t := by
  refine ⟨h.sched, congrArg List.length h.teams, fun hs => ?_⟩
  rw [h.teams]
  exact hs
theorem State.Rotates.written (h : s.Rotates t) (h' : t.Written u) : s.Rotates u := h.trans h'.rota.rotates
theorem State.Rotates.modCore {c : CoreId} {f : CoreSt → CoreSt} (h : s.Rotates t) : s.Rotates (t.modCore c f) := h

theorem State.Rotates.ite {p : Prop} [Decidable p] (h : s.Rotates t) (h' : s.Rotates u) : s.Rotates (if p then t else u) := by
  split
  · exact h
  · exact h'

theorem State.Rotates.foldl {α : Type} {f : State → α → State} {xs : List α} (h : s.Rotates t)
    (hf : ∀ u x, s.Rotates u → s.Rotates (f u x)) : s.Rotates (xs.foldl f t) := by
  induction xs generalizing t with
  | nil => exact h
  | cons x xs ih => exact ih (hf t x h)

theorem State.Rotates.modTeam {p : Team → Bool} {f : Team → Team} (h : s.Rotates t) (hf : ∀ x, x.saved = [] → (f x).saved = []) :
    s.Rotates (t.modTeam p f) := by
  refine ⟨h.sched, (length_replaceFirst ..).trans h.length, fun hs x hx => ?_⟩
  rcases mem_replaceFirst hx with hx | ⟨y, hy, rfl⟩
  · exact h.2.2 hs x hx
  · exact hf y (h.2.2 hs y hy)

theorem State.Rotates.modTask {p : PartId} {r : Addr} {f : TaskInfo → TaskInfo} (h : s.Rotates t) : s.Rotates (t.modTask p r f) :=
  h.modTeam fun _ hx => hx

theorem State.Rotates.enqueue {p : PartId} {r : Addr} (h : s.Rotates t) : s.Rotates (t.enqueue p r) := h.modTeam fun _ hx => hx

/-- A wake is writes of the device itself, then the end of the wait in the list of tasks and in the ready queue (R37). -/
theorem State.wake_eq {p : PartId} {r : Addr} {value : Option DWord} : ∃ u, t.Written u ∧
    t.wake p r value = (u.modTask p r fun i => { i with dest := 0 }).enqueue p r := by
  unfold State.wake
  extract_lets +onlyGivenNames dest s₁ s₂
  refine ⟨s₂, ?_, rfl⟩
  have h₁ : t.Written s₁ := by
    unfold s₁
    split
    · exact State.Written.ite (State.Written.refl t).setRecWord (State.Written.refl t).setRecWord.putIn
    · exact .refl t
  exact h₁.setRecWord.setTaskState

theorem State.Rotates.wake {p : PartId} {r : Addr} {value : Option DWord} (h : s.Rotates t) : s.Rotates (t.wake p r value) := by
  obtain ⟨u, hu, e⟩ := State.wake_eq (t := t) (p := p) (r := r) (value := value)
  rw [e]
  exact (h.written hu).modTask.enqueue

theorem State.Rotates.fst {α : Type} {x : State × α} {a : α} (h : s.Rotates x.1) (e : x = (t, a)) : s.Rotates t := by
  rw [e] at h
  exact h

theorem State.Rotates.reread {c : CoreId} {m : Monitor} (h : s.Rotates t) : s.Rotates (t.reread c m).1 := by
  unfold State.reread
  split
  · split
    · exact h
    · extract_lets +onlyGivenNames x
      split
      · exact h.wake
      · exact h
  · exact h

theorem State.Rotates.rereadAt {c : CoreId} {swept : Bool} {n : Nat} (h : s.Rotates t) : s.Rotates (t.rereadAt c swept n).1 := by
  unfold State.rereadAt
  split
  · exact h
  · extract_lets +onlyGivenNames s₁
    have h₁ : s.Rotates s₁ := h.modCore
    split
    rename_i e₁
    have h₂ := h₁.reread.fst e₁
    exact h₂.modCore.ite h₂

theorem State.Rotates.rereadFrom {c : CoreId} {swept : Bool} {sel : State → Monitor → Bool} {fuel i : Nat} (h : s.Rotates t) :
    s.Rotates (t.rereadFrom c swept sel fuel i) := by
  induction fuel generalizing t i with
  | zero => exact h
  | succ fuel ih =>
    unfold State.rereadFrom
    split
    · exact h
    · split
      · exact ih h.rereadAt
      · exact ih h

theorem State.Rotates.rereadCore {c : CoreId} {sel : State → Monitor → Bool} (h : s.Rotates t) : s.Rotates (t.rereadCore c sel) :=
  h.rereadFrom.rereadFrom

/-- A team that has not been bound: what is written before its own entry changes leaves the teams. -/
theorem State.bindTeam_first {x : Team} (hx : x.everBound = false) (cores : List CoreId) : ∃ u, t.SameRota u ∧
    t.bindTeam x cores = u.modTeam (Team.is x.part x.launch x.index) fun t =>
      { t with bound := cores, running := true, everBound := true, dies := cores.map dieOf } := by
  unfold State.bindTeam
  extract_lets +onlyGivenNames p sel put
  rw [hx, if_neg Bool.false_ne_true]
  extract_lets +onlyGivenNames s₁ s₂ dies s₃
  refine ⟨s₃, ?_, rfl⟩
  have h₁ : t.SameRota s₁ := State.SameRota.foldl (.refl t) fun _ _ hu => hu.modCore
  have h₂ : t.SameRota s₂ := h₁.foldl fun u _ hu => hu.written (State.Written.refl u).setAffinity
  unfold s₃
  split
  · exact h₂.written (State.Written.refl s₂).countShares
  · exact h₂

theorem State.Rotates.bindTeam {x : Team} {cores : List CoreId} (h : s.Rotates t) : s.Rotates (t.bindTeam x cores) := by
  cases hx : x.everBound with
  | false =>
    obtain ⟨u, hu, e⟩ := State.bindTeam_first (t := t) hx cores
    rw [e]
    exact (h.trans hu.rotates).modTeam fun _ hy => hy
  | true =>
    unfold State.bindTeam
    extract_lets +onlyGivenNames p sel put
    rw [hx, if_pos rfl]
    extract_lets +onlyGivenNames s₁ s₂ s₃
    have h₁ : s.Rotates s₁ := h.foldl fun u i hu => by
      dsimp only
      exact State.Rotates.ite (hu.written (State.Written.refl u).setAffinity) hu
    have h₂ : s.Rotates s₂ := h₁.foldl fun _ _ hu => hu.modCore
    have h₃ : s.Rotates s₃ := h₂.modTeam fun _ _ => rfl
    exact h₃.foldl fun _ _ hu => State.Rotates.rereadCore hu.modCore

theorem State.Rotates.startTeams {p : PartId} {prefer : List CoreId} {fuel : Nat} (h : s.Rotates t) (hs : ∀ x ∈ s.teams, x.saved = []) :
    s.Rotates (t.startTeams p prefer fuel) := by
  induction fuel generalizing t with
  | zero => exact h
  | succ fuel ih =>
    unfold State.startTeams
    split
    · rename_i x e
      have hsaved : x.saved = [] := h.2.2 hs x (List.mem_filter.1 (mem_of_nextTeam e)).1
      have hstart : t.startTeam x prefer = t.bindTeam x (pickCores (t.freeCores x.part) prefer x.size) := by
        rw [State.startTeam, hsaved]
        rfl
      rw [hstart]
      exact ih h.bindTeam
    · exact h

theorem State.Rotates.turnPeriod {p : PartId} (h : s.Rotates t) : s.Rotates (t.turnPeriod p) := by
  unfold State.turnPeriod
  extract_lets +onlyGivenNames ts s₁
  have h₁ : s.Rotates s₁ := by
    refine ⟨h.sched, (List.length_map ..).trans h.length, fun hs x hx => ?_⟩
    obtain ⟨y, hy, rfl⟩ := List.mem_map.1 hx
    have hsaved := h.2.2 hs y hy
    split <;> exact hsaved
  exact h.ite ⟨h₁.sched.modPart fun _ => rfl, h₁.length, h₁.2.2⟩

end
end Sys2Proof.Machine
end

section
/-! PROOF. The placer's events, one lemma for each clause (R39, R203, R250 to R252, R370 to R374). -/

namespace Sys2Proof.Machine

/-! ### LAUNCH_ADMISSION -/

/-- The device with the head of a partition's queue taken off. -/
def State.popped (s : State) (p : PartId) (q : BitVec 4) : State :=
  s.modPart p fun y => { y with queues := y.queues.modify q (·.drop 1) }

/-- What a launch needs of its partition at all (R250). -/
def State.couldFit (s : State) (p : PartId) (x : Demand) : Prop :=
  x.cores ≤ (s.coresOf p).length ∧ x.cistern ≤ 12582912 ∧ (s.part p).ctbase.extractLsb' 12 36 ≠ 0 ∧
    x.records ≤ ((s.part p).ctsize.extractLsb' 0 32).toNat

/-- The completion-tree records that a launch would get. -/
def State.freeRecords (s : State) (p : PartId) (x : Demand) : List Nat :=
  takeFree (s.part p).ctUsed ((s.part p).ctsize.extractLsb' 0 32).toNat (x.records + (s.part p).ctUsed.length) x.records 0

/-- How many launches a partition admits at once (R250). -/
def State.launchLimit (s : State) (p : PartId) : Nat := min (max ((s.part p).pctl.extractLsb' 0 9).toNat 1) 256

/-- What the placer admits. -/
def Demand.admitted (x : Demand) (free : List Nat) : Admitted := ⟨x.part, x.launch, nth free 0 0, free.drop 1, x.teams, x.cores⟩

/-- The device once the records and tasks of a launch are written: it is admitted, and what fits starts. -/
def State.takeIn (s : State) (x : Demand) (free : List Nat) (prefer : List CoreId) : State :=
  let u := (s.modPart x.part fun y => { y with ctUsed := y.ctUsed ++ free }).setLaunchStatus x.part x.launch 2
  let v := (u.addTeams x (x.admitted free)).turnPeriod x.part
  v.startTeams x.part prefer v.teams.length

theorem State.popped_queue (s : State) (p : PartId) (q : BitVec 4) :
    ((s.popped p q).part p).queues.read q = ((s.part p).queues.read q).drop 1 := by
  rw [State.part, State.popped, State.modPart, Bank.read_modify, if_pos rfl]
  show ((s.part p).queues.modify q (·.drop 1)).read q = _
  rw [Bank.read_modify, if_pos rfl]

section
variable {s : State} {p : PartId} {l : Addr} {q : BitVec 4} (prefer : List CoreId)

theorem State.couldFit_test (x : Demand) : ((decide ((s.coresOf p).length < x.cores) || decide (12582912 < x.cistern) ||
    (s.part p).ctbase.extractLsb' 12 36 == 0 || decide (((s.part p).ctsize.extractLsb' 0 32).toNat < x.records)) = true) ↔
      ¬s.couldFit p x := by
  unfold State.couldFit
  simp only [Bool.or_eq_true, decide_eq_true_eq, beq_iff_eq, ← Nat.not_le, ne_eq]
  tauto

/-- A launch that can never be admitted is refused, after the report of poison in its record (R39, R250). -/
theorem admission_refused (hq : s.headLaunch p = some (q, l))
    (h : s.poisonedIn p l.toNat 64 = true ∨ (s.demand p l).widthOk = false ∨ ¬s.couldFit p (s.demand p l)) :
    ∃ u st, (s.popped p q).Written u ∧ execLaunchAdmission p prefer s = .next (u.refuseLaunch (s.demand p l) st) := by
  unfold execLaunchAdmission
  rw [hq]
  dsimp -zeta only
  extract_lets +onlyGivenNames x y popped size
  have hpopped : (s.popped p q).Written popped := .refl _
  split
  · exact ⟨_, 5, hpopped.reportIn, rfl⟩
  · rename_i hpoison
    split
    · exact ⟨_, 4, hpopped, rfl⟩
    · rename_i hwidth
      rw [if_pos ((State.couldFit_test x).2 ((h.resolve_left hpoison).resolve_left (by simpa using hwidth)))]
      exact ⟨_, 5, hpopped, rfl⟩

section
variable (hq : s.headLaunch p = some (q, l)) (hpoison : s.poisonedIn p l.toNat 64 = false)
  (hwidth : (s.demand p l).widthOk = true) (hfit : s.couldFit p (s.demand p l))
include hq hpoison hwidth hfit

/-- A launch that has to wait for the limit or for completion-tree records stays at the head of its queue (R250). -/
theorem admission_waits (h : s.launchLimit p ≤ (s.launches.filter fun a => a.part == p).length ∨
    (s.freeRecords p (s.demand p l)).length < (s.demand p l).records) : execLaunchAdmission p prefer s = .next s := by
  unfold execLaunchAdmission
  rw [hq]
  dsimp -zeta only
  extract_lets +onlyGivenNames x y popped size
  have hwidth' : (!x.widthOk) = false := (congrArg not hwidth : _)
  rw [hpoison, hwidth', if_neg Bool.false_ne_true, if_neg Bool.false_ne_true, if_neg fun h => (State.couldFit_test x).1 h hfit]
  extract_lets +onlyGivenNames limit free
  refine if_pos ?_
  rw [Bool.or_eq_true, decide_eq_true_eq, decide_eq_true_eq]
  exact h

/-- A launch whose records and tasks could be written joins the rotation, which then starts what fits (R250, R252). -/
theorem admission_admits {s1 s2 : State} (hlimit : (s.launches.filter fun a => a.part == p).length < s.launchLimit p)
    (hfree : (s.demand p l).records ≤ (s.freeRecords p (s.demand p l)).length)
    (htree : (s.popped p q).placeTree (s.demand p l) ((List.range (s.demand p l).records).zip (s.freeRecords p (s.demand p l))) = .ok s1)
    (htasks : s1.placeTasks (s.demand p l) (List.range (s.demand p l).positions) = .ok s2) (hteams : 0 < (s.demand p l).teams) :
    execLaunchAdmission p prefer s = .next (s2.takeIn (s.demand p l) (s.freeRecords p (s.demand p l)) prefer) := by
  unfold execLaunchAdmission
  rw [hq]
  dsimp -zeta only
  extract_lets +onlyGivenNames x y popped size
  have hwidth' : (!x.widthOk) = false := (congrArg not hwidth : _)
  rw [hpoison, hwidth', if_neg Bool.false_ne_true, if_neg Bool.false_ne_true, if_neg fun h => (State.couldFit_test x).1 h hfit]
  extract_lets +onlyGivenNames limit free refused
  have hwait : ¬(decide (limit ≤ (s.launches.filter fun a => a.part == p).length) || decide (free.length < x.records)) = true := by
    simpa using ⟨hlimit, hfree⟩
  have htree' : popped.placeTree x ((List.range x.records).zip free) = .ok s1 := htree
  have htasks' : s1.placeTasks x (List.range x.positions) = .ok s2 := htasks
  rw [if_neg hwait, htree']
  dsimp -zeta only
  rw [htasks']
  exact congrArg Host.Outcome.next (if_neg (Nat.ne_of_gt hteams))

end

/-- The teams of a launch that joins the rotation (R252). -/
def State.newTeams (s : State) (x : Demand) : List Team :=
  (List.range x.teams).map fun t => x.team ((s.teams.map (·.age)).foldl max 0 + 1) t (decide (t < s.joins x))

theorem State.addTeams_teams (s : State) (x : Demand) (a : Admitted) : (s.addTeams x a).teams = s.teams ++ s.newTeams x := rfl
theorem State.addTeams_launches (s : State) (x : Demand) (a : Admitted) : (s.addTeams x a).launches = s.launches ++ [a] := rfl
theorem State.addTeams_queues (s : State) (x : Demand) (a : Admitted) (p : PartId) :
    ((s.addTeams x a).part p).queues = (s.part p).queues := by
  rw [State.part, State.addTeams, State.modPart, Bank.read_modify]
  split
  · next e => exact e ▸ rfl
  · rfl

theorem State.newTeams_saved {s : State} {x : Demand} {t : Team} (h : t ∈ s.newTeams x) : t.saved = [] := by
  obtain ⟨n, -, rfl⟩ := List.mem_map.1 h
  rfl

/-- An admitted launch brings its teams and itself. -/
theorem State.takeIn_rota (s : State) (x : Demand) (free : List Nat) (prefer : List CoreId) (hs : ∀ t ∈ s.teams, t.saved = []) :
    (s.takeIn x free prefer).launches = s.launches ++ [x.admitted free] ∧
    (s.takeIn x free prefer).teams.length = s.teams.length + x.teams ∧
    ∀ p, ((s.takeIn x free prefer).part p).queues = (s.part p).queues := by
  unfold State.takeIn
  extract_lets +onlyGivenNames u v
  have hu : s.Written u := State.Written.setLaunchStatus ((State.Written.refl s).modPart fun _ => rfl)
  have hsaved : ∀ t ∈ (u.addTeams x (x.admitted free)).teams, t.saved = [] := by
    intro t ht
    rw [State.addTeams_teams] at ht
    rcases List.mem_append.1 ht with ht | ht
    · exact hs t (hu.rota.teams ▸ ht)
    · exact State.newTeams_saved ht
  have hstart : (u.addTeams x (x.admitted free)).Rotates (v.startTeams x.part prefer v.teams.length) :=
    (State.Rotates.turnPeriod (.refl _)).startTeams hsaved
  refine ⟨?_, ?_, fun p => ?_⟩
  · rw [hstart.sched.launches, State.addTeams_launches, hu.rota.sched.launches]
  · rw [hstart.length, State.addTeams_teams, List.length_append, State.newTeams, List.length_map, List.length_range, hu.rota.teams]
  · rw [hstart.sched.queues, State.addTeams_queues, hu.rota.sched.queues]

/-! ### SWAP_IN and QUANTUM_END -/

/-- A team that is bound for the first time runs on the cores picked for it (R203, R250). -/
theorem State.bindTeam_runs {t : Team} {l : Addr} {i : BitVec 32} (ht : t ∈ s.teams) (his : Team.is t.part l i t = true)
    (hfirst : t.everBound = false) (cores : List CoreId) :
    ∃ t' ∈ (s.bindTeam t cores).teams, Team.is t.part l i t' = true ∧ t'.running = true ∧ t'.bound = cores := by
  obtain ⟨u, hu, e⟩ := State.bindTeam_first (t := s) hfirst cores
  obtain ⟨-, hl, hi⟩ := Team.is_iff.1 his
  have hsome : (u.teams.find? (Team.is t.part t.launch t.index)).isSome := by
    rw [hu.teams, List.find?_isSome]
    exact ⟨t, ht, Team.is_iff.2 ⟨rfl, rfl, rfl⟩⟩
  obtain ⟨y, hy⟩ := Option.isSome_iff_exists.1 hsome
  rw [e]
  refine ⟨_, mem_replaceFirst_of_find _ hy, ?_, rfl, rfl⟩
  obtain ⟨hpart, hlaunch, hindex⟩ := Team.is_iff.1 (List.find?_some hy)
  exact Team.is_iff.2 ⟨hpart, hlaunch.trans hl, hindex.trans hi⟩

theorem swapIn_binds {i : BitVec 32} {t : Team}
    (hnext : nextTeam ((s.turnPeriod p).teamsOf p) ((s.turnPeriod p).freeCores p).length = some t) (his : Team.is p l i t = true)
    (hsaved : t.saved = []) (hfirst : t.everBound = false) :
    Answers (execSwapIn p l i prefer s) fun v => ∃ t' ∈ v.teams, Team.is p l i t' = true ∧ t'.running = true ∧
      t'.bound = pickCores ((s.turnPeriod p).freeCores p) prefer t.size := by
  obtain ⟨hmem, hpart⟩ := List.mem_filter.1 (mem_of_nextTeam hnext)
  obtain rfl : t.part = p := beq_iff_eq.1 hpart
  unfold execSwapIn
  dsimp only
  rw [hnext]
  dsimp only
  rw [his, if_pos rfl, State.startTeam, hsaved, List.all_nil, if_pos rfl]
  exact answers_next (State.bindTeam_runs hmem his hfirst _)

end
end Sys2Proof.Machine
end

section
/-! PROOF. The end of a quantum, swapping out, and the loading of code objects (R251, R252, R370, R374, R432, R441). -/

namespace Sys2Proof.Machine

/-! ### QUANTUM_END -/

theorem replaceFirst_pos {α : Type} {p : α → Bool} {x : α} (h : p x = true) (f : α → α) (xs : List α) :
    replaceFirst p f (x :: xs) = f x :: xs := if_pos h
theorem replaceFirst_neg {α : Type} {p : α → Bool} {x : α} (h : p x = false) (f : α → α) (xs : List α) :
    replaceFirst p f (x :: xs) = x :: replaceFirst p f xs := if_neg (by simp [h])

theorem filter_replaceFirst {α : Type} {p q : α → Bool} {f : α → α} (hpq : ∀ x, p x = true → q x = true) (hf : ∀ x, q (f x) = q x)
    (xs : List α) : (replaceFirst p f xs).filter q = replaceFirst p f (xs.filter q) := by
  induction xs with
  | nil => rfl
  | cons x xs ih =>
    cases hp : p x with
    | true =>
      have hq := hpq x hp
      rw [replaceFirst_pos hp, List.filter_cons_of_pos ((hf x).trans hq), List.filter_cons_of_pos hq, replaceFirst_pos hp]
    | false =>
      rw [replaceFirst_neg hp]
      cases hq : q x with
      | true => rw [List.filter_cons_of_pos hq, List.filter_cons_of_pos hq, replaceFirst_neg hp, ih]
      | false => rw [List.filter_cons_of_neg (by simp [hq]), List.filter_cons_of_neg (by simp [hq]), ih]

section
variable {s : State} {p : PartId} {l : Addr} {i : BitVec 32} {t : Team}

theorem State.find_is (s : State) (p : PartId) (l : Addr) (i : BitVec 32) :
    s.teams.find? (Team.is p l i) = (s.teamsOf p).find? (Team.is p l i) := by
  rw [State.teamsOf, List.find?_filter]
  congr 1
  funext x
  cases h : Team.is p l i x with
  | false => simp
  | true => simp [(Team.is_iff.1 h).1]

theorem State.teamsOf_modTeam {f : Team → Team} (hf : ∀ x, (f x).part = x.part) :
    (s.modTeam (Team.is p l i) f).teamsOf p = replaceFirst (Team.is p l i) f (s.teamsOf p) :=
  filter_replaceFirst (fun x hx => beq_iff_eq.2 (Team.is_iff.1 hx).1) (fun x => by rw [hf]) s.teams

/-- A team at the beginning of a period. -/
def Team.afresh (t : Team) : Team := { t with inPeriod := true, joined := false, hadQuantum := false }

/-- A team whose quantum has ended. -/
def Team.spent (t : Team) : Team := { t with hadQuantum := true }

/-- A period begins once every team of the last has had its quantum. -/
theorem State.teamsOf_turnPeriod (h : ((s.teamsOf p).any fun t => t.inPeriod && !t.hadQuantum) = false) :
    (s.turnPeriod p).teamsOf p = (s.teamsOf p).map Team.afresh := by
  unfold State.turnPeriod
  extract_lets +onlyGivenNames ts s₁
  rw [h, if_neg Bool.false_ne_true]
  show (s.teams.map fun t => if t.part == p then t.afresh else t).filter (fun t => t.part == p) =
    (s.teams.filter fun t => t.part == p).map Team.afresh
  have hpart : (fun t : Team => t.part == p) ∘ (fun t => if t.part == p then t.afresh else t) = fun t => t.part == p := by
    funext t
    rw [Function.comp_apply]
    split <;> rfl
  rw [List.filter_map, hpart]
  exact List.map_congr_left fun t ht => if_pos (List.mem_filter.1 ht).2

/-- A running team is not started again. -/
theorem nextTeam_running (h : t.running = true) (n : Nat) : nextTeam [t] n = none := by
  simp [nextTeam, h, teamOrder]

theorem nextTeam_one (hp : t.inPeriod = true) (hq : t.hadQuantum = false) (hr : t.running = false) (hh : t.halted = false) {n : Nat}
    (hn : t.size ≤ n) : nextTeam [t] n = some t := by
  simp [nextTeam, hp, hq, hr, hh, hn, teamOrder, insertTeam]

theorem State.startTeams_none (prefer : List CoreId) (fuel : Nat) (h : nextTeam (s.teamsOf p) (s.freeCores p).length = none) :
    s.startTeams p prefer fuel = s := by
  cases fuel with
  | zero => rfl
  | succ n =>
    unfold State.startTeams
    rw [h]

/-- The only team of its partition has had its quantum: the next period is its own as well. -/
theorem quantumEnd_stays (prefer : List CoreId) (hone : s.teamsOf p = [t]) (his : Team.is p l i t = true) (hrun : t.running = true)
    (hhalt : t.halted = false) : Answers (execQuantumEnd p l i prefer s) fun v =>
      ∃ t' ∈ v.teams, Team.is p l i t' = true ∧ t'.running = true ∧ t'.bound = t.bound ∧ t'.hadQuantum = false := by
  have hfind : s.teams.find? (Team.is p l i) = some t := by
    rw [State.find_is, hone, List.find?_cons_of_pos his]
  let s₁ := s.modTeam (Team.is p l i) Team.spent
  have h₁ : s₁.teamsOf p = [t.spent] := by
    rw [State.teamsOf_modTeam (f := Team.spent) fun _ => rfl, hone, replaceFirst_pos his]
  have h₂ : (s₁.turnPeriod p).teamsOf p = [t.afresh] := by
    rw [State.teamsOf_turnPeriod (by rw [h₁]; simp [Team.spent]), h₁]
    rfl
  have his₂ : Team.is p l i t.afresh = true := his
  have hstart : (s₁.turnPeriod p).startTeams p prefer (s₁.turnPeriod p).teams.length = s₁.turnPeriod p :=
    State.startTeams_none prefer _ (by rw [h₂]; exact nextTeam_running (t := t.afresh) hrun _)
  have hnext (n : Nat) : nextTeam (((s₁.turnPeriod p).teamsOf p).map fun x => if Team.is p l i x then { x with running := false } else x)
      (n + t.size) = some { t.afresh with running := false } := by
    rw [h₂, List.map_singleton, his₂, if_pos rfl]
    exact nextTeam_one (t := { t.afresh with running := false }) rfl rfl rfl hhalt (Nat.le_add_left ..)
  have hmem : t.afresh ∈ (s₁.turnPeriod p).teams := List.mem_of_mem_filter (h₂ ▸ List.mem_singleton_self _ : t.afresh ∈ State.teamsOf _ p)
  unfold execQuantumEnd
  extract_lets +onlyGivenNames sel
  rw [show s.teams.find? sel = some t from hfind]
  dsimp -zeta only
  rw [hrun, hhalt, Bool.not_true, Bool.false_or, if_neg Bool.false_ne_true]
  extract_lets +onlyGivenNames s₂ s₃ rivals stays
  have h₃ : s₃ = s₁.turnPeriod p := hstart
  have hstays : stays = true := by
    simp only [stays, rivals, h₃]
    rw [show nextTeam _ _ = some _ from hnext _, Option.map_some]
    show (some (Team.is p l i t) == some true) = true
    rw [his]
    rfl
  rw [hstays, Bool.true_or, if_pos rfl, h₃]
  exact answers_next ⟨t.afresh, hmem, his₂, hrun, rfl, rfl⟩

/-! ### SWAP_OUT -/

/-- A team less the places of its saved contexts. -/
def Team.sansPlaces (t : Team) : Team := { t with saved := t.saved.map fun x => { x with place := .slot 0 } }

theorem State.spillOne_keeps (x : Team) (k : Context) {y : Team} (hy : y ∈ s.teams) :
    ∃ y' ∈ (s.spillOne x k).teams, y'.sansPlaces = y.sansPlaces := by
  unfold State.spillOne
  split
  · exact ⟨y, (State.Written.refl s).saveFailed.rota.teams.symm ▸ hy, rfl⟩
  · rename_i n _
    split
    · rename_i u va e
      have hu : s.Written u := (State.Written.refl s).writeContext.fst e
      exact ⟨y, hu.saveFailed.rota.teams.symm ▸ hy, rfl⟩
    · rename_i u e
      have hu : s.Written u := (State.Written.refl s).writeContext.fst e
      have hmoved (t : Team) : ({ t with saved := t.saved.map fun z => if z.pos = k.pos then { z with place := .slot n } else z } : Team).sansPlaces =
          t.sansPlaces := by
        unfold Team.sansPlaces
        rw [List.map_map]
        congr 1
        refine List.map_congr_left fun z _ => ?_
        rw [Function.comp_apply]
        split <;> rfl
      rcases replaceFirst_keeps (Team.is x.part x.launch x.index) (fun t : Team => { t with saved := t.saved.map fun z =>
        if z.pos = k.pos then { z with place := .slot n } else z }) (hu.rota.teams.symm ▸ hy : y ∈ u.teams) with h | h
      · exact ⟨y, h, rfl⟩
      · exact ⟨_, h, hmoved y⟩

/-- A spill moves at most the place of a saved context (R374). -/
theorem State.spill_keeps (p : PartId) {y : Team} (hy : y ∈ s.teams) : ∃ y' ∈ (s.spill p).teams, y'.sansPlaces = y.sansPlaces := by
  unfold State.spill
  extract_lets +onlyGivenNames held
  split
  · exact State.spillOne_keeps _ _ hy
  · exact ⟨y, hy, rfl⟩

theorem State.SameRota.saved {done : Except Nat (List Context)} {u : State}
    (h : (t.bound.foldl (fun s c => s.haltCore c) s).saveContexts t t.bound.zipIdx [] = (u, done)) : s.SameRota u := by
  have hhalt : s.SameRota (t.bound.foldl (fun s c => s.haltCore c) s) := State.SameRota.foldl (.refl s) fun _ _ hu => hu.haltCore
  exact hhalt.written ((State.Written.refl _).saveContexts.fst h)

theorem State.swapTeam_ok {u : State} {done : List Context} (hfind : s.teams.find? (Team.is p l i) = some t)
    (h : (t.bound.foldl (fun s c => s.haltCore c) s).saveContexts t t.bound.zipIdx [] = (u, .ok done)) :
    ∃ t' ∈ (s.swapTeam t).1.teams, Team.is p l i t' = true ∧ t'.running = false ∧ t'.bound = [] ∧
      t'.saved.map (fun x => { x with place := .slot 0 }) = done.map fun x => { x with place := .slot 0 } := by
  obtain ⟨rfl, rfl, rfl⟩ := Team.is_iff.1 (List.find?_some hfind)
  have hu : s.SameRota (t.bound.foldl (fun s c => s.modCore c CoreSt.leaveTeam) u) :=
    (State.SameRota.saved h).foldl fun _ _ hu => hu.modCore
  have hmem := mem_replaceFirst_of_find (fun t : Team => { t with bound := [], running := false, halted := false, saved := done })
    (hu.teams.symm ▸ hfind)
  obtain ⟨t', ht', hsame⟩ := State.spill_keeps (s := State.modTeam _ _ _) t.part hmem
  unfold State.swapTeam
  extract_lets +onlyGivenNames sel s₁
  rw [show s₁.saveContexts t t.bound.zipIdx [] = (u, .ok done) from h]
  refine ⟨t', ht', Team.is_iff.2 ⟨congrArg (·.part) hsame, congrArg (·.launch) hsame, congrArg (·.index) hsame⟩,
    congrArg (·.running) hsame, congrArg (·.bound) hsame, congrArg (·.saved) hsame⟩

theorem State.swapTeam_error {u : State} {va : Nat} (hfind : s.teams.find? (Team.is p l i) = some t)
    (h : (t.bound.foldl (fun s c => s.haltCore c) s).saveContexts t t.bound.zipIdx [] = (u, .error va)) :
    ∃ t' ∈ (s.swapTeam t).1.teams, Team.is p l i t' = true ∧ t'.halted = true ∧ t'.bound = t.bound := by
  have his := List.find?_some hfind
  obtain ⟨rfl, rfl, rfl⟩ := Team.is_iff.1 his
  have hmem := mem_replaceFirst_of_find (fun t : Team => { t with halted := true }) ((State.SameRota.saved h).teams.symm ▸ hfind)
  unfold State.swapTeam
  extract_lets +onlyGivenNames sel s₁
  rw [show s₁.saveContexts t t.bound.zipIdx [] = (u, .error va) from h]
  have hfailed := (State.Written.refl (u.modTeam sel fun t => { t with halted := true })).saveFailed (x := t) (c := nth t.bound 0 0) (va := va)
  exact ⟨{ t with halted := true }, hfailed.rota.teams.symm ▸ hmem, his, rfl, rfl⟩

theorem swapOut_swaps (hfind : s.teams.find? (Team.is p l i) = some t) (hrun : t.running = true) (hhalt : t.halted = false)
    (hcan : s.canHalt t = true)
    (hwants : ((s.teamsOf p).any fun w => w.inPeriod && w.joined && !w.hadQuantum && !w.running && !w.halted &&
      decide ((s.freeCores p).length < w.size) && t.prio.ult w.prio) = true)
    (hlast : ((teamOrder ((s.teamsOf p).filter fun x => x.running && !x.halted)).getLast?.map (Team.is p l i)) = some true) :
    execSwapOut p l i s = .next (s.swapTeam t).1 := by
  unfold execSwapOut
  extract_lets +onlyGivenNames sel
  rw [show s.teams.find? sel = some t from hfind]
  dsimp only
  rw [hrun, hhalt, hcan, hwants, hlast]
  rfl

end
end Sys2Proof.Machine
end

section
/-! PROOF. The loading of code objects (R91, R432, R441). -/

namespace Sys2Proof.Machine

section
variable {s t u : State} {p : PartId}

theorem State.Written.placeBlock {va n : Nat} {bs : List Byte} (h : s.Written t) : ∀ u ∈ t.placeBlock p va n bs, s.Written u := by
  induction n generalizing t va bs with
  | zero =>
    rintro _ ⟨⟩
    exact h
  | succ n ih =>
    unfold State.placeBlock
    split
    · rintro _ ⟨⟩
    · rename_i e₁
      split
      · rintro _ ⟨⟩
      · exact ih (h.resolveIn _ e₁).writePhys.freshCode

theorem State.Written.tagMeeting {va : Nat} (h : s.Written t) : s.Written (t.tagMeeting p va) := by
  unfold State.tagMeeting
  split
  · exact h.setTag
  · exact h

/-- The store after kernels have entered the stores of distinct cores. -/
theorem State.store_foldl (new : List (BitVec 12 × KImage)) {cs : List CoreId} (hcs : cs.Nodup) (s : State) (c : CoreId) :
    ((cs.foldl (fun s c => s.modCore c fun k => { k with store := k.store ++ new }) s).core c).store =
      if c ∈ cs then (s.core c).store ++ new else (s.core c).store := by
  induction cs generalizing s with
  | nil => rfl
  | cons d cs ih =>
    obtain ⟨hd, hcs⟩ := List.nodup_cons.1 hcs
    rw [List.foldl_cons, ih hcs, State.core_modCore]
    by_cases e : d = c
    · subst e
      simp [hd]
    · simp [e, Ne.symm e]

theorem allCores_nodup : allCores.Nodup := by
  refine List.Nodup.map_on (fun x hx y hy e => ?_) List.nodup_range
  have h := congrArg BitVec.toNat e
  rw [BitVec.toNat_ofNat, BitVec.toNat_ofNat] at h
  rwa [Nat.mod_eq_of_lt (List.mem_range.1 hx), Nat.mod_eq_of_lt (List.mem_range.1 hy)] at h

theorem State.storeKernels_store (s : State) (p : PartId) (h : Nat) (ks : List KImage) (c : CoreId) :
    ((s.storeKernels p h ks).core c).store =
      if c ∈ s.coresOf p then (s.core c).store ++ ks.zipIdx.map fun y => (BitVec.ofNat 12 (h + y.2), y.1) else (s.core c).store :=
  State.store_foldl _ (allCores_nodup.filter _) s c

/-- A code object that does not load: the host hears, and nothing else happens (R432). -/
theorem codeObjectLoad_refused {obj base frames : Addr} {meetings : List Word} (h : s.loadObject p obj base frames meetings = none) :
    execCodeObjectLoad p obj base frames meetings s = .next { s with host := { s.host with out := s.host.out ++ [.loadFailed p obj] } } := by
  rw [execCodeObjectLoad, h]
  rfl

section
variable {obj base frames : Addr} {meetings : List Word}

theorem loadObject_base (h : base.toNat % 4096 ≠ 0) : s.loadObject p obj base frames meetings = none := by
  have hbase : (base.extractLsb' 0 12 != 0) = true := by
    rw [bne_iff_ne]
    intro e
    have he := congrArg BitVec.toNat e
    rw [BitVec.extractLsb'_toNat, Nat.shiftRight_zero] at he
    exact h he
  unfold State.loadObject
  iterate 7 refine Option.bind_eq_none_iff.2 fun _ _ => ?_
  rw [hbase, Bool.true_or, if_pos rfl]

theorem loadObject_header (h : (s.objBytes p obj 0 64).bind readHeader = none) : s.loadObject p obj base frames meetings = none := by
  rw [State.loadObject, h]
  rfl

variable {x : CodeHeader} (hx : (s.objBytes p obj 0 64).bind readHeader = some x)
include hx

theorem loadObject_image (h : s.chooseImage p obj x = none) : s.loadObject p obj base frames meetings = none := by
  rw [State.loadObject, hx, Option.bind_some, h]
  rfl

variable {ks : List KImage} (hks : s.chooseImage p obj x = some ks)
include hks

theorem loadObject_handles (h : s.freeHandles p ks.length = none) : s.loadObject p obj base frames meetings = none := by
  rw [State.loadObject, hx, Option.bind_some, hks, Option.bind_some, h]
  rfl

theorem loadObject_room (h : s.roomFor p ks = false) : s.loadObject p obj base frames meetings = none := by
  rw [State.loadObject, hx, Option.bind_some, hks, Option.bind_some]
  iterate 5 refine Option.bind_eq_none_iff.2 fun _ _ => ?_
  rw [h, Bool.not_false, Bool.or_true, if_pos rfl]

/-- A code object that loads: writes of the loader, then its kernels in the stores of the partition's cores. -/
theorem loadObject_stores {n : Nat} (hn : s.freeHandles p ks.length = some n) (h : s.loadObject p obj base frames meetings = some u) :
    ∃ v, s.Written v ∧ u = v.storeKernels p n ks := by
  rw [State.loadObject, hx, Option.bind_some, hks, Option.bind_some, hn, Option.bind_some] at h
  obtain ⟨block, -, h⟩ := Option.bind_eq_some_iff.1 h
  obtain ⟨rb, -, h⟩ := Option.bind_eq_some_iff.1 h
  obtain ⟨lb, -, h⟩ := Option.bind_eq_some_iff.1 h
  obtain ⟨bs, -, h⟩ := Option.bind_eq_some_iff.1 h
  split at h
  · cases h
  · obtain ⟨v, hv, rfl⟩ := Option.map_eq_some_iff.1 h
    exact ⟨_, ((State.Written.refl s).placeBlock v hv).foldl fun _ _ hw => hw.tagMeeting, rfl⟩

end

end
end Sys2Proof.Machine
end

section
open Sys2Proof.Machine

/-- Settles O55: each clause is the lemma above about its event. -/
theorem Sys2Proof.placerEvents : Obligations.PlacerEvents := by
  intro s p l i prefer
  refine ⟨fun q hq => ⟨fun hbad => ?_, fun hpoison hwidth hfit hwait => admission_waits prefer hq hpoison hwidth hfit hwait,
      fun s1 s2 hpoison hwidth hfit hlimit hfree htree htasks hteams hsaved => ?_⟩,
    fun t hnext his hsaved hfirst => swapIn_binds prefer hnext his hsaved hfirst,
    fun t hone his hrun hhalt => quantumEnd_stays prefer hone his hrun hhalt,
    fun t hfind hrun hhalt hcan hwants hlast => ?_, fun obj base frames meetings => ?_⟩
  · obtain ⟨u, st, hu, e⟩ := admission_refused prefer hq hbad
    have hrota := hu.refuseLaunch (x := s.demand p l) (st := st) |>.rota
    exact ⟨_, e, (congrArg (Bank.read · q) (hrota.sched.queues p)).trans (s.popped_queue p q), hrota.sched.launches, hrota.teams⟩
  · have hwritten := ((State.Written.refl _).placeTree _ htree).placeTasks _ htasks
    obtain ⟨hlaunches, hlength, hqueues⟩ := State.takeIn_rota s2 (s.demand p l) (s.freeRecords p (s.demand p l)) prefer
      (hwritten.rota.teams.symm ▸ hsaved)
    exact ⟨_, admission_admits prefer hq hpoison hwidth hfit hlimit hfree htree htasks hteams,
      (congrArg (Bank.read · q) ((hqueues p).trans (hwritten.rota.sched.queues p))).trans (s.popped_queue p q),
      hlength.trans (congrArg (List.length · + _) hwritten.rota.teams), hlaunches.trans (congrArg (· ++ _) hwritten.rota.sched.launches)⟩
  · have hswap := swapOut_swaps hfind hrun hhalt hcan hwants hlast
    exact ⟨fun u done h => ⟨_, hswap, State.swapTeam_ok hfind h⟩, fun u va h => ⟨_, hswap, State.swapTeam_error hfind h⟩⟩
  · refine ⟨fun h => codeObjectLoad_refused (loadObject_base h), fun h => codeObjectLoad_refused (loadObject_header h), fun x hx =>
      ⟨fun h => codeObjectLoad_refused (loadObject_image hx h), fun ks hks =>
        ⟨fun h => codeObjectLoad_refused (loadObject_handles hx hks h), fun h => codeObjectLoad_refused (loadObject_room hx hks h),
          fun n u hn hu => ?_⟩⟩⟩
    obtain ⟨v, hv, rfl⟩ := loadObject_stores hx hks hn hu
    have hstore (c : CoreId) : (v.core c).store = (s.core c).store := congrArg (·.store) (hv.cores.core c)
    refine ⟨?_, fun c hc => ?_, fun c hc => ?_⟩
    · show execCodeObjectLoad p obj base frames meetings s = _
      rw [execCodeObjectLoad, hu]
    · rw [State.storeKernels_store, hv.cores.coresOf, if_pos hc, hstore]
    · rw [State.storeKernels_store, hv.cores.coresOf, if_neg hc, hstore]

end

section
/-! PROOF. The forms of a control-core word and their fields, and what the encoder writes read back (R80 to R85). -/

namespace Sys2Proof

/-! ### Fields of words -/

/-- A field of two words side by side is a field of one of them: the rules by which the fields below are read. -/
theorem fields_of_append :
    (∀ {v w o n : Nat} (x : BitVec v) (y : BitVec w), w ≤ o → (x ++ y).extractLsb' o n = x.extractLsb' (o - w) n) ∧
    (∀ {v w o n : Nat} (x : BitVec v) (y : BitVec w), o + n ≤ w → (x ++ y).extractLsb' o n = y.extractLsb' o n) ∧
    (∀ {n : Nat} (x : BitVec n), x.extractLsb' 0 n = x) ∧
    (∀ {v w o : Nat} (x : BitVec v) (y : BitVec w), w ≤ o → (x ++ y).getLsbD o = x.getLsbD (o - w)) ∧
    (∀ {v w o : Nat} (x : BitVec v) (y : BitVec w), o + 1 ≤ w → (x ++ y).getLsbD o = y.getLsbD o) ∧
    ∀ b : Bool, (BitVec.ofBool b).getLsbD 0 = b :=
  ⟨fun _ _ => BitVec.extractLsb'_append_eq_of_le, fun _ _ => BitVec.extractLsb'_append_eq_of_add_le, fun _ => BitVec.extractLsb'_eq_self,
    fun _ _ h => by rw [BitVec.getLsbD_append, if_neg (Nat.not_lt.2 h)], fun _ _ h => by rw [BitVec.getLsbD_append, if_pos (Nat.lt_of_succ_le h)],
    fun b => by cases b <;> rfl⟩

-- A word's width is a numeral and that of words side by side is a sum, which the index of `simp` does not match: hence `-index` below.

section
variable (m : BitVec 6) (d a b : BitVec 5) (func : BitVec 11) (imm : BitVec 16) (cls : BitVec 4) (off : BitVec 12) (far : BitVec 26)
  (hi : BitVec 3) (s : SyncSfx)

@[simp] theorem formR_fields : (formR m d a b func).extractLsb' 26 6 = m ∧ (formR m d a b func).extractLsb' 21 5 = d ∧
    (formR m d a b func).extractLsb' 16 5 = a ∧ (formR m d a b func).extractLsb' 11 5 = b ∧
    (formR m d a b func).extractLsb' 0 11 = func := by
  simp -index only [formR, fields_of_append, Nat.reduceLeDiff, Nat.reduceSub, Nat.reduceAdd, and_self]

@[simp] theorem formI_fields : (formI m d a imm).extractLsb' 26 6 = m ∧ (formI m d a imm).extractLsb' 21 5 = d ∧
    (formI m d a imm).extractLsb' 16 5 = a ∧ (formI m d a imm).extractLsb' 0 16 = imm ∧
    (formI m d a imm).extractLsb' 6 10 = imm.extractLsb' 6 10 ∧ (formI m d a imm).extractLsb' 0 6 = imm.extractLsb' 0 6 := by
  simp -index only [formI, fields_of_append, Nat.reduceLeDiff, Nat.reduceSub, Nat.reduceAdd, and_self]

@[simp] theorem formM_fields : (formM m d a cls off).extractLsb' 26 6 = m ∧ (formM m d a cls off).extractLsb' 21 5 = d ∧
    (formM m d a cls off).extractLsb' 16 5 = a ∧ (formM m d a cls off).extractLsb' 12 4 = cls ∧
    (formM m d a cls off).extractLsb' 0 12 = off := by
  simp -index only [formM, fields_of_append, Nat.reduceLeDiff, Nat.reduceSub, Nat.reduceAdd, and_self]

@[simp] theorem formJ_fields : (formJ m far).extractLsb' 26 6 = m ∧ (formJ m far).extractLsb' 0 26 = far := by
  simp -index only [formJ, fields_of_append, Nat.reduceLeDiff, Nat.reduceSub, Nat.reduceAdd, and_self]

@[simp] theorem sfxOf_funcSfx : sfxOf (funcSfx hi s) = s := by
  simp -index only [sfxOf, funcSfx, fields_of_append, Nat.reduceLeDiff, Nat.reduceSub, Nat.reduceAdd]

@[simp] theorem funcSfx_fields : (funcSfx hi s).extractLsb' 8 3 = hi ∧ (funcSfx hi s).extractLsb' 8 2 = hi.extractLsb' 0 2 ∧
    (funcSfx hi s).extractLsb' 4 4 = s.cls ∧ (funcSfx hi s).extractLsb' 2 2 = s.order ∧ (funcSfx hi s).extractLsb' 0 2 = s.scope := by
  simp -index only [funcSfx, fields_of_append, Nat.reduceLeDiff, Nat.reduceSub, Nat.reduceAdd, and_self]
@[simp] theorem funcSfx_bits : (funcSfx hi s)[10] = hi[2] ∧ (funcSfx hi s)[3] = s.order[1] := by
  simp -index only [funcSfx, ← BitVec.getLsbD_eq_getElem, fields_of_append, Nat.reduceLeDiff, Nat.reduceSub, Nat.reduceAdd, and_self]
end

@[simp] theorem need_true (r : Reject) (i : Instr) : need true r i = .ok i := rfl

/-! ### The control-core words, major by major (R82 to R85) -/

section
variable (d a b : BitVec 5) (imm : BitVec 16) (cls : BitVec 4) (off : BitVec 12) (far : BitVec 26) (n : BitVec 6) (s : SyncSfx)
  (op : BitVec 3) (size scope mode : BitVec 2) (w1 w2 w3 : Word)

theorem decode_alu {func : BitVec 11} {i : Instr} (h : decodeAlu d a b func = .ok i) :
    decode (formR 0x00 d a b func) w1 w2 w3 = .ok i := by
  simp [decode, decodeWord, h]

theorem decode_immediates : (∀ d a imm, decode (formI 0x01 d a imm) w1 w2 w3 = .ok (.addi d a imm)) ∧
    (∀ d a imm, decode (formI 0x02 d a imm) w1 w2 w3 = .ok (.andi d a imm)) ∧
    (∀ d a imm, decode (formI 0x03 d a imm) w1 w2 w3 = .ok (.ori d a imm)) ∧
    (∀ d a imm, decode (formI 0x04 d a imm) w1 w2 w3 = .ok (.xori d a imm)) ∧
    (∀ d a imm, decode (formI 0x05 d a imm) w1 w2 w3 = .ok (.slti d a imm)) ∧
    (∀ d a imm, decode (formI 0x06 d a imm) w1 w2 w3 = .ok (.sltiu d a imm)) ∧
    (∀ d imm, decode (formI 0x0A d 0 imm) w1 w2 w3 = .ok (.lui d imm)) ∧
    (∀ d a imm, decode (formI 0x0B d a imm) w1 w2 w3 = .ok (.shori d a imm)) := by
  simp [decode, decodeWord]

theorem decode_shifts : decode (formI 0x07 d a ((0 : BitVec 10) ++ n)) w1 w2 w3 = .ok (.slli d a n) ∧
    decode (formI 0x08 d a ((0 : BitVec 10) ++ n)) w1 w2 w3 = .ok (.srli d a n) ∧
    decode (formI 0x09 d a ((0 : BitVec 10) ++ n)) w1 w2 w3 = .ok (.srai d a n) := by
  have hn : BitVec.extractLsb' (n := 16) 6 10 (0#10 ++ n) = 0 ∧ BitVec.extractLsb' (n := 16) 0 6 (0#10 ++ n) = n := by
    simp -index only [fields_of_append, Nat.reduceLeDiff, Nat.reduceSub, Nat.reduceAdd, and_self, BitVec.ofNat_eq_ofNat]
  simp [decode, decodeWord, hn]

theorem decode_memory : decode (formM 0x10 d a cls off) w1 w2 w3 = .ok (.ldB d a cls off) ∧
    decode (formM 0x11 d a cls off) w1 w2 w3 = .ok (.ldH d a cls off) ∧
    decode (formM 0x12 d a cls off) w1 w2 w3 = .ok (.ldW d a cls off) ∧
    decode (formM 0x13 d a cls off) w1 w2 w3 = .ok (.ldD d a cls off) ∧
    decode (formM 0x14 d a cls off) w1 w2 w3 = .ok (.stB d a cls off) ∧
    decode (formM 0x15 d a cls off) w1 w2 w3 = .ok (.stH d a cls off) ∧
    decode (formM 0x16 d a cls off) w1 w2 w3 = .ok (.stW d a cls off) ∧
    decode (formM 0x17 d a cls off) w1 w2 w3 = .ok (.stD d a cls off) := by
  simp [decode, decodeWord]

theorem decode_branches : (∀ a b imm, decode (formI 0x18 a b imm) w1 w2 w3 = .ok (.beq a b imm)) ∧
    (∀ a b imm, decode (formI 0x19 a b imm) w1 w2 w3 = .ok (.bne a b imm)) ∧
    (∀ a b imm, decode (formI 0x1A a b imm) w1 w2 w3 = .ok (.blt a b imm)) ∧
    (∀ a b imm, decode (formI 0x1B a b imm) w1 w2 w3 = .ok (.bge a b imm)) ∧
    (∀ a b imm, decode (formI 0x1C a b imm) w1 w2 w3 = .ok (.bltu a b imm)) ∧
    (∀ a b imm, decode (formI 0x1D a b imm) w1 w2 w3 = .ok (.bgeu a b imm)) ∧
    (∀ far, decode (formJ 0x1E far) w1 w2 w3 = .ok (.jal far)) ∧
    (∀ d a imm, decode (formI 0x1F d a imm) w1 w2 w3 = .ok (.jalr d a imm)) := by
  simp [decode, decodeWord]

theorem decode_tasks : decode (formR 0x20 0 0 0 0) w1 w2 w3 = .ok .exit ∧
    decode (formR 0x20 0 0 0 1) w1 w2 w3 = .ok .yield ∧
    (∀ d a b, decode (formR 0x21 d a b 0) w1 w2 w3 = .ok (.spawn d a b)) ∧
    (∀ d, decode (formR 0x22 d 0 0 0) w1 w2 w3 = .ok (.sync d)) ∧
    (∀ d a b, decode (formR 0x23 d a b 15) w1 w2 w3 = .ok (.viewDrop d a b)) := by
  simp [decode, decodeWord]

/-- VIEW's operator is below 8, so its func is not that of VIEW.DROP. -/
theorem decode_view : decode (formR 0x23 d a b ((0 : BitVec 8) ++ op)) w1 w2 w3 = .ok (.view op d a b) := by
  have hdrop : (0#8 ++ op = 15#11) = False ∧ BitVec.extractLsb' (n := 11) 4 7 (0#8 ++ op) = 0 ∧
      ((0#8 ++ op) : BitVec 11)[3] = false ∧ BitVec.extractLsb' (n := 11) 0 3 (0#8 ++ op) = op := by
    revert op; decide
  simp [decode, decodeWord, hdrop]

theorem decode_meetings : (∀ d a b s, decode (formR 0x24 d a b (funcSfx 0 s)) w1 w2 w3 = .ok (.meet s d a b)) ∧
    (∀ d a b, decode (formR 0x25 d a b 0) w1 w2 w3 = .ok (.minit d a b)) ∧
    (∀ d a, decode (formR 0x25 d a 0 0x200) w1 w2 w3 = .ok (.mread d a)) ∧
    (∀ d a, decode (formR 0x25 d a 0 0x400) w1 w2 w3 = .ok (.mfree d a)) ∧
    (∀ a, decode (formR 0x27 0 a 0 0x400) w1 w2 w3 = .ok (.wake a)) := by
  simp [decode, decodeWord]

/-- The waits name an order of 0 or 1 (R84). -/
theorem decode_waits (h : s.order[1] = false) : decode (formR 0x26 0 a b (funcSfx 0 s)) w1 w2 w3 = .ok (.waitge s a b) ∧
    decode (formR 0x27 d a b (funcSfx ((0 : BitVec 1) ++ mode) s)) w1 w2 w3 = .ok (.waitaddr mode s d a b) := by
  have hm : ((0#1 ++ mode) : BitVec 3)[2] = false ∧ BitVec.extractLsb' (n := 3) 0 2 (0#1 ++ mode) = mode := by
    revert mode; decide
  simp [decode, decodeWord, h, hm]

theorem decode_queues : (∀ d a, decode (formR 0x28 d a 0 0) w1 w2 w3 = .ok (.qpop d a)) ∧
    (∀ d a, decode (formR 0x28 d a 0 0x200) w1 w2 w3 = .ok (.qpopNb d a)) ∧
    (∀ d a b, decode (formR 0x28 d a b 0x400) w1 w2 w3 = .ok (.qpush d a b)) ∧
    (∀ d a, decode (formR 0x28 d a 0 0x600) w1 w2 w3 = .ok (.qclose d a)) ∧
    (∀ d a, decode (formR 0x29 d a 0 0) w1 w2 w3 = .ok (.launch d a)) := by
  simp [decode, decodeWord]

/-- A FENCE names a mask other than 0 (R298). -/
theorem decode_fence (h : imm ≠ 0) : decode (formI 0x2A ((0 : BitVec 3) ++ scope) 0 imm) w1 w2 w3 = .ok (.fence scope imm) := by
  have hs : BitVec.extractLsb' (n := 5) 2 3 (0#3 ++ scope) = 0 ∧ BitVec.extractLsb' (n := 5) 0 2 (0#3 ++ scope) = scope := by
    revert scope; decide
  have hi : (imm != 0#16) = true := bne_iff_ne.2 h
  simp [decode, decodeWord, hs, hi]

theorem decode_transactions : (∀ d a, decode (formR 0x2B d a 0 0) w1 w2 w3 = .ok (.xbegin d a)) ∧
    (∀ d, decode (formR 0x2B d 0 0 0x400) w1 w2 w3 = .ok (.xcommit d)) ∧
    (∀ d, decode (formR 0x2B d 0 0 0x600) w1 w2 w3 = .ok (.xabort d)) := by
  simp [decode, decodeWord]

theorem decode_xstore : decode (formR 0x2B d a b ((0x080 : BitVec 9) ++ size)) w1 w2 w3 = .ok (.xstore size d a b) := by
  have hs : BitVec.extractLsb' (n := 11) 2 7 (128#9 ++ size) = 0 ∧ BitVec.extractLsb' (n := 11) 9 2 (128#9 ++ size) = 1 ∧
      BitVec.extractLsb' (n := 11) 0 2 (128#9 ++ size) = size := by
    revert size; decide
  simp [decode, decodeWord, hs]

theorem decode_amo : decode (formR 0x2C d a b (funcSfx op s)) w1 w2 w3 = .ok (.amoW op s d a b) ∧
    decode (formR 0x2D d a b (funcSfx op s)) w1 w2 w3 = .ok (.amoD op s d a b) := by
  simp [decode, decodeWord]

/-- Bit 10 of func tells ST.REL from LD.ACQ (R84). -/
theorem decode_acquire :
    decode (formR 0x2E d a 0 (funcSfx ((0 : BitVec 1) ++ size) ⟨cls, 0, scope⟩)) w1 w2 w3 = .ok (.ldAcq size cls scope d a) := by
  have hs : ((0#1 ++ size) : BitVec 3)[2] = false ∧ BitVec.extractLsb' (n := 3) 0 2 (0#1 ++ size) = size := by
    revert size; decide
  simp [decode, decodeWord, hs]

theorem decode_release :
    decode (formR 0x2E 0 a b (funcSfx ((1 : BitVec 1) ++ size) ⟨cls, 0, scope⟩)) w1 w2 w3 = .ok (.stRel size cls scope a b) := by
  have hs : ((1#1 ++ size) : BitVec 3)[2] = true ∧ BitVec.extractLsb' (n := 3) 0 2 (1#1 ++ size) = size := by
    revert size; decide
  simp [decode, decodeWord, hs]

theorem decode_csrs : (∀ d off, decode (formM 0x30 d 0 0 off) w1 w2 w3 = .ok (.csrr d off)) ∧
    (∀ d a off, decode (formM 0x30 d a 1 off) w1 w2 w3 = .ok (.csrw d a off)) ∧
    (∀ d a off, decode (formM 0x30 d a 2 off) w1 w2 w3 = .ok (.csrs d a off)) ∧
    (∀ d a off, decode (formM 0x30 d a 3 off) w1 w2 w3 = .ok (.csrc d a off)) := by
  simp [decode, decodeWord]

theorem decode_system : (∀ imm, decode (formI 0x31 0 0 imm) w1 w2 w3 = .ok (.trap imm)) ∧
    decode (formR 0x32 0 0 0 0) w1 w2 w3 = .ok .sysret ∧
    decode (formR 0x33 0 0 0 0) w1 w2 w3 = .ok .uiret ∧
    (∀ d a b, decode (formR 0x34 d a b 0) w1 w2 w3 = .ok (.snapsave d a b)) ∧
    (∀ d a b, decode (formR 0x34 d a b 1) w1 w2 w3 = .ok (.snapload d a b)) ∧
    decode (formR 0x35 0 0 0 0) w1 w2 w3 = .ok .brk ∧
    (∀ d a, decode (formR 0x35 d a 0 1) w1 w2 w3 = .ok (.dbrd d a)) ∧
    (∀ a b, decode (formR 0x35 0 a b 2) w1 w2 w3 = .ok (.dbwr a b)) ∧
    (∀ a, decode (formR 0x36 0 a 0 0) w1 w2 w3 = .ok (.untag a)) := by
  have hz : (formR 50#6 0#5 0#5 0#5 0#11).extractLsb' 0 26 = 0#26 ∧ (formR 51#6 0#5 0#5 0#5 0#11).extractLsb' 0 26 = 0#26 := by decide
  simp [decode, decodeWord, hz]
end

/-- What encodes a well-formed control-core instruction is decoded to it, whatever words follow (R80 to R85). -/
theorem decode_encodeWord {i : Instr} {w : Word} (hwf : i.wf = true) (h : encodeWord i = some w) (w1 w2 w3 : Word) :
    decode w w1 w2 w3 = .ok i := by
  cases i <;> cases h
  case add | sub | and | or | xor | sll | srl | sra | slt | sltu | min | max | minu | maxu | sextB | sextH | sextW | mul | mulh | mulhu
       | div | divu | rem | remu => exact decode_alu _ _ _ _ _ _ rfl
  case addi | andi | ori | xori | slti | sltiu | lui | shori => simp only [decode_immediates]
  case slli | srli | srai => simp only [decode_shifts]
  case ldB | ldH | ldW | ldD | stB | stH | stW | stD => simp only [decode_memory]
  case beq | bne | blt | bge | bltu | bgeu | jal | jalr => simp only [decode_branches]
  case exit | yield | spawn | sync | viewDrop => simp only [decode_tasks]
  case view => exact decode_view ..
  case meet | minit | mread | mfree | wake => simp only [decode_meetings]
  case waitge s a b => exact (decode_waits 0 a b s 0 w1 w2 w3 (by simpa [Instr.wf, Instr.fieldsOk, Instr.landingOk] using hwf)).1
  case waitaddr mode s d a b => exact (decode_waits d a b s mode w1 w2 w3 (by simpa [Instr.wf, Instr.fieldsOk, Instr.landingOk] using hwf)).2
  case qpop | qpopNb | qpush | qclose | launch => simp only [decode_queues]
  case fence scope mask => exact decode_fence mask scope w1 w2 w3 (by simpa [Instr.wf, Instr.fieldsOk, Instr.landingOk] using hwf)
  case xbegin | xcommit | xabort => simp only [decode_transactions]
  case xstore => exact decode_xstore ..
  case amoW | amoD => simp only [decode_amo]
  case ldAcq => exact decode_acquire ..
  case stRel => exact decode_release ..
  case csrr | csrw | csrs | csrc => simp only [decode_csrs]
  case trap | sysret | uiret | snapsave | snapload | brk | dbrd | dbwr | untag => simp only [decode_system]

end Sys2Proof
end

section
/-! PROOF. The four words of a command and their fields, and what the encoder writes read back (R86 to R93). -/

namespace Sys2Proof

@[simp] theorem cmdHdrOf_words (op : BitVec 6) (h : CmdHdr) (cf : BitVec 10) : cmdHdrOf (cmdWord0 op h cf) (cmdWord1 h) = h := by
  simp -index only [cmdHdrOf, cmdWord0, cmdWord1, fields_of_append, Nat.reduceLeDiff, Nat.reduceSub, Nat.reduceAdd]

@[simp] theorem cmdWord0_fields (op : BitVec 6) (h : CmdHdr) (cf : BitVec 10) : (cmdWord0 op h cf).extractLsb' 26 6 = 0x3E ∧
    (cmdWord0 op h cf).extractLsb' 20 6 = op ∧ (cmdWord0 op h cf).extractLsb' 0 10 = cf := by
  simp -index only [cmdWord0, fields_of_append, Nat.reduceLeDiff, Nat.reduceSub, Nat.reduceAdd, and_self]

@[simp] theorem cflagsOf_fields (hi : BitVec 2) (tag : Tag) (bit2 : Bool) (lo : BitVec 2) :
    (cflagsOf hi tag bit2 lo).extractLsb' 8 2 = hi ∧ (cflagsOf hi tag bit2 lo).extractLsb' 3 5 = tag ∧
    (cflagsOf hi tag bit2 lo).extractLsb' 0 2 = lo := by
  simp -index only [cflagsOf, fields_of_append, Nat.reduceLeDiff, Nat.reduceSub, Nat.reduceAdd, and_self]

@[simp] theorem cflagsOf_bits (hi : BitVec 2) (tag : Tag) (bit2 : Bool) (lo : BitVec 2) :
    (cflagsOf hi tag bit2 lo)[2] = bit2 ∧ (cflagsOf hi tag bit2 lo)[1] = lo[1] ∧ (cflagsOf hi tag bit2 lo)[0] = lo[0] := by
  simp -index only [cflagsOf, ← BitVec.getLsbD_eq_getElem, fields_of_append, Nat.reduceLeDiff, Nat.reduceSub, Nat.reduceAdd, and_self]

@[simp] theorem cflagsOf_plain (hi : BitVec 2) (tag : Tag) : (cflagsOf hi tag false 0#2).extractLsb' 0 3 = 0#3 := by
  unfold cflagsOf
  rw [BitVec.append_assoc, BitVec.extractLsb'_cast, BitVec.extractLsb'_append_eq_of_add_le (by decide)]
  rfl

theorem hdr_ok_of_fieldsOk {i : Instr} {h : CmdHdr} {op : BitVec 6} {cf : BitVec 10} {w2 w3 : Word}
    (hp : commandParts i = some (h, op, cf, w2, w3)) (hf : i.fieldsOk = true) : h.ok = true := by
  cases i <;> cases hp
  all_goals
    simp only [Instr.fieldsOk, Bool.and_eq_true] at hf
    grind

theorem decode_command {i : Instr} {h : CmdHdr} {op : BitVec 6} {cf : BitVec 10} {w2 w3 : Word} (hf : i.fieldsOk = true)
    (hp : commandParts i = some (h, op, cf, w2, w3)) : decode (cmdWord0 op h cf) (cmdWord1 h) w2 w3 = .ok i := by
  have hok := hdr_ok_of_fieldsOk hp hf
  rw [decode, (cmdWord0_fields op h cf).1, beq_self_eq_true, if_pos rfl]
  have hbits (f r : Bool) : (BitVec.ofBool f ++ BitVec.ofBool r)[1] = f ∧ (BitVec.ofBool f ++ BitVec.ofBool r)[0] = r := by
    revert f r; decide
  cases i <;> cases hp
  all_goals
    simp only [decodeCommand, cmdHdrOf_words, cmdWord0_fields]
    simp -index only [fields_of_append, Nat.reduceLeDiff, Nat.reduceSub, Nat.reduceAdd]
    simp [hok, hf, hbits]

end Sys2Proof
end

section
open Sys2Proof

/-- Settles O2: word by word for the control core, and for a command by the fields of its four words. -/
theorem Sys2Proof.controlRoundTrip : Obligations.ControlRoundTrip := by
  refine ⟨fun i w w1 w2 w3 hwf h => decode_encodeWord hwf h w1 w2 w3, fun i w0 w1 w2 w3 hwf h => ?_⟩
  obtain ⟨⟨hd, op, cf, x2, x3⟩, hp, hw⟩ := Option.map_eq_some_iff.1 h
  obtain ⟨rfl, rfl, rfl, rfl⟩ : cmdWord0 op hd cf = w0 ∧ cmdWord1 hd = w1 ∧ x2 = w2 ∧ x3 = w3 := by simpa using hw
  exact decode_command (Bool.and_eq_true_iff.1 hwf).1 hp

end

section
/-! PROOF. What the decoder reads is encoded by the words it was read from (R81 to R93). -/

namespace Sys2Proof

/-! ### Words from their fields -/

/-- Two fields that stand side by side. -/
theorem append_of_fields {n v w o : Nat} {z : BitVec n} {x : BitVec v} {y : BitVec w} (hx : x = z.extractLsb' (o + w) v)
    (hy : y = z.extractLsb' o w) : x ++ y = z.extractLsb' o (v + w) := by
  rw [hx, hy, BitVec.extractLsb'_append_extractLsb'_eq_extractLsb' rfl]

theorem eq_of_all {n : Nat} {x z : BitVec n} (h : x = z.extractLsb' 0 n) : x = z := h.trans BitVec.extractLsb'_eq_self

/-- A field of one bit. -/
theorem ofBool_of_bit {n o : Nat} {z : BitVec n} {b : Bool} (h : b = z.getLsbD o) : BitVec.ofBool b = z.extractLsb' o 1 := by
  subst h
  refine BitVec.eq_of_getLsbD_eq fun i hi => ?_
  obtain rfl : i = 0 := by omega
  simp

section
variable {w : Word} {m : BitVec 6} {d a b : BitVec 5} {func : BitVec 11} {imm : BitVec 16} {cls : BitVec 4} {off : BitVec 12}
  {far : BitVec 26} {hi : BitVec 3} {s : SyncSfx}

theorem formR_eq (hm : w.extractLsb' 26 6 = m) (hd : w.extractLsb' 21 5 = d) (ha : w.extractLsb' 16 5 = a) (hb : w.extractLsb' 11 5 = b)
    (hf : w.extractLsb' 0 11 = func) : formR m d a b func = w :=
  eq_of_all (append_of_fields (append_of_fields (append_of_fields (append_of_fields hm.symm hd.symm) ha.symm) hb.symm) hf.symm)

theorem formI_eq (hm : w.extractLsb' 26 6 = m) (hd : w.extractLsb' 21 5 = d) (ha : w.extractLsb' 16 5 = a)
    (hi : w.extractLsb' 0 16 = imm) : formI m d a imm = w :=
  eq_of_all (append_of_fields (append_of_fields (append_of_fields hm.symm hd.symm) ha.symm) hi.symm)

theorem formM_eq (hm : w.extractLsb' 26 6 = m) (hd : w.extractLsb' 21 5 = d) (ha : w.extractLsb' 16 5 = a) (hc : w.extractLsb' 12 4 = cls)
    (ho : w.extractLsb' 0 12 = off) : formM m d a cls off = w :=
  eq_of_all (append_of_fields (append_of_fields (append_of_fields (append_of_fields hm.symm hd.symm) ha.symm) hc.symm) ho.symm)

theorem formJ_eq (hm : w.extractLsb' 26 6 = m) (ho : w.extractLsb' 0 26 = far) : formJ m far = w :=
  eq_of_all (append_of_fields hm.symm ho.symm)

theorem funcSfx_eq (hh : func.extractLsb' 8 3 = hi) (hc : func.extractLsb' 4 4 = s.cls) (ho : func.extractLsb' 2 2 = s.order)
    (hs : func.extractLsb' 0 2 = s.scope) : funcSfx hi s = func :=
  eq_of_all (append_of_fields (append_of_fields (append_of_fields hh.symm hc.symm) ho.symm) hs.symm)
end

theorem need_ok {ok : Bool} {r : Reject} {i j : Instr} : need ok r i = .ok j ↔ ok = true ∧ i = j := by
  cases ok <;> simp [need]

theorem decodeAlu_encodes {d a b : BitVec 5} {func : BitVec 11} {i : Instr} (h : decodeAlu d a b func = .ok i) :
    i.wf = true ∧ encodeWord i = some (formR 0x00 d a b func) := by
  unfold decodeAlu at h
  split at h
  case h_15 | h_16 | h_17 =>
    obtain ⟨hb, rfl⟩ := need_ok.1 h
    rw [eq_of_beq hb]
    exact ⟨rfl, rfl⟩
  case h_25 => cases h
  all_goals
    cases h
    exact ⟨rfl, rfl⟩

/-- VIEW's func holds its operator and nothing else. -/
theorem view_func {func : BitVec 11} (h7 : func.extractLsb' 4 7 = 0) (h3 : func.getLsbD 3 = false) :
    func = (0 : BitVec 8) ++ func.extractLsb' 0 3 := by
  revert func; decide

/-- A func whose bits 8:0 are zero holds its kind in bits 10:9. -/
theorem func_of_kind {func : BitVec 11} {kind : BitVec 2} (hk : func.extractLsb' 9 2 = kind) (hz : func.extractLsb' 0 9 = 0) :
    func = kind ++ (0 : BitVec 9) :=
  (eq_of_all (append_of_fields hk.symm hz.symm)).symm

theorem formR_zero (m : BitVec 6) : formR m 0 0 0 0 = formJ m 0 := by
  revert m; decide

theorem kind_three {kind : BitVec 2} (h0 : kind ≠ 0) (h1 : kind ≠ 1) (h2 : kind ≠ 2) : kind = 3 := by
  revert kind; decide

theorem not_bne {n : Nat} {x y : BitVec n} : ¬(x != y) = true ↔ x = y := by simp

/-- A word that decodes to an instruction is its encoding. -/
theorem decodeWord_encodes {w : Word} {i : Instr} (h : decodeWord w = .ok i) : i.wf = true ∧ encodeWord i = some w := by
  unfold decodeWord at h
  dsimp only at h
  split at h
  -- 0x00
  case h_1 hm =>
    obtain ⟨hwf, he⟩ := decodeAlu_encodes h
    exact ⟨hwf, he.trans (congrArg some (formR_eq hm rfl rfl rfl rfl))⟩
  -- 0x01 to 0x06, 0x0B, 0x18 to 0x1D, 0x1F
  case h_2 hm | h_3 hm | h_4 hm | h_5 hm | h_6 hm | h_7 hm | h_12 hm | h_21 hm | h_22 hm | h_23 hm | h_24 hm | h_25 hm | h_26 hm | h_28 hm =>
    cases h
    exact ⟨rfl, congrArg some (formI_eq hm rfl rfl rfl)⟩
  -- 0x07 to 0x09
  case h_8 hm | h_9 hm | h_10 hm =>
    obtain ⟨hz, rfl⟩ := need_ok.1 h
    exact ⟨rfl, congrArg some (formI_eq hm rfl rfl (append_of_fields (v := 10) (w := 6) (eq_of_beq hz).symm rfl).symm)⟩
  -- 0x0A
  case h_11 hm =>
    obtain ⟨hz, rfl⟩ := need_ok.1 h
    exact ⟨rfl, congrArg some (formI_eq hm rfl (eq_of_beq hz) rfl)⟩
  -- 0x10 to 0x17
  case h_13 hm | h_14 hm | h_15 hm | h_16 hm | h_17 hm | h_18 hm | h_19 hm | h_20 hm =>
    cases h
    exact ⟨rfl, congrArg some (formM_eq hm rfl rfl rfl rfl)⟩
  -- 0x1E
  case h_27 hm =>
    cases h
    exact ⟨rfl, congrArg some (formJ_eq hm rfl)⟩
  -- 0x20
  case h_29 hm =>
    split at h
    case h_3 => cases h
    all_goals
      next hf =>
      obtain ⟨hz, rfl⟩ := need_ok.1 h
      simp only [Bool.and_eq_true, beq_iff_eq] at hz
      obtain ⟨⟨hd, ha⟩, hb⟩ := hz
      exact ⟨rfl, congrArg some (formR_eq hm hd ha hb hf)⟩
  -- 0x21
  case h_30 hm =>
    obtain ⟨hz, rfl⟩ := need_ok.1 h
    exact ⟨rfl, congrArg some (formR_eq hm rfl rfl rfl (eq_of_beq hz))⟩
  -- 0x22
  case h_31 hm =>
    obtain ⟨hz, rfl⟩ := need_ok.1 h
    simp only [Bool.and_eq_true, beq_iff_eq] at hz
    obtain ⟨⟨ha, hb⟩, hf⟩ := hz
    exact ⟨rfl, congrArg some (formR_eq hm rfl ha hb hf)⟩
  -- 0x23
  case h_32 hm =>
    split at h
    next hf =>
      cases h
      exact ⟨rfl, congrArg some (formR_eq hm rfl rfl rfl (eq_of_beq hf))⟩
    split at h
    · cases h
    next hz =>
      obtain ⟨h3, rfl⟩ := need_ok.1 h
      exact ⟨rfl, congrArg some (formR_eq hm rfl rfl rfl (view_func (by simpa using hz) (by simpa using h3)))⟩
  -- 0x24
  case h_33 hm =>
    obtain ⟨hz, rfl⟩ := need_ok.1 h
    exact ⟨rfl, congrArg some (formR_eq hm rfl rfl rfl (funcSfx_eq (eq_of_beq hz) rfl rfl rfl).symm)⟩
  -- 0x25
  case h_34 hm =>
    split at h
    · cases h
    next hz =>
      have hz := not_bne.1 hz
      split at h
      case h_1 hk =>
        cases h
        exact ⟨rfl, congrArg some (formR_eq hm rfl rfl rfl (func_of_kind hk hz))⟩
      case h_2 hk | h_3 hk =>
        obtain ⟨hb, rfl⟩ := need_ok.1 h
        exact ⟨rfl, congrArg some (formR_eq hm rfl rfl (eq_of_beq hb) (func_of_kind hk hz))⟩
      · cases h
  -- 0x26
  case h_35 hm =>
    split at h
    · cases h
    next hz =>
      obtain ⟨ho, rfl⟩ := need_ok.1 h
      simp only [Bool.or_eq_true, bne_iff_ne, ne_eq, not_or, Decidable.not_not] at hz
      obtain ⟨hf, hd⟩ := hz
      exact ⟨by simpa [Instr.wf, Instr.fieldsOk, Instr.landingOk, sfxOf] using ho,
        congrArg some (formR_eq hm hd rfl rfl (funcSfx_eq hf rfl rfl rfl).symm)⟩
  -- 0x27
  case h_36 hm =>
    split at h
    next h10 =>
      obtain ⟨hz, rfl⟩ := need_ok.1 h
      simp only [Bool.and_eq_true, beq_iff_eq] at hz
      obtain ⟨⟨hd, hb⟩, hf⟩ := hz
      exact ⟨rfl, congrArg some (formR_eq hm hd rfl hb (eq_of_all (append_of_fields (v := 1) (w := 10) (ofBool_of_bit h10.symm) hf.symm)).symm)⟩
    next h10 =>
      obtain ⟨ho, rfl⟩ := need_ok.1 h
      have hhi := append_of_fields (v := 1) (w := 2) (ofBool_of_bit (Bool.eq_false_iff.2 h10).symm) rfl
      exact ⟨by simpa [Instr.wf, Instr.fieldsOk, Instr.landingOk, sfxOf] using ho,
        congrArg some (formR_eq hm rfl rfl rfl (funcSfx_eq hhi.symm rfl rfl rfl).symm)⟩
  -- 0x28
  case h_37 hm =>
    split at h
    · cases h
    next hz =>
      have hz := not_bne.1 hz
      split at h
      case h_3 hk =>
        cases h
        exact ⟨rfl, congrArg some (formR_eq hm rfl rfl rfl (func_of_kind hk hz))⟩
      case h_4 h0 h1 h2 =>
        obtain ⟨hb, rfl⟩ := need_ok.1 h
        exact ⟨rfl, congrArg some (formR_eq hm rfl rfl (eq_of_beq hb) (func_of_kind (kind_three h0 h1 h2) hz))⟩
      all_goals
        next hk =>
        obtain ⟨hb, rfl⟩ := need_ok.1 h
        exact ⟨rfl, congrArg some (formR_eq hm rfl rfl (eq_of_beq hb) (func_of_kind hk hz))⟩
  -- 0x29
  case h_38 hm =>
    obtain ⟨hz, rfl⟩ := need_ok.1 h
    simp only [Bool.and_eq_true, beq_iff_eq] at hz
    obtain ⟨hb, hf⟩ := hz
    exact ⟨rfl, congrArg some (formR_eq hm rfl rfl hb hf)⟩
  -- 0x2A
  case h_39 hm =>
    split at h
    · cases h
    next hz =>
      obtain ⟨hi, rfl⟩ := need_ok.1 h
      simp only [Bool.or_eq_true, bne_iff_ne, ne_eq, not_or, Decidable.not_not] at hz
      obtain ⟨hd, ha⟩ := hz
      have hscope := eq_of_all (append_of_fields (v := 3) (w := 2) hd.symm rfl)
      exact ⟨by simpa [Instr.wf, Instr.fieldsOk, Instr.landingOk] using hi, congrArg some (formI_eq hm hscope.symm ha rfl)⟩
  -- 0x2B
  case h_40 hm =>
    split at h
    · cases h
    next hz =>
      have hz := not_bne.1 hz
      split at h
      case h_2 hk =>
        cases h
        have hf := append_of_fields (v := 2) (w := 7) hk.symm hz.symm
        exact ⟨rfl, congrArg some (formR_eq hm rfl rfl rfl (eq_of_all (append_of_fields (v := 9) (w := 2) hf rfl)).symm)⟩
      case h_1 hk =>
        obtain ⟨hb, rfl⟩ := need_ok.1 h
        simp only [Bool.and_eq_true, beq_iff_eq] at hb
        obtain ⟨hb, h2⟩ := hb
        exact ⟨rfl, congrArg some (formR_eq hm rfl rfl hb (func_of_kind hk (append_of_fields (v := 7) (w := 2) hz.symm h2.symm).symm))⟩
      case h_3 hk =>
        obtain ⟨hb, rfl⟩ := need_ok.1 h
        simp only [Bool.and_eq_true, beq_iff_eq] at hb
        obtain ⟨⟨ha, hb⟩, h2⟩ := hb
        exact ⟨rfl, congrArg some (formR_eq hm rfl ha hb (func_of_kind hk (append_of_fields (v := 7) (w := 2) hz.symm h2.symm).symm))⟩
      case h_4 h0 h1 h2 =>
        obtain ⟨hb, rfl⟩ := need_ok.1 h
        simp only [Bool.and_eq_true, beq_iff_eq] at hb
        obtain ⟨⟨ha, hb⟩, hs⟩ := hb
        exact ⟨rfl, congrArg some
          (formR_eq hm rfl ha hb (func_of_kind (kind_three h0 h1 h2) (append_of_fields (v := 7) (w := 2) hz.symm hs.symm).symm))⟩
  -- 0x2C, 0x2D
  case h_41 hm | h_42 hm =>
    cases h
    exact ⟨rfl, congrArg some (formR_eq hm rfl rfl rfl (funcSfx_eq rfl rfl rfl rfl).symm)⟩
  -- 0x2E
  case h_43 hm =>
    split at h
    · cases h
    next ho =>
      have ho := not_bne.1 ho
      split at h
      next h10 =>
        obtain ⟨hd, rfl⟩ := need_ok.1 h
        have hhi := append_of_fields (v := 1) (w := 2) (ofBool_of_bit h10.symm) rfl
        exact ⟨rfl, congrArg some (formR_eq hm (eq_of_beq hd) rfl rfl (funcSfx_eq hhi.symm rfl ho rfl).symm)⟩
      next h10 =>
        obtain ⟨hb, rfl⟩ := need_ok.1 h
        have hhi := append_of_fields (v := 1) (w := 2) (ofBool_of_bit (Bool.eq_false_iff.2 h10).symm) rfl
        exact ⟨rfl, congrArg some (formR_eq hm rfl rfl (eq_of_beq hb) (funcSfx_eq hhi.symm rfl ho rfl).symm)⟩
  -- 0x30
  case h_44 hm =>
    split at h
    case h_1 hc =>
      obtain ⟨ha, rfl⟩ := need_ok.1 h
      exact ⟨rfl, congrArg some (formM_eq hm rfl (eq_of_beq ha) hc rfl)⟩
    case h_2 hc | h_3 hc | h_4 hc =>
      cases h
      exact ⟨rfl, congrArg some (formM_eq hm rfl rfl hc rfl)⟩
    · cases h
  -- 0x31
  case h_45 hm =>
    obtain ⟨hz, rfl⟩ := need_ok.1 h
    simp only [Bool.and_eq_true, beq_iff_eq] at hz
    obtain ⟨hd, ha⟩ := hz
    exact ⟨rfl, congrArg some (formI_eq hm hd ha rfl)⟩
  -- 0x32, 0x33
  case h_46 hm | h_47 hm =>
    obtain ⟨hz, rfl⟩ := need_ok.1 h
    exact ⟨rfl, congrArg some ((formR_zero _).trans (formJ_eq hm (eq_of_beq hz)))⟩
  -- 0x34
  case h_48 hm =>
    split at h
    case h_1 hf | h_2 hf =>
      cases h
      exact ⟨rfl, congrArg some (formR_eq hm rfl rfl rfl hf)⟩
    · cases h
  -- 0x35
  case h_49 hm =>
    split at h
    case h_1 hf =>
      obtain ⟨hz, rfl⟩ := need_ok.1 h
      simp only [Bool.and_eq_true, beq_iff_eq] at hz
      obtain ⟨⟨hd, ha⟩, hb⟩ := hz
      exact ⟨rfl, congrArg some (formR_eq hm hd ha hb hf)⟩
    case h_2 hf =>
      obtain ⟨hb, rfl⟩ := need_ok.1 h
      exact ⟨rfl, congrArg some (formR_eq hm rfl rfl (eq_of_beq hb) hf)⟩
    case h_3 hf =>
      obtain ⟨hd, rfl⟩ := need_ok.1 h
      exact ⟨rfl, congrArg some (formR_eq hm (eq_of_beq hd) rfl rfl hf)⟩
    · cases h
  -- 0x36
  case h_50 hm =>
    obtain ⟨hz, rfl⟩ := need_ok.1 h
    simp only [Bool.and_eq_true, beq_iff_eq] at hz
    obtain ⟨⟨hd, hb⟩, hf⟩ := hz
    exact ⟨rfl, congrArg some (formR_eq hm hd rfl hb hf)⟩
  -- the reserved and unassigned majors
  all_goals cases h

end Sys2Proof
end

section
/-! PROOF. The four words that a command was read from encode it (R86 to R93). -/

namespace Sys2Proof

theorem cmdWord0_eq {w0 : Word} (w1 : Word) {op : BitVec 6} {cf : BitVec 10} (hm : w0.extractLsb' 26 6 = 0x3E)
    (hop : w0.extractLsb' 20 6 = op) (hcf : w0.extractLsb' 0 10 = cf) : cmdWord0 op (cmdHdrOf w0 w1) cf = w0 :=
  eq_of_all (append_of_fields (append_of_fields (append_of_fields (append_of_fields (append_of_fields (append_of_fields
    (append_of_fields hm.symm hop.symm) rfl) rfl) (ofBool_of_bit rfl)) (ofBool_of_bit rfl)) rfl) hcf.symm)

theorem cmdWord1_eq (w0 w1 : Word) : cmdWord1 (cmdHdrOf w0 w1) = w1 :=
  eq_of_all (append_of_fields (append_of_fields (append_of_fields rfl rfl) rfl) rfl)

theorem cflagsOf_eq {cf : BitVec 10} {hi : BitVec 2} {tag : Tag} {bit2 : Bool} {lo : BitVec 2} (hhi : hi = cf.extractLsb' 8 2)
    (ht : tag = cf.extractLsb' 3 5) (h2 : bit2 = cf.getLsbD 2) (hlo : lo = cf.extractLsb' 0 2) : cflagsOf hi tag bit2 lo = cf :=
  eq_of_all (append_of_fields (append_of_fields (append_of_fields hhi ht) (ofBool_of_bit h2)) hlo)

theorem cflagsOf_plain_eq {cf : BitVec 10} (hhi : cf.extractLsb' 8 2 = 0) (hlo : cf.extractLsb' 0 3 = 0) :
    cflagsOf 0 (cf.extractLsb' 3 5) false 0 = cf := by
  revert cf; decide

/-- A command is encoded by the words whose fields it names. -/
theorem encodeCommand_of_parts {w0 w1 w2 w3 x2 x3 : Word} {i : Instr} {op : BitVec 6} {cf : BitVec 10}
    (hp : commandParts i = some (cmdHdrOf w0 w1, op, cf, x2, x3)) (hm : w0.extractLsb' 26 6 = 0x3E) (hop : w0.extractLsb' 20 6 = op)
    (hcf : cf = w0.extractLsb' 0 10) (h2 : x2 = w2) (h3 : x3 = w3) : encodeCommand i = some (w0, w1, w2, w3) := by
  rw [encodeCommand, hp, h2, h3]
  show some (cmdWord0 op (cmdHdrOf w0 w1) cf, cmdWord1 (cmdHdrOf w0 w1), w2, w3) = _
  rw [cmdWord0_eq w1 hm hop hcf.symm, cmdWord1_eq]

/-- The checks that every opcode ends with. -/
theorem finish_ok {z k : Bool} {r r' r'' : Reject} {i j : Instr}
    (h : (if (!z) = true then .error r else if (!k) = true then .error r' else need i.fieldsOk r'' i) = Except.ok j) :
    z = true ∧ j.fieldsOk = true ∧ i = j := by
  cases z
  · cases h
  cases k
  · cases h
  obtain ⟨hf, rfl⟩ := need_ok.1 h
  exact ⟨rfl, hf, rfl⟩

theorem decodeCommand_encodes {w0 w1 w2 w3 : Word} {i : Instr} (hm : w0.extractLsb' 26 6 = 0x3E) (h : decodeCommand w0 w1 w2 w3 = .ok i) :
    i.fieldsOk = true ∧ encodeCommand i = some (w0, w1, w2, w3) := by
  unfold decodeCommand at h
  dsimp only at h
  split at h
  -- SHAPE
  case h_1 hop =>
    obtain ⟨hz, hf, rfl⟩ := finish_ok h
    simp only [Bool.and_eq_true, beq_iff_eq] at hz
    obtain ⟨hcf, h3⟩ := hz
    exact ⟨hf, encodeCommand_of_parts rfl hm hop hcf.symm rfl (eq_of_all (append_of_fields (append_of_fields rfl h3.symm) rfl))⟩
  -- SALLOC
  case h_2 hop =>
    obtain ⟨hz, hf, rfl⟩ := finish_ok h
    simp only [Bool.and_eq_true, beq_iff_eq] at hz
    obtain ⟨⟨hcf, h2⟩, h3⟩ := hz
    exact ⟨hf, encodeCommand_of_parts rfl hm hop hcf.symm
      (eq_of_all (append_of_fields (append_of_fields (append_of_fields rfl rfl) rfl) h2.symm))
      (eq_of_all (append_of_fields (append_of_fields rfl rfl) h3.symm))⟩
  -- SFREE
  case h_3 hop =>
    obtain ⟨hz, hf, rfl⟩ := finish_ok h
    simp only [Bool.and_eq_true, beq_iff_eq] at hz
    obtain ⟨⟨hcf, h2⟩, h3⟩ := hz
    exact ⟨hf, encodeCommand_of_parts rfl hm hop hcf.symm (eq_of_all (append_of_fields rfl h2.symm)) h3.symm⟩
  -- SLOAD
  case h_4 hop =>
    obtain ⟨hz, hf, rfl⟩ := finish_ok h
    simp only [Bool.and_eq_true, beq_iff_eq] at hz
    obtain ⟨hlo, h3⟩ := hz
    exact ⟨hf, encodeCommand_of_parts rfl hm hop (cflagsOf_eq rfl rfl rfl hlo.symm) rfl
      (eq_of_all (append_of_fields (append_of_fields (append_of_fields rfl rfl) h3.symm) rfl))⟩
  -- SSTORE
  case h_5 hop =>
    obtain ⟨hz, hf, rfl⟩ := finish_ok h
    simp only [Bool.and_eq_true, beq_iff_eq] at hz
    obtain ⟨⟨hlo, hhi⟩, h3⟩ := hz
    exact ⟨hf, encodeCommand_of_parts rfl hm hop (cflagsOf_eq hhi.symm rfl rfl hlo.symm) rfl
      (eq_of_all (append_of_fields (append_of_fields (append_of_fields rfl rfl) h3.symm) rfl))⟩
  -- SGATHER, SSCATTER
  case h_6 hop | h_7 hop =>
    obtain ⟨hz, hf, rfl⟩ := finish_ok h
    simp only [Bool.and_eq_true, beq_iff_eq] at hz
    obtain ⟨hhi, hlo⟩ := hz
    exact ⟨hf, encodeCommand_of_parts rfl hm hop (cflagsOf_plain_eq hhi hlo) rfl
      (eq_of_all (append_of_fields (append_of_fields (append_of_fields rfl rfl) rfl) rfl))⟩
  -- SSCADD
  case h_8 hop =>
    obtain ⟨hz, hf, rfl⟩ := finish_ok h
    simp only [Bool.and_eq_true, beq_iff_eq, Bool.not_eq_true'] at hz
    obtain ⟨hhi, h2⟩ := hz
    exact ⟨hf, encodeCommand_of_parts rfl hm hop (cflagsOf_eq hhi.symm rfl h2.symm rfl) rfl
      (eq_of_all (append_of_fields (append_of_fields (append_of_fields rfl rfl) rfl) rfl))⟩
  -- SCOPY
  case h_9 hop =>
    obtain ⟨hz, hf, rfl⟩ := finish_ok h
    exact ⟨hf, encodeCommand_of_parts rfl hm hop (eq_of_all (append_of_fields (eq_of_beq hz).symm rfl)) rfl rfl⟩
  -- SCAN
  case h_10 hop =>
    obtain ⟨hz, hf, rfl⟩ := finish_ok h
    simp only [Bool.and_eq_true, beq_iff_eq, Bool.not_eq_true'] at hz
    obtain ⟨⟨hhi, h2⟩, h3⟩ := hz
    exact ⟨hf, encodeCommand_of_parts rfl hm hop
      (cflagsOf_eq hhi.symm rfl h2.symm (append_of_fields (ofBool_of_bit rfl) (ofBool_of_bit rfl)))
      (eq_of_all (append_of_fields (append_of_fields (append_of_fields rfl rfl) rfl) rfl)) (eq_of_all (append_of_fields rfl h3.symm))⟩
  -- KERNEL
  case h_11 hop =>
    obtain ⟨hz, hf, rfl⟩ := finish_ok h
    exact ⟨hf, encodeCommand_of_parts rfl hm hop (eq_of_beq hz).symm (eq_of_all (append_of_fields (append_of_fields rfl rfl) rfl))
      (eq_of_all (append_of_fields (append_of_fields (append_of_fields (append_of_fields (append_of_fields rfl rfl) rfl) rfl) rfl) rfl))⟩
  -- KSWAP
  case h_12 hop =>
    obtain ⟨hz, hf, rfl⟩ := finish_ok h
    simp only [Bool.and_eq_true, beq_iff_eq] at hz
    obtain ⟨hcf, h2⟩ := hz
    exact ⟨hf, encodeCommand_of_parts rfl hm hop hcf.symm (eq_of_all (append_of_fields (append_of_fields rfl h2.symm) rfl)) rfl⟩
  -- COLL
  case h_13 hop =>
    split at h
    case h_5 => cases h
    all_goals
      next hk =>
      obtain ⟨hz, hf, rfl⟩ := finish_ok h
      exact ⟨hf, encodeCommand_of_parts rfl hm hop (eq_of_beq hz).symm rfl
        (eq_of_all (append_of_fields (append_of_fields (append_of_fields (append_of_fields hk.symm rfl) rfl) rfl) rfl))⟩
  -- SMARK
  case h_14 hop =>
    obtain ⟨hz, hf, rfl⟩ := finish_ok h
    simp only [Bool.and_eq_true, beq_iff_eq] at hz
    obtain ⟨⟨hcf, h2⟩, h3⟩ := hz
    exact ⟨hf, encodeCommand_of_parts rfl hm hop hcf.symm (eq_of_all (append_of_fields h2.symm rfl)) h3.symm⟩
  · cases h

/-- A command is no slot operation, so no landing is asked of it. -/
theorem landingOk_of_encodeCommand {i : Instr} {ws : Word × Word × Word × Word} (h : encodeCommand i = some ws) : i.landingOk = true := by
  cases i <;> cases h <;> rfl

end Sys2Proof
end

section
open Sys2Proof

/-- Settles O4: major by major and opcode by opcode, the checks of the decoder are what the encoder's fields leave to be said of a word. -/
theorem Sys2Proof.decodedIsEncoded : Obligations.DecodedIsEncoded := by
  intro w0 w1 w2 w3 i h
  unfold decode at h
  split at h
  next hm =>
    obtain ⟨hf, he⟩ := decodeCommand_encodes (eq_of_beq hm) h
    exact ⟨by rw [Instr.wf, hf, landingOk_of_encodeCommand he]; rfl, .inr he⟩
  next =>
    obtain ⟨hwf, he⟩ := decodeWord_encodes h
    exact ⟨hwf, .inl he⟩

end

section
/-! PROOF. The bundle that holds one slot operation alone: its header and its bodies (R17, R94, R98), and that R99's checks find nothing in it. -/

namespace Sys2Proof

/-! ### The header and the bodies -/

/-- The surrendered slots of an operation of slot `s` that owns `n` bodies. -/
def ownedMask (s : Slot) (n : Nat) : Byte := ((Slot.all.drop (s.num.toNat + 1)).take n).foldl (fun m s => m ||| slotMask s) 0

/-- Slot `t` is one of the `n` next to the right of `s`. -/
def Slot.ownedBy (s : Slot) (n : Nat) (t : Slot) : Bool := s.num.toNat < t.num.toNat && t.num.toNat ≤ s.num.toNat + n

def SlotCode.arrMask (c : SlotCode) : Byte := if c.h.arrive.isSome then slotMask c.h.slot else 0

@[simp] theorem bundleHdr_solo (c : SlotCode) : bundleHdr (soloBundle c) =
    ⟨slotMask c.h.slot ||| ownedMask c.h.slot c.ext.length, ownedMask c.h.slot c.ext.length, c.arrMask, c.h.arrive.getD 0, 0⟩ := by
  simp -index only [bundleHdr, soloBundle, ownedMask, SlotCode.arrMask, fields_of_append, Nat.reduceLeDiff, Nat.reduceSub, Nat.reduceAdd]

@[simp] theorem slotBody_solo (c : SlotCode) (t : Slot) : slotBody (soloBundle c) t = soloBody c t := by
  cases t
  all_goals
    simp -index only [slotBody, soloBundle, fields_of_append, Nat.reduceLeDiff, Nat.reduceSub, Nat.reduceAdd]

/-! ### The masks, slot by slot -/

theorem slotBit_slotMask (s t : Slot) : slotBit (slotMask s) t = decide (t = s) := by
  cases s <;> cases t <;> rfl

theorem slotBit_or (m m' : Byte) (t : Slot) : slotBit (m ||| m') t = (slotBit m t || slotBit m' t) := BitVec.getLsbD_or ..

section
variable {s t : Slot} {n : Nat}

theorem slotBit_ownedMask (hn : n ≤ 2) : slotBit (ownedMask s n) t = s.ownedBy n t := by
  interval_cases n <;> cases s <;> cases t <;> rfl
theorem activeSlots_alone (hn : n ≤ 2) : (Slot.all.filter fun t => (decide (t = s) || s.ownedBy n t) && !s.ownedBy n t) = [s] := by
  interval_cases n <;> cases s <;> rfl

theorem owner_alone (hn : n ≤ 2) :
    s.ownedBy n t = true → ((Slot.all.take t.num.toNat).filter fun o => !s.ownedBy n o).getLast? = some s := by
  interval_cases n <;> cases s <;> cases t <;> decide

/-- An operation that owns slots finds them just to its right, when there are as many. -/
theorem surrendered_alone (hn : n ≤ 2) (hfit : s.num.toNat + n ≤ 7) :
    ((Slot.all.drop (s.num.toNat + 1)).takeWhile (s.ownedBy n)).take 3 = (Slot.all.drop (s.num.toNat + 1)).take n := by
  revert hfit
  interval_cases n <;> cases s <;> decide
end

theorem firstSlot_none {p : Slot → Bool} {ss : List Slot} (h : ∀ t ∈ ss, p t = false) : firstSlot p ss = none := by
  induction ss with
  | nil => rfl
  | cons t ss ih =>
    rw [firstSlot, h t List.mem_cons_self]
    exact ih fun u hu => h u (List.mem_cons_of_mem _ hu)

/-- What a code needs for its operation to stand alone: the bodies that it owns are those that its mark lets it own (R98, R99). -/
structure SlotCode.Fits (c : SlotCode) (i : Instr) : Prop where
  few : c.ext.length ≤ 2
  room : c.h.slot.num.toNat + c.ext.length ≤ 7
  long : i.ownsExt = false → c.ext ≠ [] → i.ownsLong = true
  extWord : i.ownsExt = true → c.h.slot = .G ∧ c.ext.length = 1

section
variable {c : SlotCode} {i : Instr} {t : Slot}

theorem ext_solo (hn : c.ext.length ≤ 2) : slotBit (bundleHdr (soloBundle c)).ext t = c.h.slot.ownedBy c.ext.length t := by
  rw [bundleHdr_solo, slotBit_ownedMask hn]

theorem occ_solo (hn : c.ext.length ≤ 2) :
    slotBit (bundleHdr (soloBundle c)).occ t = (decide (t = c.h.slot) || c.h.slot.ownedBy c.ext.length t) := by
  rw [bundleHdr_solo, slotBit_or, slotBit_slotMask, slotBit_ownedMask hn]

theorem arr_solo : slotBit (bundleHdr (soloBundle c)).arr t = (c.h.arrive.isSome && decide (t = c.h.slot)) := by
  rw [bundleHdr_solo]
  show slotBit c.arrMask t = _
  unfold SlotCode.arrMask
  cases c.h.arrive with
  | none => simp [slotBit]
  | some n => exact slotBit_slotMask ..

/-- The bodies of the slots that an operation owns are its extension, in order. -/
theorem bodies_solo (hf : c.Fits i) : (surrenderedAfter (bundleHdr (soloBundle c)).ext c.h.slot).map (slotBody (soloBundle c)) = c.ext := by
  have hbits : slotBit (bundleHdr (soloBundle c)).ext = c.h.slot.ownedBy c.ext.length := funext fun t => ext_solo hf.few
  rw [surrenderedAfter, hbits, surrendered_alone hf.few hf.room]
  rw [show slotBody (soloBundle c) = soloBody c from funext (slotBody_solo c)]
  obtain ⟨⟨s, g, arr⟩, op, x, ext⟩ := c
  obtain ⟨hn, hroom, -, -⟩ := hf
  rcases ext with - | ⟨x, - | ⟨y, - | ⟨z, zs⟩⟩⟩
  · rfl
  · have hs : s.num.toNat + 1 ≤ 7 := hroom
    cases s
    case H => exact absurd hs (by decide)
    all_goals rfl
  · have hs : s.num.toNat + 2 ≤ 7 := hroom
    cases s
    case G | H => exact absurd hs (by decide)
    all_goals rfl
  · exact absurd hn (by simp)

/-- The slot of the operation is decoded from its own fields. -/
theorem bundleSlot_solo (hf : c.Fits i) : bundleSlot (soloBundle c) c.h.slot = decodeSlot c.h c.op c.x c.ext := by
  have hbody : slotBody (soloBundle c) c.h.slot = c.h.guard ++ c.op ++ c.x := by rw [slotBody_solo, soloBody, if_pos rfl]
  have hfields : (c.h.guard ++ c.op ++ c.x).extractLsb' 24 4 = c.h.guard ∧ (c.h.guard ++ c.op ++ c.x).extractLsb' 16 8 = c.op ∧
      (c.h.guard ++ c.op ++ c.x).extractLsb' 0 16 = c.x := by
    simp -index only [fields_of_append, Nat.reduceLeDiff, Nat.reduceSub, Nat.reduceAdd, and_self]
  obtain ⟨hguard, hop, hx⟩ := hfields
  have harr : (if slotBit (bundleHdr (soloBundle c)).arr c.h.slot then some (bundleHdr (soloBundle c)).kb else none) = c.h.arrive := by
    rw [arr_solo, bundleHdr_solo]
    cases c.h.arrive <;> simp
  unfold bundleSlot
  dsimp only
  rw [bodies_solo hf, harr, hbody, hguard, hop, hx]

/-- A slot that is neither the operation's nor one that it owns has an empty body. -/
theorem soloBody_free (ht : t ≠ c.h.slot) (ho : c.h.slot.ownedBy c.ext.length t = false) : soloBody c t = 0 := by
  unfold soloBody
  rw [if_neg ht]
  split
  · rfl
  next hlt =>
    have hlen : c.ext.length ≤ t.num.toNat - c.h.slot.num.toNat - 1 := by
      simp only [Slot.ownedBy, Bool.and_eq_false_imp, decide_eq_true_eq, decide_eq_false_iff_not] at ho
      have := ho (by omega)
      omega
    rw [List.getElem?_eq_none hlen, Option.getD_none]

theorem not_ownedBy_self (s : Slot) (n : Nat) : s.ownedBy n s = false := by simp [Slot.ownedBy]

theorem ne_A_of_ownedBy {s t : Slot} {n : Nat} (h : s.ownedBy n t = true) : t ≠ .A := by
  rintro rfl
  simp [Slot.ownedBy, Slot.num] at h

/-- Each slot that the operation owns is one that its mark lets it own, and an operation that must own slot H does (cause 6). -/
theorem ownership_solo (hf : c.Fits i) (hd : decodeSlot c.h c.op c.x c.ext = some i) : ownershipBad (soloBundle c) t = false := by
  have hslot : bundleSlot (soloBundle c) c.h.slot = some i := (bundleSlot_solo hf).trans hd
  unfold ownershipBad
  dsimp only
  rw [ext_solo hf.few, occ_solo hf.few]
  by_cases ho : c.h.slot.ownedBy c.ext.length t = true
  · have howner : ownerOf (bundleHdr (soloBundle c)) t = some c.h.slot := by
      unfold ownerOf
      simp only [ext_solo hf.few]
      exact owner_alone hf.few ho
    have hocc : slotBit (bundleHdr (soloBundle c)).occ c.h.slot = true := by rw [occ_solo hf.few]; simp
    have hdist : t.num.toNat - c.h.slot.num.toNat ≤ c.ext.length ∧ c.ext ≠ [] := by
      simp only [Slot.ownedBy, Bool.and_eq_true, decide_eq_true_eq] at ho
      refine ⟨by omega, fun he => ?_⟩
      rw [he] at ho
      simp at ho
      omega
    obtain ⟨hle, hne⟩ := hdist
    simp only [ho, howner, hocc, hslot, if_true]
    cases hx : i.ownsExt
    · simp [hf.long hx hne, hle.trans hf.few]
    · have hone := (hf.extWord hx).2
      simp [hone ▸ hle]
  · simp only [ho, if_false, Bool.false_eq_true]
    by_cases ht : t = c.h.slot
    · subst ht
      simp only [hslot, ext_solo hf.few]
      cases hx : i.ownsExt
      · simp
      · obtain ⟨hG, hone⟩ := hf.extWord hx
        simp [hG, hone, Slot.ownedBy, Slot.num]
    · simp [ht]

/-- The bundle that holds one operation alone passes each check of R99, and is decoded to the operation. -/
theorem decodeBundle_solo (hf : c.Fits i) (hd : decodeSlot c.h c.op c.x c.ext = some i) (hl : i.landingOk = true) :
    decodeBundle (soloBundle c) = .ok [i] := by
  have hactive : activeSlots (bundleHdr (soloBundle c)) = [c.h.slot] := by
    unfold activeSlots
    simp only [ext_solo hf.few, occ_solo hf.few]
    exact activeSlots_alone hf.few
  have hslot : bundleSlot (soloBundle c) c.h.slot = some i := (bundleSlot_solo hf).trans hd
  have hlow : ((bundleHdr (soloBundle c)).low != 0) = false := by rw [bundleHdr_solo]; rfl
  have hext : firstSlot (fun s => slotBit (bundleHdr (soloBundle c)).ext s && (s == .A || !slotBit (bundleHdr (soloBundle c)).occ s))
      Slot.all = none := by
    refine firstSlot_none fun t _ => ?_
    simp only [ext_solo hf.few, occ_solo hf.few]
    cases ho : c.h.slot.ownedBy c.ext.length t
    · rfl
    · simp [ne_A_of_ownedBy ho]
  have harr : firstSlot (fun s => slotBit (bundleHdr (soloBundle c)).arr s &&
      (!slotBit (bundleHdr (soloBundle c)).occ s || slotBit (bundleHdr (soloBundle c)).ext s)) Slot.all = none := by
    refine firstSlot_none fun t _ => ?_
    simp only [ext_solo hf.few, occ_solo hf.few, arr_solo]
    by_cases ht : t = c.h.slot
    · subst ht; simp [not_ownedBy_self]
    · simp [ht]
  have hempty : firstSlot (fun s => !slotBit (bundleHdr (soloBundle c)).occ s && slotBody (soloBundle c) s != 0) Slot.all = none := by
    refine firstSlot_none fun t _ => ?_
    rw [occ_solo hf.few, slotBody_solo]
    by_cases ht : t = c.h.slot
    · simp [ht]
    · cases ho : c.h.slot.ownedBy c.ext.length t
      · simp [soloBody_free ht ho]
      · simp
  have hdecoded : firstSlot (fun s => (bundleSlot (soloBundle c) s).isNone) [c.h.slot] = none :=
    firstSlot_none fun t ht => by rw [List.mem_singleton.1 ht, hslot]; rfl
  have howned : firstSlot (ownershipBad (soloBundle c)) Slot.all = none := firstSlot_none fun t _ => ownership_solo hf hd
  have hlanding : firstSlot (fun s => (bundleSlot (soloBundle c) s).any fun i => !i.landingOk) [c.h.slot] = none :=
    firstSlot_none fun t ht => by rw [List.mem_singleton.1 ht, hslot]; simp [hl]
  unfold decodeBundle
  simp only [hlow, hext, harr, hempty, hdecoded, howned, hlanding, hactive, hslot, Bool.false_eq_true, if_false, List.filterMap_cons, List.filterMap_nil]
end

end Sys2Proof
end

section
/-! PROOF. Each slot operation's code is decoded to the operation in its slot (R97 to R103, R133, R175, R187, R200, R439). -/

namespace Sys2Proof

/-! ### The decoder of a slot -/

/-- What a slot decodes an opcode other than 0 with. -/
def decoderOf (h : SlotHdr) (op : Byte) (x : BitVec 16) (ext : List (BitVec 28)) : Option Instr :=
  match h.slot with
  | .A | .B => decodeSlotAB h op x ext
  | .C | .D => decodeSlotCD h op x
  | .E => decodeSlotE h op x
  | .F => decodeSlotF h op x
  | .G => decodeSlotG h op x (ext.headD 0)
  | .H => decodeSlotH h op x

section
variable {h : SlotHdr} {op : Byte} {x : BitVec 16} {ext : List (BitVec 28)} {i : Instr}

theorem decodeSlot_eq (hop : op ≠ 0) (hd : decoderOf h op x ext = some i) (hf : i.fieldsOk = true) :
    decodeSlot h op x ext = some i := by
  unfold decodeSlot
  dsimp only
  rw [if_neg (by simpa using hop)]
  show (match decoderOf h op x ext with | some i => if i.fieldsOk then some i else none | none => none) = some i
  rw [hd]
  exact if_pos hf

theorem decoder_A (hs : h.slot = .A) : decoderOf h op x ext = decodeSlotAB h op x ext := by rw [decoderOf, hs]
theorem decoder_B (hs : h.slot = .B) : decoderOf h op x ext = decodeSlotAB h op x ext := by rw [decoderOf, hs]
theorem decoder_AB (hs : h.slot = .A ∨ h.slot = .B) : decoderOf h op x ext = decodeSlotAB h op x ext := hs.elim decoder_A decoder_B
theorem decoder_D (hs : h.slot = .D) : decoderOf h op x ext = decodeSlotCD h op x := by rw [decoderOf, hs]
theorem decoder_CD (hs : h.slot = .C ∨ h.slot = .D) : decoderOf h op x ext = decodeSlotCD h op x := by
  rcases hs with hs | hs <;> rw [decoderOf, hs]
theorem decoder_E (hs : h.slot = .E) : decoderOf h op x ext = decodeSlotE h op x := by rw [decoderOf, hs]
theorem decoder_F (hs : h.slot = .F) : decoderOf h op x ext = decodeSlotF h op x := by rw [decoderOf, hs]
theorem decoder_G (hs : h.slot = .G) : decoderOf h op x ext = decodeSlotG h op x (ext.headD 0) := by rw [decoderOf, hs]
theorem decoder_H (hs : h.slot = .H) : decoderOf h op x ext = decodeSlotH h op x := by rw [decoderOf, hs]
end

/-! ### Opcodes, immediates and extension words -/

@[simp] theorem op_format (k f : BitVec 4) :
    BitVec.extractLsb' (n := 8) 4 4 (k ++ f) = k ∧ BitVec.extractLsb' (n := 8) 0 4 (k ++ f) = f := by
  simp -index only [fields_of_append, Nat.reduceLeDiff, Nat.reduceSub, Nat.reduceAdd, and_self]

@[simp] theorem op_cond (k : BitVec 5) (c : BitVec 3) :
    BitVec.extractLsb' (n := 8) 3 5 (k ++ c) = k ∧ BitVec.extractLsb' (n := 8) 0 3 (k ++ c) = c := by
  simp -index only [fields_of_append, Nat.reduceLeDiff, Nat.reduceSub, Nat.reduceAdd, and_self]

/-- The opcodes of R439 hold a format of two bits. -/
@[simp] theorem op_wide (f : BitVec 2) : BitVec.extractLsb' (n := 8) 4 4 (24#6 ++ f) = 6 ∧ BitVec.extractLsb' (n := 8) 4 4 (28#6 ++ f) = 7 ∧
    BitVec.extractLsb' (n := 8) 0 4 (24#6 ++ f) = 0#2 ++ f ∧ BitVec.extractLsb' (n := 8) 0 4 (28#6 ++ f) = 0#2 ++ f ∧
    BitVec.extractLsb' (n := 4) 2 2 (0#2 ++ f) = 0 ∧ BitVec.extractLsb' (n := 4) 0 2 (0#2 ++ f) = f := by
  revert f; decide

/-- A short or long immediate from its low bits and the bodies that hold the rest (R18). -/
theorem immOf_low (i : Imm) : immOf i.low i.ext = i := by
  cases i with
  | short v => rfl
  | long36 v => exact congrArg Imm.long36 (eq_of_all (append_of_fields rfl rfl))
  | long64 v => exact congrArg Imm.long64 (eq_of_all (append_of_fields (append_of_fields rfl rfl) rfl))

theorem extOf_extBits (e : Ext) : extOf (extBits e) = some e := by
  simp -index only [extOf, extBits, fields_of_append, Nat.reduceLeDiff, Nat.reduceSub, Nat.reduceAdd, beq_self_eq_true, if_true]

/-! ### The operations, slot by slot -/

/-- The code of an instruction's operation is decoded to the instruction in its slot. -/
def Instr.Reads (i : Instr) : Prop := ∀ c, slotCode i = some c → i.fieldsOk = true → decoderOf c.h c.op c.x c.ext = some i

/-- The operands stay a variable `y` while the slot and the opcode are looked up, and are read as a layout after it. -/
theorem Instr.Reads.of_code {i : Instr} {h : SlotHdr} {op : Byte} {x : BitVec 16} {ext : List (BitVec 28)}
    (hc : slotCode i = some ⟨h, op, x, ext⟩) (hd : i.fieldsOk = true → ∀ y, y = x → decoderOf h op y ext = some i) : i.Reads := by
  intro c hc' hf
  cases Option.some.inj (hc.symm.trans hc')
  exact hd hf _ rfl

/-- Each slot operation but NOP is what its slot's decoder reads from its code: the opcode finds the operation, and each operand is a
field of its own in the layout (R97). -/
theorem Instr.reads (i : Instr) (hn : ∀ h, i ≠ .slotNop h) : i.Reads := by
  cases i
  case slotNop h => exact absurd rfl (hn h)
  case br | loop | loopi | loopSw | loopiSw | pand | por | pxor | pandn | cmp | lwait | lock | ktrap | halt =>
    refine .of_code rfl fun hf x hx => ?_
    simp [Instr.fieldsOk, SlotHdr.at] at hf
    simp [decoder_A, decoder_AB, decodeSlotAB.eq_def, hf, zeros]
    subst hx
    simp -index only [layP, layLP, fields_of_append, Nat.reduceLeDiff, Nat.reduceSub, Nat.reduceAdd, and_self, BitVec.ofNat_eq_ofNat,
      BitVec.getLsbD_zero, ← BitVec.getLsbD_eq_getElem]
  case sMov | sAdd | sSub | sAnd | sOr | sXor | sSll | sSrl | sSra | sMul | sMulh | sMin | sMax | sMinu | sMaxu | sSlli | sSrli
       | sSrai | rdlc | wfield =>
    refine .of_code rfl fun hf x hx => ?_
    simp [Instr.fieldsOk, SlotHdr.at] at hf
    simp [decoder_B, decodeSlotAB.eq_def, hf, zeros]
    subst hx
    simp -index only [layL3, fields_of_append, Nat.reduceLeDiff, Nat.reduceSub, Nat.reduceAdd, and_self, BitVec.ofNat_eq_ofNat,
      ← BitVec.getLsbD_eq_getElem]
  case cmpi | movi | sAddi | sAndi | sOri | sXori =>
    refine .of_code rfl fun hf x hx => ?_
    simp [Instr.fieldsOk, SlotHdr.at] at hf
    simp [decoder_AB, decodeSlotAB.eq_def, hf, zeros]
    subst hx
    simp -index only [layLI, layLK, fields_of_append, Nat.reduceLeDiff, Nat.reduceSub, Nat.reduceAdd, and_self, immOf_low,
      BitVec.ofNat_eq_ofNat]
  case vmov | vsel | vand | vor | vxor | vnot | vfshl | vfshr | vperm | vpopc | vtopk | vqmov =>
    refine .of_code rfl fun hf x hx => ?_
    simp [Instr.fieldsOk, SlotHdr.at] at hf
    simp [decoder_D, decoder_CD, decodeSlotCD, hf, zeros]
    subst hx
    simp -index only [layL3, fields_of_append, Nat.reduceLeDiff, Nat.reduceSub, Nat.reduceAdd, and_self, BitVec.ofNat_eq_ofNat,
      ← BitVec.getLsbD_eq_getElem]
  case vadd | vsub | vmul | vfma | vmin | vmax | vcmp | vcvt | vbcast | vdiv | vabs | vneg | vsqrt | vshl | vshr | vred | vscan =>
    refine .of_code rfl fun hf x hx => ?_
    simp [Instr.fieldsOk, SlotHdr.at, and_assoc] at hf
    simp [decoder_D, decoder_CD, decodeSlotCD, hf, zeros]
    subst hx
    simp -index only [layL3, layLP, fields_of_append, Nat.reduceLeDiff, Nat.reduceSub, Nat.reduceAdd, and_self, BitVec.ofNat_eq_ofNat,
      ← BitVec.getLsbD_eq_getElem, if_true]
  case mloadb | mpush | mpushSc | mloadbWide | mpushWide | macc | mdrain | trin | trout | trclr =>
    refine .of_code rfl fun hf x hx => ?_
    simp [Instr.fieldsOk, SlotHdr.at, and_assoc] at hf
    simp [decoder_E, decoder_F, decodeSlotE, decodeSlotF, matSrcOf, hf, zeros]
    subst hx
    simp -index only [layM, fields_of_append, Nat.reduceLeDiff, Nat.reduceSub, Nat.reduceAdd, and_self, BitVec.ofNat_eq_ofNat,
      ← BitVec.getLsbD_eq_getElem, BitVec.getLsbD_zero]
  case stld | stlda | cfgset | cfgclr | cfgrd | margin | manchor | hbound | tmark | tclr | mset | mand | mor | mnot | mmova
       | retag =>
    refine .of_code rfl fun hf x hx => ?_
    simp [Instr.fieldsOk, SlotHdr.at, and_assoc] at hf
    simp [decoder_H, decodeSlotH, hf, zeros]
    subst hx
    simp -index only [fields_of_append, Nat.reduceLeDiff, Nat.reduceSub, Nat.reduceAdd, and_self, BitVec.ofNat_eq_ofNat,
      ← BitVec.getLsbD_eq_getElem]
  case cld | cst | cldU | cstU | cstM | cldFar | catom | catomFar | swsend | swrecv | swbcast =>
    refine .of_code rfl fun hf x hx => ?_
    simp [Instr.fieldsOk, SlotHdr.at, and_assoc] at hf
    simp [decoder_G, decodeSlotG, extOf_extBits, hf, zeros]
    subst hx
    simp -index only [layG, fields_of_append, Nat.reduceLeDiff, Nat.reduceSub, Nat.reduceAdd, and_self, BitVec.ofNat_eq_ofNat]
  all_goals
    intro c hc
    cases hc

/-! ### Opcode 0 is NOP, and what an operation owns -/

/-- An opcode whose high bits are not zero is not NOP's. -/
theorem append_ne_zero {n m : Nat} {k : BitVec n} {f : BitVec m} (hk : k ≠ 0) : k ++ f ≠ 0 :=
  fun h => hk (by simpa [BitVec.extractLsb'_append_eq_of_le] using congrArg (BitVec.extractLsb' m n) h)

theorem slotCode_op {i : Instr} {c : SlotCode} (hn : ∀ h, i ≠ .slotNop h) (hc : slotCode i = some c) : c.op ≠ 0 := by
  cases i <;> cases hc
  case slotNop h => exact absurd rfl (hn h)
  case cmp | cmpi => exact append_ne_zero (by decide)
  case mloadbWide | mpushWide => exact append_ne_zero (by decide)
  case vadd | vsub | vmul | vfma | vmin | vmax | vcmp | vcvt | vbcast | vdiv | vabs | vneg | vsqrt | vshl | vshr | vred | vscan =>
    exact append_ne_zero (by decide)
  case mloadb | mpush | mdrain | trin | cld | cldU | cldFar | catom | catomFar => exact append_ne_zero (by decide)
  all_goals
    dsimp only
    decide

theorem Imm.length_ext (v : Imm) : v.ext.length ≤ 2 := by cases v <;> simp [Imm.ext]

/-- A code that owns no slot stands alone in any slot. -/
theorem SlotCode.Fits.of_nil {c : SlotCode} {i : Instr} (he : c.ext = []) (hx : i.ownsExt = false) : c.Fits i where
  few := by simp [he]
  room := by
    rw [he]
    generalize c.h.slot = s
    cases s <;> decide
  long _ h := absurd he h
  extWord h := by rw [hx] at h; cases h

/-- A long immediate has room to the right of slots A and B (R100). -/
theorem SlotCode.Fits.of_imm {c : SlotCode} {i : Instr} {v : Imm} (he : c.ext = v.ext) (hs : c.h.slot = .A ∨ c.h.slot = .B)
    (hl : i.ownsLong = true) (hx : i.ownsExt = false) : c.Fits i where
  few := he ▸ v.length_ext
  room := by
    rw [he]
    rcases hs with hs | hs <;> rw [hs] <;> exact (Nat.add_le_add_left v.length_ext _).trans (by decide)
  long _ _ := hl
  extWord h := by rw [hx] at h; cases h

/-- An operation of slot G has room for its extension word in slot H (R103). -/
theorem SlotCode.Fits.of_extBits {c : SlotCode} {i : Instr} {b : BitVec 28} (he : c.ext = [b]) (hs : c.h.slot = .G)
    (hx : i.ownsExt = true) : c.Fits i where
  few := by simp [he]
  room := by rw [he, hs]; exact Nat.le_refl 7
  long h := by rw [hx] at h; cases h
  extWord _ := ⟨hs, by simp [he]⟩

/-- The code of a well-formed operation owns no body, those of its long immediate, or its extension word. -/
theorem slotCode_fits {i : Instr} {c : SlotCode} (hf : i.fieldsOk = true) (hc : slotCode i = some c) : c.Fits i := by
  cases i <;> cases hc
  case cmpi | movi =>
    simp [Instr.fieldsOk, SlotHdr.at] at hf
    exact .of_imm rfl hf rfl rfl
  case sAddi | sAndi | sOri | sXori =>
    simp [Instr.fieldsOk, SlotHdr.at] at hf
    exact .of_imm rfl (.inr hf) rfl rfl
  case cldU | cstU | cstM | cldFar | catom | catomFar =>
    simp [Instr.fieldsOk, SlotHdr.at, and_assoc] at hf
    exact .of_extBits rfl hf.1 rfl
  all_goals exact .of_nil rfl rfl

theorem decodeSlot_nop (h : SlotHdr) (hg : (Instr.slotNop h).fieldsOk = true) (ext : List (BitVec 28)) :
    decodeSlot h 0 0 ext = some (.slotNop h) := by
  simp [decodeSlot, zeros, hg]

/-- The code of a well-formed operation is decoded to the operation (R97 to R103). -/
theorem decodeSlot_slotCode {i : Instr} {c : SlotCode} (hf : i.fieldsOk = true) (hc : slotCode i = some c) :
    decodeSlot c.h c.op c.x c.ext = some i := by
  by_cases hn : ∃ h, i = .slotNop h
  · obtain ⟨h, rfl⟩ := hn
    cases hc
    exact decodeSlot_nop h hf []
  · have hn' : ∀ h, i ≠ .slotNop h := fun h e => hn ⟨h, e⟩
    exact decodeSlot_eq (slotCode_op hn' hc) (i.reads hn' c hc hf) hf

end Sys2Proof
end

section
open Sys2Proof

/-- Settles O3: the bundle's checks find nothing in an operation alone, and its slot reads the operation from its code. -/
theorem Sys2Proof.slotsRoundTrip : Obligations.SlotsRoundTrip := by
  unfold Obligations.SlotsRoundTrip
  intro i c hwf hc
  obtain ⟨hf, hl⟩ : i.fieldsOk = true ∧ i.landingOk = true := by rwa [Instr.wf, Bool.and_eq_true] at hwf
  exact decodeBundle_solo (slotCode_fits hf hc) (decodeSlot_slotCode hf hc) hl

end

section
/-! PROOF. A step stops at no state (R85, R105, R130, R313). A meaning is a tree of cases, and each of its leaves answers a next state. -/

namespace Sys2Proof.Machine

/-- A meaning answers a next state. -/
def Steps (o : Out) : Prop := Answers o fun _ => True

theorem steps_next (t : State) : Steps (.next t) := answers_next trivial

/-! ### The meanings with cases, family by family

Each loop walks the tree: it stops at a leaf, names the value that a `let` gives, or takes the cases apart. -/

section
variable (s : State)

theorem tasks_step : Steps (execExit s) ∧ Steps (execYield s) ∧ (∀ d a b, Steps (execSpawn d a b s)) ∧ (∀ d, Steps (execSync d s)) ∧
    (∀ op d a b, Steps (execView op d a b s)) ∧ (∀ d a b, Steps (execViewDrop d a b s)) := by
  dsimp -zeta only [execExit, execYield, execSpawn, execSync, execView, execViewDrop]
  refine ⟨?_, ?_, ?_, ?_, ?_, ?_⟩
  all_goals
    intros
    repeat' first | with_reducible exact steps_next _ | extract_lets | split

theorem meetings_step : (∀ sfx d a b, Steps (execMeet sfx d a b s)) ∧ (∀ d a b, Steps (execMinit d a b s)) ∧
    (∀ d a, Steps (execMread d a s)) ∧ (∀ d a, Steps (execMfree d a s)) ∧ (∀ sfx a b, Steps (execWaitge sfx a b s)) ∧
    (∀ mode sfx d a b, Steps (execWaitaddr mode sfx d a b s)) ∧ (∀ a, Steps (execWake a s)) ∧
    (∀ d a, Steps (execQpop d a s)) ∧ (∀ d a b, Steps (execQpush d a b s)) ∧ (∀ d a, Steps (execQclose d a s)) ∧
    (∀ d a, Steps (execLaunch d a s)) := by
  dsimp -zeta only [execMeet, execMinit, execMread, execMfree, execWaitge, execWaitaddr, execWake, execQpop, execQpush,
    execQclose, execLaunch]
  refine ⟨?_, ?_, ?_, ?_, ?_, ?_, ?_, ?_, ?_, ?_, ?_⟩
  all_goals
    intros
    repeat' first | with_reducible exact steps_next _ | extract_lets | split

theorem system_step : (∀ d csr, Steps (execCsrr d csr s)) ∧ (∀ d a b, Steps (execSnapsave d a b s)) ∧
    (∀ d a b, Steps (execSnapload d a b s)) ∧ (∀ d a, Steps (execDbrd d a s)) ∧ (∀ a b, Steps (execDbwr a b s)) ∧
    (∀ a, Steps (execUntag a s)) := by
  dsimp -zeta only [execCsrr, execSnapsave, execSnapload, execDbrd, execDbwr, execUntag]
  refine ⟨?_, ?_, ?_, ?_, ?_, ?_⟩
  all_goals
    intros
    repeat' first | with_reducible exact steps_next _ | extract_lets | split

theorem transactions_step : (∀ d a, Steps (execXbegin d a s)) ∧ (∀ size d a b, Steps (execXstore size d a b s)) ∧
    (∀ d, Steps (execXcommit d s)) ∧ (∀ d, Steps (execXabort d s)) ∧ (∀ p, Steps (execXstoreStage p s)) ∧ (∀ p id, Steps (execTransactionDecision p id s)) ∧
    (∀ p id, Steps (execTransactionApply p id s)) ∧ (∀ p id, Steps (execTransactionTimeout p id s)) ∧
    (∀ p id, Steps (execDecisionQuery p id s)) := by
  dsimp -zeta only [execXbegin, execXstore, execXcommit, execXabort, execXstoreStage, execTransactionDecision,
    execTransactionApply, execTransactionTimeout, execDecisionQuery]
  refine ⟨?_, ?_, ?_, ?_, ?_, ?_, ?_, ?_, ?_⟩
  all_goals
    intros
    repeat' first | with_reducible exact steps_next _ | extract_lets | split

theorem engines_step : (∀ c, Steps (execRemoteAtomicMessage c s)) ∧ (∀ c entry, Steps (execCommandIssue c entry s)) ∧
    (∀ c entry, Steps (execEngineElementAccess c entry s)) ∧ (∀ c entry, Steps (execWellheadScatterAdd c entry s)) ∧
    (∀ c entry, Steps (execCommandCompletion c entry s)) ∧ (∀ c, Steps (execAcqCommandTimeout c s)) := by
  dsimp -zeta only [execRemoteAtomicMessage, execCommandIssue, execEngineElementAccess, execWellheadScatterAdd,
    execCommandCompletion, execAcqCommandTimeout]
  refine ⟨?_, ?_, ?_, ?_, ?_, ?_⟩
  all_goals
    intros
    repeat' first | with_reducible exact steps_next _ | extract_lets | split

theorem placer_step : (∀ c, Steps (execTaskPickup c s)) ∧ (∀ c n, Steps (execMonitorReread c n s)) ∧
    (∀ c, Steps (execUserInterruptDelivery c s)) ∧ (∀ c, Steps (execFetchFault c s)) ∧
    (∀ p child, Steps (execChildMerge p child s)) ∧ (∀ p child, Steps (execPoisonedMerge p child s)) ∧
    (∀ p prefer, Steps (execLaunchAdmission p prefer s)) ∧
    (∀ p rec_ team prefer, Steps (execQuantumEnd p rec_ team prefer s)) ∧
    (∀ p rec_ team prefer, Steps (execSwapIn p rec_ team prefer s)) ∧ (∀ p rec_ team, Steps (execSwapOut p rec_ team s)) := by
  dsimp -zeta only [execTaskPickup, execMonitorReread, execUserInterruptDelivery, execFetchFault, execChildMerge,
    execPoisonedMerge, execLaunchAdmission, execQuantumEnd, execSwapIn, execSwapOut]
  refine ⟨?_, ?_, ?_, ?_, ?_, ?_, ?_, ?_, ?_, ?_⟩
  all_goals
    intros
    repeat' first | with_reducible exact steps_next _ | extract_lets | split

theorem mesh_step : (∀ r bytes failed, Steps (execHostMemoryReply r bytes failed s)) ∧ (∀ d x, Steps (execWellheadSlotService d x s)) ∧
    (∀ d block found, Steps (execScrubRead d block found s)) ∧ (∀ c, Steps (execFreezeTelemetryReport c s)) ∧
    (∀ l, Steps (execLinkReplayReport l s)) ∧ (∀ c x, Steps (execRegisterEccError c x s)) ∧
    (∀ f, Steps (execFlushMarkerFlit f s)) ∧ (∀ d, Steps (execFlushMarkerGather d s)) ∧
    (∀ peer path seq, Steps (execPacketRetransmit peer path seq s)) := by
  dsimp -zeta only [execHostMemoryReply, execWellheadSlotService, execScrubRead, execFreezeTelemetryReport, execLinkReplayReport,
    execRegisterEccError, execFlushMarkerFlit, execFlushMarkerGather, execPacketRetransmit]
  refine ⟨?_, ?_, ?_, ?_, ?_, ?_, ?_, ?_, ?_⟩
  all_goals
    intros
    repeat' first | with_reducible exact steps_next _ | extract_lets | split

theorem kernelEnd_steps (c : CoreId) (pos : KPos) : Steps (execKernelEnd c pos s) := by
  unfold execKernelEnd
  split
  · exact steps_next _
  · split
    · exact steps_next _
    · split
      extract_lets _ e
      clear_value e
      repeat' first | with_reducible exact steps_next _ | extract_lets | split

theorem fabricPacketReceive_steps (k : Packet) : Steps (execFabricPacketReceive k s) := by
  unfold execFabricPacketReceive
  split
  · exact steps_next _
  · cases k.msg
    case ack | unsupported => exact steps_next _
    all_goals
      dsimp only
      split <;> exact steps_next _
end

/-- Every meaning answers a next state: most at once, the others in each of their cases. -/
theorem exec_steps (i : Instr) (s : State) : Steps (exec i s) := by
  cases i
  case exit | yield | spawn | sync | view | viewDrop => simp only [exec, tasks_step]
  case meet | minit | mread | mfree | waitge | waitaddr | wake | qpop | qpush | qclose | launch => simp only [exec, meetings_step]
  case csrr | snapsave | snapload | dbrd | dbwr | untag => simp only [exec, system_step]
  case xbegin | xstore | xcommit | xabort | xstoreStage | transactionDecision | transactionApply | transactionTimeout | decisionQuery =>
    simp only [exec, transactions_step]
  case remoteAtomicMessage | commandIssue | engineElementAccess | wellheadScatterAdd | commandCompletion | acqCommandTimeout =>
    simp only [exec, engines_step]
  case taskPickup | monitorReread | userInterruptDelivery | fetchFault | childMerge | poisonedMerge | launchAdmission | quantumEnd
       | swapIn | swapOut => simp only [exec, placer_step]
  case hostMemoryReply | wellheadSlotService | scrubRead | freezeTelemetryReport | linkReplayReport | registerEccError
       | flushMarkerFlit | flushMarkerGather | packetRetransmit => simp only [exec, mesh_step]
  case kernelEnd c pos => exact kernelEnd_steps s c pos
  case fabricPacketReceive k => exact fabricPacketReceive_steps s k
  all_goals exact ⟨_, rfl, trivial⟩

theorem step_steps (s : State) : Steps (step s) := by
  unfold step
  split
  extract_lets
  split
  · extract_lets
    split
    · exact steps_next _
    · exact steps_next _
    · exact exec_steps ..
  · split
    · exact exec_steps ..
    · exact steps_next _
  · exact steps_next _
  · exact steps_next _

end Sys2Proof.Machine
end

section
open Sys2Proof Sys2Proof.Machine

/-- Settles O6: a step takes a turn of a core, an event or a change of a TLB, and every meaning answers a next state. -/
theorem Sys2Proof.stepAlwaysNext : Obligations.StepAlwaysNext := fun s => step_steps s

end

section
/-! PROOF. A control core's turn. -/

namespace Sys2Proof.Machine

/-- A core with no trap, notification or breakpoint due runs the instruction that it fetches. -/
theorem State.move_instr {s : State} {c : CoreId} {i : Instr} (htrap : s.trapDue c = false) (hnotif : s.notifDue c = none)
    (hready : s.ready c = true) (hbreak : s.breakDue c = none) (hfetch : s.fetched c = .instr i) : s.move c = .run i := by
  simp [State.move, htrap, hnotif, hready, hbreak, hfetch]

theorem State.nextTurn_agenda {s : State} {t : Turn} {rest : List Turn} (h : s.agenda = t :: rest) :
    s.nextTurn = (t, { s with agenda := rest }) := by
  rw [State.nextTurn, h]

/-- A control turn runs what its core moves to do. -/
theorem step_control_run {s : State} {c : CoreId} {rest : List Turn} {i : Instr} (hagenda : s.agenda = .control c :: rest)
    (hmove : State.move { ({ s with agenda := rest } : State).passTime with active := c } c = .run i) :
    step s = exec i (State.begin_ { ({ s with agenda := rest } : State).passTime with active := c } i) := by
  unfold step
  rw [State.nextTurn_agenda hagenda]
  dsimp only
  rw [hmove]

end Sys2Proof.Machine
end

section
open Sys2Proof Sys2Proof.Machine

/-- Settles O5: with nothing due before it the core's move is to run the instruction at its pc. -/
theorem Sys2Proof.stepRunsDecoded : Obligations.StepRunsDecoded := by
  unfold Obligations.StepRunsDecoded
  intro s c rest i hagenda s' htrap hnotif hready hbreak hfetch
  exact step_control_run hagenda (State.move_instr htrap hnotif hready hbreak hfetch)

/-- Settles O1: each word is decoded by evaluation. -/
theorem Sys2Proof.writtenWordsDecode : Obligations.WrittenWordsDecode := by
  unfold Obligations.WrittenWordsDecode
  decide

end

section
/-! PROOF. Traps at a core's turn: asynchronous ones, words that are no instruction and fetches that fail (R85, R105, R356 to R359, R377). -/

namespace Sys2Proof.Machine

/-- csr.tcause holds the cause in its low byte and ASYNC above it (R356). -/
theorem causeWord_async (cause sub : Byte) (noSnap : Bool) (entry : BitVec 6) :
    (causeWord cause sub true noSnap entry).extractLsb' 0 8 = cause ∧ (causeWord cause sub true noSnap entry).getLsbD 8 = true := by
  constructor
  · refine BitVec.eq_of_getLsbD_eq fun j hj => ?_
    have hlow : j < 9 ∧ j < 16 ∧ j < 24 ∧ j < 64 := by omega
    have hbit : (256#64).getLsbD j = false := (by decide : ∀ j < 8, (256#64).getLsbD j = false) j hj
    simp [causeWord, zext, hj, hlow, -BitVec.getLsbD_eq_getElem, hbit]
  · simp [causeWord, zext]

/-- Entering a trap where a handler is set writes the trap registers and no more. -/
theorem State.enterTrap_handled (s : State) (c : CoreId) (cause epc val val2 rec_ : DWord) (h : (s.core c).tvec ≠ 0) :
    s.enterTrap c cause epc val val2 rec_ = s.modCore c fun k =>
      { k with tepc := epc, tcause := cause, tval := val, tval2 := val2, trec := rec_
               sys := true, idle := k.running.isNone, pc := k.tvec } := by
  have hb : ((s.core c).tvec == 0) = false := beq_false_of_ne h
  unfold State.enterTrap
  simp only [State.core_modCore, if_pos, hb, Bool.false_eq_true, if_false]

/-- The oldest pending trap is taken with the pc of the task, or with 0 on an idle core; BREAK sets SKIP. -/
theorem State.core_takePending {s : State} {c : CoreId} {x : Trap} {xs : List Trap} (hp : (s.core c).pending = x :: xs)
    (htvec : (s.core c).tvec ≠ 0) : (s.takePending c).core c = { s.core c with
      pending := xs, skip := (s.core c).skip || x.cause == cBreak, tepc := if (s.core c).running.isSome then (s.core c).pc else 0
      tcause := causeWord x.cause x.sub true x.noSnap x.entry, tval := x.val, tval2 := x.val2, trec := zext x.task
      sys := true, idle := (s.core c).running.isNone, pc := (s.core c).tvec } ∧ OnlyCore c s (s.takePending c) := by
  unfold State.takePending
  dsimp only
  rw [hp]
  dsimp only
  rw [State.enterTrap_handled _ _ _ _ _ _ _ (by simpa using htvec)]
  exact ⟨by simp, fun d hd => by simp [Ne.symm hd], rfl⟩

/-- A fault of core `c`, whichever core is active. -/
theorem State.trappedOn_asCore_faultNow (s : State) (c : CoreId) (cause : Byte) (val : DWord) (hsys : (s.core c).sys = false)
    (htvec : (s.core c).tvec ≠ 0) :
    s.TrappedOn c (zext cause) (s.core c).pc val (s.asCore c fun s => s.faultNow cause val) := by
  have ht := State.trapped_faultNow { s with active := c } cause val ⟨hsys, htvec⟩
  obtain ⟨hcore, hothers, hrest⟩ := ht
  refine ⟨hcore, hothers, ?_⟩
  exact congrArg (fun t : State => { t with active := s.active }) hrest

end Sys2Proof.Machine
end

section
open Sys2Proof Sys2Proof.Machine

/-- Settles O30: a pending trap enters the trap with its own cause and values, and the other two are faults of the core whose turn it is. -/
theorem Sys2Proof.turnTraps : Obligations.TurnTraps := by
  unfold Obligations.TurnTraps
  refine ⟨fun s c x xs hdue hpending htvec => ?_, fun s c hready hsys htvec => ⟨fun w hw => ?_, fun e he => ?_⟩⟩
  · obtain ⟨hcore, honly⟩ := State.core_takePending hpending htvec
    obtain ⟨hcause, hasync⟩ := causeWord_async x.cause x.sub x.noSnap x.entry
    refine ⟨s.takePending c, congrArg Host.Outcome.next (if_pos hdue), ?_⟩
    dsimp only
    rw [hcore]
    exact ⟨rfl, rfl, rfl, rfl, hcause, hasync, rfl, rfl, rfl, rfl, rfl, honly⟩
  · refine ⟨_, ?_, s.trappedOn_asCore_faultNow c cIllegal (w.setWidth 64) hsys htvec⟩
    simp [exec, execIllegalInstruction, hready, hw, zext]
  · refine ⟨_, ?_, s.trappedOn_asCore_faultNow c e.cause e.val hsys htvec⟩
    simp [exec, execFetchFault, hready, he, State.refuse]

end

section
/-! PROOF. Stream commands enter the dependency table (R88, R89, R254, R305, R309, R338). -/

namespace Sys2Proof.Machine

/-- A command's meaning is to enter the table with its header and with the address words and the counter field that it has. -/
theorem exec_command {i : Instr} {w : Word × Word × Word × Word} (s : State) (h : encodeCommand i = some w) :
    ∃ a1 a2 ctr, exec i s = .next (s.enter i (cmdHeader i) a1 a2 ctr) ∧ (∀ a, (addressWords i).1[0]? = some a → a1 = a) ∧
      (∀ a, (addressWords i).1[1]? = some a → a2 = a) ∧ ∀ n ∈ (addressWords i).2, ctr = n := by
  cases i <;> cases h
  all_goals exact ⟨_, _, _, rfl, by simp [addressWords], by simp [addressWords], by simp [addressWords]⟩

/-! ### The lowest free entry (R254) -/

theorem freeEntry_full {table : List Cmd} (h : ∀ e : BitVec 6, ∃ c ∈ table, c.entry = e) : freeEntry table = none := by
  rw [freeEntry, List.find?_eq_none]
  intro e _
  simpa using h e

theorem freeEntry_lowest {table : List Cmd} {e : BitVec 6} (hfree : ∀ c ∈ table, c.entry ≠ e)
    (hlow : ∀ e' : BitVec 6, e'.toNat < e.toNat → ∃ c ∈ table, c.entry = e') : freeEntry table = some e := by
  have hfind : (List.range 64).find? (fun n => !table.any fun c => c.entry == BitVec.ofNat 6 n) = some e.toNat := by
    rw [List.find?_range_eq_some]
    refine ⟨by simpa using hfree, by simpa using e.isLt, fun j hj => ?_⟩
    obtain ⟨c, hc, he⟩ := hlow (BitVec.ofNat 6 j) (by simp; omega)
    simpa using ⟨c, hc, he⟩
  rw [freeEntry, List.find?_map]
  simp only [Function.comp_def, hfind, Option.map_some, BitVec.ofNat_toNat, BitVec.setWidth_eq]

/-! ### What entering does -/

section
variable {s : State} {i : Instr} {h : CmdHdr} {a1 a2 : Word} {ctr : BitVec 15}

theorem State.enter_handler (hacq : acquires h.order = true) (hh : s.cur.inHandler = true) :
    s.enter i h a1 a2 ctr = s.illegalCmd i := by
  simp [State.enter, hacq, hh]

theorem State.enter_full (hacq : acquires h.order = false ∨ s.cur.inHandler = false) (hfull : freeEntry s.cur.table = none) :
    s.enter i h a1 a2 ctr = s := by
  have hpass : (acquires h.order && s.cur.inHandler) = false := Bool.and_eq_false_iff.2 hacq
  simp [State.enter, hpass, hfull]

theorem State.enter_free {e : BitVec 6} (hacq : acquires h.order = false ∨ s.cur.inHandler = false) (hfree : freeEntry s.cur.table = some e) :
    s.Became s.active { s.cur with
      table := s.cur.table ++ [newCmd e i s.cur.pc (s.cur.running.getD 0) s.cur.wid (s.launchOf s.active) (s.addrOperand a1)
        (s.addrOperand a2) (s.ctrOperand ctr)]
      pc := s.cur.pc + 16
      hold := if acquires h.order = true ∧ s.cur.sys = false then some e else s.cur.hold
      holdSys := if acquires h.order = true ∧ s.cur.sys = true then some e else s.cur.holdSys } (s.enter i h a1 a2 ctr) := by
  have hpass : (acquires h.order && s.cur.inHandler) = false := Bool.and_eq_false_iff.2 hacq
  unfold State.enter
  simp only [hpass, Bool.false_eq_true, if_false, hfree]
  refine ⟨?_, fun d hd => by simp [State.modCur, Ne.symm hd], rfl⟩
  simp only [State.modCur, State.core_modCore, if_pos, Bool.and_eq_true, Bool.not_eq_true']
  rfl
end

end Sys2Proof.Machine
end

section
open Sys2Proof Sys2Proof.Machine

/-- Settles O43: a command's meaning is to enter the table, which stops at a user handler, waits at a full table and else takes the lowest
free entry. -/
theorem Sys2Proof.commandsEnter : Obligations.CommandsEnter := by
  unfold Obligations.CommandsEnter
  intro s i w0 w1 w2 w3 henc acq
  obtain ⟨a1, a2, ctr, hexec, haddr1, haddr2, hctr⟩ := exec_command s henc
  rw [hexec]
  refine ⟨fun hacq hh hcan => ?_, fun hpass => ⟨fun hfull => ?_, fun e hfree hlow => ?_⟩⟩
  · rw [State.enter_handler hacq hh, State.illegalCmd, henc]
    exact answers_next (s.trapped_faultNow cIllegal _ hcan)
  · rw [State.enter_full hpass (freeEntry_full hfull)]
  · refine answers_next ⟨_, State.enter_free hpass (freeEntry_lowest hfree hlow), rfl, rfl, rfl, rfl, rfl, rfl, rfl, rfl, rfl, ?_, ?_, ?_⟩
    · exact fun a ha => haddr1 a ha ▸ rfl
    · exact fun a ha => haddr2 a ha ▸ rfl
    · exact fun n hn => hctr n hn ▸ rfl

end

section
/-! PROOF. A slot operation whose results all come later: it gives them to the clusters whose guard is true, and does nothing at its issue
(R48, R95, R129, R131, R237). -/

namespace Sys2Proof.Machine

/-! ### What it gives -/

/-- The results `ws` of each cluster whose guard is true, and its arrival, `lat` kc after the issue. -/
def Ctx.results (x : Ctx) (lat : Nat) (ws : ClusterId → List RegWrite) : List Eff :=
  allClusters.flatMap fun c => if x.on c then ((ws c).map fun w => { lat := lat, cluster := c, what := w }) ++ x.arrival lat c else []

/-- Where every cluster acts and none faults, what they do is joined in order. -/
theorem joinClusters_effs {f : ClusterId → SlotResult} {es : ClusterId → List Eff} (h : ∀ c, f c = .ok { effs := es c }) (cs : List ClusterId) :
    joinClusters f cs = .ok { effs := cs.flatMap es } := by
  induction cs with
  | nil => rfl
  | cons c cs ih =>
    rw [joinClusters, h, ih]
    rfl

theorem Ctx.guarded_results (x : Ctx) (lat : Nat) (ws : ClusterId → Cluster → List RegWrite) :
    x.guarded lat (fun c k => .ok { effs := (ws c k).map fun w => { lat := lat, cluster := c, what := w } }) =
      .ok { effs := x.results lat fun c => ws c (x.cluster c) } := by
  refine joinClusters_effs (fun c => ?_) _
  cases x.on c <;> rfl

theorem mem_allClusters (c : ClusterId) : c ∈ allClusters := by
  revert c; decide

theorem Ctx.mem_results {x : Ctx} {lat : Nat} {ws : ClusterId → List RegWrite} {e : Eff} : e ∈ x.results lat ws ↔ ∃ c, x.on c = true ∧
    ((∃ w ∈ ws c, e = { lat := lat, cluster := c, what := w }) ∨
      ∃ n, x.h.arrive = some n ∧ e = { lat := lat, cluster := c, what := .nothing, arrive := some n }) := by
  have harr (c : ClusterId) : e ∈ x.arrival lat c ↔
      ∃ n, x.h.arrive = some n ∧ e = { lat := lat, cluster := c, what := .nothing, arrive := some n } := by
    unfold Ctx.arrival
    cases x.h.arrive <;> simp
  simp only [Ctx.results, List.mem_flatMap, mem_allClusters, true_and, List.mem_ite_nil_right, List.mem_append, List.mem_map, harr,
    @eq_comm _ _ e]

theorem Ctx.results_lat {x : Ctx} {lat : Nat} {ws : ClusterId → List RegWrite} : ∀ e ∈ x.results lat ws, e.lat = lat := by
  intro e he
  obtain ⟨c, -, ⟨w, -, rfl⟩ | ⟨n, -, rfl⟩⟩ := Ctx.mem_results.1 he <;> rfl

/-! ### What it leaves at its issue -/

/-- The bundle that gives results later and does nothing at its issue. -/
def Issue.later (es : List Eff) : Issue := { effs := es }

theorem Issue.later_effs (es : List Eff) : (Issue.later es).effs = es := rfl

theorem Issue.later_alone (es : List Eff) (h : SlotHdr) : (Issue.later es).alone h = .later (es.map fun e => { e with slot := h.slot.num }) :=
  congrArg Issue.later (List.append_nil _)

section
variable {k : CoreSt} {r : KernelRun} {es : List Eff}

theorem CoreSt.atIssue_later_clusters (pos : KPos) : (k.atIssue pos (.later es)).clusters = k.clusters := rfl

theorem CoreSt.steered_later_fst (hloops : r.loops = []) : (k.begun.steered .primary (.later es) r).1 = k.begun.atIssue .primary (.later es) := by
  show (loopBack r.idx _ _ r.loops).1 = _
  rw [hloops]
  rfl

variable (h : k.Issues r)
include h

theorem CoreSt.Issues.issued_later_clusters (hloops : r.loops = []) (hlate : ∀ e ∈ es, e.lat ≠ 0) :
    (k.issued (.later es)).clusters = k.clusters := by
  rw [issued_eq, h.commit_begun]
  show (CoreSt.arriveNow _ _ es).clusters = _
  rw [arriveNow_late _ _ hlate, setRun_clusters, steered_later_fst hloops, atIssue_later_clusters]
  rfl

/-- It ends no kernel, in a loop or not. -/
theorem CoreSt.Issues.issued_later_going {r' : KernelRun} (hrun : (k.issued (.later es)).run .primary = some r') : r'.ending = none := by
  obtain ⟨b, hb, -⟩ := h.issued_run_eq (.later es)
  obtain rfl := Option.some.inj (hb.symm.trans hrun)
  have hlaunched := loopBack_snd r.idx (k.begun.atIssue .primary (.later es))
    (r.launched (k.begun.atIssue .primary (.later es)).eng (.later es)) r.loops
  obtain ⟨-, -, -, hend⟩ := hlaunched
  exact hend.trans h.not_ended

theorem CoreSt.Issues.issued_later_barriers (hlate : ∀ e ∈ es, e.lat ≠ 0) : (k.issued (.later es)).SameBarriers k := by
  have hbar := h.issued_barriers (.later es)
  rw [Issue.later_effs, arriveNow_late _ _ hlate] at hbar
  exact hbar
end

/-- An operation that gives results later and does nothing else: `Gives`. -/
theorem State.gives {s : State} {i : Instr} {h : SlotHdr} {f : Ctx → SlotResult} {r : KernelRun} {lat : Nat} {ws : ClusterId → List RegWrite}
    (hi : slotSem i = some (h, f)) (hr : s.Issues r) (hlat : lat ≠ 0) (hf : f (s.slotCtx r h) = .ok { effs := (s.slotCtx r h).results lat ws }) :
    Answers (exec i s) (s.Gives r h (s.guardOn h) lat ws) := by
  let es := (s.slotCtx r h).results lat ws
  let es' := es.map fun e => { e with slot := h.slot.num }
  have hlate : ∀ e ∈ es', e.lat ≠ 0 := List.forall_mem_map.2 fun e he => Ctx.results_lat e he ▸ hlat
  rw [State.exec_alone (x := .later es) hi hr hf (fun _ hn => nomatch hn) (fun _ _ hc => nomatch hc), Issue.later_alone]
  show Answers (.next (s.setCore s.active (s.cur.issued (.later es')))) _
  have hcur : (s.setCore s.active (s.cur.issued (.later es'))).cur = s.cur.issued (.later es') := by simp [State.cur]
  obtain ⟨r', hrun, hcycle, hkc, hfar, hin, -, hplain⟩ := CoreSt.Issues.issued_run (.later es') hr
  have hcontrol : (s.cur.issued (.later es')).control = s.cur.control := CoreSt.Issues.issued_control _ hr
  obtain ⟨hkb, hsem⟩ := CoreSt.Issues.issued_later_barriers hr hlate
  have harrived : s.arrivedAt h lat = s.cur := by
    cases lat
    · exact absurd rfl hlat
    · rfl
  refine answers_next ⟨⟨?_, ?_, ?_, r', ?_, hkc, CoreSt.Issues.issued_later_going hr hrun, ?_, ?_, ?_⟩, ?_⟩
  · rw [harrived]
    refine ⟨⟨fun c hc => by simp [Ne.symm hc], rfl⟩, ?_⟩
    rw [hcur]
    exact ⟨congrArg (·.g) hcontrol, congrArg (·.shadowG) hcontrol, congrArg (·.pc) hcontrol, hsem, hkb, congrArg (·.table) hcontrol,
      congrArg (·.handles) hcontrol⟩
  · rw [hcur]
    exact CoreSt.Issues.issued_cistern _ hr rfl
  · rw [hcur]
    exact hcycle
  · rw [hcur]
    exact hrun
  · rw [hfar]
    exact List.append_nil _
  · exact fun hloops => (hplain hloops rfl).1
  · intro g
    rw [hin, Issue.later_effs, List.filter_eq_self.2 (by simpa using hlate), List.map_map, List.mem_append, List.mem_map]
    refine or_congr_right ⟨?_, ?_⟩
    · rintro ⟨e, he, rfl⟩
      obtain ⟨c, hc, ⟨w, hw, rfl⟩ | ⟨n, hn, rfl⟩⟩ := Ctx.mem_results.1 he
      · exact ⟨c, hc, .inl ⟨w, hw, rfl⟩⟩
      · exact ⟨c, hc, .inr ⟨n, hlat, hn, rfl⟩⟩
    · rintro ⟨c, hc, ⟨w, hw, rfl⟩ | ⟨n, -, hn, rfl⟩⟩
      · exact ⟨_, Ctx.mem_results.2 ⟨c, hc, .inl ⟨w, hw, rfl⟩⟩, rfl⟩
      · exact ⟨_, Ctx.mem_results.2 ⟨c, hc, .inr ⟨n, hn, rfl⟩⟩, rfl⟩
  · intro hloops
    rw [hcur]
    exact CoreSt.Issues.issued_later_clusters hr hloops hlate

end Sys2Proof.Machine
end

section
/-! PROOF. The scalar and predicate operations of slots A, B and H (R95, R97, R131, R139, R140, R146, R147, R173). -/

namespace Sys2Proof.Machine

/-! ### Their results in the words of the spec -/

section
variable (x y : DWord)

theorem minS_eq : minS x y = BitVec.ofInt 64 (min x.toInt y.toInt) := by
  unfold minS
  rw [BitVec.slt_eq_decide]
  by_cases hlt : x.toInt < y.toInt
  · simp [hlt, min_eq_left hlt.le]
  · simp [hlt, min_eq_right (not_lt.1 hlt)]

theorem maxS_eq : maxS x y = BitVec.ofInt 64 (max x.toInt y.toInt) := by
  unfold maxS
  rw [BitVec.slt_eq_decide]
  by_cases hlt : x.toInt < y.toInt
  · simp [hlt, max_eq_right hlt.le]
  · simp [hlt, max_eq_left (not_lt.1 hlt)]

theorem minU_eq : minU x y = BitVec.ofNat 64 (min x.toNat y.toNat) := by
  unfold minU
  rw [BitVec.ult_eq_decide]
  by_cases hlt : x.toNat < y.toNat
  · simp [hlt, min_eq_left hlt.le]
  · simp [hlt, min_eq_right (not_lt.1 hlt)]

theorem maxU_eq : maxU x y = BitVec.ofNat 64 (max x.toNat y.toNat) := by
  unfold maxU
  rw [BitVec.ult_eq_decide]
  by_cases hlt : x.toNat < y.toNat
  · simp [hlt, max_eq_right hlt.le]
  · simp [hlt, max_eq_left (not_lt.1 hlt)]

theorem mul_eq_ofInt : x * y = BitVec.ofInt 64 (x.toInt * y.toInt) := by
  rw [BitVec.ofInt_mul, BitVec.ofInt_toInt, BitVec.ofInt_toInt]

/-- An immediate count is below 64. -/
theorem toNat_zext_count (n : BitVec 6) : (zext n).toNat % 64 = n.toNat := by
  simp [zext]
  omega

/-- Each condition code is its comparison (R97). -/
theorem condition_eq (cc : BitVec 3) : condition cc x y = match cc with
    | 0#3 => decide (x = y)
    | 1#3 => decide (x ≠ y)
    | 2#3 => decide (x.toInt < y.toInt)
    | 3#3 => decide (y.toInt ≤ x.toInt)
    | 4#3 => decide (y.toInt < x.toInt)
    | 5#3 => decide (x.toInt ≤ y.toInt)
    | 6#3 => decide (x.toNat < y.toNat)
    | _ => decide (y.toNat ≤ x.toNat) := by
  unfold condition
  split <;> simp only [BitVec.slt_eq_decide, BitVec.ult_eq_decide, bne, beq_eq_decide, ← decide_not, not_lt, ne_eq]
end

/-! ### What they give -/

section
variable {s : State} {i : Instr} {h : SlotHdr} {r : KernelRun} (hr : s.Issues r)
include hr

/-- A result written in each guarded cluster one kc later. -/
theorem State.gives_config {ws : ClusterId → Cluster → List RegWrite} (hi : slotSem i = some (h, fun x => x.config ws)) :
    Answers (exec i s) (s.Gives r h (s.guardOn h) 1 fun c => ws c (s.cluster c)) :=
  State.gives hi hr Nat.one_ne_zero (Ctx.guarded_results _ 1 ws)

/-- A scalar result one kc later. -/
theorem State.gives_scalar {d : BitVec 5} {v : ClusterId → Cluster → DWord} (hi : slotSem i = some (h, fun x => x.scalar d v)) :
    Answers (exec i s) (s.Gives r h (s.guardOn h) 1 fun c => [.scalar d (v c (s.cluster c))]) :=
  State.gives hi hr Nat.one_ne_zero (Ctx.guarded_results _ 1 fun c k => [.scalar d (v c k)])

/-- One predicate one kc later. -/
theorem State.gives_pred {op : Bool → Bool → Bool} {pd pa pb : BitVec 4} (hi : slotSem i = some (h, slotPred op pd pa pb)) :
    Answers (exec i s) (s.Gives r h (s.guardOn h) 1 fun c => [.pred pd (op ((s.cluster c).pred pa) ((s.cluster c).pred pb))]) :=
  State.gives hi hr Nat.one_ne_zero (Ctx.guarded_results _ 1 fun _ k => [.pred pd (op (k.pred pa) (k.pred pb))])

/-- A comparison's pair of predicates one kc later. -/
theorem State.gives_pair {n : BitVec 3} {v : Cluster → Bool}
    (hi : slotSem i = some (h, fun x => x.guarded 1 fun c k => .ok { effs := predPair n c (v k) })) :
    Answers (exec i s) (s.Gives r h (s.guardOn h) 1 fun c =>
      [.pred (n ++ (0 : BitVec 1)) (v (s.cluster c)), .pred (n ++ (1 : BitVec 1)) (!v (s.cluster c))]) :=
  State.gives hi hr Nat.one_ne_zero (Ctx.guarded_results _ 1 fun _ k => [.pred (n ++ (0 : BitVec 1)) (v k), .pred (n ++ (1 : BitVec 1)) (!v k)])
end

end Sys2Proof.Machine
end

section
open Sys2Proof Sys2Proof.Machine

/-- Settles O46: each operation's meaning is one scalar result in each guarded cluster, and the result is the spec's. -/
theorem Sys2Proof.scalarSlotResults : Obligations.ScalarSlotResults := by
  unfold Obligations.ScalarSlotResults
  intro s r h d a b imm n k hr gives
  have scalar {i : Instr} {v : Cluster → DWord} (hi : slotSem i = some (h, fun x => x.scalar d fun _ k => v k)) : gives i v :=
    State.gives_scalar hr hi
  have config {i : Instr} {v : Cluster → DWord} (hi : slotSem i = some (h, fun x => x.config fun _ k => [.scalar d (v k)])) : gives i v :=
    State.gives_config hr hi
  have wfield : gives (.wfield h d k) fun _ => BitVec.ofNat 64 (workField r.widths r.wid k.toNat) :=
    State.gives (f := slotWfield d k) rfl hr Nat.one_ne_zero (Ctx.guarded_results (s.slotCtx r h) 1 fun _ _ => [.scalar d _])
  clear_value gives
  simp only [← minS_eq, ← maxS_eq, ← minU_eq, ← maxU_eq, ← mul_eq_ofInt, ← toNat_zext_count]
  exact ⟨scalar rfl, scalar rfl, scalar rfl, scalar rfl, scalar rfl, scalar rfl, scalar rfl, scalar rfl, scalar rfl, scalar rfl, scalar rfl,
    scalar rfl, scalar rfl, scalar rfl, scalar rfl, scalar rfl, scalar rfl, scalar rfl, scalar rfl, scalar rfl, scalar rfl, scalar rfl,
    scalar rfl, scalar rfl, wfield, config rfl, config rfl⟩

/-- Settles O47: each operation's meaning is its predicate or its pair in each guarded cluster. -/
theorem Sys2Proof.predicateSlotResults : Obligations.PredicateSlotResults := by
  unfold Obligations.PredicateSlotResults
  intro s r h pd pa pb cc n a b imm hr gives holds pair
  have hholds : holds = condition cc := funext fun x => funext fun y => (condition_eq x y cc).symm
  have pred {i : Instr} {op : Bool → Bool → Bool} (hi : slotSem i = some (h, slotPred op pd pa pb)) :
      gives i fun k => [.pred pd (op (k.pred pa) (k.pred pb))] := State.gives_pred hr hi
  have compare {i : Instr} {v : Cluster → Bool} (hi : slotSem i = some (h, fun x => x.guarded 1 fun c k => .ok { effs := predPair n c (v k) })) :
      gives i fun k => pair (v k) := State.gives_pair hr hi
  clear_value gives
  rw [hholds]
  exact ⟨pred (op := fun x y => x && y) rfl, pred (op := fun x y => x || y) rfl, pred (op := fun x y => x != y) rfl,
    pred (op := fun x y => x && !y) rfl, compare (v := fun k => condition cc (k.a.read a) (k.a.read b)) rfl,
    compare (v := fun k => condition cc (k.a.read a) (immValue imm)) rfl⟩

end

section
/-! PROOF. Register-register, immediate and constant-building instructions of the control core (R106 to R113). -/

namespace Sys2Proof.Machine

/-! ### Results in the words of the spec -/

theorem boolWord_decide (p : Prop) [Decidable p] : boolWord (decide p) = if p then 1 else 0 := by
  simp [boolWord]

theorem boolWord_slt (x y : DWord) : boolWord (x.slt y) = if x.toInt < y.toInt then 1 else 0 := by
  rw [BitVec.slt_eq_decide, boolWord_decide]

theorem boolWord_ult (x y : DWord) : boolWord (x.ult y) = if x.toNat < y.toNat then 1 else 0 := by
  rw [BitVec.ult_eq_decide, boolWord_decide]

/-- A sign extension keeps the number (R27). -/
theorem toInt_sext (imm : BitVec 16) : (sext imm).toInt = imm.toInt := BitVec.toInt_signExtend_of_le (by decide)

/-- The remainder is what the truncated quotient leaves of the dividend (R110). -/
theorem remS_eq (x y : DWord) : remS x y = if y = 0 then x else BitVec.ofInt 64 (x.toInt - y.toInt * x.toInt.tdiv y.toInt) := by
  rw [remS, Int.tmod_def]

theorem divU_eq (x y : DWord) : divU x y = if y = 0 then -1 else BitVec.ofNat 64 (x.toNat / y.toNat) := by
  rw [divU, BitVec.udiv_def]

theorem remU_eq (x y : DWord) : remU x y = if y = 0 then x else BitVec.ofNat 64 (x.toNat % y.toNat) := by
  rw [remU, BitVec.umod_def]

/-- The low 48 bits above an immediate are the register shifted past it (R113). -/
theorem shori_eq (x : DWord) (imm : BitVec 16) : x.extractLsb' 0 48 ++ imm = (x <<< 16) ||| imm.setWidth 64 := by
  ext i hi
  rw [BitVec.getElem_append, BitVec.getElem_or, BitVec.getElem_shiftLeft, BitVec.getElem_setWidth]
  by_cases h : i < 16
  · simp [h]
  · simp [h, BitVec.getLsbD_of_ge imm i (not_lt.1 h), BitVec.getLsbD_eq_getElem (show i - 16 < 64 by omega)]

/-! ### What they answer -/

theorem result_answers {s : State} {i : Instr} {d : BitVec 5} {x : DWord} (h : exec i s = .next (s.result d x)) :
    Answers (exec i s) (s.Wrote d x) := ⟨_, h, s.wrote_result d x⟩

end Sys2Proof.Machine
end

section
open Sys2Proof.Machine

/-- Settles O10: the statement's results are the words of the model's functions, and each instruction writes its own to gd. -/
theorem Sys2Proof.registerResults : Obligations.RegisterResults := by
  intro s d a b
  simp only [← boolWord_slt, ← boolWord_ult, ← minS_eq, ← maxS_eq, ← minU_eq, ← maxU_eq, ← mul_eq_ofInt]
  and_intros
  all_goals exact result_answers rfl

/-- Settles O11: the four results by their equations, and the overflow, the most negative word by -1, computed. -/
theorem Sys2Proof.divisionResults : Obligations.DivisionResults := by
  intro s d a b x y
  have quotient : Answers (exec (.div d a b) s) (s.Wrote d (divS x y)) := result_answers rfl
  have remainder : Answers (exec (.rem d a b) s) (s.Wrote d (remS x y)) := result_answers rfl
  rw [← remS_eq, ← divU_eq, ← remU_eq]
  refine ⟨quotient, remainder, result_answers rfl, result_answers rfl, fun hx hy => ?_⟩
  have hdiv : divS x y = 0x8000000000000000 := by
    rw [hx, hy]
    decide
  have hrem : remS x y = 0 := by
    rw [hx, hy]
    decide
  exact ⟨hdiv ▸ quotient, hrem ▸ remainder⟩

/-- Settles O12: the immediate operations are those on registers with the immediate extended. -/
theorem Sys2Proof.immediateResults : Obligations.ImmediateResults := by
  intro s d a imm n
  simp only [← toInt_sext, ← boolWord_slt, ← boolWord_ult, ← shori_eq, ← toNat_zext_count n]
  and_intros
  all_goals exact result_answers rfl

end

section
/-! PROOF. Branches and jumps (R122 to R124). -/

namespace Sys2Proof.Machine

/-- An address has a bit above its 48 exactly when it lies outside the address space (R29). -/
theorem outside_iff (x : DWord) : (x.extractLsb' 48 16 != 0) = true ↔ 2 ^ 48 ≤ x.toNat := by
  simp only [bne_iff_ne, ne_eq, ← BitVec.toNat_inj, BitVec.extractLsb'_toNat, Nat.shiftRight_eq_div_pow, BitVec.ofNat_eq_ofNat, BitVec.toNat_zero]
  omega

theorem inside_iff (x : DWord) : (x.extractLsb' 48 16 != 0) = false ↔ x.toNat < 2 ^ 48 := by
  rw [← Bool.not_eq_true, outside_iff, not_le]

theorem unaligned_iff (x : DWord) : (x.extractLsb' 0 2 != 0) = true ↔ x.toNat % 4 ≠ 0 := by
  simp only [bne_iff_ne, ne_eq, ← BitVec.toNat_inj, BitVec.extractLsb'_toNat, Nat.shiftRight_zero, BitVec.ofNat_eq_ofNat, BitVec.toNat_zero]

/-! ### What a jump does -/

section
variable {s : State} {x : DWord}

theorem State.jump_outside (link : Option (BitVec 5)) (align : Bool) (h : 2 ^ 48 ≤ x.toNat) : s.jump x link align = s.faultNow cAddress x :=
  if_pos ((outside_iff x).2 h)

theorem State.jump_plain (h : x.toNat < 2 ^ 48) : s.jump x none = s.setPc x := by
  unfold State.jump
  rw [(inside_iff x).2 h]
  rfl

theorem State.jump_linked {d : BitVec 5} {align : Bool} (h : x.toNat < 2 ^ 48) (ha : align = true → x.toNat % 4 = 0) :
    s.jump x (some d) align = (s.setG d (s.cur.pc + 4)).setPc x := by
  have hb : (align && x.extractLsb' 0 2 != 0) = false := by
    rw [Bool.and_eq_false_imp]
    exact fun e => Bool.eq_false_iff.2 fun e' => (unaligned_iff x).1 e' (ha e)
  unfold State.jump
  rw [(inside_iff x).2 h, hb]
  rfl

theorem State.jump_unaligned (link : Option (BitVec 5)) (h : x.toNat < 2 ^ 48) (ha : x.toNat % 4 ≠ 0) :
    s.jump x link true = s.faultNow cAlign x := by
  unfold State.jump
  rw [(inside_iff x).2 h, (unaligned_iff x).2 ha]
  rfl

/-- The linked register and pc are what a jump that links leaves changed. -/
theorem State.linked (s : State) (d : BitVec 5) (y x : DWord) : let t := (s.setG d y).setPc x
    t.cur.pc = x ∧ (d ≠ 0 → t.g d = y) ∧ t.g 0 = 0 ∧ (∀ r, r ≠ d → t.g r = s.g r) ∧ t.cur.sansRegs = s.cur.sansRegs ∧
      OnlyCore s.active s t := by
  intro t
  have hcur : t.cur = { s.cur.writeG d y with pc := x } := (State.cur_modCur _ _).trans (by rw [State.setG, State.cur_modCur])
  have hg (r : BitVec 5) : t.g r = (s.cur.writeG d y).readG r := by
    rw [State.g, hcur]
    rfl
  refine ⟨by rw [hcur], fun h => ?_, rfl, fun r h => ?_, by rw [hcur, CoreSt.sansRegs_writeG], fun c h => ?_, rfl⟩
  · rw [hg, CoreSt.readG_writeG, if_pos ⟨rfl, h⟩]
  · rw [hg, CoreSt.readG_writeG, if_neg fun e => h e.1]
    rfl
  · simp [t, State.setPc, State.setG, State.modCur, Ne.symm h]

/-- A conditional branch, by its condition. -/
theorem State.branched {i : Instr} {taken : Bool} {p : Prop} {off : BitVec 16} (hi : exec i s = .next (s.branch taken off))
    (ht : taken = true ↔ p) : s.Branched p off (exec i s) := by
  rw [hi, State.branch, sext]
  refine ⟨fun hp => ?_, fun hp hx => ?_, fun hp hx htrap => ?_⟩
  · rw [if_neg (mt ht.1 hp)]
    exact answers_next s.went_advance
  · rw [if_pos (ht.2 hp), State.jump_plain hx]
    exact answers_next (s.went_setPc _)
  · rw [if_pos (ht.2 hp), State.jump_outside _ _ hx]
    exact answers_next (s.trapped_faultNow _ _ htrap)

end

end Sys2Proof.Machine
end

section
open Sys2Proof Sys2Proof.Machine

/-- Settles O13: each branch is `State.branch` of its condition. -/
theorem Sys2Proof.branchResults : Obligations.BranchResults := by
  intro s a b off
  have lt : (s.g a).slt (s.g b) = true ↔ (s.g a).toInt < (s.g b).toInt := BitVec.slt_iff_toInt_lt
  have ltu : (s.g a).ult (s.g b) = true ↔ (s.g a).toNat < (s.g b).toNat := BitVec.ult_iff_lt
  refine ⟨State.branched rfl beq_iff_eq, State.branched rfl bne_iff_ne, State.branched rfl lt, State.branched rfl ?_,
    State.branched rfl ltu, State.branched rfl ?_⟩
  · rw [Bool.not_eq_true', ← Bool.not_eq_true, lt, not_lt]
  · rw [Bool.not_eq_true', ← Bool.not_eq_true, ltu, not_lt]

/-- Settles O14: both are `State.jump`, whose target is read before the link is written. -/
theorem Sys2Proof.jumpResults : Obligations.JumpResults := by
  intro s d a imm off
  have jal : exec (.jal off) s = .next (s.jump (s.cur.pc + off.signExtend 64 * 4) (some 1)) := rfl
  have jalr : exec (.jalr d a imm) s = .next (s.jump (s.g a + imm.signExtend 64 * 4) (some d) true) := rfl
  rw [jal, jalr]
  refine ⟨fun hx => ?_, fun hx htrap => ?_, fun hx htrap => ?_, fun hx => ⟨fun ha => ?_, fun ha htrap => ?_⟩⟩
  · rw [State.jump_linked (align := false) hx nofun]
    obtain ⟨hpc, hlink, -, hregs, hrest, hothers⟩ := s.linked 1 (s.cur.pc + 4) (s.cur.pc + off.signExtend 64 * 4)
    exact answers_next ⟨hpc, hlink (by decide), hregs, hrest, hothers⟩
  · rw [State.jump_outside _ _ hx]
    exact answers_next (s.trapped_faultNow _ _ htrap)
  · rw [State.jump_outside _ _ hx]
    exact answers_next (s.trapped_faultNow _ _ htrap)
  · rw [State.jump_linked hx fun _ => ha]
    exact answers_next (s.linked d _ _)
  · rw [State.jump_unaligned _ hx ha]
    exact answers_next (s.trapped_faultNow _ _ htrap)

end

section
/-! PROOF. What bytes spell, and what a write leaves to be read (R3). -/

namespace Sys2Proof.Machine

theorem bytesLE_eq (n x : Nat) : bytesLE n x = (List.range n).map fun j => BitVec.ofNat 8 (x / 256 ^ j) := by
  induction n generalizing x with
  | zero => rfl
  | succ n ih =>
    rw [List.range_succ_eq_map, List.map_cons, List.map_map, bytesLE, ih, pow_zero, Nat.div_one]
    refine congrArg _ (List.map_congr_left fun j _ => ?_)
    rw [Function.comp_apply, Nat.pow_succ', Nat.div_div_eq_div_mul]

@[simp] theorem length_bytesLE (n x : Nat) : (bytesLE n x).length = n := by
  rw [bytesLE_eq, List.length_map, List.length_range]

/-- The bytes of a register, lowest first. -/
theorem bytesLE_toNat (n : Nat) (x : DWord) : bytesLE n x.toNat = (List.range n).map fun j => (x >>> (8 * j)).setWidth 8 := by
  rw [bytesLE_eq]
  refine List.map_congr_left fun j _ => ?_
  rw [← BitVec.ofNat_toNat, BitVec.toNat_ushiftRight, Nat.shiftRight_eq_div_pow, Nat.pow_mul]

theorem getD_bytesLE_toNat (x : DWord) {n j : Nat} (h : j < n) : (bytesLE n x.toNat).getD j 0 = (x >>> (8 * j)).setWidth 8 := by
  rw [bytesLE_toNat, List.getD_eq_getElem _ _ (by simpa using h), List.getElem_map, List.getElem_range]

theorem ofBytesLE_bytesLE (n x : Nat) : ofBytesLE (bytesLE n x) = x % 256 ^ n := by
  induction n generalizing x with
  | zero => rw [pow_zero, Nat.mod_one]; rfl
  | succ n ih =>
    rw [bytesLE, ofBytesLE, ih, BitVec.toNat_ofNat, pow_succ' 256 n]
    exact Nat.mod_mul.symm

theorem ofBytesLE_lt (bs : List Byte) : ofBytesLE bs < 256 ^ bs.length := by
  induction bs with
  | nil => exact Nat.one_pos
  | cons b bs ih =>
    have hb := b.isLt
    rw [ofBytesLE, List.length_cons, Nat.pow_succ']
    omega

theorem Memory.readNat_lt (m : Memory) (a n : Nat) : m.readNat a n < 2 ^ (8 * n) := by
  rw [Nat.pow_mul]
  exact (ofBytesLE_lt _).trans_eq (by rw [Memory.length_read])

/-- The bytes just written are read back. -/
theorem Memory.read_write_same (m : Memory) (a : Nat) (bs : List Byte) : (m.write a bs).read a bs.length = bs := by
  refine List.ext_getElem (Memory.length_read ..) fun j h h' => ?_
  rw [← List.getD_eq_getElem _ 0 h, ← List.getD_eq_getElem _ 0 h', Memory.getD_read _ _ _ _ h', Memory.readByte_write, if_pos (by omega),
    Nat.add_sub_cancel_left]

/-- The number just written is read back, as far as its bytes hold it. -/
theorem Memory.readNat_write_same (m : Memory) (a n x : Nat) : (m.write a (bytesLE n x)).readNat a n = x % 2 ^ (8 * n) := by
  have h := m.read_write_same a (bytesLE n x)
  rw [length_bytesLE] at h
  rw [Memory.readNat, h, ofBytesLE_bytesLE, Nat.pow_mul]

end Sys2Proof.Machine
end

section
/-! PROOF. Accesses of a control core: the faults that they share, loads and stores (R105, R116, R117, R275, R299, R417). -/

namespace Sys2Proof.Machine

section
variable {s u : State} {i : Instr} {va : DWord} {n pa : Nat} {acc : Access} {host : Bool}

/-! ### Reaching memory -/

theorem State.reach_outside (h : 2 ^ 48 ≤ va.toNat) : s.reach va n acc host = .error ⟨cAddress, va⟩ := by
  rw [State.reach, checkAddr, if_pos ((outside_iff va).2 h)]

theorem State.reach_unaligned (h : va.toNat < 2 ^ 48) (ha : va.toNat % n ≠ 0) : s.reach va n acc host = .error ⟨cAlign, va⟩ := by
  rw [State.reach, checkAddr, if_neg (Bool.eq_false_iff.1 ((inside_iff va).2 h)), if_pos ha]

/-- What an access reaches is what its address resolves to. -/
theorem State.resolve_of_reach (h : s.reach va n acc host = .ok (pa, u)) : s.resolve s.active false va.toNat acc = .ok (pa, u) := by
  unfold State.reach at h
  split at h
  · cases h
  · split at h
    · cases h
    · rename_i e
      split at h
      · cases h
      · cases h
        exact e

/-- An access writes no more than the copy of a snapped unit. -/
theorem State.written_resolve {c : CoreId} {engine : Bool} {a : Nat} (h : s.resolve c engine a acc = .ok (pa, u)) : s.Written u := by
  unfold State.resolve at h
  dsimp only at h
  split at h
  · cases h
  · split at h
    · cases h
      exact .refl s
    · exact (State.Written.refl s).resolveIn _ h

theorem State.written_reach (h : s.reach va n acc host = .ok (pa, u)) : s.Written u := State.written_resolve (State.resolve_of_reach h)

/-- Where nothing is snapped there is no copy. -/
theorem State.resolve_unsnapped {c : CoreId} {engine : Bool} {a : Nat} (h : s.resolve c engine a acc = .ok (pa, u))
    (hs : ∀ p m, s.partOf c = some p → s.lookup p a = some m → m.snapped = false) : u = s := by
  unfold State.resolve at h
  dsimp only at h
  split at h
  · cases h
  · rename_i p hp
    split at h
    · cases h
      rfl
    · unfold State.resolveIn at h
      split at h
      · cases h
      · rename_i m hm
        rw [hs p m hp hm, Bool.false_and] at h
        split at h
        · cases h
        · cases h
          rfl

/-- The faults of an access, of an instruction that takes them as its access gives them. -/
theorem State.accessFaults (hi : ∀ e, s.reach va n acc host = .error e → exec i s = .next (s.refuse e)) :
    s.AccessFaults i va n acc host := by
  have refused (e : Refused) (he : s.reach va n acc host = .error e) (htrap : s.CanTrap) :
      Answers (exec i s) (s.Trapped e.cause s.cur.pc e.val) := ⟨_, hi e he, s.trapped_faultNow _ _ htrap⟩
  exact ⟨fun h => refused _ (State.reach_outside h), fun h ha => refused _ (State.reach_unaligned h ha), refused⟩

/-! ### Loads -/

/-- A load of host memory leaves the core waiting and sends the host a request. -/
theorem State.holdHost_cur (d : BitVec 5) : (s.holdHost pa n d va).cur = { s.cur with hostHold := some ⟨pa, n, d, va⟩ } :=
  s.cur_modCur fun k => { k with hostHold := some ⟨pa, n, d, va⟩ }

theorem State.holdHost_others (d : BitVec 5) : OnlyCore s.active s { s.holdHost pa n d va with host := s.host } :=
  s.onlyCore_setCore s.active _

theorem State.loads {d : BitVec 5} (hi : exec i s = .next (s.loadTo d va n)) : s.Loads i d va n := by
  refine ⟨State.accessFaults fun e he => by rw [hi, State.loadTo, he], fun pa u hr => ?_⟩
  rw [hi, State.loadTo, hr]
  refine ⟨fun hhost hbad htrap => ?_, fun hhost hbad => ?_, fun hhost => ?_⟩
  · simp only [hhost, hbad, Bool.false_eq_true, if_false, if_true]
    exact answers_next (s.trapped_faultNow _ _ htrap)
  · simp only [hhost, hbad, Bool.false_eq_true, if_false]
    exact answers_next (s.wrote_result d _)
  · simp only [hhost, if_true]
    exact answers_next ⟨s.holdHost_cur d, rfl, s.holdHost_others d⟩

/-! ### Stores -/

theorem isHost_of_inDevice (h : inDevice pa n = true) : isHost pa = false := by
  unfold inDevice Config.deviceMemEnd at h
  unfold isHost Config.hostMemBase
  rw [decide_eq_true_eq] at h
  rw [decide_eq_false_iff_not]
  omega

/-- A store notes the words that the active core may still fetch, and no more. -/
theorem State.noteStale_eq (cls : BitVec 4) (pa n : Nat) : ∃ ws, s.noteStale cls pa n = s.modCur fun k => { k with stale := ws } := by
  unfold State.noteStale
  extract_lets words old
  split
  · exact ⟨s.cur.stale, (s.setCore_core s.active).symm⟩
  · exact ⟨_, rfl⟩

theorem State.noteStale_host (cls : BitVec 4) (h : isHost pa = true) : s.noteStale cls pa n = s := if_pos h

theorem State.noteStale_mem (cls : BitVec 4) (pa n : Nat) : (s.noteStale cls pa n).mem = s.mem := by
  obtain ⟨ws, e⟩ := s.noteStale_eq cls pa n
  rw [e]
  rfl

theorem State.Written.noteStale {t : State} {cls : BitVec 4} (h : s.Written t) : s.Written (t.noteStale cls pa n) := by
  obtain ⟨ws, e⟩ := t.noteStale_eq cls pa n
  rw [e]
  exact h.modCore rfl

/-- A write in device memory. -/
theorem State.putPhys_device {x : Nat} (h : inDevice pa n = true) : (s.putPhys pa n x).mem = s.mem.write pa (bytesLE n x) ∧
    { s.putPhys pa n x with mem := s.mem, sizes := s.sizes, cores := s.cores } = s ∧
    ∀ c, { (s.putPhys pa n x).core c with monitors := (s.core c).monitors } = s.core c := by
  have hhost := isHost_of_inDevice h
  rcases s.writePhys_cases pa (bytesLE n x) true with ⟨e, -⟩ | ⟨-, -, hmem, hrest, hcores⟩ | ⟨-, e, -⟩
  · exact absurd (hhost.symm.trans e) Bool.false_ne_true
  · exact ⟨hmem, hrest, hcores⟩
  · rw [length_bytesLE, h] at e
    exact absurd e.symm Bool.false_ne_true

/-- The device after a store of `x`. -/
def State.stored (u : State) (cls : BitVec 4) (pa n x : Nat) : State := (u.noteStale cls pa n).putPhys pa n x

theorem State.stored_mem (cls : BitVec 4) {x : Nat} (h : inDevice pa n = true) : (u.stored cls pa n x).mem = u.mem.write pa (bytesLE n x) :=
  (State.putPhys_device h).1.trans (by rw [State.noteStale_mem])

theorem State.Written.stored {cls : BitVec 4} {x : Nat} (h : s.Written u) : s.Written (u.stored cls pa n x) := h.noteStale.putPhys

theorem State.sameOutside_stored (cls : BitVec 4) (x : Nat) : SameOutside pa n u (u.stored cls pa n x) := by
  intro a ha
  rw [← u.noteStale_mem cls pa n]
  exact (u.noteStale cls pa n).sameOutside_writePhys pa (bytesLE n x) true a (by rwa [length_bytesLE])

/-- But for the code words that its core may still fetch, a store changes what a write changes. -/
theorem State.stored_device (cls : BitVec 4) {x : Nat} (h : inDevice pa n = true) : ∃ ws,
    let v := u.modCur fun k => { k with stale := ws }
    { u.stored cls pa n x with mem := v.mem, sizes := v.sizes, cores := v.cores } = v ∧
      ∀ c, { (u.stored cls pa n x).core c with monitors := (v.core c).monitors } = v.core c := by
  unfold State.stored
  obtain ⟨ws, e⟩ := u.noteStale_eq cls pa n
  rw [e]
  exact ⟨ws, (State.putPhys_device h).2⟩

/-- What a store leaves of the core that makes it, and of everything else. -/
theorem State.onlyStored_advance (cls : BitVec 4) {x : Nat} (h : inDevice pa n = true) : OnlyStored u (u.stored cls pa n x).advance := by
  obtain ⟨ws, hrest, hcores⟩ := u.stored_device (x := x) cls h
  have hactive : (u.stored cls pa n x).active = u.active := (State.Written.refl u).stored.cores.active
  refine ⟨congrArg (fun y : State => { y with cores := u.cores }) hrest, fun c hc => ?_, ?_⟩
  · have hother := hcores c
    rw [State.core_modCur, if_neg (Ne.symm hc)] at hother
    rwa [State.advance, State.core_modCur, hactive, if_neg (Ne.symm hc)]
  · have hown := hcores u.active
    rw [State.core_modCur, if_pos rfl, ← hactive] at hown
    rw [State.advance, State.cur_modCur]
    exact congrArg (fun k : CoreSt => { k with stale := u.cur.stale, pc := k.pc + 4 }) hown

theorem State.stores {cls : BitVec 4} {x : DWord} (hi : exec i s = .next (s.storeFrom cls va n x)) : s.Stores i va n x := by
  refine ⟨State.accessFaults fun e he => by rw [hi, State.storeFrom, State.storeAt, he], fun pa u hr => ?_⟩
  rw [hi, State.storeFrom, State.storeAt, hr]
  refine ⟨State.resolve_unsnapped (State.resolve_of_reach hr), fun htag htrap => ?_, fun htag hin => ?_, fun htag hhost => ?_⟩
  · simp only [htag, if_true]
    exact answers_next (s.trapped_faultNow _ _ htrap)
  · simp only [htag, Bool.false_eq_true, if_false]
    refine answers_next ⟨fun j hj => ?_, State.sameOutside_stored cls _, State.onlyStored_advance cls hin⟩
    have hmem : ((u.stored cls pa n x.toNat).advance).mem = u.mem.write pa (bytesLE n x.toNat) := State.stored_mem cls hin
    rw [← State.stored, hmem, Memory.readByte_write, length_bytesLE, if_pos (by omega), Nat.add_sub_cancel_left, getD_bytesLE_toNat x hj]
  · simp only [htag, Bool.false_eq_true, if_false]
    rw [State.noteStale_host cls hhost, State.putPhys, State.writePhys, if_pos hhost, bytesLE_toNat]
    exact answers_next ⟨rfl, u.went_advance⟩

end

end Sys2Proof.Machine
end

section
open Sys2Proof Sys2Proof.Machine

/-- Settles O15: each load is `State.loadTo` of its address and its size. -/
theorem Sys2Proof.loadResults : Obligations.LoadResults := fun _ _ _ _ _ _ _ =>
  ⟨State.loads rfl, State.loads rfl, State.loads rfl, State.loads rfl, State.loads rfl⟩

/-- Settles O16: each store is `State.storeFrom` of its address and its size. -/
theorem Sys2Proof.storeResults : Obligations.StoreResults := fun _ _ _ _ _ _ _ =>
  ⟨State.stores rfl, State.stores rfl, State.stores rfl, State.stores rfl, State.stores rfl⟩

end

section
/-! PROOF. Atomics of a control core (R105, R267). -/

namespace Sys2Proof.Machine

/-! ### The new value, on words of the access's width -/

theorem toSigned_toNat {w : Nat} (x : BitVec w) : toSigned w x.toNat = x.toInt := by
  rw [toSigned, bitOf, BitVec.toInt_eq_msb_cond, BitVec.msb_eq_getLsbD_last, BitVec.getLsbD, Nat.mod_eq_of_lt x.isLt]

/-- Choosing a word by a signed comparison of numbers is choosing it by the comparison of words. -/
theorem toSigned_choice {w : Nat} (x y z t : BitVec w) : (if toSigned w x.toNat < toSigned w y.toNat then z.toNat else t.toNat) =
    (if x.slt y then z else t).toNat := by
  rw [toSigned_toNat, toSigned_toNat, apply_ite BitVec.toNat, BitVec.slt_eq_decide]
  simp only [decide_eq_true_eq]

/-- What an AMO computes is R267's function of words, and only a compare-and-swap that finds another word writes nothing. -/
theorem amoValue_eq (op : BitVec 3) (n : Nat) (old : BitVec (8 * n)) (x c : DWord) :
    amoValue op n old.toNat x c = if op = 7 ∧ old ≠ c.setWidth (8 * n) then none
      else some (amoNew op old (x.setWidth (8 * n)) (c.setWidth (8 * n))).toNat := by
  unfold amoValue
  dsimp only
  rw [← BitVec.toNat_setWidth, ← BitVec.toNat_setWidth]
  generalize x.setWidth (8 * n) = y
  generalize c.setWidth (8 * n) = z
  have hop : op = 0 ∨ op = 1 ∨ op = 2 ∨ op = 3 ∨ op = 4 ∨ op = 5 ∨ op = 6 ∨ op = 7 := by bv_omega
  rcases hop with rfl | rfl | rfl | rfl | rfl | rfl | rfl | rfl
  · exact congrArg some (BitVec.toNat_add old y).symm
  · exact congrArg some (toSigned_choice y old y old)
  · exact congrArg some (toSigned_choice old y y old)
  · exact congrArg some (BitVec.toNat_or old y).symm
  · exact congrArg some (BitVec.toNat_and old y).symm
  · exact congrArg some (BitVec.toNat_xor old y).symm
  · rfl
  · change (if old.toNat = z.toNat then some y.toNat else none) = if (7 : BitVec 3) = 7 ∧ old ≠ z then none
      else some (if old = z then y else old).toNat
    by_cases he : old = z
    · simp [he]
    · simp [he, BitVec.toNat_inj]

/-! ### What it does -/

section
variable {s u : State} {i : Instr} {op : BitVec 3} {cls : BitVec 4} {n pa : Nat} {d a b : BitVec 5}

/-- The device after an AMO's write of its new value, which a compare-and-swap may not make. -/
def State.amoStored (u : State) (cls : BitVec 4) (pa n : Nat) : Option Nat → State
  | some v => u.stored cls pa n v
  | none => u

theorem State.Written.amoStored {v : Option Nat} (h : s.Written u) : s.Written (u.amoStored cls pa n v) := by
  cases v with
  | none => exact h
  | some v => exact h.stored

theorem State.sameOutside_amoStored (v : Option Nat) : SameOutside pa n u (u.amoStored cls pa n v) := by
  cases v with
  | none => exact fun _ _ => rfl
  | some v => exact State.sameOutside_stored cls v

theorem State.amoStored_sidebands (v : Option Nat) (h : inDevice pa n = true) :
    (u.amoStored cls pa n v).tags = u.tags ∧ (u.amoStored cls pa n v).poison = u.poison := by
  cases v with
  | none => exact ⟨rfl, rfl⟩
  | some v =>
    obtain ⟨ws, hrest, -⟩ := u.stored_device (x := v) cls h
    have htags := congrArg State.tags hrest
    have hpoison := congrArg State.poison hrest
    exact ⟨htags, hpoison⟩

/-- The word that an AMO reads. -/
def State.amoOld (u : State) (pa n : Nat) : BitVec (8 * n) := BitVec.ofNat (8 * n) (u.mem.readNat pa n)

theorem State.toNat_amoOld (u : State) (pa n : Nat) : (u.amoOld pa n).toNat = u.mem.readNat pa n :=
  Nat.mod_eq_of_lt (u.mem.readNat_lt pa n)

/-- The word after an AMO. -/
theorem State.amoOld_amoStored (x c : DWord) (h : inDevice pa n = true) :
    (u.amoStored cls pa n (amoValue op n (u.mem.readNat pa n) x c)).amoOld pa n =
      amoNew op (u.amoOld pa n) (x.setWidth (8 * n)) (c.setWidth (8 * n)) := by
  rw [← u.toNat_amoOld pa n, amoValue_eq]
  split
  · next hcas =>
    obtain ⟨rfl, hne⟩ := hcas
    exact (if_neg hne).symm
  · refine BitVec.eq_of_toNat_eq ?_
    rw [State.amoStored, State.toNat_amoOld, State.stored_mem cls h, Memory.readNat_write_same, Nat.mod_eq_of_lt (BitVec.isLt _)]

/-- An AMO that reaches its word: TAG, then POISON, then the old word to gd and the new one to memory. -/
theorem State.amo_answers (hi : exec i s = .next (s.amo op cls n d a b)) (hr : s.reach (s.g a) n .store = .ok (pa, u)) :
    (u.tagged pa = true → s.CanTrap → Answers (exec i s) (s.Trapped cTag s.cur.pc (s.g a))) ∧
    (u.tagged pa = false → u.poisoned pa n = true → s.CanTrap → Answers (exec i s) (s.Trapped cPoison s.cur.pc (s.g a))) ∧
    (u.tagged pa = false → u.poisoned pa n = false → inDevice pa n = true → Answers (exec i s) fun t =>
      s.Gave d (BitVec.ofNat 64 (u.mem.readNat pa n)) t ∧
      t.amoOld pa n = amoNew op (u.amoOld pa n) ((s.g b).setWidth (8 * n)) ((s.g d).setWidth (8 * n)) ∧
      SameOutside pa n u t ∧ t.tags = u.tags ∧ t.poison = u.poison) := by
  rw [hi, State.amo, hr]
  refine ⟨fun htag htrap => ?_, fun htag hbad htrap => ?_, fun htag hbad hin => ?_⟩
  · simp only [htag, if_true]
    exact answers_next (s.trapped_faultNow _ _ htrap)
  · simp only [htag, hbad, Bool.false_eq_true, if_false, if_true]
    exact answers_next (s.trapped_faultNow _ _ htrap)
  · simp only [htag, hbad, Bool.false_eq_true, if_false]
    have hw : s.Written (u.amoStored cls pa n (amoValue op n (u.mem.readNat pa n) (s.g b) (s.g d))) := (State.written_reach hr).amoStored
    have hnew := u.amoOld_amoStored (op := op) (cls := cls) (s.g b) (s.g d) hin
    have hout := u.sameOutside_amoStored (cls := cls) (pa := pa) (n := n) (amoValue op n (u.mem.readNat pa n) (s.g b) (s.g d))
    have hside := u.amoStored_sidebands (cls := cls) (amoValue op n (u.mem.readNat pa n) (s.g b) (s.g d)) hin
    exact ⟨_, rfl, hw.gave d _, hnew, hout, hside⟩

end

end Sys2Proof.Machine
end

section
open Sys2Proof Sys2Proof.Machine

/-- Settles O17: both are `State.amo` of their size, and the old word fits in gd. -/
theorem Sys2Proof.amoResults : Obligations.AmoResults := by
  intro s u op sfx d a b pa
  refine ⟨fun hr => ?_, fun hr => ?_⟩
  · obtain ⟨htag, hbad, hgives⟩ := State.amo_answers (i := .amoW op sfx d a b) rfl hr
    have hword : (u.amoOld pa 4).setWidth 64 = BitVec.ofNat 64 (u.mem.readNat pa 4) := by
      rw [← BitVec.ofNat_toNat, State.toNat_amoOld]
    refine ⟨htag, hbad, fun h h' hin => ?_⟩
    change Answers _ fun t => s.Gave d ((u.amoOld pa 4).setWidth 64) t ∧ _
    rw [hword]
    exact hgives h h' hin
  · obtain ⟨htag, hbad, hgives⟩ := State.amo_answers (i := .amoD op sfx d a b) rfl hr
    refine ⟨htag, hbad, fun h h' hin => ?_⟩
    rw [BitVec.setWidth_eq, BitVec.setWidth_eq] at hgives
    exact hgives h h' hin

end

section
/-! PROOF. CSR instructions that write, and the registers of a core whose writes act on their own (R33, R125 to R127, R236, R332, R335). -/

namespace Sys2Proof.Machine

section
variable {s : State} {i : Instr} {f : DWord → DWord → DWord} {d a : BitVec 5} {n : BitVec 12} {r : Csr}

/-- A form that writes a CSR which the core's mode may write gives gd what the CSR read before, after the write (R125, R127). -/
theorem csrModify_answers {t : State} (hi : exec i s = .next (s.csrModify i f d a n)) (hr : csrOf n = some r)
    (hm : csrSystem n = true → s.cur.sys = true) (hw : s.csrReadOnly s.active r = false)
    (ht : s.writeCsr s.active r (s.g a) (f (s.readCsr s.active r) (s.g a)) = some t) :
    Answers (exec i s) (t.Wrote d (s.readCsr s.active r)) := by
  have ha : s.csrAccess n true = some r := by
    cases hs : csrSystem n
    · simp [State.csrAccess, hr, hs, hw]
    · simp [State.csrAccess, hr, hs, hw, hm hs]
  refine ⟨t.result d (s.readCsr s.active r), ?_, t.wrote_result d _⟩
  rw [hi, State.csrModify, ha]
  dsimp only
  rw [ht]

/-- A core in task mode may not access a CSR that does not exist, one of system software, or, to write it, one that is RO (R127). -/
theorem csrAccess_refused {writes : Bool} (hsys : s.cur.sys = false)
    (h : csrOf n = none ∨ n.getLsbD 11 = true ∨ writes = true ∧ ∃ r, csrOf n = some r ∧ s.csrReadOnly s.active r = true) :
    s.csrAccess n writes = none := by
  unfold State.csrAccess
  split
  · rfl
  · next r hr =>
    rcases h with h | h | ⟨rfl, r', hr', h⟩
    · exact absurd (h.symm.trans hr) nofun
    · simp [csrSystem, h, hsys]
    · obtain rfl := Option.some.inj (hr'.symm.trans hr)
      simp [h]

theorem csrModify_refused (hi : exec i s = .next (s.csrModify i f d a n)) (htrap : s.CanTrap) (h : s.csrAccess n true = none) :
    Answers (exec i s) (s.Trapped cIllegal s.cur.pc (wordOf i)) := by
  rw [hi, State.csrModify, h]
  exact answers_next (s.trapped_faultNow _ _ htrap)

theorem csrr_refused (htrap : s.CanTrap) (h : s.csrAccess n false = none) :
    Answers (exec (.csrr d n) s) (s.Trapped cIllegal s.cur.pc (wordOf (.csrr d n))) := by
  have hi : exec (.csrr d n) s = execCsrr d n s := rfl
  rw [hi, execCsrr, h]
  exact answers_next (s.trapped_faultNow _ _ htrap)

/-- An update of one core makes the core that the update gives, and nothing else. -/
theorem State.became_modCore (s : State) (c : CoreId) (f : CoreSt → CoreSt) : s.Became c (f (s.core c)) (s.modCore c f) :=
  ⟨by rw [State.core_modCore, if_pos rfl], s.onlyCore_setCore c _⟩
end

end Sys2Proof.Machine
end

section
open Sys2Proof Sys2Proof.Machine

/-- Settles O19: the three forms differ in the new value alone, which csr.kstat and csr.cerr do not take. -/
theorem Sys2Proof.csrWrites : Obligations.CsrWrites := by
  intro s d a
  refine ⟨⟨csrModify_answers (r := .uepc) rfl rfl nofun rfl rfl, csrModify_answers (r := .uepc) rfl rfl nofun rfl rfl,
      csrModify_answers (r := .uepc) rfl rfl nofun rfl rfl⟩,
    fun hsys => ⟨csrModify_answers (r := .tscratch) rfl rfl (fun _ => hsys) rfl rfl,
      csrModify_answers (r := .tscratch) rfl rfl (fun _ => hsys) rfl rfl, csrModify_answers (r := .tscratch) rfl rfl (fun _ => hsys) rfl rfl⟩,
    ⟨csrModify_answers (r := .kstat) rfl rfl nofun rfl rfl, csrModify_answers (r := .kstat) rfl rfl nofun rfl rfl,
      csrModify_answers (r := .kstat) rfl rfl nofun rfl rfl⟩,
    csrModify_answers (r := .cerr) rfl rfl nofun rfl rfl, csrModify_answers (r := .cerr) rfl rfl nofun rfl rfl,
    csrModify_answers (r := .cerr) rfl rfl nofun rfl rfl⟩

/-- Settles O20: no CSR may be accessed in any of the cases. -/
theorem Sys2Proof.csrRefusals : Obligations.CsrRefusals := by
  intro s d a n htrap
  refine ⟨fun h => csrr_refused htrap (csrAccess_refused htrap.1 (h.imp_right .inl)), fun h => ?_⟩
  have none : s.csrAccess n true = none := csrAccess_refused htrap.1 (h.imp_right (Or.imp_right (And.intro rfl)))
  exact ⟨csrModify_refused rfl htrap none, csrModify_refused rfl htrap none, csrModify_refused rfl htrap none⟩

/-- Settles O21: each is an update of the one core. -/
theorem Sys2Proof.coreRegisterEffects : Obligations.CoreRegisterEffects := by
  intro s c n v
  have low : zext (v.extractLsb' 0 32) = (v.setWidth 32).setWidth 64 := congrArg zext (BitVec.setWidth_eq_extractLsb' (by decide)).symm
  have kb : exec (.kbWrite c n v) s = .next (s.modCore c fun k => { k with kb := k.kb.write n (zext (v.extractLsb' 0 32)) }) := rfl
  rw [kb, low]
  exact ⟨answers_next (s.became_modCore c _), answers_next (s.became_modCore c _), answers_next (s.became_modCore c _),
    answers_next (s.became_modCore c _), answers_next (s.became_modCore c _)⟩

end

section
/-! PROOF. Waits on words, WAKE and FENCE (R121, R242 to R244, R298, R334, R338). -/

namespace Sys2Proof.Machine

/-! ### Re-reading words leaves the registers of every core -/

section
variable {s t u : State}

theorem State.SameCores.fst {α : Type} {x : State × α} {a : α} (h : s.SameCores x.1) (e : x = (t, a)) : s.SameCores t := by
  rw [e] at h
  exact h

theorem State.SameCores.wake {p : PartId} {r : Addr} {value : Option DWord} (h : s.SameCores t) : s.SameCores (t.wake p r value) := by
  obtain ⟨u, hu, e⟩ := State.wake_eq (t := t) (p := p) (r := r) (value := value)
  rw [e]
  exact (h.written hu).modTask.enqueue

theorem State.SameCores.reread {c : CoreId} {m : Monitor} (h : s.SameCores t) : s.SameCores (t.reread c m).1 := by
  unfold State.reread
  split
  · split
    · exact h
    · extract_lets +onlyGivenNames x
      split
      · exact h.wake
      · exact h
  · exact h

theorem CoreSt.own_modWaitList (k : CoreSt) (swept : Bool) (f : List Monitor → List Monitor) : (k.modWaitList swept f).own = k.own := by
  cases swept <;> rfl

theorem State.SameCores.rereadAt {c : CoreId} {swept : Bool} {n : Nat} (h : s.SameCores t) : s.SameCores (t.rereadAt c swept n).1 := by
  unfold State.rereadAt
  split
  · exact h
  · extract_lets +onlyGivenNames s₁
    have h₁ : s.SameCores s₁ := h.modCore (CoreSt.own_modWaitList ..)
    split
    rename_i e₁
    have h₂ := h₁.reread.fst e₁
    exact (h₂.modCore (CoreSt.own_modWaitList ..)).ite h₂

theorem State.SameCores.rereadFrom {c : CoreId} {swept : Bool} {sel : State → Monitor → Bool} {fuel i : Nat} (h : s.SameCores t) :
    s.SameCores (t.rereadFrom c swept sel fuel i) := by
  induction fuel generalizing t i with
  | zero => exact h
  | succ fuel ih =>
    unfold State.rereadFrom
    split
    · exact h
    · split
      · split
        rename_i e₁
        exact ih (h.rereadAt.fst e₁)
      · exact ih h

theorem State.SameCores.rereadCore {c : CoreId} {sel : State → Monitor → Bool} (h : s.SameCores t) : s.SameCores (t.rereadCore c sel) :=
  h.rereadFrom.rereadFrom

/-- Going on, after what leaves the registers of the cores. -/
theorem State.SameCores.advance_pc (h : s.SameCores t) : t.advance.cur.pc = s.cur.pc + 4 := by
  rw [State.advance, State.cur_modCur]
  have hpc := congrArg CoreSt.pc h.cur
  exact congrArg (· + 4) hpc

theorem State.SameCores.advance_g (h : s.SameCores t) (r : BitVec 5) : t.advance.g r = s.g r := by
  rw [← h.g r, State.g, State.advance, State.cur_modCur]
  rfl

theorem State.Slept.sameCores (h : s.Slept t) (h' : t.SameCores u) : s.Slept u := by
  obtain ⟨hrunning, huie, hg, hshadow⟩ := h
  have hcur := h'.cur
  have hrunning' := congrArg CoreSt.running hcur
  have huie' := congrArg CoreSt.uie hcur
  have hg' := congrArg CoreSt.g hcur
  have hshadow' := congrArg CoreSt.shadowG hcur
  exact ⟨hrunning'.trans hrunning, huie'.trans huie, hg'.trans hg, hshadow'.trans hshadow⟩

/-! ### Arming a monitor -/

theorem State.sweep_writePhys (s : State) (pa : Nat) (bs : List Byte) (seen : Bool) (c : CoreId) :
    ((s.writePhys pa bs seen).core c).sweep = (s.core c).sweep := by
  rcases s.writePhys_cases pa bs seen with ⟨-, e⟩ | ⟨-, -, -, -, hcores⟩ | ⟨-, -, e⟩
  · rw [e]
    rfl
  · have h := congrArg CoreSt.sweep (hcores c)
    exact h
  · rw [e]

theorem State.sweep_telemetry (s : State) (d : DieId) (core : Option CoreId) (kind : Nat) (words : List DWord) (c : CoreId) :
    ((s.telemetry d core kind words).core c).sweep = (s.core c).sweep := by
  unfold State.telemetry
  extract_lets die n ring who w0 at_ bytes
  split
  · rfl
  · change ((s.writeOwn at_ bytes).core c).sweep = _
    unfold State.writeOwn
    split
    · rfl
    · exact s.sweep_writePhys ..

theorem State.SameCores.setCore {c : CoreId} {k : CoreSt} (h : s.SameCores t) (hk : k.own = (t.core c).own) : s.SameCores (t.setCore c k) :=
  h.modCore (f := fun _ => k) hk

theorem State.sameCores_arm (s : State) (c : CoreId) (m : Monitor) : s.SameCores (s.arm c m) := by
  unfold State.arm
  extract_lets k s'
  split
  · exact (State.SameCores.refl s).setCore rfl
  · have hswept : s.SameCores s' := (State.SameCores.refl s).setCore rfl
    exact hswept.written (State.Written.refl s').telemetry

/-- An armed word is watched: a monitor has it, or it is on the sweep list (R243). -/
theorem State.mem_arm (s : State) (c : CoreId) (m : Monitor) : m ∈ ((s.arm c m).core c).monitors ++ ((s.arm c m).core c).sweep := by
  unfold State.arm
  extract_lets k s'
  split
  · simp
  · refine List.mem_append_right _ ?_
    rw [State.sweep_telemetry]
    simp [s']

/-! ### The wait -/

/-- The unsigned condition, which is WAITGE's as well (R242, R334). -/
theorem meets_geu (x y : DWord) : meets 2 x y = y.ule x := (BitVec.ule_eq_not_ult y x).symm
theorem meets_ge (x y : DWord) : meets 3 x y = y.sle x := BitVec.sle_eq_not_slt.symm

variable {kind : BitVec 4} {counter : Bool} {mode : BitVec 2} {d : BitVec 5} {va cmp : DWord} {x pa : Nat}

theorem State.waitWord_met (hl : s.loadDev va 8 = .ok (x, pa)) (hm : meets mode (BitVec.ofNat 64 x) cmp = true) :
    s.waitWord kind counter mode d va cmp = if counter then s.advance else s.result d (BitVec.ofNat 64 x) := by
  rw [State.waitWord, hl]
  exact if_pos hm

/-- The target that a waiting task's record names (R36). -/
def waitTargetOf (counter : Bool) (mode : BitVec 2) (va : DWord) : Addr :=
  if counter then va.setWidth 48 else va.extractLsb' 2 46 ++ mode

theorem waitTargetOf_eq (counter : Bool) (mode : BitVec 2) (va : DWord) : waitTargetOf counter mode va =
    if counter then va.extractLsb' 0 48 else (va.extractLsb' 0 48).extractLsb' 2 46 ++ mode := by
  unfold waitTargetOf
  split
  · exact BitVec.setWidth_eq_extractLsb' (by decide)
  · rw [BitVec.extractLsb'_extractLsb'_of_le (by decide)]

/-- A task whose condition does not hold suspends, and its word is watched where it lies then. -/
theorem State.waitWord_unmet {r : Addr} {p : PartId} (hl : s.loadDev va 8 = .ok (x, pa)) (hm : meets mode (BitVec.ofNat 64 x) cmp = false)
    (hself : s.self = some (p, r)) :
    let u := s.suspendNext stWaiting kind (waitTargetOf counter mode va) cmp d
    let t := s.waitWord kind counter mode d va cmp
    s.Slept t ∧ ∃ m ∈ t.cur.monitors ++ t.cur.sweep,
      m.task = r ∧ m.va = va ∧ m.pa = u.placeOf s.active { m with pa := pa } ∧ m.mode = mode ∧ m.cmp = cmp := by
  obtain ⟨hr, hp⟩ := State.self_eq hself
  intro u t
  let m : Monitor := ⟨r, va, u.placeOf s.active ⟨r, va, pa, mode, cmp, counter, false⟩, mode, cmp, counter, false⟩
  have ht : t = u.arm s.active m := by
    unfold t State.waitWord
    rw [hl]
    simp only [hm, Bool.false_eq_true, if_false, hr]
    rw [← waitTargetOf_eq]
    rfl
  have hactive : u.active = s.active := (State.suspend_cur hr hp ..).1
  have hsame : u.SameCores t := ht ▸ u.sameCores_arm s.active m
  have hslept : s.Slept u := ((State.Written.refl s).suspend_slept hr hp ..).advance
  have hmem : m ∈ t.cur.monitors ++ t.cur.sweep := by
    rw [State.cur, hsame.active, hactive, ht]
    exact u.mem_arm s.active m
  exact ⟨hslept.sameCores hsame, m, hmem, rfl, rfl, rfl, rfl, rfl⟩

theorem exec_waitaddr (sfx : SyncSfx) (a b : BitVec 5) : exec (.waitaddr mode sfx d a b) s =
    if s.cur.inHandler then .next (s.illegal (.waitaddr mode sfx d a b)) else .next (s.waitWord 3 false mode d (s.g a) (s.g b)) := rfl

theorem exec_waitge (sfx : SyncSfx) (a b : BitVec 5) : exec (.waitge sfx a b) s =
    if s.cur.inHandler then .next (s.illegal (.waitge sfx a b)) else .next (s.waitWord 2 true 2 0 (s.g a) (s.g b)) := rfl

/-! ### WAKE -/

/-- The block of an address within the address space. -/
theorem toNat_blockAddr {x : DWord} (h : x.toNat < 2 ^ 48) : (x.extractLsb' 6 42 ++ (0 : BitVec 6) : Addr).toNat = 64 * (x.toNat / 64) := by
  rw [BitVec.toNat_append, BitVec.extractLsb'_toNat, Nat.shiftLeft_eq, Nat.shiftRight_eq_div_pow]
  simp only [BitVec.ofNat_eq_ofNat, BitVec.toNat_zero, Nat.or_zero]
  omega

/-- The cores' re-reading of their words in a block. -/
def State.rereadBlock (s : State) (pa : Nat) : State :=
  allCores.foldl (fun s c => s.rereadCore c fun w m => w.placeOf c m / 64 == pa / 64) s

theorem State.sameCores_rereadBlock (s : State) (pa : Nat) : s.SameCores (s.rereadBlock pa) :=
  (State.SameCores.refl s).foldl fun _ _ h => h.rereadCore

section
variable {a : BitVec 5}

theorem execWake_outside (h : 2 ^ 48 ≤ (s.g a).toNat) : execWake a s = .next s.advance := by
  unfold execWake
  rw [(outside_iff _).2 h]
  dsimp only
  split <;> rfl

theorem execWake_unresolved (h : (s.g a).toNat < 2 ^ 48) {e : Byte}
    (hr : s.resolve s.active false (64 * ((s.g a).toNat / 64)) .load = .error e) : execWake a s = .next s.advance := by
  unfold execWake
  dsimp only
  rw [toNat_blockAddr h, hr]

theorem execWake_resolved (h : (s.g a).toNat < 2 ^ 48)
    (hr : s.resolve s.active false (64 * ((s.g a).toNat / 64)) .load = .ok (pa, u)) : execWake a s = .next (s.rereadBlock pa).advance := by
  unfold execWake
  dsimp only
  rw [toNat_blockAddr h, hr, (inside_iff _).2 h]
  rfl

/-- WAKE goes on, perhaps after the cores have re-read words (R244). -/
theorem execWake_advances (s : State) (a : BitVec 5) : ∃ t, s.SameCores t ∧ execWake a s = .next t.advance := by
  by_cases h : (s.g a).toNat < 2 ^ 48
  · cases hr : s.resolve s.active false (64 * ((s.g a).toNat / 64)) .load with
    | error e => exact ⟨s, .refl s, execWake_unresolved h hr⟩
    | ok x => exact ⟨_, s.sameCores_rereadBlock x.1, execWake_resolved h hr⟩
  · exact ⟨s, .refl s, execWake_outside (not_lt.1 h)⟩
end

end

/-! ### FENCE -/

theorem State.became_modCur_advance (s : State) (f : CoreSt → CoreSt) :
    s.Became s.active { f s.cur with pc := (f s.cur).pc + 4 } (s.modCur f).advance := by
  obtain ⟨hcur, hothers, -⟩ := (s.modCur f).went_advance
  rw [State.cur_modCur] at hcur
  refine ⟨hcur, fun c hc => (hothers c hc).trans ?_, rfl⟩
  rw [State.core_modCur, if_neg hc.symm]

end Sys2Proof.Machine
end

section
open Sys2Proof Sys2Proof.Machine

/-- Settles O39: a wait goes on or suspends by `meets`, WAKE re-reads words and goes on, and FENCE updates its core. -/
theorem Sys2Proof.wordWaits : Obligations.WordWaits := by
  intro s mode sfx d a b x pa
  refine ⟨fun hl hin => ?_, fun hin htrap => ?_, ?_, fun h => ⟨_, execWake_outside h, s.went_advance⟩,
    fun _ _ h hr => ⟨_, execWake_resolved h hr, State.advance_teams _, State.advance_mem _⟩,
    fun scope mask => answers_next (s.became_modCur_advance _)⟩
  · have htask : ¬s.cur.inHandler = true := Bool.eq_false_iff.1 hin
    have hge : meets 2 (BitVec.ofNat 64 x) (s.g b) = decide ((s.g b).toNat ≤ x % 2 ^ 64) := by
      rw [meets_geu, BitVec.ule_eq_decide, BitVec.toNat_ofNat]
    rw [exec_waitaddr, exec_waitge, if_neg htask, if_neg htask]
    refine ⟨?_, fun h => ?_, fun r p h hself => answers_next ?_⟩
    · intro holds
      have hholds : holds = meets mode (BitVec.ofNat 64 x) (s.g b) := by
        have hmode : mode = 0 ∨ mode = 1 ∨ mode = 2 ∨ mode = 3 := by bv_omega
        rcases hmode with rfl | rfl | rfl | rfl
        · rfl
        · rfl
        · exact (meets_geu _ _).symm
        · exact (meets_ge _ _).symm
      rw [hholds]
      refine ⟨fun h => ?_, fun r p h hself => answers_next (State.waitWord_unmet hl h hself)⟩
      rw [State.waitWord_met hl h]
      exact answers_next (s.wrote_result d _)
    · rw [State.waitWord_met hl (hge.trans (decide_eq_true h))]
      exact answers_next s.went_advance
    · obtain ⟨hslept, m, hm, htask, hva, hpa, -, hcmp⟩ := State.waitWord_unmet (kind := 2) (counter := true) (d := 0) hl
        (hge.trans (decide_eq_false (not_le.2 h))) hself
      exact ⟨hslept, m, hm, htask, hva, hpa, hcmp⟩
  · rw [exec_waitaddr, exec_waitge, if_pos hin, if_pos hin]
    exact ⟨answers_next (s.trapped_faultNow _ _ htrap), answers_next (s.trapped_faultNow _ _ htrap)⟩
  · obtain ⟨t, hsame, ht⟩ := execWake_advances s a
    exact ⟨_, ht, hsame.advance_pc, hsame.advance_g⟩

end

section
/-! PROOF. What the writes that the device makes for itself leave of the remote atomics between dies (R265, R268 to R276, R365). -/

namespace Sys2Proof.Machine

section
variable {t u : State}

@[simp] theorem State.writePhys_meshMsgs (t : State) (pa : Nat) (bs : List Byte) (seen : Bool) :
    (t.writePhys pa bs seen).meshMsgs = t.meshMsgs := by
  unfold State.writePhys
  split
  · rfl
  · split <;> rfl

@[simp] theorem State.writeOwn_meshMsgs (t : State) (pa : Nat) (bs : List Byte) : (t.writeOwn pa bs).meshMsgs = t.meshMsgs := by
  unfold State.writeOwn
  split
  · rfl
  · exact t.writePhys_meshMsgs pa bs true

@[simp] theorem State.copyUnit_meshMsgs (t : State) (p : PartId) (va size old new entry : Nat) (w : DWord) (gen : Byte) :
    (t.copyUnit p va size old new entry w gen).meshMsgs = t.meshMsgs := by
  simp [State.copyUnit, State.logCopy, State.moveMonitors, State.dropTlb, State.putPhys, State.copyFrame]

theorem State.takeFrame_meshMsgs {p : PartId} {big : Bool} {n : Nat} (h : t.takeFrame p big = some (u, n)) : u.meshMsgs = t.meshMsgs := by
  unfold State.takeFrame at h
  extract_lets d m at_ frame at h
  split at h
  · cases h
  · cases hbad : t.poisoned at_ 8 || t.liveIn frame (if big then 65536 else 4096) with
    | true =>
      rw [hbad] at h
      cases h
    | false =>
      rw [hbad] at h
      obtain ⟨rfl, -⟩ := Prod.mk.inj (Option.some.inj h)
      exact t.writePhys_meshMsgs _ _ _

theorem State.splitLarge_meshMsgs {p : PartId} {va entry : Nat} {w : DWord} (h : t.splitLarge p va entry w = some u) :
    u.meshMsgs = t.meshMsgs := by
  unfold State.splitLarge at h
  split at h
  · cases h
  · rename_i e₁
    split at h
    · cases h
    · rename_i e₂
      cases h
      simp [State.dropTlb, takeFrame_meshMsgs e₂, takeFrame_meshMsgs e₁]

theorem State.splitHuge_meshMsgs {p : PartId} {va entry : Nat} {w : DWord} (h : t.splitHuge p va entry w = some u) :
    u.meshMsgs = t.meshMsgs := by
  unfold State.splitHuge at h
  split at h
  · cases h
  · rename_i e₁
    rw [splitLarge_meshMsgs h]
    simp [State.dropTlb, takeFrame_meshMsgs e₁]

theorem State.copyOnWrite_meshMsgs {p : PartId} {va : Nat} {m : Mapping} (h : t.copyOnWrite p va m = some u) : u.meshMsgs = t.meshMsgs := by
  unfold State.copyOnWrite at h
  split at h
  · cases h
  · split at h
    · cases h
      rfl
    · split at h
      · cases h
      · rename_i e₁
        cases h
        rw [copyUnit_meshMsgs, takeFrame_meshMsgs e₁]
    · split at h
      · split at h
        · cases h
        · rename_i e₁
          cases h
          rw [copyUnit_meshMsgs, takeFrame_meshMsgs e₁]
      · split at h
        · exact splitLarge_meshMsgs h
        · split at h
          · rw [splitHuge_meshMsgs h]
            simp [State.dropTlb]
          · exact splitHuge_meshMsgs h

theorem State.resolveIn_meshMsgs {p : PartId} {va pa : Nat} {acc : Access} (h : t.resolveIn p va acc = .ok (pa, u)) :
    u.meshMsgs = t.meshMsgs := by
  unfold State.resolveIn at h
  split at h
  · cases h
  · split at h
    · cases h
    · split at h
      · split at h
        · cases h
        · rename_i e₁
          split at h
          · cases h
          · cases h
            exact copyOnWrite_meshMsgs e₁
      · cases h
        rfl

@[simp] theorem State.writeImage_meshMsgs (t : State) (p : PartId) (va : Nat) (bs : List ImageBlock) :
    (t.writeImage p va bs).1.meshMsgs = t.meshMsgs := by
  induction bs generalizing t va with
  | nil => rfl
  | cons b bs ih =>
    unfold State.writeImage
    split
    · rfl
    · rename_i e₁
      split
      · rfl
      · rw [ih]
        split <;> simp [resolveIn_meshMsgs e₁]

theorem State.saveEngine_meshMsgs (t : State) (p : PartId) (va : Nat) (k : CoreSt) (c : CoreId) (reason : BitVec 4) (launch : Addr)
    (bad : Option ClusterId) : (t.saveEngine p va k c reason launch bad).1.meshMsgs = t.meshMsgs := by
  have whole (header : Bool → List Byte) (body : List ImageBlock) : (t.writeWhole p va header body).1.meshMsgs = t.meshMsgs := by
    unfold State.writeWhole
    split
    · rename_i e₁
      have h₁ := t.writeImage_meshMsgs p va ((header false, false) :: body)
      rw [e₁] at h₁
      simpa using h₁
    · exact t.writeImage_meshMsgs p va _
  exact whole _ _

end
end Sys2Proof.Machine
end

section
/-! PROOF. A cc in which the only kernel of a core ends at a fault (R130, R362, R364, R369). -/

namespace Sys2Proof.Machine

/-! ### The plan and the cc -/

/-- An operation that fails a check is planned as the end of its kernel at its slot (R130). -/
theorem planRun_solo_fault {k : CoreSt} {r : KernelRun} {me : CoreId} {peers : List CoreId} {i : Instr} {h : SlotHdr} {f : Ctx → SlotResult}
    {kind : Byte} (hk : k.Issues r) (hi : slotSem i = some (h, f))
    (hx : f ⟨k, r, .primary, h, me, peers, k.eng.rateNow .primary⟩ = .error kind) :
    planRun k .primary me peers (some [i]) = .fault (r.faultAt kind 0 h.slot.num) := by
  have hnone : r.far.find? (fun f => f.due ≤ r.kc) = none :=
    List.find?_eq_none.2 fun f hf => by simpa using hk.clear.2 f hf
  have hsolo : soloIssue (fun h => ⟨k, r, .primary, h, me, peers, k.eng.rateNow .primary⟩) i = none := by
    rw [soloIssue, hi]
    exact congrArg Except.toOption hx
  have hjoin : joinOps (fun h => ⟨k, r, .primary, h, me, peers, k.eng.rateNow .primary⟩) r [i] = .error (r.faultAt kind 0 h.slot.num) := by
    simp only [joinOps, hi, hx]
  unfold planRun
  simp only [hk.run, hk.live, hk.clear.not_late, hnone, Bool.not_true, Bool.false_eq_true, if_false]
  unfold planOps
  simp only [List.filterMap_cons, hsolo, List.filterMap_nil, List.any_nil, Bool.false_eq_true, if_false, hjoin]

/-- A core after the cc in which its only kernel ends at a fault. -/
def CoreSt.fell (k : CoreSt) (e : KEnd) : CoreSt := ((k.begun.failRun .primary e).tickRates false).bankFreeze 0

theorem engineCc_fault {k : CoreSt} {r : KernelRun} {me : CoreId} {peers : List CoreId} {given : Option (List Instr)} {e : KEnd}
    (h : k.Issues r) (hp : planRun k.tick .primary me peers given = .fault e) : engineCc k me peers given = ⟨k.fell e, [], none⟩ := by
  have hrun : k.tick.eng.primary = some r := h.run
  have halone : k.tick.eng.secondary = none := h.alone
  have hgo : k.tick.eng.stopped = none := h.going
  have hstand : k.tick.halt = none := h.standing
  unfold engineCc
  extract_lets +onlyGivenNames k₁ second fair collide quiet
  have hstop : (k₁.eng.stopped.isSome || k₁.halt.isSome) = false := by simp [k₁, hgo, hstand]
  have hlate : (k₁.eng.primary.any KernelRun.late || (fair || !collide) && k₁.eng.secondary.any KernelRun.late) = false := by
    simp [k₁, hrun, halone, h.clear.not_late]
  rw [hstop, hlate, if_neg Bool.false_ne_true, if_neg Bool.false_ne_true]
  extract_lets +onlyGivenNames k₂ second₂
  have hk : k₂ = k.tick := h.tick.settle
  have hsecond : second₂ = false := by simp [second₂, hk, halone]
  rw [hsecond, Bool.and_false, if_neg Bool.false_ne_true, hk]
  extract_lets +onlyGivenNames p q
  have hfault : p = .fault e := hp
  have hidle : q = .idle := rfl
  rw [hfault, hidle]
  rfl

/-! ### The core after it -/

/-- A core less its engine and the images of its merge kernels. -/
def CoreSt.sansEng (k : CoreSt) : CoreSt := { k with eng := Engine.reset, mergeImages := [] }

theorem CoreSt.sansEng_setRun (k : CoreSt) (pos : KPos) (r : KernelRun) : (k.setRun pos r).sansEng = k.sansEng := rfl
theorem CoreSt.sansEng_tickRates (k : CoreSt) (fair : Bool) : (k.tickRates fair).sansEng = k.sansEng := rfl
theorem CoreSt.sansEng_bankFreeze (k : CoreSt) : (k.bankFreeze 0).sansEng = k.sansEng := rfl
theorem CoreSt.sansEng_begun (k : CoreSt) : k.begun.sansEng = k.sansEng := rfl

section
variable {k : CoreSt} {r : KernelRun} (e : KEnd) (h : k.Issues r)
include h

theorem CoreSt.Issues.fell_eq : k.fell e =
    (((k.begun.setRun .primary { r with ending := some e }).tickRates false).bankFreeze 0) := by
  have hrun : k.begun.run .primary = some r := h.run
  rw [fell, failRun, modRun, hrun]

theorem CoreSt.Issues.fell_run : (k.fell e).run .primary = some { r with ending := some e } := by
  rw [h.fell_eq]
  rfl

/-- Nothing of the core but its engine changes. -/
theorem CoreSt.Issues.fell_sansEng : (k.fell e).sansEng = k.sansEng := by
  rw [h.fell_eq, sansEng_bankFreeze, sansEng_tickRates, sansEng_setRun, sansEng_begun]

theorem CoreSt.Issues.fell_faults {kind cause : Byte} {slot : BitVec 3} {at_ : BitVec 12} :
    faultsNow k (k.fell (.fault kind cause slot at_)).eng .primary = true := by
  have hrun : (k.fell (.fault kind cause slot at_)).eng.run .primary = some _ := h.fell_run _
  unfold faultsNow
  rw [h.run, hrun]
  show (r.ending.isNone && true) = true
  rw [h.not_ended]
  rfl

theorem CoreSt.Issues.no_secondary_fault (g : Engine) : faultsNow k g .secondary = false := by
  unfold faultsNow
  rw [h.alone]

end

/-! ### Requests that are out complete first: there are none (R364) -/

section
variable {s : State} {r : KernelRun} (hr : s.Issues r) (hq : s.quietFar r)
include hr hq

omit hr in
theorem State.quietFar.remotesOf : s.remotesOf s.active = [] := by
  obtain ⟨-, hheld, hqueues, hmesh⟩ := hq
  have hqueued : (allCores.flatMap fun d => (s.core d).remoteQ.filter fun m => m.src == s.active) = [] :=
    List.flatMap_eq_nil_iff.2 fun d _ => List.filter_eq_nil_iff.2 fun m hm => by simpa using hqueues d m hm
  have hcrossing : (s.meshMsgs.filter fun m => m.src == s.active) = [] :=
    List.filter_eq_nil_iff.2 fun m hm => by simpa using hmesh m hm
  rw [State.remotesOf, State.remotesOut, hqueued, hcrossing]
  exact hheld

omit hr in
theorem State.quietFar.performsAt (d : CoreId) : s.performsAt s.active d = [] := by
  have hdrop : ((s.core d).remoteQ.reverse.dropWhile fun m => m.src != s.active) = [] :=
    List.dropWhile_eq_nil_iff.2 fun m hm => by simpa using hq.2.2.1 d m (List.mem_reverse.1 hm)
  unfold State.performsAt
  rw [State.quietFar.remotesOf hq]
  show ((s.core d).remoteQ.reverse.dropWhile fun m => m.src != s.active).reverse = []
  rw [hdrop]
  rfl

omit hr in
theorem State.quietFar.farSettles : s.farSettles s.active = true := by
  unfold State.farSettles
  refine List.all_eq_true.2 fun d _ => ?_
  rw [State.quietFar.performsAt hq]
  rfl

theorem State.quietFar.finishFar : s.finishFar s.active = s := by
  have hmesh : (s.meshMsgs.filter fun m => m.src != s.active) = s.meshMsgs :=
    List.filter_eq_self.2 fun m hm => by simpa using hq.2.2.2 m hm
  have hheld : ({ s.cur with heldRemotes := [] } : CoreSt) = s.cur := congrArg (fun x => { s.cur with heldRemotes := x }) hq.2.1.symm
  have hnone : s.modCore s.active (fun k => { k with heldRemotes := [] }) = s := by
    show s.setCore s.active { s.cur with heldRemotes := [] } = s
    rw [hheld]
    exact s.setCore_core s.active
  have hperform : (allCores.map fun d => (d, s.performsAt s.active d)).foldl (fun s x => s.performAll x.1 x.2) s = s := by
    simp only [State.quietFar.performsAt hq]
    induction allCores with
    | nil => rfl
    | cons d ds ih => exact ih
  have hland : r.landAll = r := by
    rw [KernelRun.landAll, hq.1]
    exact congrArg (fun x => { r with far := x }) hq.1.symm
  have hcount : farCount s.cur = 0 := by
    have hrun : s.cur.eng.primary = some r := hr.run
    have halone : s.cur.eng.secondary = none := hr.alone
    simp [farCount, hrun, halone, hq.1]
  unfold State.finishFar
  rw [hmesh]
  show State.modCore (List.foldl _ (s.modCore s.active fun k => { k with heldRemotes := [] }) _) _ _ = s
  rw [hnone, hperform]
  show s.setCore s.active (((s.cur.serveAll (farCount s.cur)).modRun .primary KernelRun.landAll).modRun .secondary KernelRun.landAll) = s
  have hcore : ((s.cur.serveAll (farCount s.cur)).modRun .primary KernelRun.landAll).modRun .secondary KernelRun.landAll = s.cur := by
    have h1 : s.cur.modRun .primary KernelRun.landAll = s.cur := by
      rw [CoreSt.modRun, hr.run]
      exact (congrArg (s.cur.setRun .primary) hland).trans (CoreSt.setRun_run hr.run)
    rw [hcount, CoreSt.serveAll, h1, CoreSt.modRun, hr.alone]
  rw [hcore]
  exact s.setCore_core s.active
end

/-! ### The snapshot that is owed (R369) -/

theorem CoreSt.sansEng_modRun (k : CoreSt) (pos : KPos) (f : KernelRun → KernelRun) : (k.modRun pos f).sansEng = k.sansEng := by
  unfold CoreSt.modRun
  split
  · exact sansEng_setRun ..
  · rfl

theorem State.owedSnapshot_written (u : State) (c : CoreId) (k : CoreSt) (reason : BitVec 4) (launch : Addr) :
    u.Written (u.owedSnapshot c k reason launch).1 ∧ (u.owedSnapshot c k reason launch).1.meshMsgs = u.meshMsgs := by
  unfold State.owedSnapshot State.owedSnapshotAs
  split
  · exact ⟨.refl u, rfl⟩
  · split
    · exact ⟨.refl u, rfl⟩
    · exact ⟨(State.Written.refl u).writeWhole, u.saveEngine_meshMsgs ..⟩

theorem State.owedSnapshot_none (u : State) (c : CoreId) {k : CoreSt} (reason : BitVec 4) (launch : Addr) (h : k.ksnap = 0) :
    u.owedSnapshot c k reason launch = (u, false) := by
  unfold State.owedSnapshot State.owedSnapshotAs
  rw [h]
  rfl

section
variable {u : State} {c : CoreId} {k : CoreSt} {r : KernelRun} (hk : k.run .primary = some r)
include hk

theorem State.snapFault_merge (hm : r.merge.isSome = true) :
    u.snapFault c k .primary = u.modCore c fun x => { x with mergeImages := x.mergeImages ++ [⟨r, k.clusters, none⟩] } := by
  unfold State.snapFault State.keepMerge
  simp only [hk, hm, if_true]

theorem State.snapFault_owed (hm : ¬r.merge.isSome = true) : u.snapFault c k .primary =
    (u.owedSnapshot c k 4 r.launch).1.modCore c fun x => x.modRun .primary fun y =>
      { y with noSnap := (u.owedSnapshot c k 4 r.launch).2 } := by
  unfold State.snapFault
  simp only [hk, hm]
  rfl

/-- The image that a fault owes leaves of the cores what the device's own writes leave. -/
theorem State.snapFault_written : (u.snapFault c k .primary).active = u.active ∧ (u.snapFault c k .primary).meshMsgs = u.meshMsgs ∧
    ∀ d, ((u.snapFault c k .primary).core d).own.sansEng = (u.core d).own.sansEng := by
  by_cases hm : r.merge.isSome = true
  · rw [State.snapFault_merge hk hm]
    refine ⟨rfl, rfl, fun d => ?_⟩
    rw [State.core_modCore]
    split
    · next e => subst e; rfl
    · rfl
  · obtain ⟨hwritten, hmesh⟩ := u.owedSnapshot_written c k 4 r.launch
    rw [State.snapFault_owed hk hm]
    refine ⟨hwritten.cores.active, hmesh, fun d => ?_⟩
    rw [← hwritten.cores.core d, State.core_modCore]
    split
    · next e =>
      subst e
      exact congrArg (fun x => x.own) (CoreSt.sansEng_modRun ..)
    · rfl

/-- Where no snapshot is asked for, only the core is changed. -/
theorem State.snapFault_only (hnone : k.ksnap = 0 ∨ r.merge.isSome = true) : OnlyCore c u (u.snapFault c k .primary) ∧
    ((u.snapFault c k .primary).core c).sansEng = (u.core c).sansEng := by
  by_cases hm : r.merge.isSome = true
  · rw [State.snapFault_merge hk hm]
    refine ⟨⟨fun d hd => ?_, rfl⟩, ?_⟩
    · rw [State.core_modCore, if_neg hd.symm]
    · rw [State.core_modCore, if_pos rfl]
      rfl
  · rw [State.snapFault_owed hk hm, State.owedSnapshot_none u c 4 r.launch (hnone.resolve_right hm)]
    refine ⟨⟨fun d hd => ?_, rfl⟩, ?_⟩
    · rw [State.core_modCore, if_neg hd.symm]
    · rw [State.core_modCore, if_pos rfl]
      exact CoreSt.sansEng_modRun ..

/-- The kernel is as it was, but for the mark that its snapshot could not be written. -/
theorem State.snapFault_run {r' : KernelRun} (hu : (u.core c).run .primary = some r') :
    ∃ b, ((u.snapFault c k .primary).core c).run .primary = some { r' with noSnap := b } := by
  by_cases hm : r.merge.isSome = true
  · rw [State.snapFault_merge hk hm, State.core_modCore, if_pos rfl]
    exact ⟨r'.noSnap, hu⟩
  · have heng : ((u.owedSnapshot c k 4 r.launch).1.core c).eng = (u.core c).eng :=
      (congrArg CoreSt.eng ((u.owedSnapshot_written c k 4 r.launch).1.cores.core c) :)
    have hsame : ((u.owedSnapshot c k 4 r.launch).1.core c).run .primary = some r' := (congrArg (Engine.run · .primary) heng).trans hu
    rw [State.snapFault_owed hk hm, State.core_modCore, if_pos rfl, CoreSt.modRun, hsame]
    exact ⟨_, CoreSt.run_setRun ..⟩
end

/-! ### The step -/

theorem State.exec_fault {s : State} {i : Instr} {h : SlotHdr} {f : Ctx → SlotResult} {r : KernelRun} {kind : Byte}
    (hi : slotSem i = some (h, f)) (hr : s.Issues r) (hq : s.quietFar r) (hx : f (s.slotCtx r h) = .error kind) :
    exec i s = .next ((s.setCore s.active (s.cur.fell (r.faultAt kind 0 h.slot.num))).snapFault s.active s.cur.tick .primary) := by
  have hplan := planRun_solo_fault (CoreSt.Issues.tick hr) hi hx
  have hcc : engineCc (s.core s.active) s.active (s.peers s.active) (some [i]) = ⟨s.cur.fell (r.faultAt kind 0 h.slot.num), [], none⟩ :=
    engineCc_fault hr hplan
  have hfalls : faultsNow (s.core s.active) (s.cur.fell (r.faultAt kind 0 h.slot.num)).eng .primary = true :=
    CoreSt.Issues.fell_faults hr
  have hsecond (g : Engine) : faultsNow (s.core s.active) g .secondary = false := CoreSt.Issues.no_secondary_fault hr g
  have hsettle : (s.core s.active).tick.settle = s.cur.tick := (CoreSt.Issues.tick hr).settle
  rw [exec_slot hi, State.issueSolo, hr.run]
  refine congrArg Host.Outcome.next ?_
  unfold State.engineStep
  simp only [hcc, hfalls, hsecond, hq.farSettles, hq.finishFar hr, hsettle, State.sendRemotes_nil, Bool.true_or, Bool.not_true, Bool.and_false,
    Bool.false_eq_true, if_false, if_true]

/-- A kernel that fails a check of a slot operation ends, and nothing else happens but the snapshot (R130, R369). -/
theorem State.kernelFaulted {s : State} {r : KernelRun} (hr : s.Issues r) (kind : Byte) (slot : BitVec 3) :
    s.KernelFaulted r kind slot ((s.setCore s.active (s.cur.fell (r.faultAt kind 0 slot))).snapFault s.active s.cur.tick .primary) := by
  let u := s.setCore s.active (s.cur.fell (r.faultAt kind 0 slot))
  have hu : u.core s.active = s.cur.fell (r.faultAt kind 0 slot) := by rw [State.core_setCore, if_pos rfl]
  have hrest (d : CoreId) : (u.core d).sansEng = (s.core d).sansEng := by
    rw [State.core_setCore]
    split
    · next e => exact e ▸ CoreSt.Issues.fell_sansEng _ hr
    · rfl
  have hrun : s.cur.tick.run .primary = some r := hr.run
  obtain ⟨hactive, hmesh, hcores⟩ := State.snapFault_written (u := u) (c := s.active) hrun
  obtain ⟨b, hrun'⟩ := State.snapFault_run (u := u) hrun (hu ▸ CoreSt.Issues.fell_run _ hr)
  have hown (d : CoreId) : ((u.snapFault s.active s.cur.tick .primary).core d).own.sansEng = (s.core d).own.sansEng :=
    (hcores d).trans (congrArg CoreSt.own (hrest d))
  have hcur : (u.snapFault s.active s.cur.tick .primary).cur = (u.snapFault s.active s.cur.tick .primary).core s.active :=
    congrArg _ hactive
  refine ⟨?_, fun d => ⟨(congrArg CoreSt.cistern (hown d) :), (congrArg CoreSt.remoteQ (hown d) :)⟩, hmesh, fun hnone => ?_, _,
    (congrArg (CoreSt.run · .primary) hcur).trans hrun', rfl, rfl, rfl, rfl, rfl, rfl⟩
  · rw [hcur]
    exact (congrArg CoreSt.clusters (hown s.active) :)
  · obtain ⟨⟨hothers, hsame⟩, hsans⟩ := State.snapFault_only (u := u) (c := s.active) hrun hnone
    have hsame' := hsans.trans (hrest s.active)
    refine ⟨⟨fun d hd => (hothers d hd).trans ?_, ?_⟩, ?_⟩
    · rw [State.core_setCore, if_neg hd.symm]
    · exact congrArg (fun x => { x with cores := s.cores }) hsame
    · rw [hcur]
      exact ⟨(congrArg CoreSt.g hsame' :), (congrArg CoreSt.shadowG hsame' :), (congrArg CoreSt.pc hsame' :), (congrArg CoreSt.sem hsame' :),
        (congrArg CoreSt.kb hsame' :), (congrArg CoreSt.table hsame' :), (congrArg CoreSt.handles hsame' :)⟩

end Sys2Proof.Machine
end

section
open Sys2Proof Sys2Proof.Machine

/-- Settles O45: the bundle is planned as a fault, so the cc changes the kernel's end alone, and the snapshot is a write of the device's own. -/
theorem Sys2Proof.slotFaultsEndKernel : Obligations.SlotFaultsEndKernel := by
  intro s i h f r kind hi hr hq hx
  rw [State.exec_fault hi hr hq hx]
  exact answers_next (State.kernelFaulted hr kind h.slot.num)

end

section
/-! PROOF. A slot operation that gives results later, raises flags, starts rate limits, or sends requests, and else leaves its core alone
(R42, R47, R48, R129, R131, R170, R237). -/

namespace Sys2Proof.Machine

/-! ### The issue of a cluster, and those of all -/

/-- An issue without control, without a wait and without a change at once. -/
structure Issue.Straight (x : Issue) : Prop where
  now : x.now = []
  ctl : x.ctl = []
  wait : x.wait = none

/-- A straight issue that moves nothing but results: no unit is written and no request is sent. -/
structure Issue.Quiet (x : Issue) : Prop extends x.Straight where
  cis : x.cis = []
  far : x.far = []
  remote : x.remote = []

/-- Every flag that it names stays as it is. -/
def Issue.NoFlags (x : Issue) : Prop := ∀ f ∈ x.flags, f.2 = {}

theorem Issue.Straight.add {x y : Issue} (hx : x.Straight) (hy : y.Straight) : (x.add y).Straight := by
  obtain ⟨hnow, hctl, hwait⟩ := hx
  obtain ⟨hnow', hctl', hwait'⟩ := hy
  exact ⟨by simp [Issue.add, hnow, hnow'], by simp [Issue.add, hctl, hctl'], by simp [Issue.add, hwait, hwait']⟩

theorem Issue.Quiet.add {x y : Issue} (hx : x.Quiet) (hy : y.Quiet) : (x.add y).Quiet := by
  obtain ⟨hx, hcis, hfar, hremote⟩ := hx
  obtain ⟨hy, hcis', hfar', hremote'⟩ := hy
  exact ⟨hx.add hy, by simp [Issue.add, hcis, hcis'], by simp [Issue.add, hfar, hfar'], by simp [Issue.add, hremote, hremote']⟩

theorem Issue.NoFlags.add {x y : Issue} (hx : x.NoFlags) (hy : y.NoFlags) : (x.add y).NoFlags :=
  fun f hf => (List.mem_append.1 hf).elim (hx f) (hy f)

theorem Issue.straight_of_effs (es : List Eff) : (Issue.later es).Straight := ⟨rfl, rfl, rfl⟩
theorem Issue.quiet_of_effs (es : List Eff) : (Issue.later es).Quiet := ⟨Issue.straight_of_effs es, rfl, rfl, rfl⟩
theorem Issue.noFlags_of_effs (es : List Eff) : (Issue.later es).NoFlags := fun _ hf => nomatch hf

/-- What clusters do, joined in order. -/
def Issue.joined (g : ClusterId → Issue) (cs : List ClusterId) : Issue := cs.foldr (fun c y => (g c).add y) {}

theorem joinClusters_joined {f : ClusterId → SlotResult} {g : ClusterId → Issue} {cs : List ClusterId} (h : ∀ c ∈ cs, f c = .ok (g c)) :
    joinClusters f cs = .ok (.joined g cs) := by
  induction cs with
  | nil => rfl
  | cons c cs ih =>
    rw [joinClusters, h c List.mem_cons_self, ih fun d hd => h d (List.mem_cons_of_mem c hd)]
    rfl

section
variable (g : ClusterId → Issue) (cs : List ClusterId)

theorem Issue.joined_effs : (Issue.joined g cs).effs = cs.flatMap fun c => (g c).effs := by
  induction cs with
  | nil => rfl
  | cons c cs ih => exact congrArg ((g c).effs ++ ·) ih

variable {g cs}

theorem Issue.quiet_joined (h : ∀ c ∈ cs, (g c).Quiet) : (Issue.joined g cs).Quiet := by
  induction cs with
  | nil => exact quiet_of_effs []
  | cons c cs ih => exact (h c List.mem_cons_self).add (ih fun d hd => h d (List.mem_cons_of_mem c hd))

theorem Issue.noFlags_joined (h : ∀ c ∈ cs, (g c).NoFlags) : (Issue.joined g cs).NoFlags := by
  induction cs with
  | nil => exact noFlags_of_effs []
  | cons c cs ih => exact (h c List.mem_cons_self).add (ih fun d hd => h d (List.mem_cons_of_mem c hd))
end

/-- An issue alone in its bundle. -/
theorem Issue.Straight.alone {x : Issue} (hx : x.Straight) (h : SlotHdr) : (x.alone h).Straight :=
  Issue.Straight.add ⟨hx.now, hx.ctl, hx.wait⟩ (straight_of_effs [])

theorem Issue.NoFlags.alone {x : Issue} (hx : x.NoFlags) (h : SlotHdr) : (x.alone h).NoFlags :=
  Issue.NoFlags.add (x := x.inSlot h.slot.num) hx (noFlags_of_effs [])

/-! ### What a core holds after it -/

section
variable {k : CoreSt} {r : KernelRun} {y : Issue}

/-- A cluster but for its configuration. -/
def Cluster.sansCfg (k : Cluster) : Cluster := { k with cfg := 0 }

theorem CoreSt.raise_sansCfg (k : CoreSt) (c : ClusterId) (f : FpFlags) (d : ClusterId) :
    ((k.raise c f).clusters.read d).sansCfg = (k.clusters.read d).sansCfg := by
  show ((k.clusters.modify c _).read d).sansCfg = _
  rw [Bank.read_modify]
  split
  · next e => subst e; rfl
  · rfl

/-- What a bundle that changes nothing at once writes of the clusters at its issue: status bits of cfg. -/
theorem CoreSt.touched_sansCfg (pos : KPos) (hnow : y.now = []) (d : ClusterId) :
    ((k.touched pos y).clusters.read d).sansCfg = (k.clusters.read d).sansCfg := by
  have raise (k : CoreSt) (x : ClusterId × FpFlags) :
      ((if x.2 == {} then k else k.raise x.1 x.2).clusters.read d).sansCfg = (k.clusters.read d).sansCfg := by
    split
    · rfl
    · exact raise_sansCfg ..
  have clamp (k : CoreSt) : (k.raiseClamp pos).clusters = k.clusters := by cases pos <;> rfl
  have subst (k : CoreSt) : k.raiseSubst.clusters = k.clusters := rfl
  unfold CoreSt.touched
  rw [hnow]
  dsimp only [List.foldl_nil]
  rw [apply_ite CoreSt.clusters, subst, ite_self, apply_ite CoreSt.clusters, clamp, ite_self,
    foldl_keeps (fun k : CoreSt => (k.clusters.read d).sansCfg) raise]
  exact foldl_keeps (fun k : CoreSt => (k.clusters.read d).sansCfg) (by exact fun _ _ => rfl) _ _

/-- Without flags it writes nothing of them. -/
theorem CoreSt.touched_clusters (pos : KPos) (hnow : y.now = []) (hflags : y.NoFlags) : (k.touched pos y).clusters = k.clusters := by
  have raise (fs : List (ClusterId × FpFlags)) (h : ∀ f ∈ fs, f.2 = {}) (k : CoreSt) :
      (fs.foldl (fun k x => if x.2 == {} then k else k.raise x.1 x.2) k).clusters = k.clusters := by
    induction fs generalizing k with
    | nil => rfl
    | cons f fs ih =>
      rw [List.foldl_cons, h f List.mem_cons_self, beq_self_eq_true, if_pos rfl]
      exact ih (fun g hg => h g (List.mem_cons_of_mem f hg)) k
  have clamp (k : CoreSt) : (k.raiseClamp pos).clusters = k.clusters := by cases pos <;> rfl
  have subst (k : CoreSt) : k.raiseSubst.clusters = k.clusters := rfl
  unfold CoreSt.touched
  rw [hnow]
  dsimp only [List.foldl_nil]
  rw [apply_ite CoreSt.clusters, subst, ite_self, apply_ite CoreSt.clusters, clamp, ite_self, raise y.flags hflags]
  exact foldl_keeps CoreSt.clusters (by exact fun _ _ => rfl) _ _

theorem CoreSt.touched_cistern (pos : KPos) : (k.touched pos y).cistern = y.cis.foldl putUnit k.cistern := by
  have units (ws : List CisWrite) (k : CoreSt) : (ws.foldl (fun k w =>
      { k with cistern := putUnit k.cistern w
               cisPoison := if w.mask == -1 then removeNat w.unit k.cisPoison else k.cisPoison }) k).cistern =
      ws.foldl putUnit k.cistern := by
    induction ws generalizing k with
    | nil => rfl
    | cons w ws ih => exact ih _
  have raise (k : CoreSt) (x : ClusterId × FpFlags) : (if x.2 == {} then k else k.raise x.1 x.2).cistern = k.cistern := by
    split <;> rfl
  unfold CoreSt.touched
  dsimp only
  rw [apply_ite CoreSt.cistern, raiseSubst_cistern, ite_self, apply_ite CoreSt.cistern, raiseClamp_cistern, ite_self,
    foldl_cistern raise, units]
  exact congrArg (y.cis.foldl putUnit) (foldl_cistern (by exact fun _ _ => rfl) _ _)

/-- The writes of units at its issue are all that a bundle does to the Cistern. -/
theorem CoreSt.Issues.issued_cis (h : k.Issues r) : (k.issued y).cistern = y.cis.foldl putUnit k.cistern := by
  rw [issued_eq, bankFreeze_cistern, tickRates_cistern, h.commit_begun]
  show (CoreSt.arriveNow _ _ _).cistern = _
  rw [arriveNow_cistern, setRun_cistern, steered, steerRun_cistern]
  exact touched_cistern (k := k.begun) .primary

section
variable (h : k.Issues r) (hy : y.Straight)
include h hy

/-- It ends no kernel, in a loop or not. -/
theorem CoreSt.Issues.issued_going {r' : KernelRun} (hrun : (k.issued y).run .primary = some r') : r'.ending = none := by
  obtain ⟨b, hb, -⟩ := h.issued_run_eq y
  obtain rfl := Option.some.inj (hb.symm.trans hrun)
  obtain ⟨-, -, -, hend⟩ := loopBack_snd r.idx (k.begun.atIssue .primary y) (r.launched (k.begun.atIssue .primary y).eng y) r.loops
  show (steerRun _ _ y.ctl).2.ending = none
  rw [hy.ctl]
  exact hend.trans h.not_ended

/-- Outside of loops nothing of a cluster is written but what the operations of the bundle write. -/
theorem CoreSt.Issues.issued_clusters (hloops : r.loops = []) (hlate : ∀ e ∈ y.effs, e.lat ≠ 0) :
    (k.issued y).clusters = (k.begun.touched .primary y).clusters := by
  have hsteered : (k.begun.steered .primary y r).1 = k.begun.atIssue .primary y := by
    rw [steered, hy.ctl]
    show (loopBack r.idx _ _ r.loops).1 = _
    rw [hloops]
    rfl
  rw [issued_eq, h.commit_begun]
  show (CoreSt.arriveNow _ _ y.effs).clusters = _
  rw [arriveNow_late _ _ hlate, setRun_clusters, hsteered]
  rfl
end
end
end Sys2Proof.Machine
end

section
/-! PROOF. Slot operations whose results come later, whatever flags they raise: what they yield, cluster by cluster, and `Results`, `Flags`
and `Gives` from it (R48, R95, R129, R131, R154, R237). -/

namespace Sys2Proof.Machine

/-! ### What an operation yields -/

/-- A result of cluster `c`, or its arrival. -/
def Eff.Of (h : SlotHdr) (lat : Nat) (c : ClusterId) (ws : List RegWrite) (e : Eff) : Prop :=
  (∃ w ∈ ws, e = { lat := lat, cluster := c, what := w }) ∨
    ∃ n, h.arrive = some n ∧ e = { lat := lat, cluster := c, what := .nothing, arrive := some n }

/-- A cluster's issue is its results `ws`; where `silent` holds, without a flag. -/
structure Issue.Gives (silent : Prop) (lat : Nat) (c : ClusterId) (ws : List RegWrite) (y : Issue) : Prop extends y.Quiet where
  effs : y.effs = ws.map fun w => { lat := lat, cluster := c, what := w }
  flags : silent → y.NoFlags

/-- An operation passes its checks, and gives each cluster in `on` its results `ws`, `lat` kc later, and its arrival with them; where
`silent` holds, it raises no flag. -/
def Yields (silent : Prop) (h : SlotHdr) (on : ClusterId → Prop) (lat : Nat) (ws : ClusterId → List RegWrite) (o : SlotResult) : Prop :=
  ∃ y, o = .ok y ∧ y.Quiet ∧ (silent → y.NoFlags) ∧ ∀ e, e ∈ y.effs ↔ ∃ c, on c ∧ e.Of h lat c (ws c)

section
variable {silent : Prop} {x : Ctx} {lat : Nat} {ws : ClusterId → List RegWrite}

theorem Issue.gives_results {c : ClusterId} (ws : List RegWrite) :
    ({ effs := ws.map fun w => { lat := lat, cluster := c, what := w } } : Issue).Gives silent lat c ws :=
  ⟨quiet_of_effs _, rfl, fun _ => noFlags_of_effs _⟩

theorem Ctx.mem_arrival {c : ClusterId} {e : Eff} : e ∈ x.arrival lat c ↔
    ∃ n, x.h.arrive = some n ∧ e = { lat := lat, cluster := c, what := .nothing, arrive := some n } := by
  unfold Ctx.arrival
  cases x.h.arrive <;> simp

theorem Ctx.arrival_quiet {c : ClusterId} : ({ effs := x.arrival lat c } : Issue).Quiet := Issue.quiet_of_effs _

/-- The clusters of an operation joined: those in `on` give their results and arrive, the others do nothing. -/
theorem yields_joinClusters {f : ClusterId → SlotResult} {on : ClusterId → Prop} (hoff : ∀ c, ¬on c → f c = .ok {})
    (hon : ∀ c, on c → ∃ y : Issue, f c = .ok (y.add { effs := x.arrival lat c }) ∧ y.Gives silent lat c (ws c)) :
    Yields silent x.h on lat ws (joinClusters f allClusters) := by
  have hall (c : ClusterId) : ∃ y : Issue, f c = .ok y ∧ y.Quiet ∧ (silent → y.NoFlags) ∧
      ∀ e, e ∈ y.effs ↔ on c ∧ e.Of x.h lat c (ws c) := by
    by_cases hc : on c
    · obtain ⟨y, hf, hy⟩ := hon c hc
      refine ⟨_, hf, hy.toQuiet.add Ctx.arrival_quiet, fun hs => (hy.flags hs).add (Issue.noFlags_of_effs _), fun e => ?_⟩
      show e ∈ y.effs ++ x.arrival lat c ↔ _
      rw [List.mem_append, hy.effs, List.mem_map, Ctx.mem_arrival]
      simp only [hc, true_and, Eff.Of, @eq_comm _ _ e]
    · exact ⟨_, hoff c hc, Issue.quiet_of_effs [], fun _ => Issue.noFlags_of_effs [], fun e => by simp [hc]⟩
  choose g hok hquiet hflags heffs using hall
  refine ⟨_, joinClusters_joined fun c _ => hok c, Issue.quiet_joined fun c _ => hquiet c,
    fun hs => Issue.noFlags_joined fun c _ => hflags c hs, fun e => ?_⟩
  rw [Issue.joined_effs, List.mem_flatMap]
  simp only [mem_allClusters, true_and, heffs]

/-- An operation of slots C and D: the clusters with a lane on. -/
theorem yields_laned {f : ClusterId → Cluster → DWord → SlotResult}
    (hf : ∀ c, x.lanes c ≠ 0 → ∃ y : Issue, f c (x.cluster c) (x.lanes c) = .ok y ∧ y.Gives silent lat c (ws c)) :
    Yields silent x.h (fun c => x.lanes c ≠ 0) lat ws (x.laned lat f) := by
  refine yields_joinClusters (fun c hc => ?_) fun c hc => ?_
  · rw [not_ne_iff.1 hc]
    rfl
  · obtain ⟨y, hy, hgives⟩ := hf c hc
    refine ⟨y, ?_, hgives⟩
    rw [if_neg (by simpa using hc), hy]

/-- An operation of the other slots: the clusters whose guard is true. -/
theorem yields_guarded {f : ClusterId → Cluster → SlotResult}
    (hf : ∀ c, x.on c = true → ∃ y : Issue, f c (x.cluster c) = .ok y ∧ y.Gives silent lat c (ws c)) :
    Yields silent x.h (fun c => x.on c = true) lat ws (x.guarded lat f) := by
  refine yields_joinClusters (fun c hc => if_neg hc) fun c hc => ?_
  obtain ⟨y, hy, hgives⟩ := hf c hc
  refine ⟨y, ?_, hgives⟩
  rw [if_pos hc, hy]

/-- A rate limit that no earlier operation has started lets the operation pass (R129). -/
theorem yields_rate {h : SlotHdr} {on : ClusterId → Prop} {g : Option (BitVec 2)} {o : SlotResult} (hg : g = none ∨ x.core.eng.rates = [])
    (ho : Yields silent h on lat ws o) : Yields silent h on lat ws (x.rate g o) := by
  obtain ⟨y, rfl, hy⟩ := ho
  cases g with
  | none => exact ⟨y, rfl, hy⟩
  | some g =>
    obtain ⟨⟨⟨hnow, hctl, hwait⟩, hcis, hfar, hremote⟩, hflags, heffs⟩ := hy
    unfold Ctx.rate
    rw [hg.resolve_left (Option.some_ne_none g)]
    dsimp only [List.find?_nil]
    split
    · exact ⟨y, rfl, ⟨⟨hnow, hctl, hwait⟩, hcis, hfar, hremote⟩, hflags, heffs⟩
    · exact ⟨_, rfl, ⟨⟨hnow, hctl, hwait⟩, hcis, hfar, hremote⟩, hflags, heffs⟩
end

/-! ### What the core is then -/

section
variable {s : State} {i : Instr} {h : SlotHdr} {f : Ctx → SlotResult} {r : KernelRun} {x : Issue}

/-- A straight operation that sends no remote atomic leaves the state but for its core. -/
theorem State.exec_straight (hi : slotSem i = some (h, f)) (hr : s.Issues r) (hx : f (s.slotCtx r h) = .ok x) (hy : x.Straight)
    (hremote : x.remote = []) : exec i s = .next (s.setCore s.active (s.cur.issued (x.alone h))) := by
  rw [State.exec_alone hi hr hx (fun n hn => by rw [hy.wait] at hn; cases hn) (fun _ _ hc => by rw [hy.ctl] at hc; cases hc), hremote,
    State.sendRemotes_nil]

theorem State.cur_issued (s : State) (y : Issue) : (s.setCore s.active (s.cur.issued y)).cur = s.cur.issued y := by simp [State.cur]

/-- Of its core it changes nothing that a control program holds but what its arrivals do. -/
theorem State.onlyEngineBut_issued (hr : s.Issues r) (x : Issue) :
    s.OnlyEngineBut (s.cur.arriveNow .primary x.effs) (s.setCore s.active (s.cur.issued (x.alone h))) := by
  have hcontrol : (s.cur.issued (x.alone h)).control = s.cur.control := CoreSt.Issues.issued_control _ hr
  have hsame : s.cur.begun.SameBarriers s.cur := ⟨rfl, rfl⟩
  have harrivals := hsame.arriveNow .primary x.effs (f := fun e => { e with slot := h.slot.num }) (fun _ => rfl) fun _ => rfl
  rw [← x.alone_effs h] at harrivals
  obtain ⟨hkb, hsem⟩ := (CoreSt.Issues.issued_barriers (x.alone h) hr).trans harrivals
  refine ⟨⟨fun c hc => by simp [Ne.symm hc], rfl⟩, ?_⟩
  rw [State.cur_issued]
  exact ⟨congrArg (·.g) hcontrol, congrArg (·.shadowG) hcontrol, congrArg (·.pc) hcontrol, hsem, hkb, congrArg (·.table) hcontrol,
    congrArg (·.handles) hcontrol⟩

/-- An operation that yields results has them in flight and leaves the rest of its core, the clusters but for their flags. -/
theorem State.answers_yields {silent : Prop} {on : ClusterId → Prop} {lat : Nat} {ws : ClusterId → List RegWrite}
    (hi : slotSem i = some (h, f)) (hr : s.Issues r) (hlat : lat ≠ 0) (hf : Yields silent h on lat ws (f (s.slotCtx r h))) :
    Answers (exec i s) fun t => s.Flags r h on lat ws t ∧ (silent → r.loops = [] → t.cur.clusters = s.cur.clusters) := by
  obtain ⟨x, hx, hquiet, hsilent, heffs⟩ := hf
  have hlate : ∀ e ∈ x.effs, e.lat ≠ 0 := by
    intro e he
    obtain ⟨c, -, ⟨w, -, rfl⟩ | ⟨n, -, rfl⟩⟩ := (heffs e).1 he <;> exact hlat
  have hlate' : ∀ e ∈ (x.alone h).effs, e.lat ≠ 0 := by
    rw [x.alone_effs h]
    exact List.forall_mem_map.2 hlate
  have hstraight := hquiet.toStraight.alone h
  have harrived : s.arrivedAt h lat = s.cur.arriveNow .primary x.effs := by
    rw [CoreSt.arriveNow_late _ _ hlate]
    cases lat
    · exact absurd rfl hlat
    · rfl
  rw [State.exec_straight hi hr hx hquiet.toStraight hquiet.remote]
  obtain ⟨r', hrun, hcycle, hkc, hfar, hin, -, hplain⟩ := CoreSt.Issues.issued_run (x.alone h) hr
  refine answers_next ⟨⟨⟨?_, ?_, ?_, r', ?_, hkc, CoreSt.Issues.issued_going hr hstraight hrun, ?_, ?_, ?_⟩, ?_⟩, ?_⟩
  · rw [harrived]
    exact State.onlyEngineBut_issued hr x
  · rw [State.cur_issued]
    exact CoreSt.Issues.issued_cistern _ hr (by rw [x.alone_cis h, hquiet.cis])
  · rw [State.cur_issued]
    exact hcycle
  · rw [State.cur_issued]
    exact hrun
  · rw [hfar, x.alone_far h, hquiet.far, List.append_nil]
  · exact fun hloops => (hplain hloops hstraight.ctl).1
  · intro g
    rw [hin, List.filter_eq_self.2 (by simpa using hlate'), x.alone_effs h, List.map_map, List.mem_append, List.mem_map]
    refine or_congr_right ⟨?_, ?_⟩
    · rintro ⟨e, he, rfl⟩
      obtain ⟨c, hc, ⟨w, hw, rfl⟩ | ⟨n, hn, rfl⟩⟩ := (heffs e).1 he
      · exact ⟨c, hc, .inl ⟨w, hw, rfl⟩⟩
      · exact ⟨c, hc, .inr ⟨n, hlat, hn, rfl⟩⟩
    · rintro ⟨c, hc, ⟨w, hw, rfl⟩ | ⟨n, -, hn, rfl⟩⟩
      · exact ⟨_, (heffs _).2 ⟨c, hc, .inl ⟨w, hw, rfl⟩⟩, rfl⟩
      · exact ⟨_, (heffs _).2 ⟨c, hc, .inr ⟨n, hn, rfl⟩⟩, rfl⟩
  · intro hloops c
    rw [State.cur_issued, CoreSt.Issues.issued_clusters hr hstraight hloops hlate']
    exact CoreSt.touched_sansCfg .primary hstraight.now c
  · intro hs hloops
    rw [State.cur_issued, CoreSt.Issues.issued_clusters hr hstraight hloops hlate',
      CoreSt.touched_clusters .primary hstraight.now ((hsilent hs).alone h)]
    rfl

variable {on : ClusterId → Prop} {lat : Nat} {ws : ClusterId → List RegWrite}

theorem Answers.imp {o : Out} {P Q : State → Prop} (h : Answers o P) (hpq : ∀ t, P t → Q t) : Answers o Q := by
  obtain ⟨t, ho, ht⟩ := h
  exact ⟨t, ho, hpq t ht⟩

theorem State.flags_of_yields (hi : slotSem i = some (h, f)) (hr : s.Issues r) (hlat : lat ≠ 0)
    (hf : Yields False h on lat ws (f (s.slotCtx r h))) : Answers (exec i s) (s.Flags r h on lat ws) :=
  (State.answers_yields hi hr hlat hf).imp fun _ ht => ht.1

theorem State.gives_of_yields (hi : slotSem i = some (h, f)) (hr : s.Issues r) (hlat : lat ≠ 0)
    (hf : Yields True h on lat ws (f (s.slotCtx r h))) : Answers (exec i s) (s.Gives r h on lat ws) :=
  (State.answers_yields hi hr hlat hf).imp fun _ ht => ⟨ht.1.1, ht.2 trivial⟩
end
end Sys2Proof.Machine
end

section
/-! PROOF. Operands and results of slots C and D in single registers (R53, R60, R131, R132, R148). -/

namespace Sys2Proof.Machine

theorem Bank.ext_read {w : Nat} {α : Type} {b b' : Bank w α} (h : ∀ i, b.read i = b'.read i) : b = b' :=
  Vector.ext fun i hi => h (BitVec.ofFin ⟨i, hi⟩)

theorem Bank.fill_eq_ofFn {w : Nat} {α : Type} (y : α) : (Bank.fill y : Bank w α) = Bank.ofFn fun _ => y :=
  Bank.ext_read fun i => by rw [Bank.read_fill, Bank.read_ofFn]

/-! ### Operands -/

/-- The vector register that a name stands for in a cluster. -/
def Ctx.reg (x : Ctx) (c : ClusterId) (a : BitVec 5) : VReg := (x.cluster c).v.read (physV x.run.rb a)

theorem readVec_narrow {x : Ctx} {c : ClusterId} {a : BitVec 5} {accept : Tag → Bool} (ht : tagNarrow (x.reg c a).tag = true)
    (hok : accept (x.reg c a).tag = true) :
    readVec (x.cluster c) x.run.rb accept a = .ok ⟨(x.reg c a).lanes, (x.reg c a).lanes, (x.reg c a).tag⟩ := by
  have hok' : accept ((x.cluster c).v.read (physV x.run.rb a)).tag = true := hok
  rw [tagNarrow, Bool.and_eq_true, Bool.not_eq_true'] at ht
  obtain ⟨hvalid, hpair⟩ := ht
  have hvalid' : tagValid ((x.cluster c).v.read (physV x.run.rb a)).tag = true := hvalid
  have hpair' : tagPair ((x.cluster c).v.read (physV x.run.rb a)).tag = false := hpair
  unfold readVec
  simp only [hvalid', hok', hpair', Bool.not_true, Bool.or_false, Bool.false_eq_true, if_false]
  rfl

/-- A check that is passed. -/
theorem ok_bind {α : Type} (y : α) (f : α → SlotResult) : ((.ok y : Except Byte α) >>= f) = f y := rfl

/-- An operand that carries the tag that is asked for. -/
theorem readVec_tag {x : Ctx} {c : ClusterId} {a : BitVec 5} {t : Tag} (ht : (x.reg c a).tag = t) (hn : tagNarrow t = true) :
    readVec (x.cluster c) x.run.rb (· == t) a = .ok ⟨(x.reg c a).lanes, (x.reg c a).lanes, t⟩ := by
  subst ht
  exact readVec_narrow hn (beq_self_eq_true _)

/-! ### Results in one register -/

section
variable {silent : Prop} {lat : Nat} {c : ClusterId} {rb : BitVec 4} {d : BitVec 5} {t : Tag} {mask lo hi : Bank 6 Word}

theorem tagPair_of_narrow (ht : tagNarrow t = true) : tagPair t = false := by
  rw [tagNarrow, Bool.and_eq_true, Bool.not_eq_true'] at ht
  exact ht.2

theorem writeVec_narrow (ht : tagNarrow t = true) :
    writeVec rb lat c d t mask lo hi = [{ lat := lat, cluster := c, what := .vec (physV rb d) mask lo t }] := by
  unfold writeVec
  rw [tagPair_of_narrow ht]
  rfl

/-- A result in one register, and flags. -/
theorem Issue.gives_vec (ht : tagNarrow t = true) {fs : List (ClusterId × FpFlags)} (hfs : silent → ∀ f ∈ fs, f.2 = {}) :
    ({ effs := writeVec rb lat c d t mask lo hi, flags := fs } : Issue).Gives silent lat c [.vec (physV rb d) mask lo t] :=
  ⟨⟨⟨rfl, rfl, rfl⟩, rfl, rfl, rfl⟩, writeVec_narrow ht, hfs⟩

/-- An outcome that is a result in one register without a flag. -/
theorem Issue.of_vec (ht : tagNarrow t = true) {o : SlotResult} (ho : ∃ hi, o = .ok { effs := writeVec rb lat c d t mask lo hi }) :
    ∃ y : Issue, o = .ok y ∧ y.Gives silent lat c [.vec (physV rb d) mask lo t] := by
  obtain ⟨hi, ho⟩ := ho
  exact ⟨_, ho, gives_vec ht (fs := []) fun _ _ hf => nomatch hf⟩

theorem sourceResult_single {x : Ctx} {m : DWord} (ht : tagNarrow t = true) (h12 : t ≠ 12) :
    sourceResult x c d t m lo hi = .ok { effs := writeVec x.run.rb 2 c d t (laneMask m) lo hi } := by
  have hb4 : (t == 12) = false := by simpa using h12
  unfold sourceResult
  rw [tagPair_of_narrow ht, hb4]
  rfl
end

/-! ### Lanes of 32 bits -/

section
variable {t : Tag} (ht : tagWidth t = 32) (m : DWord) (a b : VOp) (f : Nat → Nat → Nat × FpFlags)

theorem laneElems_word (lo hi : Word) : laneElems 32 lo hi = [lo.toNat] := rfl

theorem packLane_word (x : Nat) : (packLane 32 [x]).1 = BitVec.ofNat 32 x := by
  apply BitVec.eq_of_toNat_eq
  simp [packLane, packNat]

theorem foldl_or_none {α : Type} {p : α → FpFlags} {xs : List α} (h : ∀ x ∈ xs, p x = {}) :
    xs.foldl (fun (g : FpFlags) x => g.or (p x)) {} = {} := by
  induction xs with
  | nil => rfl
  | cons x xs ih =>
    rw [List.foldl_cons, h x List.mem_cons_self]
    exact ih fun y hy => h y (List.mem_cons_of_mem x hy)

theorem mapLanes_lo (f : BitVec 6 → (Word × Word) × FpFlags) :
    (mapLanes m f).1 = Bank.ofFn fun l => if m.getLsbD l.toNat then (f l).1.1 else 0 := by
  unfold mapLanes
  dsimp only
  congr 1
  funext l
  rw [Bank.read_ofFn]
  split <;> rfl

theorem Bank.mem_list_ofFn {w : Nat} {α : Type} {f : BitVec w → α} {y : α} : y ∈ (Bank.ofFn f).list ↔ ∃ i, f i = y := by
  unfold Bank.list Bank.ofFn Vector.toList
  rw [List.mem_ofFn]
  exact ⟨fun ⟨i, hi⟩ => ⟨_, hi⟩, fun ⟨i, hi⟩ => ⟨i.toFin, hi⟩⟩

theorem mapLanes_noFlags {f : BitVec 6 → (Word × Word) × FpFlags} (hf : ∀ l, (f l).2 = {}) : (mapLanes m f).2.2 = {} := by
  refine foldl_or_none fun y hy => ?_
  obtain ⟨l, rfl⟩ := Bank.mem_list_ofFn.1 hy
  split
  · exact hf l
  · rfl

include ht

theorem lanes2_word : (lanes2 t m a b f).1 = Bank.ofFn fun l =>
    if m.getLsbD l.toNat then BitVec.ofNat 32 (f (a.lo.read l).toNat (b.lo.read l).toNat).1 else 0 := by
  unfold lanes2
  rw [mapLanes_lo]
  simp only [ht, laneElems_word, zipElems, packLane_word]

theorem lanes2_noFlags {f : Nat → Nat → Nat × FpFlags} (hf : ∀ x y, (f x y).2 = {}) : (lanes2 t m a b f).2.2 = {} := by
  refine mapLanes_noFlags m fun l => ?_
  simp only [ht, laneElems_word, zipElems, hf]
  rfl

end
end Sys2Proof.Machine
end

section
/-! PROOF. Moves, bitwise operations, selections and permutations of single registers other than B4 (R53, R153, R156, R157, R159, R160). -/

namespace Sys2Proof.Machine

section
variable {x : Ctx} {a b d : BitVec 5}

/-- A register has one of the tags of 32 bits or narrower in every cluster, B4 aside. -/
def Ctx.Single (x : Ctx) (a : BitVec 5) : Prop := ∀ c, tagNarrow (x.reg c a).tag = true ∧ (x.reg c a).tag ≠ 12

theorem slotMove_yields (f : Word → Word) (ha : x.Single a) : Yields True x.h (fun c => x.lanes c ≠ 0) 2
    (fun c => [.vec (physV x.run.rb d) (laneMask (x.lanes c)) (Bank.ofFn fun l => f ((x.reg c a).lanes.read l)) (x.reg c a).tag])
    (slotMove f d a x) := by
  refine yields_laned fun c _ => ?_
  obtain ⟨ht, h12⟩ := ha c
  refine Issue.of_vec ht ?_
  rw [readVec_narrow ht rfl]
  exact ⟨_, sourceResult_single ht h12⟩

theorem slotBitwise_yields (f : Word → Word → Word) (ha : x.Single a) (hb : ∀ c, (x.reg c b).tag = (x.reg c a).tag) :
    Yields True x.h (fun c => x.lanes c ≠ 0) 2 (fun c => [.vec (physV x.run.rb d) (laneMask (x.lanes c))
      (Bank.ofFn fun l => f ((x.reg c a).lanes.read l) ((x.reg c b).lanes.read l)) (x.reg c a).tag]) (slotBitwise f d a b x) := by
  refine yields_laned fun c _ => ?_
  obtain ⟨ht, h12⟩ := ha c
  refine Issue.of_vec ht ?_
  simp only [readVec_narrow ht, ok_bind, readVec_tag (hb c) ht]
  exact ⟨_, sourceResult_single ht h12⟩

theorem slotVsel_yields (ha : x.Single a) (hb : ∀ c, (x.reg c b).tag = (x.reg c a).tag) : Yields True x.h (fun _ => True) 2
    (fun c => [.vec (physV x.run.rb d) (laneMask (-1)) (Bank.ofFn fun l =>
      if (x.lanes c).getLsbD l.toNat then (x.reg c a).lanes.read l else (x.reg c b).lanes.read l) (x.reg c a).tag]) (slotVsel d a b x) := by
  refine yields_joinClusters (fun _ h => absurd trivial h) fun c _ => ?_
  obtain ⟨ht, h12⟩ := ha c
  let pick (p q : Bank 6 Word) : Bank 6 Word := Bank.ofFn fun l => if (x.lanes c).getLsbD l.toNat then p.read l else q.read l
  let picked := pick (x.reg c a).lanes (x.reg c b).lanes
  refine ⟨{ effs := writeVec x.run.rb 2 c d (x.reg c a).tag (laneMask (-1)) picked picked }, ?_,
    Issue.gives_vec ht (fs := []) fun _ _ hf => nomatch hf⟩
  show (readVec (x.cluster c) x.run.rb (fun _ => true) a >>= _) = _
  rw [readVec_narrow ht rfl]
  show (readVec (x.cluster c) x.run.rb (· == (x.reg c a).tag) b >>= _) = _
  rw [readVec_tag (hb c) ht]
  show (sourceResult x c d (x.reg c a).tag (-1) _ _ >>= _) = _
  rw [sourceResult_single ht h12]
  rfl

theorem slotVperm_yields (ha : x.Single a) (hb : ∀ c, (x.reg c b).tag = 14) : Yields True x.h (fun c => x.lanes c ≠ 0) 2
    (fun c => [.vec (physV x.run.rb d) (laneMask (x.lanes c)) (Bank.ofFn fun l =>
      let j := ((x.reg c b).lanes.read l).toNat
      if j < 64 then (x.reg c a).lanes.read (BitVec.ofNat 6 j) else 0) (x.reg c a).tag]) (slotVperm d a b x) := by
  refine yields_laned fun c _ => ?_
  obtain ⟨ht, h12⟩ := ha c
  refine Issue.of_vec ht ?_
  rw [readVec_narrow ht rfl, readVec_narrow (a := b) (by rw [hb c]; rfl) (by rw [hb c]; rfl)]
  exact ⟨_, sourceResult_single ht h12⟩

theorem slotVbcast_yields : Yields True x.h (fun c => x.lanes c ≠ 0) 2
    (fun c => [.vec (physV x.run.rb d) (laneMask (x.lanes c)) (Bank.ofFn fun _ => ((x.cluster c).a.read a).setWidth 32) 4])
    (slotVbcast 4 d a x) := by
  unfold slotVbcast
  refine yields_laned fun c _ => ?_
  have hword : (packLane 32 [((x.cluster c).a.read a).toNat]).1 = ((x.cluster c).a.read a).setWidth 32 := by
    rw [packLane_word]
    exact BitVec.ofNat_toNat ..
  rw [← Bank.fill_eq_ofFn, ← hword]
  exact Issue.of_vec (t := 4) rfl ⟨_, rfl⟩

theorem slotFunnel_yields (left : Bool) (ha : ∀ c, (x.reg c a).tag = 15) (hb : ∀ c, (x.reg c b).tag = 15) (hd : ∀ c, (x.reg c d).tag = 4) :
    Yields True x.h (fun c => x.lanes c ≠ 0) 2 (fun c => [.vec (physV x.run.rb d) (laneMask (x.lanes c)) (Bank.ofFn fun l =>
      let pair : DWord := (x.reg c a).lanes.read l ++ (x.reg c b).lanes.read l
      let n := ((x.reg c d).lanes.read l).toNat % 64
      if left then (pair <<< n).extractLsb' 32 32 else (pair >>> n).extractLsb' 0 32) 15]) (slotFunnel left d a b x) := by
  refine yields_laned fun c _ => ?_
  refine Issue.of_vec (t := 15) rfl ?_
  rw [readVec_narrow (a := a) (by rw [ha c]; rfl) (by rw [ha c]; rfl), readVec_narrow (a := b) (by rw [hb c]; rfl) (by rw [hb c]; rfl),
    readVec_narrow (a := d) (by rw [hd c]; rfl) (by rw [hd c]; rfl)]
  exact ⟨_, rfl⟩

/-- The ones of a word, counted bit by bit. -/
theorem popCount_eq (n x : Nat) : popCount n x = (List.range n).countP fun j => x.testBit j := by
  induction n generalizing x with
  | zero => rfl
  | succ n ih =>
    rw [popCount, ih, List.range_succ_eq_map, List.countP_cons, List.countP_map]
    have hlow : x % 2 = if x.testBit 0 = true then 1 else 0 := by
      rw [Nat.testBit_zero]
      by_cases h : x % 2 = 1
      · simp [h]
      · simp [h]
        omega
    rw [hlow, Nat.add_comm]
    congr 1
    refine List.countP_congr fun j _ => ?_
    simp [Nat.testBit_succ]

theorem slotVpopc_yields (ha : x.Single a) : Yields True x.h (fun c => x.lanes c ≠ 0) 2
    (fun c => [.vec (physV x.run.rb d) (laneMask (x.lanes c)) (Bank.ofFn fun l =>
      BitVec.ofNat 32 ((List.range 32).countP fun j => ((x.reg c a).lanes.read l).getLsbD j)) 4]) (slotVpopc false d a x) := by
  refine yields_laned fun c _ => ?_
  obtain ⟨ht, -⟩ := ha c
  refine Issue.of_vec (t := 4) rfl ?_
  simp only [BitVec.getLsbD, ← popCount_eq]
  rw [readVec_narrow (accept := fun t => false || tagNarrow t) ht ht]
  exact ⟨_, rfl⟩

/-- A pair of lane predicates. -/
theorem Issue.gives_lanePair {silent : Prop} {lat : Nat} {c : ClusterId} {n : BitVec 3} {m r : DWord} {fs : List (ClusterId × FpFlags)}
    (hfs : silent → ∀ f ∈ fs, f.2 = {}) : ({ effs := lanePair n c lat m r, flags := fs } : Issue).Gives silent lat c
      [.lanePred (n ++ (0 : BitVec 1)) m r, .lanePred (n ++ (1 : BitVec 1)) m (~~~r)] :=
  ⟨⟨⟨rfl, rfl, rfl⟩, rfl, rfl, rfl⟩, rfl, hfs⟩

theorem Issue.of_lanePair {silent : Prop} {lat : Nat} {c : ClusterId} {n : BitVec 3} {m r : DWord} {o : SlotResult}
    (ho : o = .ok { effs := lanePair n c lat m r }) : ∃ y : Issue, o = .ok y ∧ y.Gives silent lat c
      [.lanePred (n ++ (0 : BitVec 1)) m r, .lanePred (n ++ (1 : BitVec 1)) m (~~~r)] :=
  ⟨_, ho, gives_lanePair fun _ _ hf => nomatch hf⟩

theorem slotVqmov_from_yields {q : BitVec 4} : Yields True x.h (fun c => x.lanes c ≠ 0) 2
    (fun c => [.vec (physV x.run.rb d) (laneMask (x.lanes c)) (laneMask ((x.cluster c).lanePred q)) 15]) (slotVqmov false d q x) :=
  yields_laned fun _ _ => Issue.of_vec (t := 15) rfl ⟨_, rfl⟩

theorem slotVqmov_to_yields {q : BitVec 4} (hd : x.Single d) : Yields True x.h (fun c => x.lanes c ≠ 0) 2 (fun c =>
    let z := bitsOf fun l => (x.reg c d).lanes.read (BitVec.ofNat 6 l) != 0
    [.lanePred (q.extractLsb' 1 3 ++ (0 : BitVec 1)) (x.lanes c) z, .lanePred (q.extractLsb' 1 3 ++ (1 : BitVec 1)) (x.lanes c) (~~~z)])
    (slotVqmov true d q x) := by
  refine yields_laned fun c _ => ?_
  obtain ⟨ht, -⟩ := hd c
  refine Issue.of_lanePair ?_
  rw [if_pos rfl, readVec_narrow ht ht]
  rfl
end
end Sys2Proof.Machine
end

section
/-! PROOF. Vector arithmetic in I32 and in FP32 (R55, R149 to R152, R154). -/

namespace Sys2Proof.Machine

/-! ### I32 elements in the words of the spec -/

section
variable (k : Cluster) (x y : Word)

theorem toSigned_word : toSigned 32 x.toNat = x.toInt := by
  have hbit : bitOf x.toNat 31 = decide (2 ^ 31 ≤ x.toNat) := by
    rw [bitOf, Nat.testBit_eq_decide_div_mod_eq]
    exact decide_eq_decide.2 (by have := x.isLt; omega)
  unfold toSigned
  rw [show 32 - 1 = 31 from rfl, hbit, Nat.mod_eq_of_lt x.isLt, BitVec.toInt_eq_toNat_cond]
  by_cases hx : 2 ^ 31 ≤ x.toNat
  · rw [decide_eq_true hx, if_pos rfl, if_neg (by omega)]
  · rw [decide_eq_false hx, if_neg Bool.false_ne_true, if_pos (by omega)]

theorem ofNat_wrap (z : Int) : BitVec.ofNat 32 (wrap 32 z) = BitVec.ofInt 32 z := by
  apply BitVec.eq_of_toNat_eq
  rw [BitVec.toNat_ofNat, BitVec.toNat_ofInt, wrap, Nat.mod_eq_of_lt]
  omega

theorem vecElem_i32 (op : VecOp) : BitVec.ofNat 32 (vecElem k 4 op x.toNat y.toNat).1 = BitVec.ofInt 32 (op.int x.toInt y.toInt) := by
  rw [← ofNat_wrap, ← toSigned_word, ← toSigned_word]
  rfl

theorem vecElem_i32_add : BitVec.ofNat 32 (vecElem k 4 .add x.toNat y.toNat).1 = x + y := by
  rw [vecElem_i32]
  exact (BitVec.ofInt_add ..).trans (by rw [BitVec.ofInt_toInt, BitVec.ofInt_toInt])

theorem vecElem_i32_sub : BitVec.ofNat 32 (vecElem k 4 .sub x.toNat y.toNat).1 = x - y := by
  rw [vecElem_i32]
  show BitVec.ofInt 32 (x.toInt + -y.toInt) = _
  rw [BitVec.ofInt_add, BitVec.ofInt_neg, BitVec.ofInt_toInt, BitVec.ofInt_toInt, BitVec.sub_eq_add_neg]

theorem vecElem_i32_mul : BitVec.ofNat 32 (vecElem k 4 .mul x.toNat y.toNat).1 = x * y := by
  rw [vecElem_i32]
  exact (BitVec.ofInt_mul ..).trans (by rw [BitVec.ofInt_toInt, BitVec.ofInt_toInt])

theorem vecElem_i32_min : BitVec.ofNat 32 (vecElem k 4 .min x.toNat y.toNat).1 = if x.toInt ≤ y.toInt then x else y := by
  rw [vecElem_i32]
  exact (apply_ite (BitVec.ofInt 32) ..).trans (by rw [BitVec.ofInt_toInt, BitVec.ofInt_toInt])

theorem vecElem_i32_max : BitVec.ofNat 32 (vecElem k 4 .max x.toNat y.toNat).1 = if x.toInt ≤ y.toInt then y else x := by
  rw [vecElem_i32]
  exact (apply_ite (BitVec.ofInt 32) ..).trans (by rw [BitVec.ofInt_toInt, BitVec.ofInt_toInt])

theorem signElem_i32_abs : BitVec.ofNat 32 (signElem true 4 x.toNat).1 = BitVec.ofNat 32 x.toInt.natAbs := by
  show BitVec.ofNat 32 (wrap 32 ((toSigned 32 x.toNat).natAbs : Int)) = _
  rw [ofNat_wrap, toSigned_word]
  exact BitVec.ofInt_natCast ..

theorem signElem_i32_neg : BitVec.ofNat 32 (signElem false 4 x.toNat).1 = -x := by
  show BitVec.ofNat 32 (wrap 32 (-toSigned 32 x.toNat)) = _
  rw [ofNat_wrap, toSigned_word, BitVec.ofInt_neg, BitVec.ofInt_toInt]

theorem shiftElem_i32_left : BitVec.ofNat 32 (shiftElem true 4 x.toNat y.toNat).1 = x <<< y.toNat := by
  show BitVec.ofNat 32 (x.toNat * 2 ^ min y.toNat 32 % 2 ^ 32) = _
  apply BitVec.eq_of_toNat_eq
  rw [BitVec.toNat_ofNat, Nat.mod_mod, BitVec.toNat_shiftLeft, Nat.shiftLeft_eq]
  rcases Nat.le_total y.toNat 32 with hy | hy
  · rw [Nat.min_eq_left hy]
  · have hdvd : 2 ^ 32 ∣ x.toNat * 2 ^ y.toNat := (Nat.pow_dvd_pow 2 hy).mul_left _
    rw [Nat.min_eq_right hy, Nat.mul_mod_left, Nat.mod_eq_zero_of_dvd hdvd]

/-- A word shifted right by its whole length or more is its sign. -/
theorem ediv_beyond {z : Int} (hlo : -2 ^ 31 ≤ z) (hhi : z < 2 ^ 31) {n : Nat} (hn : 32 ≤ n) : z / 2 ^ n = z / 2 ^ 32 := by
  have hpow : (2 : Int) ^ 32 ≤ 2 ^ n := pow_le_pow_right₀ (by decide) hn
  rcases lt_or_ge z 0 with hz | hz
  · rw [show z / 2 ^ 32 = -1 by omega]
    exact Int.ediv_eq_neg_one_of_neg_of_le hz (by omega)
  · rw [Int.ediv_eq_zero_of_lt hz (by omega), Int.ediv_eq_zero_of_lt hz (by omega)]

theorem shiftElem_i32_right : BitVec.ofNat 32 (shiftElem false 4 x.toNat y.toNat).1 = x.sshiftRight y.toNat := by
  show BitVec.ofNat 32 (wrap 32 (toSigned 32 x.toNat / ((2 ^ min y.toNat 32 : Nat) : Int))) = _
  rw [ofNat_wrap, toSigned_word, BitVec.sshiftRight, Int.shiftRight_eq_div_pow]
  congr 1
  push_cast
  rcases Nat.le_total y.toNat 32 with hy | hy
  · rw [Nat.min_eq_left hy]
  · rw [Nat.min_eq_right hy]
    exact (ediv_beyond (by have := BitVec.le_toInt x; simpa using this) (by have := BitVec.toInt_lt (x := x); simpa using this) hy).symm

/-! ### The sign bit of FP32 (R151) -/

theorem signElem_fp32_abs : BitVec.ofNat 32 (signElem true 8 x.toNat).1 = x &&& 0x7FFFFFFF := by
  show BitVec.ofNat 32 (x.toNat % 2 ^ 31) = _
  apply BitVec.eq_of_toNat_eq
  rw [BitVec.toNat_ofNat, BitVec.toNat_and, Nat.mod_eq_of_lt (by omega)]
  exact (Nat.and_two_pow_sub_one_eq_mod x.toNat 31).symm

theorem signElem_fp32_neg : BitVec.ofNat 32 (signElem false 8 x.toNat).1 = x ^^^ 0x80000000 := by
  have hsign : (0x80000000 : Word) = BitVec.twoPow 32 31 := rfl
  show BitVec.ofNat 32 (if bitOf x.toNat 31 then x.toNat % 2 ^ 31 else x.toNat + 2 ^ 31) = _
  rw [hsign]
  by_cases hx : x.getLsbD 31 = true
  · have hx' : bitOf x.toNat 31 = true := hx
    rw [hx', if_pos rfl]
    apply BitVec.eq_of_getLsbD_eq
    intro i hi
    rw [BitVec.getLsbD_ofNat, Nat.testBit_mod_two_pow, BitVec.getLsbD_xor, BitVec.getLsbD_twoPow]
    by_cases h : i = 31
    · subst h; simp [hx]
    · have : i < 31 := by omega
      simp [this, Ne.symm h, BitVec.getLsbD, hi]
  · have hx' : bitOf x.toNat 31 = false := Bool.eq_false_iff.2 hx
    have hadd : BitVec.ofNat 32 (x.toNat + 2 ^ 31) = x + BitVec.twoPow 32 31 := by
      rw [BitVec.ofNat_add, BitVec.ofNat_toNat, BitVec.setWidth_eq]
      rfl
    have hdisjoint : x &&& BitVec.twoPow 32 31 = 0#32 := by
      rw [BitVec.and_twoPow, if_neg hx]
    rw [hx', if_neg Bool.false_ne_true, hadd, BitVec.add_eq_or_of_and_eq_zero _ _ hdisjoint]
    apply BitVec.eq_of_getLsbD_eq
    intro i hi
    rw [BitVec.getLsbD_or, BitVec.getLsbD_xor, BitVec.getLsbD_twoPow]
    by_cases h : i = 31
    · subst h
      rw [show x.getLsbD 31 = false from hx']
      rfl
    · simp [Ne.symm h]
end
end Sys2Proof.Machine
end

section
/-! PROOF. Operations of slots C and D on elements of 32 bits: arithmetic, signs, shifts, roots and comparisons (R149 to R152, R154). -/

namespace Sys2Proof.Machine

section
variable {silent : Prop} {x : Ctx} {a b d : BitVec 5} {t : Tag}

/-- A register has a tag in every cluster. -/
def Ctx.Tagged (x : Ctx) (a : BitVec 5) (t : Tag) : Prop := ∀ c, (x.reg c a).tag = t

/-- A register as an operand of one register. -/
def Ctx.operand (x : Ctx) (c : ClusterId) (a : BitVec 5) : VOp := ⟨(x.reg c a).lanes, (x.reg c a).lanes, (x.reg c a).tag⟩

/-- The result of an operation lane by lane, zero in the lanes that are off, under a mask that leaves those as they are. -/
def Ctx.eachLane (x : Ctx) (d : BitVec 5) (t : Tag) (c : ClusterId) (f : BitVec 6 → Word) : List RegWrite :=
  [.vec (physV x.run.rb d) (laneMask (x.lanes c)) (Bank.ofFn fun l => if (x.lanes c).getLsbD l.toNat then f l else 0) t]

theorem Issue.gives_vecResult (ht : tagNarrow t = true) {lat : Nat} {c : ClusterId} {m : DWord} {r : Bank 6 Word × Bank 6 Word × FpFlags}
    (hs : silent → r.2.2 = {}) : (vecResult x lat c d t m r).Gives silent lat c [.vec (physV x.run.rb d) (laneMask m) r.1 t] :=
  gives_vec ht (fs := [(c, r.2.2)]) fun h f hf => by rw [List.mem_singleton.1 hf]; exact hs h

theorem Issue.gives_mapLanes (ht : tagNarrow t = true) {lat : Nat} {c : ClusterId} {f : BitVec 6 → (Word × Word) × FpFlags}
    {g : BitVec 6 → Word} (hg : ∀ l, (f l).1.1 = g l) (hs : silent → ∀ l, (f l).2 = {}) :
    (vecResult x lat c d t (x.lanes c) (mapLanes (x.lanes c) f)).Gives silent lat c (x.eachLane d t c g) := by
  obtain rfl : (fun l => (f l).1.1) = g := funext hg
  unfold Ctx.eachLane
  rw [← mapLanes_lo]
  exact gives_vecResult ht fun h => mapLanes_noFlags _ (hs h)

/-- Elements of 32 bits combined lane by lane. -/
theorem Issue.gives_lanes2 (ht : tagNarrow t = true) (hw : tagWidth t = 32) {lat : Nat} {c : ClusterId} (va vb : VOp)
    {elem : Nat → Nat → Nat × FpFlags} (hs : silent → ∀ p q, (elem p q).2 = {}) :
    (vecResult x lat c d t (x.lanes c) (lanes2 t (x.lanes c) va vb elem)).Gives silent lat c
      (x.eachLane d t c fun l => BitVec.ofNat 32 (elem (va.lo.read l).toNat (vb.lo.read l).toNat).1) := by
  unfold Ctx.eachLane
  rw [← lanes2_word hw (x.lanes c) va vb elem]
  exact gives_vecResult ht fun h => lanes2_noFlags hw _ _ _ (hs h)

section
variable (ha : x.Tagged a t)
include ha

/-- VADD, VSUB, VMUL, VMIN, VMAX; VDIV when no rate limit runs. -/
theorem slotVec2_yields {op : VecOp} {f : BitVec 4} {lat : Nat} (hf : tagOf f = t) (ht : tagNarrow t = true) (hw : tagWidth t = 32)
    (hb : x.Tagged b t) (hlat : (if op == .div then 4 else vecLat t) = lat)
    (hrate : (if op == .div then rateDiv t else rateFp64 t) = none ∨ x.core.eng.rates = [])
    (hs : silent → ∀ k p q, (vecElem k t op p q).2 = {}) {g : Cluster → Word → Word → Word}
    (hg : ∀ k p q, BitVec.ofNat 32 (vecElem k t op (BitVec.toNat p) (BitVec.toNat q)).1 = g k p q) :
    Yields silent x.h (fun c => x.lanes c ≠ 0) lat (fun c => x.eachLane d t c fun l =>
      g (x.cluster c) ((x.reg c a).lanes.read l) ((x.reg c b).lanes.read l)) (slotVec2 op f d a b x) := by
  subst hf hlat
  obtain rfl : (fun k p q => BitVec.ofNat 32 (vecElem k (tagOf f) op (BitVec.toNat p) (BitVec.toNat q)).1) = g :=
    funext fun k => funext fun p => funext (hg k p)
  refine yields_rate hrate (yields_laned fun c _ => ⟨_, ?_, Issue.gives_lanes2 ht hw (x.operand c a) (x.operand c b)
    fun h => hs h (x.cluster c)⟩)
  simp only [readVec_tag (ha c) ht, readVec_tag (hb c) ht, ok_bind]
  rfl

theorem slotVfma_yields {fm : Fmt} {f : BitVec 4} (hf : tagOf f = t) (ht : tagNarrow t = true) (hw : tagWidth t = 32)
    (hb : x.Tagged b t) (hd : x.Tagged d t) (hfm : Fmt.ofTag t = some fm) (hrate : rateFp64 t = none) :
    Yields False x.h (fun c => x.lanes c ≠ 0) 4 (fun c => x.eachLane d t c fun l =>
      BitVec.ofNat 32 (fm.write (x.cluster c).rm (x.cluster c).ftz
        ((fm.read (x.cluster c).ftz ((x.reg c a).lanes.read l).toNat).fma (x.cluster c).rm
          (fm.read (x.cluster c).ftz ((x.reg c b).lanes.read l).toNat) (fm.read (x.cluster c).ftz ((x.reg c d).lanes.read l).toNat)).1).1)
      (slotVfma f d a b x) := by
  subst hf
  refine yields_rate (.inl hrate) (yields_laned fun c _ => ?_)
  simp only [readVec_tag (ha c) ht, readVec_tag (hb c) ht, readVec_tag (hd c) ht, ok_bind]
  refine ⟨_, rfl, ?_⟩
  simp only [hw, hfm, laneElems_word, List.zip_cons_cons, List.zip_nil_left, List.map_cons, List.map_nil]
  exact Issue.gives_mapLanes ht (fun l => packLane_word _) False.elim

/-- VABS and VNEG. -/
theorem slotSign_yields {isAbs : Bool} {f : BitVec 4} (hf : tagOf f = t) (ht : tagNarrow t = true) (hw : tagWidth t = 32)
    {g : Word → Word} (hg : ∀ p, BitVec.ofNat 32 (signElem isAbs t (BitVec.toNat p)).1 = g p) :
    Yields True x.h (fun c => x.lanes c ≠ 0) 2 (fun c => x.eachLane d t c fun l => g ((x.reg c a).lanes.read l)) (slotSign isAbs f d a x) := by
  subst hf
  obtain rfl : (fun p => BitVec.ofNat 32 (signElem isAbs (tagOf f) (BitVec.toNat p)).1) = g := funext hg
  have silent (p : Nat) : (signElem isAbs (tagOf f) p).2 = {} := by
    unfold signElem
    dsimp only
    split <;> rfl
  unfold slotSign
  dsimp only
  refine yields_laned fun c _ => ?_
  refine ⟨_, ?_, Issue.gives_lanes2 ht hw (x.operand c a) (x.operand c a) (elem := fun p _ => signElem isAbs (tagOf f) p)
    fun _ p _ => silent p⟩
  rw [readVec_tag (ha c) ht]
  rfl

/-- VSHL and VSHR. -/
theorem slotShift_yields {left : Bool} {f : BitVec 4} (hf : tagOf f = t) (ht : tagNarrow t = true) (hw : tagWidth t = 32)
    (hb : x.Tagged b t) {g : Word → Word → Word}
    (hg : ∀ p q, BitVec.ofNat 32 (shiftElem left t (BitVec.toNat p) (BitVec.toNat q)).1 = g p q) :
    Yields True x.h (fun c => x.lanes c ≠ 0) 2 (fun c => x.eachLane d t c fun l =>
      g ((x.reg c a).lanes.read l) ((x.reg c b).lanes.read l)) (slotShift left f d a b x) := by
  subst hf
  obtain rfl : (fun p q => BitVec.ofNat 32 (shiftElem left (tagOf f) (BitVec.toNat p) (BitVec.toNat q)).1) = g :=
    funext fun p => funext (hg p)
  have silent (p q : Nat) : (shiftElem left (tagOf f) p q).2 = {} := by
    unfold shiftElem
    dsimp only
    split <;> rfl
  unfold slotShift
  dsimp only
  refine yields_laned fun c _ => ?_
  refine ⟨_, ?_, Issue.gives_lanes2 ht hw (x.operand c a) (x.operand c b) fun _ => silent⟩
  simp only [readVec_tag (ha c) ht, readVec_tag (hb c) ht, ok_bind]
  rfl

theorem slotVsqrt_yields {fm : Fmt} {f : BitVec 4} (hf : tagOf f = t) (ht : tagNarrow t = true) (hw : tagWidth t = 32)
    (hfm : Fmt.ofTag t = some fm) (hrate : x.core.eng.rates = []) :
    Yields False x.h (fun c => x.lanes c ≠ 0) 4 (fun c => x.eachLane d t c fun l =>
      BitVec.ofNat 32 (fm.write (x.cluster c).rm (x.cluster c).ftz
        (fm.read (x.cluster c).ftz ((x.reg c a).lanes.read l).toNat).sqrt.1).1) (slotVsqrt f d a x) := by
  subst hf
  refine yields_rate (.inr hrate) (yields_laned fun c _ => ⟨_, ?_, Issue.gives_lanes2 ht hw (x.operand c a) (x.operand c a)
    (elem := fun p _ => fpElem2 fm (x.cluster c) (fun v _ => v.sqrt) p p) False.elim⟩)
  rw [readVec_tag (ha c) ht]
  simp only [hfm]
  rfl

/-- VCMP in a format of integers: the condition on two integers decides. -/
theorem slotVcmp_int_yields {f : BitVec 4} {cond n : BitVec 3} (hf : tagOf f = t) (ht : tagNarrow t = true) (hw : tagWidth t = 32)
    (hint : tagIeee t = false) (hb : x.Tagged b t) (hrate : rateFp64 t = none) {holds : Word → Word → Bool}
    (hholds : ∀ k p q, vecCompare k t cond (BitVec.toNat p) (BitVec.toNat q) = (holds p q, false)) :
    Yields True x.h (fun c => x.lanes c ≠ 0) 2 (fun c =>
      let z := bitsOf fun l => holds ((x.reg c a).lanes.read (BitVec.ofNat 6 l)) ((x.reg c b).lanes.read (BitVec.ofNat 6 l))
      [.lanePred (n ++ (0 : BitVec 1)) (x.lanes c) z, .lanePred (n ++ (1 : BitVec 1)) (x.lanes c) (~~~z)]) (slotVcmp f cond n a b x) := by
  subst hf
  have hlat : vecLat (tagOf f) = 2 := by rw [vecLat, hint]; rfl
  unfold slotVcmp
  dsimp only
  rw [hlat]
  refine yields_rate (.inl hrate) (yields_laned fun c _ => ?_)
  simp only [readVec_tag (ha c) ht, readVec_tag (hb c) ht, ok_bind, hw, laneElems_word, List.zip_cons_cons, List.zip_nil_left, List.map_cons,
    List.map_nil, hholds, List.any_cons, List.any_nil, List.all_cons, List.all_nil, Bool.or_false, Bool.and_true, Bool.and_false]
  refine ⟨_, rfl, Issue.gives_lanePair fun _ g hg => ?_⟩
  rw [List.mem_singleton.1 hg]
  simp
end

/-! ### I32 and FP32 (R149, R152) -/

section
variable (ha : x.Tagged a 4) (hb : x.Tagged b 4)
include ha hb

theorem slotVec2_i32_yields {op : VecOp} (hop : op ≠ .div) {g : Word → Word → Word}
    (hg : ∀ k p q, BitVec.ofNat 32 (vecElem k 4 op (BitVec.toNat p) (BitVec.toNat q)).1 = g p q) :
    Yields True x.h (fun c => x.lanes c ≠ 0) 2 (fun c => x.eachLane d 4 c fun l => g ((x.reg c a).lanes.read l) ((x.reg c b).lanes.read l))
      (slotVec2 op 4 d a b x) := by
  have hop' : (op == .div) = false := by simpa using hop
  exact slotVec2_yields ha rfl rfl rfl hb (by rw [hop']; rfl) (.inl (by rw [hop']; rfl)) (fun _ _ _ _ => rfl) (g := fun _ => g) hg

/-- The conditions of VCMP on integers. -/
def intHolds (cc : BitVec 3) (p q : Int) : Bool :=
  match cc with
  | 0#3 => decide (p = q)
  | 1#3 => decide (p ≠ q)
  | 2#3 => decide (p < q)
  | 3#3 => decide (q ≤ p)
  | 4#3 => decide (q < p)
  | 5#3 => decide (p ≤ q)
  | 6#3 => false
  | _ => true

omit ha hb in
theorem vecCompare_i32 (k : Cluster) (cc : BitVec 3) (p q : Word) :
    vecCompare k 4 cc p.toNat q.toNat = (intHolds cc p.toInt q.toInt, false) := by
  have hcompare : vecCompare k 4 cc p.toNat q.toNat = (match cc with
      | 0#3 => compare p.toInt q.toInt == .eq
      | 1#3 => compare p.toInt q.toInt != .eq
      | 2#3 => compare p.toInt q.toInt == .lt
      | 3#3 => compare p.toInt q.toInt != .lt
      | 4#3 => compare p.toInt q.toInt == .gt
      | 5#3 => compare p.toInt q.toInt != .gt
      | 6#3 => false
      | _ => true, false) := by
    rw [← toSigned_word p, ← toSigned_word q]
    rfl
  rw [hcompare]
  clear hcompare
  unfold intHolds
  rcases lt_trichotomy p.toInt q.toInt with h | h | h
  · rw [compare_lt_iff_lt.2 h, decide_eq_false h.ne, decide_eq_true h.ne, decide_eq_true h, decide_eq_false h.not_ge, decide_eq_false h.not_gt,
      decide_eq_true h.le]
    revert cc
    decide
  · rw [h, compare_eq_iff_eq.2 rfl]
    simp only [ne_eq, not_true_eq_false, decide_true, decide_false, lt_irrefl, le_refl]
    revert cc
    decide
  · rw [compare_gt_iff_gt.2 h, decide_eq_false h.ne', decide_eq_true h.ne', decide_eq_false h.not_gt, decide_eq_true h.le, decide_eq_true h,
      decide_eq_false h.not_ge]
    revert cc
    decide

theorem slotVcmp_i32_yields {cc n : BitVec 3} : Yields True x.h (fun c => x.lanes c ≠ 0) 2 (fun c =>
    let z := bitsOf fun l => intHolds cc ((x.reg c a).lanes.read (BitVec.ofNat 6 l)).toInt ((x.reg c b).lanes.read (BitVec.ofNat 6 l)).toInt
    [.lanePred (n ++ (0 : BitVec 1)) (x.lanes c) z, .lanePred (n ++ (1 : BitVec 1)) (x.lanes c) (~~~z)]) (slotVcmp 4 cc n a b x) :=
  slotVcmp_int_yields ha rfl rfl rfl rfl hb rfl (holds := fun p q => intHolds cc p.toInt q.toInt) fun k => vecCompare_i32 k cc
end

section
variable (ha : x.Tagged a 8) (hb : x.Tagged b 8)
include ha hb

theorem slotVec2_fp32_yields {op : VecOp} (hop : op ≠ .div) :
    Yields False x.h (fun c => x.lanes c ≠ 0) 4 (fun c => x.eachLane d 8 c fun l =>
      BitVec.ofNat 32 (Fmt.fp32.write (x.cluster c).rm (x.cluster c).ftz (op.real (x.cluster c).rm
        (Fmt.fp32.read (x.cluster c).ftz ((x.reg c a).lanes.read l).toNat)
        (Fmt.fp32.read (x.cluster c).ftz ((x.reg c b).lanes.read l).toNat)).1).1) (slotVec2 op 8 d a b x) := by
  have hop' : (op == .div) = false := by simpa using hop
  exact slotVec2_yields ha rfl rfl rfl hb (by rw [hop']; rfl) (.inl (by rw [hop']; rfl)) False.elim (g := fun k p q =>
    BitVec.ofNat 32 (Fmt.fp32.write k.rm k.ftz (op.real k.rm (Fmt.fp32.read k.ftz p.toNat) (Fmt.fp32.read k.ftz q.toNat)).1).1)
    fun _ _ _ => rfl

theorem slotVdiv_fp32_yields (hrates : x.core.eng.rates = []) :
    Yields False x.h (fun c => x.lanes c ≠ 0) 4 (fun c => x.eachLane d 8 c fun l =>
      BitVec.ofNat 32 (Fmt.fp32.write (x.cluster c).rm (x.cluster c).ftz
        ((Fmt.fp32.read (x.cluster c).ftz ((x.reg c a).lanes.read l).toNat).div
          (Fmt.fp32.read (x.cluster c).ftz ((x.reg c b).lanes.read l).toNat)).1).1) (slotVec2 .div 8 d a b x) :=
  slotVec2_yields ha rfl rfl rfl hb rfl (.inr hrates) False.elim (g := fun k p q =>
    BitVec.ofNat 32 (Fmt.fp32.write k.rm k.ftz ((Fmt.fp32.read k.ftz p.toNat).div (Fmt.fp32.read k.ftz q.toNat)).1).1) fun _ _ _ => rfl
end
end
end Sys2Proof.Machine
end

section
/-! PROOF. Elements of 32 bits in order, and the reductions and scans of I32 (R60, R161, R162). -/

namespace Sys2Proof.Machine

/-! ### Elements in order -/

section
variable {α : Type}

theorem nth_map_range (f : Nat → α) {n j : Nat} (hj : j < n) (y : α) : nth ((List.range n).map f) j y = f j := by
  simp [nth, hj]

theorem nth_map {β : Type} (f : α → β) (xs : List α) (i : Nat) (y : α) : nth (xs.map f) i (f y) = f (nth xs i y) := by
  rw [nth, nth, List.getElem?_map, Option.getD_map]

/-- A list cut into lists of one length, element by element. -/
theorem nth_flatMap_range {g : Nat → List α} {size : Nat} (hg : ∀ i, (g i).length = size) {n l : Nat} (hl : l < n * size) (y : α) :
    nth ((List.range n).flatMap g) l y = nth (g (l / size)) (l % size) y := by
  have hlen (n : Nat) : ((List.range n).flatMap g).length = n * size := by simp [List.length_flatMap, hg]
  induction n with
  | zero => omega
  | succ n ih =>
    rw [List.range_succ, List.flatMap_append, nth]
    rcases Nat.lt_or_ge l (n * size) with h | h
    · rw [List.getElem?_append_left (by rwa [hlen]), ← ih h]
      rfl
    · rw [Nat.succ_mul] at hl
      obtain ⟨k, rfl⟩ := Nat.exists_eq_add_of_le h
      have hk : k < size := by omega
      rw [List.getElem?_append_right (by rwa [hlen]), hlen, Nat.add_sub_cancel_left, Nat.mul_comm n, Nat.mul_add_div (by omega),
        Nat.mul_add_mod, Nat.div_eq_of_lt hk, Nat.mod_eq_of_lt hk]
      simp [nth]

theorem getElem?_chunks (n k : Nat) (xs : List α) {i : Nat} (hi : i < k) : (chunks n k xs)[i]? = some ((xs.drop (n * i)).take n) := by
  induction k generalizing xs i with
  | zero => omega
  | succ k ih =>
    cases i with
    | zero => simp [chunks]
    | succ i =>
      rw [chunks, List.getElem?_cons_succ, ih _ (by omega), List.drop_drop, Nat.mul_succ, Nat.add_comm]
end

theorem VOp.elems_word {v : VOp} (hw : tagWidth v.tag = 32) : v.elems = (List.range 64).map fun l => (v.lo.read (BitVec.ofNat 6 l)).toNat := by
  unfold VOp.elems
  rw [hw, List.map_eq_flatMap]
  rfl

theorem VOp.nth_elems {v : VOp} (hw : tagWidth v.tag = 32) {j : Nat} (hj : j < 64) : nth v.elems j 0 = (v.lo.read (BitVec.ofNat 6 j)).toNat := by
  rw [VOp.elems_word hw, nth_map_range _ hj]

theorem lanesOfElems_word {t : Tag} (hw : tagWidth t = 32) {xs : List Nat} (hlen : xs.length = 64) :
    (lanesOfElems t xs).1 = Bank.ofFn fun l => BitVec.ofNat 32 (nth xs l.toNat 0) := by
  unfold lanesOfElems
  dsimp only
  congr 1
  funext l
  have hl : l.toNat < xs.length := by omega
  rw [hw, nth, nth, List.getElem?_map, getElem?_chunks _ _ _ l.isLt, show max 1 (32 / 32) = 1 from rfl, Nat.one_mul,
    List.drop_eq_getElem_cons hl, List.take_succ_cons, List.take_zero, List.getElem?_eq_getElem hl]
  exact packLane_word _

/-! ### Sums modulo 2^32 -/

section
variable (k : Cluster)

theorem ofInt_toSigned (x : Nat) : BitVec.ofInt 32 (toSigned 32 x) = BitVec.ofNat 32 x := by
  have h := toSigned_word (BitVec.ofNat 32 x)
  have hbit : bitOf (x % 2 ^ 32) 31 = bitOf x 31 := (Nat.testBit_mod_two_pow x 32 31).trans (by simp [bitOf])
  rw [BitVec.toNat_ofNat, toSigned, Nat.mod_mod, show 32 - 1 = 31 from rfl, hbit] at h
  exact (congrArg (BitVec.ofInt 32) h).trans (BitVec.ofInt_toInt ..)

theorem vecElem_i32_add_nat (x y : Nat) : BitVec.ofNat 32 (vecElem k 4 .add x y).1 = BitVec.ofNat 32 x + BitVec.ofNat 32 y := by
  show BitVec.ofNat 32 (wrap 32 (toSigned 32 x + toSigned 32 y)) = _
  rw [ofNat_wrap, BitVec.ofInt_add, ofInt_toSigned, ofInt_toSigned]

/-- The sum modulo 2^32 of a list of elements. -/
def wordSum (xs : List Nat) : Word := (xs.map (BitVec.ofNat 32)).sum

theorem wordSum_cons (x : Nat) (xs : List Nat) : wordSum (x :: xs) = BitVec.ofNat 32 x + wordSum xs := rfl

section
variable {f : Nat → Nat → Nat × FpFlags} (hf : ∀ x y, BitVec.ofNat 32 (f x y).1 = BitVec.ofNat 32 x + BitVec.ofNat 32 y)

theorem pairUp_length (xs : List Nat) : (pairUp f xs).1.length = (xs.length + 1) / 2 := by
  induction xs using pairUp.induct f with
  | case1 x y xs r g hr rs gs hrs ih =>
    rw [pairUp]
    show (pairUp f xs).1.length + 1 = _
    simp only [ih, List.length_cons]
    omega
  | case2 xs h =>
    match xs with
    | [] => rfl
    | [_] => simp [pairUp]
    | x :: y :: xs => exact absurd rfl (h x y xs)

include hf

theorem pairUp_sum (xs : List Nat) : wordSum (pairUp f xs).1 = wordSum xs := by
  induction xs using pairUp.induct f with
  | case1 x y xs r g hr rs gs hrs ih =>
    rw [pairUp]
    show wordSum ((f x y).1 :: (pairUp f xs).1) = _
    rw [wordSum_cons, hf, ih, wordSum_cons, wordSum_cons, BitVec.add_assoc]
  | case2 xs h =>
    match xs with
    | [] => rfl
    | [_] => rfl
    | x :: y :: xs => exact absurd rfl (h x y xs)

/-- The tree of R161 gives the sum of what it is over. -/
theorem tree_sum (n : Nat) (xs : List Nat) (hlen : xs.length ≤ 2 ^ n) : BitVec.ofNat 32 (tree f n xs).1 = wordSum xs := by
  induction n generalizing xs with
  | zero =>
    match xs with
    | [] => rfl
    | [x] => exact (BitVec.add_zero _).symm
    | _ :: _ :: _ => simp at hlen
  | succ n ih =>
    rw [tree]
    show BitVec.ofNat 32 (tree f n (pairUp f xs).1).1 = _
    rw [ih _ (by rw [pairUp_length, Nat.pow_succ] at *; omega), pairUp_sum hf]

/-- The chain of R162 gives each element the sum before it and the sum after it. -/
theorem chain_sum (acc : Nat) (xs : List Nat) {i : Nat} (hi : i < xs.length) :
    BitVec.ofNat 32 (nth (chain f acc xs).1 i (0, 0)).1 = BitVec.ofNat 32 acc + wordSum (xs.take i) ∧
    BitVec.ofNat 32 (nth (chain f acc xs).1 i (0, 0)).2 = BitVec.ofNat 32 acc + wordSum (xs.take (i + 1)) := by
  induction xs generalizing acc i with
  | nil => exact absurd hi (Nat.not_lt_zero i)
  | cons x xs ih =>
    cases i with
    | zero => exact ⟨(BitVec.add_zero _).symm, (hf acc x).trans (congrArg (BitVec.ofNat 32 acc + ·) (BitVec.add_zero _).symm)⟩
    | succ i =>
      obtain ⟨hbefore, hafter⟩ := ih (f acc x).1 (Nat.lt_of_succ_lt_succ hi)
      rw [List.take_succ_cons, List.take_succ_cons, wordSum_cons, wordSum_cons, ← BitVec.add_assoc, ← BitVec.add_assoc, ← hf]
      exact ⟨hbefore, hafter⟩
end

theorem chain_length (f : Nat → Nat → Nat × FpFlags) (acc : Nat) (xs : List Nat) : (chain f acc xs).1.length = xs.length := by
  induction xs generalizing acc with
  | nil => rfl
  | cons x xs ih => exact congrArg (· + 1) (ih (f acc x).1)

/-! ### An operation without flags leaves a fold without flags -/

section
variable {f : Nat → Nat → Nat × FpFlags} (hf : ∀ x y, (f x y).2 = {})
include hf

theorem pairUp_noFlags (xs : List Nat) : (pairUp f xs).2 = {} := by
  induction xs using pairUp.induct f with
  | case1 x y xs r g hr rs gs hrs ih =>
    rw [pairUp]
    show (f x y).2.or (pairUp f xs).2 = {}
    rw [hf, ih]
    rfl
  | case2 xs h =>
    match xs with
    | [] => rfl
    | [_] => rfl
    | x :: y :: xs => exact absurd rfl (h x y xs)

theorem tree_noFlags (n : Nat) (xs : List Nat) : (tree f n xs).2 = {} := by
  induction n generalizing xs with
  | zero => rfl
  | succ n ih =>
    show (pairUp f xs).2.or (tree f n (pairUp f xs).1).2 = {}
    rw [pairUp_noFlags hf, ih]
    rfl

theorem chain_noFlags (acc : Nat) (xs : List Nat) : (chain f acc xs).2 = {} := by
  induction xs generalizing acc with
  | nil => rfl
  | cons x xs ih =>
    show (f acc x).2.or (chain f (f acc x).1 xs).2 = {}
    rw [hf, ih]
    rfl
end
end

/-! ### VRED and VSCAN of sums (R161, R162) -/

section
variable {x : Ctx} {a d : BitVec 5} {grp : BitVec 3}

/-- The sum of the first `n` lanes of lane `l`'s group, without the lanes that are off. -/
def Ctx.groupSum (x : Ctx) (a : BitVec 5) (size : Nat) (c : ClusterId) (l : BitVec 6) (n : Nat) : Word :=
  ((List.range n).map fun j => if (x.lanes c).getLsbD (size * (l.toNat / size) + j) then
    (x.reg c a).lanes.read (BitVec.ofNat 6 (size * (l.toNat / size) + j)) else 0).sum

/-- The group sizes 1, 2, …, 64 divide a register's lanes. -/
theorem groups_mul {grp : BitVec 3} (hgrp : grp.toNat ≤ 6) : 64 / 2 ^ grp.toNat * 2 ^ grp.toNat = 64 :=
  Nat.div_mul_cancel (Nat.pow_dvd_pow 2 hgrp)

theorem group_lt {grp : BitVec 3} (hgrp : grp.toNat ≤ 6) (l : BitVec 6) : l.toNat / 2 ^ grp.toNat < 64 / 2 ^ grp.toNat :=
  Nat.div_lt_of_lt_mul (by rw [Nat.mul_comm, groups_mul hgrp]; exact l.isLt)

/-- An element of a reduction or a scan by sums: zero where the lane is off. -/
def Ctx.addend (x : Ctx) (c : ClusterId) (a : BitVec 5) (j : Nat) : Nat :=
  if (x.lanes c).getLsbD j then nth (VOp.mk (x.reg c a).lanes (x.reg c a).lanes 4).elems j 0 else 0

theorem addend_word {c : ClusterId} {j : Nat} (hj : j < 64) : BitVec.ofNat 32 (x.addend c a j) =
    if (x.lanes c).getLsbD j then (x.reg c a).lanes.read (BitVec.ofNat 6 j) else 0 := by
  unfold Ctx.addend
  rw [VOp.nth_elems (v := .mk _ _ 4) rfl hj]
  split
  · exact BitVec.ofNat_toNat ..
  · rfl

theorem groupSum_eq (hgrp : grp.toNat ≤ 6) {c : ClusterId} {l : BitVec 6} {n : Nat} (hn : n ≤ 2 ^ grp.toNat) :
    wordSum ((List.range n).map fun j => x.addend c a (l.toNat / 2 ^ grp.toNat * 2 ^ grp.toNat + j)) = x.groupSum a (2 ^ grp.toNat) c l n := by
  unfold wordSum Ctx.groupSum
  rw [List.map_map]
  congr 1
  refine List.map_congr_left fun j hj => ?_
  have hj' := List.mem_range.1 hj
  have hlt : (l.toNat / 2 ^ grp.toNat + 1) * 2 ^ grp.toNat ≤ 64 / 2 ^ grp.toNat * 2 ^ grp.toNat := Nat.mul_le_mul_right _ (group_lt hgrp l)
  rw [groups_mul hgrp, Nat.succ_mul] at hlt
  rw [Function.comp, addend_word (by omega), Nat.mul_comm]

/-- The elements of a group that a chain or a tree is over. -/
def Ctx.addends (x : Ctx) (c : ClusterId) (a : BitVec 5) (size g : Nat) : List Nat := (List.range size).map fun j => x.addend c a (g * size + j)

/-- What VRED gives a group of lanes. -/
def Ctx.groupTree (x : Ctx) (c : ClusterId) (a : BitVec 5) (size g : Nat) : Nat × FpFlags :=
  if (List.range size).any fun l => (x.lanes c).getLsbD (g * size + l) then tree (redElem (x.cluster c) 4 0) 8 (x.addends c a size g)
  else (0, {})

theorem redElem_sum_noFlags (k : Cluster) (p q : Nat) : (redElem k 4 0 p q).2 = {} := rfl

theorem groupTree_noFlags {c : ClusterId} {size g : Nat} : (x.groupTree c a size g).2 = {} := by
  unfold Ctx.groupTree
  split
  · exact tree_noFlags (redElem_sum_noFlags _) ..
  · rfl

section
variable (hgrp : grp.toNat ≤ 6)
include hgrp

theorem wordSum_take_addends {c : ClusterId} {l : BitVec 6} {n : Nat} (hn : n ≤ 2 ^ grp.toNat) :
    wordSum ((x.addends c a (2 ^ grp.toNat) (l.toNat / 2 ^ grp.toNat)).take n) = x.groupSum a (2 ^ grp.toNat) c l n := by
  unfold Ctx.addends
  rw [← List.map_take, List.take_range, Nat.min_eq_left hn, groupSum_eq hgrp hn]

theorem wordSum_addends {c : ClusterId} {l : BitVec 6} :
    wordSum (x.addends c a (2 ^ grp.toNat) (l.toNat / 2 ^ grp.toNat)) = x.groupSum a (2 ^ grp.toNat) c l (2 ^ grp.toNat) :=
  groupSum_eq hgrp (Nat.le_refl _)

theorem groupTree_sum {c : ClusterId} {l : BitVec 6} :
    BitVec.ofNat 32 (x.groupTree c a (2 ^ grp.toNat) (l.toNat / 2 ^ grp.toNat)).1 = x.groupSum a (2 ^ grp.toNat) c l (2 ^ grp.toNat) := by
  unfold Ctx.groupTree
  split
  · have hlen : (x.addends c a (2 ^ grp.toNat) (l.toNat / 2 ^ grp.toNat)).length ≤ 2 ^ 8 := by
      rw [Ctx.addends, List.length_map, List.length_range]
      exact Nat.pow_le_pow_right (by decide) (by omega)
    exact (tree_sum (f := redElem (x.cluster c) 4 0) (vecElem_i32_add_nat (x.cluster c)) _ _ hlen).trans (wordSum_addends hgrp)
  · next hoff =>
    have hzero : x.groupSum a (2 ^ grp.toNat) c l (2 ^ grp.toNat) = ((List.range (2 ^ grp.toNat)).map fun _ => (0 : Word)).sum := by
      unfold Ctx.groupSum
      congr 1
      refine List.map_congr_left fun j hj => if_neg fun hon => hoff ?_
      exact List.any_eq_true.2 ⟨j, hj, by rwa [Nat.mul_comm]⟩
    rw [hzero]
    simp

theorem slotVred_sum_yields (ha : x.Tagged a 4) : Yields True x.h (fun c => x.lanes c ≠ 0) 2 (fun c =>
    [.vec (physV x.run.rb d) (laneMask (x.lanes c))
    (Bank.ofFn fun l => x.groupSum a (2 ^ grp.toNat) c l (2 ^ grp.toNat)) 4]) (slotVred 4 d a 0 grp x) := by
  have h4 : tagOf 4 = 4 := rfl
  have hw : tagWidth 4 = 32 := rfl
  unfold slotVred
  dsimp only
  rw [h4, hw]
  refine yields_rate (.inl rfl) (yields_laned fun c _ => ?_)
  have hlo : (Bank.ofFn fun l : BitVec 6 => x.groupSum a (2 ^ grp.toNat) c l (2 ^ grp.toNat)) = Bank.ofFn fun l : BitVec 6 =>
      (packLane 32 [(nth ((List.range (64 / 2 ^ grp.toNat)).map (x.groupTree c a (2 ^ grp.toNat))) (l.toNat / 2 ^ grp.toNat) (0, {})).1]).1 :=
    congrArg Bank.ofFn (funext fun l => by rw [packLane_word, nth_map_range _ (group_lt hgrp l), groupTree_sum hgrp])
  rw [hlo]
  simp only [readVec_tag (ha c) rfl, ok_bind, Nat.reduceDiv, Nat.max_self, Nat.mul_one, Nat.div_one]
  refine ⟨_, rfl, Issue.gives_vec (t := 4) rfl fun _ f hf => ?_⟩
  rw [List.mem_singleton.1 hf]
  exact foldl_or_none (List.forall_mem_map.2 fun g _ => groupTree_noFlags)

/-- The chain of VSCAN over a group of lanes, and which of its two values a lane gets. -/
def Ctx.groupChain (x : Ctx) (c : ClusterId) (a : BitVec 5) (size g : Nat) : List (Nat × Nat) × FpFlags :=
  chain (redElem (x.cluster c) 4 0) 0 (x.addends c a size g)
def scanned (excl : Bool) (v : Nat × Nat) : Nat := if excl then v.1 else v.2

omit hgrp in
theorem groupChain_length {c : ClusterId} {size : Nat} (g : Nat) : (x.groupChain c a size g).1.length = size := by
  rw [Ctx.groupChain, chain_length, Ctx.addends, List.length_map, List.length_range]

theorem groupChain_sum {c : ClusterId} {l : BitVec 6} (excl : Bool) :
    BitVec.ofNat 32 (scanned excl (nth (x.groupChain c a (2 ^ grp.toNat) (l.toNat / 2 ^ grp.toNat)).1 (l.toNat % 2 ^ grp.toNat) (0, 0))) =
      x.groupSum a (2 ^ grp.toNat) c l (l.toNat % 2 ^ grp.toNat + if excl then 0 else 1) := by
  have hmod := Nat.mod_lt l.toNat (Nat.two_pow_pos grp.toNat)
  obtain ⟨hbefore, hafter⟩ := chain_sum (f := redElem (x.cluster c) 4 0) (vecElem_i32_add_nat (x.cluster c)) 0
    (x.addends c a (2 ^ grp.toNat) (l.toNat / 2 ^ grp.toNat)) (i := l.toNat % 2 ^ grp.toNat) (by simpa [Ctx.addends] using hmod)
  cases excl with
  | true => exact hbefore.trans ((BitVec.zero_add _).trans (wordSum_take_addends hgrp hmod.le))
  | false => exact hafter.trans ((BitVec.zero_add _).trans (wordSum_take_addends hgrp hmod))

theorem scan_lanes {c : ClusterId} (excl : Bool) :
    (lanesOfElems 4 ((((List.range (64 / 2 ^ grp.toNat)).map (x.groupChain c a (2 ^ grp.toNat))).flatMap (·.1)).map (scanned excl))).1 =
      Bank.ofFn fun l => x.groupSum a (2 ^ grp.toNat) c l (l.toNat % 2 ^ grp.toNat + if excl then 0 else 1) := by
  rw [List.flatMap_map, lanesOfElems_word rfl (by
    simp only [List.length_map, List.length_flatMap, groupChain_length, List.map_const', List.length_range, List.sum_replicate_nat,
      groups_mul hgrp])]
  congr 1
  funext l
  have hzero : 0 = scanned excl (0, 0) := by cases excl <;> rfl
  rw [← groupChain_sum hgrp excl, ← nth_flatMap_range groupChain_length (by rw [groups_mul hgrp]; exact l.isLt),
    ← nth_map (scanned excl), ← hzero]

theorem slotVscan_sum_yields (ha : x.Tagged a 4) {excl : Bool} : Yields True x.h (fun c => x.lanes c ≠ 0) 2 (fun c =>
    [.vec (physV x.run.rb d) (laneMask (x.lanes c))
      (Bank.ofFn fun l => x.groupSum a (2 ^ grp.toNat) c l (l.toNat % 2 ^ grp.toNat + if excl then 0 else 1)) 4])
    (slotVscan 4 d a 0 excl grp x) := by
  have h4 : tagOf 4 = 4 := rfl
  unfold slotVscan
  dsimp only
  rw [h4]
  refine yields_rate (.inl rfl) (yields_laned fun c _ => ?_)
  rw [← scan_lanes hgrp excl]
  simp only [readVec_tag (ha c) rfl, ok_bind]
  refine ⟨_, rfl, Issue.gives_vec (t := 4) rfl fun _ f hf => ?_⟩
  rw [List.mem_singleton.1 hf]
  exact foldl_or_none (List.forall_mem_map.2 fun g _ => chain_noFlags (redElem_sum_noFlags _) ..)
end
end
end Sys2Proof.Machine
end

section
/-! PROOF. Conversions among FP32, I32 and RAW32, and the ranking of a row in I32 (R76, R158, R163). -/

namespace Sys2Proof.Machine

/-! ### A word from its bits -/

theorem testBit_packNat_bits (xs : List Bool) (i : Nat) : (packNat 1 (xs.map fun b => if b then 1 else 0)).testBit i = nth xs i false := by
  induction xs generalizing i with
  | nil => simp [packNat, nth]
  | cons b xs ih =>
    rw [List.map_cons, packNat]
    have hlow : (if b then 1 else 0) % 2 ^ 1 < 2 ^ 1 := Nat.mod_lt _ (by decide)
    rw [Nat.add_comm, Nat.testBit_two_pow_mul_add _ hlow]
    cases i with
    | zero => cases b <;> rfl
    | succ i => exact ih i

theorem getLsbD_bitsOf (p : Nat → Bool) {i : Nat} (hi : i < 64) : (bitsOf p).getLsbD i = p i := by
  have hbits : ((List.range 64).map fun l => if p l then 1 else 0) = ((List.range 64).map p).map fun b => if b then 1 else 0 :=
    by rw [List.map_map]; rfl
  rw [bitsOf, BitVec.getLsbD_ofNat, hbits, testBit_packNat_bits, nth_map_range p hi, decide_eq_true hi, Bool.true_and]

theorem bitsOf_getLsbD (m : DWord) : (bitsOf fun l => m.getLsbD l) = m :=
  BitVec.eq_of_getLsbD_eq fun _ hi => getLsbD_bitsOf _ hi

theorem nth_of_forall {α : Type} {P : α → Prop} {xs : List α} {y : α} (h : ∀ x ∈ xs, P x) (hy : P y) (j : Nat) : P (nth xs j y) := by
  unfold nth
  cases hj : xs[j]? with
  | none => exact hy
  | some z => exact h z (List.mem_of_getElem? hj)

/-! ### VCVT -/

theorem VOp.length_elems {v : VOp} (hw : tagWidth v.tag = 32) : v.elems.length = 64 := by
  rw [VOp.elems_word hw, List.length_map, List.length_range]

theorem lanesOfElems_map {t : Tag} (ht : tagWidth t = 32) {v : VOp} (hv : tagWidth v.tag = 32) (f : Nat → Nat) :
    (lanesOfElems t (v.elems.map f)).1 = Bank.ofFn fun l => BitVec.ofNat 32 (f (v.lo.read l).toNat) := by
  rw [lanesOfElems_word ht (by rw [List.length_map, VOp.length_elems hv]), VOp.elems_word hv, List.map_map]
  congr 1
  funext l
  rw [nth_map_range _ l.isLt]
  simp

section
variable {silent : Prop} {x : Ctx} {a d : BitVec 5}

theorem slotVcvt_yields {s t : Tag} {f : BitVec 4} (ha : x.Tagged a s) (hf : tagOf f = t) (hs : tagNarrow s = true) (ht : tagNarrow t = true)
    (hws : tagWidth s = 32) (hwt : tagWidth t = 32) (hpair : cvtPair s t = true) (h12 : s ≠ 12 ∧ t ≠ 12) (h13 : s ≠ 13 ∧ t ≠ 13)
    {g : Cluster → Word → Word} (hg : ∀ k z w, BitVec.ofNat 32 (cvtElem k s t z (BitVec.toNat w)).1 = g k w)
    (hsilent : silent → ∀ k z w, (cvtElem k s t z w).2 = {}) :
    Yields silent x.h (fun c => x.lanes c ≠ 0) 4 (fun c => [.vec (physV x.run.rb d) (laneMask (x.lanes c))
      (Bank.ofFn fun l => g (x.cluster c) ((x.reg c a).lanes.read l)) t]) (slotVcvt f d a 0 x) := by
  subst hf
  obtain ⟨hs12, ht12⟩ := h12
  obtain ⟨hs13, ht13⟩ := h13
  have hcount (t : Tag) (h : tagNarrow t = true) (h12 : t ≠ 12) (hw : tagWidth t = 32) : elemCount t = 64 := by
    have h12' : (t == 12) = false := by simpa using h12
    rw [elemCount, h12', tagPair_of_narrow h, hw]
    rfl
  unfold slotVcvt
  dsimp only
  refine yields_laned fun c _ => ?_
  have hread : readVec (x.cluster c) x.run.rb (fun s => cvtPair s (tagOf f)) a = .ok ⟨(x.reg c a).lanes, (x.reg c a).lanes, s⟩ := by
    obtain rfl := ha c
    exact readVec_narrow hs hpair
  have hs12' : (s == 12) = false := by simpa using hs12
  have ht12' : (tagOf f == 12) = false := by simpa using ht12
  have hs13' : (s == 13) = false := by simpa using hs13
  have ht13' : (tagOf f == 13) = false := by simpa using ht13
  have hparts : ¬ max (64 / 64) (64 / 64) ≤ (0 : BitVec 5).toNat := by decide
  have helems (v : VOp) (hv : tagWidth v.tag = 32) (e : Nat → Nat × FpFlags) :
      List.take 64 (List.drop ((0 : BitVec 5).toNat * 64) (v.elems.map e)) = v.elems.map e :=
    List.take_of_length_le (by rw [List.length_drop, List.length_map, VOp.length_elems hv]; decide)
  rw [hread, ok_bind]
  simp only [hs12', ht12', hs13', ht13', hcount s hs hs12 hws, hcount (tagOf f) ht ht12 hwt, Bool.or_self, Bool.false_eq_true, if_false, hparts,
    le_refl, if_true, decide_true, Bool.true_or, Bool.and_true, bitsOf_getLsbD, helems ⟨_, _, s⟩ hws, List.map_map]
  have hlo := lanesOfElems_map hwt (v := ⟨(x.reg c a).lanes, (x.reg c a).lanes, s⟩) hws
    ((·.1) ∘ cvtElem (x.cluster c) s (tagOf f) (((x.cluster c).a.read 0).extractLsb' 0 10).toInt)
  simp only [Function.comp, hg] at hlo
  refine ⟨_, rfl, ?_⟩
  rw [← hlo]
  refine Issue.gives_vec ht fun h e he => ?_
  rw [List.mem_singleton.1 he]
  refine List.foldl_fixed' (fun j => ?_) _
  have hnone := nth_of_forall (P := fun e => e.2 = {}) (xs := (VOp.mk (x.reg c a).lanes (x.reg c a).lanes s).elems.map
    (cvtElem (x.cluster c) s (tagOf f) (((x.cluster c).a.read 0).extractLsb' 0 10).toInt)) (y := (0, {}))
    (List.forall_mem_map.2 fun w _ => hsilent h _ _ w) rfl j
  split
  · rw [hnone]
    rfl
  · rfl

/-- FP32 into I32. -/
theorem slotVcvt_fp32_i32_yields (ha : x.Tagged a 8) : Yields False x.h (fun c => x.lanes c ≠ 0) 4 (fun c =>
    [.vec (physV x.run.rb d) (laneMask (x.lanes c)) (Bank.ofFn fun l => BitVec.ofNat 32
      (realToInt 4 (x.cluster c).rm (Fmt.fp32.read (x.cluster c).ftz ((x.reg c a).lanes.read l).toNat)).1) 4]) (slotVcvt 4 d a 0 x) :=
  slotVcvt_yields ha rfl rfl rfl rfl rfl rfl (by decide) (by decide)
    (g := fun k w => BitVec.ofNat 32 (realToInt 4 k.rm (Fmt.fp32.read k.ftz w.toNat)).1) (fun _ _ _ => rfl) False.elim

section
variable (ha : x.Tagged a 4)
include ha

/-- I32 into FP32. -/
theorem slotVcvt_i32_fp32_yields : Yields False x.h (fun c => x.lanes c ≠ 0) 4 (fun c =>
    [.vec (physV x.run.rb d) (laneMask (x.lanes c)) (Bank.ofFn fun l => BitVec.ofNat 32
      (Fmt.fp32.convert (x.cluster c).rm (x.cluster c).ftz (x.cluster c).satBit (.ofInt ((x.reg c a).lanes.read l).toInt 0)).1) 8])
    (slotVcvt 8 d a 0 x) := by
  refine slotVcvt_yields ha rfl rfl rfl rfl rfl rfl (by decide) (by decide)
    (g := fun k w => BitVec.ofNat 32 (Fmt.fp32.convert k.rm k.ftz k.satBit (.ofInt w.toInt 0)).1) (fun k _ w => ?_) False.elim
  rw [← toSigned_word w]
  rfl

/-- I32 into RAW32. -/
theorem slotVcvt_i32_raw_yields : Yields True x.h (fun c => x.lanes c ≠ 0) 4 (fun c =>
    [.vec (physV x.run.rb d) (laneMask (x.lanes c)) (Bank.ofFn (x.reg c a).lanes.read) 15]) (slotVcvt 15 d a 0 x) :=
  slotVcvt_yields ha rfl rfl rfl rfl rfl rfl (by decide) (by decide) (g := fun _ w => w) (fun _ _ w => BitVec.ofNat_toNat ..)
    fun _ _ _ _ => rfl
end

/-! ### VTOPK -/

section
variable {above : Nat → Nat → Bool}

theorem insertRanked_perm (e : Nat × Nat) (ys : List (Nat × Nat)) : (insertRanked above e ys).Perm (e :: ys) := by
  induction ys with
  | nil => exact .refl _
  | cons y ys ih =>
    unfold insertRanked
    split
    · exact .refl _
    · exact (ih.cons y).trans (.swap e y ys)

/-- A candidate put in its place keeps an order in which it comes after what it does not rank above. -/
theorem insertRanked_pairwise {R : Nat × Nat → Nat × Nat → Prop} (htrans : ∀ {p q r}, R p q → R q r → R p r) {e : Nat × Nat}
    {ys : List (Nat × Nat)} (habove : ∀ y ∈ ys, if above e.1 y.1 then R e y else R y e) (hys : ys.Pairwise R) :
    (insertRanked above e ys).Pairwise R := by
  induction ys with
  | nil => exact List.pairwise_singleton R e
  | cons y ys ih =>
    obtain ⟨hy, hrest⟩ := List.pairwise_cons.1 hys
    have hhead := habove y List.mem_cons_self
    unfold insertRanked
    split
    · next h =>
      rw [if_pos h] at hhead
      exact List.pairwise_cons.2 ⟨List.forall_mem_cons.2 ⟨hhead, fun z hz => htrans hhead (hy z hz)⟩, hys⟩
    · next h =>
      rw [if_neg h] at hhead
      refine List.pairwise_cons.2 ⟨fun z hz => ?_, ih (fun z hz => habove z (List.mem_cons_of_mem y hz)) hrest⟩
      rcases List.mem_cons.1 ((insertRanked_perm e ys).mem_iff.1 hz) with rfl | hz
      · exact hhead
      · exact hy z hz
end

/-- The candidates of a row in the order of VTOPK: those of greater value first, equal ones by lane. -/
def ranked (above : Nat → Nat → Bool) (value : Nat → Nat) (n : Nat) : List (Nat × Nat) :=
  ((List.range n).map fun j => (value j, j)).foldl (fun r e => insertRanked above e r) []

section
variable (above : Nat → Nat → Bool) (value : Nat → Nat)

theorem ranked_succ (n : Nat) : ranked above value (n + 1) = insertRanked above (value n, n) (ranked above value n) := by
  unfold ranked
  rw [List.range_succ, List.map_append, List.foldl_append]
  rfl

theorem ranked_perm (n : Nat) : (ranked above value n).Perm ((List.range n).map fun j => (value j, j)) := by
  induction n with
  | zero => exact .refl _
  | succ n ih =>
    rw [ranked_succ, List.range_succ, List.map_append]
    exact (insertRanked_perm ..).trans ((ih.cons _).trans (List.perm_append_singleton ..).symm)

theorem ranked_pairwise {key : Nat → Int} (habove : ∀ i j, above (value i) (value j) = decide (key j < key i)) (n : Nat) :
    (ranked above value n).Pairwise fun p q => key q.2 < key p.2 ∨ (key q.2 = key p.2 ∧ p.2 < q.2) := by
  induction n with
  | zero => exact .nil
  | succ n ih =>
    rw [ranked_succ]
    refine insertRanked_pairwise (by intros; omega) (fun y hy => ?_) ih
    obtain ⟨j, hj, rfl⟩ := List.mem_map.1 ((ranked_perm above value n).mem_iff.1 hy)
    have hlt := List.mem_range.1 hj
    rw [habove]
    split
    · next h => exact .inl (of_decide_eq_true h)
    · next h =>
      have := of_decide_eq_false (Bool.eq_false_iff.2 h)
      dsimp only
      omega
end

/-- A lane of a register, by number. -/
def Ctx.lane (x : Ctx) (c : ClusterId) (a : BitVec 5) (j : Nat) : Word := (x.reg c a).lanes.read (BitVec.ofNat 6 j)

/-- The two counts of VTOPK's count register: the lanes of its row, and how many it asks for. -/
def Ctx.topkRow (x : Ctx) (c : ClusterId) (b : BitVec 5) : Nat := min (((x.cluster c).a.read b).extractLsb' 8 7).toNat 64
def Ctx.topkWant (x : Ctx) (c : ClusterId) (b : BitVec 5) : Nat := (((x.cluster c).a.read b).extractLsb' 0 7).toNat

/-- The candidates of VTOPK in I32, ranked. -/
def Ctx.topk (x : Ctx) (c : ClusterId) (a b : BitVec 5) : List (Nat × Nat) :=
  ranked (ranksAbove (x.cluster c) 4) (fun j => (x.lane c a j).toNat) (x.topkRow c b)

section
variable {b : BitVec 5} (c : ClusterId)

theorem topk_perm : ((x.topk c a b).map (·.2)).Perm (List.range (x.topkRow c b)) :=
  ((ranked_perm ..).map (·.2)).trans (.of_eq (by rw [List.map_map]; exact List.map_id _))

theorem topk_pairwise : ((x.topk c a b).map (·.2)).Pairwise fun i j =>
    (x.lane c a j).toInt < (x.lane c a i).toInt ∨ ((x.lane c a j).toInt = (x.lane c a i).toInt ∧ i < j) := by
  refine List.pairwise_map.2 (ranked_pairwise _ _ (key := fun j => (x.lane c a j).toInt) (fun i j => ?_) _)
  show decide (toSigned 32 _ < toSigned 32 _) = _
  rw [toSigned_word, toSigned_word]

theorem topk_value {e : Nat × Nat} (he : e ∈ x.topk c a b) : e.1 = (x.lane c a e.2).toNat := by
  obtain ⟨j, -, rfl⟩ := List.mem_map.1 ((ranked_perm ..).mem_iff.1 he)
  rfl

/-- The candidates as the operation collects them. -/
theorem topk_candidates (n : Nat) : ((List.range (min n 64)).map fun j => (nth (VOp.mk (x.reg c a).lanes (x.reg c a).lanes 4).elems j 0, j)) =
    (List.range (min n 64)).map fun j => ((x.lane c a j).toNat, j) :=
  List.map_congr_left fun j hj => by
    rw [VOp.nth_elems rfl (lt_of_lt_of_le (List.mem_range.1 hj) (Nat.min_le_right ..))]
    rfl
end

/-- VTOPK in I32 gives the ranked lanes, their numbers and their count. -/
theorem slotVtopk_yields {b : BitVec 5} (ha : x.Tagged a 4) : Yields False x.h (fun c => x.lanes c ≠ 0) 4 (fun c =>
    let first : Bank 6 Word := laneMask (bitsOf fun l => decide (l < min (x.topkWant c b) 64))
    let out (n : Nat → Word) (none : Word) : Bank 6 Word := Bank.ofFn fun l => ((((x.topk c a b).map (·.2))[l.toNat]?).map n).getD none
    [.vec (physV x.run.rb d) first (out (x.lane c a) 0x80000000) 4, .vec (physV x.run.rb (d + 1)) first (out (BitVec.ofNat 32 ·) 0xFFFFFFFF) 14,
      .scalar b (BitVec.ofNat 64 (min (x.topkWant c b) (x.topkRow c b)))]) (slotVtopk false d a b x) := by
  refine yields_laned fun c _ => ?_
  have hread : readVec (x.cluster c) x.run.rb (fun t => t == 4 || t == 8) a = .ok ⟨(x.reg c a).lanes, (x.reg c a).lanes, 4⟩ := by
    have := readVec_narrow (x := x) (c := c) (a := a) (accept := fun t => t == 4 || t == 8)
    rw [ha c] at this
    exact this rfl rfl
  rw [hread, ok_bind]
  simp only [Bool.not_false, Bool.true_or, List.filter_true, topk_candidates]
  refine ⟨_, rfl, ⟨⟨rfl, rfl, rfl⟩, rfl, rfl, rfl⟩, ?_, False.elim⟩
  rw [writeVec_narrow rfl, writeVec_narrow rfl, List.length_map, List.length_range]
  refine congrArg₂ (fun v n : Bank 6 Word =>
      [Eff.mk 4 c (.vec _ _ v 4) none 0, Eff.mk 4 c (.vec _ _ n 14) none 0, Eff.mk 4 c (.scalar b _) none 0])
    (congrArg Bank.ofFn (funext fun l => ?_)) (congrArg Bank.ofFn (funext fun l => ?_))
  · show BitVec.ofNat 32 (match (x.topk c a b)[l.toNat]? with | some e => (e.1, e.2) | none => (0x80000000, 0xFFFFFFFF)).1 = _
    rw [List.getElem?_map]
    cases he : (x.topk c a b)[l.toNat]? with
    | none => rfl
    | some e => exact (congrArg (BitVec.ofNat 32) (topk_value c (List.mem_of_getElem? he))).trans (BitVec.ofNat_toNat ..)
  · show BitVec.ofNat 32 (match (x.topk c a b)[l.toNat]? with | some e => (e.1, e.2) | none => (0x80000000, 0xFFFFFFFF)).2 = _
    rw [List.getElem?_map]
    cases (x.topk c a b)[l.toNat]? <;> rfl
end
end Sys2Proof.Machine
end

section
/-! PROOF. The switch between clusters (R200, R201). -/

namespace Sys2Proof.Machine

section
variable {x : Ctx} {a d : BitVec 5} {q : BitVec 2}

theorem switchable_single (ha : x.Single a) (c : ClusterId) :
    readVec (x.cluster c) x.run.rb switchable a = .ok ⟨(x.reg c a).lanes, (x.reg c a).lanes, (x.reg c a).tag⟩ := by
  obtain ⟨ht, h12⟩ := ha c
  refine readVec_narrow ht ?_
  rw [switchable, ht, bne_iff_ne.2 h12]
  rfl

/-- A quarter of a cluster's register, as it arrives. -/
def Ctx.part (x : Ctx) (a d : BitVec 5) (q : BitVec 2) (c : ClusterId) : RegWrite :=
  .quarter (physV x.run.rb d) q (Bank.ofFn fun l => (x.reg c a).lanes.read (q ++ l)) (x.reg c a).tag

variable (ha : x.Single a)
include ha

theorem slotSwrecv_yields {n : BitVec 4} : Yields True x.h (fun c => x.on c = true) 3
    (fun c => [x.part a d q (partner (x.cluster c) n)]) (slotSwrecv d a q n x) := by
  refine yields_guarded fun c _ => ?_
  rw [switchable_single ha]
  exact ⟨_, rfl, Issue.gives_results _⟩

theorem slotSwbcast_yields {e : ClusterId} : Yields True x.h (fun c => x.on c = true) 3 (fun _ => [x.part a d q e]) (slotSwbcast d a q e x) := by
  refine yields_guarded fun c _ => ?_
  rw [switchable_single ha]
  exact ⟨_, rfl, Issue.gives_results _⟩

/-- What a cluster sends by SWSEND, without an arrival. -/
def Ctx.sends (x : Ctx) (a d : BitVec 5) (q : BitVec 2) (n : BitVec 4) (c : ClusterId) : List Eff :=
  if x.on c then [{ lat := 3, cluster := partner (x.cluster c) n, what := x.part a d q c }] else []

omit ha in
theorem mem_sends {n : BitVec 4} {c : ClusterId} {e : Eff} : e ∈ x.sends a d q n c ↔
    x.on c = true ∧ e = { lat := 3, cluster := partner (x.cluster c) n, what := x.part a d q c } := by
  unfold Ctx.sends
  split <;> simp [*]

/-- Clusters that send to different ones, each its quarter. -/
theorem slotSwsend_yields {n : BitVec 4}
    (hinj : ∀ c c', x.on c = true → x.on c' = true → partner (x.cluster c) n = partner (x.cluster c') n → c = c')
    (harrive : x.h.arrive = none) :
    Yields True x.h (fun _ => True) 3 (fun c =>
      (allClusters.filter fun c' => x.on c' && partner (x.cluster c') n == c).flatMap fun c' => [x.part a d q c']) (slotSwsend d a q n x) := by
  have hnodup : ((allClusters.filter x.on).map fun c => partner (x.cluster c) n).Nodup :=
    List.Nodup.map_on (fun c hc c' hc' => hinj c c' (List.mem_filter.1 hc).2 (List.mem_filter.1 hc').2) (List.Nodup.filter _ (by decide))
  unfold slotSwsend
  rw [if_neg (by simpa using hnodup)]
  refine ⟨_, joinClusters_joined (g := fun c => .later (x.sends a d q n c)) fun c _ => ?_, Issue.quiet_joined fun c _ => Issue.quiet_of_effs _,
    fun _ => Issue.noFlags_joined fun c _ => Issue.noFlags_of_effs _, fun e => ?_⟩
  · beta_reduce
    rw [switchable_single ha]
    unfold Ctx.sends Ctx.arrival
    rw [harrive]
    split <;> rfl
  · rw [Issue.joined_effs, List.mem_flatMap]
    simp only [Issue.later, mem_sends, mem_allClusters, true_and, Eff.Of, harrive, reduceCtorEq, false_and, exists_false, or_false,
      List.mem_flatMap, List.mem_singleton, List.mem_filter, Bool.and_eq_true, beq_iff_eq]
    constructor
    · rintro ⟨c, hon, rfl⟩
      exact ⟨_, _, ⟨c, ⟨hon, rfl⟩, rfl⟩, rfl⟩
    · rintro ⟨_, _, ⟨c, ⟨hon, rfl⟩, rfl⟩, rfl⟩
      exact ⟨c, hon, rfl⟩
end
end Sys2Proof.Machine
end

section
open Sys2Proof Sys2Proof.Machine

/-- Settles O49: the slot's lemma says what each operation yields, cluster by cluster, and an operation that yields results `Gives` them, or
leaves `Flags` where its elements may raise any. -/
theorem Sys2Proof.vectorSlotResults : Obligations.VectorSlotResults := by
  intro s r h d a b hr reg lanes mask on tagged single vec gives each
  refine ⟨?_, ?_, ?_, ?_, ?_, ?_, ?_, ?_, ?_, ?_, ?_, ?_, ?_⟩
  · intro hab same
    have ha : (s.slotCtx r h).Single a := fun c => (hab c).1
    have hb : ∀ c, ((s.slotCtx r h).reg c b).tag = ((s.slotCtx r h).reg c a).tag := fun c => (hab c).2
    refine ⟨?_, ?_, ?_, ?_, ?_, ?_⟩
    · exact State.gives_of_yields rfl hr (by decide) (slotMove_yields (x := s.slotCtx r h) id ha)
    · exact State.gives_of_yields rfl hr (by decide) (slotMove_yields (x := s.slotCtx r h) (~~~·) ha)
    · exact State.gives_of_yields rfl hr (by decide) (slotBitwise_yields (x := s.slotCtx r h) (· &&& ·) ha hb)
    · exact State.gives_of_yields rfl hr (by decide) (slotBitwise_yields (x := s.slotCtx r h) (· ||| ·) ha hb)
    · exact State.gives_of_yields rfl hr (by decide) (slotBitwise_yields (x := s.slotCtx r h) (· ^^^ ·) ha hb)
    · exact State.gives_of_yields rfl hr (by decide) (slotVsel_yields (x := s.slotCtx r h) ha hb)
  · intro ha hb
    exact State.gives_of_yields rfl hr (by decide) (slotVperm_yields (x := s.slotCtx r h) ha hb)
  · intro ha hb int2
    have ha : (s.slotCtx r h).Tagged a 4 := ha
    have hb : (s.slotCtx r h).Tagged b 4 := hb
    refine ⟨?_, ?_, ?_, ?_, ?_, ?_, ?_, ?_, ?_⟩
    · exact State.gives_of_yields rfl hr (by decide)
        (slotVec2_i32_yields (x := s.slotCtx r h) (g := (· + ·)) ha hb (by decide) vecElem_i32_add)
    · exact State.gives_of_yields rfl hr (by decide)
        (slotVec2_i32_yields (x := s.slotCtx r h) (g := (· - ·)) ha hb (by decide) vecElem_i32_sub)
    · exact State.gives_of_yields rfl hr (by decide)
        (slotVec2_i32_yields (x := s.slotCtx r h) (g := (· * ·)) ha hb (by decide) vecElem_i32_mul)
    · exact State.gives_of_yields rfl hr (by decide)
        (slotVec2_i32_yields (x := s.slotCtx r h) (g := fun v w => if v.toInt ≤ w.toInt then v else w) ha hb (by decide) vecElem_i32_min)
    · exact State.gives_of_yields rfl hr (by decide)
        (slotVec2_i32_yields (x := s.slotCtx r h) (g := fun v w => if v.toInt ≤ w.toInt then w else v) ha hb (by decide) vecElem_i32_max)
    · exact State.gives_of_yields rfl hr (by decide)
        (slotSign_yields (x := s.slotCtx r h) (g := fun w => BitVec.ofNat 32 w.toInt.natAbs) ha rfl rfl rfl signElem_i32_abs)
    · exact State.gives_of_yields rfl hr (by decide) (slotSign_yields (x := s.slotCtx r h) (g := (-·)) ha rfl rfl rfl signElem_i32_neg)
    · exact State.gives_of_yields rfl hr (by decide)
        (slotShift_yields (x := s.slotCtx r h) (g := fun v w => v <<< w.toNat) ha rfl rfl rfl hb shiftElem_i32_left)
    · exact State.gives_of_yields rfl hr (by decide)
        (slotShift_yields (x := s.slotCtx r h) (g := fun v w => v.sshiftRight w.toNat) ha rfl rfl rfl hb shiftElem_i32_right)
  · intro cc n ha hb holds
    exact State.gives_of_yields rfl hr (by decide) (slotVcmp_i32_yields (x := s.slotCtx r h) ha hb)
  · intro grp excl ha hgrp size sum
    exact ⟨State.gives_of_yields rfl hr (by decide) (slotVred_sum_yields (x := s.slotCtx r h) hgrp ha),
      State.gives_of_yields rfl hr (by decide) (slotVscan_sum_yields (x := s.slotCtx r h) hgrp ha)⟩
  · intro ha value rounded real
    have ha : (s.slotCtx r h).Tagged a 8 := ha
    refine ⟨fun hb => ⟨?_, ?_, ?_, ?_, ?_⟩, fun hb hrates => ?_, fun hrates => ?_, fun hb hd => ?_, ?_, ?_, ?_⟩
    · exact State.flags_of_yields rfl hr (by decide) (slotVec2_fp32_yields (x := s.slotCtx r h) (op := .add) ha hb (by decide))
    · exact State.flags_of_yields rfl hr (by decide) (slotVec2_fp32_yields (x := s.slotCtx r h) (op := .sub) ha hb (by decide))
    · exact State.flags_of_yields rfl hr (by decide) (slotVec2_fp32_yields (x := s.slotCtx r h) (op := .mul) ha hb (by decide))
    · exact State.flags_of_yields rfl hr (by decide) (slotVec2_fp32_yields (x := s.slotCtx r h) (op := .min) ha hb (by decide))
    · exact State.flags_of_yields rfl hr (by decide) (slotVec2_fp32_yields (x := s.slotCtx r h) (op := .max) ha hb (by decide))
    · exact State.flags_of_yields rfl hr (by decide) (slotVdiv_fp32_yields (x := s.slotCtx r h) ha hb hrates)
    · exact State.flags_of_yields rfl hr (by decide) (slotVsqrt_yields (x := s.slotCtx r h) ha rfl rfl rfl rfl hrates)
    · exact State.flags_of_yields rfl hr (by decide) (slotVfma_yields (x := s.slotCtx r h) ha rfl rfl rfl hb hd rfl rfl)
    · exact State.gives_of_yields rfl hr (by decide)
        (slotSign_yields (x := s.slotCtx r h) (g := (· &&& 0x7FFFFFFF)) ha rfl rfl rfl signElem_fp32_abs)
    · exact State.gives_of_yields rfl hr (by decide)
        (slotSign_yields (x := s.slotCtx r h) (g := (· ^^^ 0x80000000)) ha rfl rfl rfl signElem_fp32_neg)
    · exact State.flags_of_yields rfl hr (by decide) (slotVcvt_fp32_i32_yields (x := s.slotCtx r h) ha)
  · intro ha
    have ha : (s.slotCtx r h).Tagged a 4 := ha
    exact ⟨State.flags_of_yields rfl hr (by decide) (slotVcvt_i32_fp32_yields (x := s.slotCtx r h) ha),
      State.gives_of_yields rfl hr (by decide) (slotVcvt_i32_raw_yields (x := s.slotCtx r h) ha)⟩
  · intro ha row want key first
    have ha : (s.slotCtx r h).Tagged a 4 := ha
    exact (State.flags_of_yields rfl hr (by decide) (slotVtopk_yields (x := s.slotCtx r h) ha)).imp fun t ht =>
      ⟨_, fun c => ⟨topk_perm (x := s.slotCtx r h) c, topk_pairwise (x := s.slotCtx r h) c⟩, ht⟩
  · exact State.gives_of_yields rfl hr (by decide) (slotVbcast_yields (x := s.slotCtx r h))
  · intro ha hb hd pair n
    exact ⟨State.gives_of_yields rfl hr (by decide) (slotFunnel_yields (x := s.slotCtx r h) true ha hb hd),
      State.gives_of_yields rfl hr (by decide) (slotFunnel_yields (x := s.slotCtx r h) false ha hb hd)⟩
  · intro ha
    exact State.gives_of_yields rfl hr (by decide) (slotVpopc_yields (x := s.slotCtx r h) ha)
  · intro q
    exact ⟨State.gives_of_yields rfl hr (by decide) (slotVqmov_from_yields (x := s.slotCtx r h)),
      fun hd => State.gives_of_yields rfl hr (by decide) (slotVqmov_to_yields (x := s.slotCtx r h) hd)⟩
  · intro q n e ha part other
    refine ⟨State.gives_of_yields rfl hr (by decide) (slotSwrecv_yields (x := s.slotCtx r h) ha),
      State.gives_of_yields rfl hr (by decide) (slotSwbcast_yields (x := s.slotCtx r h) ha), fun hinj harrive => ?_⟩
    exact State.gives_of_yields rfl hr (by decide) (slotSwsend_yields (x := s.slotCtx r h) ha hinj harrive)
end

section
/-! PROOF. Home-view loads, and the requests of far reads and atomics (R164 to R168, R263, R264). -/

namespace Sys2Proof.Machine

/-! ### Home-view loads -/

section
variable {x : Ctx} {hnd : BitVec 6} {al : Alloc} {v : BitVec 5} {f : BitVec 4}

theorem laneMask_all : laneMask (-1) = Bank.fill (-1) :=
  Bank.ext_read fun l => by
    rw [laneMask, Bank.read_ofFn, Bank.read_fill]
    exact if_pos (by rw [show (-1 : DWord) = BitVec.allOnes 64 from rfl, BitVec.getLsbD_allOnes, decide_eq_true l.isLt])

/-- A vector result: one register, or the two of a pair. -/
theorem writeVec_eq (rb : BitVec 4) (lat : Nat) (c : ClusterId) (d : BitVec 5) (t : Tag) (mask lo hi : Bank 6 Word) :
    writeVec rb lat c d t mask lo hi = (if tagPair t then [.vec (physV rb d) mask lo t, .vec (physV rb (d + 1)) mask hi t]
      else [.vec (physV rb d) mask lo t]).map fun w => { lat := lat, cluster := c, what := w } := by
  unfold writeVec
  dsimp only
  split <;> rfl

section
variable (hal : x.core.handles.read hnd = some al)
include hal

theorem Ctx.handle_load (hio : hnd ∈ x.run.ins ∨ hnd ∈ x.run.outs) : x.handle hnd true false = .ok al := by
  unfold Ctx.handle
  rw [hal]
  exact if_pos (by simpa using hio)

theorem Ctx.handle_store (ho : hnd ∈ x.run.outs) : x.handle hnd false true = .ok al := by
  unfold Ctx.handle
  rw [hal]
  exact if_pos (by simpa using ho)

theorem Ctx.handle_atomic (hi : hnd ∈ x.run.ins) (ho : hnd ∈ x.run.outs) : x.handle hnd true true = .ok al := by
  unfold Ctx.handle
  rw [hal]
  exact if_pos (by simpa using ⟨hi, ho⟩)
end

theorem loadHome_yields {off : Cluster → Nat} (hh : x.handle hnd true false = .ok al)
    (hok : ∀ c, x.on c = true → (homeView al c).holds (off (x.cluster c)) (rowBytes (tagOf f)) = true ∧
      anyPoison x.core.cisPoison ((homeView al c).units (off (x.cluster c)) (rowBytes (tagOf f))) = false) :
    Yields True x.h (fun c => x.on c = true) 6 (fun c =>
      let lanes := rowLanes (tagOf f) ((homeView al c).read x.core.cistern (off (x.cluster c)) (rowBytes (tagOf f)))
      if tagPair (tagOf f) then [.vec (physV x.run.rb v) (Bank.fill (-1)) lanes.1 (tagOf f),
        .vec (physV x.run.rb (v + 1)) (Bank.fill (-1)) lanes.2 (tagOf f)]
      else [.vec (physV x.run.rb v) (Bank.fill (-1)) lanes.1 (tagOf f)]) (loadHome f v hnd off x) := by
  unfold loadHome
  dsimp only
  refine yields_guarded fun c hc => ?_
  obtain ⟨hholds, hpoison⟩ := hok c hc
  rw [hh, ok_bind, hholds, hpoison, laneMask_all]
  exact ⟨_, rfl, ⟨⟨rfl, rfl, rfl⟩, rfl, rfl, rfl⟩, writeVec_eq .., fun _ _ hf => nomatch hf⟩
end

/-! ### Requests -/

/-- An issue that sends requests and does nothing else. -/
structure Issue.Asks (far : List FarReq) (remote : List RemoteAtomic) (y : Issue) : Prop extends y.Straight where
  effs : y.effs = []
  cis : y.cis = []
  far : y.far = far
  remote : y.remote = remote

section
variable {fs fs' : List FarReq} {rs rs' : List RemoteAtomic} {y y' : Issue}

theorem Issue.Asks.add (h : y.Asks fs rs) (h' : y'.Asks fs' rs') : (y.add y').Asks (fs ++ fs') (rs ++ rs') := by
  obtain ⟨hs, heffs, hcis, rfl, rfl⟩ := h
  obtain ⟨hs', heffs', hcis', rfl, rfl⟩ := h'
  exact ⟨hs.add hs', by simp [Issue.add, heffs, heffs'], by simp [Issue.add, hcis, hcis'], rfl, rfl⟩

theorem Issue.asks_nothing : ({} : Issue).Asks [] [] := ⟨⟨rfl, rfl, rfl⟩, rfl, rfl, rfl, rfl⟩

theorem Issue.asks_joined {g : ClusterId → Issue} {fs : ClusterId → List FarReq} {rs : ClusterId → List RemoteAtomic} {cs : List ClusterId}
    (h : ∀ c ∈ cs, (g c).Asks (fs c) (rs c)) : (Issue.joined g cs).Asks (cs.flatMap fs) (cs.flatMap rs) := by
  induction cs with
  | nil => exact asks_nothing
  | cons c cs ih => exact (h c List.mem_cons_self).add (ih fun d hd => h d (List.mem_cons_of_mem c hd))
end

/-- What the clusters with a property give, in order. -/
theorem flatMap_if {α β : Type} (p : α → Bool) (f : α → List β) (xs : List α) :
    (xs.flatMap fun x => if p x then f x else []) = (xs.filter p).flatMap f := by
  induction xs with
  | nil => rfl
  | cons x xs ih =>
    rw [List.flatMap_cons, ih, List.filter_cons]
    cases p x <;> rfl

/-- Each cluster whose guard is true sends one request. -/
theorem asks_guardedFar {x : Ctx} {f : ClusterId → Cluster → SlotResult} {req : ClusterId → FarReq} {rs : ClusterId → List RemoteAtomic}
    (hf : ∀ c, x.on c = true → ∃ y : Issue, f c (x.cluster c) = .ok y ∧ y.Asks [req c] (rs c)) :
    ∃ y : Issue, x.guardedFar f = .ok y ∧ y.Asks ((allClusters.filter x.on).map req) ((allClusters.filter x.on).flatMap rs) := by
  have hall (c : ClusterId) : ∃ y : Issue, (if x.on c then f c (x.cluster c) else .ok {}) = .ok y ∧
      y.Asks (if x.on c then [req c] else []) (if x.on c then rs c else []) := by
    by_cases hc : x.on c = true
    · rw [if_pos hc, if_pos hc, if_pos hc]
      exact hf c hc
    · rw [if_neg hc, if_neg hc, if_neg hc]
      exact ⟨_, rfl, Issue.asks_nothing⟩
  choose g hok hasks using hall
  refine ⟨_, joinClusters_joined fun c _ => hok c, ?_⟩
  have hjoined := Issue.asks_joined (cs := allClusters) fun c _ => hasks c
  rwa [flatMap_if, flatMap_if, ← List.map_eq_flatMap] at hjoined

/-- Each sends one that stays in its core. -/
theorem asks_guardedFar_local {x : Ctx} {f : ClusterId → Cluster → SlotResult} {req : ClusterId → FarReq}
    (hf : ∀ c, x.on c = true → ∃ y : Issue, f c (x.cluster c) = .ok y ∧ y.Asks [req c] []) :
    ∃ y : Issue, x.guardedFar f = .ok y ∧ y.Asks ((allClusters.filter x.on).map req) [] := by
  have hnone : (allClusters.filter x.on).flatMap (fun _ => ([] : List RemoteAtomic)) = [] := List.flatMap_eq_nil_iff.2 fun _ _ => rfl
  rw [← hnone]
  exact asks_guardedFar hf

/-- What the active core holds of the primary kernel after a bundle that sends requests: they are under way, and no result is. -/
def State.Sent (s t : State) (r : KernelRun) (fs : List FarReq) : Prop :=
  t.cur.cistern = s.cur.cistern ∧ ∃ r', t.cur.run .primary = some r' ∧ r'.kc = r.kc + 1 ∧ r'.inflight = r.inflight ∧ r'.far = r.far ++ fs

section
variable {s : State} {i : Instr} {h : SlotHdr} {f : Ctx → SlotResult} {r : KernelRun} {fs : List FarReq}

theorem State.sent_issued {y : Issue} {rs : List RemoteAtomic} (hr : s.Issues r) (hy : y.Asks fs rs) :
    (s.cur.issued (y.alone h)).cistern = s.cur.cistern ∧ (s.cur.issued (y.alone h)).kcycle = r.kc + 1 ∧
    ∃ r', (s.cur.issued (y.alone h)).run .primary = some r' ∧ r'.kc = r.kc + 1 ∧ r'.inflight = r.inflight ∧ r'.far = r.far ++ fs := by
  obtain ⟨r', hrun, hcycle, hkc, hfar, hin, -⟩ := CoreSt.Issues.issued_run (y.alone h) hr
  refine ⟨CoreSt.Issues.issued_cistern _ hr (by rw [y.alone_cis h, hy.cis]), hcycle, r', hrun, hkc, ?_, ?_⟩
  · rw [hin, y.alone_effs h, hy.effs]
    exact List.append_nil _
  · rw [hfar, y.alone_far h, hy.far]

/-- Requests that stay in their core. -/
theorem State.answers_asks (hi : slotSem i = some (h, f)) (hr : s.Issues r) (hf : ∃ y, f (s.slotCtx r h) = .ok y ∧ y.Asks fs []) :
    Answers (exec i s) fun t => s.OnlyEngine t ∧ t.cur.kcycle = r.kc + 1 ∧ s.Sent t r fs := by
  obtain ⟨y, hy, hasks⟩ := hf
  rw [State.exec_straight hi hr hy hasks.toStraight hasks.remote]
  obtain ⟨hcis, hcycle, hrun⟩ := State.sent_issued (h := h) hr hasks
  have hengine := State.onlyEngineBut_issued (h := h) hr y
  rw [hasks.effs] at hengine
  refine answers_next ⟨hengine, ?_, ?_⟩
  · rw [State.cur_issued]
    exact hcycle
  · unfold State.Sent
    rw [State.cur_issued]
    exact ⟨hcis, hrun⟩
end

section
variable {x : Ctx} {hnd : BitVec 6} {al : Alloc} {v : BitVec 5} {e : Ext}

/-- The request of a CLD.FAR. -/
def Ctx.farLoad (x : Ctx) (f : BitVec 4) (v : BitVec 5) (al : Alloc) (e : Ext) (c : ClusterId) : FarReq :=
  ⟨x.stamp, c, x.run.kc + e.low.toNat, .load, false, al, extRow (x.cluster c) e, physV x.run.rb v, tagOf f, x.h.arrive, .waiting⟩

theorem slotCldFar_asks {f : BitVec 4} (hh : x.handle hnd true false = .ok al)
    (hholds : ∀ c, x.on c = true → (farView al).holds (rowBytes (tagOf f) * extRow (x.cluster c) e) (rowBytes (tagOf f)) = true) :
    ∃ y : Issue, slotCldFar f v hnd e x = .ok y ∧ y.Asks ((allClusters.filter x.on).map (x.farLoad f v al e)) [] := by
  unfold slotCldFar
  dsimp only
  refine asks_guardedFar_local fun c hc => ?_
  rw [hh, ok_bind]
  rw [hholds c hc]
  exact ⟨_, rfl, ⟨rfl, rfl, rfl⟩, rfl, rfl, rfl, rfl⟩

/-! ### Atomics -/

/-- The request of an atomic. -/
def Ctx.atomReq (x : Ctx) (kind : BitVec 4) (v : BitVec 5) (e : Ext) (home : Bool) (al : Alloc) (row : ClusterId → Nat) (ph : FarPhase)
    (xs cs : ClusterId → VOp) (c : ClusterId) : FarReq :=
  ⟨x.stamp, c, x.run.kc + e.low.toNat, .atomic kind (elems64 (xs c)) (elems64 (cs c)), home, al, row c, physV x.run.rb v, (xs c).tag,
    x.h.arrive, ph⟩

/-- The operands of an atomic pass their checks. -/
def Ctx.Operands (x : Ctx) (kind : BitVec 4) (v : BitVec 5) (e : Ext) (xs cs : ClusterId → VOp) : Prop := ∀ c, x.on c = true →
  readVec (x.cluster c) x.run.rb (atomTag kind) e.reg2 = .ok (xs c) ∧ (kind ≠ 11 → cs c = xs c) ∧
    (kind = 11 → readVec (x.cluster c) x.run.rb (· == (xs c).tag) v = .ok (cs c))

section
variable {kind : BitVec 4} {xs cs : ClusterId → VOp}

theorem atomOperands_ok (hops : x.Operands kind v e xs cs) {c : ClusterId} (hc : x.on c = true) :
    atomOperands x (x.cluster c) kind v e = .ok (xs c, cs c) := by
  obtain ⟨hb, hother, hcas⟩ := hops c hc
  unfold atomOperands
  rw [hb]
  by_cases hk : kind = 11
  · show (if kind == 11 then readVec (x.cluster c) x.run.rb (· == (xs c).tag) v >>= fun vd => .ok (xs c, vd) else .ok (xs c, xs c)) = _
    rw [hk, hcas hk]
    rfl
  · show (if kind == 11 then readVec (x.cluster c) x.run.rb (· == (xs c).tag) v >>= fun vd => .ok (xs c, vd) else .ok (xs c, xs c)) = _
    rw [if_neg (by simpa using hk), hother hk]

theorem localAtomic_asks (hh : x.handle hnd true true = .ok al) {home : Bool} {row : ClusterId → Nat} {c : ClusterId}
    (hholds : (if home then homeView al c else farView al).holds (atomBytes kind * row c) (atomBytes kind) = true) :
    ∃ y : Issue, localAtomic x c kind v hnd e home (row c) (xs c) (cs c) = .ok y ∧
      y.Asks [x.atomReq kind v e home al row .waiting xs cs c] [] := by
  unfold localAtomic
  rw [hh, ok_bind]
  dsimp only
  rw [hholds]
  exact ⟨_, rfl, ⟨rfl, rfl, rfl⟩, rfl, rfl, rfl, rfl⟩

variable (hh : x.handle hnd true true = .ok al) (hops : x.Operands kind v e xs cs)

include hh hops in
theorem slotCatom_asks (hholds : ∀ c, x.on c = true →
      (homeView al c).holds (atomBytes kind * extRow (x.cluster c) e) (atomBytes kind) = true) :
    ∃ y : Issue, slotCatom kind v hnd e x = .ok y ∧ y.Asks ((allClusters.filter x.on).map
      (x.atomReq kind v e true al (fun c => extRow (x.cluster c) e) .waiting xs cs)) [] := by
  refine asks_guardedFar_local fun c hc => ?_
  rw [atomOperands_ok hops hc]
  exact localAtomic_asks (row := fun c => extRow (x.cluster c) e) hh (hholds c hc)

/-- The row register of a CATOM.FAR, the row that it asks for, and whether it is another core's. -/
def Ctx.rowReg (x : Ctx) (e : Ext) (c : ClusterId) : DWord := (x.cluster c).a.read (e.row.extractLsb' 0 5)
def Ctx.farRow (x : Ctx) (e : Ext) (c : ClusterId) : Nat := if e.mode then ((x.rowReg e c).extractLsb' 0 32).toNat else e.row.toNat
def Ctx.Remote (x : Ctx) (e : Ext) (c : ClusterId) : Prop :=
  e.mode = true ∧ (x.rowReg e c).getLsbD 63 = true ∧ (x.rowReg e c).extractLsb' 56 7 ≠ x.me

include hh hops in
theorem slotCatomFar_asks_local (hlocal : ∀ c, x.on c = true → ¬x.Remote e c ∧
      (farView al).holds (atomBytes kind * x.farRow e c) (atomBytes kind) = true) :
    ∃ y : Issue, slotCatomFar kind v hnd e x = .ok y ∧ y.Asks ((allClusters.filter x.on).map
      (x.atomReq kind v e false al (x.farRow e) .waiting xs cs)) [] := by
  refine asks_guardedFar_local fun c hc => ?_
  obtain ⟨hnear, hholds⟩ := hlocal c hc
  rw [atomOperands_ok hops hc, ok_bind]
  dsimp only
  rw [if_neg fun hfar => hnear ?_]
  · exact localAtomic_asks (row := x.farRow e) hh hholds
  · simpa [Ctx.Remote, Ctx.rowReg, and_assoc] using hfar

/-- The remote atomic of a cluster. -/
def Ctx.remoteAtomic (x : Ctx) (kind : BitVec 4) (v : BitVec 5) (hnd : BitVec 6) (e : Ext) (xs cs : ClusterId → VOp)
    (c : ClusterId) : RemoteAtomic :=
  ⟨x.me, (x.rowReg e c).extractLsb' 56 7, x.pos, c, x.run.kc + e.low.toNat, hnd, x.farRow e c, kind, elems64 (xs c), elems64 (cs c),
    physV x.run.rb v⟩

include hops in
theorem slotCatomFar_asks_remote (hremote : ∀ c, x.on c = true → x.Remote e c ∧ (x.rowReg e c).extractLsb' 56 7 ∈ x.peers) :
    ∃ y : Issue, slotCatomFar kind v hnd e x = .ok y ∧ y.Asks ((allClusters.filter x.on).map
      (x.atomReq kind v e false ⟨0, 0, 0, 0, 0, 0⟩ (x.farRow e) .remote xs cs))
      ((allClusters.filter x.on).map (x.remoteAtomic kind v hnd e xs cs)) := by
  rw [List.map_eq_flatMap (f := x.remoteAtomic kind v hnd e xs cs)]
  refine asks_guardedFar fun c hc => ?_
  obtain ⟨⟨hmode, hbit, hother⟩, hpeer⟩ := hremote c hc
  have hrow : x.farRow e c = field (x.rowReg e c).toNat 0 32 := by
    rw [Ctx.farRow, if_pos hmode]
    exact BitVec.extractLsb'_toNat ..
  rw [atomOperands_ok hops hc, ok_bind]
  dsimp only
  have hcheck : (e.mode && (x.rowReg e c).getLsbD 63 && (x.rowReg e c).extractLsb' 56 7 != x.me) = true := by
    rw [hmode, hbit, bne_iff_ne.2 hother]
    rfl
  have hknown : ¬(!x.peers.contains ((x.rowReg e c).extractLsb' 56 7)) = true := by simpa using hpeer
  refine ⟨_, (if_pos hcheck).trans (if_neg hknown), ⟨rfl, rfl, rfl⟩, rfl, rfl, ?_, ?_⟩
  · rw [Ctx.atomReq, hrow]
    rfl
  · rw [Ctx.remoteAtomic, hrow]
    rfl
end
end
end Sys2Proof.Machine
end

section
/-! PROOF. What home-view stores write, byte by byte (R165, R166, R168). -/

namespace Sys2Proof.Machine

/-! ### Units written -/

/-- A unit write changes a byte, and the byte that it puts there. -/
def CisWrite.Hits (w : CisWrite) (b : Nat) : Prop := w.unit = b / 64 ∧ w.mask.getLsbD (b % 64) = true
def CisWrite.byte (w : CisWrite) (b : Nat) : Byte := w.data.extractLsb' (8 * (b % 64)) 8

section
variable {m : Memory} {w : CisWrite} {ws : List CisWrite} {b : Nat}

theorem readByte_putUnit_hit (h : w.Hits b) : (putUnit m w).readByte b = w.byte b := by
  obtain ⟨hunit, hmask⟩ := h
  have upTo (n : Nat) (hn : b % 64 < n) : ((List.range n).foldl (fun m j =>
      if w.mask.getLsbD j then m.writeByte (64 * w.unit + j) (w.data.extractLsb' (8 * j) 8) else m) m).readByte b = w.byte b := by
    induction n with
    | zero => omega
    | succ n ih =>
      rw [List.range_succ, List.foldl_append, List.foldl_cons, List.foldl_nil]
      by_cases hb : b % 64 = n
      · rw [← hb, hmask, if_pos rfl, Memory.readByte_writeByte, if_pos (by omega)]
        rfl
      · have hn' : b % 64 < n := by omega
        split
        · rw [Memory.readByte_writeByte, if_neg (by omega), ih hn']
        · exact ih hn'
  exact upTo 64 (Nat.mod_lt _ (by decide))

theorem readByte_putUnit_miss (h : ¬w.Hits b) : (putUnit m w).readByte b = m.readByte b := by
  have upTo (n : Nat) (hn : n ≤ 64) : ((List.range n).foldl (fun m j =>
      if w.mask.getLsbD j then m.writeByte (64 * w.unit + j) (w.data.extractLsb' (8 * j) 8) else m) m).readByte b = m.readByte b := by
    induction n with
    | zero => rfl
    | succ n ih =>
      rw [List.range_succ, List.foldl_append, List.foldl_cons, List.foldl_nil]
      split
      · next hmask =>
        have hne : b ≠ 64 * w.unit + n := fun hb => h ⟨by omega, by rwa [show b % 64 = n by omega]⟩
        rw [Memory.readByte_writeByte, if_neg hne, ih (by omega)]
      · exact ih (by omega)
  exact upTo 64 (Nat.le_refl _)

theorem readByte_putUnits_miss (h : ∀ w ∈ ws, ¬w.Hits b) : (ws.foldl putUnit m).readByte b = m.readByte b := by
  induction ws generalizing m with
  | nil => rfl
  | cons w ws ih =>
    rw [List.foldl_cons, ih fun w' hw' => h w' (List.mem_cons_of_mem w hw'), readByte_putUnit_miss (h w List.mem_cons_self)]

/-- Writes that agree on a byte, one of which changes it. -/
theorem readByte_putUnits_hit {y : Byte} (hagree : ∀ w ∈ ws, w.Hits b → w.byte b = y) (hhit : ∃ w ∈ ws, w.Hits b) :
    (ws.foldl putUnit m).readByte b = y := by
  induction ws generalizing m with
  | nil => obtain ⟨_, hw, -⟩ := hhit; cases hw
  | cons w ws ih =>
    rw [List.foldl_cons]
    by_cases hlater : ∃ w' ∈ ws, w'.Hits b
    · exact ih (fun w' hw' => hagree w' (List.mem_cons_of_mem w hw')) hlater
    · have hw : w.Hits b := by
        obtain ⟨w', hw', hb⟩ := hhit
        rcases List.mem_cons.1 hw' with rfl | hw'
        · exact hb
        · exact absurd ⟨w', hw', hb⟩ hlater
      rw [readByte_putUnits_miss fun w' hw' hb => hlater ⟨w', hw', hb⟩, readByte_putUnit_hit hw, hagree w List.mem_cons_self hw]
end

/-! ### The writes of a view -/

section
variable (v : View) (off : Nat) (bs : List Byte) (keep : Nat → Bool)

/-- The address of byte `j` from byte `off` of a view. -/
def View.addr (v : View) (off j : Nat) : Nat := 64 * v.unit ((off + j) / 64) + (off + j) % 64

/-- The byte of the operand that stands at byte `j` of the unit from byte `base` of a view. -/
def operandAt (off : Nat) (bs : List Byte) (base j : Nat) : Option Byte := if base + j < off then none else bs[base + j - off]?

/-- The write of the unit from byte `base` of a view. -/
def View.write (i : Nat) : CisWrite :=
  { unit := v.unit (off / 64 + i)
    mask := bitsOf fun j => (operandAt off bs (64 * (off / 64 + i)) j).isSome && keep (64 * (off / 64 + i) + j - off)
    data := BitVec.ofNat 512 (packNat 8 ((List.range 64).map fun j => ((operandAt off bs (64 * (off / 64 + i)) j).getD 0).toNat)) }

theorem View.writes_eq (h : bs ≠ []) :
    v.writes off bs keep = (List.range ((off + bs.length - 1) / 64 - off / 64 + 1)).map (v.write off bs keep) := by
  unfold View.writes
  rw [if_neg (by simpa using h)]
  rfl

/-- The bytes that a list spells, one by one. -/
theorem extractLsb_packNat_bytes (xs : List Byte) {j : Nat} (hj : j < xs.length) {n : Nat} (hn : 8 * xs.length ≤ n) :
    (BitVec.ofNat n (packNat 8 (xs.map BitVec.toNat))).extractLsb' (8 * j) 8 = nth xs j 0 := by
  apply BitVec.eq_of_getLsbD_eq
  intro i hi
  rw [BitVec.getLsbD_extractLsb', BitVec.getLsbD_ofNat, decide_eq_true hi, decide_eq_true (by omega), Bool.true_and, Bool.true_and]
  clear hn n
  induction xs generalizing j with
  | nil => exact absurd hj (Nat.not_lt_zero j)
  | cons x xs ih =>
    rw [List.map_cons, packNat, Nat.add_comm, Nat.testBit_two_pow_mul_add _ (Nat.mod_lt _ (by decide))]
    cases j with
    | zero =>
      rw [if_pos (by omega), Nat.mod_eq_of_lt x.isLt, Nat.mul_zero, Nat.zero_add]
      rfl
    | succ j =>
      rw [if_neg (by omega), show 8 * (j + 1) + i - 8 = 8 * j + i by omega]
      exact ih (Nat.lt_of_succ_lt_succ hj)

variable {v off bs keep}

/-- What a write of a view hits is a byte of the operand that is kept, and it puts that byte there. -/
theorem View.hits_write {i b : Nat} (h : (v.write off bs keep i).Hits b) :
    ∃ j, j < bs.length ∧ keep j = true ∧ b / 64 = v.unit ((off + j) / 64) ∧ b % 64 = (off + j) % 64 ∧
      bs[j]? = some ((v.write off bs keep i).byte b) := by
  obtain ⟨hunit, hmask⟩ := h
  have hb : b % 64 < 64 := Nat.mod_lt _ (by decide)
  change (bitsOf _).getLsbD _ = true at hmask
  rw [getLsbD_bitsOf _ hb, Bool.and_eq_true] at hmask
  obtain ⟨hsome, hkeep⟩ := hmask
  have hdata : (v.write off bs keep i).byte b = (operandAt off bs (64 * (off / 64 + i)) (b % 64)).getD 0 := by
    have hmap : ((List.range 64).map fun j => ((operandAt off bs (64 * (off / 64 + i)) j).getD 0).toNat) =
        ((List.range 64).map fun j => (operandAt off bs (64 * (off / 64 + i)) j).getD 0).map BitVec.toNat := by
      rw [List.map_map]
      rfl
    show (BitVec.ofNat 512 (packNat 8 _)).extractLsb' _ 8 = _
    rw [hmap, extractLsb_packNat_bytes _ (by simpa using hb) (by simp), nth_map_range _ hb]
  unfold operandAt at hsome hdata
  split at hsome
  · cases hsome
  · next hle =>
    rw [if_neg hle] at hdata
    obtain ⟨y, hy⟩ := Option.isSome_iff_exists.1 hsome
    have hlt := (List.getElem?_eq_some_iff.1 hy).1
    refine ⟨64 * (off / 64 + i) + b % 64 - off, hlt, hkeep, ?_, ?_, ?_⟩
    · rw [← hunit, show (off + (64 * (off / 64 + i) + b % 64 - off)) / 64 = off / 64 + i by omega]
      rfl
    · omega
    · rw [hdata, hy]
      rfl

theorem View.exists_hits {j : Nat} (hj : j < bs.length) (hkeep : keep j = true) : ∃ w ∈ v.writes off bs keep, w.Hits (v.addr off j) := by
  have hne : bs ≠ [] := List.ne_nil_of_length_pos (by omega)
  rw [View.writes_eq _ _ _ _ hne]
  refine ⟨_, List.mem_map.2 ⟨(off + j) / 64 - off / 64, List.mem_range.2 (by omega), rfl⟩, ?_, ?_⟩
  · show v.unit (off / 64 + ((off + j) / 64 - off / 64)) = _
    rw [show off / 64 + ((off + j) / 64 - off / 64) = (off + j) / 64 by omega, View.addr]
    omega
  · show (bitsOf _).getLsbD _ = true
    have hmod : v.addr off j % 64 = (off + j) % 64 := by
      unfold View.addr
      omega
    have hat : 64 * (off / 64 + ((off + j) / 64 - off / 64)) + (off + j) % 64 = off + j := by omega
    rw [hmod, getLsbD_bitsOf _ (Nat.mod_lt _ (by decide)), operandAt, hat, if_neg (by omega), Nat.add_sub_cancel_left,
      List.getElem?_eq_getElem hj, hkeep]
    rfl
end

/-! ### The units of home views are different (R165) -/

section
variable {al : Alloc} {c c' : ClusterId} {u u' : Nat}

theorem unitIndex_inj {bank bank' row row' : Nat} (hrow : row < Config.bankRows) (hrow' : row' < Config.bankRows)
    (h : unitIndex bank row = unitIndex bank' row') : bank = bank' ∧ row = row' := by
  unfold unitIndex Config.bankRows at *
  omega

/-- A unit of a home view is in one of its cluster's home banks and in the rows of the allocation. -/
theorem homeView_bounds (hu : u < (homeView al c).count) :
    max al.bank (Config.homeBanks * c.toNat) + u % homeBankCount al c < Config.homeBanks * c.toNat + Config.homeBanks ∧
    u / homeBankCount al c < al.nrows := by
  change u < homeBankCount al c * al.nrows at hu
  have hpos : 0 < homeBankCount al c := Nat.pos_of_mul_pos_right (Nat.zero_lt_of_lt hu)
  have hmod := Nat.mod_lt u hpos
  refine ⟨?_, Nat.div_lt_of_lt_mul hu⟩
  generalize u % homeBankCount al c = n at hmod
  unfold homeBankCount at hmod
  omega

theorem homeView_unit_inj (hrows : al.row + al.nrows ≤ Config.bankRows) (hu : u < (homeView al c).count) (hu' : u' < (homeView al c').count)
    (h : (homeView al c).unit u = (homeView al c').unit u') : c = c' ∧ u = u' := by
  change unitIndex (max al.bank (Config.homeBanks * c.toNat) + u % homeBankCount al c) (al.row + u / homeBankCount al c) =
    unitIndex (max al.bank (Config.homeBanks * c'.toNat) + u' % homeBankCount al c') (al.row + u' / homeBankCount al c') at h
  obtain ⟨hbank, hrow⟩ := homeView_bounds hu
  obtain ⟨hbank', hrow'⟩ := homeView_bounds hu'
  obtain ⟨hb, hr⟩ := unitIndex_inj (by omega) (by omega) h
  obtain rfl : c = c' := by
    apply BitVec.eq_of_toNat_eq
    generalize u % homeBankCount al c = n at hbank hb
    generalize u' % homeBankCount al c' = n' at hbank' hb
    unfold Config.homeBanks at *
    omega
  refine ⟨rfl, ?_⟩
  rw [← Nat.div_add_mod u (homeBankCount al c), ← Nat.div_add_mod u' (homeBankCount al c), Nat.add_left_cancel hr, Nat.add_left_cancel hb]

/-- Bytes inside home views stand at different addresses. -/
theorem homeView_addr_inj (hrows : al.row + al.nrows ≤ Config.bankRows) {off off' j j' n n' : Nat} (hj : j < n) (hj' : j' < n')
    (hin : (homeView al c).holds off n = true) (hin' : (homeView al c').holds off' n' = true)
    (hunit : (homeView al c).unit ((off + j) / 64) = (homeView al c').unit ((off' + j') / 64)) (hmod : (off + j) % 64 = (off' + j') % 64) :
    c = c' ∧ off + j = off' + j' := by
  unfold View.holds at hin hin'
  rw [decide_eq_true_eq] at hin hin'
  obtain ⟨hc, hdiv⟩ := homeView_unit_inj hrows (by omega) (by omega) hunit
  exact ⟨hc, by omega⟩
end

/-! ### What the clusters' stores leave -/

section
variable {al : Alloc} {on : ClusterId → Bool} {off : ClusterId → Nat} {bs : ClusterId → List Byte} {keep : ClusterId → Nat → Bool}
  {m : Memory}

/-- The unit writes of a cluster's store that change something. -/
def storeWrites (al : Alloc) (c : ClusterId) (off : Nat) (bs : List Byte) (keep : Nat → Bool) : List CisWrite :=
  ((homeView al c).writes off bs keep).filter fun w => w.mask != 0

theorem mem_storeWrites_of_hits {c : ClusterId} {off : Nat} {bs : List Byte} {keep : Nat → Bool} {w : CisWrite} {b : Nat}
    (hw : w ∈ (homeView al c).writes off bs keep) (hb : w.Hits b) : w ∈ storeWrites al c off bs keep := by
  refine List.mem_filter.2 ⟨hw, bne_iff_ne.2 fun hzero => ?_⟩
  obtain ⟨-, hmask⟩ := hb
  rw [hzero] at hmask
  simp at hmask

/-- A byte of a store that is kept is then what the operand has there; one that is not is as it was. -/
theorem readByte_stores (hrows : al.row + al.nrows ≤ Config.bankRows)
    (hin : ∀ c, on c = true → (homeView al c).holds (off c) (bs c).length = true) {c : ClusterId} (hc : on c = true) {j : Nat}
    (hj : j < (bs c).length) :
    let m' := ((allClusters.filter on).flatMap fun c => storeWrites al c (off c) (bs c) (keep c)).foldl putUnit m
    (keep c j = true → some (m'.readByte ((homeView al c).addr (off c) j)) = (bs c)[j]?) ∧
    (keep c j = false → m'.readByte ((homeView al c).addr (off c) j) = m.readByte ((homeView al c).addr (off c) j)) := by
  intro m'
  -- a write that hits the byte is the cluster's own, of that byte
  have hown : ∀ w ∈ (allClusters.filter on).flatMap fun c => storeWrites al c (off c) (bs c) (keep c),
      w.Hits ((homeView al c).addr (off c) j) → keep c j = true ∧ (bs c)[j]? = some (w.byte ((homeView al c).addr (off c) j)) := by
    intro w hw hhit
    obtain ⟨c', hc', hw⟩ := List.mem_flatMap.1 hw
    obtain ⟨-, hon⟩ := List.mem_filter.1 hc'
    obtain ⟨hw, -⟩ := List.mem_filter.1 hw
    have hne : bs c' ≠ [] := fun he => by
      unfold View.writes at hw
      rw [he] at hw
      cases hw
    rw [View.writes_eq _ _ _ _ hne] at hw
    obtain ⟨i, -, rfl⟩ := List.mem_map.1 hw
    obtain ⟨j', hj', hkeep, hunit, hmod, hbyte⟩ := View.hits_write hhit
    have haddr : (homeView al c).addr (off c) j / 64 = (homeView al c).unit ((off c + j) / 64) := by unfold View.addr; omega
    have haddr' : (homeView al c).addr (off c) j % 64 = (off c + j) % 64 := by unfold View.addr; omega
    obtain ⟨rfl, hsum⟩ := homeView_addr_inj hrows hj hj' (hin c hc) (hin c' hon) (haddr.symm.trans hunit) (haddr'.symm.trans hmod)
    obtain rfl : j = j' := by omega
    exact ⟨hkeep, hbyte⟩
  refine ⟨fun hkeep => ?_, fun hkeep => readByte_putUnits_miss fun w hw hhit => ?_⟩
  · rw [List.getElem?_eq_getElem hj]
    refine congrArg some (readByte_putUnits_hit (fun w hw hhit => ?_) ?_)
    · obtain ⟨-, hbyte⟩ := hown w hw hhit
      rw [List.getElem?_eq_getElem hj] at hbyte
      exact (Option.some.inj hbyte).symm
    · obtain ⟨w, hw, hhit⟩ := View.exists_hits hj hkeep
      exact ⟨w, List.mem_flatMap.2 ⟨c, List.mem_filter.2 ⟨mem_allClusters c, hc⟩, mem_storeWrites_of_hits hw hhit⟩, hhit⟩
  · obtain ⟨hkept, -⟩ := hown w hw hhit
    rw [hkeep] at hkept
    cases hkept
end
end Sys2Proof.Machine
end

section
/-! PROOF. Home-view stores: their writes at the issue, and the arrivals that they make then (R166, R168, R237). -/

namespace Sys2Proof.Machine

/-! ### An issue of writes -/

/-- An issue that writes units and arrives, and does nothing else. -/
structure Issue.Stores (ws : List CisWrite) (es : List Eff) (y : Issue) : Prop extends y.Straight where
  cis : y.cis = ws
  effs : y.effs = es
  remote : y.remote = []

section
variable {ws ws' : List CisWrite} {es es' : List Eff} {y y' : Issue}

theorem Issue.Stores.add (h : y.Stores ws es) (h' : y'.Stores ws' es') : (y.add y').Stores (ws ++ ws') (es ++ es') := by
  obtain ⟨hs, rfl, rfl, hremote⟩ := h
  obtain ⟨hs', rfl, rfl, hremote'⟩ := h'
  exact ⟨hs.add hs', rfl, rfl, by simp [Issue.add, hremote, hremote']⟩

theorem Issue.stores_nothing : ({} : Issue).Stores [] [] := ⟨⟨rfl, rfl, rfl⟩, rfl, rfl, rfl⟩

theorem Issue.stores_joined {g : ClusterId → Issue} {ws : ClusterId → List CisWrite} {es : ClusterId → List Eff} {cs : List ClusterId}
    (h : ∀ c ∈ cs, (g c).Stores (ws c) (es c)) : (Issue.joined g cs).Stores (cs.flatMap ws) (cs.flatMap es) := by
  induction cs with
  | nil => exact stores_nothing
  | cons c cs ih => exact (h c List.mem_cons_self).add (ih fun d hd => h d (List.mem_cons_of_mem c hd))
end

/-- Each cluster whose guard is true writes its units and arrives. -/
theorem stores_guarded {x : Ctx} {f : ClusterId → Cluster → SlotResult} {ws : ClusterId → List CisWrite}
    (hf : ∀ c, x.on c = true → ∃ us, f c (x.cluster c) = .ok { cis := ws c, units := us }) :
    ∃ y : Issue, x.guarded 0 f = .ok y ∧
      y.Stores ((allClusters.filter x.on).flatMap ws) ((allClusters.filter x.on).flatMap (x.arrival 0)) := by
  have hall (c : ClusterId) : ∃ y : Issue, (if x.on c then match f c (x.cluster c) with
        | .error k => .error k
        | .ok i => .ok (i.add { effs := x.arrival 0 c }) else .ok {}) = Except.ok (ε := Byte) y ∧
      y.Stores (if x.on c then ws c else []) (if x.on c then x.arrival 0 c else []) := by
    by_cases hc : x.on c = true
    · obtain ⟨us, hok⟩ := hf c hc
      rw [if_pos hc, if_pos hc, if_pos hc, hok]
      exact ⟨_, rfl, ⟨rfl, rfl, rfl⟩, List.append_nil _, rfl, rfl⟩
    · rw [if_neg hc, if_neg hc, if_neg hc]
      exact ⟨_, rfl, Issue.stores_nothing⟩
  choose g hok hstores using hall
  refine ⟨_, joinClusters_joined fun c _ => hok c, ?_⟩
  have hjoined := Issue.stores_joined (cs := allClusters) fun c _ => hstores c
  rwa [flatMap_if, flatMap_if] at hjoined

/-! ### The arrivals at the issue -/

theorem CoreSt.land_nothing (k : CoreSt) (pos : KPos) (c : ClusterId) (n : BitVec 2) :
    (k.land pos c .nothing (some n)).SameBarriers (k.arrive n).1 := by
  have hput : (k.put c .nothing).SameBarriers k := .of_sansUnits (k.put_sansUnits c .nothing)
  rw [land_some]
  split
  · exact (CoreSt.SameBarriers.of_sansUnits (modRun_sansUnits ..)).trans (hput.arrive n)
  · exact hput.arrive n

/-- The arrival of a cluster at an issue. -/
def Eff.arrives (n : BitVec 2) (c : ClusterId) : Eff := { lat := 0, cluster := c, what := .nothing, arrive := some n }

theorem CoreSt.arriveNow_arrives {j k : CoreSt} (hjk : j.SameBarriers k) (n : BitVec 2) (cs : List ClusterId) :
    (j.arriveNow .primary (cs.map (Eff.arrives n))).SameBarriers (cs.foldl (fun k _ => (k.arrive n).1) k) := by
  induction cs generalizing j k with
  | nil => exact hjk
  | cons c cs ih => exact ih ((j.land_nothing .primary c n).trans (hjk.arrive n))

/-- What retires at its issue makes the arrivals of the clusters whose guard is true. -/
theorem State.arriveNow_arrival (s : State) (r : KernelRun) (h : SlotHdr) :
    (s.cur.arriveNow .primary ((allClusters.filter (s.slotCtx r h).on).flatMap ((s.slotCtx r h).arrival 0))).SameBarriers (s.arrivedAt h 0) := by
  unfold State.arrivedAt
  cases harrive : h.arrive with
  | none =>
    have hnone : (s.slotCtx r h).arrival 0 = fun _ => [] := funext fun c => by
      rw [Ctx.arrival, show (s.slotCtx r h).h.arrive = none from harrive]
    rw [hnone, List.flatMap_eq_nil_iff.2 fun _ _ => rfl]
    exact ⟨rfl, rfl⟩
  | some n =>
    have hsome : (s.slotCtx r h).arrival 0 = fun c => [Eff.arrives n c] := funext fun c => by
      rw [Ctx.arrival, show (s.slotCtx r h).h.arrive = some n from harrive]
      rfl
    rw [hsome, ← List.map_eq_flatMap]
    exact CoreSt.arriveNow_arrives ⟨rfl, rfl⟩ n _

section
variable {s : State} {i : Instr} {h : SlotHdr} {f : Ctx → SlotResult} {r : KernelRun} {ws : ClusterId → List CisWrite}

/-- A bundle of stores: the units that it writes, and the arrivals. -/
theorem State.answers_stores (hi : slotSem i = some (h, f)) (hr : s.Issues r) (hf : ∃ y, f (s.slotCtx r h) = .ok y ∧
      y.Stores ((allClusters.filter (s.slotCtx r h).on).flatMap ws)
        ((allClusters.filter (s.slotCtx r h).on).flatMap ((s.slotCtx r h).arrival 0))) :
    Answers (exec i s) fun t => s.OnlyEngineBut (s.arrivedAt h 0) t ∧
      t.cur.cistern = ((allClusters.filter (s.slotCtx r h).on).flatMap ws).foldl putUnit s.cur.cistern := by
  obtain ⟨y, hy, hstores⟩ := hf
  rw [State.exec_straight hi hr hy hstores.toStraight hstores.remote]
  obtain ⟨hcore, hg, hshadow, hpc, hsem, hkb, htable, hhandles⟩ := State.onlyEngineBut_issued (h := h) hr y
  rw [hstores.effs] at hsem hkb
  obtain ⟨hkb', hsem'⟩ := s.arriveNow_arrival r h
  refine answers_next ⟨⟨hcore, hg, hshadow, hpc, hsem.trans hsem', hkb.trans hkb', htable, hhandles⟩, ?_⟩
  rw [State.cur_issued, CoreSt.Issues.issued_cis hr, y.alone_cis h, hstores.cis]
end

/-! ### CST, CST.U and CST.M -/

theorem opBytes_length (v : VOp) : (opBytes v).length = rowBytes v.tag := by
  have hbytes (n x : Nat) : (bytesLE n x).length = n := by
    induction n generalizing x with
    | zero => rfl
    | succ n ih => exact congrArg (· + 1) (ih _)
  unfold opBytes rowBytes
  split
  · simp [List.length_flatMap, hbytes]
  · simp [regBytes, List.length_flatMap, hbytes]

section
variable {x : Ctx} {hnd : BitVec 6} {al : Alloc} {v : BitVec 5} {off : Cluster → Nat → Nat} {vs : ClusterId → VOp}
  (hh : x.handle hnd false true = .ok al) (hv : ∀ c, x.on c = true → readVec (x.cluster c) x.run.rb (fun _ => true) v = .ok (vs c))
  (hin : ∀ c, x.on c = true → (homeView al c).holds (off (x.cluster c) (rowBytes (vs c).tag)) (rowBytes (vs c).tag) = true)
include hh hv hin

theorem storeHome_stores : ∃ y : Issue, storeHome v hnd off none x = .ok y ∧
    y.Stores ((allClusters.filter x.on).flatMap fun c =>
      storeWrites al c (off (x.cluster c) (rowBytes (vs c).tag)) (opBytes (vs c)) fun _ => true)
      ((allClusters.filter x.on).flatMap (x.arrival 0)) := by
  refine stores_guarded fun c hc => ?_
  have hholds := hin c hc
  simp only [hv c hc, hh, ok_bind]
  exact ⟨_, by rw [hholds]; rfl⟩

/-- A masked store into a Cistern without poison. -/
theorem storeHome_masked_stores {m : BitVec 5} {ms : ClusterId → VOp}
    (hm : ∀ c, x.on c = true → readVec (x.cluster c) x.run.rb (fun t => t == 15 || t == 4) m = .ok (ms c)) (hclean : x.core.cisPoison = []) :
    ∃ y : Issue, storeHome v hnd off (some m) x = .ok y ∧
      y.Stores ((allClusters.filter x.on).flatMap fun c => storeWrites al c (off (x.cluster c) (rowBytes (vs c).tag)) (opBytes (vs c))
        fun i => ((ms c).lo.read (BitVec.ofNat 6 (i / 32))).getLsbD (i % 32))
        ((allClusters.filter x.on).flatMap (x.arrival 0)) := by
  refine stores_guarded fun c hc => ?_
  have hholds := hin c hc
  have hpoison (ws : List CisWrite) : (ws.any fun w => w.mask != -1 && x.core.cisPoison.contains w.unit) = false := by
    rw [hclean]
    exact List.any_eq_false.2 fun w _ => by simp
  simp only [hv c hc, hm c hc, hh, ok_bind, Except.map]
  rw [hholds, hpoison]
  exact ⟨_, rfl⟩
end

/-! ### What they leave in the Cistern -/

section
variable {s : State} {i : Instr} {h : SlotHdr} {f : Ctx → SlotResult} {r : KernelRun} {al : Alloc} {off : ClusterId → Nat}
  {vs : ClusterId → VOp} {keep : ClusterId → Nat → Bool}

/-- After stores of the clusters' registers each byte that is kept is the register's, and each other byte of them as it was. -/
theorem State.answers_storeWrites (hi : slotSem i = some (h, f)) (hr : s.Issues r) (hrows : al.row + al.nrows ≤ Config.bankRows)
    (hin : ∀ c, s.guardOn h c → (homeView al c).holds (off c) (rowBytes (vs c).tag) = true)
    (hf : ∃ y, f (s.slotCtx r h) = .ok y ∧ y.Stores ((allClusters.filter (s.slotCtx r h).on).flatMap fun c =>
      storeWrites al c (off c) (opBytes (vs c)) (keep c)) ((allClusters.filter (s.slotCtx r h).on).flatMap ((s.slotCtx r h).arrival 0))) :
    Answers (exec i s) fun t => s.OnlyEngineBut (s.arrivedAt h 0) t ∧ ∀ c, s.guardOn h c → ∀ j, j < rowBytes (vs c).tag →
      (keep c j = true → some (t.cur.cistern.readByte ((homeView al c).addr (off c) j)) = (opBytes (vs c))[j]?) ∧
      (keep c j = false →
        t.cur.cistern.readByte ((homeView al c).addr (off c) j) = s.cur.cistern.readByte ((homeView al c).addr (off c) j)) := by
  refine (State.answers_stores hi hr hf).imp fun t ⟨hengine, hcistern⟩ => ⟨hengine, fun c hc j hj => ?_⟩
  rw [hcistern]
  exact readByte_stores (on := (s.slotCtx r h).on) hrows (fun c hc => by rw [opBytes_length]; exact hin c hc) hc (by rwa [opBytes_length])
end
end Sys2Proof.Machine
end

section
/-! PROOF. Remote atomics leave their core in order, or wait there (R265, R266, R287, R294; logs 23 and 36). -/

namespace Sys2Proof.Machine

/-! ### What is out -/

section
variable {s t : State} {c : CoreId} {m n : RemoteAtomic}

theorem mem_allCores (c : CoreId) : c ∈ allCores := List.mem_map.2 ⟨c.toNat, List.mem_range.2 c.isLt, BitVec.ofNat_toNat ..⟩

theorem State.mem_remotesOut : m ∈ s.remotesOut c ↔ ((∃ d, m ∈ (s.core d).remoteQ) ∨ m ∈ s.meshMsgs) ∧ m.src = c := by
  unfold State.remotesOut
  simp only [List.mem_append, List.mem_flatMap, mem_allCores, true_and, List.mem_filter, beq_iff_eq, exists_and_right, or_and_right]

/-- What is out depends on the queues at the targets and on the mesh alone. -/
theorem State.remotesOut_congr (hq : ∀ d, (t.core d).remoteQ = (s.core d).remoteQ) (hmesh : t.meshMsgs = s.meshMsgs) :
    t.remotesOut c = s.remotesOut c := by
  unfold State.remotesOut
  rw [hmesh]
  simp only [hq]

/-- An atomic to its own die joins its target's queue. -/
theorem State.shipRemote_near (h : dieOf m.src = dieOf m.target) :
    s.shipRemote m = s.modCore m.target fun k => { k with remoteQ := k.remoteQ ++ [m] } := by
  rw [State.shipRemote, h, beq_self_eq_true, if_pos rfl]

theorem State.shipRemote_near_remoteQ (h : dieOf m.src = dieOf m.target) (d : CoreId) :
    ((s.shipRemote m).core d).remoteQ = (s.core d).remoteQ ++ [m].filter fun n => n.target == d := by
  rw [State.shipRemote_near h, State.core_modCore]
  by_cases hd : d = m.target
  · subst hd
    simp
  · simp [Ne.symm hd]

theorem State.mem_remotesOut_shipRemote_near (h : dieOf m.src = dieOf m.target) (hn : n ∈ (s.shipRemote m).remotesOut c) :
    n ∈ s.remotesOut c ∨ n = m := by
  obtain ⟨hout, hsrc⟩ := State.mem_remotesOut.1 hn
  have hmesh : (s.shipRemote m).meshMsgs = s.meshMsgs := by
    rw [State.shipRemote_near h]
    rfl
  rcases hout with ⟨d, hd⟩ | hout
  · rw [State.shipRemote_near_remoteQ h, List.mem_append] at hd
    rcases hd with hd | hd
    · exact .inl (State.mem_remotesOut.2 ⟨.inl ⟨d, hd⟩, hsrc⟩)
    · exact .inr (List.mem_singleton.1 (List.mem_filter.1 hd).1)
  · rw [hmesh] at hout
    exact .inl (State.mem_remotesOut.2 ⟨.inr hout, hsrc⟩)
end

/-! ### Nothing holds atomics of different clusters -/

/-- Atomics of different clusters, none with another out, are all sent, each to its target in order. -/
theorem State.shipHeld_remoteQ (s : State) (c : CoreId) {ms : List RemoteAtomic} (hnear : ∀ m ∈ ms, dieOf m.src = dieOf m.target)
    (hms : (ms.map RemoteAtomic.cluster).Nodup) (hout : ∀ n ∈ s.remotesOut c, ∀ m ∈ ms, n.cluster ≠ m.cluster) (d : CoreId) :
    ((s.shipHeld c [] ms).core d).remoteQ = (s.core d).remoteQ ++ ms.filter fun m => m.target == d := by
  induction ms generalizing s with
  | nil =>
    rw [List.filter_nil, List.append_nil]
    unfold State.shipHeld
    rw [State.core_modCore]
    split
    · next h => rw [h]
    · rfl
  | cons m ms ih =>
    obtain ⟨hm, hms⟩ := List.nodup_cons.1 hms
    have hfree : (s.remotesOut c).any (fun n => (s.core c).sameParty n m) = false :=
      List.any_eq_false.2 fun n hn => by simp [CoreSt.sameParty, hout n hn m List.mem_cons_self]
    have hmnear := hnear m List.mem_cons_self
    unfold State.shipHeld
    dsimp only
    rw [hfree, List.any_nil, Bool.or_self, if_neg Bool.false_ne_true, ih _ (fun n hn => hnear n (List.mem_cons_of_mem m hn)) hms ?_,
      State.shipRemote_near_remoteQ hmnear, List.append_assoc, ← List.filter_append]
    · rfl
    · intro n hn m' hm'
      rcases State.mem_remotesOut_shipRemote_near hmnear hn with hn | rfl
      · exact hout n hn m' (List.mem_cons_of_mem m hm')
      · exact fun he => hm (he ▸ List.mem_map_of_mem hm')

/-! ### An atomic waits for its cluster's one before -/

section
variable {k : CoreSt} {m n : RemoteAtomic}

theorem mem_replaceFirst_of_not {α : Type} {p : α → Bool} (f : α → α) {xs : List α} {x : α} (hx : x ∈ xs) (hp : p x = false) :
    x ∈ replaceFirst p f xs := by
  induction xs with
  | nil => cases hx
  | cons y ys ih =>
    unfold replaceFirst
    rcases List.mem_cons.1 hx with rfl | hx
    · rw [hp]
      exact List.mem_cons_self
    · split
      · exact List.mem_cons_of_mem _ hx
      · exact List.mem_cons_of_mem _ (ih hx)

/-- A reply to another cluster's atomic leaves this cluster's requests as they are. -/
theorem any_answers_replaceFirst {fs : List FarReq} {f : FarReq → FarReq} (hne : m.cluster ≠ n.cluster)
    (h : fs.any (FarReq.answers m) = true) : (replaceFirst (FarReq.answers n) f fs).any (FarReq.answers m) = true := by
  obtain ⟨x, hx, hm⟩ := List.any_eq_true.1 h
  refine List.any_eq_true.2 ⟨x, mem_replaceFirst_of_not f hx (Bool.eq_false_iff.2 fun hn => hne ?_), hm⟩
  simp only [FarReq.answers, Bool.and_eq_true, beq_iff_eq] at hm hn
  obtain ⟨⟨⟨⟨-, hm⟩, -⟩, -⟩, -⟩ := hm
  obtain ⟨⟨⟨⟨-, hn⟩, -⟩, -⟩, -⟩ := hn
  exact hm.symm.trans hn

/-- A reply in a core with a primary kernel alone: it changes that kernel's first request that it answers, if any. -/
theorem CoreSt.reply_primary {r : KernelRun} (hrun : k.run .primary = some r) (halone : k.run .secondary = none) (ph : FarPhase) :
    k.reply m ph = if r.far.any (FarReq.answers m) then
      k.setRun .primary { r with far := replaceFirst (FarReq.answers m) (fun f => { f with phase := ph }) r.far } else k := by
  unfold CoreSt.reply
  cases hany : r.far.any (FarReq.answers m) <;> cases m.pos <;>
    simp only [hrun, halone, hany, if_true, if_false, Bool.false_eq_true, reduceCtorEq, beq_iff_eq, Option.getD_none, Option.getD_some]

theorem CoreSt.reply_remoteQ (k : CoreSt) (m : RemoteAtomic) (ph : FarPhase) : (k.reply m ph).remoteQ = k.remoteQ := by
  have hset (pos : KPos) (r : KernelRun) : (k.setRun pos r).remoteQ = k.remoteQ := rfl
  unfold CoreSt.reply
  grind

/-- In such a core an atomic that some request waits for is the primary's. -/
theorem CoreSt.asker_of_any {r : KernelRun} (hrun : k.run .primary = some r) (halone : k.run .secondary = none)
    (hany : r.far.any (FarReq.answers m) = true) : k.asker m = .primary := by
  unfold CoreSt.asker
  cases hpos : m.pos
  · rw [hrun]
    exact if_pos hany
  · rw [halone]
    rfl
end

/-- A state in which atomic `m` of core `c`'s primary kernel is out, and it and the kernel's atomic `n` have requests that wait. -/
structure State.Awaits (s : State) (c : CoreId) (m n : RemoteAtomic) : Prop where
  out : m ∈ s.remotesOut c
  alone : (s.core c).run .secondary = none
  run : ∃ r, (s.core c).run .primary = some r ∧ r.far.any (FarReq.answers m) = true ∧ r.far.any (FarReq.answers n) = true

section
variable {s : State} {c : CoreId} {m n : RemoteAtomic}

theorem State.Awaits.sameParty (h : s.Awaits c m n) (hcluster : m.cluster = n.cluster) : (s.core c).sameParty m n = true := by
  obtain ⟨r, hrun, hm, hn⟩ := h.run
  rw [CoreSt.sameParty, hcluster, CoreSt.asker_of_any hrun h.alone hm, CoreSt.asker_of_any hrun h.alone hn]
  simp

/-- More atomics may go out meanwhile. -/
theorem State.Awaits.mono {t : State} (h : s.Awaits c m n) (hq : ∀ d, ∀ x ∈ (s.core d).remoteQ, x ∈ (t.core d).remoteQ)
    (hmesh : ∀ x ∈ s.meshMsgs, x ∈ t.meshMsgs) (heng : (t.core c).eng = (s.core c).eng) : t.Awaits c m n := by
  obtain ⟨hout, halone, r, hrun, hm, hn⟩ := h
  obtain ⟨hout, hsrc⟩ := State.mem_remotesOut.1 hout
  refine ⟨State.mem_remotesOut.2 ⟨?_, hsrc⟩, (congrArg (Engine.run · .secondary) heng).trans halone, r,
    (congrArg (Engine.run · .primary) heng).trans hrun, hm, hn⟩
  rcases hout with ⟨d, hd⟩ | hout
  · exact .inl ⟨d, hq d m hd⟩
  · exact .inr (hmesh m hout)

/-- A reply to an atomic of another party, in whatever core, leaves it so. -/
theorem State.Awaits.reply (h : s.Awaits c m n) (hcluster : m.cluster = n.cluster) {m' : RemoteAtomic}
    (hother : (s.core c).sameParty m m' = false) (ph : FarPhase) : (s.modCore m'.src fun k => k.reply m' ph).Awaits c m n := by
  have hqueue (d : CoreId) : ((s.modCore m'.src fun k => k.reply m' ph).core d).remoteQ = (s.core d).remoteQ := by
    rw [State.core_modCore]
    split
    · next e =>
      subst e
      exact CoreSt.reply_remoteQ ..
    · rfl
  by_cases hc : m'.src = c
  · obtain ⟨hout, halone, r, hrun, hm, hn⟩ := h
    have hcore : (s.modCore m'.src fun k => k.reply m' ph).core c = (s.core c).reply m' ph := by
      rw [State.core_modCore, if_pos hc, hc]
    have hout' : m ∈ (s.modCore m'.src fun k => k.reply m' ph).remotesOut c := by
      rwa [State.remotesOut_congr hqueue rfl]
    rw [CoreSt.reply_primary hrun halone] at hcore
    by_cases hany : r.far.any (FarReq.answers m') = true
    · -- its party is the same kernel in another cluster
      have hne : m.cluster ≠ m'.cluster := fun he => by
        rw [CoreSt.sameParty, he, CoreSt.asker_of_any hrun halone hm, CoreSt.asker_of_any hrun halone hany] at hother
        simp at hother
      rw [if_pos hany] at hcore
      have hrun' := (congrArg (CoreSt.run · .primary) hcore).trans (CoreSt.run_setRun ..)
      exact ⟨hout', by rw [hcore]; exact halone, _, hrun', any_answers_replaceFirst hne hm, any_answers_replaceFirst (hcluster ▸ hne) hn⟩
    · rw [if_neg hany] at hcore
      exact ⟨hout', by rw [hcore]; exact halone, r, by rw [hcore]; exact hrun, hm, hn⟩
  · refine h.mono (fun d x hx => (hqueue d).symm ▸ hx) (fun x hx => hx) ?_
    rw [State.core_modCore, if_neg hc]

/-- Sending an atomic of another party leaves it so. -/
theorem State.Awaits.shipRemote (h : s.Awaits c m n) (hcluster : m.cluster = n.cluster) {m' : RemoteAtomic}
    (hother : (s.core c).sameParty m m' = false) : (s.shipRemote m').Awaits c m n := by
  by_cases hdie : dieOf m'.src = dieOf m'.target
  · refine h.mono (fun d x hx => ?_) (fun x hx => ?_) ?_
    · rw [State.shipRemote_near_remoteQ hdie]
      exact List.mem_append_left _ hx
    · rwa [State.shipRemote_near hdie]
    · rw [State.shipRemote_near hdie, State.core_modCore]
      split
      · next e => rw [e]
      · rfl
  · rw [State.shipRemote, if_neg (by simpa using hdie)]
    dsimp only
    split
    · rename_i t e
      obtain ⟨p, -, rfl⟩ := Option.map_eq_some_iff.1 e
      exact h.mono (fun d x hx => hx) (fun x hx => List.mem_append_left _ hx) rfl
    · exact h.reply hcluster hother _

/-- The atomic of a cluster that has another out stays in its core. -/
theorem State.Awaits.mem_heldRemotes (h : s.Awaits c m n) (hcluster : m.cluster = n.cluster) {kept ms : List RemoteAtomic}
    (hn : n ∈ kept ∨ n ∈ ms) : n ∈ ((s.shipHeld c kept ms).core c).heldRemotes := by
  induction ms generalizing s kept with
  | nil =>
    unfold State.shipHeld
    rw [State.core_modCore, if_pos rfl]
    exact hn.resolve_right List.not_mem_nil
  | cons m' ms ih =>
    unfold State.shipHeld
    extract_lets +onlyGivenNames k
    split
    · next hheld =>
      refine ih h ?_
      rcases hn with hn | hn
      · exact .inl (List.mem_append_left _ hn)
      · rcases List.mem_cons.1 hn with rfl | hn
        · exact .inl (List.mem_append_right _ List.mem_cons_self)
        · exact .inr hn
    · next hfree =>
      rw [Bool.or_eq_true, not_or] at hfree
      obtain ⟨-, hparty⟩ := hfree
      have hother : (s.core c).sameParty m m' = false :=
        Bool.eq_false_iff.2 fun hp => hparty (List.any_eq_true.2 ⟨m, h.out, hp⟩)
      refine ih (h.shipRemote hcluster hother) (hn.imp_right fun hn => ?_)
      rcases List.mem_cons.1 hn with rfl | hn
      · rw [h.sameParty hcluster] at hother
        cases hother
      · exact hn
end
end Sys2Proof.Machine
end

section
/-! PROOF. The remote form of CATOM.FAR (R265, R266, R294). -/

namespace Sys2Proof.Machine

/-! ### The core that sends -/

theorem loopBack_eng (e : Nat) (k : CoreSt) (r : KernelRun) (ls : List LoopSt) : (loopBack e k r ls).1.eng = k.eng := by
  induction ls generalizing k r with
  | nil => rfl
  | cons l outer ih =>
    unfold loopBack
    dsimp only
    split
    · split
      · dsimp only
        split <;> rfl
      · exact ih ..
    · rfl

/-- A bundle without control and without an arrival at its issue starts no kernel. -/
theorem CoreSt.Issues.issued_alone {k : CoreSt} {r : KernelRun} (h : k.Issues r) {y : Issue} (hctl : y.ctl = []) (heffs : y.effs = []) :
    (k.issued y).run .secondary = none := by
  have hsteered : (k.begun.steered .primary y r).1.eng.secondary = none := by
    rw [steered, hctl]
    show (loopBack r.idx (k.begun.atIssue .primary y) _ r.loops).1.eng.secondary = none
    rw [loopBack_eng]
    exact (touched_keeps (fun k => k.eng.secondary) (fun _ _ _ _ _ _ => rfl) k.begun .primary y).trans h.alone
  rw [issued_eq, bankFreeze_run, tickRates_run, h.commit_begun, heffs]
  exact hsteered

section
variable {s : State} {i : Instr} {h : SlotHdr} {r : KernelRun} {y : Issue} {fs : List FarReq} {rs : List RemoteAtomic}

/-- The state in which a bundle's remote atomics leave their core. -/
def State.issuedAt (s : State) (h : SlotHdr) (y : Issue) : State := s.setCore s.active (s.cur.issued (y.alone h))

theorem State.core_issuedAt : (s.issuedAt h y).core s.active = s.cur.issued (y.alone h) := by
  rw [State.issuedAt, State.core_setCore, if_pos rfl]

/-- At the issue no atomic is held or sent. -/
theorem State.heldRemotes_issuedAt (hr : s.Issues r) : ((s.issuedAt h y).core s.active).heldRemotes = s.cur.heldRemotes := by
  rw [State.core_issuedAt]
  exact (congrArg CoreSt.heldRemotes (CoreSt.Issues.issued_control (y.alone h) hr) :)

theorem State.remoteQ_issuedAt (hr : s.Issues r) (d : CoreId) : ((s.issuedAt h y).core d).remoteQ = (s.core d).remoteQ := by
  by_cases hd : s.active = d
  · subst hd
    rw [State.core_issuedAt]
    exact (congrArg CoreSt.remoteQ (CoreSt.Issues.issued_control (y.alone h) hr) :)
  · rw [State.issuedAt, State.core_setCore, if_neg hd]

/-- The state with a core's new atomics behind those that it holds. -/
def State.holding (s : State) (c : CoreId) (ms : List RemoteAtomic) : State := s.modCore c fun k => { k with heldRemotes := k.heldRemotes ++ ms }

theorem State.sendRemotes_eq (s : State) (c : CoreId) {ms : List RemoteAtomic} (hms : ms ≠ []) :
    s.sendRemotes c ms = (s.holding c ms).shipHeld c [] ((s.core c).heldRemotes ++ ms) := by
  have hheld : ((s.holding c ms).core c).heldRemotes = (s.core c).heldRemotes ++ ms := by
    rw [State.holding, State.core_modCore, if_pos rfl]
  have hne : ms.isEmpty = false := by simpa using hms
  unfold State.sendRemotes
  rw [hne, if_neg Bool.false_ne_true]
  show (s.holding c ms).releaseRemotes c = _
  unfold State.releaseRemotes
  rw [hheld]
  split
  · next h => exact absurd (List.append_eq_nil_iff.1 h).2 hms
  · rfl

theorem State.remoteQ_holding (s : State) (c d : CoreId) (ms : List RemoteAtomic) : ((s.holding c ms).core d).remoteQ = (s.core d).remoteQ := by
  rw [State.holding, State.core_modCore]
  split
  · next h => rw [h]
  · rfl

/-- A core that holds no atomic and has none out sends those of different clusters to its die at once. -/
theorem State.sendRemotes_remoteQ (s : State) (c : CoreId) {ms : List RemoteAtomic} (hheld : (s.core c).heldRemotes = [])
    (hout : s.remotesOut c = []) (hnear : ∀ m ∈ ms, dieOf m.src = dieOf m.target) (hms : (ms.map RemoteAtomic.cluster).Nodup) (d : CoreId) :
    ((s.sendRemotes c ms).core d).remoteQ = (s.core d).remoteQ ++ ms.filter fun m => m.target == d := by
  rcases eq_or_ne ms [] with rfl | hne
  · rw [State.sendRemotes_nil, List.filter_nil, List.append_nil]
  · have hout' : (s.holding c ms).remotesOut c = [] := (State.remotesOut_congr (fun d => s.remoteQ_holding c d ms) rfl).trans hout
    rw [State.sendRemotes_eq s c hne, hheld, List.nil_append, State.shipHeld_remoteQ _ c hnear hms (fun n hn => by rw [hout'] at hn; cases hn),
      State.remoteQ_holding]

/-- The atomic of a cluster that has one out is held. -/
theorem State.Awaits.mem_sendRemotes {c : CoreId} {m n : RemoteAtomic} {ms : List RemoteAtomic} (h : s.Awaits c m n)
    (hcluster : m.cluster = n.cluster) (hn : n ∈ ms) : n ∈ ((s.sendRemotes c ms).core c).heldRemotes := by
  have hne : ms ≠ [] := List.ne_nil_of_mem hn
  have hholding : (s.holding c ms).Awaits c m n := by
    refine h.mono (fun d x hx => (s.remoteQ_holding c d ms).symm ▸ hx) (fun x hx => hx) ?_
    rw [State.holding, State.core_modCore, if_pos rfl]
  rw [State.sendRemotes_eq s c hne]
  exact hholding.mem_heldRemotes hcluster (.inr (List.mem_append_right _ hn))

/-- While an atomic is out whose request waits, and its cluster's next one has a request of its own. -/
theorem State.awaits_issuedAt (hr : s.Issues r) (hy : y.Asks fs rs) {m n : RemoteAtomic} (hm : m ∈ s.remotesOut s.active)
    (hany : r.far.any (FarReq.answers m) = true) (hn : fs.any (FarReq.answers n) = true) : (s.issuedAt h y).Awaits s.active m n := by
  obtain ⟨-, -, r', hrun, -, -, hfar⟩ := State.sent_issued (h := h) hr hy
  refine ⟨?_, ?_, r', ?_, ?_, ?_⟩
  · rwa [State.remotesOut_congr (State.remoteQ_issuedAt hr) rfl]
  · rw [State.core_issuedAt]
    refine CoreSt.Issues.issued_alone hr (by rw [y.alone_ctl h, hy.ctl]) ?_
    rw [y.alone_effs h, hy.effs]
    rfl
  · rw [State.core_issuedAt]
    exact hrun
  · rw [hfar, List.any_append, hany, Bool.true_or]
  · rw [hfar, List.any_append, hn, Bool.or_true]
end

section
variable {s : State} {i : Instr} {h : SlotHdr} {f : Ctx → SlotResult} {r : KernelRun} {fs : List FarReq} {rs : List RemoteAtomic}

/-- Remote atomics to cores of their own die leave their core, or are held there. -/
theorem State.answers_asks_remote (hi : slotSem i = some (h, f)) (hr : s.Issues r) (hf : ∃ y, f (s.slotCtx r h) = .ok y ∧ y.Asks fs rs)
    (hnear : ∀ m ∈ rs, dieOf m.src = dieOf m.target) (hclusters : (rs.map RemoteAtomic.cluster).Nodup) :
    Answers (exec i s) fun t => t.mem = s.mem ∧ (s.cur.heldRemotes = [] → s.Sent t r fs) ∧
      (s.cur.heldRemotes = [] → s.remotesOut s.active = [] →
        ∀ d, (t.core d).remoteQ = (s.core d).remoteQ ++ rs.filter fun m => m.target == d) ∧
      ∀ m ∈ s.remotesOut s.active, r.far.any (FarReq.answers m) = true → ∀ n ∈ rs, fs.any (FarReq.answers n) = true →
        m.cluster = n.cluster → n ∈ t.cur.heldRemotes := by
  obtain ⟨y, hy, hasks⟩ := hf
  rw [State.exec_alone hi hr hy (fun n hn => by rw [hasks.wait] at hn; cases hn) (fun _ _ hc => by rw [hasks.ctl] at hc; cases hc), hasks.remote]
  have hsent : (s.issuedAt h y).SentFrom ((s.issuedAt h y).sendRemotes s.active rs) := State.sentFrom_sendRemotes ..
  have hcur : ((s.issuedAt h y).sendRemotes s.active rs).cur = ((s.issuedAt h y).sendRemotes s.active rs).core s.active :=
    congrArg _ hsent.active
  refine answers_next ⟨hsent.mem, fun hheld => ?_, fun hheld hout d => ?_, fun m hm hany n hn hanyn hcluster => ?_⟩
  · obtain ⟨hcis, -, r', hrun, hkc, hin, hfar⟩ := State.sent_issued (h := h) hr hasks
    have heng : (((s.issuedAt h y).sendRemotes s.active rs).core s.active).eng = (s.cur.issued (y.alone h)).eng := by
      rw [State.sendRemotes_eng (.inl ((State.heldRemotes_issuedAt hr).trans hheld)) hnear, State.core_issuedAt]
    have hrest := (hsent.core s.active).rest
    rw [State.core_issuedAt] at hrest
    refine ⟨?_, r', ?_, hkc, hin, hfar⟩
    · show (State.cur ((s.issuedAt h y).sendRemotes s.active rs)).cistern = _
      rw [hcur]
      exact (congrArg CoreSt.cistern hrest :).trans hcis
    · show (State.cur ((s.issuedAt h y).sendRemotes s.active rs)).run .primary = _
      rw [hcur]
      exact (congrArg (Engine.run · .primary) heng).trans hrun
  · refine (State.sendRemotes_remoteQ _ s.active ((State.heldRemotes_issuedAt hr).trans hheld) ?_ hnear hclusters d).trans ?_
    · rwa [State.remotesOut_congr (State.remoteQ_issuedAt hr) rfl]
    · rw [State.remoteQ_issuedAt hr]
  · show n ∈ (State.cur ((s.issuedAt h y).sendRemotes s.active rs)).heldRemotes
    rw [hcur]
    exact (State.awaits_issuedAt hr hasks hm hany hanyn).mem_sendRemotes hcluster hn
end
end Sys2Proof.Machine
end

section
open Sys2Proof Sys2Proof.Machine

/-- Settles O50: a load yields bytes of its view; a store's bytes stand at addresses of their own, so that no other write of the bundle hits
them; a request is one for each cluster whose guard is true. A remote atomic goes out when none of its cluster's is out before it, and is held
else (R294, log 23); its sender checks no declaration of the handle (log 36). -/
theorem Sys2Proof.cisternSlotResults : Obligations.CisternSlotResults := by
  intro s r h f v hnd row e al hr hal
  have hal' : (s.slotCtx r h).core.handles.read hnd = some al := hal
  refine ⟨?_, ?_, ?_⟩
  · intro t n loads hio
    have hh : (s.slotCtx r h).handle hnd true false = .ok al := Ctx.handle_load hal' hio
    refine ⟨fun hok => ?_, fun hok => ?_, fun hok => ?_⟩
    · exact State.gives_of_yields rfl hr (by decide)
        (loadHome_yields (x := s.slotCtx r h) (off := fun k => rowBytes (tagOf f) * nearRow k row) hh hok)
    · exact State.gives_of_yields rfl hr (by decide)
        (loadHome_yields (x := s.slotCtx r h) (off := fun k => rowBytes (tagOf f) * extRow k e + e.low.toNat) hh hok)
    · exact (State.answers_asks rfl hr (slotCldFar_asks (x := s.slotCtx r h) hh hok)).imp fun t ⟨hengine, hcycle, hcis, hrun⟩ =>
        ⟨hengine, hcis, hcycle, hrun⟩
  · intro vs ho hrows hv stores
    have hh : (s.slotCtx r h).handle hnd false true = .ok al := Ctx.handle_store hal' ho
    refine ⟨fun hin => ?_, fun hin => ?_, fun ms hm => ?_⟩
    · exact (State.answers_storeWrites rfl hr hrows hin
        (storeHome_stores (x := s.slotCtx r h) (off := fun k n => n * nearRow k row) hh hv hin)).imp
        fun t ⟨hengine, hbytes⟩ => ⟨hengine, fun c hc j hj => (hbytes c hc j hj).1 rfl⟩
    · exact (State.answers_storeWrites rfl hr hrows hin
        (storeHome_stores (x := s.slotCtx r h) (off := fun k n => n * extRow k e + e.low.toNat) hh hv hin)).imp
        fun t ⟨hengine, hbytes⟩ => ⟨hengine, fun c hc j hj => (hbytes c hc j hj).1 rfl⟩
    · intro off hin hclean
      refine (State.answers_storeWrites rfl hr hrows hin
        (storeHome_masked_stores (x := s.slotCtx r h) (off := fun k n => n * extRow k e) hh hv hin hm hclean)).imp
        fun t ⟨hengine, hbytes⟩ => ⟨hengine, fun c hc j hj => ?_⟩
      obtain ⟨hkept, hleft⟩ := hbytes c hc j hj
      intro at_
      split
      · next hbit => exact hkept hbit
      · next hbit => exact hleft (Bool.eq_false_iff.2 hbit)
  · intro kind xs cs hops on a farRow ask sent
    have hops' : (s.slotCtx r h).Operands kind v e xs cs := hops
    refine ⟨fun hin hout => ?_, fun hremote => ?_⟩
    · have hh : (s.slotCtx r h).handle hnd true true = .ok al := Ctx.handle_atomic hal' hin hout
      refine ⟨fun hok => ?_, fun hok => ?_⟩
      · exact (State.answers_asks rfl hr (slotCatom_asks (x := s.slotCtx r h) hh hops' hok)).imp
          fun t ⟨hengine, _, hsent⟩ => ⟨hengine, hsent⟩
      · exact (State.answers_asks rfl hr (slotCatomFar_asks_local (x := s.slotCtx r h) hh hops' hok)).imp
          fun t ⟨hengine, _, hsent⟩ => ⟨hengine, hsent⟩
    · have hremote' : ∀ c, (s.slotCtx r h).on c = true → (s.slotCtx r h).Remote e c ∧ ((s.slotCtx r h).rowReg e c).extractLsb' 56 7 ∈
          (s.slotCtx r h).peers := fun c hc => by
        obtain ⟨hmode, hbit, hother, hpeer, -⟩ := hremote c hc
        exact ⟨⟨hmode, hbit, hother⟩, hpeer⟩
      refine (State.answers_asks_remote rfl hr (slotCatomFar_asks_remote (x := s.slotCtx r h) (hnd := hnd) hops' hremote')
        (List.forall_mem_map.2 fun c hc => ?_) ?_).imp fun t ⟨hmem, hsent, hqueues, hwaits⟩ =>
        ⟨hmem, hsent, fun hheld hout d => ?_, fun m hm hpos hany hc => ?_⟩
      · obtain ⟨-, -, -, -, hdie⟩ := hremote c (List.mem_filter.1 hc).2
        exact hdie.symm
      · rw [List.map_map]
        exact (List.map_id (allClusters.filter (s.slotCtx r h).on)).symm ▸ List.Nodup.filter _ (by decide)
      · rw [hqueues hheld hout d, List.filter_map]
        refine congrArg ((s.core d).remoteQ ++ ·) (List.map_congr_left fun c hc => ?_)
        obtain rfl : ((s.slotCtx r h).rowReg e c).extractLsb' 56 7 = d := beq_iff_eq.1 (List.mem_filter.1 hc).2
        rfl
      · refine ⟨(s.slotCtx r h).remoteAtomic kind v hnd e xs cs m.cluster, ?_, rfl, rfl⟩
        have hmem : m.cluster ∈ allClusters.filter (s.slotCtx r h).on := List.mem_filter.2 ⟨mem_allClusters _, hc⟩
        refine hwaits m hm hany _ (List.mem_map_of_mem hmem) (List.any_eq_true.2 ⟨_, List.mem_map_of_mem hmem, ?_⟩) rfl
        simp [FarReq.answers, Ctx.atomReq, Ctx.remoteAtomic]
end

section
/-! PROOF. A slot operation that writes its own cluster at its issue: results later, arrivals at the issue or later, and flags, with what the
clusters hold then (R47, R48, R131, R178, R183 to R185, R237). -/

namespace Sys2Proof.Machine

/-! ### What an operation does to the clusters at its issue -/

/-- The clusters after what an issue changes of them at once. -/
def Issue.applied (y : Issue) (b : Bank 4 Cluster) : Bank 4 Cluster := y.now.foldl (fun b x => b.modify x.1 x.2) b

/-- The rest of an issue. -/
def Issue.sansNow (y : Issue) : Issue := { y with now := [] }

theorem Issue.applied_add (x y : Issue) (b : Bank 4 Cluster) : (x.add y).applied b = y.applied (x.applied b) := List.foldl_append

theorem Bank.write_read {w : Nat} {α : Type} (b : Bank w α) (i : BitVec w) : b.write i (b.read i) = b := Vector.set_getElem_self _

/-- What each of several clusters does to itself, all of them do. -/
theorem Bank.read_foldl_modify {w : Nat} {α : Type} {f : BitVec w → α → α} {is : List (BitVec w)} (hnodup : is.Nodup) (b : Bank w α)
    (j : BitVec w) : (is.foldl (fun b i => b.modify i (f i)) b).read j = if j ∈ is then f j (b.read j) else b.read j := by
  induction is generalizing b with
  | nil => rfl
  | cons i is ih =>
    obtain ⟨hi, his⟩ := List.nodup_cons.1 hnodup
    rw [List.foldl_cons, ih his, Bank.read_modify]
    by_cases hij : i = j
    · subst hij
      simp [hi]
    · simp [hij, Ne.symm hij]

/-- A cluster's issue: its results `ws`, what `put` makes of the cluster at once, and flags. -/
structure Issue.Acts (silent : Prop) (lat : Nat) (c : ClusterId) (ws : List RegWrite) (put : Cluster → Cluster) (y : Issue) : Prop where
  quiet : y.sansNow.Quiet
  effs : y.effs = ws.map fun w => { lat := lat, cluster := c, what := w }
  now : ∀ b, y.applied b = b.modify c put
  flags : silent → y.NoFlags

/-- An operation passes its checks: each cluster whose guard is true gives its results `ws`, `lat` kc later, and its arrival with them, and
becomes what `put` makes of it at once; where `silent` holds, no flag is raised. -/
structure Ctx.Acts (x : Ctx) (silent : Prop) (lat : Nat) (ws : ClusterId → List RegWrite) (put : ClusterId → Cluster → Cluster) (y : Issue) :
    Prop where
  quiet : y.sansNow.Quiet
  effs : y.effs = x.results lat ws
  now : ∀ b c, (y.applied b).read c = if x.on c then put c (b.read c) else b.read c
  flags : silent → y.NoFlags

section
variable {x : Ctx} {silent : Prop} {lat : Nat} {ws : ClusterId → List RegWrite} {put : ClusterId → Cluster → Cluster}

theorem Issue.quiet_sansNow_joined {g : ClusterId → Issue} {cs : List ClusterId} (h : ∀ c ∈ cs, (g c).sansNow.Quiet) :
    (Issue.joined g cs).sansNow.Quiet := by
  induction cs with
  | nil => exact quiet_of_effs []
  | cons c cs ih => exact (h c List.mem_cons_self).add (ih fun d hd => h d (List.mem_cons_of_mem c hd))

theorem Issue.applied_joined {g : ClusterId → Issue} {put : ClusterId → Cluster → Cluster} (h : ∀ c b, (g c).applied b = b.modify c (put c))
    (cs : List ClusterId) (b : Bank 4 Cluster) : (Issue.joined g cs).applied b = cs.foldl (fun b c => b.modify c (put c)) b := by
  induction cs generalizing b with
  | nil => rfl
  | cons c cs ih =>
    rw [List.foldl_cons, ← h, ← ih]
    exact applied_add ..

/-- The clusters of an operation joined: those whose guard is true act, the others do nothing. -/
theorem acts_guarded {f : ClusterId → Cluster → SlotResult}
    (hf : ∀ c, x.on c = true → ∃ y : Issue, f c (x.cluster c) = .ok y ∧ y.Acts silent lat c (ws c) (put c)) :
    ∃ y : Issue, x.guarded lat f = .ok y ∧ x.Acts silent lat ws put y := by
  have hall (c : ClusterId) : ∃ y : Issue, (if x.on c then match f c (x.cluster c) with
        | .error k => .error k
        | .ok i => .ok (i.add { effs := x.arrival lat c }) else .ok {}) = Except.ok (ε := Byte) y ∧
      y.sansNow.Quiet ∧ y.effs = (if x.on c then ((ws c).map fun w => { lat := lat, cluster := c, what := w }) ++ x.arrival lat c else []) ∧
      (∀ b, y.applied b = b.modify c (if x.on c then put c else id)) ∧ (silent → y.NoFlags) := by
    by_cases hc : x.on c = true
    · obtain ⟨y, hok, hquiet, heffs, hnow, hflags⟩ := hf c hc
      rw [if_pos hc, if_pos hc, if_pos hc, hok]
      refine ⟨_, rfl, hquiet.add Ctx.arrival_quiet, congrArg (· ++ x.arrival lat c) heffs, fun b => ?_, fun hs =>
        (hflags hs).add (Issue.noFlags_of_effs _)⟩
      rw [Issue.applied_add, hnow]
      rfl
    · rw [if_neg hc, if_neg hc, if_neg hc]
      exact ⟨_, rfl, Issue.quiet_of_effs [], rfl, fun b => (Bank.write_read b c).symm, fun _ => Issue.noFlags_of_effs []⟩
  choose g hok hquiet heffs hnow hflags using hall
  refine ⟨_, joinClusters_joined fun c _ => hok c, Issue.quiet_sansNow_joined fun c _ => hquiet c, ?_, fun b c => ?_,
    fun hs => Issue.noFlags_joined fun c _ => hflags c hs⟩
  · rw [Issue.joined_effs]
    exact congrArg (List.flatMap · allClusters) (funext heffs)
  · rw [Issue.applied_joined hnow, Bank.read_foldl_modify (by decide), if_pos (mem_allClusters c)]
    cases x.on c <;> rfl
end

/-! ### What its core holds then -/

theorem CoreSt.touched_applied (k : CoreSt) (pos : KPos) (y : Issue) :
    k.touched pos y = ({ k with clusters := y.applied k.clusters } : CoreSt).touched pos y.sansNow := by
  have hnow (xs : List (ClusterId × (Cluster → Cluster))) (k : CoreSt) :
      xs.foldl (fun k x => ({ k with clusters := k.clusters.modify x.1 x.2 } : CoreSt)) k =
        { k with clusters := xs.foldl (fun b x => b.modify x.1 x.2) k.clusters } := by
    induction xs generalizing k with
    | nil => rfl
    | cons x xs ih => exact ih _
  unfold CoreSt.touched
  rw [hnow]
  rfl

theorem CoreSt.modRun_clusters (k : CoreSt) (pos : KPos) (f : KernelRun → KernelRun) : (k.modRun pos f).clusters = k.clusters := by
  unfold CoreSt.modRun
  split <;> rfl

theorem CoreSt.arrive_clusters (k : CoreSt) (n : BitVec 2) : (k.arrive n).1.clusters = k.clusters := congrArg (·.1.clusters) (k.arrive_eq n)

theorem CoreSt.land_nothing_clusters (k : CoreSt) (pos : KPos) (c : ClusterId) (a : Option (BitVec 2)) :
    (k.land pos c .nothing a).clusters = k.clusters := by
  have hput : (k.put c .nothing).clusters = k.clusters := Bank.write_read k.clusters c
  cases a with
  | none => exact hput
  | some n =>
    rw [land_some]
    split
    · rw [modRun_clusters, arrive_clusters, hput]
    · rw [arrive_clusters, hput]

/-- What retires at its issue with nothing to write leaves the clusters. -/
theorem CoreSt.arriveNow_clusters (k : CoreSt) (pos : KPos) {es : List Eff} (h : ∀ e ∈ es, e.lat = 0 → e.what = .nothing) :
    (k.arriveNow pos es).clusters = k.clusters := by
  have h' : ∀ e ∈ es.filter fun e => e.lat == 0, e.what = .nothing := fun e he => by
    obtain ⟨hmem, hlat⟩ := List.mem_filter.1 he
    exact h e hmem (beq_iff_eq.1 hlat)
  rw [arriveNow_eq]
  generalize es.filter (fun e => e.lat == 0) = fs at h'
  induction fs generalizing k with
  | nil => rfl
  | cons e fs ih =>
    rw [List.foldl_cons, ih _ fun e he => h' e (List.mem_cons_of_mem _ he), h' e List.mem_cons_self, land_nothing_clusters]

section
variable {k : CoreSt} {r : KernelRun} {y : Issue} (h : k.Issues r) (hctl : y.ctl = [])
include h hctl

/-- Without control it ends no kernel, in a loop or not. -/
theorem CoreSt.Issues.issued_not_ended {r' : KernelRun} (hrun : (k.issued y).run .primary = some r') : r'.ending = none := by
  obtain ⟨b, hb, -⟩ := h.issued_run_eq y
  obtain rfl := Option.some.inj (hb.symm.trans hrun)
  obtain ⟨-, -, -, hend⟩ := loopBack_snd r.idx (k.begun.atIssue .primary y) (r.launched (k.begun.atIssue .primary y).eng y) r.loops
  show (steerRun _ _ y.ctl).2.ending = none
  rw [hctl]
  exact hend.trans h.not_ended

/-- Outside of loops the clusters are what the operations of the bundle make of them at once. -/
theorem CoreSt.Issues.issued_touched (hloops : r.loops = []) (hnothing : ∀ e ∈ y.effs, e.lat = 0 → e.what = .nothing) :
    (k.issued y).clusters = (k.begun.touched .primary y).clusters := by
  have hsteered : (k.begun.steered .primary y r).1 = k.begun.atIssue .primary y := by
    rw [steered, hctl]
    show (loopBack r.idx _ _ r.loops).1 = _
    rw [hloops]
    rfl
  rw [issued_eq, h.commit_begun]
  show (CoreSt.arriveNow _ _ y.effs).clusters = _
  rw [arriveNow_clusters _ _ hnothing, setRun_clusters, hsteered]
  rfl
end

section
variable {s : State} {i : Instr} {h : SlotHdr} {f : Ctx → SlotResult} {r : KernelRun} {silent : Prop} {lat : Nat}
  {ws : ClusterId → List RegWrite} {put : ClusterId → Cluster → Cluster}

/-- What a cluster is when an operation has acted in it. -/
def State.acted (s : State) (r : KernelRun) (h : SlotHdr) (put : ClusterId → Cluster → Cluster) (c : ClusterId) : Cluster :=
  if (s.slotCtx r h).on c then put c (s.cluster c) else s.cluster c

theorem State.acted_on {c : ClusterId} (hc : s.guardOn h c) : s.acted r h put c = put c (s.cluster c) := if_pos hc
theorem State.acted_off {c : ClusterId} (hc : ¬s.guardOn h c) : s.acted r h put c = s.cluster c := if_neg hc

/-- An operation without a result at its issue arrives as `arrivedAt` says. -/
theorem State.arriveNow_results (hlat : lat = 0 → ws = fun _ => []) :
    (s.cur.arriveNow .primary ((s.slotCtx r h).results lat ws)).SameBarriers (s.arrivedAt h lat) := by
  by_cases h0 : lat = 0
  · subst h0
    rw [hlat rfl]
    have hresults : (s.slotCtx r h).results 0 (fun _ => []) =
        (allClusters.filter (s.slotCtx r h).on).flatMap ((s.slotCtx r h).arrival 0) := flatMap_if ..
    rw [hresults]
    exact s.arriveNow_arrival r h
  · rw [CoreSt.arriveNow_late _ _ fun e he => Ctx.results_lat e he ▸ h0]
    cases lat
    · exact absurd rfl h0
    · exact ⟨rfl, rfl⟩

/-- The results of an operation in flight. -/
theorem Ctx.mem_flights {x : Ctx} (hlat : lat = 0 → ws = fun _ => []) (g : Engine) (kc : Nat) (f : InFlight) :
    f ∈ (((x.results lat ws).map fun e => { e with slot := x.h.slot.num }).filter fun e => e.lat != 0).map (fun e =>
      (⟨g.stamp e.slot, kc + e.lat, e.cluster, e.what, e.arrive⟩ : InFlight)) ↔
    ∃ c, x.on c = true ∧ ((∃ w ∈ ws c, f = ⟨g.stamp x.h.slot.num, kc + lat, c, w, none⟩) ∨
      ∃ n, lat ≠ 0 ∧ x.h.arrive = some n ∧ f = ⟨g.stamp x.h.slot.num, kc + lat, c, .nothing, some n⟩) := by
  simp only [List.mem_map, List.mem_filter]
  constructor
  · rintro ⟨_, ⟨⟨e, he, rfl⟩, hlate⟩, rfl⟩
    obtain ⟨c, hc, ⟨w, hw, rfl⟩ | ⟨n, hn, rfl⟩⟩ := Ctx.mem_results.1 he
    · exact ⟨c, hc, .inl ⟨w, hw, rfl⟩⟩
    · exact ⟨c, hc, .inr ⟨n, bne_iff_ne.1 hlate, hn, rfl⟩⟩
  · rintro ⟨c, hc, ⟨w, hw, rfl⟩ | ⟨n, hlate, hn, rfl⟩⟩
    · refine ⟨_, ⟨⟨_, Ctx.mem_results.2 ⟨c, hc, .inl ⟨w, hw, rfl⟩⟩, rfl⟩, bne_iff_ne.2 fun h0 => ?_⟩, rfl⟩
      rw [hlat h0] at hw
      cases hw
    · exact ⟨_, ⟨⟨_, Ctx.mem_results.2 ⟨c, hc, .inr ⟨n, hn, rfl⟩⟩, rfl⟩, bne_iff_ne.2 hlate⟩, rfl⟩

section
variable {y : Issue} (hr : s.Issues r) (hlat : lat = 0 → ws = fun _ => []) (hy : (s.slotCtx r h).Acts silent lat ws put y)
include hr hlat hy

/-- An operation that acts has its results in flight. -/
theorem State.results_issued : s.Results r h (s.guardOn h) lat ws (s.setCore s.active (s.cur.issued (y.alone h))) := by
  have hctl : (y.alone h).ctl = [] := (y.alone_ctl h).trans hy.quiet.ctl
  have hfar : (y.alone h).far = [] := (y.alone_far h).trans hy.quiet.far
  obtain ⟨r', hrun, hcycle, hkc, hfar', hin, -, hplain⟩ := CoreSt.Issues.issued_run (y.alone h) hr
  obtain ⟨hcore, hg, hshadow, hpc, hsem, hkb, htable, hhandles⟩ := State.onlyEngineBut_issued (h := h) hr y
  rw [hy.effs] at hsem hkb
  obtain ⟨hkb', hsem'⟩ := State.arriveNow_results (s := s) (r := r) (h := h) hlat
  refine ⟨⟨hcore, hg, hshadow, hpc, hsem.trans hsem', hkb.trans hkb', htable, hhandles⟩, ?_⟩
  rw [State.cur_issued]
  refine ⟨CoreSt.Issues.issued_cistern _ hr ((y.alone_cis h).trans hy.quiet.cis), hcycle, r', hrun, hkc,
    CoreSt.Issues.issued_not_ended hr hctl hrun, ?_, fun hloops => (hplain hloops hctl).1, fun g => ?_⟩
  · rw [hfar', hfar, List.append_nil]
  · rw [hin, y.alone_effs h, hy.effs, List.mem_append]
    exact or_congr_right (Ctx.mem_flights (x := s.slotCtx r h) hlat s.cur.tick.eng r.kc g)

/-- Outside of loops its clusters are what it makes of them, and flags are raised in them. -/
theorem State.clusters_issued (hloops : r.loops = []) : ∃ k : CoreSt, (∀ c, k.clusters.read c = s.acted r h put c) ∧
    (s.cur.issued (y.alone h)).clusters = (k.touched .primary (y.alone h).sansNow).clusters := by
  have hnothing : ∀ e ∈ (y.alone h).effs, e.lat = 0 → e.what = .nothing := by
    rw [y.alone_effs h, hy.effs]
    refine List.forall_mem_map.2 fun e he h0 => ?_
    obtain ⟨c, -, ⟨w, hw, rfl⟩ | ⟨n, -, rfl⟩⟩ := Ctx.mem_results.1 he
    · rw [hlat ((Ctx.results_lat _ he).symm.trans h0)] at hw
      cases hw
    · rfl
  refine ⟨{ s.cur.begun with clusters := (y.alone h).applied s.cur.clusters }, fun c => ?_, ?_⟩
  · show ((y.alone h).applied s.cur.clusters).read c = _
    rw [Issue.alone, Issue.applied_add]
    exact hy.now s.cur.clusters c
  · rw [CoreSt.Issues.issued_touched hr ((y.alone_ctl h).trans hy.quiet.ctl) hloops hnothing, CoreSt.touched_applied]
    rfl

theorem State.cluster_issued_sansCfg (hloops : r.loops = []) (c : ClusterId) :
    ((s.setCore s.active (s.cur.issued (y.alone h))).cluster c).sansCfg = (s.acted r h put c).sansCfg := by
  obtain ⟨k, hacted, hclusters⟩ := State.clusters_issued hr hlat hy hloops
  rw [State.cluster, State.cur_issued, hclusters, CoreSt.touched_sansCfg .primary rfl, hacted]

theorem State.cluster_issued (hsilent : silent) (hloops : r.loops = []) (c : ClusterId) :
    (s.setCore s.active (s.cur.issued (y.alone h))).cluster c = s.acted r h put c := by
  obtain ⟨k, hacted, hclusters⟩ := State.clusters_issued hr hlat hy hloops
  have hnoflags : (y.alone h).sansNow.NoFlags := Issue.NoFlags.alone (hy.flags hsilent) h
  rw [State.cluster, State.cur_issued, hclusters, CoreSt.touched_clusters .primary rfl hnoflags, hacted]

omit hlat in
theorem State.exec_acts (hi : slotSem i = some (h, f)) (hok : f (s.slotCtx r h) = .ok y) :
    exec i s = .next (s.setCore s.active (s.cur.issued (y.alone h))) := by
  have hctl : y.ctl = [] := hy.quiet.ctl
  have hwait : y.wait = none := hy.quiet.wait
  have hremote : y.remote = [] := hy.quiet.remote
  rw [State.exec_alone hi hr hok (fun n hn => by rw [hwait] at hn; cases hn) (fun _ _ hc => by rw [hctl] at hc; cases hc), hremote,
    State.sendRemotes_nil]
end

/-- An operation that acts has its results in flight, and outside of loops each cluster is what it makes of it, but for flags. -/
theorem State.answers_acts (hi : slotSem i = some (h, f)) (hr : s.Issues r) (hlat : lat = 0 → ws = fun _ => [])
    (hf : ∃ y, f (s.slotCtx r h) = .ok y ∧ (s.slotCtx r h).Acts silent lat ws put y) :
    Answers (exec i s) fun t => s.Results r h (s.guardOn h) lat ws t ∧
      (r.loops = [] → ∀ c, (t.cluster c).sansCfg = (s.acted r h put c).sansCfg) ∧
      (silent → r.loops = [] → ∀ c, t.cluster c = s.acted r h put c) := by
  obtain ⟨y, hok, hy⟩ := hf
  rw [State.exec_acts hr hy hi hok]
  exact answers_next ⟨State.results_issued hr hlat hy, State.cluster_issued_sansCfg hr hlat hy, State.cluster_issued hr hlat hy⟩
end
end Sys2Proof.Machine
end

section
/-! PROOF. The configuration operations, MACC, TRCLR, HBOUND, TMARK and RETAG: results one kc later (R173, R181, R182, R186 to R195). -/

namespace Sys2Proof.Machine

/-! ### Their results in the words of the spec -/

/-- The mask of CFGSET and CFGCLR: bits 20:16 and 3:0 (R187). -/
theorem cfgMask_eq (flags : BitVec 5) (low : BitVec 4) : cfgMask flags low = (0 : BitVec 43) ++ flags ++ (0 : BitVec 12) ++ low := by
  have hflags : flags.toNat <<< 16 < 2 ^ 64 := by
    rw [Nat.shiftLeft_eq]
    omega
  have hbits : ((0 : BitVec 43) ++ flags ++ (0 : BitVec 12) ++ low).toNat = flags.toNat <<< 16 ||| low.toNat := by
    rw [BitVec.toNat_append, BitVec.toNat_append, BitVec.toNat_append]
    simp [← Nat.shiftLeft_add]
  apply BitVec.eq_of_toNat_eq
  refine Eq.trans ?_ hbits.symm
  rw [cfgMask, zext, zext, BitVec.toNat_or, BitVec.toNat_shiftLeft, BitVec.toNat_setWidth_of_le (by decide),
    BitVec.toNat_setWidth_of_le (by decide), Nat.mod_eq_of_lt hflags]

theorem allRowNumbers_map {α : Type} (f : BitVec 6 → α) : allRowNumbers.map f = (List.range 64).map fun n => f (BitVec.ofNat 6 n) :=
  List.map_map ..

/-- A bound of a scale that is not a number (R193). -/
theorem boundOf_nan {st : Bank 4 Byte} {w : DWord} (h : (boundOf st w).nan = true) :
    boundOf st w = ⟨0, true, 0x7F800000, w.extractLsb' 24 6⟩ := by
  unfold boundOf at h ⊢
  extract_lets at h ⊢
  split at h
  · next hscale => rw [if_pos hscale]
  · cases h

/-- TMARK's update under a bound that is not a number leaves the row's maximum and marks (R194). -/
theorem markRow_nan {k : Cluster} (h : k.tb.nan = true) (row : AccRow) (upd : Bool) : markRow k row upd = (row.max, true) := by
  unfold markRow
  dsimp only
  rw [h]
  rfl

/-! ### What they give -/

section
variable {s : State} {i : Instr} {h : SlotHdr} {r : KernelRun} (hr : s.Issues r)
include hr

/-- MACC's policy in each of the rows that it names (R181). -/
theorem State.gives_policies {rows : Cluster → List (BitVec 6)} {pol clr : Bool} (hi : slotSem i = some (h, fun x => x.guarded 1 fun c k =>
      .ok { effs := (rows k).map fun n => { lat := 1, cluster := c, what := .policy n pol clr } })) :
    Answers (exec i s) (s.Gives r h (s.guardOn h) 1 fun c => (rows (s.cluster c)).map fun n => .policy n pol clr) := by
  refine State.gives hi hr Nat.one_ne_zero ?_
  refine Eq.trans ?_ (Ctx.guarded_results (s.slotCtx r h) 1 fun _ k => (rows k).map fun n => .policy n pol clr)
  simp only [List.map_map]
  rfl

theorem State.gives_macc {row : BitVec 6} {x pol clr : Bool} :
    Answers (exec (.macc h row x pol false clr) s) (s.Gives r h (s.guardOn h) 1 fun c => [.policy (rowIndex (s.cluster c) row x) pol clr]) ∧
    Answers (exec (.macc h row x pol true clr) s) (s.Gives r h (s.guardOn h) 1 fun _ =>
      (List.range 64).map fun n => .policy (BitVec.ofNat 6 n) pol clr) := by
  refine ⟨State.gives_policies hr (rows := fun k => [rowIndex k row x]) rfl, ?_⟩
  rw [← allRowNumbers_map fun n => RegWrite.policy n pol clr]
  exact State.gives_policies hr (rows := fun _ => allRowNumbers) rfl

/-- MANCHOR's anchor in each of the rows that it names (R182). -/
theorem State.gives_anchors {i : Instr} {rows : Cluster → List (BitVec 6)} {a : BitVec 5} (hi : slotSem i = some (h, fun x => x.config fun _ k =>
      (rows k).map fun n => .anchor n (((k.a.read a).extractLsb' 0 10).signExtend 16))) :
    Answers (exec i s) (s.Gives r h (s.guardOn h) 1 fun c =>
      (rows (s.cluster c)).map fun n => .anchor n ((((s.cluster c).a.read a).setWidth 10).signExtend 16)) := by
  simp only [BitVec.setWidth_eq_extractLsb' (v := 64) (w := 10) (by decide)]
  exact State.gives_config hr hi

theorem State.gives_manchor {row : BitVec 6} {x : Bool} {a : BitVec 5} :
    Answers (exec (.manchor h row false x a) s) (s.Gives r h (s.guardOn h) 1 fun c =>
      [.anchor (rowIndex (s.cluster c) row x) ((((s.cluster c).a.read a).setWidth 10).signExtend 16)]) ∧
    Answers (exec (.manchor h row true x a) s) (s.Gives r h (s.guardOn h) 1 fun c =>
      (List.range 64).map fun n => .anchor (BitVec.ofNat 6 n) ((((s.cluster c).a.read a).setWidth 10).signExtend 16)) := by
  refine ⟨State.gives_anchors hr (rows := fun k => [rowIndex k row x]) rfl, ?_⟩
  have hrows (v : BitVec 16) := allRowNumbers_map fun n => RegWrite.anchor n v
  simp only [← hrows]
  exact State.gives_anchors hr (rows := fun _ => allRowNumbers) rfl

theorem State.gives_hbound {a : BitVec 5} : Answers (exec (.hbound h a) s) (s.Gives r h (s.guardOn h) 1 fun c =>
    let b := boundOf (s.cluster c).st ((s.cluster c).a.read a)
    [.bound (if b.nan then ⟨(s.cluster c).tb.e, true, 0x7F800000, ((s.cluster c).a.read a).extractLsb' 24 6⟩ else b)]) := by
  have hbound (k : Cluster) (w : DWord) : (if (boundOf k.st w).nan then { boundOf k.st w with e := k.tb.e } else boundOf k.st w) =
      if (boundOf k.st w).nan then ⟨k.tb.e, true, 0x7F800000, w.extractLsb' 24 6⟩ else boundOf k.st w := by
    split
    · next hnan => rw [boundOf_nan hnan]
    · rfl
  simp only [← hbound]
  exact State.gives_config hr (ws := fun _ k =>
    [.bound (if (boundOf k.st (k.a.read a)).nan then { boundOf k.st (k.a.read a) with e := k.tb.e } else boundOf k.st (k.a.read a))]) rfl

/-- What TMARK writes of a row (R194). -/
def marksOf (k : Cluster) (n : BitVec 6) (mode : BitVec 2) (mk : BitVec 3) (z : Word × Bool) : List RegWrite :=
  (if mode.getLsbD 0 then [.rowMax n z.1] else []) ++ (if mode.getLsbD 1 && z.2 then [.tileMaskBit mk k.tb.j] else [])

theorem State.gives_tmark {row : BitVec 6} {x : Bool} {mode : BitVec 2} {mk : BitVec 3} :
    Answers (exec (.tmark h row x mode mk) s) (s.Gives r h (s.guardOn h) 1 fun c =>
      let k := s.cluster c
      marksOf k (rowIndex k row x) mode mk (markRow k (k.acc.read (rowIndex k row x)) (mode.getLsbD 0))) :=
  State.gives_config hr (ws := fun _ k =>
    marksOf k (rowIndex k row x) mode mk (markRow k (k.acc.read (rowIndex k row x)) (mode.getLsbD 0))) rfl

theorem State.gives_tmark_nan {row : BitVec 6} {x : Bool} {mode : BitVec 2} {mk : BitVec 3} (hnan : ∀ c, (s.cluster c).tb.nan = true) :
    Answers (exec (.tmark h row x mode mk) s) (s.Gives r h (s.guardOn h) 1 fun c =>
      let k := s.cluster c
      (if mode.getLsbD 0 then [.rowMax (rowIndex k row x) (k.acc.read (rowIndex k row x)).max] else []) ++
        (if mode.getLsbD 1 then [.tileMaskBit mk k.tb.j] else [])) := by
  have hmarks := State.gives_tmark hr (h := h) (row := row) (x := x) (mode := mode) (mk := mk)
  simpa only [markRow_nan (hnan _), marksOf, Bool.and_true] using hmarks

/-- RETAG of a tile (R192). -/
theorem State.gives_retag_tile {reg : BitVec 5} {tag : Tag} (hgroup : retagGroup true tag ≠ 0) (hsame : ∀ c, s.guardOn h c →
      retagGroup true ((s.cluster c).t.read (reg.extractLsb' 0 3)).tag = retagGroup true tag) :
    Answers (exec (.retag h true reg tag) s) (s.Gives r h (s.guardOn h) 1 fun c =>
      [.tileTag (reg.extractLsb' 0 3) tag ((((s.cluster c).t.read (reg.extractLsb' 0 3)).tag == 12) != (tag == 12))]) := by
  refine State.gives_of_yields rfl hr Nat.one_ne_zero (yields_guarded (x := s.slotCtx r h) fun c hc => ⟨_, ?_, Issue.gives_results _⟩)
  have hsame' : retagGroup true (((s.slotCtx r h).cluster c).t.read (reg.extractLsb' 0 3)).tag = retagGroup true tag := hsame c hc
  dsimp only
  rw [if_pos rfl, hsame', beq_false_of_ne hgroup, bne_self_eq_false]
  rfl

/-- RETAG of a single vector register (R192). -/
theorem State.gives_retag_vec {reg : BitVec 5} {tag : Tag} (hgroup : retagGroup false tag ≠ 0) (hsame : ∀ c, s.guardOn h c →
      tagNarrow ((s.cluster c).v.read (physV r.rb reg)).tag = true ∧
        retagGroup false ((s.cluster c).v.read (physV r.rb reg)).tag = retagGroup false tag) :
    Answers (exec (.retag h false reg tag) s) (s.Gives r h (s.guardOn h) 1 fun _ => [.vecTag (physV r.rb reg) tag]) := by
  refine State.gives_of_yields rfl hr Nat.one_ne_zero (yields_guarded (x := s.slotCtx r h) fun c hc => ⟨_, ?_, Issue.gives_results _⟩)
  obtain ⟨hnarrow, hreg⟩ := hsame c hc
  have hnarrow' : tagNarrow ((s.slotCtx r h).reg c reg).tag = true := hnarrow
  have hreg' : retagGroup false ((s.slotCtx r h).reg c reg).tag = retagGroup false tag := hreg
  have hread := readVec_narrow (accept := fun t => retagGroup false tag != 0 && retagGroup false t == retagGroup false tag) hnarrow'
    (by rw [hreg', bne_iff_ne.2 hgroup, beq_self_eq_true]; rfl)
  dsimp only
  rw [if_neg Bool.false_ne_true, hread, ok_bind]
  dsimp only
  rw [tagPair_of_narrow hnarrow']
  rfl
end
end Sys2Proof.Machine
end

section
/-! PROOF. MLOADB and the pushes from a tile register (R172, R175, R178 to R180, R439). -/

namespace Sys2Proof.Machine

/-! ### The operand of a tile register -/

/-- The tile register that a source names. -/
def Cluster.tile (k : Cluster) (src : MatSrc) : TReg := k.t.read (src.low.extractLsb' 4 3)

/-- Row `n` of it. -/
def Cluster.tileRow (k : Cluster) (src : MatSrc) (n : BitVec 6) : MatRow := ⟨(k.tile src).rows.read n, (k.tile src).scales.read n⟩

/-- The tiles that a source names carry a tag in every cluster whose guard is true. -/
def Ctx.Tiles (x : Ctx) (src : MatSrc) (t : Tag) : Prop := src.kind = 0 ∧ ∀ c, x.on c = true → ((x.cluster c).tile src).tag = t

section
variable {x : Ctx} {c : ClusterId} {src : MatSrc} {t check : Tag} {conv : MatRow → MatRow} {row : BitVec 6}

theorem matOperand_tile {n : BitVec 6} (hsrc : x.Tiles src check) (hc : x.on c = true) :
    matOperand x c (x.cluster c) src t check n = .ok (some ((x.cluster c).tileRow src n, [])) := by
  obtain ⟨hkind, htag⟩ := hsrc
  have htag' : ((x.cluster c).t.read (src.low.extractLsb' 4 3)).tag = check := htag c hc
  unfold matOperand
  rw [hkind]
  dsimp only
  rw [htag', beq_self_eq_true, if_pos rfl]
  rfl

/-! ### Columns of the shadow tile (R178) -/

theorem loadColumn_last (k : Cluster) (v : MatRow) (t : Tag) : loadColumn 63 v t k =
    { k with resident := k.shadow.write 63 ⟨v.codes, v.scales, t⟩, shadow := k.resident } := rfl

theorem loadColumn_before {col : BitVec 6} (h : col ≠ 63) (k : Cluster) (v : MatRow) (t : Tag) : loadColumn col v t k =
    { k with shadow := k.shadow.write col ⟨v.codes, v.scales, t⟩ } := by
  unfold loadColumn
  rw [beq_false_of_ne h]
  rfl

/-- The column that each cluster loads. -/
def Ctx.loaded (x : Ctx) (t : Tag) (conv : MatRow → MatRow) (row : BitVec 6) (src : MatSrc) (c : ClusterId) : Cluster → Cluster :=
  loadColumn (rowIndex (x.cluster c) row src.x) (conv ((x.cluster c).tileRow src (rowIndex (x.cluster c) row src.x))) t

theorem loadB_acts (hsrc : x.Tiles src check) : ∃ y : Issue, loadB t check conv row src x = .ok y ∧
    x.Acts True 0 (fun _ => []) (x.loaded t conv row src) y := by
  refine acts_guarded fun c hc => ?_
  dsimp only
  rw [matOperand_tile hsrc hc, ok_bind]
  exact ⟨_, rfl, Issue.quiet_of_effs [], rfl, fun b => rfl, fun _ => Issue.noFlags_of_effs []⟩

/-- SUBST is no change of a cluster (R439). -/
theorem Ctx.Acts.subst {silent : Prop} {lat : Nat} {ws : ClusterId → List RegWrite} {put : ClusterId → Cluster → Cluster} {y : Issue}
    (h : x.Acts silent lat ws put y) (b : Bool) : x.Acts silent lat ws put { y with subst := b } := by
  obtain ⟨⟨⟨hnow, hctl, hwait⟩, hcis, hfar, hremote⟩, heffs, hput, hflags⟩ := h
  exact ⟨⟨⟨hnow, hctl, hwait⟩, hcis, hfar, hremote⟩, heffs, hput, hflags⟩

theorem slotMloadbWide_acts {g : BitVec 2} (hsrc : x.Tiles src 2) : ∃ y : Issue, slotMloadbWide g row src x = .ok y ∧
    x.Acts True 0 (fun _ => []) (x.loaded (wideTag g) (widenRow g) row src) y := by
  obtain ⟨y, hok, hy⟩ := loadB_acts (t := wideTag g) (conv := widenRow g) (row := row) hsrc
  refine ⟨_, ?_, hy.subst x.anyOn⟩
  rw [slotMloadbWide, hok]
  rfl

/-! ### Contributions (R179, R180) -/

theorem Bank.list_any_eq_false {w : Nat} {α : Type} {b : Bank w α} {p : α → Bool} (h : ∀ n, p (b.read n) = false) : b.list.any p = false := by
  refine List.any_eq_false.2 fun y hy => ?_
  obtain ⟨n, hn, rfl⟩ := List.getElem_of_mem hy
  have hread := h (BitVec.ofFin ⟨n, by simpa [Bank.list] using hn⟩)
  simpa [Bank.list, Bank.read] using hread

/-- What a push that gives the columns `cols` brings to each cluster's row. -/
def Ctx.pushed (x : Ctx) (row : BitVec 6) (src : MatSrc) (cols : Cluster → Bank 6 (List Product)) (c : ClusterId) : RegWrite :=
  let k := x.cluster c
  .contribution (rowIndex k row src.x) (k.acc.read (rowIndex k row src.x)).overwrite (cols k) false

/-- The columns of a push of format `t`, its tile read through `conv`. -/
def pushCols (t : Tag) (conv : MatRow → MatRow) (row : BitVec 6) (src : MatSrc) (k : Cluster) : Bank 6 (List Product) :=
  products k t (conv (k.tileRow src (rowIndex k row src.x))) (k.acc.read (rowIndex k row src.x)).anchor.toInt

theorem push_yields (hsrc : x.Tiles src check) (hclass : ∀ c, x.on c = true → ∀ j, matClass ((x.cluster c).resident.read j).tag = matClass t) :
    Yields True x.h (fun c => x.on c = true) 68 (fun c => [x.pushed row src (pushCols t conv row src) c]) (push t check conv row src x) := by
  refine yields_guarded fun c hc => ?_
  have hresident : ((x.cluster c).resident.list.any fun b => matClass b.tag != matClass t) = false :=
    Bank.list_any_eq_false fun n => by rw [hclass c hc, bne_self_eq_false]
  dsimp only
  rw [matOperand_tile hsrc hc, ok_bind]
  dsimp only
  rw [hresident]
  exact ⟨_, rfl, ⟨⟨rfl, rfl, rfl⟩, rfl, rfl, rfl⟩, rfl, fun _ _ hf => nomatch hf⟩

theorem slotMpushWide_yields {g : BitVec 2} (hsrc : x.Tiles src 2)
    (hclass : ∀ c, x.on c = true → ∀ j, matClass ((x.cluster c).resident.read j).tag = matClass (wideTag g)) :
    Yields True x.h (fun c => x.on c = true) 68 (fun c => [x.pushed row src (pushCols (wideTag g) (widenRow g) row src) c])
      (slotMpushWide g row src x) := by
  obtain ⟨y, hok, ⟨⟨hnow, hctl, hwait⟩, hcis, hfar, hremote⟩, hflags, heffs⟩ :=
    push_yields (conv := widenRow g) (row := row) hsrc hclass
  refine ⟨{ y with subst := x.anyOn }, ?_, ⟨⟨hnow, hctl, hwait⟩, hcis, hfar, hremote⟩, hflags, heffs⟩
  rw [slotMpushWide, hok]
  rfl

/-- The columns of MPUSH.SC: the sums of the products of codes. -/
def codeCols (row : BitVec 6) (src : MatSrc) (k : Cluster) : Bank 6 (List Product) :=
  Bank.ofFn fun col => [.fin ((List.range 128).map fun j =>
    ((k.tileRow src (rowIndex k row src.x)).codes.extractLsb' (4 * j) 4).toInt *
      ((k.resident.read col).codes.extractLsb' (4 * j) 4).toInt).sum true]

theorem slotMpushSc_yields (hsrc : x.Tiles src 12)
    (hint : ∀ c, x.on c = true → allInt ((x.cluster c).tileRow src (rowIndex (x.cluster c) row src.x)).scales = true ∧
      ∀ j, ((x.cluster c).resident.read j).tag = 12 ∧ allInt ((x.cluster c).resident.read j).scales = true) :
    Yields True x.h (fun c => x.on c = true) 68 (fun c => [x.pushed row src (codeCols row src) c]) (slotMpushSc row src x) := by
  refine yields_guarded fun c hc => ?_
  obtain ⟨hrow, hcols⟩ := hint c hc
  have hresident : ((x.cluster c).resident.list.any fun b => b.tag != 12 || !allInt b.scales) = false :=
    Bank.list_any_eq_false fun n => by
      obtain ⟨htag, hscales⟩ := hcols n
      rw [htag, hscales, bne_self_eq_false]
      rfl
  dsimp only
  rw [matOperand_tile hsrc hc, ok_bind]
  dsimp only
  rw [hrow, hresident]
  simp only [toSigned_toNat]
  exact ⟨_, rfl, ⟨⟨rfl, rfl, rfl⟩, rfl, rfl, rfl⟩, rfl, fun _ _ hf => nomatch hf⟩
end

/-! ### What they answer -/

section
variable {s : State} {i : Instr} {h : SlotHdr} {f : Ctx → SlotResult} {r : KernelRun} {t : Tag} {conv : MatRow → MatRow} {row : BitVec 6}
  {src : MatSrc}

/-- An operation that loads a column of each cluster's shadow tile. -/
theorem State.answers_loads (hi : slotSem i = some (h, f)) (hr : s.Issues r) (hf : ∃ y, f (s.slotCtx r h) = .ok y ∧
      (s.slotCtx r h).Acts True 0 (fun _ => []) ((s.slotCtx r h).loaded t conv row src) y) :
    Answers (exec i s) fun u => s.Results r h (s.guardOn h) 0 (fun _ => []) u ∧ (r.loops = [] → ∀ c,
      let k := s.cluster c
      let col := rowIndex k row src.x
      let new := k.shadow.write col ⟨(conv (k.tileRow src col)).codes, (conv (k.tileRow src col)).scales, t⟩
      (¬s.guardOn h c → u.cluster c = k) ∧ (s.guardOn h c → col ≠ 63 → u.cluster c = { k with shadow := new }) ∧
      (s.guardOn h c → col = 63 → u.cluster c = { k with resident := new, shadow := k.resident })) := by
  refine (State.answers_acts hi hr (fun _ => rfl) hf).imp fun u ⟨hresults, _, hclusters⟩ => ⟨hresults, fun hloops c => ?_⟩
  have hcluster := hclusters trivial hloops c
  refine ⟨fun hoff => ?_, fun hon hcol => ?_, fun hon hcol => ?_⟩
  · rw [hcluster, State.acted_off hoff]
  · rw [hcluster, State.acted_on hon]
    exact loadColumn_before hcol ..
  · rw [hcluster, State.acted_on hon]
    have hcol' : rowIndex ((s.slotCtx r h).cluster c) row src.x = 63 := hcol
    rw [hcol, Ctx.loaded, hcol']
    exact loadColumn_last ..
end
end Sys2Proof.Machine
end

section
/-! PROOF. Drains and the transposer (R72, R73, R183 to R185; logs 7, 35, 83 and 84). -/

namespace Sys2Proof.Machine

/-! ### Drains -/

/-- What each element of a row drains to, with its flags. -/
def Cluster.drained (k : Cluster) (t : Tag) (n : BitVec 6) : List (Nat × FpFlags) :=
  (k.acc.read n).elems.list.map fun e => e.drain (k.acc.read n).anchor.toInt t k.rm k.ftz k.satBit

/-- The flags of a list of results together. -/
def flagsOf (es : List (Nat × FpFlags)) : FpFlags := es.foldl (fun g e => g.or e.2) {}

theorem flagsOf_sat (es : List (Nat × FpFlags)) : (flagsOf es).sat = es.any fun e => e.2.sat := by
  have hfold (g : FpFlags) : (es.foldl (fun g e => g.or e.2) g).sat = (g.sat || es.any fun e => e.2.sat) := by
    induction es generalizing g with
    | nil => exact (Bool.or_false _).symm
    | cons e es ih =>
      rw [List.foldl_cons, ih, List.any_cons, ← Bool.or_assoc]
      rfl
  exact hfold {}

/-- What a drain marks at its issue (log 7): every element counts, also in a 16-bit drain to a tile (log 84). -/
def Ctx.marked (x : Ctx) (t : Tag) (row : BitVec 6) (lc : Bool) (c : ClusterId) : Cluster → Cluster :=
  if (flagsOf ((x.cluster c).drained t (rowIndex (x.cluster c) row lc))).sat then setRowSat (rowIndex (x.cluster c) row lc) else id

/-- A drain's results: codes of a tile's row, its scale plane zero (log 35), or a part of a vector register. -/
def Ctx.drains (x : Ctx) (t : Tag) (dest : BitVec 5) (row : BitVec 6) (lc : Bool) (p : BitVec 2) (toTile : Bool) (c : ClusterId) : RegWrite :=
  let vals := ((x.cluster c).drained t (rowIndex (x.cluster c) row lc)).map (·.1)
  if toTile then .tileRow (dest.extractLsb' 0 3) (rowIndex (x.cluster c) row lc)
    (BitVec.ofNat 512 (packNat (tagWidth t) ((vals.drop (512 / tagWidth t * p.toNat)).take (512 / tagWidth t)))) 0 t
  else .vec (physV x.run.rb dest) (laneMask (partLanes t p.toNat vals).1) (partLanes t p.toNat vals).2.1 t

theorem writeVec_single {rb : BitVec 4} {lat : Nat} {c : ClusterId} {d : BitVec 5} {t : Tag} {mask lo hi : Bank 6 Word}
    (ht : tagPair t = false) : writeVec rb lat c d t mask lo hi = [{ lat := lat, cluster := c, what := .vec (physV rb d) mask lo t }] := by
  unfold writeVec
  rw [ht]
  rfl

section
variable {x : Ctx} {f : BitVec 4} {dest v : BitVec 5} {row : BitVec 6} {lc toTile : Bool} {p : BitVec 2}

/-- A change of one cluster, where there is one. -/
theorem Issue.applied_ite (b : Bank 4 Cluster) (c : ClusterId) (q : Bool) (put : Cluster → Cluster) {y : Issue}
    (hy : y.now = if q then [(c, put)] else []) : y.applied b = b.modify c (if q then put else id) := by
  unfold Issue.applied
  rw [hy]
  cases q
  · exact (Bank.write_read b c).symm
  · rfl

theorem slotMdrain_acts (ht : tagPair (tagOf f) = false) : ∃ y : Issue, slotMdrain f dest row lc p toTile x = .ok y ∧
    x.Acts False 4 (fun c => [x.drains (tagOf f) dest row lc p toTile c]) (x.marked (tagOf f) row lc) y := by
  unfold slotMdrain
  refine acts_guarded fun c _ => ?_
  refine ⟨_, rfl, ⟨⟨rfl, rfl, rfl⟩, rfl, rfl, rfl⟩, ?_, fun b => ?_, False.elim⟩
  · cases toTile with
    | false => exact writeVec_single ht
    | true => rfl
  · exact Issue.applied_ite b c (flagsOf ((x.cluster c).drained (tagOf f) (rowIndex (x.cluster c) row lc))).sat
      (setRowSat (rowIndex (x.cluster c) row lc)) rfl

/-! ### The transposer -/

/-- The elements of a part of a vector register, as a row of the transposer. -/
def Ctx.trRow (x : Ctx) (t : Tag) (v : BitVec 5) (p : BitVec 2) (c : ClusterId) : Bank 6 Word :=
  Bank.ofFn fun j => BitVec.ofNat 32 (((((VOp.mk (x.reg c v).lanes (x.reg c v).lanes t).elems.drop (64 * p.toNat)).take 64)[j.toNat]?).getD 0)

/-- A row written into the transposer (R184). -/
def Cluster.trIn (t : Tag) (es : Bank 6 Word) (k : Cluster) : Cluster :=
  { k with tr := { k.tr with
      rows := k.tr.rows.write k.tr.wp es
      tag := if k.tr.wp == 0 then t else k.tr.tag
      wp := k.tr.wp + 1 } }

/-- A transposer that is empty, or holds elements of the format, takes the row under its tag. -/
theorem Cluster.trIn_tag {t : Tag} {k : Cluster} (h : k.tr.wp = 0 ∨ k.tr.tag = t) (es : Bank 6 Word) : k.trIn t es =
    { k with tr := { k.tr with rows := k.tr.rows.write k.tr.wp es, tag := t, wp := k.tr.wp + 1 } } := by
  have htag : (if k.tr.wp == 0 then t else k.tr.tag) = t := by
    rcases h with h | h <;> simp [h]
  rw [trIn, htag]

theorem slotTrin_acts (hn : tagNarrow (tagOf f) = true) (hv : ∀ c, x.on c = true → (x.reg c v).tag = tagOf f)
    (hfits : ∀ c, x.on c = true → (x.cluster c).tr.wp = 0 ∨ (x.cluster c).tr.tag = tagOf f) : ∃ y : Issue, slotTrin f v p x = .ok y ∧
    x.Acts True 0 (fun _ => []) (fun c => Cluster.trIn (tagOf f) (x.trRow (tagOf f) v p c)) y := by
  unfold slotTrin
  refine acts_guarded fun c hc => ?_
  have hfit : ((x.cluster c).tr.wp != 0 && (x.cluster c).tr.tag != tagOf f) = false := by
    rcases hfits c hc with h | h <;> simp [h]
  rw [readVec_tag (hv c hc) hn, ok_bind, hfit]
  exact ⟨_, rfl, Issue.quiet_of_effs [], rfl, fun b => rfl, fun _ => Issue.noFlags_of_effs []⟩

/-- The elements of the transposer's column (R185). -/
def Cluster.trColumn (k : Cluster) : List Nat := (List.range 64).map fun j => ((k.tr.rows.read (BitVec.ofNat 6 j)).read k.tr.cp).toNat

/-- The next column. -/
def Cluster.trNext (k : Cluster) : Cluster := { k with tr := { k.tr with cp := k.tr.cp + 1 } }

/-- TROUT's result: a row of a tile, its scale plane zero (log 35) and whole for every part (log 83), or a part of a vector register. -/
def Ctx.trOut (x : Ctx) (dest : BitVec 5) (p : BitVec 2) (toTile : Bool) (c : ClusterId) : RegWrite :=
  let k := x.cluster c
  if toTile then .tileRow (dest.extractLsb' 0 3) k.tr.cp (BitVec.ofNat 512 (packNat 8 k.trColumn)) 0 k.tr.tag
  else .vec (physV x.run.rb dest) (laneMask (partLanes k.tr.tag p.toNat k.trColumn).1) (partLanes k.tr.tag p.toNat k.trColumn).2.1 k.tr.tag

/-- A transposer whose elements can go where TROUT sends them. -/
structure Ctx.TrFits (x : Ctx) (p : BitVec 2) (toTile : Bool) (c : ClusterId) : Prop where
  valid : tagValid (x.cluster c).tr.tag = true
  part : p.toNat < 32 / tagWidth (x.cluster c).tr.tag
  single : toTile = false → tagPair (x.cluster c).tr.tag = false
  bytes : toTile = true → tagWidth (x.cluster c).tr.tag = 8

theorem slotTrout_acts (hfits : ∀ c, x.on c = true → x.TrFits p toTile c) : ∃ y : Issue, slotTrout dest p toTile x = .ok y ∧
    x.Acts True 2 (fun c => [x.trOut dest p toTile c]) (fun _ => Cluster.trNext) y := by
  refine acts_guarded fun c hc => ?_
  obtain ⟨hvalid, hpart, hsingle, hbytes⟩ := hfits c hc
  have hcheck : (!tagValid (x.cluster c).tr.tag || decide (32 / tagWidth (x.cluster c).tr.tag ≤ p.toNat) ||
      (toTile && tagWidth (x.cluster c).tr.tag != 8)) = false := by
    rw [hvalid, decide_eq_false (Nat.not_le.2 hpart)]
    cases toTile with
    | false => rfl
    | true => rw [hbytes rfl]; rfl
  dsimp only
  rw [hcheck, if_neg Bool.false_ne_true]
  refine ⟨_, rfl, ⟨⟨rfl, rfl, rfl⟩, rfl, rfl, rfl⟩, ?_, fun b => rfl, fun _ _ hf => nomatch hf⟩
  cases toTile with
  | false => exact writeVec_single (hsingle rfl)
  | true => rfl
end

/-! ### What they answer -/

section
variable {s : State} {h : SlotHdr} {r : KernelRun} (hr : s.Issues r)
include hr

/-- MDRAIN's results, and the rows that it marks. -/
theorem State.answers_mdrain {f : BitVec 4} {dest : BitVec 5} {row : BitVec 6} {lc : Bool} {p : BitVec 2} (toTile : Bool)
    (ht : tagPair (tagOf f) = false) : Answers (exec (.mdrain h f dest row lc p toTile) s) fun t =>
      (∀ c, s.guardOn h c → (∃ e ∈ (s.cluster c).drained (tagOf f) (rowIndex (s.cluster c) row lc), e.2.sat = true) → r.loops = [] →
        ((t.cluster c).acc.read (rowIndex (s.cluster c) row lc)).sat = true) ∧
      s.Results r h (s.guardOn h) 4 (fun c => [(s.slotCtx r h).drains (tagOf f) dest row lc p toTile c]) t := by
  refine (State.answers_acts (lat := 4) rfl hr (fun h0 => nomatch h0) (slotMdrain_acts (x := s.slotCtx r h) ht)).imp
    fun t ⟨hresults, hclusters, _⟩ => ⟨fun c hc hsat hloops => ?_, hresults⟩
  have hsat' : (flagsOf (((s.slotCtx r h).cluster c).drained (tagOf f) (rowIndex ((s.slotCtx r h).cluster c) row lc))).sat = true := by
    rw [flagsOf_sat, List.any_eq_true]
    exact hsat
  have hacc : (t.cluster c).acc = (setRowSat (rowIndex (s.cluster c) row lc) (s.cluster c)).acc := by
    have hcluster := congrArg Cluster.acc (hclusters hloops c)
    rw [State.acted_on hc, Ctx.marked, if_pos hsat'] at hcluster
    exact hcluster
  rw [hacc, setRowSat, Bank.read_modify, if_pos rfl]

/-- TROUT's result, and the transposer at its next column. -/
theorem State.answers_trout {dest : BitVec 5} {p : BitVec 2} (toTile : Bool) (hfits : ∀ c, s.guardOn h c → (s.slotCtx r h).TrFits p toTile c) :
    Answers (exec (.trout h dest p toTile) s) fun t =>
      (r.loops = [] → ∀ c, s.guardOn h c → t.cluster c = (s.cluster c).trNext) ∧
      s.Results r h (s.guardOn h) 2 (fun c => [(s.slotCtx r h).trOut dest p toTile c]) t := by
  refine (State.answers_acts (lat := 2) rfl hr (fun h0 => nomatch h0) (slotTrout_acts (x := s.slotCtx r h) hfits)).imp
    fun t ⟨hresults, _, hclusters⟩ => ⟨fun hloops c hc => ?_, hresults⟩
  rw [hclusters trivial hloops c, State.acted_on hc]

/-- TRIN's row, and nothing to come. -/
theorem State.answers_trin {f : BitVec 4} {v : BitVec 5} {p : BitVec 2} (hn : tagNarrow (tagOf f) = true)
    (hv : ∀ c, s.guardOn h c → ((s.slotCtx r h).reg c v).tag = tagOf f)
    (hfits : ∀ c, s.guardOn h c → (s.cluster c).tr.wp = 0 ∨ (s.cluster c).tr.tag = tagOf f) :
    Answers (exec (.trin h f v p) s) fun t => s.Results r h (s.guardOn h) 0 (fun _ => []) t ∧ (r.loops = [] → ∀ c,
      (¬s.guardOn h c → t.cluster c = s.cluster c) ∧
      (s.guardOn h c → t.cluster c = { s.cluster c with tr := { (s.cluster c).tr with
        rows := (s.cluster c).tr.rows.write (s.cluster c).tr.wp ((s.slotCtx r h).trRow (tagOf f) v p c)
        tag := tagOf f
        wp := (s.cluster c).tr.wp + 1 } })) := by
  refine (State.answers_acts rfl hr (fun _ => rfl) (slotTrin_acts (x := s.slotCtx r h) hn hv hfits)).imp
    fun t ⟨hresults, _, hclusters⟩ => ⟨hresults, fun hloops c => ⟨fun hoff => ?_, fun hon => ?_⟩⟩
  · rw [hclusters trivial hloops c, State.acted_off hoff]
  · rw [hclusters trivial hloops c, State.acted_on hon, Cluster.trIn_tag (hfits c hon)]
end
end Sys2Proof.Machine
end

section
open Sys2Proof Sys2Proof.Machine

/-- Settles O48: an operation whose results come later `Gives` them; one that writes its cluster at its issue leaves each cluster as
`answers_acts` says. That MDRAIN marks a row for any of its 64 elements is log 84, that TROUT to a tile writes its column for every part that
the width allows is log 83. -/
theorem Sys2Proof.configSlotResults : Obligations.ConfigSlotResults := by
  intro s r h a i e half x pol clr flags low md ma mb row hr gives bits
  have hbits : bits = cfgMask flags low := (cfgMask_eq flags low).symm
  have config (j : Instr) {ws : Cluster → List RegWrite} (hj : slotSem j = some (h, fun x => x.config fun _ k => ws k)) : gives j ws :=
    State.gives_config hr hj
  obtain ⟨hanchor, hanchors⟩ := State.gives_manchor (s := s) (h := h) hr (row := row) (x := x) (a := a)
  obtain ⟨hpolicy, hpolicies⟩ := State.gives_macc (s := s) (h := h) hr (row := row) (x := x) (pol := pol) (clr := clr)
  have htrclr := State.gives (i := .trclr h) (f := slotTrclr) rfl hr Nat.one_ne_zero
    (Ctx.guarded_results (s.slotCtx r h) 1 fun _ _ => [.clearTransposer])
  rw [hbits]
  refine ⟨config (.stld h i e) rfl, config (.stlda h a half) rfl, config (.cfgset h flags low) rfl, config (.cfgclr h flags low) rfl,
    config (.margin h a) rfl, config (.mset h md a) rfl, config (.mand h md ma mb) rfl, config (.mor h md ma mb) rfl,
    config (.mnot h md ma) rfl, config (.tclr h) rfl, htrclr, hanchor, hanchors, hpolicy, hpolicies, State.gives_hbound hr,
    fun mode => ⟨State.gives_tmark hr, State.gives_tmark_nan hr⟩,
    fun reg tag => ⟨fun hsame hgroup => State.gives_retag_tile hr hgroup hsame, fun hsame hgroup => State.gives_retag_vec hr hgroup hsame⟩,
    ?_, ?_, ?_, ?_⟩
  · intro f src hkind tile index bytes late loads against
    refine ⟨fun htag => ?_, fun g htag => ?_, fun hint => ?_⟩
    · have hsrc : (s.slotCtx r h).Tiles src (tagOf f) := ⟨hkind, htag⟩
      exact ⟨State.answers_loads rfl hr (loadB_acts hsrc), fun hclass =>
        State.gives_of_yields rfl hr (by decide) (push_yields (conv := id) (row := row) hsrc hclass)⟩
    · have hsrc : (s.slotCtx r h).Tiles src 2 := ⟨hkind, htag⟩
      exact ⟨State.answers_loads rfl hr (slotMloadbWide_acts hsrc), fun hclass =>
        State.gives_of_yields rfl hr (by decide) (slotMpushWide_yields (row := row) hsrc hclass)⟩
    · have hsrc : (s.slotCtx r h).Tiles src 12 := ⟨hkind, fun c hc => (hint c hc).1⟩
      exact State.gives_of_yields rfl hr (by decide) (slotMpushSc_yields (row := row) hsrc fun c hc => (hint c hc).2)
  · intro f dest p ht w drained marks
    exact ⟨State.answers_mdrain hr true ht, State.answers_mdrain hr false ht⟩
  · intro f v p hn hin
    exact State.answers_trin hr hn (fun c hc => (hin c hc).1) fun c hc => (hin c hc).2
  · intro dest p column stepped
    refine ⟨fun hfits => State.answers_trout hr false fun c hc => ?_, fun hfits => State.answers_trout hr true fun c hc => ?_⟩
    · obtain ⟨hnarrow, hpart⟩ := hfits c hc
      rw [tagNarrow, Bool.and_eq_true, Bool.not_eq_true'] at hnarrow
      exact ⟨hnarrow.1, hpart, fun _ => hnarrow.2, (nomatch ·)⟩
    · obtain ⟨hvalid, hwidth⟩ := hfits c hc
      refine ⟨hvalid, ?_, (nomatch ·), fun _ => hwidth⟩
      show p.toNat < 32 / tagWidth (s.cluster c).tr.tag
      rw [hwidth]
      exact p.isLt
end

section
/-! PROOF. VIEW and VIEW.DROP (R213, R216, R382; logs 41 and 65). -/

namespace Sys2Proof.Machine

section
variable {s : State} {op : BitVec 3} {d a b : BitVec 5} {p : PartId} {r : Addr}

theorem State.Written.setViewEntry {t : State} {i : Nat} {v : ViewEntry} (h : s.Written t) : s.Written (t.setViewEntry p r i v) := h.writeIn

theorem State.Written.linkViews {t : State} (h : s.Written t) : s.Written (t.linkViews p r) := h.setRecWord.setRecWord

theorem State.Written.unlinkViews {t : State} (h : s.Written t) : s.Written (t.unlinkViews p r) := h.setRecWord.ite h

/-- An instruction that reads its task's area takes POISON where the area holds poison. -/
theorem State.trapped_areaFault (h : s.CanTrap) :
    s.Trapped cPoison s.cur.pc (BitVec.ofNat 64 (s.frame p r + 256)) (s.areaFault p r) := s.trapped_faultNow _ _ h

theorem State.trapped_taskFault {i : Instr} (h : s.CanTrap) : s.Trapped cTask s.cur.pc (wordOf i) (s.taskFault i) :=
  s.trapped_faultNow _ _ h

/-! ### The cases of VIEW -/

section
variable (hself : s.self = some (p, r))
include hself

theorem execView_poisoned (hbad : s.areaBad p r = true) : execView op d a b s = .next (s.areaFault p r) := by
  rw [execView, hself]
  simp only [hbad, if_true]

theorem execView_full (hbad : s.areaBad p r = false) (hfull : ∀ i, i < 7 → (s.viewEntry p r i).valid = true) :
    execView op d a b s = .next (s.taskFault (.view op d a b)) := by
  have hnone : ((List.range 7).find? fun i => !(s.viewEntry p r i).valid) = none :=
    List.find?_eq_none.2 fun i hi => by simp [hfull i (List.mem_range.1 hi)]
  rw [execView, hself]
  simp only [hbad, hnone, Bool.false_eq_true, if_false]

variable {i : Nat} (hbad : s.areaBad p r = false) (hfree : ((List.range 7).find? fun i => !(s.viewEntry p r i).valid) = some i)
include hbad hfree

theorem execView_refused (h : s.areaWord p r 1 ≠ 0 ∨ viewOk s.cur r op (s.g a) (s.g b) = false) :
    execView op d a b s = .next (s.taskFault (.view op d a b)) := by
  have hrefused : (s.areaWord p r 1 != 0 || !viewOk s.cur r op (s.g a) (s.g b)) = true := by
    rw [Bool.or_eq_true, bne_iff_ne, Bool.not_eq_true']
    exact h
  rw [execView, hself]
  simp only [hbad, hfree, hrefused, Bool.false_eq_true, if_false, if_true]

theorem execView_enters (hchildren : s.areaWord p r 1 = 0) (hok : viewOk s.cur r op (s.g a) (s.g b) = true) :
    execView op d a b s = .next (((s.setViewEntry p r i ⟨s.g a, s.g b, s.g a, 0xFFFFFF10 ||| op.setWidth 64⟩).linkViews p r).result d
      (BitVec.ofNat 64 i)) := by
  rw [execView, hself]
  simp only [hbad, hfree, hchildren, hok, bne_self_eq_false, Bool.not_true, Bool.or_false, Bool.false_eq_true, if_false]
  rfl

end

/-! ### The cases of VIEW.DROP -/

section
variable (hself : s.self = some (p, r))
include hself

theorem execViewDrop_poisoned (hbad : s.areaBad p r = true) : execViewDrop d a b s = .next (s.areaFault p r) := by
  rw [execViewDrop, hself]
  simp only [hbad, if_true]

variable (hbad : s.areaBad p r = false)
include hbad

theorem execViewDrop_refused (h : 7 ≤ (s.g a).toNat ∨ (s.viewEntry p r (s.g a).toNat).valid = false ∨ s.areaWord p r 1 ≠ 0) :
    execViewDrop d a b s = .next (s.taskFault (.viewDrop d a b)) := by
  rw [execViewDrop, hself]
  simp only [hbad, Bool.false_eq_true, if_false]
  by_cases hi : 7 ≤ (s.g a).toNat
  · rw [if_pos hi]
  · have hrefused : (!(s.viewEntry p r (s.g a).toNat).valid || s.areaWord p r 1 != 0) = true := by
      rw [Bool.or_eq_true, bne_iff_ne, Bool.not_eq_true']
      exact h.resolve_left hi
    rw [if_neg hi, if_pos hrefused]

theorem execViewDrop_frees (hi : (s.g a).toNat < 7) (hvalid : (s.viewEntry p r (s.g a).toNat).valid = true)
    (hchildren : s.areaWord p r 1 = 0) :
    execViewDrop d a b s = .next (((s.setViewEntry p r (s.g a).toNat { s.viewEntry p r (s.g a).toNat with
      ctl := putBit (s.viewEntry p r (s.g a).toNat).ctl 4 false }).unlinkViews p r).result d (s.g a)) := by
  rw [execViewDrop, hself]
  simp only [hbad, not_le.2 hi, hvalid, hchildren, bne_self_eq_false, Bool.not_true, Bool.or_false, Bool.false_eq_true, if_false,
    BitVec.ofNat_toNat, BitVec.setWidth_eq]

end
end
end Sys2Proof.Machine
end

section
open Sys2Proof Sys2Proof.Machine

/-- Settles O34: each case is a trap, or writes of the device itself with a result after them. -/
theorem Sys2Proof.viewResults : Obligations.ViewResults := by
  intro s op d a b p r hself
  have hview : exec (.view op d a b) s = execView op d a b s := rfl
  have hdrop : exec (.viewDrop d a b) s = execViewDrop d a b s := rfl
  rw [hview, hdrop]
  refine ⟨fun hbad htrap => ?_, fun hbad => ⟨fun i hfree => ⟨fun hchildren hok => ?_, fun hrefused htrap => ?_⟩, fun hfull htrap => ?_,
    fun hi hvalid hchildren => ?_, fun hrefused htrap => ?_⟩⟩
  · rw [execView_poisoned hself hbad, execViewDrop_poisoned hself hbad]
    exact ⟨answers_next (State.trapped_areaFault htrap), answers_next (State.trapped_areaFault htrap)⟩
  · rw [execView_enters hself hbad hfree hchildren hok]
    exact answers_next ⟨(State.Written.refl s).setViewEntry.linkViews.gave d _, rfl⟩
  · rw [execView_refused hself hbad hfree hrefused]
    exact answers_next (State.trapped_taskFault htrap)
  · rw [execView_full hself hbad hfull]
    exact answers_next (State.trapped_taskFault htrap)
  · rw [execViewDrop_frees hself hbad hi hvalid hchildren]
    exact answers_next ⟨(State.Written.refl s).setViewEntry.unlinkViews.gave d _, rfl⟩
  · rw [execViewDrop_refused hself hbad hrefused]
    exact answers_next (State.trapped_taskFault htrap)

end

section
/-! PROOF. SPAWN (R217, R382; logs 41 and 65). -/

namespace Sys2Proof.Machine

/-! ### The child's block -/

theorem length_childRecord (w0 w1 pc : DWord) (block parent left : Addr) (depth : Byte) (views bound : Bool) (c : CoreId) :
    (childRecord w0 w1 pc block parent left depth views bound c).length = 64 := by
  simp only [childRecord, List.length_append, length_bytesLE]

/-- 32 registers, an empty task area and 7 view entries. -/
theorem length_childFrame (k : CoreSt) (d : BitVec 5) (es : List (Nat × ViewEntry)) : (childFrame k d es).length = 512 := by
  unfold childFrame
  extract_lets regs entry
  have hregs : regs.length = 256 := by simp [regs, List.length_flatMap]
  have hentry (i : Nat) : (entry i).length = 32 := by
    unfold entry
    split
    · simp only [List.length_append, length_bytesLE]
    · exact List.length_replicate
  simp only [List.length_append, List.length_flatMap, List.length_replicate, hregs, hentry, List.map_const', List.length_range,
    List.sum_replicate_nat]

/-- A task without views gives its child a record and a frame, and no copies. -/
theorem State.childBytes_nil (s : State) (p : PartId) (r : Addr) (entry : DWord) (block : Addr) (d : BitVec 5) :
    s.childBytes p r entry block d [] = childRecord (s.recWord p r 0) (s.recWord p r 1) entry block r ((s.areaWord p r 0).setWidth 48)
      ((s.recWord p r 7).extractLsb' 56 8 + 1) false false s.active ++ childFrame s.cur d [] := by
  rw [BitVec.setWidth_eq_extractLsb' (by decide)]
  exact List.append_nil _

theorem childEntries_nil (slots : List (Option Nat)) (va : Nat) : childEntries [] slots va = [] := rfl

section
variable {s t u : State} {p : PartId} {r : Addr}

/-- The blocks of a child are stored without any other change to a core or to the rotation. -/
theorem State.Written.storeBlocks {va n : Nat} {bs : List Byte} (h : s.Written t) : ∀ u, t.storeBlocks va n bs = .ok u → s.Written u := by
  induction n generalizing t va bs with
  | zero =>
    rintro _ ⟨⟩
    exact h
  | succ n ih =>
    unfold State.storeBlocks
    split
    · rintro _ ⟨⟩
    · rename_i hreach
      split
      · rintro _ ⟨⟩
      · exact ih (h.trans (State.written_reach hreach)).writePhys

/-! ### Copies in the Cistern -/

/-- Filling the child's copies changes nothing of a core but its Cistern. -/
theorem CoreSt.fillCopies_frame (k : CoreSt) (es : List (Nat × ViewEntry)) : k.fillCopies es = { k with cistern := (k.fillCopies es).cistern } := by
  unfold CoreSt.fillCopies
  generalize es.filter _ = xs
  induction xs generalizing k with
  | nil => rfl
  | cons e xs ih =>
    rw [List.foldl_cons, ih]
    split <;> rfl

/-! ### The child in its team -/

theorem State.Written.shareAdd {x : Team} {pos : Nat} {n : Int} (hn : 0 ≤ n) (h : s.Written t) : s.Written (t.shareAdd p x pos n) := by
  unfold State.shareAdd
  split
  · exact h
  · extract_lets +onlyGivenNames c s₁
    rw [decide_eq_false (not_lt.2 hn), Bool.false_and, if_neg Bool.false_ne_true]
    exact h.treeAdd

/-- A team that holds a task knows where the task stands. -/
theorem State.taskInfo_of_teamWith {x : Team} (h : s.teamWith p r = some x) : ∃ i, s.taskInfo p r = some i := by
  have hholds : x.holds p r = true := List.find?_some h
  obtain ⟨i, hi, htask⟩ := List.any_eq_true.1 (Bool.and_eq_true_iff.1 hholds).2
  rw [State.taskInfo, h, Option.bind_some, ← Option.isSome_iff_exists, List.find?_isSome]
  exact ⟨i, hi, htask⟩

theorem State.SameRota.teamWith (h : s.SameRota t) : t.teamWith p r = s.teamWith p r := by
  rw [State.teamWith, h.teams, State.teamWith]

/-- A child that its parent's team adopts stands at the tail of the ready queue, and every core is as before. -/
theorem State.adopt_spec {x : Team} (h : s.teamWith p r = some x) (child : Addr) (slots : List (BitVec 6 × Nat)) :
    s.SameCores (s.adopt p r child slots) ∧
      ∃ y ∈ (s.adopt p r child slots).teams, y.launch = x.launch ∧ y.index = x.index ∧ y.ready = x.ready ++ [child] := by
  unfold State.adopt
  extract_lets +onlyGivenNames s₁ s₂
  have h₂ : s.Written s₂ := (State.Written.refl s).setAreaWord.setAreaWord
  have hteam : s₂.teamWith p r = some x := h₂.rota.teamWith.trans h
  obtain ⟨i, hinfo⟩ := State.taskInfo_of_teamWith hteam
  rw [hteam, hinfo]
  dsimp -zeta only
  extract_lets +onlyGivenNames mine s₃
  have h₃ : s.SameCores s₃ := h₂.cores
  have h₄ : s₃.Written (s₃.shareAdd p x i.pos 1) := (State.Written.refl s₃).shareAdd Int.one_nonneg
  rw [h₄.rota.teams]
  exact ⟨h₃.written h₄, _, mem_replaceFirst_of_find _ hteam, rfl, rfl, rfl⟩

/-- The child's copies are filled, it stands with its team, and gd holds its record. -/
theorem State.gave_adopted {x : Team} {child : Addr} {slots : List (BitVec 6 × Nat)} {d : BitVec 5} {y : DWord} (h : s.Written u)
    (hteam : s.teamWith p r = some x) (es : List (Nat × ViewEntry)) :
    let v := ((u.modCur fun k => k.fillCopies es).adopt p r child slots).result d y
    s.Gave d y v ∧ v.cur.cistern = (u.cur.fillCopies es).cistern ∧
      ∃ t ∈ v.teams, t.launch = x.launch ∧ t.index = x.index ∧ t.ready = x.ready ++ [child] := by
  intro v
  let w := (u.modCur fun k => k.fillCopies es).adopt p r child slots
  obtain ⟨hcores, hready⟩ : (u.modCur fun k => k.fillCopies es).SameCores w ∧ _ :=
    State.adopt_spec (s := u.modCur fun k => k.fillCopies es) (h.rota.teamWith.trans hteam) child slots
  have hown : w.cur.own = (u.cur.fillCopies es).own := hcores.cur.trans (by rw [State.cur_modCur])
  have hpc : w.cur.pc = s.cur.pc := calc
    w.cur.pc = (u.cur.fillCopies es).pc := congrArg (·.pc) hown
    _ = u.cur.pc := by rw [CoreSt.fillCopies_frame]
    _ = s.cur.pc := congrArg (·.pc) h.cores.cur
  have hg (n : BitVec 5) : w.g n = s.g n := calc
    w.g n = w.cur.own.readG n := rfl
    _ = (u.cur.fillCopies es).readG n := by rw [hown]; rfl
    _ = u.g n := by rw [CoreSt.fillCopies_frame]; rfl
    _ = s.g n := h.cores.g n
  obtain ⟨hdest, hzero, hregs, -, -, hnext, hrest, -⟩ := w.wrote_result d y
  exact ⟨⟨hdest, hzero, fun n hn => (hregs n hn).trans (hg n), hnext.trans (congrArg (· + 4) hpc)⟩,
    (congrArg (·.cistern) hrest).trans (congrArg (·.cistern) hown), hready⟩

end

/-! ### Addresses -/

theorem offBlock_iff (x : DWord) : (x.extractLsb' 0 6 != 0) = true ↔ x.toNat % 64 ≠ 0 := by
  simp only [bne_iff_ne, ne_eq, ← BitVec.toNat_inj, BitVec.extractLsb'_toNat, Nat.shiftRight_zero, BitVec.ofNat_eq_ofNat, BitVec.toNat_zero]

theorem aligned_of {x : DWord} (h : x.toNat % 4 = 0) : (x.extractLsb' 0 2 != 0) = false :=
  Bool.eq_false_iff.2 fun e => (unaligned_iff x).1 e h

theorem onBlock_of {x : DWord} (h : x.toNat % 64 = 0) : (x.extractLsb' 0 6 != 0) = false :=
  Bool.eq_false_iff.2 fun e => (offBlock_iff x).1 e h

theorem toNat_addr {x : DWord} (h : x.toNat < 2 ^ 48) : (x.setWidth 48).toNat = x.toNat := by
  rw [BitVec.toNat_setWidth, Nat.mod_eq_of_lt h]

theorem zext_addr {x : DWord} (h : x.toNat < 2 ^ 48) : zext (x.setWidth 48) = x := by
  apply BitVec.eq_of_toNat_eq
  rw [zext, BitVec.toNat_setWidth_of_le (by decide), toNat_addr h]

/-! ### The cases of SPAWN -/

/-- The entry and the block of a SPAWN lie in the address space, the entry at a word and the block at a block. -/
structure State.SpawnAt (s : State) (a b : BitVec 5) : Prop where
  entry : (s.g a).toNat < 2 ^ 48
  block : (s.g b).toNat < 2 ^ 48
  word : (s.g a).toNat % 4 = 0
  line : (s.g b).toNat % 64 = 0

section
variable {s : State} {d a b : BitVec 5}

theorem spawnRefused_iff {ok : Bool} {depth : Byte} : (!ok || depth == 255) = true ↔ ok = false ∨ depth = 255 := by
  rw [Bool.or_eq_true, beq_iff_eq, Bool.not_eq_true']

theorem execSpawn_entryOutside (h : 2 ^ 48 ≤ (s.g a).toNat) : execSpawn d a b s = .next (s.faultNow cAddress (s.g a)) := by
  rw [execSpawn, if_pos ((outside_iff _).2 h)]

theorem execSpawn_blockOutside (hentry : (s.g a).toNat < 2 ^ 48) (h : 2 ^ 48 ≤ (s.g b).toNat) :
    execSpawn d a b s = .next (s.faultNow cAddress (s.g b)) := by
  rw [execSpawn, (inside_iff _).2 hentry, (outside_iff _).2 h]
  rfl

theorem execSpawn_entryUnaligned (hentry : (s.g a).toNat < 2 ^ 48) (hblock : (s.g b).toNat < 2 ^ 48) (h : (s.g a).toNat % 4 ≠ 0) :
    execSpawn d a b s = .next (s.faultNow cAlign (s.g a)) := by
  rw [execSpawn, (inside_iff _).2 hentry, (inside_iff _).2 hblock, (unaligned_iff _).2 h]
  rfl

theorem execSpawn_blockUnaligned (hentry : (s.g a).toNat < 2 ^ 48) (hblock : (s.g b).toNat < 2 ^ 48) (hword : (s.g a).toNat % 4 = 0)
    (h : (s.g b).toNat % 64 ≠ 0) : execSpawn d a b s = .next (s.faultNow cAlign (s.g b)) := by
  rw [execSpawn, (inside_iff _).2 hentry, (inside_iff _).2 hblock, aligned_of hword, (offBlock_iff _).2 h]
  rfl

theorem State.SpawnAt.checks (h : s.SpawnAt a b) :
    ((s.g a).extractLsb' 48 16 != 0) = false ∧ ((s.g b).extractLsb' 48 16 != 0) = false ∧
      ((s.g a).extractLsb' 0 2 != 0) = false ∧ ((s.g b).extractLsb' 0 6 != 0) = false :=
  ⟨(inside_iff _).2 h.entry, (inside_iff _).2 h.block, aligned_of h.word, onBlock_of h.line⟩

/-- The child's record is the address in gb. -/
theorem State.SpawnAt.child (h : s.SpawnAt a b) :
    (s.g b).extractLsb' 0 48 = (s.g b).setWidth 48 ∧ ((s.g b).setWidth 48).toNat = (s.g b).toNat ∧ zext ((s.g b).setWidth 48) = s.g b :=
  ⟨(BitVec.setWidth_eq_extractLsb' (by decide)).symm, toNat_addr h.block, zext_addr h.block⟩

/-- The view entries of the child that SPAWN makes with these pool slots. -/
def State.spawnEntries (s : State) (p : PartId) (r : Addr) (b : BitVec 5) (slots : List (Option Nat)) : List (Nat × ViewEntry) :=
  childEntries (s.views p r) slots ((s.g b).toNat + 576)

/-- What SPAWN stores at the address in gb, and what comes of it. -/
def State.spawnStore (s : State) (p : PartId) (r : Addr) (d a b : BitVec 5) (slots : List (Option Nat)) : Except Refused State :=
  let bytes := s.childBytes p r (s.g a) ((s.g b).setWidth 48) d (s.spawnEntries p r b slots)
  s.storeBlocks (s.g b).toNat (bytes.length / 64) bytes

section
variable {p : PartId} {r : Addr} (hat : s.SpawnAt a b) (hself : s.self = some (p, r))
include hat hself

theorem execSpawn_poisoned (hbad : s.areaBad p r = true) : execSpawn d a b s = .next (s.areaFault p r) := by
  rw [execSpawn, hself]
  simp only [hat.checks, hbad, Bool.false_eq_true, if_false, if_true]

variable (hbad : s.areaBad p r = false)
include hbad

theorem execSpawn_refused (h : s.cur.viewHandlesOk r (s.views p r) = false ∨ (s.recWord p r 7).extractLsb' 56 8 = 255) :
    execSpawn d a b s = .next (s.taskFault (.spawn d a b)) := by
  have hrefused := spawnRefused_iff.2 h
  rw [execSpawn, hself]
  simp only [hat.checks, hbad, hrefused, Bool.false_eq_true, if_false, if_true]

variable {t : Team} (hteam : s.teamWith p r = some t)
  (h : ¬(s.cur.viewHandlesOk r (s.views p r) = false ∨ (s.recWord p r 7).extractLsb' 56 8 = 255))
include hteam h

theorem execSpawn_full (hslots : t.slotsFor s.active s.cur (s.views p r) [] = none) : execSpawn d a b s = .next (s.result d 0) := by
  have hallowed := Bool.eq_false_iff.2 (mt spawnRefused_iff.1 h)
  rw [execSpawn, hself]
  simp only [hat.checks, hbad, hallowed, hteam, hslots, Bool.false_eq_true, if_false]

variable {slots : List (Option Nat)} (hslots : t.slotsFor s.active s.cur (s.views p r) [] = some slots)
include hslots

theorem execSpawn_unstored {e : Refused} (hstore : s.spawnStore p r d a b slots = .error e) : execSpawn d a b s = .next (s.refuse e) := by
  have hallowed := Bool.eq_false_iff.2 (mt spawnRefused_iff.1 h)
  unfold State.spawnStore State.spawnEntries at hstore
  rw [execSpawn, hself]
  simp only [hat.checks, hat.child, hbad, hallowed, hteam, hslots, hstore, Bool.false_eq_true, if_false]

theorem execSpawn_stored {u : State} (hstore : s.spawnStore p r d a b slots = .ok u) :
    execSpawn d a b s = .next (((u.modCur fun k => k.fillCopies (s.spawnEntries p r b slots)).adopt p r ((s.g b).setWidth 48)
      (slotsOf (s.spawnEntries p r b slots))).result d (s.g b)) := by
  have hallowed := Bool.eq_false_iff.2 (mt spawnRefused_iff.1 h)
  unfold State.spawnStore State.spawnEntries at hstore
  rw [execSpawn, hself]
  simp only [hat.checks, hat.child, hbad, hallowed, hteam, hslots, hstore, Bool.false_eq_true, if_false]
  rfl

end
end
end Sys2Proof.Machine
end

section
open Sys2Proof Sys2Proof.Machine

/-- Settles O35: a trap, a result of 0, or the child's blocks stored, its copies filled and the child adopted by its team. -/
theorem Sys2Proof.spawnResults : Obligations.SpawnResults := by
  intro s d a b entry vb
  have hspawn : exec (.spawn d a b) s = execSpawn d a b s := rfl
  rw [hspawn]
  refine ⟨fun hentry htrap => ?_, fun hentry hblock htrap => ?_, fun hentry hblock hword htrap => ?_,
    fun hentry hblock hword hline htrap => ?_, fun hentry hblock hword hline p r t hself hteam => ?_⟩
  · rw [execSpawn_entryOutside hentry]
    exact answers_next (s.trapped_faultNow _ _ htrap)
  · rw [execSpawn_blockOutside hentry hblock]
    exact answers_next (s.trapped_faultNow _ _ htrap)
  · rw [execSpawn_entryUnaligned hentry hblock hword]
    exact answers_next (s.trapped_faultNow _ _ htrap)
  · rw [execSpawn_blockUnaligned hentry hblock hword hline]
    exact answers_next (s.trapped_faultNow _ _ htrap)
  have hat : s.SpawnAt a b := ⟨hentry, hblock, hword, hline⟩
  refine ⟨fun hbad htrap => ?_, fun hbad => ⟨fun hrefused htrap => ?_, fun hallowed hslots => ?_, fun slots hallowed hslots => ?_⟩⟩
  · rw [execSpawn_poisoned hat hself hbad]
    exact answers_next (State.trapped_areaFault htrap)
  · rw [execSpawn_refused hat hself hbad hrefused]
    exact answers_next (State.trapped_taskFault htrap)
  · rw [execSpawn_full hat hself hbad hteam hallowed hslots]
    exact answers_next (s.wrote_result d 0)
  refine ⟨fun hviews => ?_, fun e hstore htrap => ?_, fun u hstore => ?_⟩
  · rw [hviews, childEntries_nil, State.childBytes_nil]
    exact ⟨by rw [List.length_append, length_childRecord, length_childFrame], rfl⟩
  · rw [execSpawn_unstored hat hself hbad hteam hallowed hslots hstore]
    exact answers_next (s.trapped_faultNow _ _ htrap)
  · rw [execSpawn_stored hat hself hbad hteam hallowed hslots hstore]
    exact answers_next (State.gave_adopted ((State.Written.refl s).storeBlocks _ hstore) hteam _)

end

section
/-! PROOF. What a write of device memory leaves to be read, and what it leaves as it is (R3, R282). -/

namespace Sys2Proof.Machine

/-! ### Bytes -/

theorem Memory.write_append (m : Memory) (a : Nat) (xs ys : List Byte) : m.write a (xs ++ ys) = (m.write a xs).write (a + xs.length) ys := by
  induction xs generalizing m a with
  | nil => rfl
  | cons x xs ih => rw [List.cons_append, Memory.write, ih, Memory.write, List.length_cons, Nat.add_right_comm, Nat.add_assoc]

/-- Bytes apart from a write are read as before it. -/
theorem Memory.read_write_apart (m : Memory) {a b n : Nat} {bs : List Byte} (h : b + n ≤ a ∨ a + bs.length ≤ b) :
    (m.write a bs).read b n = m.read b n := by
  refine Memory.read_congr fun i hi => ?_
  rw [Memory.readByte_write, if_neg]
  omega

/-- A part of the bytes just written. -/
theorem Memory.read_write_part (m : Memory) (a : Nat) (xs ys zs : List Byte) :
    (m.write a (xs ++ ys ++ zs)).read (a + xs.length) ys.length = ys := by
  rw [Memory.write_append, Memory.write_append, List.length_append, Memory.read_write_apart _ (.inl (by omega)), Memory.read_write_same]

/-! ### Words -/

/-- The bytes of words, in order. -/
def wordBytes (ws : List DWord) : List Byte := ws.flatMap fun w => bytesLE 8 w.toNat

theorem length_wordBytes (ws : List DWord) : (wordBytes ws).length = 8 * ws.length := by
  simp [wordBytes, List.length_flatMap, Nat.mul_comm]

theorem wordBytes_split {ws : List DWord} {i : Nat} {w : DWord} (h : ws[i]? = some w) :
    wordBytes ws = wordBytes (ws.take i) ++ bytesLE 8 w.toNat ++ wordBytes (ws.drop (i + 1)) := by
  obtain ⟨hi, rfl⟩ := List.getElem?_eq_some_iff.1 h
  have hsplit : ws = ws.take i ++ [ws[i]] ++ ws.drop (i + 1) := by simp
  conv_lhs => rw [hsplit]
  simp only [wordBytes, List.flatMap_append, List.flatMap_singleton]

section
variable {s : State} {pa : Nat} {bs : List Byte} {seen : Bool}

theorem State.writePhys_mem (h : inDevice pa bs.length = true) : (s.writePhys pa bs seen).mem = s.mem.write pa bs := by
  unfold State.writePhys
  rw [isHost_of_inDevice h, h]
  rfl

@[simp] theorem State.writePhys_tags (s : State) (pa : Nat) (bs : List Byte) (seen : Bool) : (s.writePhys pa bs seen).tags = s.tags := by
  rcases s.writePhys_cases pa bs seen with ⟨-, e⟩ | ⟨-, -, -, e, -⟩ | ⟨-, -, e⟩
  · rw [e]
  · have htags := congrArg State.tags e
    exact htags
  · rw [e]

@[simp] theorem State.writePhys_poison (s : State) (pa : Nat) (bs : List Byte) (seen : Bool) : (s.writePhys pa bs seen).poison = s.poison := by
  rcases s.writePhys_cases pa bs seen with ⟨-, e⟩ | ⟨-, -, -, e, -⟩ | ⟨-, -, e⟩
  · rw [e]
  · have hpoison := congrArg State.poison e
    exact hpoison
  · rw [e]

@[simp] theorem State.writePhys_parts (s : State) (pa : Nat) (bs : List Byte) (seen : Bool) : (s.writePhys pa bs seen).parts = s.parts := by
  rcases s.writePhys_cases pa bs seen with ⟨-, e⟩ | ⟨-, -, -, e, -⟩ | ⟨-, -, e⟩
  · rw [e]
  · have hparts := congrArg State.parts e
    exact hparts
  · rw [e]

/-- A word of those just written. -/
theorem State.read64_writePhys {ws : List DWord} {rest : List Byte} {i : Nat} {w : DWord}
    (h : inDevice pa (wordBytes ws ++ rest).length = true) (hi : ws[i]? = some w) :
    (s.writePhys pa (wordBytes ws ++ rest) seen).read64 (pa + 8 * i) = w := by
  have hlen : (wordBytes (ws.take i)).length = 8 * i := by
    rw [length_wordBytes, List.length_take, min_eq_left (List.getElem?_eq_some_iff.1 hi).1.le]
  have hread := s.mem.read_write_part pa (wordBytes (ws.take i)) (bytesLE 8 w.toNat) (wordBytes (ws.drop (i + 1)) ++ rest)
  rw [hlen, length_bytesLE, ← List.append_assoc, ← wordBytes_split hi] at hread
  rw [State.read64, State.readPhys, State.writePhys_mem h, Memory.readNat, hread, ofBytesLE_bytesLE,
    show 256 ^ 8 = 2 ^ 64 from rfl, Nat.mod_eq_of_lt w.isLt,
    BitVec.ofNat_toNat, BitVec.setWidth_eq]

/-- A word apart from a write. -/
theorem State.read64_writePhys_apart {b : Nat} (h : b + 8 ≤ pa ∨ pa + bs.length ≤ b) : (s.writePhys pa bs seen).read64 b = s.read64 b := by
  have hsame := s.sameOutside_writePhys pa bs seen
  have hread : (s.writePhys pa bs seen).mem.read b 8 = s.mem.read b 8 := Memory.read_congr fun i hi => hsame _ (by omega)
  rw [State.read64, State.readPhys, Memory.readNat, hread]
  rfl

theorem State.read64_putPhys {x : DWord} (h : inDevice pa 8 = true) : (s.putPhys pa 8 x.toNat).read64 pa = x := by
  have hw : bytesLE 8 x.toNat = wordBytes [x] ++ [] := by simp [wordBytes]
  rw [State.putPhys, hw]
  exact State.read64_writePhys (i := 0) (by rwa [← hw, length_bytesLE]) rfl

/-- Reading depends on memory alone. -/
theorem State.read64_congr {t : State} (h : t.mem = s.mem) (pa : Nat) : t.read64 pa = s.read64 pa := by
  rw [State.read64, State.readPhys, h]
  rfl

end

end Sys2Proof.Machine
end

section
/-! PROOF. YIELD (R247, R338). -/

namespace Sys2Proof.Machine

section
variable {s t : State} {p : PartId} {r : Addr}

/-- Where an update keeps what is looked for, the first element found is the updated one. -/
theorem find?_replaceFirst {α : Type} {q : α → Bool} {f : α → α} {xs : List α} {x : α} (hf : ∀ x, q x = true → q (f x) = true)
    (h : xs.find? q = some x) : (replaceFirst q f xs).find? q = some (f x) := by
  induction xs with
  | nil => cases h
  | cons y ys ih =>
    cases hy : q y with
    | true =>
      rw [List.find?_cons_of_pos hy] at h
      cases h
      rw [replaceFirst_pos hy, List.find?_cons_of_pos (hf _ hy)]
    | false =>
      have hn : ¬q y = true := by simp [hy]
      rw [List.find?_cons_of_neg hn] at h
      rw [replaceFirst_neg hy, List.find?_cons_of_neg hn, ih h]

/-- A team holds a task of which something else has changed. -/
theorem Team.holds_replaceFirst {f : TaskInfo → TaskInfo} (hf : ∀ i, (f i).task = i.task) {x : Team} (h : x.holds p r = true) :
    ({ x with tasks := replaceFirst (fun i => i.task == r) f x.tasks } : Team).holds p r = true := by
  obtain ⟨hpart, hany⟩ := Bool.and_eq_true_iff.1 h
  obtain ⟨i, hi, hir⟩ := List.any_eq_true.1 hany
  refine Bool.and_eq_true_iff.2 ⟨hpart, List.any_eq_true.2 ?_⟩
  rcases replaceFirst_keeps (fun i => i.task == r) f hi with hi | hi
  · exact ⟨i, hi, hir⟩
  · exact ⟨f i, hi, by rwa [hf]⟩

/-- A task that joins the ready queue stands at its tail. -/
theorem State.enqueue_modTask {f : TaskInfo → TaskInfo} {x : Team} (hf : ∀ i, (f i).task = i.task) (h : s.teamWith p r = some x) :
    ∃ y ∈ ((s.modTask p r f).enqueue p r).teams, y.launch = x.launch ∧ y.index = x.index ∧ y.ready = x.ready ++ [r] :=
  ⟨_, mem_replaceFirst_of_find _ (find?_replaceFirst (fun _ => Team.holds_replaceFirst hf) h), rfl, rfl, rfl⟩

/-- A suspension in state ready is writes of the device, the end of the run on the core, and the task in its team's queue (R37, R205). -/
theorem State.suspend_ready {c : CoreId} (hr : (s.core c).running = some r) (hp : s.partOf c = some p) (kind : BitVec 4) (target : Addr)
    (thr pc : DWord) (dest : BitVec 5) : ∃ u, s.Written u ∧ s.suspend c stReady kind target thr pc dest =
      ((u.modCore c CoreSt.asleep).modTask p r fun i => { i with dest := dest }).enqueue p r := by
  unfold State.suspend
  extract_lets +onlyGivenNames k
  have hk : k.running = some r := hr
  rw [hk, hp]
  dsimp -zeta only
  extract_lets +onlyGivenNames s₁ s₂ s₃ w7 aff s₄ w0 w0' s₅ s₆ s₇
  have h₅ : s.Written s₅ := (State.Written.refl s).writeBlocks.setRecWord.setRecWord.setRecWord.setRecWord
  exact ⟨s₅, h₅, rfl⟩

theorem State.suspend_ready_queue {c : CoreId} {x : Team} (hr : (s.core c).running = some r) (hp : s.partOf c = some p)
    (hteam : s.teamWith p r = some x) (kind : BitVec 4) (target : Addr) (thr pc : DWord) (dest : BitVec 5) :
    ∃ y ∈ (s.suspend c stReady kind target thr pc dest).teams,
      y.launch = x.launch ∧ y.index = x.index ∧ y.ready = x.ready ++ [r] := by
  obtain ⟨u, hu, e⟩ := State.suspend_ready hr hp kind target thr pc dest
  rw [e]
  have hteam' : (u.modCore c CoreSt.asleep).teamWith p r = some x := hu.rota.teamWith.trans hteam
  exact State.enqueue_modTask (s := u.modCore c CoreSt.asleep) (fun _ => rfl) hteam'

theorem execYield_handler (h : s.cur.inHandler = true) : exec .yield s = .next (s.illegal .yield) := if_pos h
theorem execYield_task (h : s.cur.inHandler = false) : exec .yield s = .next (s.suspendNext stReady 0 0 0 0) :=
  if_neg (Bool.eq_false_iff.1 h)

end

end Sys2Proof.Machine
end

section
open Sys2Proof Sys2Proof.Machine

/-- Settles O33: a suspension in state ready, or ILLEGAL. -/
theorem Sys2Proof.yieldSuspends : Obligations.YieldSuspends := by
  intro s p r t hself hteam
  obtain ⟨hr, hp⟩ := State.self_eq hself
  refine ⟨fun hin => ?_, fun hin htrap => ?_⟩
  · rw [execYield_task hin]
    exact answers_next ⟨((State.Written.refl s).suspend_slept hr hp ..).advance, State.suspend_ready_queue hr hp hteam ..⟩
  · rw [execYield_handler hin]
    have hword : wordOf .yield = 0x80000001 := rfl
    exact hword ▸ answers_next (s.trapped_faultNow _ _ htrap)

end

section
/-! PROOF. LAUNCH (R240, R246). -/

namespace Sys2Proof.Machine

section
variable {s t u : State} {p : PartId} {pa : Nat}

/-- A result after what leaves the registers of every core. -/
theorem State.SameCores.gave (h : s.SameCores t) (d : BitVec 5) (x : DWord) : s.Gave d x (t.result d x) := by
  obtain ⟨hdest, hzero, hregs, -, -, hpc, -, -⟩ := t.wrote_result d x
  exact ⟨hdest, hzero, fun r hr => (hregs r hr).trans (h.g r), hpc.trans (congrArg (·.pc + 4) h.cur)⟩

/-- A descriptor passes its checks where it is reached, in a block that is neither live nor poisoned (R105, R240, R382). -/
theorem State.queueCheck_ok {va : DWord} (h : s.queueCheck va = .ok (pa, u)) :
    s.reach va 64 .store = .ok (pa, u) ∧ u.tagged pa = false ∧ u.poisoned pa 64 = false := by
  unfold State.queueCheck at h
  split at h
  · cases h
  · rename_i hreach
    split at h
    · cases h
    · rename_i htag
      split at h
      · cases h
      · rename_i hbad
        cases h
        exact ⟨hreach, Bool.eq_false_iff.2 htag, Bool.eq_false_iff.2 hbad⟩

theorem State.written_queueCheck {va : DWord} (h : s.queueCheck va = .ok (pa, u)) : s.Written u :=
  State.written_reach (State.queueCheck_ok h).1

section
variable (s p pa) (va : Addr)

/-- The words and the status byte of the launch record at an address (R245). -/
def State.launchWord (i : Nat) : DWord := s.read64 (pa + 8 * i)
def State.launchStatus : Byte := (s.launchWord pa 7).setWidth 8

/-- The device after a launch record has joined its queue. -/
def State.launched : State :=
  let prio := (s.launchWord pa 2).extractLsb' 36 4
  let q := (s.part p).queues.read prio
  let s := s.putPhys (pa + 56) 8 1
  let s := match q.getLast? with
    | some l => s.putIn p (l.toNat + 58) 6 va.toNat
    | none => s
  s.modPart p fun x => { x with queues := x.queues.write prio (q ++ [va]) }

theorem State.queueLaunch_eq : s.queueLaunch p va pa =
    if s.launchStatus pa = 1 ∨ s.launchStatus pa = 2 then (s, statusWord sBusy 0)
    else if launchBad (s.launchWord pa) then (s, statusWord sBadRec 0)
    else (s.launched p pa va, statusWord sOk 0) := by
  have hstatus : s.launchStatus pa = (s.read64 (pa + 8 * 7)).extractLsb' 0 8 := BitVec.setWidth_eq_extractLsb' (by decide)
  rw [hstatus]
  unfold State.queueLaunch
  simp only [Bool.or_eq_true, beq_iff_eq]
  rfl

theorem State.launched_cores : s.SameCores (s.launched p pa va) := by
  unfold State.launched
  extract_lets prio q s₁ s₂
  have h₁ : s.Written s₁ := (State.Written.refl s).putPhys
  have h₂ : s.Written s₂ := by
    unfold s₂
    split
    · exact h₁.putIn
    · exact h₁
  exact h₂.cores

/-- The record stands at the tail of its priority's queue. -/
theorem State.launched_queue : ((s.launched p pa va).part p).queues.read ((s.launchWord pa 2).extractLsb' 36 4) =
    (s.part p).queues.read ((s.launchWord pa 2).extractLsb' 36 4) ++ [va] := by
  unfold State.launched State.part State.modPart
  simp only [Bank.read_modify, if_true, Bank.read_write]
end

theorem execLaunch_checked {d a : BitVec 5} (hq : s.queueCheck (s.g a) = .ok (pa, u)) (hp : s.partOf s.active = some p) :
    execLaunch d a s =
      let x := u.queueLaunch p ((s.g a).setWidth 48) pa
      .next ((if x.2 == statusWord sOk 0 then x.1 else s).result d x.2) := by
  rw [execLaunch, hq, hp, BitVec.setWidth_eq_extractLsb' (by decide)]

end

end Sys2Proof.Machine
end

section
open Sys2Proof Sys2Proof.Machine

/-- Settles O41: by the record's status and layout, with the device as it was where LAUNCH refuses. -/
theorem Sys2Proof.launchResults : Obligations.LaunchResults := by
  intro s u d a p pa w status hq hp
  have hexec : exec (.launch d a) s = execLaunch d a s := rfl
  have hlaunch := u.queueLaunch_eq p pa ((s.g a).setWidth 48)
  rw [hexec, execLaunch_checked hq hp]
  refine ⟨fun (hbusy : u.launchStatus pa = 1 ∨ u.launchStatus pa = 2) => ?_,
    fun (h1 : u.launchStatus pa ≠ 1) (h2 : u.launchStatus pa ≠ 2) (hbad : launchBad (u.launchWord pa) = true) => ?_,
    fun (h1 : u.launchStatus pa ≠ 1) (h2 : u.launchStatus pa ≠ 2) (hok : launchBad (u.launchWord pa) = false) => ?_⟩
  · rw [hlaunch, if_pos hbusy]
    exact answers_next (s.wrote_result d _)
  · rw [hlaunch, if_neg (not_or.2 ⟨h1, h2⟩), if_pos hbad]
    exact answers_next (s.wrote_result d _)
  · rw [hlaunch, if_neg (not_or.2 ⟨h1, h2⟩), if_neg (Bool.eq_false_iff.1 hok)]
    have hcores := (State.written_queueCheck hq).cores.trans (u.launched_cores p pa ((s.g a).setWidth 48))
    exact answers_next ⟨hcores.gave d _, u.launched_queue p pa _⟩

end

section
/-! PROOF. MREAD, MFREE and MINIT (R228, R231, R234). -/

namespace Sys2Proof.Machine

section
variable {s t u : State} {pa : Nat} {d a b : BitVec 5}

/-! ### Hidden tags -/

theorem mem_insertNat (x : Nat) (xs : List Nat) : x ∈ insertNat x xs := by
  induction xs with
  | nil => exact List.mem_singleton.2 rfl
  | cons y ys ih =>
    unfold insertNat
    split
    · exact List.mem_cons_self
    · split
      · next e => exact e ▸ List.mem_cons_self
      · exact List.mem_cons_of_mem _ ih

theorem State.tagged_setTag_true (s : State) (pa : Nat) : (s.setTag (blockOf pa) true).tagged pa = true :=
  List.contains_iff_mem.2 (mem_insertNat _ _)

theorem State.tagged_setTag_false (s : State) (pa : Nat) : (s.setTag (blockOf pa) false).tagged pa = false := by
  refine Bool.eq_false_iff.2 fun h => ?_
  have hmem : blockOf pa ∈ removeNat (blockOf pa) s.tags := List.contains_iff_mem.1 h
  simp [removeNat] at hmem

/-! ### Meeting records as they stand in memory -/

theorem Meeting.bytes_eq (m : Meeting) :
    m.bytes = wordBytes [m.members, m.arrived, m.combine, m.buffer, m.ctl] ++ bytesLE 24 m.limits.toNat := by
  simp [Meeting.bytes, wordBytes, List.append_assoc]

@[simp] theorem Meeting.length_bytes (m : Meeting) : m.bytes.length = 64 := by
  rw [m.bytes_eq, List.length_append, length_wordBytes, length_bytesLE]
  rfl

/-- A record reads back as it was written. -/
theorem State.meeting_writePhys {seen : Bool} (h : inDevice pa 64 = true) (m : Meeting) : (s.writePhys pa m.bytes seen).meeting pa = m := by
  have hdev : inDevice pa (wordBytes [m.members, m.arrived, m.combine, m.buffer, m.ctl] ++ bytesLE 24 m.limits.toNat).length = true := by
    rw [← m.bytes_eq, m.length_bytes, h]
  have hlimits : (s.writePhys pa m.bytes seen).readPhys (pa + 40) 24 = m.limits.toNat := by
    have hread := s.mem.read_write_part pa (wordBytes [m.members, m.arrived, m.combine, m.buffer, m.ctl]) (bytesLE 24 m.limits.toNat) []
    rw [List.append_nil, ← m.bytes_eq, length_wordBytes, length_bytesLE] at hread
    replace hread : (s.mem.write pa m.bytes).read (pa + 40) 24 = bytesLE 24 m.limits.toNat := hread
    have hmem := State.writePhys_mem (s := s) (pa := pa) (bs := m.bytes) (seen := seen) (by rw [m.length_bytes, h])
    rw [State.readPhys, hmem, Memory.readNat, hread, ofBytesLE_bytesLE]
    exact Nat.mod_eq_of_lt m.limits.isLt
  have hword (i : Nat) (w : DWord) (hi : [m.members, m.arrived, m.combine, m.buffer, m.ctl][i]? = some w) :
      (s.writePhys pa m.bytes seen).read64 (pa + 8 * i) = w := by
    rw [m.bytes_eq]
    exact State.read64_writePhys hdev hi
  rw [State.meeting, hlimits, BitVec.ofNat_toNat, BitVec.setWidth_eq, hword 1 m.arrived rfl, hword 2 m.combine rfl,
    hword 3 m.buffer rfl, hword 4 m.ctl rfl]
  exact congrArg (Meeting.mk · m.arrived m.combine m.buffer m.ctl m.limits) (hword 0 m.members rfl)

theorem State.meeting_congr (h : t.mem = s.mem) (pa : Nat) : t.meeting pa = s.meeting pa := by
  unfold State.meeting State.read64 State.readPhys
  rw [h]

theorem Meeting.count_withCount (m : Meeting) {n : Nat} (h : n < 128) : (m.withCount n).count = n := by
  have hfield : (m.withCount n).ctl.extractLsb' 23 7 = BitVec.ofNat 7 n := by
    rw [Meeting.withCount, BitVec.extractLsb'_append_eq_of_le (by decide), Nat.sub_self, BitVec.extractLsb'_append_eq_of_add_le (by decide),
      BitVec.extractLsb'_eq_self]
  rw [Meeting.count, hfield, BitVec.toNat_ofNat, Nat.mod_eq_of_lt h]

/-! ### Waking a set of tasks -/

theorem State.SameCores.wakeAll {p : PartId} {rs : List Addr} {value : Option DWord} (h : s.SameCores t) :
    s.SameCores (t.wakeAll p rs value) := h.foldl fun _ _ => State.SameCores.wake

theorem State.SameCores.wakeSet {ws : List (PartId × Addr)} {value : Option DWord} (h : s.SameCores t) :
    s.SameCores (t.wakeSet ws value) := h.foldl fun _ _ => State.SameCores.wakeAll

theorem State.wakeSet_nil (s : State) (value : Option DWord) : s.wakeSet [] value = s := by
  have key (ps : List PartId) : ps.foldl (fun s p => s.wakeAll p [] value) s = s := by
    induction ps with
    | nil => rfl
    | cons p ps ih => exact ih
  exact key allParts

theorem State.unlive_eq (s : State) (pa : Nat) : s.unlive pa =
    (s.setTag (blockOf pa) false).wakeSet ((s.setTag (blockOf pa) false).waitersAt 4 (64 * blockOf pa) fun _ => true)
      (some (statusWord sNotLive 0)) := rfl

/-! ### The instructions -/

theorem execMread_live (x : Nat) (h : s.loadDev (s.g a) 64 = .ok (x, pa)) :
    execMread d a s = .next (s.result d (if s.tagged pa then s.read64 (pa + 32) else -1)) := by
  rw [execMread, h]

theorem execMfree_at (h : s.reach (s.g a) 64 .store = .ok (pa, u)) :
    execMfree d a s = .next (if u.tagged pa then (u.unlive pa).result d (statusWord sOk 0) else s.result d (statusWord sNotLive 0)) := by
  rw [execMfree, h]
  dsimp only
  split <;> rfl

/-- The record that a template becomes (R234). -/
def Meeting.opened (m : Meeting) : Meeting :=
  { m with arrived := 0, combine := meetIdentity m.op, ctl := m.ctl &&& 0x7FFFFFFFFF }.withCount 0

theorem State.checkAddr_of_reach {va : DWord} {n : Nat} {acc : Access} {host : Bool} (h : s.reach va n acc host = .ok (pa, u)) :
    checkAddr va n = .ok () := by
  unfold State.reach at h
  split at h
  · cases h
  · assumption

theorem execMinit_at {x from_ : Nat} (h : s.reach (s.g a) 64 .store = .ok (pa, u)) (hfrom : s.loadDev (s.g b) 64 = .ok (x, from_)) :
    execMinit d a b s = .next (
      if u.tagged pa then s.result d (statusWord sLive 0)
      else if (s.meeting from_).bad then s.result d (statusWord sBadRec 0)
      else ((u.writePhys pa (s.meeting from_).opened.bytes).setTag (blockOf pa) true).result d (statusWord sOk 0)) := by
  rw [execMinit, State.checkAddr_of_reach h, hfrom, h]
  dsimp only
  split
  · rfl
  · split <;> rfl

end

end Sys2Proof.Machine
end

section
open Sys2Proof Sys2Proof.Machine

/-- Settles O37: by whether the block is live, and for MINIT whether the template keeps R228. -/
theorem Sys2Proof.meetingManagement : Obligations.MeetingManagement := by
  intro s d a b pa u
  have hread : exec (.mread d a) s = execMread d a s := rfl
  have hfree : exec (.mfree d a) s = execMfree d a s := rfl
  have hinit : exec (.minit d a b) s = execMinit d a b s := rfl
  rw [hread, hfree, hinit]
  refine ⟨fun x hx => ?_, fun h => ⟨fun hplain => ?_, fun hlive => ?_, fun x from_ hfrom => ⟨fun hlive => ?_, fun hplain hbad => ?_,
    fun hplain hgood hdev halign => ?_⟩⟩⟩
  · rw [execMread_live x hx]
    exact answers_next (s.wrote_result d _)
  · rw [execMfree_at h, hplain]
    exact answers_next (s.wrote_result d _)
  · rw [execMfree_at h, hlive]
    have hcores : s.SameCores (u.unlive pa) := (State.written_reach h).setTag.cores.wakeSet
    refine answers_next ⟨hcores.gave d _, rfl, fun hnone => ?_⟩
    have hsame : u.unlive pa = u.setTag (blockOf pa) false := by
      have hws : (u.setTag (blockOf pa) false).waitersAt 4 (64 * blockOf pa) (fun _ => true) = [] := hnone
      rw [State.unlive_eq, hws, State.wakeSet_nil]
    rw [hsame]
    exact ⟨u.tagged_setTag_false pa, rfl⟩
  · rw [execMinit_at h hfrom, hlive]
    exact answers_next (s.wrote_result d _)
  · rw [execMinit_at h hfrom, hplain, hbad]
    exact answers_next (s.wrote_result d _)
  · rw [execMinit_at h hfrom, hplain, hgood]
    let m := (s.meeting from_).opened
    let t := ((u.writePhys pa m.bytes).setTag (blockOf pa) true).result d (statusWord sOk 0)
    have hm : t.meeting pa = m := (State.meeting_congr rfl pa).trans (State.meeting_writePhys hdev m)
    refine answers_next (t := t) ⟨(State.written_reach h).writePhys.setTag.gave d _, State.tagged_setTag_true _ pa, ?_⟩
    rw [hm]
    refine ⟨rfl, rfl, rfl, Meeting.count_withCount _ (by decide), fun i hi => ?_⟩
    exact u.sameOutside_writePhys pa m.bytes true i (by rwa [Meeting.length_bytes])

end

section
/-! PROOF. MEET (R227 to R231, R276). -/

namespace Sys2Proof.Machine

/-! ### Bits of words -/

/-- A status with a tag. -/
theorem statusWord_tag (st : Byte) (t : BitVec 16) : statusWord st (t.setWidth 48) = st ++ (0 : BitVec 40) ++ t := by
  apply BitVec.eq_of_toNat_eq
  have ht : (t.setWidth 48).toNat = t.toNat := BitVec.toNat_setWidth_of_le (by decide)
  rw [statusWord, BitVec.toNat_append, BitVec.toNat_append, BitVec.toNat_append, BitVec.toNat_append, ht,
    ← Nat.shiftLeft_add_eq_or_of_lt (by omega), ← Nat.shiftLeft_add_eq_or_of_lt t.isLt]
  simp only [Nat.shiftLeft_eq, BitVec.ofNat_eq_ofNat, BitVec.toNat_zero, Nat.or_zero]
  omega

/-- The word with one bit. -/
theorem shiftLeft_eq_twoPow (bit : Nat) : ((1 <<< bit : Nat) : DWord) = BitVec.twoPow 64 bit := by
  apply BitVec.eq_of_toNat_eq
  rw [BitVec.toNat_twoPow, Nat.one_shiftLeft]
  exact BitVec.toNat_ofNat ..

/-- A bit above a field leaves the field. -/
theorem extractLsb'_or_bit (x : DWord) {start len bit : Nat} (h : start + len ≤ bit) :
    (x ||| ((1 <<< bit : Nat) : DWord)).extractLsb' start len = x.extractLsb' start len := by
  rw [shiftLeft_eq_twoPow]
  ext i hi
  have hbit : bit ≠ start + i := by omega
  simp [hbit]

section
variable (m : Meeting)

/-! ### The fields of a record -/

section
variable {bit n : Nat} {on : Bool} {lag : Nat} {x : DWord}

@[simp] theorem Meeting.raise_members : (m.raise bit on).members = m.members := by cases on <;> rfl
@[simp] theorem Meeting.raise_arrived : (m.raise bit on).arrived = m.arrived := by cases on <;> rfl
@[simp] theorem Meeting.raise_combine : (m.raise bit on).combine = m.combine := by cases on <;> rfl
@[simp] theorem Meeting.raise_buffer : (m.raise bit on).buffer = m.buffer := by cases on <;> rfl

theorem Meeting.raise_ctl {start len : Nat} (h : start + len ≤ bit) :
    (m.raise bit on).ctl.extractLsb' start len = m.ctl.extractLsb' start len := by
  cases on
  · rfl
  · exact extractLsb'_or_bit _ h

theorem Meeting.raise_getLsbD {k : Nat} (hk : k < 64) :
    (m.raise bit on).ctl.getLsbD k = (m.ctl.getLsbD k || (on && decide (k = bit))) := by
  unfold Meeting.raise
  rw [shiftLeft_eq_twoPow]
  by_cases hbit : k = bit
  · subst hbit
    cases on <;> simp [hk]
  · cases on <;> simp [hbit, Ne.symm hbit]

theorem Meeting.take_eq : m.take lag x = ({ m with combine := (meetCombine m.op m.shift lag m.combine x).1 }.raise 40
    (meetCombine m.op m.shift lag m.combine x).2.1).raise 41 (meetCombine m.op m.shift lag m.combine x).2.2 := rfl

@[simp] theorem Meeting.take_members : (m.take lag x).members = m.members := by simp [m.take_eq]
@[simp] theorem Meeting.take_arrived : (m.take lag x).arrived = m.arrived := by simp [m.take_eq]
@[simp] theorem Meeting.take_buffer : (m.take lag x).buffer = m.buffer := by simp [m.take_eq]
@[simp] theorem Meeting.take_combine : (m.take lag x).combine = (meetCombine m.op m.shift lag m.combine x).1 := by simp [m.take_eq]

/-- A contribution changes no field of the control word below its bits 40 and 41. -/
theorem Meeting.take_ctl {start len : Nat} (h : start + len ≤ 40) :
    (m.take lag x).ctl.extractLsb' start len = m.ctl.extractLsb' start len := by
  rw [m.take_eq, Meeting.raise_ctl _ (by omega), Meeting.raise_ctl _ (by omega)]

@[simp] theorem Meeting.take_tag : (m.take lag x).tag = m.tag := m.take_ctl (by decide)
@[simp] theorem Meeting.take_op : (m.take lag x).op = m.op := m.take_ctl (by decide)
@[simp] theorem Meeting.take_count : (m.take lag x).count = m.count := congrArg BitVec.toNat (m.take_ctl (by decide))

@[simp] theorem Meeting.withCount_members : (m.withCount n).members = m.members := rfl
@[simp] theorem Meeting.withCount_arrived : (m.withCount n).arrived = m.arrived := rfl
@[simp] theorem Meeting.withCount_combine : (m.withCount n).combine = m.combine := rfl
@[simp] theorem Meeting.withCount_buffer : (m.withCount n).buffer = m.buffer := rfl

theorem Meeting.withCount_low {start len : Nat} (h : start + len ≤ 23) :
    (m.withCount n).ctl.extractLsb' start len = m.ctl.extractLsb' start len := by
  rw [Meeting.withCount, BitVec.extractLsb'_append_eq_of_add_le h, BitVec.extractLsb'_extractLsb'_of_le h]

@[simp] theorem Meeting.withCount_tag : (m.withCount n).tag = m.tag := m.withCount_low (by decide)

@[simp] theorem Meeting.withCount_op : (m.withCount n).op = m.op := by
  rw [Meeting.op, Meeting.withCount, BitVec.extractLsb'_append_eq_of_le (by decide), BitVec.extractLsb'_append_eq_of_le (by decide)]
  ext i hi
  have hlow : 3 + i < 34 := by omega
  simp [Meeting.op, hlow, ← Nat.add_assoc]

theorem Meeting.withCount_getLsbD {k : Nat} (hlow : 30 ≤ k) (hk : k < 64) : (m.withCount n).ctl.getLsbD k = m.ctl.getLsbD k := by
  have h₁ : ¬k < 23 := by omega
  have h₂ : ¬k - 23 < 7 := by omega
  have h₃ : k - 23 - 7 < 34 := by omega
  have h₄ : 30 + (k - 23 - 7) = k := by omega
  rw [Meeting.withCount, BitVec.getLsbD_append, if_neg h₁, BitVec.getLsbD_append, if_neg h₂, BitVec.getLsbD_extractLsb', h₄,
    decide_eq_true h₃, Bool.true_and]

@[simp] theorem Meeting.withTag_tag {t : BitVec 16} : (m.withTag t).tag = t := BitVec.extractLsb'_append_eq_right

@[simp] theorem Meeting.withTag_count {t : BitVec 16} : (m.withTag t).count = m.count := by
  have hfield : (m.withTag t).ctl.extractLsb' 23 7 = m.ctl.extractLsb' 23 7 := by
    rw [Meeting.withTag, BitVec.extractLsb'_append_eq_of_le (by decide)]
    ext i hi
    have hlow : 7 + i < 48 := by omega
    simp [hlow, ← Nat.add_assoc]
  exact congrArg BitVec.toNat hfield

theorem Meeting.withTag_getLsbD {t : BitVec 16} {k : Nat} (hlow : 16 ≤ k) (hk : k < 64) :
    (m.withTag t).ctl.getLsbD k = m.ctl.getLsbD k := by
  have h₁ : ¬k < 16 := by omega
  have h₂ : k - 16 < 48 := by omega
  have h₃ : 16 + (k - 16) = k := by omega
  rw [Meeting.withTag, BitVec.getLsbD_append, if_neg h₁, BitVec.getLsbD_extractLsb', h₃, decide_eq_true h₂, Bool.true_and]

end

/-! ### The record after an arrival and after a closure -/

section
variable {i : BitVec 6} {r : BitVec 16} {x : DWord}

/-- The record after an arrival in the open round (R230). -/
def Meeting.joined (m : Meeting) (i : BitVec 6) (x : DWord) : Meeting :=
  ({ m with arrived := m.arrived ||| (1 <<< i.toNat) }.take 0 x).withCount (m.count + 1)

@[simp] theorem Meeting.joined_members : (m.joined i x).members = m.members := by simp [Meeting.joined]
@[simp] theorem Meeting.joined_buffer : (m.joined i x).buffer = m.buffer := by simp [Meeting.joined]
@[simp] theorem Meeting.joined_arrived : (m.joined i x).arrived = m.arrived ||| (1 <<< i.toNat) := by simp [Meeting.joined]
theorem Meeting.joined_combine : (m.joined i x).combine = (meetCombine m.op m.shift 0 m.combine x).1 := by
  rw [Meeting.joined, Meeting.withCount_combine, Meeting.take_combine]
  rfl
@[simp] theorem Meeting.joined_tag : (m.joined i x).tag = m.tag := by
  rw [Meeting.joined, Meeting.withCount_tag, Meeting.take_tag]
  rfl
@[simp] theorem Meeting.joined_op : (m.joined i x).op = m.op := by
  rw [Meeting.joined, Meeting.withCount_op, Meeting.take_op]
  rfl

theorem Meeting.joined_berr : (m.joined i x).ctl.getLsbD 42 = m.ctl.getLsbD 42 := by
  rw [Meeting.joined, Meeting.withCount_getLsbD _ (by decide) (by decide), Meeting.take_eq, Meeting.raise_getLsbD _ (by decide),
    Meeting.raise_getLsbD _ (by decide)]
  simp

section
variable {ok : Bool}

theorem Meeting.next_eq : m.next ok =
    (({ m with combine := meetIdentity m.op, arrived := 0 }.withCount 0).withTag (m.tag + 1)).raise 42 (!ok) := rfl

theorem Meeting.next_members : (m.next ok).members = m.members := by
  rw [m.next_eq, Meeting.raise_members]
  rfl
theorem Meeting.next_arrived : (m.next ok).arrived = 0 := by
  rw [m.next_eq, Meeting.raise_arrived]
  rfl
theorem Meeting.next_combine : (m.next ok).combine = meetIdentity m.op := by
  rw [m.next_eq, Meeting.raise_combine]
  rfl
theorem Meeting.next_tag : (m.next ok).tag = m.tag + 1 := by
  rw [m.next_eq, Meeting.tag, Meeting.raise_ctl _ (by decide)]
  exact Meeting.withTag_tag _
theorem Meeting.next_count : (m.next ok).count = 0 := by
  rw [m.next_eq, Meeting.count, Meeting.raise_ctl _ (by decide)]
  exact (Meeting.withTag_count _).trans (Meeting.count_withCount _ (by decide))
theorem Meeting.next_berr : (m.next ok).ctl.getLsbD 42 = (m.ctl.getLsbD 42 || !ok) := by
  rw [m.next_eq, Meeting.raise_getLsbD _ (by decide), Meeting.withTag_getLsbD _ (by decide) (by decide),
    Meeting.withCount_getLsbD _ (by decide) (by decide)]
  simp
end

theorem Meeting.quorum_lt : m.quorum < 128 := BitVec.isLt _

/-! ### What an arrival comes to -/

theorem Meeting.arrive_notMember (h : m.members.getLsbD i.toNat = false) : m.arrive i r x = (sNotMember, m) := by
  rw [Meeting.arrive, h]
  rfl

section
variable (hi : m.members.getLsbD i.toNat = true)
include hi

theorem Meeting.arrive_ahead (h : 0 < (r - m.tag).toInt) : m.arrive i r x = (sAhead, m) := by
  rw [Meeting.arrive, hi]
  exact if_pos h

theorem Meeting.arrive_dup (h : (r - m.tag).toInt = 0) (ha : m.arrived.getLsbD i.toNat = true) : m.arrive i r x = (sDup, m) := by
  simp [Meeting.arrive, hi, h, ha]

theorem Meeting.arrive_open (h : (r - m.tag).toInt = 0) (ha : m.arrived.getLsbD i.toNat = false) :
    m.arrive i r x = (if m.count + 1 = m.quorum then sClosed else sOk, m.joined i x) := by
  simp [Meeting.arrive, hi, h, ha, Meeting.joined]

theorem Meeting.arrive_late (h : (r - m.tag).toInt < 0) : m.arrive i r x =
    if (-(r - m.tag).toInt).toNat ≤ m.limit i.toNat then (sFolded, m.take (-(r - m.tag).toInt).toNat x) else (sLagged, m) := by
  have h₀ : ¬0 < (r - m.tag).toInt := by omega
  have h₁ : ¬(r - m.tag).toInt = 0 := by omega
  simp only [Meeting.arrive, hi, h₀, h₁, Bool.not_true, Bool.false_eq_true, if_false]

end
end
end

end Sys2Proof.Machine
end

section
/-! PROOF. MEET at a live record (R227, R230, R231). -/

namespace Sys2Proof.Machine

section
variable {s t u v : State} {p : PartId} {pa : Nat} {m : Meeting} {ok : Bool}

/-! ### The published value and the closure -/

theorem State.Written.publish (h : s.Written t) (hpub : t.publish p m = some (v, ok)) : s.Written v := by
  unfold State.publish at hpub
  split at hpub
  · cases hpub
    exact h
  · split at hpub
    · split at hpub
      · cases hpub
      · cases hpub
        exact h
    · rename_i hres
      have hpair := Option.some.inj hpub
      split at hpair
      · cases hpair
        exact h
      · cases hpair
        exact (h.resolveIn _ hres).putPhys

/-- A value that reaches plain device memory is published there. -/
theorem State.publish_at {at_ : Nat} (hop : m.op ≠ 6) (hres : s.resolveIn p m.buffer.toNat .store = .ok (at_, u))
    (hhost : isHost at_ = false) (htag : u.tagged at_ = false) (hbad : u.poisoned at_ 8 = false) :
    s.publish p m = some (u.putPhys at_ 8 m.combine.toNat, true) := by
  have hop' : (m.op == 6) = false := beq_eq_false_iff_ne.2 hop
  rw [State.publish, hop', hres]
  simp [hhost, htag, hbad]

/-- The device after a closure reads the published value where the buffer lies. -/
theorem State.publish_reads {at_ : Nat} (hop : m.op ≠ 6) (hres : s.resolveIn p m.buffer.toNat .store = .ok (at_, u))
    (hhost : isHost at_ = false) (htag : u.tagged at_ = false) (hbad : u.poisoned at_ 8 = false) (hdev : inDevice at_ 8 = true)
    (hapart : at_ + 8 ≤ pa ∨ pa + 64 ≤ at_) :
    ∃ w, s.publish p m = some (w, true) ∧ (w.writePhys pa (m.next true).bytes).read64 at_ = m.combine := by
  refine ⟨_, State.publish_at hop hres hhost htag hbad, ?_⟩
  rw [State.read64_writePhys_apart (by rwa [Meeting.length_bytes]), State.read64_putPhys hdev]

/-- The device with the next round's record written and the waiters of the closed round woken. -/
def State.nextRound (s : State) (pa : Nat) (m : Meeting) (ok : Bool) : State :=
  let t := s.writePhys pa (m.next ok).bytes
  t.wakeSet (t.waitersAt 4 pa fun x => x == m.tag.setWidth 64) none

theorem State.closeRound_published (h : s.publish p m = some (v, ok)) : s.closeRound p pa m = some (v.nextRound pa m ok) := by
  rw [State.closeRound, h]
  rfl

theorem State.closeRound_unpublished (h : s.publish p m = none) : s.closeRound p pa m = none := by
  rw [State.closeRound, h]
  rfl

theorem State.Written.nextRound (h : s.Written t) : s.SameCores (t.nextRound pa m ok) := h.writePhys.cores.wakeSet

theorem State.nextRound_alone (h : (s.writePhys pa (m.next ok).bytes).waitersAt 4 pa (fun x => x == m.tag.setWidth 64) = []) :
    s.nextRound pa m ok = s.writePhys pa (m.next ok).bytes := by
  unfold State.nextRound
  dsimp only
  rw [h, State.wakeSet_nil]

/-! ### A result, and one that suspends -/

/-- A result leaves the running task. -/
theorem State.SameCores.result_running (h : s.SameCores t) (d : BitVec 5) (x : DWord) : (t.result d x).cur.running = s.cur.running := by
  have hregs : (t.result d x).cur.sansRegs.running = t.cur.sansRegs.running := congrArg CoreSt.running (t.wrote_result d x).rest
  have hrun : t.cur.own.running = s.cur.own.running := congrArg CoreSt.running h.cur
  exact hregs.trans hrun

/-- After writes of the device itself, a result and a suspension leave the registers that the result alone would. -/
theorem State.Written.gave_suspended {r : Addr} (h : s.Written t) (hr : s.cur.running = some r) (hp : s.partOf s.active = some p)
    (d : BitVec 5) (x : DWord) (st kind : BitVec 4) (target : Addr) (thr : DWord) (dest : BitVec 5) :
    let v := (t.setG d x).suspendNext st kind target thr dest
    s.Gave d x v ∧ v.cur.running = none ∧ v.cur.uie = false := by
  obtain ⟨hr', hp'⟩ := h.cores.runs hr hp
  have hcur : (t.setG d x).cur = t.cur.writeG d x := State.cur_modCur ..
  have hrun : (t.setG d x).cur.running = some r := by
    rw [hcur, ← hr']
    unfold CoreSt.writeG
    split
    · rfl
    · split <;> rfl
  obtain ⟨-, hown⟩ := State.suspend_cur (s := t.setG d x) hrun hp' st kind target thr ((t.setG d x).cur.pc + 4) dest
  have hadv : ((t.setG d x).suspendNext st kind target thr dest).cur.own = (t.result d x).cur.own.asleep := by
    unfold State.suspendNext State.result State.advance
    rw [State.cur_modCur, State.cur_modCur]
    exact congrArg (fun k : CoreSt => { k with pc := k.pc + 4 }) hown
  obtain ⟨hdest, hzero, hregs, hpc⟩ := h.gave d x
  have hg (y : BitVec 5) : ((t.setG d x).suspendNext st kind target thr dest).g y = (t.result d x).g y := by
    have hread := congrArg (CoreSt.readG · y) hadv
    exact hread
  have hnext : ((t.setG d x).suspendNext st kind target thr dest).cur.pc = (t.result d x).cur.pc := by
    have hfield := congrArg (·.pc) hadv
    exact hfield
  exact ⟨⟨fun hd => (hg d).trans (hdest hd), (hg 0).trans hzero, fun y hy => (hg y).trans (hregs y hy), hnext.trans hpc⟩,
    congrArg (·.running) hadv, congrArg (·.uie) hadv⟩

/-! ### The instruction -/

section
variable {va : Addr} {acq : Bool} {d : BitVec 5} {x : DWord} {r : BitVec 16} {i : BitVec 6} {st : Byte} {m' : Meeting}

theorem State.meetAt_bad (h : (u.meeting pa).bad = true) :
    u.meetAt s p pa va acq d x r i = s.result d (statusWord sBadRec ((u.meeting pa).tag.setWidth 48)) := by
  rw [State.meetAt, h]
  rfl

section
variable (hgood : (u.meeting pa).bad = false)
include hgood

/-- An arrival that the record refuses leaves the device as it was. -/
theorem State.meetAt_refused (h : (u.meeting pa).arrive i r x = (st, m')) (hst : st ≠ sClosed ∧ st ≠ sOk ∧ st ≠ sFolded) :
    u.meetAt s p pa va acq d x r i = s.result d (statusWord st ((u.meeting pa).tag.setWidth 48)) := by
  obtain ⟨h₁, h₂, h₃⟩ := hst
  simp [State.meetAt, hgood, h, h₁, h₂, h₃]

/-- Without acquire an arrival or a fold writes the record and gives its status. -/
theorem State.meetAt_recorded (h : (u.meeting pa).arrive i r x = (st, m')) (hst : st = sOk ∨ st = sFolded) :
    u.meetAt s p pa va false d x r i = (u.writePhys pa m'.bytes).result d (statusWord st ((u.meeting pa).tag.setWidth 48)) := by
  have hne : (st == sClosed) = false := by
    rcases hst with rfl | rfl <;> rfl
  have hok : (st == sOk || st == sFolded) = true := by simpa using hst
  simp only [State.meetAt, hgood, h, hne, hok, Bool.false_eq_true, if_false, if_true]

/-- With acquire its task suspends. -/
theorem State.meetAt_suspended (h : (u.meeting pa).arrive i r x = (st, m')) (hst : st = sOk ∨ st = sFolded) :
    u.meetAt s p pa va true d x r i = ((u.writePhys pa m'.bytes).setG d (statusWord st ((u.meeting pa).tag.setWidth 48))).suspendNext
      stWaiting 4 va (zext (u.meeting pa).tag) d := by
  have hne : (st == sClosed) = false := by
    rcases hst with rfl | rfl <;> rfl
  have hok : (st == sOk || st == sFolded) = true := by simpa using hst
  simp only [State.meetAt, hgood, h, hne, hok, Bool.false_eq_true, if_false, if_true]

theorem State.meetAt_closed (h : (u.meeting pa).arrive i r x = (sClosed, m')) (hclose : u.closeRound p pa m' = some t) :
    u.meetAt s p pa va acq d x r i = t.result d (statusWord sClosed ((u.meeting pa).tag.setWidth 48)) := by
  simp only [State.meetAt, hgood, h, hclose, Bool.false_eq_true, if_false, beq_self_eq_true, if_true]

/-- A closure whose buffer finds no frame takes POOL with nothing changed. -/
theorem State.meetAt_unpublished (h : (u.meeting pa).arrive i r x = (sClosed, m')) (hclose : u.closeRound p pa m' = none) :
    u.meetAt s p pa va acq d x r i = s.refuse ⟨cPool, (u.meeting pa).buffer⟩ := by
  simp only [State.meetAt, hgood, h, hclose, Bool.false_eq_true, if_false, beq_self_eq_true, if_true]

/-! ### What each arrival answers -/

theorem State.meetAt_refuses (h : (u.meeting pa).arrive i r x = (st, m')) (hst : st ≠ sClosed ∧ st ≠ sOk ∧ st ≠ sFolded) :
    Answers (.next (u.meetAt s p pa va acq d x r i)) (s.Wrote d (st ++ (0 : BitVec 40) ++ (u.meeting pa).tag)) := by
  rw [State.meetAt_refused hgood h hst, statusWord_tag]
  exact answers_next (s.wrote_result d _)

section
variable (hw : s.Written u)
include hw

/-- An arrival or a fold without acquire writes its record and nothing else. -/
theorem State.meetAt_records (hdev : inDevice pa 64 = true) (h : (u.meeting pa).arrive i r x = (st, m')) (hst : st = sOk ∨ st = sFolded) :
    Answers (.next (u.meetAt s p pa va false d x r i)) fun t => s.Gave d (st ++ (0 : BitVec 40) ++ (u.meeting pa).tag) t ∧
      t.meeting pa = m' ∧ SameOutside pa 64 u t ∧ t.tags = u.tags := by
  rw [State.meetAt_recorded hgood h hst, statusWord_tag]
  exact answers_next ⟨hw.writePhys.gave d _, (State.meeting_congr rfl pa).trans (State.meeting_writePhys hdev m'),
    fun k hk => u.sameOutside_writePhys pa m'.bytes true k (by rwa [Meeting.length_bytes]), State.writePhys_tags ..⟩

/-- With acquire the task suspends, with its status written. -/
theorem State.meetAt_waits {o : Addr} (hr : s.cur.running = some o) (hp : s.partOf s.active = some p)
    (h : (u.meeting pa).arrive i r x = (st, m')) (hst : st = sOk ∨ st = sFolded) :
    Answers (.next (u.meetAt s p pa va true d x r i)) fun t => s.Gave d (st ++ (0 : BitVec 40) ++ (u.meeting pa).tag) t ∧
      t.cur.running = none ∧ t.cur.uie = false := by
  rw [State.meetAt_suspended hgood h hst, statusWord_tag]
  exact answers_next (hw.writePhys.gave_suspended hr hp d _ stWaiting 4 va _ d)

/-- The arrival that closes the round lets its task go on. -/
theorem State.meetAt_closes (h : (u.meeting pa).arrive i r x = (sClosed, m')) (hpub : u.publish p m' = some (v, ok)) :
    Answers (.next (u.meetAt s p pa va acq d x r i)) fun t =>
      s.Gave d (sClosed ++ (0 : BitVec 40) ++ (u.meeting pa).tag) t ∧ t.cur.running = s.cur.running := by
  rw [State.meetAt_closed hgood h (State.closeRound_published hpub), statusWord_tag]
  have hcores : s.SameCores (v.nextRound pa m' ok) := (hw.publish hpub).nextRound
  exact answers_next ⟨hcores.gave d _, hcores.result_running d _⟩

end

/-- A closure that nobody waits for leaves the next round's record and no other write. -/
theorem State.meetAt_closes_alone (h : (u.meeting pa).arrive i r x = (sClosed, m')) (hpub : u.publish p m' = some (v, ok))
    (hnone : (v.writePhys pa (m'.next ok).bytes).waitersAt 4 pa (fun x => x == m'.tag.setWidth 64) = []) :
    u.meetAt s p pa va acq d x r i =
      (v.writePhys pa (m'.next ok).bytes).result d (statusWord sClosed ((u.meeting pa).tag.setWidth 48)) := by
  rw [State.meetAt_closed hgood h (State.closeRound_published hpub), State.nextRound_alone hnone]

theorem State.meetAt_unpublishes (h : (u.meeting pa).arrive i r x = (sClosed, m')) (hpub : u.publish p m' = none) (htrap : s.CanTrap) :
    Answers (.next (u.meetAt s p pa va acq d x r i)) (s.Trapped cPool s.cur.pc (u.meeting pa).buffer) := by
  rw [State.meetAt_unpublished hgood h (State.closeRound_unpublished hpub)]
  exact answers_next (s.trapped_faultNow _ _ htrap)

end
end

section
variable {sfx : SyncSfx} {d a b : BitVec 5}

theorem execMeet_handler (hacq : acquires sfx.order = true) (hin : s.cur.inHandler = true) :
    execMeet sfx d a b s = .next (s.illegal (.meet sfx d a b)) := by
  rw [execMeet, hacq, hin]
  rfl

section
variable (hin : acquires sfx.order = true → s.cur.inHandler = false)
  (hreach : s.reach (((s.g a).extractLsb' 6 42 ++ (0 : BitVec 6) : Addr).setWidth 64) 64 .store = .ok (pa, u))
  (hp : s.partOf s.active = some p) (hclean : u.poisoned pa 64 = false)
include hin hreach hp hclean

/-- MEET at a block that its address reaches (R105, R227). -/
theorem execMeet_at : execMeet sfx d a b s = .next (if !u.tagged pa then s.result d (statusWord sNotLive 0)
    else u.meetAt s p pa ((s.g a).extractLsb' 6 42 ++ (0 : BitVec 6)) (acquires sfx.order) d (s.g b) ((s.g a).extractLsb' 48 16)
      ((s.g a).extractLsb' 0 6)) := by
  have hacq : (acquires sfx.order && s.cur.inHandler) = false := by
    cases h : acquires sfx.order
    · rfl
    · exact hin h
  have hreach' : s.reach (zext ((s.g a).extractLsb' 6 42 ++ (0 : BitVec 6) : Addr)) 64 .store = .ok (pa, u) := hreach
  rw [execMeet]
  simp only [hacq, hreach', hp, hclean, Bool.false_eq_true, if_false]
  split <;> rfl

theorem execMeet_plain (htag : u.tagged pa = false) : execMeet sfx d a b s = .next (s.result d (statusWord sNotLive 0)) := by
  rw [execMeet_at hin hreach hp hclean, htag]
  rfl

theorem execMeet_live (htag : u.tagged pa = true) : execMeet sfx d a b s =
    .next (u.meetAt s p pa ((s.g a).extractLsb' 6 42 ++ (0 : BitVec 6)) (acquires sfx.order) d (s.g b) ((s.g a).extractLsb' 48 16)
      ((s.g a).extractLsb' 0 6)) := by
  rw [execMeet_at hin hreach hp hclean, htag]
  rfl

end
end
end

end Sys2Proof.Machine
end

section
open Sys2Proof Sys2Proof.Machine

/-- Settles O38: by what an arrival comes to, the written record read back, and the closure by whether the value could be published. -/
theorem Sys2Proof.meetResults : Obligations.MeetResults := by
  intro s u sfx d a b p pa va m i lag status acq
  have hexec : exec (.meet sfx d a b) s = execMeet sfx d a b s := rfl
  rw [hexec]
  refine ⟨fun hacq hin htrap => ?_, fun hin hreach hp hclean => ?_⟩
  · rw [execMeet_handler hacq hin]
    exact answers_next (s.trapped_faultNow _ _ htrap)
  have hw := State.written_reach hreach
  refine ⟨fun htag => ?_, fun htag hbad => ?_, fun htag hdev hgood => ?_⟩
  · rw [execMeet_plain hin hreach hp hclean htag]
    exact answers_next (s.wrote_result d _)
  · rw [execMeet_live hin hreach hp hclean htag, State.meetAt_bad hbad, statusWord_tag]
    exact answers_next (s.wrote_result d _)
  rw [execMeet_live hin hreach hp hclean htag]
  have hacq : acquires sfx.order = acq := rfl
  rw [hacq]
  have hjoin (hi : m.members.getLsbD i = true) (hlag : lag = 0) (ha : m.arrived.getLsbD i = false) (hq : m.count + 1 < m.quorum) :
      m.arrive ((s.g a).extractLsb' 0 6) ((s.g a).extractLsb' 48 16) (s.g b) = (sOk, m.joined ((s.g a).extractLsb' 0 6) (s.g b)) := by
    rw [m.arrive_open hi hlag ha, if_neg (by omega)]
  have hfold (hi : m.members.getLsbD i = true) (hlag : lag < 0) (hlim : (-lag).toNat ≤ m.limit i) :
      m.arrive ((s.g a).extractLsb' 0 6) ((s.g a).extractLsb' 48 16) (s.g b) = (sFolded, m.take (-lag).toNat (s.g b)) :=
    (m.arrive_late hi hlag).trans (if_pos hlim)
  refine ⟨fun hi => ?_, fun hi hlag => ?_, fun hi hlag ha => ?_, fun hi hlag hlim => ?_, fun hplain hi hlag ha hq => ?_,
    fun hi hlag ha hq => ?_, fun hplain hi hlag hlim => ?_, fun r hwait hr hi => ⟨fun hlag ha hq => ?_, fun hlag hlim => ?_⟩⟩
  · exact State.meetAt_refuses hgood (m.arrive_notMember hi) (by decide)
  · exact State.meetAt_refuses hgood (m.arrive_ahead hi hlag) (by decide)
  · exact State.meetAt_refuses hgood (m.arrive_dup hi hlag ha) (by decide)
  · exact State.meetAt_refuses hgood ((m.arrive_late hi hlag).trans (if_neg (Nat.not_le.2 hlim))) (by decide)
  · obtain ⟨t, ht, hgave, hread, hsame⟩ := State.meetAt_records (va := va) hgood hw hdev (hjoin hi hlag ha hq) (.inl rfl)
    rw [hplain]
    refine ⟨t, ht, hgave, ?_⟩
    rw [hread, Meeting.joined_arrived, Meeting.joined_combine, Meeting.joined_tag]
    exact ⟨Meeting.count_withCount _ (hq.trans m.quorum_lt), rfl, rfl, rfl, hsame⟩
  · have hclosed : m.arrive ((s.g a).extractLsb' 0 6) ((s.g a).extractLsb' 48 16) (s.g b) =
        (sClosed, m.joined ((s.g a).extractLsb' 0 6) (s.g b)) := by
      rw [m.arrive_open hi hlag ha, if_pos hq]
    have hread (w : State) (m' : Meeting) (x : DWord) : ((w.writePhys pa m'.bytes).result d x).meeting pa = m' :=
      (State.meeting_congr (State.result_mem ..) pa).trans (State.meeting_writePhys hdev m')
    rw [hclosed]
    refine ⟨fun hpub htrap => State.meetAt_unpublishes hgood hclosed hpub htrap, fun w ok hpub => ?_,
      fun at_ u2 hop hres hhost hplain hbad hdev8 happart => ?_⟩
    · refine ⟨State.meetAt_closes hgood hw hclosed hpub, fun hnone => ?_⟩
      rw [State.meetAt_closes_alone hgood hclosed hpub (by rw [Meeting.joined_tag]; exact hnone)]
      refine answers_next ⟨State.result_mem .., ?_⟩
      rw [hread, Meeting.next_tag, Meeting.next_arrived, Meeting.next_count, Meeting.next_combine, Meeting.next_members,
        Meeting.next_berr, Meeting.joined_tag, Meeting.joined_op, Meeting.joined_members, Meeting.joined_berr]
      exact ⟨rfl, rfl, rfl, rfl, rfl, rfl⟩
    · have hcombine : (m.joined ((s.g a).extractLsb' 0 6) (s.g b)).combine = (meetCombine m.op m.shift 0 m.combine (s.g b)).1 :=
        m.joined_combine
      exact hcombine ▸ State.publish_reads (by rwa [Meeting.joined_op]) (by rwa [Meeting.joined_buffer]) hhost hplain hbad hdev8 happart
  · obtain ⟨t, ht, hgave, hread, hsame, -⟩ := State.meetAt_records (va := va) hgood hw hdev (hfold hi hlag hlim) (.inr rfl)
    rw [hplain]
    refine ⟨t, ht, hgave, ?_⟩
    rw [hread, Meeting.take_count, Meeting.take_arrived]
    exact ⟨rfl, rfl, hsame⟩
  · rw [hwait]
    exact State.meetAt_waits hgood hw hr hp (hjoin hi hlag ha hq) (.inl rfl)
  · rw [hwait]
    exact State.meetAt_waits hgood hw hr hp (hfold hi hlag hlim) (.inr rfl)

end

section
/-! PROOF. QPOP, QPOP.NB, QPUSH and QCLOSE (R239, R240, R382, R417). -/

namespace Sys2Proof.Machine

section
variable {s t u v : State} {p : PartId} {pa : Nat}

/-! ### Queue descriptors as they stand in memory -/

theorem inDevice_mono {m n : Nat} (hle : m ≤ n) (h : inDevice pa n = true) : inDevice pa m = true := by
  simp only [inDevice, decide_eq_true_eq] at *
  omega

theorem State.putQueue_eq (s : State) (pa : Nat) (q : Queue) :
    s.putQueue pa q = s.writePhys pa (wordBytes [q.base, q.ctl, q.head, q.tail, q.first, q.last] ++ []) := by
  simp [State.putQueue, wordBytes, List.append_assoc]

/-- A descriptor reads back as it was written. -/
theorem State.queueAt_putQueue (h : inDevice pa 64 = true) (q : Queue) : (s.putQueue pa q).queueAt pa = q := by
  have hdev : inDevice pa (wordBytes [q.base, q.ctl, q.head, q.tail, q.first, q.last] ++ []).length = true :=
    inDevice_mono (m := 48) (by decide) h
  have hword (i : Nat) (w : DWord) (hi : [q.base, q.ctl, q.head, q.tail, q.first, q.last][i]? = some w) :
      (s.putQueue pa q).read64 (pa + 8 * i) = w := by
    rw [s.putQueue_eq]
    exact State.read64_writePhys hdev hi
  rw [State.queueAt, hword 1 q.ctl rfl, hword 2 q.head rfl, hword 3 q.tail rfl, hword 4 q.first rfl, hword 5 q.last rfl]
  exact congrArg (Queue.mk · q.ctl q.head q.tail q.first q.last) (hword 0 q.base rfl)

theorem State.queueAt_congr (h : t.mem = s.mem) (pa : Nat) : t.queueAt pa = s.queueAt pa := by
  unfold State.queueAt State.read64 State.readPhys
  rw [h]

theorem State.sameOutside_putQueue (s : State) (pa : Nat) (q : Queue) : SameOutside pa 64 s (s.putQueue pa q) := by
  intro k hk
  rw [s.putQueue_eq]
  refine s.sameOutside_writePhys pa _ true k ?_
  rw [List.append_nil, length_wordBytes]
  show ¬(pa ≤ k ∧ k < pa + 48)
  omega

theorem State.Written.putQueue {q : Queue} (h : s.Written t) : s.Written (t.putQueue pa q) := h.writePhys

/-- What an instruction answers that writes a descriptor and gives a result. -/
theorem State.Written.answers_put (h : s.Written t) (hdev : inDevice pa 64 = true) (d : BitVec 5) (x : DWord) (q : Queue) :
    Answers (.next ((t.putQueue pa q).result d x)) fun w => s.Gave d x w ∧ w.queueAt pa = q ∧ SameOutside pa 64 t w :=
  answers_next ⟨h.putQueue.gave d x, (State.queueAt_congr (State.result_mem ..) pa).trans (State.queueAt_putQueue hdev q),
    t.sameOutside_putQueue pa q⟩

theorem State.SameCores.answers_result (h : s.SameCores t) (d : BitVec 5) (x : DWord) :
    Answers (.next (t.result d x)) fun w => s.Gave d x w ∧ w.mem = t.mem ∧ w.teams = t.teams :=
  answers_next ⟨h.gave d x, rfl, rfl⟩

/-! ### Words of 48 bits -/

theorem and_low48 (x : DWord) : x &&& 0x0000FFFFFFFFFFFF = zext (x.extractLsb' 0 48) := by
  have hmask : (0x0000FFFFFFFFFFFF : DWord).toNat = 2 ^ 48 - 1 := rfl
  apply BitVec.eq_of_toNat_eq
  rw [zext, BitVec.toNat_setWidth_of_le (by decide), BitVec.toNat_and, hmask, Nat.and_two_pow_sub_one_eq_mod,
    BitVec.extractLsb'_toNat, Nat.shiftRight_zero]

/-- A status OK with what it reports is that word. -/
theorem statusWord_ok (x : BitVec 48) : statusWord sOk x = zext x := by
  apply BitVec.eq_of_toNat_eq
  rw [statusWord, zext, BitVec.toNat_setWidth_of_le (by decide), BitVec.toNat_append, BitVec.toNat_append]
  simp [sOk]

theorem statusWord_ofNat (e : Nat) : statusWord sOk (BitVec.ofNat 48 e) = BitVec.ofNat 64 (e % 2 ^ 48) := by
  apply BitVec.eq_of_toNat_eq
  rw [statusWord_ok, zext, BitVec.toNat_setWidth_of_le (by decide), BitVec.toNat_ofNat, BitVec.toNat_ofNat,
    Nat.mod_eq_of_lt (a := e % 2 ^ 48) (by omega)]

theorem extractLsb'_low (x : DWord) : x.extractLsb' 0 48 = x.setWidth 48 := (BitVec.setWidth_eq_extractLsb' (by decide)).symm

/-! ### Waiters -/

theorem State.SameCores.wakeQueue {n : Nat} {q : Queue} (h : s.SameCores t) : s.SameCores (t.wakeQueue p n q).1 := by
  induction n generalizing t q with
  | zero => exact h
  | succ n ih =>
    unfold State.wakeQueue
    split
    · exact h
    · exact ih h.wake

/-- Waking the waiters leaves the descriptor's control word. -/
theorem State.wakeQueue_ctl (n : Nat) (q : Queue) : (s.wakeQueue p n q).2.ctl = q.ctl := by
  induction n generalizing s q with
  | zero => rfl
  | succ n ih =>
    unfold State.wakeQueue
    split
    · rfl
    · exact ih _

/-- A queue with no more entries to come. -/
def Queue.close (q : Queue) : Queue := { q with ctl := q.ctl ||| 0x100 }

theorem Queue.close_eq (q : Queue) : q.close = ⟨q.base, q.ctl ||| 0x100, q.head, q.tail, q.first, q.last⟩ := rfl

@[simp] theorem Queue.close_closed (q : Queue) : q.close.closed = true := by
  simp [Queue.close, Queue.closed]

@[simp] theorem Queue.close_used (q : Queue) : q.close.used = q.used := by
  unfold Queue.used
  rfl

/-- The device with a task put at the tail of a queue's list. -/
def State.queued (s : State) (p : PartId) (pa : Nat) (q : Queue) (r : Addr) : State :=
  if q.first = 0 then s.putQueue pa { q with first := zext r, last := zext r }
  else (s.setRecWord p (q.last.setWidth 48) 4 (zext r)).putQueue pa { q with last := zext r }

theorem State.Written.queued (h : s.Written t) (p : PartId) (pa : Nat) (q : Queue) (r : Addr) : s.Written (t.queued p pa q r) :=
  h.putQueue.ite h.setRecWord.putQueue

theorem State.queueAt_queued (h : inDevice pa 64 = true) (q : Queue) (r : Addr) : ((s.queued p pa q r).queueAt pa).last = zext r ∧
    ((s.queued p pa q r).queueAt pa).first = if q.first = 0 then zext r else q.first := by
  unfold State.queued
  split <;> simp [State.queueAt_putQueue h]

theorem State.popWaiter_first (q : Queue) :
    (s.popWaiter p q).first = zext ((s.recWord p (q.first.setWidth 48) 4).extractLsb' 0 48) := by
  rw [← extractLsb'_low]
  rfl

/-- A queue whose first waiter has taken the entry of a push. -/
def State.servedQueue (s : State) (p : PartId) (q : Queue) : Queue :=
  { s.popWaiter p q with head := q.head + 1, tail := q.tail + 1 }

theorem State.servedQueue_first (q : Queue) :
    (s.servedQueue p q).first = zext ((s.recWord p (q.first.setWidth 48) 4).extractLsb' 0 48) := by
  rw [← State.popWaiter_first]
  rfl

theorem State.servedQueue_used (q : Queue) : (s.servedQueue p q).used = q.used := by
  have hused : q.tail + 1 - (q.head + 1) = q.tail - q.head := add_sub_add_right_eq_sub ..
  exact congrArg BitVec.toNat hused

/-- What closing an empty queue answers, once its waiters are awake. -/
theorem State.answers_closed (h : s.Written u) (hdev : inDevice pa 64 = true) (d : BitVec 5) (n : Nat) (q : Queue) :
    let v := u.wakeQueue p n q.close
    Answers (.next ((v.1.putQueue pa v.2).result d (statusWord sOk 0))) fun t => s.Gave d 0 t ∧ (t.queueAt pa).closed = true ∧
      (t.queueAt pa).first = v.2.first ∧ t.mem = (v.1.putQueue pa v.2).mem ∧ t.teams = v.1.teams := by
  intro v
  have hcores : s.SameCores (v.1.putQueue pa v.2) := h.cores.wakeQueue.written (State.Written.refl v.1).putQueue
  have hclosed : v.2.closed = true := by
    rw [Queue.closed, State.wakeQueue_ctl]
    exact q.close_closed
  have hread : ((v.1.putQueue pa v.2).result d (statusWord sOk 0)).queueAt pa = v.2 :=
    (State.queueAt_congr (State.result_mem ..) pa).trans (State.queueAt_putQueue hdev v.2)
  have hteams : (v.1.putQueue pa v.2).teams = v.1.teams := (State.Written.refl v.1).putQueue.rota.teams
  refine answers_next ⟨hcores.gave d _, ?_⟩
  rw [hread]
  exact ⟨hclosed, rfl, State.result_mem .., hteams⟩

theorem State.Written.storeAt {va : DWord} {n at_ : Nat} (h : s.Written t) (hat : t.storeAt va n = .ok (at_, u)) : s.Written u := by
  unfold State.storeAt at hat
  split at hat
  · cases hat
  · rename_i hreach
    split at hat
    · cases hat
    · cases hat
      exact h.trans (State.written_reach hreach)

/-! ### The instructions -/

section
variable {d a b : BitVec 5} {q : Queue} {nb : Bool} (hq : s.queueCheck (s.g a) = .ok (pa, u)) (hp : s.partOf s.active = some p)
include hq hp

section
variable (hbad : u.queueBad pa (u.queueAt pa) = true)
include hbad

theorem State.qpop_bad : s.qpop nb d a = s.result d (statusWord sBadRec 0) := by
  simp [State.qpop, hq, hp, hbad]

theorem execQpush_bad : execQpush d a b s = .next (s.result d (statusWord sBadRec 0)) := by
  simp [execQpush, hq, hp, hbad]

theorem execQclose_bad : execQclose d a s = .next (s.result d (statusWord sBadRec 0)) := by
  simp [execQclose, hq, hp, hbad]
end

section
variable (hgood : u.queueBad pa (u.queueAt pa) = false)
include hgood

theorem State.qpop_entry {e from_ : Nat} (hused : 0 < (u.queueAt pa).used)
    (he : u.loadDev ((u.queueAt pa).entry (u.queueAt pa).head) 8 = .ok (e, from_)) :
    s.qpop nb d a = (u.putQueue pa { u.queueAt pa with head := (u.queueAt pa).head + 1 }).result d (statusWord sOk (BitVec.ofNat 48 e)) := by
  simp [State.qpop, hq, hp, hgood, hused, he]

section
variable (hempty : (u.queueAt pa).used = 0)
include hempty

theorem State.qpop_closed (hclosed : (u.queueAt pa).closed = true) : s.qpop nb d a = s.result d (statusWord sTerm 0) := by
  simp [State.qpop, hq, hp, hgood, hempty, hclosed]

theorem State.qpopNb_empty (hopen : (u.queueAt pa).closed = false) : s.qpop true d a = s.result d (statusWord sEmpty 0) := by
  simp [State.qpop, hq, hp, hgood, hempty, hopen]

theorem State.qpop_waits {r : Addr} (hopen : (u.queueAt pa).closed = false) (hr : s.cur.running = some r) :
    s.qpop false d a = (u.queued p pa (u.queueAt pa) r).suspendNext stWaiting 5 ((s.g a).setWidth 48) 0 d := by
  simp [State.qpop, hq, hp, hgood, hempty, hopen, hr, State.queued, extractLsb'_low]

end

theorem execQpush_closed (hclosed : (u.queueAt pa).closed = true) : execQpush d a b s = .next (s.result d (statusWord sQClosed 0)) := by
  simp [execQpush, hq, hp, hgood, hclosed]

section
variable (hopen : (u.queueAt pa).closed = false)
include hopen

theorem execQpush_full (hfirst : (u.queueAt pa).first = 0) (hfull : (u.queueAt pa).used = (u.queueAt pa).capacity) :
    execQpush d a b s = .next (s.result d (statusWord sFull 0)) := by
  simp [execQpush, hq, hp, hgood, hopen, hfirst, State.badWaiter, hfull]

theorem execQpush_stored {at_ : Nat} (hfirst : (u.queueAt pa).first = 0) (hroom : (u.queueAt pa).used < (u.queueAt pa).capacity)
    (hat : u.storeAt ((u.queueAt pa).entry (u.queueAt pa).tail) 8 = .ok (at_, v)) :
    execQpush d a b s = .next (if isHost at_ then s.refuse ⟨cProtect, (u.queueAt pa).entry (u.queueAt pa).tail⟩
      else ((v.putPhys at_ 8 ((s.g b).setWidth 48).toNat).putQueue pa { u.queueAt pa with tail := (u.queueAt pa).tail + 1 }).result d
        (statusWord sOk 0)) := by
  simp [execQpush, hq, hp, hgood, hopen, hfirst, State.badWaiter, hroom.ne, hat, extractLsb'_low]
  split <;> rfl

theorem execQpush_poisoned {r : DWord} (hbad : u.badWaiter p 1 (u.queueAt pa).first = some r) :
    execQpush d a b s = .next (s.faultNow cPoison r) := by
  simp [execQpush, hq, hp, hgood, hopen, hbad]

theorem execQpush_served (hfirst : (u.queueAt pa).first ≠ 0) (hclean : u.badWaiter p 1 (u.queueAt pa).first = none) :
    execQpush d a b s = .next (((u.putQueue pa (u.servedQueue p (u.queueAt pa))).wake p ((u.queueAt pa).first.setWidth 48)
      (some (statusWord sOk ((s.g b).extractLsb' 0 48)))).result d (statusWord sOk 0)) := by
  have hfirst' : ((u.queueAt pa).first != 0) = true := bne_iff_ne.2 hfirst
  simp only [execQpush, hq, hp, hgood, hopen, hclean, hfirst', State.servedQueue, extractLsb'_low, Bool.false_eq_true, if_false, if_true]

end

theorem execQclose_closed (hclosed : (u.queueAt pa).closed = true) : execQclose d a s = .next (s.result d (statusWord sOk 0)) := by
  simp [execQclose, hq, hp, hgood, hclosed]

section
variable (hopen : (u.queueAt pa).closed = false)
include hopen

theorem execQclose_used (hused : 0 < (u.queueAt pa).used) :
    execQclose d a s = .next ((u.putQueue pa (u.queueAt pa).close).result d (statusWord sOk 0)) := by
  generalize hat : u.queueAt pa = q at *
  have hne : q.close.used ≠ 0 := q.close_used ▸ hused.ne'
  simp only [execQclose, hq, hp, hat, hgood, hopen, ← Queue.close_eq, hne, Bool.false_eq_true, if_false]

section
variable (hempty : (u.queueAt pa).used = 0)
include hempty

theorem execQclose_poisoned {r : DWord}
    (hbad : u.badWaiter p (u.teams.foldl (fun n t => n + t.tasks.length) 0) (u.queueAt pa).first = some r) :
    execQclose d a s = .next (s.faultNow cPoison r) := by
  generalize hat : u.queueAt pa = q at *
  have he : q.close.used = 0 := q.close_used.trans hempty
  simp only [execQclose, hq, hp, hat, hgood, hopen, ← Queue.close_eq, he, hbad, Bool.false_eq_true, if_false, if_true]

theorem execQclose_empty (hclean : u.badWaiter p (u.teams.foldl (fun n t => n + t.tasks.length) 0) (u.queueAt pa).first = none) :
    execQclose d a s =
      let v := u.wakeQueue p (u.teams.foldl (fun n t => n + t.tasks.length) 0) (u.queueAt pa).close
      .next ((v.1.putQueue pa v.2).result d (statusWord sOk 0)) := by
  generalize hat : u.queueAt pa = q at *
  have he : q.close.used = 0 := q.close_used.trans hempty
  simp only [execQclose, hq, hp, hat, hgood, hopen, ← Queue.close_eq, he, hclean, Bool.false_eq_true, if_false, if_true]

end
end
end
end
end

end Sys2Proof.Machine
end

section
open Sys2Proof Sys2Proof.Machine

/-- Settles O40: by the descriptor and its counts, with the written descriptor read back. -/
theorem Sys2Proof.queueResults : Obligations.QueueResults := by
  intro s u d a b p pa q hq hp hin hdev
  have hpop : exec (.qpop d a) s = .next (s.qpop false d a) := if_neg (Bool.eq_false_iff.1 hin)
  have hpopNb : exec (.qpopNb d a) s = .next (s.qpop true d a) := rfl
  have hpush : exec (.qpush d a b) s = execQpush d a b s := rfl
  have hclose : exec (.qclose d a) s = execQclose d a s := rfl
  have hw := State.written_queueCheck hq
  rw [hpop, hpopNb, hpush, hclose]
  have wrote (x : DWord) : Answers (.next (s.result d x)) (s.Wrote d x) := answers_next (s.wrote_result d x)
  refine ⟨fun hbad => ?_, fun hgood => ⟨fun e from_ hused he => ?_, fun hempty hclosed => ?_, fun hempty hopen => ?_,
    fun hclosed => ?_, fun hopen hfirst hfull => ?_, fun at_ v hopen hfirst hroom hat => ⟨fun hhost htrap => ?_, fun hhost => ?_⟩,
    fun r hr hempty hopen => ?_, fun hopen hfirst => ⟨fun r hbad htrap => ?_, fun hclean => ?_⟩, fun hclosed => ?_,
    fun hopen hused => ?_, fun hopen hempty => ⟨fun r hbad htrap => ?_, fun hclean => ?_⟩⟩⟩
  · rw [State.qpop_bad hq hp hbad, State.qpop_bad hq hp hbad, execQpush_bad hq hp hbad, execQclose_bad hq hp hbad]
    exact ⟨wrote _, wrote _, wrote _, wrote _⟩
  · rw [State.qpop_entry hq hp hgood hused he, State.qpop_entry hq hp hgood hused he, statusWord_ofNat, and_self]
    obtain ⟨t, ht, hgave, hread, hsame⟩ := hw.answers_put hdev d (BitVec.ofNat 64 (e % 2 ^ 48)) { q with head := q.head + 1 }
    refine ⟨t, ht, hgave, ?_⟩
    rw [hread]
    exact ⟨rfl, rfl, hsame⟩
  · rw [State.qpop_closed hq hp hgood hempty hclosed, State.qpop_closed hq hp hgood hempty hclosed]
    exact ⟨wrote _, wrote _⟩
  · rw [State.qpopNb_empty hq hp hgood hempty hopen]
    exact wrote _
  · rw [execQpush_closed hq hp hgood hclosed]
    exact wrote _
  · rw [execQpush_full hq hp hgood hopen hfirst hfull]
    exact wrote _
  · rw [execQpush_stored hq hp hgood hopen hfirst hroom hat, if_pos hhost]
    exact answers_next (s.trapped_faultNow _ _ htrap)
  · rw [execQpush_stored hq hp hgood hopen hfirst hroom hat, if_neg (Bool.eq_false_iff.1 hhost), BitVec.toNat_setWidth]
    have hv : s.Written (v.putPhys at_ 8 ((s.g b).toNat % 2 ^ 48)) := (hw.storeAt hat).putPhys
    obtain ⟨t, ht, hgave, hread, hsame⟩ := hv.answers_put hdev d (statusWord sOk 0) { q with tail := q.tail + 1 }
    refine ⟨t, ht, hgave, ?_⟩
    rw [hread]
    exact ⟨rfl, rfl, hsame⟩
  · obtain ⟨hlast, hfirst⟩ := State.queueAt_queued (s := u) (p := p) hdev q r
    refine ⟨hlast, hfirst, ?_⟩
    rw [State.qpop_waits hq hp hgood hempty hopen hr]
    exact answers_next ⟨((hw.queued p pa q r).suspend_slept hr hp ..).advance, rfl⟩
  · rw [execQpush_poisoned hq hp hgood hopen hbad]
    exact answers_next (s.trapped_faultNow _ _ htrap)
  · intro v w
    have hread : v.queueAt pa = u.servedQueue p q := State.queueAt_putQueue hdev _
    have hstate : w = (u.putQueue pa (u.servedQueue p q)).wake p (q.first.setWidth 48)
        (some (statusWord sOk ((s.g b).extractLsb' 0 48))) := by
      rw [statusWord_ok, ← and_low48]
      rfl
    rw [hread, execQpush_served hq hp hgood hopen hfirst hclean, State.servedQueue_first, State.servedQueue_used, hstate, and_low48]
    exact ⟨rfl, rfl, hw.putQueue.cores.wake.answers_result d 0⟩
  · rw [execQclose_closed hq hp hgood hclosed]
    exact wrote _
  · rw [execQclose_used hq hp hgood hopen hused]
    obtain ⟨t, ht, hgave, hread, hsame⟩ := hw.answers_put hdev d (statusWord sOk 0) q.close
    refine ⟨t, ht, hgave, ?_⟩
    rw [hread]
    exact ⟨q.close_closed, hsame⟩
  · rw [execQclose_poisoned hq hp hgood hopen hempty hbad]
    exact answers_next (s.trapped_faultNow _ _ htrap)
  · rw [execQclose_empty hq hp hgood hopen hempty hclean]
    exact State.answers_closed hw hdev d _ q

end

section
/-! PROOF. SNAP (R235, R274). -/

namespace Sys2Proof.Machine

section
variable {s t : State} {p : PartId}

/-! ### One word that the device writes for itself -/

section
variable {a b : Nat} {x : DWord} {bs : List Byte}

@[simp] theorem State.writeOwn_tags (s : State) (a : Nat) (bs : List Byte) : (s.writeOwn a bs).tags = s.tags := by
  unfold State.writeOwn
  split <;> simp

@[simp] theorem State.writeOwn_poison (s : State) (a : Nat) (bs : List Byte) : (s.writeOwn a bs).poison = s.poison := by
  unfold State.writeOwn
  split <;> simp

@[simp] theorem State.writeOwn_parts (s : State) (a : Nat) (bs : List Byte) : (s.writeOwn a bs).parts = s.parts := by
  unfold State.writeOwn
  split <;> simp

theorem State.tagged_congr (h : t.tags = s.tags) (a : Nat) : t.tagged a = s.tagged a := by
  unfold State.tagged
  rw [h]

theorem State.poisoned_congr (h : t.poison = s.poison) (a n : Nat) : t.poisoned a n = s.poisoned a n := by
  unfold State.poisoned
  rw [h]

theorem State.sameOutside_writeOwn (s : State) (a : Nat) (bs : List Byte) : SameOutside a bs.length s (s.writeOwn a bs) := by
  unfold State.writeOwn
  split
  · exact fun _ _ => rfl
  · exact s.sameOutside_writePhys a bs true

/-- A word apart from the bytes that have changed. -/
theorem State.read64_apart {n : Nat} (h : SameOutside a n s t) (hb : b + 8 ≤ a ∨ a + n ≤ b) : t.read64 b = s.read64 b := by
  have hread : t.mem.read b 8 = s.mem.read b 8 := Memory.read_congr fun i hi => h _ (by omega)
  rw [State.read64, State.readPhys, Memory.readNat, hread]
  rfl

/-- A live block takes no write of the device's own. -/
theorem State.read64_writeOwn (h : inDevice a 8 = true) :
    (s.writeOwn a (bytesLE 8 x.toNat)).read64 a = if s.tagged a then s.read64 a else x := by
  unfold State.writeOwn
  split
  · rfl
  · exact State.read64_putPhys h

end

/-! ### An overlay entry marked shared -/

/-- A present overlay entry that is not shared yet gets shared; one that holds poison stays (R274, log 65). -/
def State.markShared (s : State) (a : Nat) : State :=
  if (s.read64 a).getLsbD 0 && !(s.read64 a).getLsbD 1 && !s.poisoned a 8 then s.writeOwn a (bytesLE 8 (s.read64 a ||| 2).toNat) else s

/-- The word of an overlay entry after it. -/
def State.sharedWord (s : State) (a : Nat) : DWord :=
  if (s.read64 a).getLsbD 0 && !s.tagged a && !s.poisoned a 8 then s.read64 a ||| 2 else s.read64 a

theorem or_two_of_set {x : DWord} (h : x.getLsbD 1 = true) : x ||| 2 = x := by
  have htwo : (2 : DWord) = BitVec.twoPow 64 1 := rfl
  rw [htwo]
  ext i hi
  by_cases hi1 : i = 1
  · subst hi1
    simpa [BitVec.getLsbD_eq_getElem] using h
  · simp [BitVec.getElem_twoPow, hi1]

section
variable (s) (a : Nat)

theorem State.markShared_read (h : inDevice a 8 = true) : (s.markShared a).read64 a = s.sharedWord a := by
  unfold State.markShared State.sharedWord
  cases hset : (s.read64 a).getLsbD 1 with
  | true => simp only [or_two_of_set hset, Bool.not_true, Bool.and_false, Bool.false_and, Bool.false_eq_true, if_false, ite_self]
  | false =>
    cases hpresent : (s.read64 a).getLsbD 0 && !s.poisoned a 8 with
    | true =>
      obtain ⟨h₀, hclean⟩ := Bool.and_eq_true_iff.1 hpresent
      simp only [h₀, hclean, Bool.not_false, Bool.and_true, Bool.true_and, if_true]
      rw [State.read64_writeOwn h]
      cases s.tagged a <;> rfl
    | false =>
      simp only [Bool.not_false, Bool.and_true, hpresent, Bool.and_right_comm _ (!s.tagged a), Bool.false_and, Bool.false_eq_true, if_false]

@[simp] theorem State.markShared_tags : (s.markShared a).tags = s.tags := by
  unfold State.markShared
  split <;> simp

@[simp] theorem State.markShared_poison : (s.markShared a).poison = s.poison := by
  unfold State.markShared
  split <;> simp

theorem State.sameOutside_markShared : SameOutside a 8 s (s.markShared a) := by
  unfold State.markShared
  split
  · exact s.sameOutside_writeOwn a (bytesLE 8 (s.read64 a ||| 2).toNat)
  · exact fun _ _ => rfl

/-! ### An overlay table -/

/-- Every entry of an overlay table of `n` entries marked shared. -/
def State.markOverlay (n : Nat) : State := (List.range n).foldl (fun s j => s.markShared (a + 8 * j)) s

theorem State.markOverlay_succ (n : Nat) : s.markOverlay a (n + 1) = (s.markOverlay a n).markShared (a + 8 * n) := by
  unfold State.markOverlay
  rw [List.range_succ, List.foldl_append]
  rfl

@[simp] theorem State.markOverlay_tags (n : Nat) : (s.markOverlay a n).tags = s.tags := by
  induction n with
  | zero => rfl
  | succ n ih => rw [s.markOverlay_succ, State.markShared_tags, ih]

@[simp] theorem State.markOverlay_poison (n : Nat) : (s.markOverlay a n).poison = s.poison := by
  induction n with
  | zero => rfl
  | succ n ih => rw [s.markOverlay_succ, State.markShared_poison, ih]

theorem State.sameOutside_markOverlay (n : Nat) : SameOutside a (8 * n) s (s.markOverlay a n) := by
  induction n with
  | zero => exact fun _ _ => rfl
  | succ n ih =>
    intro k hk
    rw [s.markOverlay_succ, (s.markOverlay a n).sameOutside_markShared (a + 8 * n) k (by omega), ih k (by omega)]

end

/-- What an entry gets depends on its word, its hidden tag and its poison. -/
theorem State.sharedWord_congr {a : Nat} (hread : t.read64 a = s.read64 a) (htags : t.tags = s.tags) (hpoison : t.poison = s.poison) :
    t.sharedWord a = s.sharedWord a := by
  unfold State.sharedWord
  rw [hread, State.tagged_congr htags, State.poisoned_congr hpoison]

/-- Each entry of the table is marked by itself, whatever the others hold. -/
theorem State.markOverlay_read {a n j : Nat} (h : inDevice a (8 * n) = true) (hj : j < n) :
    (s.markOverlay a n).read64 (a + 8 * j) = s.sharedWord (a + 8 * j) := by
  induction n with
  | zero => exact absurd hj (Nat.not_lt_zero j)
  | succ n ih =>
    rw [s.markOverlay_succ]
    by_cases hn : j = n
    · subst hn
      have hdev : inDevice (a + 8 * j) 8 = true := by
        simp only [inDevice, decide_eq_true_eq] at *
        omega
      have hread : (s.markOverlay a j).read64 (a + 8 * j) = s.read64 (a + 8 * j) :=
        State.read64_apart (s.sameOutside_markOverlay a j) (.inr (by omega))
      rw [State.markShared_read _ _ hdev, State.sharedWord_congr hread (s.markOverlay_tags a j) (s.markOverlay_poison a j)]
    · rw [State.read64_apart ((s.markOverlay a n).sameOutside_markShared (a + 8 * n)) (.inl (by omega))]
      exact ih (inDevice_mono (by omega) h) (by omega)

/-! ### A range marked snapped -/

/-- The first word of a range marked with a generation. -/
def snappedWord (g : Byte) (w : DWord) : DWord := (w &&& ~~~(0x00FF000000000000 : DWord)) ||| (zext g <<< 48) ||| (1 <<< 59)

/-- The overlay entries of a range. -/
def RangeEntry.entries (e : RangeEntry) : Nat := if e.ok = true then (e.limit - e.base) / 65536 else 0

section
variable {g : Byte} {i : Nat}

theorem State.snapRange_poisoned (h : s.poisoned ((s.part p).rangeTable + 32 * i) 32 = true) : s.snapRange p g i = s := by
  unfold State.snapRange
  dsimp only
  rw [h]
  rfl

theorem State.snapRange_clean (h : s.poisoned ((s.part p).rangeTable + 32 * i) 32 = false) (halign : (s.rangeEntry p i).overlay % 8 = 0) :
    s.snapRange p g i = (s.writeOwn ((s.part p).rangeTable + 32 * i) (bytesLE 8 (snappedWord g (s.rangeEntry p i).w0).toNat)).markOverlay
      (s.rangeEntry p i).overlay (s.rangeEntry p i).entries := by
  unfold State.snapRange RangeEntry.entries
  dsimp only
  rw [h, halign]
  cases (s.rangeEntry p i).ok <;> rfl

end

/-! ### The command -/

/-- A loop over numbers that acts for one of them alone. -/
theorem foldl_range_single {α : Type} (f : α → Nat → α) (q : Nat → Bool) {i : Nat} (hq : ∀ k, q k = true ↔ k = i) (x : α) (n : Nat) :
    (List.range n).foldl (fun x k => if q k then f x k else x) x = if i < n then f x i else x := by
  induction n with
  | zero => rfl
  | succ n ih =>
    rw [List.range_succ, List.foldl_append, ih]
    by_cases hn : n = i
    · subst hn
      simp [hq]
    · have hlt : i < n + 1 ↔ i < n := by omega
      simp [hlt, hq, hn]

theorem getLsbD_single {i k : Nat} (hi : i < 64) : ((1 <<< i : Nat) : DWord).getLsbD k = true ↔ k = i := by
  rw [shiftLeft_eq_twoPow, BitVec.getLsbD_twoPow]
  simp only [Bool.and_eq_true, decide_eq_true_eq]
  omega

/-- The device after SNAP of one range (R273, R274). -/
def State.snapped (s : State) (p : PartId) (g : Byte) (i : Nat) : State :=
  ((s.snapRange p g i).dropTlb p 0 Config.addrSpace).modPart p fun x => { x with snapStatus := 0 }

@[simp] theorem State.snapped_mem (g : Byte) (i : Nat) : (s.snapped p g i).mem = (s.snapRange p g i).mem := rfl

theorem State.snapped_status (g : Byte) (i : Nat) : ((s.snapped p g i).part p).snapStatus = 0 := by
  unfold State.snapped State.part State.modPart
  rw [Bank.read_modify, if_pos rfl]

/-- No TLB keeps an entry of the partition that serves an address. -/
theorem State.dropTlb_every {c : CoreId} {e : TlbEntry}
    (he : e ∈ ((s.dropTlb p 0 Config.addrSpace).core c).tlb ++ ((s.dropTlb p 0 Config.addrSpace).core c).engTlb) (hp : e.part = p) :
    ¬(e.base < Config.addrSpace ∧ 0 < e.limit) := by
  rw [State.dropTlb, State.core_eachCore, ← List.filter_append, List.mem_filter] at he
  obtain ⟨-, hkeep⟩ := he
  simp [hp] at hkeep
  omega

theorem State.snapped_tlb {g : Byte} {i : Nat} {c : CoreId} {e : TlbEntry}
    (he : e ∈ ((s.snapped p g i).core c).tlb ++ ((s.snapped p g i).core c).engTlb) (hp : e.part = p) :
    ¬(e.base < Config.addrSpace ∧ 0 < e.limit) := by
  have hcore : (s.snapped p g i).core c = ((s.snapRange p g i).dropTlb p 0 Config.addrSpace).core c := rfl
  rw [hcore] at he
  exact State.dropTlb_every he hp

/-- A descriptor that names one range and no page. -/
theorem State.snap_range {c : CoreId} {v : DWord} {i : Nat} {g : Byte} (hp : s.partOf c = some p) (halign : v.toNat % 64 = 0)
    (hdev : inDevice v.toNat 64 = true) (hclean : s.poisoned v.toNat 64 = false) (h0 : s.read64 (v.toNat + 8 * 0) = g.setWidth 64)
    (hi : i < 64) (h1 : s.read64 (v.toNat + 8 * 1) = ((1 <<< i : Nat) : DWord)) (hrest : ∀ j, 2 ≤ j → j < 8 → s.read64 (v.toNat + 8 * j) = 0)
    (htable : (s.part p).rangeTable ≠ 0) : s.snap c v = s.snapped p g i := by
  have hgen : (g.setWidth 64 : DWord).extractLsb' 0 8 = g := by
    rw [← BitVec.setWidth_eq_extractLsb' (by decide), BitVec.setWidth_setWidth_of_le _ (by decide), BitVec.setWidth_eq]
  have hrsv : (g.setWidth 64 : DWord).extractLsb' 8 56 = 0 := by
    ext k hk
    simp
  unfold State.snap
  rw [hp]
  dsimp -zeta only
  extract_lets +onlyGivenNames a w done bad
  have hw (j : Nat) (hlow : 2 ≤ j) (hj : j < 8) : w j = 0 := hrest j hlow hj
  replace h0 : w 0 = g.setWidth 64 := h0
  replace h1 : w 1 = ((1 <<< i : Nat) : DWord) := h1
  have hbad : bad = false := by
    simp only [bad, a]
    rw [halign, hdev, hclean, h0, hrsv, hw 2 (by decide) (by decide), hw 3 (by decide) (by decide), hw 4 (by decide) (by decide),
      hw 5 (by decide) (by decide), hw 6 (by decide) (by decide), hw 7 (by decide) (by decide)]
    rfl
  rw [if_neg (Bool.eq_false_iff.1 hbad), h0, h1, hgen]
  dsimp -zetaDelta only
  rw [if_neg htable, foldl_range_single _ _ (fun k => getLsbD_single hi), if_pos hi,
    hw 2 (by decide) (by decide), hw 3 (by decide) (by decide)]
  rfl

end

end Sys2Proof.Machine
end

section
open Sys2Proof Sys2Proof.Machine

/-- Settles O23: SNAP of one range writes its first word and marks its overlay table, each entry by itself, and drops the translations. -/
theorem Sys2Proof.snapMarksRange : Obligations.SnapMarksRange := by
  intro s c p v i g w table e n hp halign hdev hclean h0 hi h1 h2 h3 h4 h5 h6 h7 htable hdevTable hvalid _ hoverlay hdevOverlay happart
  have hrest (j : Nat) (hlow : 2 ≤ j) (hj : j < 8) : s.read64 (v.toNat + 8 * j) = 0 := by
    have hcases : j = 2 ∨ j = 3 ∨ j = 4 ∨ j = 5 ∨ j = 6 ∨ j = 7 := by omega
    rcases hcases with rfl | rfl | rfl | rfl | rfl | rfl
    · exact h2
    · exact h3
    · exact h4
    · exact h5
    · exact h6
    · exact h7
  have hexec : exec (.snapStart c v) s = .next (s.snapped p g i) :=
    congrArg Host.Outcome.next (State.snap_range hp halign hdev hclean h0 hi h1 hrest htable)
  have hdev8 : inDevice (table + 32 * i) 8 = true := by
    simp only [inDevice, decide_eq_true_eq] at *
    omega
  rw [hexec]
  let u := s.writeOwn (table + 32 * i) (bytesLE 8 (snappedWord g e.w0).toNat)
  have hsnap (hgood : s.poisoned (table + 32 * i) 32 = false) : s.snapRange p g i = u.markOverlay e.overlay n :=
    State.snapRange_clean hgood hoverlay
  have hmem (hgood : s.poisoned (table + 32 * i) 32 = false) : (s.snapped p g i).mem = (u.markOverlay e.overlay n).mem :=
    (s.snapped_mem g i).trans (congrArg State.mem (hsnap hgood))
  have hu : SameOutside (table + 32 * i) 8 s u := by
    simpa only [length_bytesLE] using s.sameOutside_writeOwn (table + 32 * i) (bytesLE 8 (snappedWord g e.w0).toNat)
  have hmarked : SameOutside e.overlay (8 * n) u (u.markOverlay e.overlay n) := u.sameOutside_markOverlay _ _
  refine answers_next ⟨s.snapped_status g i, fun hbad => ?_, fun hgood => ⟨?_, fun j hj => ?_⟩, fun a hword hentries => ?_,
    fun d x hx hpart => State.snapped_tlb hx hpart⟩
  · rw [State.snapped_mem, State.snapRange_poisoned hbad]
  · rw [State.read64_congr (hmem hgood), State.read64_apart hmarked happart.symm, State.read64_writeOwn hdev8]
    rfl
  · intro a o
    have hplain : u.read64 a = s.read64 a := State.read64_apart hu (by omega)
    rw [State.read64_congr (hmem hgood), State.markOverlay_read hdevOverlay hj]
    exact State.sharedWord_congr hplain (s.writeOwn_tags ..) (s.writeOwn_poison ..)
  · rw [State.snapped_mem]
    cases hbad : s.poisoned (table + 32 * i) 32 with
    | true => rw [State.snapRange_poisoned hbad]
    | false => rw [hsnap hbad, hmarked a hentries, hu a hword]

end

section
/-! PROOF. The Host Link (R235, R244, R248, R385, R415 to R422). -/

namespace Sys2Proof.Machine

section
variable {s t : State}

/-! ### What comes over the link -/

theorem State.fromHost_inService {act : State → State} (h : (s.linkOf .host).retired = false) : s.fromHost act = .next (act s) :=
  congrArg Host.Outcome.next (if_neg (Bool.eq_false_iff.1 h))

/-! ### Reads and writes through a window -/

section
variable {off v : DWord} {len pa : Nat} {bytes : List Byte} {p : PartId} {n : BitVec 5} (hlink : (s.linkOf .host).retired = false)
include hlink

theorem exec_hostMemoryRead_memory (hat : s.hostTarget off len false = .memory pa) :
    exec (.hostMemoryRead off len) s = .next (s.answerHost off (s.mem.read pa len) (s.poisoned pa len)) := by
  have hexec : exec (.hostMemoryRead off len) s = execHostMemoryRead off len s := rfl
  rw [hexec, execHostMemoryRead, State.fromHost_inService hlink, hat]
  rfl

theorem exec_hostMemoryRead_nothing (hat : s.hostTarget off len false = .nothing) :
    exec (.hostMemoryRead off len) s = .next ((s.hostRefused off 1).answerHost off (List.replicate len 0xFF)) := by
  have hexec : exec (.hostMemoryRead off len) s = execHostMemoryRead off len s := rfl
  rw [hexec, execHostMemoryRead, State.fromHost_inService hlink, hat]

theorem exec_hostMemoryWrite_memory (hat : s.hostTarget off bytes.length true = .memory pa) :
    exec (.hostMemoryWrite off bytes) s = .next (s.hostWrite (blocksOf pa bytes.length) pa bytes) := by
  have hexec : exec (.hostMemoryWrite off bytes) s = execHostMemoryWrite off bytes s := rfl
  rw [hexec, execHostMemoryWrite, State.fromHost_inService hlink, hat]

theorem exec_hostDoorbell : exec (.hostDoorbell p v) s = .next (s.ringDoor p v) :=
  congrArg Host.Outcome.next (if_neg (Bool.eq_false_iff.1 hlink))
theorem exec_hostIstatClear : exec (.hostIstatClear v) s = .next (s.clearIstat v) :=
  congrArg Host.Outcome.next (if_neg (Bool.eq_false_iff.1 hlink))
theorem exec_hostPmapWrite : exec (.hostPmapWrite n v) s = .next (s.hostPmap n v) :=
  congrArg Host.Outcome.next (if_neg (Bool.eq_false_iff.1 hlink))
theorem exec_hostReset : exec .hostReset s = .next (s.boot s.host) :=
  congrArg Host.Outcome.next (if_neg (Bool.eq_false_iff.1 hlink))
theorem exec_recoveryImageCommit : exec .recoveryImageCommit s = .next s.commitRecovery :=
  congrArg Host.Outcome.next (if_neg (Bool.eq_false_iff.1 hlink))
theorem exec_attestationRequest : exec .attestationRequest s = .next s.attest :=
  congrArg Host.Outcome.next (if_neg (Bool.eq_false_iff.1 hlink))
end

theorem State.answerHost_last (s : State) (off : DWord) (bs : List Byte) (failed : Bool) :
    (s.answerHost off bs failed).host.out.getLast? = some (.readAnswer off bs failed) := List.getLast?_concat

/-- The host reaches device memory only. -/
theorem State.inDevice_of_hostTarget {off : DWord} {n pa : Nat} {write : Bool} (h : s.hostTarget off n write = .memory pa) :
    inDevice pa n = true := by
  unfold State.hostTarget at h
  extract_lets +onlyGivenNames i o w size ok at_ at h
  split at h
  · split at h <;> cases h
  · split at h
    · cases h
    · split at h
      · cases h
      · split at h
        · rename_i hok
          injection h with hpa
          obtain ⟨-, hend⟩ := Bool.and_eq_true_iff.1 hok
          rw [← hpa]
          exact hend
        · cases h

/-- The blocks of some bytes are the first one's and those of the bytes that lie behind it. -/
theorem blocksOf_cons {pa n : Nat} (h : 0 < n) :
    blocksOf pa n = pa / 64 :: blocksOf (pa + (64 * (pa / 64 + 1) - pa)) (n - (64 * (pa / 64 + 1) - pa)) := by
  have hnext : pa + (64 * (pa / 64 + 1) - pa) = 64 * (pa / 64 + 1) := by omega
  rw [hnext]
  unfold blocksOf
  rw [if_neg h.ne', List.range_succ_eq_map, List.map_cons, Nat.add_zero, List.map_map]
  split
  · have hone : (pa + n - 1) / 64 - pa / 64 = 0 := by omega
    rw [hone]
    rfl
  · have hmore : (pa + n - 1) / 64 - pa / 64 =
        (64 * (pa / 64 + 1) + (n - (64 * (pa / 64 + 1) - pa)) - 1) / 64 - 64 * (pa / 64 + 1) / 64 + 1 := by omega
    rw [hmore]
    refine congrArg _ (List.map_congr_left fun i _ => ?_)
    show pa / 64 + (i + 1) = 64 * (pa / 64 + 1) / 64 + i
    omega

theorem State.writePhys_unseen_cores (s : State) (pa : Nat) (bs : List Byte) : (s.writePhys pa bs false).cores = s.cores := by
  unfold State.writePhys
  split
  · rfl
  · split <;> rfl

/-- What lies behind the first block. -/
theorem inDevice_next {pa n : Nat} (h : inDevice pa n = true) (hn : 0 < n) :
    inDevice (pa + (64 * (pa / 64 + 1) - pa)) (n - (64 * (pa / 64 + 1) - pa)) = true := by
  simp only [inDevice, decide_eq_true_eq] at *
  unfold Config.deviceMemEnd at *
  omega

/-- A host write that meets no live block writes its bytes, unseen by the monitors. -/
theorem State.hostWrite_plain {pa : Nat} {xs : List Byte} (hdev : inDevice pa xs.length = true)
    (hplain : ∀ b ∈ blocksOf pa xs.length, b ∉ s.tags) :
    (s.hostWrite (blocksOf pa xs.length) pa xs).mem = s.mem.write pa xs ∧
      (s.hostWrite (blocksOf pa xs.length) pa xs).cores = s.cores := by
  induction hn : xs.length using Nat.strong_induction_on generalizing s pa xs with
  | _ n ih =>
    subst hn
    rcases Nat.eq_zero_or_pos xs.length with hnil | hpos
    · rw [List.eq_nil_of_length_eq_zero hnil]
      exact ⟨rfl, rfl⟩
    · let k := 64 * (pa / 64 + 1) - pa
      have hk : 0 < k := by omega
      have hblocks : blocksOf pa xs.length = pa / 64 :: blocksOf (pa + k) (xs.drop k).length := by
        rw [blocksOf_cons hpos, List.length_drop]
      rw [hblocks] at hplain ⊢
      have hfirst : s.tags.contains (pa / 64) = false := by
        simpa using hplain (pa / 64) List.mem_cons_self
      let u := s.writePhys pa (xs.take k) false
      have hstep : s.hostWrite (pa / 64 :: blocksOf (pa + k) (xs.drop k).length) pa xs =
          u.hostWrite (blocksOf (pa + k) (xs.drop k).length) (pa + k) (xs.drop k) := by
        rw [State.hostWrite, hfirst]
        rfl
      have hdevTake : inDevice pa (xs.take k).length = true := inDevice_mono (by rw [List.length_take]; omega) hdev
      have hmem : u.mem = s.mem.write pa (xs.take k) := State.writePhys_mem hdevTake
      have hrest := ih (xs.drop k).length (by rw [List.length_drop]; omega) (s := u) (pa := pa + k) (xs := xs.drop k)
        (by rw [List.length_drop]; exact inDevice_next hdev hpos)
        (fun b hb => by rw [State.writePhys_tags]; exact hplain b (List.mem_cons_of_mem _ hb)) rfl
      rw [hstep, hrest.1, hrest.2, hmem, State.writePhys_unseen_cores]
      refine ⟨?_, rfl⟩
      rcases Nat.le_total k xs.length with hle | hle
      · have hlen : (xs.take k).length = k := List.length_take_of_le hle
        conv_rhs => rw [← List.take_append_drop k xs, Memory.write_append, hlen]
      · rw [List.drop_eq_nil_of_le hle, List.take_of_length_le hle]
        rfl

/-! ### Reset and boot -/

/-- The device after a boot of an image that verifies. -/
theorem State.boot_verified {h : HostSt} (hok : firmwareFault h.image = none) : s.boot h =
    { State.reset with
      host := { h with hwin := Bank.fill 0, devid := 0, fabtab := 0, recovery := false, recBuf := ⟨[]⟩ }
      agenda := s.agenda, tick := s.tick, resets := s.resets + 1 } := by
  unfold State.boot
  extract_lets h' t
  have hsame : firmwareFault h'.image = none := hok
  rw [hsame]

/-- An image that does not verify leaves recovery state, and its interrupt pending. -/
theorem State.boot_refused {h : HostSt} {e : Byte} (hbad : firmwareFault h.image = some e) :
    (s.boot h).host.recovery = true ∧ (s.boot h).host.istat.getLsbD 17 = true := by
  unfold State.boot
  extract_lets h' t
  have hsame : firmwareFault h'.image = some e := hbad
  rw [hsame]
  refine ⟨rfl, ?_⟩
  have hbit : (h'.istat ||| ((1 <<< 17 : Nat) : DWord)).getLsbD 17 = true := by
    rw [shiftLeft_eq_twoPow]
    simp
  exact hbit

theorem exec_powerOn : exec .powerOn s = .next (s.boot s.host) := rfl

theorem exec_boot {i : Instr} (hlink : (s.linkOf .host).retired = false) (hi : i ∈ [Instr.hostReset, .powerOn]) :
    exec i s = .next (s.boot s.host) := by
  simp only [List.mem_cons, List.not_mem_nil, or_false] at hi
  rcases hi with rfl | rfl
  · exact exec_hostReset hlink
  · exact exec_powerOn

theorem commitRecovery_idle (h : s.host.recovery = false) : s.commitRecovery = s := by
  unfold State.commitRecovery
  rw [h]
  rfl

theorem HostSt.image_flash (h : HostSt) (img : List Byte) : ({ h with flash := some img } : HostSt).image = img := rfl

/-- The image in the recovery buffer (R421). -/
def HostSt.recoveryImage (h : HostSt) : List Byte :=
  h.recBuf.read 0 (max 4096 (min recoveryBytes (4096 + natAt (h.recBuf.read 0 16) 8 8)))

theorem commitRecovery_verified (h : s.host.recovery = true) (hok : firmwareFault s.host.recoveryImage = none) :
    s.commitRecovery = s.boot { s.host with flash := some s.host.recoveryImage } := by
  unfold HostSt.recoveryImage at hok ⊢
  simp only [State.commitRecovery, h, hok, Bool.not_true, Bool.false_eq_true, if_false]

theorem commitRecovery_refused {e : Byte} (h : s.host.recovery = true) (hbad : firmwareFault s.host.recoveryImage = some e) :
    s.commitRecovery = s.modHost fun h => { h with rctl := zext e <<< 8 } := by
  unfold HostSt.recoveryImage at hbad
  simp only [State.commitRecovery, h, hbad, Bool.not_true, Bool.false_eq_true, if_false]

/-! ### Doorbells and the register page -/

theorem State.ringDoor_bad {p : PartId} {va : DWord} (h : 2 ^ 48 ≤ va.toNat ∨ va.toNat % 64 ≠ 0) :
    s.ringDoor p va = s.modHost fun h => { h with dstat := h.dstat.write p (statusWord sBadRec 0) } := by
  have hbad : (va.extractLsb' 48 16 != 0 || va.extractLsb' 0 6 != 0 || s.host.recovery) = true := by
    rcases h with h | h
    · rw [(outside_iff va).2 h]
      rfl
    · rw [(offBlock_iff va).2 h, Bool.or_true, Bool.true_or]
  unfold State.ringDoor
  dsimp only
  rw [if_pos hbad]

/-- A doorbell at a record that its address reaches has the effect of LAUNCH. -/
theorem State.ringDoor_status {p : PartId} {va : DWord} {pa : Nat} {u : State} (hva : va.toNat < 2 ^ 48) (halign : va.toNat % 64 = 0)
    (hrec : s.host.recovery = false) (hres : s.resolveIn p va.toNat .store = .ok (pa, u)) (hhost : isHost pa = false)
    (htag : u.tagged pa = false) (hclean : u.poisoned pa 64 = false) :
    (s.ringDoor p va).host.dstat.read p = (u.queueLaunch p (va.setWidth 48) pa).2 := by
  have hout : (va.extractLsb' 48 16 != 0) = false := (inside_iff va).2 hva
  have hoff : (va.extractLsb' 0 6 != 0) = false := Bool.eq_false_iff.2 fun e => (offBlock_iff va).1 e halign
  unfold State.ringDoor
  dsimp only
  simp only [hout, hoff, hrec, hres, hhost, htag, hclean, extractLsb'_low, Bool.or_false, Bool.false_eq_true, if_false]
  split <;> exact (Bank.read_write ..).trans (if_pos rfl)

/-! ### Partition maps, attestation and what is counted -/

@[simp] theorem State.telemetry_tags (s : State) (d : DieId) (core : Option CoreId) (kind : Nat) (words : List DWord) :
    (s.telemetry d core kind words).tags = s.tags := by
  unfold State.telemetry
  extract_lets +onlyGivenNames die n ring who w0 at_ bytes
  split
  · rfl
  · exact s.writeOwn_tags at_ bytes

theorem State.writePage_rctl {v : DWord} (h : v.getLsbD 0 = false) : (s.writePage 0x400 v).host.rctl = v &&& 0xFF00 := by
  have hbit : v[0] = false := (BitVec.getLsbD_eq_getElem (by decide)).symm.trans h
  simp [State.writePage, hbit, State.modHost]

theorem State.hostPmap_some {n : BitVec 5} {v : DWord} (h : s.writePmap n v = some t) : s.hostPmap n v = t := by
  rw [State.hostPmap, h]
  rfl

theorem State.hostPmap_none {n : BitVec 5} {v : DWord} (h : s.writePmap n v = none) :
    (s.hostPmap n v).pmaps = s.pmaps ∧ (s.hostPmap n v).tags = s.tags := by
  rw [State.hostPmap, h, Option.getD_none, State.hostRefused]
  exact ⟨(State.Written.refl s).telemetry.cores.2.1, State.telemetry_tags ..⟩

end

end Sys2Proof.Machine
end

section
open Sys2Proof Sys2Proof.Machine

/-- Settles O59: by what each access of the host does over a link in service, and by whether an image verifies. -/
theorem Sys2Proof.hostEvents : Obligations.HostEvents := by
  intro s off v
  refine ⟨fun hretired len bytes p n i hi => ?_, fun hok => ?_, fun hcommit => ?_, fun hlink => ⟨fun len pa hat => ?_, fun len hat => ?_,
    fun bytes pa hat hplain => ?_, fun p hbad => ?_, fun p pa u w hva halign hrec hres hhost htag hclean hw => ?_, ?_,
    fun n => ⟨fun u hu => ?_, fun hnone => ?_⟩, fun i hi hok => ?_, fun e i hbad hi => ?_, fun hrec => ?_,
    fun img hrec himg => ⟨fun hok => ?_, fun e hbad => ?_⟩, ?_⟩⟩
  · simp only [List.mem_cons, List.not_mem_nil, or_false] at hi
    rcases hi with rfl | rfl | rfl | rfl | rfl | rfl | rfl | rfl <;> exact congrArg Host.Outcome.next (if_pos hretired)
  · rw [exec_powerOn, State.boot_verified hok]
    exact answers_next ⟨rfl, rfl, rfl⟩
  · exact State.writePage_rctl hcommit
  · rw [exec_hostMemoryRead_memory hlink hat]
    exact answers_next ⟨State.answerHost_last .., rfl⟩
  · rw [exec_hostMemoryRead_nothing hlink hat]
    exact answers_next (State.answerHost_last ..)
  · rw [exec_hostMemoryWrite_memory hlink hat]
    obtain ⟨hmem, hcores⟩ := State.hostWrite_plain (State.inDevice_of_hostTarget hat) hplain
    refine answers_next ⟨fun a ha => ?_, fun j hj => ?_, fun c => ?_⟩
    · rw [hmem, Memory.readByte_write, if_neg ha]
    · rw [hmem, Memory.readByte_write, if_pos (by omega), Nat.add_sub_cancel_left, List.getD_eq_getElem _ _ hj,
        List.getElem?_eq_getElem hj]
    · rw [State.core, State.core, hcores]
  · rw [exec_hostDoorbell hlink, State.ringDoor_bad hbad]
    exact answers_next rfl
  · rw [exec_hostDoorbell hlink]
    exact answers_next (hw ▸ State.ringDoor_status hva halign hrec hres hhost htag hclean)
  · rw [exec_hostIstatClear hlink]
    exact answers_next rfl
  · rw [exec_hostPmapWrite hlink, State.hostPmap_some hu]
  · rw [exec_hostPmapWrite hlink]
    exact answers_next (State.hostPmap_none hnone)
  · rw [exec_boot hlink hi, State.boot_verified hok]
    exact answers_next ⟨rfl, rfl, rfl, rfl, rfl, rfl, rfl, rfl⟩
  · rw [exec_boot hlink hi]
    exact answers_next (State.boot_refused hbad)
  · rw [exec_recoveryImageCommit hlink, commitRecovery_idle hrec]
  · replace himg : img = s.host.recoveryImage := himg
    rw [himg] at hok ⊢
    rw [exec_recoveryImageCommit hlink, commitRecovery_verified hrec hok, State.boot_verified (s.host.image_flash _ ▸ hok)]
    exact answers_next ⟨rfl, rfl⟩
  · replace himg : img = s.host.recoveryImage := himg
    rw [himg] at hbad
    rw [exec_recoveryImageCommit hlink, commitRecovery_refused hrec hbad]
    exact answers_next ⟨hrec, rfl, rfl⟩
  · rw [exec_attestationRequest hlink]
    exact answers_next ⟨rfl, rfl, rfl⟩

end

section
/-! PROOF. What the device's own writes and the merges of children leave of the partitions' registers: csr.pool (R221 to R225, R256, R276). -/

namespace Sys2Proof.Machine

/-- `t` has the frame pools of `s`. -/
def State.SamePools (s t : State) : Prop := ∀ p, (t.part p).pool = (s.part p).pool

section
variable {s t u : State}

theorem State.SamePools.refl (s : State) : s.SamePools s := fun _ => rfl
theorem State.SamePools.trans (h : s.SamePools t) (h' : t.SamePools u) : s.SamePools u := fun p => (h' p).trans (h p)

/-- What leaves the partitions' registers as they are leaves the pools. -/
theorem State.SamePools.of_parts (h : s.SamePools t) (hparts : u.parts = t.parts) : s.SamePools u := by
  intro p
  rw [← h p, State.part, hparts]
  rfl

theorem State.SamePools.modPart {p : PartId} {f : PartSt → PartSt} (h : s.SamePools t) (hf : ∀ x, (f x).pool = x.pool) :
    s.SamePools (t.modPart p f) := by
  intro q
  rw [← h q, State.part, State.modPart, Bank.read_modify]
  split
  · next e => exact (hf _).trans (e ▸ rfl)
  · rfl

theorem State.SamePools.ite {c : Prop} [Decidable c] (h : s.SamePools t) (h' : s.SamePools u) : s.SamePools (if c then t else u) := by
  split
  · exact h
  · exact h'

theorem State.SamePools.foldl {α : Type} {f : State → α → State} {xs : List α} (h : s.SamePools t)
    (hf : ∀ u x, s.SamePools u → s.SamePools (f u x)) : s.SamePools (xs.foldl f t) := by
  induction xs generalizing t with
  | nil => exact h
  | cons x xs ih => exact ih (hf t x h)

theorem State.SamePools.fst {α : Type} {x : State × α} {a : α} (h : s.SamePools x.1) (e : x = (t, a)) : s.SamePools t := by
  rw [e] at h
  exact h

/-! ### Copies on write change no register of a partition -/

@[simp] theorem State.putPhys_parts (s : State) (pa n x : Nat) : (s.putPhys pa n x).parts = s.parts := s.writePhys_parts ..

theorem State.telemetry_parts (s : State) (d : DieId) (core : Option CoreId) (kind : Nat) (words : List DWord) :
    (s.telemetry d core kind words).parts = s.parts := by
  unfold State.telemetry
  extract_lets +onlyGivenNames die n ring who w0 at_ bytes
  split
  · rfl
  · exact s.writeOwn_parts at_ bytes

theorem State.takeFrame_parts {p : PartId} {big : Bool} : ∀ x ∈ s.takeFrame p big, x.1.parts = s.parts := by
  unfold State.takeFrame
  extract_lets +onlyGivenNames d n at_ frame
  split
  · rintro _ ⟨⟩
  · cases s.poisoned at_ 8 || s.liveIn frame (if big then 65536 else 4096)
    · rintro _ ⟨⟩
      exact s.putPhys_parts ..
    · rintro _ ⟨⟩

theorem State.copyUnit_parts (s : State) (p : PartId) (va size old new entry : Nat) (w : DWord) (gen : Byte) :
    (s.copyUnit p va size old new entry w gen).parts = s.parts := by
  unfold State.copyUnit State.logCopy
  rw [State.putPhys_parts, State.writeOwn_parts]
  exact (s.copyFrame old new size).writeOwn_parts entry _

theorem State.splitLarge_parts {p : PartId} {va entry : Nat} {w : DWord} : ∀ u ∈ s.splitLarge p va entry w, u.parts = s.parts := by
  unfold State.splitLarge
  split
  · rintro _ ⟨⟩
  · rename_i a table e₁
    split
    · rintro _ ⟨⟩
    · rename_i b new e₂
      have hab : b.parts = s.parts := (State.takeFrame_parts (b, new) e₂).trans (State.takeFrame_parts (a, table) e₁)
      rintro _ ⟨⟩
      rw [State.copyUnit_parts]
      exact (State.writeOwn_parts ..).trans ((State.writePhys_parts ..).trans hab)

theorem State.splitHuge_parts {p : PartId} {va entry : Nat} {w : DWord} : ∀ u ∈ s.splitHuge p va entry w, u.parts = s.parts := by
  unfold State.splitHuge
  split
  · rintro _ ⟨⟩
  · rename_i a table e₁
    intro u hu
    rw [State.splitLarge_parts u hu]
    exact (State.writeOwn_parts ..).trans ((State.writePhys_parts ..).trans (State.takeFrame_parts (a, table) e₁))

theorem State.copyOnWrite_parts {p : PartId} {va : Nat} {m : Mapping} : ∀ u ∈ s.copyOnWrite p va m, u.parts = s.parts := by
  unfold State.copyOnWrite
  split
  · rintro _ ⟨⟩
  · split
    · rintro _ ⟨⟩
      rfl
    · split
      · rintro _ ⟨⟩
      · rename_i e₁
        rintro _ ⟨⟩
        exact (State.copyUnit_parts ..).trans (State.takeFrame_parts _ e₁)
    · split
      · split
        · rintro _ ⟨⟩
        · rename_i e₁
          rintro _ ⟨⟩
          exact (State.copyUnit_parts ..).trans (State.takeFrame_parts _ e₁)
      · split
        · exact State.splitLarge_parts
        · split
          · intro u hu
            exact (State.splitHuge_parts u hu).trans (State.writePhys_parts ..)
          · exact State.splitHuge_parts

theorem State.SamePools.resolveIn {p : PartId} {va : Nat} {acc : Access} (h : s.SamePools t) :
    ∀ x, t.resolveIn p va acc = .ok x → s.SamePools x.2 := by
  unfold State.resolveIn
  split
  · rintro _ ⟨⟩
  · split
    · rintro _ ⟨⟩
    · split
      · split
        · rintro _ ⟨⟩
        · rename_i e₁
          split
          · rintro _ ⟨⟩
          · rintro _ ⟨⟩
            exact h.of_parts (State.copyOnWrite_parts _ e₁)
      · rintro _ ⟨⟩
        exact h

/-! ### The device's own writes in a partition's memory -/

theorem State.SamePools.writePhys {pa : Nat} {bs : List Byte} (h : s.SamePools t) : s.SamePools (t.writePhys pa bs) :=
  h.of_parts (State.writePhys_parts ..)
theorem State.SamePools.hold {p : PartId} {x : HeldWrite} (h : s.SamePools t) : s.SamePools (t.hold p x) := h.modPart fun _ => rfl

theorem State.SamePools.writeAs {live : Bool} {p : PartId} {va : Nat} {bs : List Byte} (h : s.SamePools t) :
    s.SamePools (t.writeAs live p va bs) := by
  unfold State.writeAs
  split
  · exact h.hold
  · split
    · rename_i e₁
      exact h.ite (h.resolveIn _ e₁).writePhys
    · exact h.hold.ite h

theorem State.SamePools.putIn {p : PartId} {va n x : Nat} (h : s.SamePools t) : s.SamePools (t.putIn p va n x) := h.writeAs
theorem State.SamePools.setRecWord {p : PartId} {r : Addr} {i : Nat} {x : DWord} (h : s.SamePools t) :
    s.SamePools (t.setRecWord p r i x) := h.putIn
theorem State.SamePools.setAreaWord {p : PartId} {r : Addr} {i : Nat} {x : DWord} (h : s.SamePools t) :
    s.SamePools (t.setAreaWord p r i x) := h.putIn
theorem State.SamePools.setTaskState {p : PartId} {r : Addr} {st : BitVec 4} (h : s.SamePools t) :
    s.SamePools (t.setTaskState p r st) := h.setRecWord
theorem State.SamePools.modTask {p : PartId} {r : Addr} {f : TaskInfo → TaskInfo} (h : s.SamePools t) : s.SamePools (t.modTask p r f) := h
theorem State.SamePools.forgetTask {p : PartId} {r : Addr} (h : s.SamePools t) : s.SamePools (t.forgetTask p r) := h

theorem State.SamePools.wake {p : PartId} {r : Addr} {value : Option DWord} (h : s.SamePools t) : s.SamePools (t.wake p r value) := by
  unfold State.wake
  extract_lets +onlyGivenNames dest s₁ s₂
  have h₁ : s.SamePools s₁ := by
    unfold s₁
    split
    · exact h.setRecWord.ite h.setRecWord.putIn
    · exact h
  exact h₁.setRecWord.setTaskState

/-! ### Counters of the completion tree and of a launch -/

theorem State.SamePools.telemetry {d : DieId} {core : Option CoreId} {kind : Nat} {words : List DWord} (h : s.SamePools t) :
    s.SamePools (t.telemetry d core kind words) := h.of_parts (State.telemetry_parts ..)

theorem State.SamePools.treeAdd {p : PartId} {va : Nat} {n : Int} (h : s.SamePools t) : s.SamePools (t.treeAdd p va n) := by
  refine State.SamePools.writeAs ?_
  unfold State.reportIn
  split
  · exact State.SamePools.ite h.telemetry h
  · exact h

theorem State.SamePools.addCount {p : PartId} {va : Nat} {l : Addr} (h : s.SamePools t) : s.SamePools (t.addCount p va l) := by
  unfold State.addCount
  split
  · exact h.hold
  · split
    · exact h.hold.ite h.telemetry
    · rename_i e₁
      exact State.SamePools.ite h.telemetry (h.resolveIn _ e₁).writePhys

theorem State.SamePools.countLaunch {p : PartId} {l : Addr} (h : s.SamePools t) : s.SamePools (t.countLaunch p l) :=
  State.SamePools.ite h.telemetry h.addCount

theorem State.SamePools.freeTree {a : Admitted} (h : s.SamePools t) : s.SamePools (t.freeTree a) := by
  unfold State.freeTree
  extract_lets +onlyGivenNames all s₁ s₂ gone s₃ forget s₄
  have h₁ : s.SamePools s₁ := h.foldl fun u i hu => by
    split
    · exact hu
    · exact hu
  have h₂ : s.SamePools s₂ := h₁.modPart fun _ => rfl
  exact h₂

theorem State.SamePools.maybeComplete {a : Admitted} (h : s.SamePools t) : s.SamePools (t.maybeComplete a) := by
  unfold State.maybeComplete
  split
  · extract_lets +onlyGivenNames irq s₁ s₂ s₃
    have h₂ : s.SamePools s₂ := State.SamePools.countLaunch h.putIn
    have h₃ : s.SamePools s₃ := State.SamePools.ite (u := s₂) h₂ h₂
    exact h₃.freeTree
  · exact h

theorem State.SamePools.reportShare {a : Admitted} {d : DieId} (h : s.SamePools t) : s.SamePools (t.reportShare a d) := by
  unfold State.reportShare
  extract_lets +onlyGivenNames hdr s₁
  have h₁ : s.SamePools s₁ := h.treeAdd
  exact h₁.treeAdd.maybeComplete.ite h₁

theorem State.SamePools.shareAdd {p : PartId} {x : Team} {pos : Nat} {n : Int} (h : s.SamePools t) : s.SamePools (t.shareAdd p x pos n) := by
  unfold State.shareAdd
  split
  · exact h
  · extract_lets +onlyGivenNames c s₁
    have h₁ : s.SamePools s₁ := h.treeAdd
    exact h₁.reportShare.ite h₁

theorem State.SamePools.countTask {p : PartId} {r : Addr} (h : s.SamePools t) : s.SamePools (t.countTask p r) := by
  unfold State.countTask
  split
  · exact h.ite (State.SamePools.shareAdd h.modTask)
  · exact h

/-! ### Merging children into their parents -/

theorem State.SamePools.tileWrite {p : PartId} {c : CoreId} {tile : DWord} {b : Nat} {bs : List Byte} (h : s.SamePools t) :
    s.SamePools (t.tileWrite p c tile b bs) := by
  unfold State.tileWrite
  split
  · split
    · exact h
    · exact h
  · split
    · exact h
    · rename_i e₁
      exact (h.resolveIn _ e₁).writePhys

theorem State.SamePools.tilePoison? {p : PartId} {c : CoreId} {tile : DWord} {b : Nat} (h : s.SamePools t) :
    ∀ u ∈ t.tilePoison? p c tile b, s.SamePools u := by
  unfold State.tilePoison?
  split
  · split
    · rintro _ ⟨⟩
      exact h
    · rintro _ ⟨⟩
      exact h
  · split
    · split
      · rintro _ ⟨⟩
      · rintro _ ⟨⟩
        exact h
    · rename_i pa v e₁
      have hv : s.SamePools (v.setPoison (blockOf pa) true) := h.resolveIn _ e₁
      rintro _ ⟨⟩
      exact h.ite hv

theorem State.SamePools.spoil {x : MergeCtx} {b : Nat} {fresh : Bool} (h : s.SamePools t) : s.SamePools (x.spoil t b fresh) := by
  have h₁ : s.SamePools ((t.tilePoison? x.part x.core x.left b).getD t) := by
    cases e : t.tilePoison? x.part x.core x.left b with
    | none => exact h
    | some u => exact h.tilePoison? u e
  exact State.SamePools.ite h₁.modTask h₁

theorem State.SamePools.mergeUnit {x : MergeCtx} {n : Nat} (h : s.SamePools t) : s.SamePools (x.mergeUnit t n).1 := by
  unfold MergeCtx.mergeUnit
  extract_lets +onlyGivenNames _ _ _ _
  split
  · exact h.foldl fun _ _ hu => hu.tileWrite
  · exact h.foldl fun _ _ hu => hu.ite hu.spoil

theorem State.SamePools.mergeFrom {x : MergeCtx} {fuel n : Nat} (h : s.SamePools t) : s.SamePools (x.mergeFrom fuel n t).1 := by
  induction fuel generalizing t n with
  | zero => exact h
  | succ fuel ih =>
    unfold MergeCtx.mergeFrom
    split
    · exact h
    · exact ih h.mergeUnit

theorem State.SamePools.oneMerged {p : PartId} {parent : Addr} (h : s.SamePools t) : s.SamePools (t.oneMerged p parent) :=
  State.SamePools.ite (State.SamePools.wake h.setAreaWord.setAreaWord.setAreaWord) h.setAreaWord

theorem State.SamePools.mergeFault {p : PartId} {child : Addr} {view block : Nat} {sub : Byte} (h : s.SamePools t) :
    s.SamePools (t.mergeFault p child view block sub) := h.setRecWord.setTaskState

theorem State.SamePools.startMerge {p : PartId} {child : Addr} {i : Nat} {l r : ViewEntry} (h : s.SamePools t) :
    s.SamePools (t.startMerge p child i l r) := by
  unfold State.startMerge
  extract_lets +onlyGivenNames _ _ _
  split
  · split
    · exact h.mergeFault
    · split
      · exact h
      · exact h
  · split
    · exact h.mergeFault
    · split
      · exact h
      · exact State.SamePools.ite h.mergeFault h

theorem State.SamePools.mergeDone {p : PartId} {child : Addr} (h : s.SamePools t) : s.SamePools (t.mergeDone p child) :=
  h.setTaskState.countTask.forgetTask.oneMerged

theorem State.SamePools.mergeAt {p : PartId} {child : Addr} {view unit : Nat} (h : s.SamePools t) :
    s.SamePools (t.mergeAt p child view unit) := h

theorem State.SamePools.mergeViews {p : PartId} {child : Addr} {fuel : Nat} (h : s.SamePools t) :
    s.SamePools (t.mergeViews p child fuel) := by
  induction fuel generalizing t with
  | zero => exact h.mergeDone
  | succ fuel ih =>
    unfold State.mergeViews
    split
    · exact h
    · split
      · exact h.mergeDone
      · extract_lets +onlyGivenNames parent r l
        split
        · exact ih h.mergeAt
        · split
          · exact h.startMerge
          · extract_lets +onlyGivenNames x
            split
            rename_i e₁
            have h₁ := h.mergeFrom.fst e₁
            extract_lets +onlyGivenNames s₂
            have h₂ : s.SamePools s₂ := h₁.setAreaWord
            split
            · exact h₂.mergeAt.mergeFault
            · exact ih h₂.mergeAt

theorem State.SamePools.resumeChild {p : PartId} {child : Addr} (h : s.SamePools t) : s.SamePools (t.resumeChild p child) := by
  unfold State.resumeChild
  extract_lets +onlyGivenNames w₄ v b s₁ s₂
  have h₁ : s.SamePools s₁ := State.SamePools.ite h h.mergeAt
  have h₂ : s.SamePools s₂ := h₁.setTaskState.modTask
  exact State.SamePools.ite (h₂.mergeViews.ite h₂) h

theorem State.SamePools.retryMerges {p : PartId} (h : s.SamePools t) : s.SamePools (t.retryMerges p) :=
  h.foldl fun _ _ => State.SamePools.resumeChild

theorem State.SamePools.retryHeld {p : PartId} {hs : List HeldWrite} (h : s.SamePools t) : s.SamePools (t.retryHeld p hs) := by
  refine h.foldl fun u x hu => ?_
  cases x with
  | bytes va bs live => exact hu.writeAs
  | count va l => exact hu.addCount

end

end Sys2Proof.Machine
end

section
/-! PROOF. Writes of partition maps, csr.pool, csr.cgroup, csr.refctl, csr.tlbinv and csr.snap (R248, R273, R274, R276, R283, R400). -/

namespace Sys2Proof.Machine

section
variable {s : State} {c : CoreId} {p : PartId} {v : DWord}

/-! ### Partition maps -/

theorem State.writePmap_ok {n : BitVec 5} (h : s.pmapsOk (s.pmaps.write n v) = true) :
    s.writePmap n v = some { s with pmaps := s.pmaps.write n v } := if_pos h

theorem State.writePmap_refused {n : BitVec 5} (h : s.pmapsOk (s.pmaps.write n v) = false) : s.writePmap n v = none :=
  if_neg (Bool.eq_false_iff.1 h)

/-! ### An update of several cores -/

/-- Updates of cores change nothing but cores. -/
theorem State.foldl_modCore (f : CoreSt → CoreSt) (cs : List CoreId) :
    ∃ ks, cs.foldl (fun s d => s.modCore d f) s = { s with cores := ks } := by
  induction cs generalizing s with
  | nil => exact ⟨s.cores, rfl⟩
  | cons d cs ih =>
    obtain ⟨ks, e⟩ := ih (s := s.modCore d f)
    exact ⟨ks, e⟩

/-- What an update gives every core, each updated core has. -/
theorem State.core_foldl_modCore {f : CoreSt → CoreSt} {q : CoreSt → Prop} (hf : ∀ k, q (f k)) {d : CoreId} {cs : List CoreId}
    (h : q (s.core d) ∨ d ∈ cs) : q ((cs.foldl (fun s d => s.modCore d f) s).core d) := by
  induction cs generalizing s with
  | nil => exact h.resolve_right List.not_mem_nil
  | cons c cs ih =>
    refine ih ?_
    rw [State.core_modCore]
    split
    · exact .inl (hf _)
    · next hne => exact h.imp_right fun hd => (List.mem_cons.1 hd).resolve_left (Ne.symm hne)

/-! ### csr.pool -/

/-- A command that is held on POOL goes on. -/
def Cmd.retried (x : Cmd) : Cmd := match x.phase with
  | .stopped sub _ => if sub == cPool then x.moveOn else x
  | _ => x

/-- The device with a new frame pool, before what is held goes on. -/
def State.pooled (s : State) (p : PartId) (v : DWord) : State :=
  s.modPart p fun x => { x with pool := v &&& 0x0000FFFFFFFFFFC0 }

/-- The device after the writes and the commands of a partition that are held on POOL have gone on. -/
def State.unheld (s : State) (p : PartId) : State :=
  let t := (s.modPart p fun x => { x with held := [] }).retryHeld p (s.part p).held
  (t.coresOf p).foldl (fun s d => s.modCore d fun k => { k with table := k.table.map Cmd.retried }) t

theorem State.writePool_eq (hp : s.partOf c = some p) : s.writePool c v = ((s.pooled p v).unheld p).retryMerges p := by
  unfold State.writePool
  rw [hp]
  rfl

theorem State.pooled_part (s : State) (p : PartId) (v : DWord) :
    (s.pooled p v).part p = { s.part p with pool := v &&& 0x0000FFFFFFFFFFC0 } := by
  rw [State.part, State.pooled, State.modPart, Bank.read_modify, if_pos rfl]
  rfl

theorem State.SamePools.unheld (s : State) (p : PartId) : s.SamePools (s.unheld p) := by
  unfold State.unheld
  extract_lets t
  have ht : s.SamePools t := State.SamePools.retryHeld (State.SamePools.modPart (.refl s) fun _ => rfl)
  exact ht.foldl fun _ _ hu => hu

/-- Where nothing is held, only commands may go on. -/
theorem State.unheld_none (h : (s.part p).held = []) : (s.unheld p).mem = s.mem ∧ (s.unheld p).teams = s.teams := by
  unfold State.unheld
  extract_lets t
  have ht : t = s.modPart p fun x => { x with held := [] } := by
    unfold t
    rw [h]
    rfl
  obtain ⟨ks, e⟩ := State.foldl_modCore (s := t) (fun k => { k with table := k.table.map Cmd.retried }) (t.coresOf p)
  rw [e]
  have hmem : t.mem = s.mem := by rw [ht, State.modPart_mem]
  have hteams : t.teams = s.teams := by rw [ht, State.modPart_teams]
  exact ⟨hmem, hteams⟩

theorem State.retryMerges_none (h : ∀ x ∈ s.teams, x.part = p → ∀ i ∈ x.tasks, i.held = false) : s.retryMerges p = s := by
  have hnone : ((s.teams.filter fun t => t.part == p).flatMap fun t => (t.tasks.filter fun i => i.held).map fun i => i.task) = [] := by
    rw [List.flatMap_eq_nil_iff]
    intro x hx
    obtain ⟨hmem, hpart⟩ := List.mem_filter.1 hx
    have hfree : x.tasks.filter (fun i => i.held) = [] := List.filter_eq_nil_iff.2 fun i hi =>
      Bool.eq_false_iff.1 (h x hmem (beq_iff_eq.1 hpart) i hi)
    rw [hfree]
    rfl
  rw [State.retryMerges, hnone]
  rfl

/-! ### csr.cgroup, csr.refctl, csr.tlbinv and csr.snap -/

theorem State.writeCgroup_eq (hp : s.partOf c = some p) : ∃ t : State, (t.part p).cgroup = v &&& 0x0000FFFFFFFFFC00 ∧
    (∀ x ∈ t.colls, x.part ≠ p) ∧
    s.writeCgroup c v = (s.coresOf p).foldl (fun s d => s.modCore d fun k => { k with groupSeq := Bank.fill 0, txnSeq := Bank.fill 0 }) t := by
  unfold State.writeCgroup
  rw [hp]
  dsimp -zeta only
  extract_lets s₁ s₂ s₃
  refine ⟨s₃, ?_, fun x hx => ?_, rfl⟩
  · have h₁ : (s₁.part p).cgroup = v &&& 0x0000FFFFFFFFFC00 := by
      simp only [s₁, State.part, State.modPart, Bank.read_modify, if_true]
    have h₂ : (s₂.part p).cgroup = (s₁.part p).cgroup := by
      simp only [s₂, State.part, State.modPart, Bank.read_modify, if_true]
    exact h₂.trans h₁
  · exact bne_iff_ne.1 (List.mem_filter.1 hx).2

theorem State.writeTlbinv_every (hp : s.partOf c = some p) (h : v.getLsbD 0 = true) :
    s.writeTlbinv c v = s.dropTlb p 0 Config.addrSpace := by
  rw [State.writeTlbinv, hp]
  exact if_pos h

/-- A descriptor's address that is no multiple of 64 breaks the layout. -/
theorem State.snap_misplaced (hp : s.partOf c = some p) (h : v.toNat % 64 ≠ 0) :
    s.snap c v = s.modPart p fun x => { x with snapStatus := 1 } := by
  unfold State.snap
  rw [hp]
  dsimp -zeta only
  extract_lets +onlyGivenNames a w done bad
  have hbad : bad = true := by
    have hoff : decide (a % 64 ≠ 0) = true := decide_eq_true h
    simp only [bad, hoff, Bool.true_or]
  rw [if_pos hbad]
  rfl

end

end Sys2Proof.Machine
end

section
open Sys2Proof Sys2Proof.Machine

/-- Settles O22: by what each write does to the partition or the die; what goes on after a csr.pool write keeps every pool. -/
theorem Sys2Proof.partitionRegisterEffects : Obligations.PartitionRegisterEffects := by
  intro s c p n v hp
  have hpmap : exec (.pmapWrite c n v) s = .next (if s.partOf c == some 0 then (s.writePmap n v).getD s else s) := rfl
  have hpool : exec (.poolWrite c v) s = .next (s.writePool c v) := rfl
  have hcgroup : exec (.cgroupWrite c v) s = .next (s.writeCgroup c v) := rfl
  have hrefctl : exec (.refctlWrite c v) s = .next (s.writeRefctl c v) := rfl
  have htlb : exec (.tlbInvalidate c v) s = .next (s.writeTlbinv c v) := rfl
  have hsnap : exec (.snapStart c v) s = .next (s.snap c v) := rfl
  rw [hpmap, hpool, hcgroup, hrefctl, htlb, hsnap]
  refine ⟨fun hzero hok => ?_, fun hbad => ?_, ?_, ?_, ?_, fun hall => ?_, fun hoff => ?_⟩
  · rw [hp, hzero, State.writePmap_ok hok]
    exact answers_next rfl
  · rw [State.writePmap_refused hbad, Option.getD_none, ite_self]
    exact answers_next rfl
  · rw [State.writePool_eq hp]
    have hpools : (s.pooled p v).SamePools (((s.pooled p v).unheld p).retryMerges p) := (State.SamePools.unheld _ p).retryMerges
    have hpart := s.pooled_part p v
    refine answers_next ⟨(hpools p).trans (congrArg PartSt.pool hpart), fun hheld hfree => ?_⟩
    have hheld' : ((s.pooled p v).part p).held = [] := (congrArg PartSt.held hpart).trans hheld
    obtain ⟨hmem, hteams⟩ := State.unheld_none hheld'
    rw [State.retryMerges_none (by rw [hteams]; exact hfree), hmem]
    rfl
  · obtain ⟨t, ht, hcolls, e⟩ := State.writeCgroup_eq (v := v) hp
    obtain ⟨ks, hks⟩ := State.foldl_modCore (s := t) (fun k => { k with groupSeq := Bank.fill 0, txnSeq := Bank.fill 0 }) (s.coresOf p)
    have hall := e.trans hks
    refine answers_next ⟨?_, ?_, fun d hd => ?_⟩
    · rw [hall]
      exact ht
    · rw [hall]
      exact hcolls
    · rw [e]
      exact State.core_foldl_modCore (q := fun k => k.groupSeq = Bank.fill 0 ∧ k.txnSeq = Bank.fill 0) (fun _ => ⟨rfl, rfl⟩) (.inr hd)
  · refine answers_next ⟨?_, fun d hd => ?_⟩
    · rw [State.writeRefctl, State.modDie, Bank.read_modify, if_pos rfl]
    · rw [State.writeRefctl, State.modDie, Bank.read_modify, if_neg (Ne.symm hd)]
  · rw [State.writeTlbinv_every hp hall]
    exact answers_next fun d e he hpart => State.dropTlb_every he hpart
  · rw [State.snap_misplaced hp hoff]
    refine answers_next ?_
    rw [State.part, State.modPart, Bank.read_modify, if_pos rfl]

end
